-- ==== Sys2Proof/Word.lean ====
section
/-! DEFINITION. The word types of the L9 (R4, R5, R54, R68): bytes, 32-bit lanes of a fetch line and
64-bit scalar words. -/

namespace Sys2Proof

/-- A scalar register, an address or an 8-byte memory word (R68). -/
abbrev Word := BitVec 64

/-- One byte of memory (R4). -/
abbrev Byte := BitVec 8

/-- One lane of a fetch line, or one lane of a vector register (R54, R68). -/
abbrev Lane := BitVec 32

end Sys2Proof
end

