-- ==== Sys2Proof/Syntax.lean ====
section
/-! DEFINITION. The syntax of the L9: one constructor of Instr per row of spec/opcode_table.json (261 rows: the
instructions of the nine engines, then the events and commands, which have no word), with every field decoded. -/

namespace Sys2Proof

/-- A scalar register field: s0 to s63 (R68). -/
abbrev SReg := BitVec 6
/-- A vector register v0 to v31. -/
abbrev VReg := BitVec 5
/-- A mask register m0 to m7. -/
abbrev MReg := BitVec 3
/-- A predicate p0 to p7. -/
abbrev PReg := BitVec 3
/-- A handle h0 to h31. -/
abbrev HReg := BitVec 5
/-- A tile descriptor td0 to td15. -/
abbrev TReg := BitVec 4
/-- A sketch slot k0 to k7. -/
abbrev KReg := BitVec 3
/-- A semaphore sm0 to sm31. -/
abbrev SemReg := BitVec 5
/-- The token bits T of format Q: T[3] wait left, T[2] wait right, T[1] give left, T[0] give right (R67, R76). -/
abbrev Tok := BitVec 4

/-- The nine streams of a task, coded as fltq codes them (R49, R114). -/
inductive Stream
  | seq | ldq | stq | vec | til | skq | cpy | lnk | atm
  deriving DecidableEq, Repr

/-- Condition codes of cmp, cmpi, waita and icmp (R81 Table 2, R202 Table 5). -/
inductive Cc
  | eq | ne | lt | ge | ltu | geu
  deriving DecidableEq, Repr

/-- Compare codes of fcmp (R202 Table 5). -/
inductive FCc
  | eq | ne | lt | ge | le | gt | un
  deriving DecidableEq, Repr

/-- Access sizes of lds and sts: 1, 2, 4, 8 bytes (R182). -/
inductive Sz
  | b1 | b2 | b4 | b8
  deriving DecidableEq, Repr

/-- Rounding modes (R133). -/
inductive Rm
  | rne | rz | rs
  deriving DecidableEq, Repr

/-- Scopes (R100, R379). -/
inductive Scope
  | core | cl | die | dev | sys
  deriving DecidableEq, Repr

/-- Fence and atomic kinds (R100, R273). -/
inductive Kind
  | acq | rel | ar
  deriving DecidableEq, Repr

/-- Paths with a code (R99, R378). -/
inductive Path
  | ld | st | mx | sk | cp | lk | at | nb
  deriving DecidableEq, Repr

/-- The fields that tset writes (R148). -/
inductive TField
  | base | rows | cols | pitch
  deriving DecidableEq, Repr

/-- Reduction and scan operations (R207 Table 6). -/
inductive RedOp
  | fadd | fmax | fmin | iadd | imax | imin | iand | ior
  deriving DecidableEq, Repr

/-- Key orders of vsort (R209). -/
inductive SortKey
  | u | s | f
  deriving DecidableEq, Repr

/-- Element widths of pack and unpack (R206). -/
inductive PackW
  | w16 | w8 | w4
  deriving DecidableEq, Repr

/-- Functions of tmap (R160 Table 6). -/
inductive MapFn
  | relu | neg | abs | sq | cvt
  deriving DecidableEq, Repr

/-- Operations of tred (R161). -/
inductive TRedOp
  | sum | max | min
  deriving DecidableEq, Repr

/-- Kinds of tview (R163). -/
inductive ViewKind
  | ident | tr | rows | cols | rbc | cbc
  deriving DecidableEq, Repr

/-- Parts of skapp (R226). -/
inductive Part
  | whole | first | last
  deriving DecidableEq, Repr

/-- Integer atomic operations (R267 Table 2). -/
inductive AtomOp
  | add | and | or | xor | min | max | minu | maxu | swap
  deriving DecidableEq, Repr

/-- Floating atomic operations (R267 Table 2). -/
inductive FatomOp
  | fadd32 | fmin32 | fmax32 | faddbf2
  deriving DecidableEq, Repr

/-- Near-bank operations (R267 Table 2). -/
inductive NbOp
  | axpy | scale | sum | adamw
  deriving DecidableEq, Repr

/-- Conditions of the continuation atomics (R268). -/
inductive KCond
  | eq | ne | ltu | geu
  deriving DecidableEq, Repr

/-- The sixteen element formats (R125 Table 1). -/
inductive Fmt
  | fp32 | x19 | bf16 | fp16 | e5m2 | e4m3 | e3m2 | e2m3 | e2m1 | int8 | uint8 | int4 | uint4 | int16 | int32 | e8m0
  deriving DecidableEq, Repr

/-- The system registers (R114 Table 7). -/
inductive SysReg
  | ctx | rcbp | task | core | fltc | fltv | fltq | thkrec | scoff | baseoff | pfd | fpst | rng | tmode | cyc | wdog
  deriving DecidableEq, Repr

/-- Lanes 2 and 3 of the matrix forms that tmma, tmmsp and tmmtr share (R156 Table 5). -/
structure MmExt where
  acc : Bool
  ta : Bool
  tb : Bool
  wait : Option SemReg
  sig : Option SemReg
  deriving DecidableEq, Repr

/-- Lane 2 of an atomic in layout L2: order and offset (R268). -/
structure AtOrd where
  kind : Option Kind
  scope : Scope
  deriving DecidableEq, Repr

/-- Lanes 2 and 3 of a continuation atomic in layout K2 (R268). -/
structure KExt where
  off8 : BitVec 8
  ar : Bool
  sys : Bool
  cond : KCond
  tpl : BitVec 10
  user : BitVec 32
  deriving DecidableEq, Repr

/-- What a peer chip's access asks of its home on this chip (R395, R440); engineStore is a write of an engine of that chip, with its path
and its SRC there. -/
inductive PeerOp
  | load (n : Nat)
  | store (bytes : List Byte)
  | engineStore (path : Path) (src : Word) (bytes : List Byte)
  | atom (op : AtomOp) (dbl : Bool) (operand : Word)
  | cas (dbl : Bool) (comparand new : Word)
  | fatom (op : FatomOp) (operand : BitVec 32)
  | vfadd (lanes : List (Option Lane))
  deriving DecidableEq, Repr

/-- What another chip's Pliron asks of this chip for a page (R401, R422); copyIn brings the bytes of a page that moves here, with its
poisoned lines and the blocks whose integrity tags do not match, both counted from the page's first byte. -/
inductive PeerSvc
  | transit | shootdown | copyOut | grantRap | refuse
  | install (leaf : Word)
  | copyIn (bytes : List Byte) (poison tags : List Nat)
  deriving DecidableEq, Repr

/-- The head of a Pliron command entry (R465 Table 2): the issuing function, TAG, CTX and HBUF. -/
structure Cmd where
  fn : BitVec 11
  tag : BitVec 32
  ctx : Word
  hbuf : Word
  deriving DecidableEq, Repr

/-- One constructor per row of the opcode table; the rule each row follows stands beside it. The rows without operands
stand last: the compiler gives a constructor with fields a tag below 245. -/
inductive Instr
  | add (d a b : SReg)  -- R82
  | sub (d a b : SReg)  -- R82
  | mul (d a b : SReg)  -- R82
  | mulh (d a b : SReg)  -- R82
  | mulhu (d a b : SReg)  -- R82
  | div (d a b : SReg)  -- R83
  | divu (d a b : SReg)  -- R83
  | rem (d a b : SReg)  -- R83
  | remu (d a b : SReg)  -- R83
  | and (d a b : SReg)  -- R82
  | or (d a b : SReg)  -- R82
  | xor (d a b : SReg)  -- R82
  | andn (d a b : SReg)  -- R82
  | shl (d a b : SReg)  -- R82
  | shr (d a b : SReg)  -- R82
  | sra (d a b : SReg)  -- R82
  | min (d a b : SReg)  -- R82
  | max (d a b : SReg)  -- R82
  | minu (d a b : SReg)  -- R82
  | maxu (d a b : SReg)  -- R82
  | clz (d a : SReg)  -- R82
  | ctz (d a : SReg)  -- R82
  | popc (d a : SReg)  -- R82
  | cmpCc (cc : Cc) (d : PReg) (a b : SReg)  -- R84
  | sel (d : SReg) (p : PReg) (a b : SReg)  -- R84
  | lea (d a b : SReg) (k : BitVec 3)  -- R84
  | bfx (d a : SReg) (pos len : BitVec 6)  -- R85
  | bfi (d a : SReg) (pos len : BitVec 6)  -- R85
  | addi (d a : SReg) (imm : BitVec 12)  -- R86
  | andi (d a : SReg) (imm : BitVec 12)  -- R86
  | ori (d a : SReg) (imm : BitVec 12)  -- R86
  | xori (d a : SReg) (imm : BitVec 12)  -- R86
  | shli (d a : SReg) (k : BitVec 6)  -- R86
  | shri (d a : SReg) (k : BitVec 6)  -- R86
  | srai (d a : SReg) (k : BitVec 6)  -- R86
  | cmpiCc (cc : Cc) (d : PReg) (a : SReg) (imm : BitVec 12)  -- R87
  | movi (d : SReg) (imm : BitVec 32)  -- R88
  | movhi (d : SReg) (imm : BitVec 32)  -- R88
  | br (p : PReg) (n : Bool) (off : BitVec 20)  -- R89
  | call (p : PReg) (n : Bool) (off : BitVec 20)  -- R90
  | jmp (d a : SReg)  -- R91
  | loop (a : SReg) (off : BitVec 18)  -- R92
  | xlt (h : HReg) (a : SReg) (tag : BitVec 8) (fetch write : Bool)  -- R93
  | hinv (h : HReg)  -- R96
  | hstat (d : SReg) (h : HReg)  -- R96
  | wait (ld st cp ti : BitVec 6)  -- R97
  | xfence (x y : Path)  -- R99
  | fence (kind : Kind) (scope : Scope)  -- R100
  | waita (d a b : SReg) (cc : Cc) (timeout : BitVec 32)  -- R101
  | semSig (sm : SemReg) (k : BitVec 6)  -- R103
  | semWait (d : SReg) (sm : SemReg) (k : BitVec 6) (timeout : BitVec 32)  -- R103
  | semSet (sm : SemReg) (b : SReg)  -- R103
  | ifsync (a b : SReg)  -- R108
  | spawn (d a b x : SReg) (tpl : BitVec 10)  -- R110
  | arg (d : SReg) (i : BitVec 2)  -- R112
  | tid (d : SReg) (sel : BitVec 2)  -- R113
  | rdsr (d : SReg) (r : SysReg)  -- R114
  | wrsr (r : SysReg) (a : SReg)  -- R114
  | trap (d a : SReg) (svc : BitVec 12)  -- R119
  | brk (code : BitVec 12)  -- R120
  | resume (a : SReg)  -- R430
  | rdtime (d : SReg)  -- R122
  | pfd (a : SReg)  -- R123
  | rngseed (a : SReg)  -- R124
  | lds (h : HReg) (u : Bool) (sz : Sz) (off : BitVec 32) (t : Tok)  -- R185
  | vld (d : VReg) (h : HReg) (m : Option MReg) (off : BitVec 32) (t : Tok)  -- R186
  | vldr (d : VReg) (h : HReg) (m : Option MReg) (off : BitVec 32) (t : Tok)  -- R187
  | vlds (d : VReg) (h : HReg) (b : SReg) (off : BitVec 32) (t : Tok)  -- R186
  | vldg (d : VReg) (h : HReg) (b : VReg) (t : Tok)  -- R186
  | vlsp (d : VReg) (a : SReg) (t : Tok)  -- R187
  | vlbc (d : VReg) (h : HReg) (off : BitVec 32) (t : Tok)  -- R186
  | ldpf (h : HReg) (b : SReg) (off : BitVec 32) (t : Tok)  -- R189
  | sts (h : HReg) (sz : Sz) (off : BitVec 32) (t : Tok)  -- R190
  | vst (d : VReg) (h : HReg) (rm : Rm) (m : Option MReg) (off : BitVec 32) (t : Tok)  -- R191
  | vstr (d : VReg) (h : HReg) (m : Option MReg) (off : BitVec 32) (t : Tok)  -- R192
  | vsts (d : VReg) (h : HReg) (b : SReg) (rm : Rm) (off : BitVec 32) (t : Tok)  -- R191
  | vsct (d : VReg) (h : HReg) (b : VReg) (rm : Rm) (t : Tok)  -- R191
  | vssp (d : VReg) (a : SReg) (t : Tok)  -- R188
  | lcln (h : HReg) (off : BitVec 32) (t : Tok)  -- R194
  | linv (h : HReg) (off : BitVec 32) (t : Tok)  -- R194
  | vfaddnr (d : VReg) (h : HReg) (m : Option MReg) (off : BitVec 32) (t : Tok)  -- R195
  | fadd (d a b : VReg) (t : Tok)  -- R199
  | fsub (d a b : VReg) (t : Tok)  -- R199
  | fmul (d a b : VReg) (t : Tok)  -- R199
  | fma (d a b c : VReg) (t : Tok)  -- R199
  | fmin (d a b : VReg) (t : Tok)  -- R200
  | fmax (d a b : VReg) (t : Tok)  -- R200
  | fabs (d a : VReg) (t : Tok)  -- R200
  | fneg (d a : VReg) (t : Tok)  -- R200
  | frcp (d a : VReg) (t : Tok)  -- R201
  | frsq (d a : VReg) (t : Tok)  -- R201
  | fsqrt (d a : VReg) (t : Tok)  -- R201
  | fexp2 (d a : VReg) (t : Tok)  -- R201
  | flog2 (d a : VReg) (t : Tok)  -- R201
  | fcmpCc (cc : FCc) (d : MReg) (a b : VReg) (t : Tok)  -- R202
  | iadd (d a b : VReg) (t : Tok)  -- R203
  | isub (d a b : VReg) (t : Tok)  -- R203
  | imul (d a b : VReg) (t : Tok)  -- R203
  | iand (d a b : VReg) (t : Tok)  -- R203
  | ior (d a b : VReg) (t : Tok)  -- R203
  | ixor (d a b : VReg) (t : Tok)  -- R203
  | ishl (d a b : VReg) (t : Tok)  -- R203
  | ishr (d a b : VReg) (t : Tok)  -- R203
  | isra (d a b : VReg) (t : Tok)  -- R203
  | imin (d a b : VReg) (t : Tok)  -- R203
  | imax (d a b : VReg) (t : Tok)  -- R203
  | icmpCc (cc : Cc) (d : MReg) (a b : VReg) (t : Tok)  -- R203
  | vmov (d a : VReg) (t : Tok)  -- R204
  | vmovi (d : VReg) (imm : BitVec 32) (t : Tok)  -- R204
  | vsel (d a : VReg) (m : MReg) (t : Tok)  -- R204
  | vperm (d a b : VReg) (t : Tok)  -- R204
  | vbcast (d : VReg) (t : Tok)  -- R204
  | vlane (d : VReg) (t : Tok)  -- R204
  | cvt (d a : VReg) (src dst : Fmt) (rm : Rm) (m : Option MReg) (t : Tok)  -- R205
  | pack (d a b : VReg) (w : PackW) (t : Tok)  -- R206
  | unpack (d a : VReg) (part : BitVec 6) (w : PackW) (t : Tok)  -- R206
  | vred (op : RedOp) (a : VReg) (m : Option MReg) (t : Tok)  -- R207
  | vscan (op : RedOp) (d a : VReg) (t : Tok)  -- R208
  | vsort (key : SortKey) (d a : VReg) (t : Tok)  -- R209
  | vuniq (d : MReg) (a b : VReg) (t : Tok)  -- R210
  | vsegsum (int : Bool) (d a : VReg) (m : MReg) (t : Tok)  -- R211
  | mand (d a b : MReg) (t : Tok)  -- R212
  | mor (d a b : MReg) (t : Tok)  -- R212
  | mxor (d a b : MReg) (t : Tok)  -- R212
  | mnot (d a : MReg) (t : Tok)  -- R212
  | mpop (a : MReg) (t : Tok)  -- R212
  | mfirst (d a : MReg) (t : Tok)  -- R212
  | tset (d : TReg) (f : TField) (a : SReg)  -- R148
  | tclr (d : TReg)  -- R149
  | tmma (d a b : TReg) (e : MmExt)  -- R156
  | tmmsp (d a b md : TReg) (e : MmExt)  -- R157
  | tmmtr (d a b : TReg) (doff : BitVec 16) (fill : SReg) (e : MmExt)  -- R158
  | tadd (d a b : TReg)  -- R160
  | tmul (d a b : TReg)  -- R160
  | tscal (d a : TReg) (b : SReg)  -- R160
  | tmap (fn : MapFn) (d a : TReg)  -- R160
  | tred (op : TRedOp) (cols : Bool) (d a : TReg)  -- R161
  | tview (k : ViewKind) (d a : TReg) (off : BitVec 14)  -- R163
  | tcpy (d a : TReg)  -- R162
  | force (d : TReg) (row0 : BitVec 7) (rows : BitVec 8) (col0 : BitVec 7) (cols : BitVec 8)  -- R164
  | tst (s d : TReg)  -- R165
  | tdrop (d : TReg)  -- R175
  | tstat (a : TReg) (sel : BitVec 2)  -- R176
  | tmode (ovf aliasPol : Bool)  -- R177
  | skbind (k : KReg) (a : SReg)  -- R228
  | skinit (k : KReg)  -- R229
  | skapp (part : Part) (k : KReg) (a b : TReg)  -- R230
  | skshr (k : KReg) (a : SReg)  -- R232
  | skmrg (d a : KReg)  -- R233
  | skrd (v : Bool) (k : KReg) (a : TReg) (b : SReg)  -- R234
  | skapply (k : KReg) (a : TReg) (b : SReg) (alpha : BitVec 32)  -- R235
  | skde (k : KReg)  -- R236
  | skrank (k : KReg)  -- R236
  | sksave (k : KReg)  -- R237
  | skunbind (k : KReg)  -- R238
  | cpy (a : SReg)  -- R288
  | cpyi (d a b : SReg) (tag : BitVec 8) (sig : Option SemReg)  -- R288
  | cqstat (a : SReg)  -- R288
  | copyHandout (engine : Bool)  -- R289
  | copyComplete (engine : Bool)  -- R298
  | lsend (d a b : SReg) (cw : Option SReg) (tag : BitVec 8)  -- R303
  | lrecv (d a b : SReg) (cw : Option SReg) (tag : BitVec 8)  -- R303
  | lradd (d a b : SReg) (cw : Option SReg) (tag : BitVec 8) (cidx : BitVec 4)  -- R303
  | lstat (clr : Bool)  -- R304
  | linkFlitReceive (peer : BitVec 10) (chan : BitVec 8) (senderCount : Nat) (payload : List Byte) (poisoned : Bool)  -- R475
  | flitCrcRetry (port : BitVec 5)  -- R475
  | linkPeerUnreachable (peer : BitVec 10)  -- R305
  | linkFlitTimeout (peer : BitVec 10) (chan : BitVec 8)  -- R305
  | linkPeerReachable (peer : BitVec 10)  -- R305
  | atom (op : AtomOp) (dbl : Bool) (h : HReg) (b : SReg) (o : AtOrd) (off : BitVec 19)  -- R269
  | atomnr (op : AtomOp) (dbl : Bool) (h : HReg) (b : SReg) (o : AtOrd) (off : BitVec 19)  -- R269
  | fatom (op : FatomOp) (h : HReg) (b : SReg) (o : AtOrd) (off : BitVec 19)  -- R270
  | fatomnr (op : FatomOp) (h : HReg) (b : SReg) (o : AtOrd) (off : BitVec 19)  -- R270
  | cas (dbl : Bool) (h : HReg) (b d : SReg) (o : AtOrd) (off : BitVec 19)  -- R271
  | atomk (op : AtomOp) (dbl : Bool) (h : HReg) (b d : SReg) (e : KExt)  -- R276
  | cask (dbl : Bool) (h : HReg) (b d : SReg) (e : KExt)  -- R276
  | qpush (h : HReg) (b : SReg) (o : AtOrd) (off : BitVec 19)  -- R283
  | qpop (h : HReg) (o : AtOrd) (off : BitVec 19)  -- R283
  | dcdec (h : HReg) (off : BitVec 19)  -- R281
  | nbx (op : NbOp) (a : SReg) (o : AtOrd)  -- R286
  | walkComplete (n : Nat)  -- R415
  | scratchpadPageFill (page : BitVec 5)  -- R353
  | stagedToRunning (core : Nat)  -- R43
  | owlPlace (die : BitVec 2)  -- R323
  | owlUnstage (die : BitVec 2)  -- R326
  | owlPreempt (die : BitVec 2)  -- R326
  | equalPriorityTimeslice (die : BitVec 2)  -- R327
  | abortComplete (ctx : Nat) (rcb : Word)  -- R34
  | launchAccept (ctx : Nat) (queue : BitVec 6)  -- R39
  | distributionPass (die : BitVec 2) (serial : Nat)  -- R314
  | cursorEnqueue (die : BitVec 2)  -- R314
  | clqDrain (home : Nat)  -- R280
  | replayHoldRelease (stream : Stream)  -- R458
  | launchRetire (serial : Nat)  -- R38
  | peerAccessArrival (chip : BitVec 10) (port : BitVec 5) (pa : Nat) (op : PeerOp)  -- R395
  | hostWrite (ctx : Nat) (va : Word) (bytes : List Byte)  -- R391
  | hostRead (ctx : Nat) (va : Word) (n : Nat)  -- R391
  | hostCompletionTimeout (stream : Stream)  -- R427
  | lineUncorrectableError (line : Nat)  -- R434
  | poolEntryUe (handle : Nat) (readable : Bool)  -- R329
  | dcWordUe (pa : Nat)  -- R330
  | parityError (handle : Nat)  -- R436
  | functionLevelReset (fn : BitVec 11)  -- R471
  | thermalTrip (die : BitVec 2) (temp : Byte)  -- R478
  | throttleHold (cycles : Nat)  -- R478
  | cqtailDoorbell (fn : BitVec 11) (v : BitVec 32)  -- R463
  | cpheadWrite (fn : BitVec 11) (v : BitVec 32)  -- R464
  | ctrlWrite (fn : BitVec 11) (v : BitVec 32)  -- R464
  | prdbWrite (fn : BitVec 11) (v : Word)  -- R468
  | doorbellRegisterWrite (fn : BitVec 11) (off : BitVec 12) (v : Word)  -- R464
  | createContext (c : Cmd) (mib : BitVec 32) (spill : BitVec 16) (chanFirst chanCount : BitVec 8) (prBase : Word) (prSize : BitVec 32)  -- R466
  | destroyContext (c : Cmd)  -- R471
  | map (c : Cmd) (va leaf : Word)  -- R467
  | unmap (c : Cmd) (va : Word) (count : BitVec 32)  -- R467
  | pin (c : Cmd) (va : Word)  -- R467
  | registerTemplate (c : Cmd) (ttbl : Word)  -- R469
  | launch (c : Cmd) (queue : BitVec 8) (packet csva : Word) (cssz csfmt : BitVec 8)  -- R37
  | abortRcb (c : Cmd) (rcb : Word)  -- R466
  | readFaultLog (c : Cmd) (rcb : Word) (max : BitVec 32)  -- R467
  | buffersRead (c : Cmd) (die : BitVec 8) (first count : BitVec 16)  -- R455
  | buffersReadClear (c : Cmd) (die : BitVec 8) (first count : BitVec 16)  -- R455
  | buffersClear (c : Cmd) (die : BitVec 8) (first count : BitVec 16)  -- R455
  | buffersProgram (c : Cmd) (die : BitVec 8) (first count : BitVec 16) (ctl : Word)  -- R455
  | attest (c : Cmd)  -- R473
  | resetFunction (c : Cmd) (fn : BitVec 16)  -- R471
  | traceSet (c : Cmd) (mask : BitVec 8) (n : BitVec 32) (base : Word) (wthresh logN : BitVec 32) (logVa : Word)  -- R452
  | traceRead (c : Cmd)  -- R452
  | traceSettail (c : Cmd) (tail : BitVec 32)  -- R452
  | debugAttach (c : Cmd)  -- R439
  | debugDetach (c : Cmd)  -- R447
  | debugHalt (c : Cmd)  -- R447
  | debugResume (c : Cmd)  -- R447
  | debugStep (c : Cmd) (handle : BitVec 32)  -- R449
  | rootComplexCompletion (stream : Stream) (bytes : List Byte) (error : Bool)  -- R413
  | peerHomeAnswer (stream : Stream) (bytes : List Byte) (refused poisoned : Bool)  -- R395
  | linkSendAccepted (peer : BitVec 10) (chan : BitVec 8) (recvCount : Nat)  -- R303
  | peerServiceRequest (chip : BitVec 10) (pa : Nat) (size : Nat) (svc : PeerSvc)  -- R422
  | configurationRequest (fn : BitVec 11) (write : Bool) (numVfs : BitVec 16)  -- R477
  | lineEntry  -- R61
  | queueDispatch  -- R60
  | nop  -- R71
  | ret  -- R91
  | mark  -- R98
  | waitaSatisfied  -- R101
  | waitaTimeout  -- R101
  | semWaitSatisfied  -- R103
  | semWaitTimeout  -- R103
  | yield  -- R107
  | done  -- R47
  | doneSuccessorDecrement  -- R281
  | tflush  -- R166
  | thunkSemWait  -- R159
  | matrixCommandComplete  -- R169
  | afence  -- R274
  | preemptionCut  -- R425
  | cycusedUpdate  -- R31
  | budget  -- R31
  | wdog  -- R32
  | powerOn  -- R477
  | perstAssert  -- R477
  | stepEnd  -- R449
  deriving DecidableEq, Repr

end Sys2Proof
end

