-- ==== Sys2Proof/Decode.lean ====
section
/-! DEFINITION. The encodings of chapters 4, 5, 7, 8, 10 and 12 (R54 to R74): the code tables, the lane formats,
the decoder of one instruction (checks 1 to 3 of R63, total on any lanes), the port check (check 5), the command
entries of Pliron (R465 to R467), and the encoder written from the same tables. -/

namespace Sys2Proof

/-! ## Code tables -/

/-- The code of each name (R81). -/
def Cc.code : Cc → BitVec 3
  | .eq => 0
  | .ne => 1
  | .lt => 2
  | .ge => 3
  | .ltu => 4
  | .geu => 5

/-- The name of a code, none where the code is undefined (R81). -/
def Cc.ofCode (c : BitVec 3) : Option Cc :=
  match c.toNat with
  | 0 => some .eq
  | 1 => some .ne
  | 2 => some .lt
  | 3 => some .ge
  | 4 => some .ltu
  | 5 => some .geu
  | _ => none

/-- The code of each name (R202). -/
def FCc.code : FCc → BitVec 3
  | .eq => 0
  | .ne => 1
  | .lt => 2
  | .ge => 3
  | .le => 4
  | .gt => 5
  | .un => 6

/-- The name of a code, none where the code is undefined (R202). -/
def FCc.ofCode (c : BitVec 3) : Option FCc :=
  match c.toNat with
  | 0 => some .eq
  | 1 => some .ne
  | 2 => some .lt
  | 3 => some .ge
  | 4 => some .le
  | 5 => some .gt
  | 6 => some .un
  | _ => none

/-- The code of each name (R182). -/
def Sz.code : Sz → BitVec 2
  | .b1 => 0
  | .b2 => 1
  | .b4 => 2
  | .b8 => 3

/-- The name of a code, none where the code is undefined (R182). -/
def Sz.ofCode (c : BitVec 2) : Option Sz :=
  match c.toNat with
  | 0 => some .b1
  | 1 => some .b2
  | 2 => some .b4
  | 3 => some .b8
  | _ => none

/-- The code of each name (R133). -/
def Rm.code : Rm → BitVec 2
  | .rne => 0
  | .rz => 1
  | .rs => 2

/-- The name of a code, none where the code is undefined (R133). -/
def Rm.ofCode (c : BitVec 2) : Option Rm :=
  match c.toNat with
  | 0 => some .rne
  | 1 => some .rz
  | 2 => some .rs
  | _ => none

/-- The code of each name (R100). -/
def Scope.code : Scope → BitVec 3
  | .core => 0
  | .cl => 1
  | .die => 2
  | .dev => 3
  | .sys => 4

/-- The name of a code, none where the code is undefined (R100). -/
def Scope.ofCode (c : BitVec 3) : Option Scope :=
  match c.toNat with
  | 0 => some .core
  | 1 => some .cl
  | 2 => some .die
  | 3 => some .dev
  | 4 => some .sys
  | _ => none

/-- The code of each name (R99). -/
def Path.code : Path → BitVec 4
  | .ld => 0
  | .st => 1
  | .mx => 2
  | .sk => 3
  | .cp => 4
  | .lk => 5
  | .at => 6
  | .nb => 7

/-- The name of a code, none where the code is undefined (R99). -/
def Path.ofCode (c : BitVec 4) : Option Path :=
  match c.toNat with
  | 0 => some .ld
  | 1 => some .st
  | 2 => some .mx
  | 3 => some .sk
  | 4 => some .cp
  | 5 => some .lk
  | 6 => some .at
  | 7 => some .nb
  | _ => none

/-- The code of each name (R148). -/
def TField.code : TField → BitVec 6
  | .base => 0
  | .rows => 1
  | .cols => 2
  | .pitch => 3

/-- The name of a code, none where the code is undefined (R148). -/
def TField.ofCode (c : BitVec 6) : Option TField :=
  match c.toNat with
  | 0 => some .base
  | 1 => some .rows
  | 2 => some .cols
  | 3 => some .pitch
  | _ => none

/-- The code of each name (R207). -/
def RedOp.code : RedOp → BitVec 6
  | .fadd => 0
  | .fmax => 1
  | .fmin => 2
  | .iadd => 3
  | .imax => 4
  | .imin => 5
  | .iand => 6
  | .ior => 7

/-- The name of a code, none where the code is undefined (R207). -/
def RedOp.ofCode (c : BitVec 6) : Option RedOp :=
  match c.toNat with
  | 0 => some .fadd
  | 1 => some .fmax
  | 2 => some .fmin
  | 3 => some .iadd
  | 4 => some .imax
  | 5 => some .imin
  | 6 => some .iand
  | 7 => some .ior
  | _ => none

/-- The code of each name (R209). -/
def SortKey.code : SortKey → BitVec 2
  | .u => 0
  | .s => 1
  | .f => 2

/-- The name of a code, none where the code is undefined (R209). -/
def SortKey.ofCode (c : BitVec 2) : Option SortKey :=
  match c.toNat with
  | 0 => some .u
  | 1 => some .s
  | 2 => some .f
  | _ => none

/-- The code of each name (R206). -/
def PackW.code : PackW → BitVec 2
  | .w16 => 0
  | .w8 => 1
  | .w4 => 2

/-- The name of a code, none where the code is undefined (R206). -/
def PackW.ofCode (c : BitVec 2) : Option PackW :=
  match c.toNat with
  | 0 => some .w16
  | 1 => some .w8
  | 2 => some .w4
  | _ => none

/-- The code of each name (R160). -/
def MapFn.code : MapFn → BitVec 6
  | .relu => 0
  | .neg => 1
  | .abs => 2
  | .sq => 3
  | .cvt => 4

/-- The name of a code, none where the code is undefined (R160). -/
def MapFn.ofCode (c : BitVec 6) : Option MapFn :=
  match c.toNat with
  | 0 => some .relu
  | 1 => some .neg
  | 2 => some .abs
  | 3 => some .sq
  | 4 => some .cvt
  | _ => none

/-- The code of each name (R160). -/
def TRedOp.code : TRedOp → BitVec 2
  | .sum => 0
  | .max => 1
  | .min => 2

/-- The name of a code, none where the code is undefined (R160). -/
def TRedOp.ofCode (c : BitVec 2) : Option TRedOp :=
  match c.toNat with
  | 0 => some .sum
  | 1 => some .max
  | 2 => some .min
  | _ => none

/-- The code of each name (R163). -/
def ViewKind.code : ViewKind → BitVec 4
  | .ident => 0
  | .tr => 1
  | .rows => 2
  | .cols => 3
  | .rbc => 4
  | .cbc => 5

/-- The name of a code, none where the code is undefined (R163). -/
def ViewKind.ofCode (c : BitVec 4) : Option ViewKind :=
  match c.toNat with
  | 0 => some .ident
  | 1 => some .tr
  | 2 => some .rows
  | 3 => some .cols
  | 4 => some .rbc
  | 5 => some .cbc
  | _ => none

/-- The code of each name (R226). -/
def Part.code : Part → BitVec 6
  | .whole => 0
  | .first => 1
  | .last => 2

/-- The name of a code, none where the code is undefined (R226). -/
def Part.ofCode (c : BitVec 6) : Option Part :=
  match c.toNat with
  | 0 => some .whole
  | 1 => some .first
  | 2 => some .last
  | _ => none

/-- The code of each name (R267). -/
def AtomOp.code : AtomOp → BitVec 4
  | .add => 0
  | .and => 1
  | .or => 2
  | .xor => 3
  | .min => 4
  | .max => 5
  | .minu => 6
  | .maxu => 7
  | .swap => 8

/-- The name of a code, none where the code is undefined (R267). -/
def AtomOp.ofCode (c : BitVec 4) : Option AtomOp :=
  match c.toNat with
  | 0 => some .add
  | 1 => some .and
  | 2 => some .or
  | 3 => some .xor
  | 4 => some .min
  | 5 => some .max
  | 6 => some .minu
  | 7 => some .maxu
  | 8 => some .swap
  | _ => none

/-- The code of each name (R267). -/
def FatomOp.code : FatomOp → BitVec 4
  | .fadd32 => 0
  | .fmin32 => 1
  | .fmax32 => 2
  | .faddbf2 => 3

/-- The name of a code, none where the code is undefined (R267). -/
def FatomOp.ofCode (c : BitVec 4) : Option FatomOp :=
  match c.toNat with
  | 0 => some .fadd32
  | 1 => some .fmin32
  | 2 => some .fmax32
  | 3 => some .faddbf2
  | _ => none

/-- The code of each name (R267). -/
def NbOp.code : NbOp → BitVec 4
  | .axpy => 0
  | .scale => 1
  | .sum => 2
  | .adamw => 3

/-- The name of a code, none where the code is undefined (R267). -/
def NbOp.ofCode (c : BitVec 4) : Option NbOp :=
  match c.toNat with
  | 0 => some .axpy
  | 1 => some .scale
  | 2 => some .sum
  | 3 => some .adamw
  | _ => none

/-- The code of each name (R268). -/
def KCond.code : KCond → BitVec 2
  | .eq => 0
  | .ne => 1
  | .ltu => 2
  | .geu => 3

/-- The name of a code, none where the code is undefined (R268). -/
def KCond.ofCode (c : BitVec 2) : Option KCond :=
  match c.toNat with
  | 0 => some .eq
  | 1 => some .ne
  | 2 => some .ltu
  | 3 => some .geu
  | _ => none

/-- The code of each name (R125). -/
def Fmt.code : Fmt → BitVec 4
  | .fp32 => 0
  | .x19 => 1
  | .bf16 => 2
  | .fp16 => 3
  | .e5m2 => 4
  | .e4m3 => 5
  | .e3m2 => 6
  | .e2m3 => 7
  | .e2m1 => 8
  | .int8 => 9
  | .uint8 => 10
  | .int4 => 11
  | .uint4 => 12
  | .int16 => 13
  | .int32 => 14
  | .e8m0 => 15

/-- The name of a code, none where the code is undefined (R125). -/
def Fmt.ofCode (c : BitVec 4) : Option Fmt :=
  match c.toNat with
  | 0 => some .fp32
  | 1 => some .x19
  | 2 => some .bf16
  | 3 => some .fp16
  | 4 => some .e5m2
  | 5 => some .e4m3
  | 6 => some .e3m2
  | 7 => some .e2m3
  | 8 => some .e2m1
  | 9 => some .int8
  | 10 => some .uint8
  | 11 => some .int4
  | 12 => some .uint4
  | 13 => some .int16
  | 14 => some .int32
  | 15 => some .e8m0
  | _ => none

/-- The kind code of a fence or an atomic: none 0, acq 1, rel 2, ar 3 (R100, R268). -/
def kindCode : Option Kind → BitVec 2
  | none => 0
  | some .acq => 1
  | some .rel => 2
  | some .ar => 3

/-- The kind that a code names (R100, R268). -/
def kindOf (c : BitVec 2) : Option Kind :=
  match c.toNat with
  | 1 => some .acq
  | 2 => some .rel
  | 3 => some .ar
  | _ => none

/-- Selector of each system register (R114 Table 7). -/
def SysReg.code : SysReg → BitVec 12
  | .ctx => 0x000
  | .rcbp => 0x001
  | .task => 0x002
  | .core => 0x003
  | .fltc => 0x010
  | .fltv => 0x011
  | .fltq => 0x012
  | .thkrec => 0x013
  | .scoff => 0x020
  | .baseoff => 0x021
  | .pfd => 0x022
  | .fpst => 0x030
  | .rng => 0x031
  | .tmode => 0x032
  | .cyc => 0x040
  | .wdog => 0x041

/-- The register of a selector; an unlisted selector names none (R114). -/
def SysReg.ofCode (c : BitVec 12) : Option SysReg :=
  match c.toNat with
  | 0x000 => some .ctx
  | 0x001 => some .rcbp
  | 0x002 => some .task
  | 0x003 => some .core
  | 0x010 => some .fltc
  | 0x011 => some .fltv
  | 0x012 => some .fltq
  | 0x013 => some .thkrec
  | 0x020 => some .scoff
  | 0x021 => some .baseoff
  | 0x022 => some .pfd
  | 0x030 => some .fpst
  | 0x031 => some .rng
  | 0x032 => some .tmode
  | 0x040 => some .cyc
  | 0x041 => some .wdog
  | _ => none

/-- wrsr may write pfd, fpst and rng alone (R114 Table 7). -/
def SysReg.writable : SysReg → Bool
  | .pfd => true
  | .fpst => true
  | .rng => true
  | _ => false

/-- The stream code of fltq (R114). -/
def Stream.code : Stream → BitVec 4
  | .seq => 0
  | .ldq => 1
  | .stq => 2
  | .vec => 3
  | .til => 4
  | .skq => 5
  | .cpy => 6
  | .lnk => 7
  | .atm => 8

/-- The index of a stream, as fltq codes it. -/
def Stream.ix (k : Stream) : Fin 9 :=
  match k with
  | .seq => 0
  | .ldq => 1
  | .stq => 2
  | .vec => 3
  | .til => 4
  | .skq => 5
  | .cpy => 6
  | .lnk => 7
  | .atm => 8

/-- The depth of a queue (R56 Table 1). -/
def Stream.depth : Stream → Nat
  | .seq => 0
  | .ldq => 64
  | .stq => 64
  | .vec => 64
  | .til => 32
  | .skq => 16
  | .cpy => 16
  | .lnk => 16
  | .atm => 32

/-- The lane kind nibble of an engine's first lanes (R56 Table 1). -/
def Stream.nibble (k : Stream) : BitVec 4 := k.code + 1

/-- The engine of a first-lane nibble 0x1 to 0x9 (R56 Table 1). -/
def Stream.ofNibble (c : BitVec 4) : Option Stream :=
  match c.toNat with
  | 1 => some .seq
  | 2 => some .ldq
  | 3 => some .stq
  | 4 => some .vec
  | 5 => some .til
  | 6 => some .skq
  | 7 => some .cpy
  | 8 => some .lnk
  | 9 => some .atm
  | _ => none

/-! ## Lane formats (R65 Table 4a) -/

/-- Format RRR, and format W with its four limits. -/
def rrr (op : BitVec 8) (d a b x : BitVec 6) : Lane := op ++ d ++ a ++ b ++ x

/-- Format RRI. -/
def rri (op : BitVec 8) (d a : BitVec 6) (imm : BitVec 12) : Lane := op ++ d ++ a ++ imm

/-- Format Q: x is bits [5:4] and T bits [3:0] (R67). -/
def fq (op : BitVec 8) (d a b : BitVec 6) (x : BitVec 2) (t : Tok) : Lane := op ++ d ++ a ++ b ++ x ++ t

/-- Format B. -/
def fb (op : BitVec 8) (p : PReg) (n : Bool) (off : BitVec 20) : Lane := op ++ p ++ BitVec.ofBool n ++ off

/-- Format RL. -/
def rl (op : BitVec 8) (a : BitVec 6) (off : BitVec 18) : Lane := op ++ a ++ off

/-- OP of a first lane. -/
def fOp (l : Lane) : BitVec 8 := l.extractLsb' 24 8
/-- Field d. -/
def fD (l : Lane) : BitVec 6 := l.extractLsb' 18 6
/-- Field a. -/
def fA (l : Lane) : BitVec 6 := l.extractLsb' 12 6
/-- Field b. -/
def fB (l : Lane) : BitVec 6 := l.extractLsb' 6 6
/-- Field x of format RRR. -/
def fX (l : Lane) : BitVec 6 := l.extractLsb' 0 6
/-- imm12 of format RRI. -/
def fImm (l : Lane) : BitVec 12 := l.extractLsb' 0 12
/-- Field x of format Q. -/
def fXq (l : Lane) : BitVec 2 := l.extractLsb' 4 2
/-- Field T of format Q. -/
def fT (l : Lane) : Tok := l.extractLsb' 0 4

/-- A field that names a register of a smaller file, or a value of fewer bits: none when it is too large (R68). -/
def narrow {n : Nat} (w : Nat) (f : BitVec n) : Option (BitVec w) :=
  if f.toNat < 2 ^ w then some (f.setWidth w) else none

/-- The instruction, when a check of its fields holds (R63, check 3). -/
def given (c : Bool) (i : Instr) : Option Instr := if c then some i else none

/-- The b and x fields of a form with an optional mask [2:0] and the masked bit x[4] (R182, R184). -/
def maskX (m : Option MReg) : BitVec 2 := BitVec.setWidth 2 (BitVec.ofBool m.isSome)

/-- The mask of a masked form; without the masked bit the mask field must be zero (R182). -/
def maskOf (b : BitVec 3) (x : BitVec 2) : Option (Option MReg) :=
  if x = 1 then some (some b) else if x = 0 ∧ b = 0 then some none else none

/-- An enabled semaphore field: number and enable (R156, R288). -/
def semOf (en : Bool) (s : SemReg) : Option (Option SemReg) :=
  if en then some (some s) else if s = 0 then some none else none

/-- Lane 2 of tmma, tmmsp and tmmtr: upper fields, BETA, TB, TA (R156 Table 5). -/
def mmLane2 (doff : BitVec 16) (f : BitVec 6) (e : MmExt) : Lane :=
  (0 : BitVec 7) ++ doff ++ f ++ BitVec.ofBool e.acc ++ BitVec.ofBool e.tb ++ BitVec.ofBool e.ta

/-- Lane 3 of the matrix forms (R156 Table 5). -/
def mmLane3 (e : MmExt) : Lane :=
  (0 : BitVec 16) ++ BitVec.ofBool e.wait.isSome ++ (0 : BitVec 2) ++ e.wait.getD 0 ++
    BitVec.ofBool e.sig.isSome ++ (0 : BitVec 2) ++ e.sig.getD 0

/-- The matrix fields of lanes 2 and 3, with the reserved bits of lane 3 and lane 2 [31:25] checked (R156). -/
def mmOf (l2 l3 : Lane) : Option MmExt :=
  match semOf (l3.getLsbD 15) (l3.extractLsb' 8 5), semOf (l3.getLsbD 7) (l3.extractLsb' 0 5) with
  | some w, some s =>
    if l3.extractLsb' 16 16 = 0 ∧ l3.extractLsb' 13 2 = 0 ∧ l3.extractLsb' 5 2 = 0 ∧ l2.extractLsb' 25 7 = 0 then
      some ⟨l2.getLsbD 2, l2.getLsbD 0, l2.getLsbD 1, w, s⟩
    else none
  | _, _ => none

/-- Lane 2 of an atomic in layout L2 (R268). -/
def atLane (o : AtOrd) (off : BitVec 19) : Lane := (0 : BitVec 8) ++ kindCode o.kind ++ o.scope.code ++ off

/-- Order fields of layout L2: a scope without a kind is undefined, and return-free forms admit rel alone (R268). -/
def atOf (relOnly : Bool) (l : Lane) : Option AtOrd :=
  match Scope.ofCode (l.extractLsb' 19 3) with
  | none => none
  | some sc =>
    let k := kindOf (l.extractLsb' 22 2)
    if l.extractLsb' 24 8 = 0 ∧ (k = none → sc = .core) ∧ (relOnly = true → k = none ∨ k = some .rel) then some ⟨k, sc⟩
    else none

/-- Lane 2 of a continuation atomic in layout K2 (R268). -/
def kLane (e : KExt) : Lane :=
  e.off8 ++ kindCode (some (if e.ar then .ar else .rel)) ++ (if e.sys then Scope.sys else .dev).code ++ (0 : BitVec 7) ++
    e.cond.code ++ e.tpl

/-- Layout K2 and the user word: kind rel or ar, scope dev or sys (R268). -/
def kOf (l2 l3 : Lane) : Option KExt :=
  match kindOf (l2.extractLsb' 22 2), Scope.ofCode (l2.extractLsb' 19 3), KCond.ofCode (l2.extractLsb' 10 2) with
  | some k, some sc, some c =>
    if l2.extractLsb' 12 7 = 0 ∧ k ≠ .acq ∧ (sc = .dev ∨ sc = .sys) then
      some ⟨l2.extractLsb' 24 8, k == .ar, sc == .sys, c, l2.extractLsb' 0 10, l3⟩
    else none
  | _, _, _ => none

/-- x of an integer atomic: size code 2 or 3 in [5:4], operation in [3:0] (R267). -/
def atX (dbl : Bool) (op : BitVec 4) : BitVec 6 := (if dbl then (3 : BitVec 2) else 2) ++ op

/-- Size of an atomic: 4 bytes (false) or 8 bytes (true); codes 0 and 1 are undefined (R267). -/
def dblOf (x : BitVec 6) : Option Bool :=
  if x.extractLsb' 4 2 = 2 then some false else if x.extractLsb' 4 2 = 3 then some true else none

/-- Lane 2 of the link forms (R301). -/
def lnkLane (tag : BitVec 8) (cw : Option SReg) (cidx : BitVec 4) : Lane :=
  (0 : BitVec 16) ++ cidx ++ (0 : BitVec 3) ++ BitVec.ofBool cw.isSome ++ tag

/-- The completion-word register of a link form: x must be zero without CW (R301). -/
def cwOf (l1 l2 : Lane) : Option (Option SReg) :=
  if l2.extractLsb' 16 16 = 0 ∧ l2.extractLsb' 9 3 = 0 then
    if l2.getLsbD 8 then some (some (fX l1)) else if fX l1 = 0 then some none else none
  else none

/-- The largest part number of unpack for a width (R206). -/
def PackW.maxPart : PackW → Nat
  | .w16 => 1
  | .w8 => 3
  | .w4 => 7

/-- The kinds of tview that take an offset (R163). -/
def ViewKind.sliced : ViewKind → Bool
  | .rows => true
  | .cols => true
  | _ => false

/-- A count of sub-tiles from 1 to 128 (R164). -/
def subTileCount (c : BitVec 8) : Option (BitVec 8) := if 1 ≤ c.toNat ∧ c.toNat ≤ 128 then some c else none

/-! ## Opcode maps (R71 to R74) -/

/-- The number of lanes of an assigned opcode; none for an unassigned one (Tables 6 to 14). -/
def laneCount (k : Stream) (op : BitVec 8) : Option Nat :=
  match k with
  | .seq =>
    match op.toNat with
    | 0x00 | 0x01 | 0x02 | 0x03 | 0x04 | 0x05 | 0x06 | 0x07 | 0x08 | 0x09 | 0x0A | 0x0B => some 1
    | 0x0C | 0x0D | 0x0E | 0x0F | 0x10 | 0x11 | 0x12 | 0x13 | 0x14 | 0x15 | 0x16 | 0x17 => some 1
    | 0x18 | 0x19 | 0x1A | 0x1B | 0x1C | 0x20 | 0x21 | 0x22 | 0x23 | 0x24 | 0x25 | 0x26 => some 1
    | 0x27 | 0x30 | 0x31 | 0x32 | 0x33 | 0x34 | 0x38 | 0x39 | 0x3A | 0x40 | 0x41 | 0x42 => some 1
    | 0x43 | 0x45 | 0x47 | 0x48 | 0x49 | 0x51 | 0x52 | 0x53 | 0x54 | 0x55 | 0x56 | 0x57 => some 1
    | 0x58 | 0x59 | 0x5A | 0x5B => some 1
    | 0x28 | 0x29 | 0x44 | 0x46 | 0x50 => some 2
    | _ => none
  | .ldq =>
    match op.toNat with
    | 0x05 | 0x06 => some 1
    | 0x01 | 0x02 | 0x03 | 0x04 | 0x07 | 0x08 => some 2
    | _ => none
  | .stq =>
    match op.toNat with
    | 0x05 | 0x06 => some 1
    | 0x01 | 0x02 | 0x03 | 0x04 | 0x07 | 0x08 | 0x09 => some 2
    | _ => none
  | .vec =>
    match op.toNat with
    | 0x01 | 0x02 | 0x03 | 0x05 | 0x06 | 0x07 | 0x08 | 0x09 | 0x0A | 0x0B | 0x0C | 0x0D => some 1
    | 0x0E | 0x10 | 0x11 | 0x12 | 0x13 | 0x14 | 0x15 | 0x16 | 0x17 | 0x18 | 0x19 | 0x1A => some 1
    | 0x1B | 0x20 | 0x22 | 0x23 | 0x24 | 0x25 | 0x29 | 0x2A | 0x30 | 0x31 | 0x32 | 0x33 => some 1
    | 0x34 | 0x38 | 0x39 | 0x3A | 0x3B | 0x3C | 0x3D => some 1
    | 0x04 | 0x21 | 0x28 => some 2
    | _ => none
  | .til =>
    match op.toNat with
    | 0x01 | 0x02 | 0x18 | 0x19 | 0x1A | 0x1B | 0x1C | 0x1E | 0x21 | 0x22 | 0x23 | 0x24 => some 1
    | 0x25 => some 1
    | 0x1D | 0x20 => some 2
    | 0x10 | 0x11 | 0x12 => some 3
    | _ => none
  | .skq =>
    match op.toNat with
    | 0x01 | 0x02 | 0x03 | 0x04 | 0x05 | 0x06 | 0x08 | 0x09 | 0x0A | 0x0B => some 1
    | 0x07 => some 2
    | _ => none
  | .cpy =>
    match op.toNat with
    | 0x01 | 0x03 => some 1
    | 0x02 => some 2
    | _ => none
  | .lnk =>
    match op.toNat with
    | 0x04 => some 1
    | 0x01 | 0x02 | 0x03 => some 2
    | _ => none
  | .atm =>
    match op.toNat with
    | 0x08 => some 1
    | 0x01 | 0x02 | 0x03 | 0x04 | 0x05 | 0x09 | 0x0A | 0x0B | 0x0C => some 2
    | 0x06 | 0x07 => some 3
    | _ => none

/-- Fields of the SEQ instructions: none when a field is reserved, too large or undefined (R63, check 3; R66). -/
def seqFields (l l2 _l3 : Lane) : Option Instr :=
  match (fOp l).toNat with
    | 0x00 => given (l == 0) (.nop)
    | 0x01 => given ((fX l == 0)) (.add (fD l) (fA l) (fB l))
    | 0x02 => given ((fX l == 0)) (.sub (fD l) (fA l) (fB l))
    | 0x03 => given ((fX l == 0)) (.mul (fD l) (fA l) (fB l))
    | 0x04 => given ((fX l == 0)) (.mulh (fD l) (fA l) (fB l))
    | 0x05 => given ((fX l == 0)) (.mulhu (fD l) (fA l) (fB l))
    | 0x06 => given ((fX l == 0)) (.div (fD l) (fA l) (fB l))
    | 0x07 => given ((fX l == 0)) (.divu (fD l) (fA l) (fB l))
    | 0x08 => given ((fX l == 0)) (.rem (fD l) (fA l) (fB l))
    | 0x09 => given ((fX l == 0)) (.remu (fD l) (fA l) (fB l))
    | 0x0A => given ((fX l == 0)) (.and (fD l) (fA l) (fB l))
    | 0x0B => given ((fX l == 0)) (.or (fD l) (fA l) (fB l))
    | 0x0C => given ((fX l == 0)) (.xor (fD l) (fA l) (fB l))
    | 0x0D => given ((fX l == 0)) (.andn (fD l) (fA l) (fB l))
    | 0x0E => given ((fX l == 0)) (.shl (fD l) (fA l) (fB l))
    | 0x0F => given ((fX l == 0)) (.shr (fD l) (fA l) (fB l))
    | 0x10 => given ((fX l == 0)) (.sra (fD l) (fA l) (fB l))
    | 0x11 => given ((fX l == 0)) (.min (fD l) (fA l) (fB l))
    | 0x12 => given ((fX l == 0)) (.max (fD l) (fA l) (fB l))
    | 0x13 => given ((fX l == 0)) (.minu (fD l) (fA l) (fB l))
    | 0x14 => given ((fX l == 0)) (.maxu (fD l) (fA l) (fB l))
    | 0x15 => given ((fB l == 0) && (fX l == 0)) (.clz (fD l) (fA l))
    | 0x16 => given ((fB l == 0) && (fX l == 0)) (.ctz (fD l) (fA l))
    | 0x17 => given ((fB l == 0) && (fX l == 0)) (.popc (fD l) (fA l))
    | 0x18 => do
      let cc ← (narrow 3 (fX l)).bind Cc.ofCode
      let d ← narrow 3 (fD l)
      some (.cmpCc cc d (fA l) (fB l))
    | 0x19 => do
      let p ← narrow 3 (fX l)
      some (.sel (fD l) p (fA l) (fB l))
    | 0x1A => do
      let k ← narrow 3 (fX l)
      some (.lea (fD l) (fA l) (fB l) k)
    | 0x1B => some (.bfx (fD l) (fA l) (fX l) (fB l))
    | 0x1C => some (.bfi (fD l) (fA l) (fX l) (fB l))
    | 0x20 => some (.addi (fD l) (fA l) (fImm l))
    | 0x21 => some (.andi (fD l) (fA l) (fImm l))
    | 0x22 => some (.ori (fD l) (fA l) (fImm l))
    | 0x23 => some (.xori (fD l) (fA l) (fImm l))
    | 0x24 => given ((fB l == 0)) (.shli (fD l) (fA l) (fX l))
    | 0x25 => given ((fB l == 0)) (.shri (fD l) (fA l) (fX l))
    | 0x26 => given ((fB l == 0)) (.srai (fD l) (fA l) (fX l))
    | 0x27 => do
      let cc ← Cc.ofCode ((fD l).extractLsb' 3 3)
      some (.cmpiCc cc ((fD l).extractLsb' 0 3) (fA l) (fImm l))
    | 0x28 => given ((fA l == 0) && (fImm l == 0)) (.movi (fD l) (l2))
    | 0x29 => given ((fA l == 0) && (fImm l == 0)) (.movhi (fD l) (l2))
    | 0x30 => given (!(l.extractLsb' 21 3 == 0 && l.getLsbD 20)) (.br (l.extractLsb' 21 3) (l.getLsbD 20) (l.extractLsb' 0 20))
    | 0x31 => given (!(l.extractLsb' 21 3 == 0 && l.getLsbD 20)) (.call (l.extractLsb' 21 3) (l.getLsbD 20) (l.extractLsb' 0 20))
    | 0x32 => given ((fD l == 0) && (fA l == 0) && (fB l == 0) && (fX l == 0)) (.ret)
    | 0x33 => given ((fB l == 0) && (fX l == 0)) (.jmp (fD l) (fA l))
    | 0x34 => given (!(fD l == 0)) (.loop (fD l) (l.extractLsb' 0 18))
    | 0x38 => do
      let h ← narrow 5 (fD l)
      given (l.extractLsb' 10 2 == 0) (.xlt h (fA l) (l.extractLsb' 2 8) (l.getLsbD 1) (l.getLsbD 0))
    | 0x39 => do
      let h ← narrow 5 (fD l)
      given ((fA l == 0) && (fB l == 0) && (fX l == 0)) (.hinv h)
    | 0x3A => do
      let h ← narrow 5 (fA l)
      given ((fB l == 0) && (fX l == 0)) (.hstat (fD l) h)
    | 0x40 => some (.wait (fD l) (fA l) (fB l) (fX l))
    | 0x41 => given ((fD l == 0) && (fA l == 0) && (fB l == 0) && (fX l == 0)) (.mark)
    | 0x42 => do
      let x ← Path.ofCode (l.extractLsb' 0 4)
      let y ← Path.ofCode (l.extractLsb' 4 4)
      given ((fD l == 0) && (fA l == 0) && (l.extractLsb' 8 4 == 0)) (.xfence x y)
    | 0x43 => do
      let kind ← kindOf (l.extractLsb' 3 2)
      let scope ← Scope.ofCode (l.extractLsb' 0 3)
      given ((fD l == 0) && (fA l == 0) && (l.extractLsb' 5 7 == 0)) (.fence kind scope)
    | 0x44 => do
      let cc ← (narrow 3 (fX l)).bind Cc.ofCode
      some (.waita (fD l) (fA l) (fB l) cc (l2))
    | 0x45 => do
      let sm ← narrow 5 (fA l)
      given ((fD l == 0) && (fB l == 0) && !(fX l == 0)) (.semSig sm (fX l))
    | 0x46 => do
      let sm ← narrow 5 (fA l)
      given ((fB l == 0) && !(fX l == 0)) (.semWait (fD l) sm (fX l) (l2))
    | 0x47 => do
      let sm ← narrow 5 (fA l)
      given ((fD l == 0) && (fX l == 0)) (.semSet sm (fB l))
    | 0x48 => given ((fD l == 0) && (fA l == 0) && (fB l == 0) && (fX l == 0)) (.yield)
    | 0x49 => given ((fD l == 0) && (fX l == 0)) (.ifsync (fA l) (fB l))
    | 0x50 => do
      let tpl ← narrow 10 l2
      some (.spawn (fD l) (fA l) (fB l) (fX l) tpl)
    | 0x51 => given ((fD l == 0) && (fA l == 0) && (fB l == 0) && (fX l == 0)) (.done)
    | 0x52 => do
      let i ← narrow 2 (fImm l)
      given ((fA l == 0)) (.arg (fD l) i)
    | 0x53 => do
      let sel ← narrow 2 (fX l)
      given ((fA l == 0) && (fB l == 0)) (.tid (fD l) sel)
    | 0x54 => do
      let r ← SysReg.ofCode (fImm l)
      given ((fA l == 0)) (.rdsr (fD l) r)
    | 0x55 => do
      let r ← (SysReg.ofCode (fImm l)).filter SysReg.writable
      given ((fD l == 0)) (.wrsr r (fA l))
    | 0x56 => some (.trap (fD l) (fA l) (fImm l))
    | 0x57 => given ((fD l == 0) && (fA l == 0)) (.brk (fImm l))
    | 0x58 => given ((fD l == 0) && (fB l == 0) && (fX l == 0)) (.resume (fA l))
    | 0x59 => given ((fA l == 0) && (fB l == 0) && (fX l == 0)) (.rdtime (fD l))
    | 0x5A => given ((fD l == 0) && (fB l == 0) && (fX l == 0)) (.pfd (fA l))
    | 0x5B => given ((fD l == 0) && (fB l == 0) && (fX l == 0)) (.rngseed (fA l))
    | _ => none

/-- Fields of the LDQ instructions: none when a field is reserved, too large or undefined (R63, check 3; R66). -/
def ldqFields (l l2 _l3 : Lane) : Option Instr :=
  match (fOp l).toNat with
    | 0x01 => do
      let h ← narrow 5 (fA l)
      let sz ← Sz.ofCode (fXq l)
      given ((fD l == 0) && ((fB l).extractLsb' 1 5 == 0) && !((fB l).getLsbD 0 && fXq l == 3)) (.lds h ((fB l).getLsbD 0) sz (l2) (fT l))
    | 0x02 => do
      let d ← narrow 5 (fD l)
      let h ← narrow 5 (fA l)
      let m ← (narrow 3 (fB l)).bind (maskOf · (fXq l))
      some (.vld d h m (l2) (fT l))
    | 0x03 => do
      let d ← narrow 5 (fD l)
      let h ← narrow 5 (fA l)
      let m ← (narrow 3 (fB l)).bind (maskOf · (fXq l))
      some (.vldr d h m (l2) (fT l))
    | 0x04 => do
      let d ← narrow 5 (fD l)
      let h ← narrow 5 (fA l)
      given ((fXq l == 0)) (.vlds d h (fB l) (l2) (fT l))
    | 0x05 => do
      let d ← narrow 5 (fD l)
      let h ← narrow 5 (fA l)
      let b ← narrow 5 (fB l)
      given ((fXq l == 0)) (.vldg d h b (fT l))
    | 0x06 => do
      let d ← narrow 5 (fD l)
      given ((fB l == 0) && (fXq l == 0)) (.vlsp d (fA l) (fT l))
    | 0x07 => do
      let d ← narrow 5 (fD l)
      let h ← narrow 5 (fA l)
      given ((fB l == 0) && (fXq l == 0)) (.vlbc d h (l2) (fT l))
    | 0x08 => do
      let h ← narrow 5 (fA l)
      given ((fD l == 0) && (fXq l == 0)) (.ldpf h (fB l) (l2) (fT l))
    | _ => none

/-- Fields of the STQ instructions: none when a field is reserved, too large or undefined (R63, check 3; R66). -/
def stqFields (l l2 _l3 : Lane) : Option Instr :=
  match (fOp l).toNat with
    | 0x01 => do
      let h ← narrow 5 (fA l)
      let sz ← Sz.ofCode (fXq l)
      given ((fD l == 0) && (fB l == 0)) (.sts h sz (l2) (fT l))
    | 0x02 => do
      let d ← narrow 5 (fD l)
      let h ← narrow 5 (fA l)
      let rm ← Rm.ofCode ((fB l).extractLsb' 4 2)
      let m ← maskOf ((fB l).extractLsb' 0 3) (fXq l)
      given (!(fB l).getLsbD 3) (.vst d h rm m (l2) (fT l))
    | 0x03 => do
      let d ← narrow 5 (fD l)
      let h ← narrow 5 (fA l)
      let m ← (narrow 3 (fB l)).bind (maskOf · (fXq l))
      some (.vstr d h m (l2) (fT l))
    | 0x04 => do
      let d ← narrow 5 (fD l)
      let h ← narrow 5 (fA l)
      let rm ← Rm.ofCode (fXq l)
      some (.vsts d h (fB l) rm (l2) (fT l))
    | 0x05 => do
      let d ← narrow 5 (fD l)
      let h ← narrow 5 (fA l)
      let b ← narrow 5 (fB l)
      let rm ← Rm.ofCode (fXq l)
      some (.vsct d h b rm (fT l))
    | 0x06 => do
      let d ← narrow 5 (fD l)
      given ((fB l == 0) && (fXq l == 0)) (.vssp d (fA l) (fT l))
    | 0x07 => do
      let h ← narrow 5 (fA l)
      given ((fD l == 0) && (fB l == 0) && (fXq l == 0)) (.lcln h (l2) (fT l))
    | 0x08 => do
      let h ← narrow 5 (fA l)
      given ((fD l == 0) && (fB l == 0) && (fXq l == 0)) (.linv h (l2) (fT l))
    | 0x09 => do
      let d ← narrow 5 (fD l)
      let h ← narrow 5 (fA l)
      let m ← (narrow 3 (fB l)).bind (maskOf · (fXq l))
      some (.vfaddnr d h m (l2) (fT l))
    | _ => none

/-- Fields of the VEC instructions: none when a field is reserved, too large or undefined (R63, check 3; R66). -/
def vecFields (l l2 _l3 : Lane) : Option Instr :=
  match (fOp l).toNat with
    | 0x01 => do
      let d ← narrow 5 (fD l)
      let a ← narrow 5 (fA l)
      let b ← narrow 5 (fB l)
      given ((fXq l == 0)) (.fadd d a b (fT l))
    | 0x02 => do
      let d ← narrow 5 (fD l)
      let a ← narrow 5 (fA l)
      let b ← narrow 5 (fB l)
      given ((fXq l == 0)) (.fsub d a b (fT l))
    | 0x03 => do
      let d ← narrow 5 (fD l)
      let a ← narrow 5 (fA l)
      let b ← narrow 5 (fB l)
      given ((fXq l == 0)) (.fmul d a b (fT l))
    | 0x04 => do
      let d ← narrow 5 (fD l)
      let a ← narrow 5 (fA l)
      let b ← narrow 5 (fB l)
      let c ← narrow 5 l2
      given ((fXq l == 0)) (.fma d a b c (fT l))
    | 0x05 => do
      let d ← narrow 5 (fD l)
      let a ← narrow 5 (fA l)
      let b ← narrow 5 (fB l)
      given ((fXq l == 0)) (.fmin d a b (fT l))
    | 0x06 => do
      let d ← narrow 5 (fD l)
      let a ← narrow 5 (fA l)
      let b ← narrow 5 (fB l)
      given ((fXq l == 0)) (.fmax d a b (fT l))
    | 0x07 => do
      let d ← narrow 5 (fD l)
      let a ← narrow 5 (fA l)
      given ((fB l == 0) && (fXq l == 0)) (.fabs d a (fT l))
    | 0x08 => do
      let d ← narrow 5 (fD l)
      let a ← narrow 5 (fA l)
      given ((fB l == 0) && (fXq l == 0)) (.fneg d a (fT l))
    | 0x09 => do
      let d ← narrow 5 (fD l)
      let a ← narrow 5 (fA l)
      given ((fB l == 0) && (fXq l == 0)) (.frcp d a (fT l))
    | 0x0A => do
      let d ← narrow 5 (fD l)
      let a ← narrow 5 (fA l)
      given ((fB l == 0) && (fXq l == 0)) (.frsq d a (fT l))
    | 0x0B => do
      let d ← narrow 5 (fD l)
      let a ← narrow 5 (fA l)
      given ((fB l == 0) && (fXq l == 0)) (.fsqrt d a (fT l))
    | 0x0C => do
      let d ← narrow 5 (fD l)
      let a ← narrow 5 (fA l)
      given ((fB l == 0) && (fXq l == 0)) (.fexp2 d a (fT l))
    | 0x0D => do
      let d ← narrow 5 (fD l)
      let a ← narrow 5 (fA l)
      given ((fB l == 0) && (fXq l == 0)) (.flog2 d a (fT l))
    | 0x0E => do
      let cc ← FCc.ofCode ((fD l).extractLsb' 3 3)
      let a ← narrow 5 (fA l)
      let b ← narrow 5 (fB l)
      given ((fXq l == 0)) (.fcmpCc cc ((fD l).extractLsb' 0 3) a b (fT l))
    | 0x10 => do
      let d ← narrow 5 (fD l)
      let a ← narrow 5 (fA l)
      let b ← narrow 5 (fB l)
      given ((fXq l == 0)) (.iadd d a b (fT l))
    | 0x11 => do
      let d ← narrow 5 (fD l)
      let a ← narrow 5 (fA l)
      let b ← narrow 5 (fB l)
      given ((fXq l == 0)) (.isub d a b (fT l))
    | 0x12 => do
      let d ← narrow 5 (fD l)
      let a ← narrow 5 (fA l)
      let b ← narrow 5 (fB l)
      given ((fXq l == 0)) (.imul d a b (fT l))
    | 0x13 => do
      let d ← narrow 5 (fD l)
      let a ← narrow 5 (fA l)
      let b ← narrow 5 (fB l)
      given ((fXq l == 0)) (.iand d a b (fT l))
    | 0x14 => do
      let d ← narrow 5 (fD l)
      let a ← narrow 5 (fA l)
      let b ← narrow 5 (fB l)
      given ((fXq l == 0)) (.ior d a b (fT l))
    | 0x15 => do
      let d ← narrow 5 (fD l)
      let a ← narrow 5 (fA l)
      let b ← narrow 5 (fB l)
      given ((fXq l == 0)) (.ixor d a b (fT l))
    | 0x16 => do
      let d ← narrow 5 (fD l)
      let a ← narrow 5 (fA l)
      let b ← narrow 5 (fB l)
      given ((fXq l == 0)) (.ishl d a b (fT l))
    | 0x17 => do
      let d ← narrow 5 (fD l)
      let a ← narrow 5 (fA l)
      let b ← narrow 5 (fB l)
      given ((fXq l == 0)) (.ishr d a b (fT l))
    | 0x18 => do
      let d ← narrow 5 (fD l)
      let a ← narrow 5 (fA l)
      let b ← narrow 5 (fB l)
      given ((fXq l == 0)) (.isra d a b (fT l))
    | 0x19 => do
      let d ← narrow 5 (fD l)
      let a ← narrow 5 (fA l)
      let b ← narrow 5 (fB l)
      given ((fXq l == 0)) (.imin d a b (fT l))
    | 0x1A => do
      let d ← narrow 5 (fD l)
      let a ← narrow 5 (fA l)
      let b ← narrow 5 (fB l)
      given ((fXq l == 0)) (.imax d a b (fT l))
    | 0x1B => do
      let cc ← Cc.ofCode ((fD l).extractLsb' 3 3)
      let a ← narrow 5 (fA l)
      let b ← narrow 5 (fB l)
      given ((fXq l == 0)) (.icmpCc cc ((fD l).extractLsb' 0 3) a b (fT l))
    | 0x20 => do
      let d ← narrow 5 (fD l)
      let a ← narrow 5 (fA l)
      given ((fB l == 0) && (fXq l == 0)) (.vmov d a (fT l))
    | 0x21 => do
      let d ← narrow 5 (fD l)
      given ((fA l == 0) && (fB l == 0) && (fXq l == 0)) (.vmovi d (l2) (fT l))
    | 0x22 => do
      let d ← narrow 5 (fD l)
      let a ← narrow 5 (fA l)
      let m ← narrow 3 (fB l)
      given ((fXq l == 0)) (.vsel d a m (fT l))
    | 0x23 => do
      let d ← narrow 5 (fD l)
      let a ← narrow 5 (fA l)
      let b ← narrow 5 (fB l)
      given ((fXq l == 0)) (.vperm d a b (fT l))
    | 0x24 => do
      let d ← narrow 5 (fD l)
      given ((fA l == 0) && (fB l == 0) && (fXq l == 0)) (.vbcast d (fT l))
    | 0x25 => do
      let d ← narrow 5 (fD l)
      given ((fA l == 0) && (fB l == 0) && (fXq l == 0)) (.vlane d (fT l))
    | 0x28 => do
      let d ← narrow 5 (fD l)
      let a ← narrow 5 (fA l)
      let src ← Fmt.ofCode (l2.extractLsb' 0 4)
      let dst ← Fmt.ofCode (l2.extractLsb' 4 4)
      let rm ← Rm.ofCode (l2.extractLsb' 8 2)
      let m ← maskOf (l2.extractLsb' 11 3) (BitVec.setWidth 2 (l2.extractLsb' 10 1))
      given ((fB l == 0) && (fXq l == 0) && (l2.extractLsb' 14 18 == 0)) (.cvt d a src dst rm m (fT l))
    | 0x29 => do
      let d ← narrow 5 (fD l)
      let a ← narrow 5 (fA l)
      let b ← narrow 5 (fB l)
      let w ← PackW.ofCode (fXq l)
      some (.pack d a b w (fT l))
    | 0x2A => do
      let d ← narrow 5 (fD l)
      let a ← narrow 5 (fA l)
      let w ← (PackW.ofCode (fXq l)).filter fun w => (fB l).toNat ≤ w.maxPart
      some (.unpack d a (fB l) w (fT l))
    | 0x30 => do
      let op ← RedOp.ofCode (fB l)
      let a ← narrow 5 (fA l)
      let m ← (narrow 3 (fD l)).bind (maskOf · (fXq l))
      some (.vred op a m (fT l))
    | 0x31 => do
      let op ← RedOp.ofCode (fB l)
      let d ← narrow 5 (fD l)
      let a ← narrow 5 (fA l)
      given ((fXq l == 0)) (.vscan op d a (fT l))
    | 0x32 => do
      let key ← SortKey.ofCode (fXq l)
      let d ← narrow 5 (fD l)
      let a ← narrow 5 (fA l)
      given ((fB l == 0) && !(fD l == fA l)) (.vsort key d a (fT l))
    | 0x33 => do
      let d ← narrow 3 (fD l)
      let a ← narrow 5 (fA l)
      let b ← narrow 5 (fB l)
      given ((fXq l == 0)) (.vuniq d a b (fT l))
    | 0x34 => do
      let int ← (narrow 1 (fXq l)).map (·.getLsbD 0)
      let d ← narrow 5 (fD l)
      let a ← narrow 5 (fA l)
      let m ← narrow 3 (fB l)
      some (.vsegsum int d a m (fT l))
    | 0x38 => do
      let d ← narrow 3 (fD l)
      let a ← narrow 3 (fA l)
      let b ← narrow 3 (fB l)
      given ((fXq l == 0)) (.mand d a b (fT l))
    | 0x39 => do
      let d ← narrow 3 (fD l)
      let a ← narrow 3 (fA l)
      let b ← narrow 3 (fB l)
      given ((fXq l == 0)) (.mor d a b (fT l))
    | 0x3A => do
      let d ← narrow 3 (fD l)
      let a ← narrow 3 (fA l)
      let b ← narrow 3 (fB l)
      given ((fXq l == 0)) (.mxor d a b (fT l))
    | 0x3B => do
      let d ← narrow 3 (fD l)
      let a ← narrow 3 (fA l)
      given ((fB l == 0) && (fXq l == 0)) (.mnot d a (fT l))
    | 0x3C => do
      let a ← narrow 3 (fA l)
      given ((fD l == 0) && (fB l == 0) && (fXq l == 0)) (.mpop a (fT l))
    | 0x3D => do
      let d ← narrow 3 (fD l)
      let a ← narrow 3 (fA l)
      given ((fB l == 0) && (fXq l == 0)) (.mfirst d a (fT l))
    | _ => none

/-- Fields of the TIL instructions: none when a field is reserved, too large or undefined (R63, check 3; R66). -/
def tilFields (l l2 l3 : Lane) : Option Instr :=
  match (fOp l).toNat with
    | 0x01 => do
      let d ← narrow 4 (fD l)
      let f ← TField.ofCode (fX l)
      given ((fB l == 0)) (.tset d f (fA l))
    | 0x02 => do
      let d ← narrow 4 (fD l)
      given ((fA l == 0) && (fB l == 0) && (fX l == 0)) (.tclr d)
    | 0x10 => do
      let d ← narrow 4 (fD l)
      let a ← narrow 4 (fA l)
      let b ← narrow 4 (fB l)
      let e ← mmOf l2 l3
      given ((fX l == 0) && (l2.extractLsb' 3 29 == 0)) (.tmma d a b e)
    | 0x11 => do
      let d ← narrow 4 (fD l)
      let a ← narrow 4 (fA l)
      let b ← narrow 4 (fB l)
      let e ← mmOf l2 l3
      given ((fX l == 0) && (l2.extractLsb' 8 24 == 0) && !l2.getLsbD 3 && !l2.getLsbD 0) (.tmmsp d a b (l2.extractLsb' 4 4) e)
    | 0x12 => do
      let d ← narrow 4 (fD l)
      let a ← narrow 4 (fA l)
      let b ← narrow 4 (fB l)
      let e ← mmOf l2 l3
      given ((fX l == 0)) (.tmmtr d a b (l2.extractLsb' 9 16) (l2.extractLsb' 3 6) e)
    | 0x18 => do
      let d ← narrow 4 (fD l)
      let a ← narrow 4 (fA l)
      let b ← narrow 4 (fB l)
      given ((fX l == 0)) (.tadd d a b)
    | 0x19 => do
      let d ← narrow 4 (fD l)
      let a ← narrow 4 (fA l)
      let b ← narrow 4 (fB l)
      given ((fX l == 0)) (.tmul d a b)
    | 0x1A => do
      let d ← narrow 4 (fD l)
      let a ← narrow 4 (fA l)
      given ((fX l == 0)) (.tscal d a (fB l))
    | 0x1B => do
      let fn ← MapFn.ofCode (fX l)
      let d ← narrow 4 (fD l)
      let a ← narrow 4 (fA l)
      given ((fB l == 0)) (.tmap fn d a)
    | 0x1C => do
      let op ← TRedOp.ofCode (l.extractLsb' 0 2)
      let d ← narrow 4 (fD l)
      let a ← narrow 4 (fA l)
      given ((fB l == 0) && (l.extractLsb' 3 3 == 0)) (.tred op (l.getLsbD 2) d a)
    | 0x1D => do
      let k ← (ViewKind.ofCode (l2.extractLsb' 0 4)).filter fun k => k.sliced || l2.extractLsb' 16 14 == 0
      let d ← narrow 4 (fD l)
      let a ← narrow 4 (fA l)
      given ((fB l == 0) && (fX l == 0) && (l2.extractLsb' 30 2 == 0) && (l2.extractLsb' 4 12 == 0)) (.tview k d a (l2.extractLsb' 16 14))
    | 0x1E => do
      let d ← narrow 4 (fD l)
      let a ← narrow 4 (fA l)
      given ((fB l == 0) && (fX l == 0)) (.tcpy d a)
    | 0x20 => do
      let d ← narrow 4 (fD l)
      let rows ← subTileCount (l2.extractLsb' 7 8)
      let cols ← subTileCount (l2.extractLsb' 22 8)
      given ((fA l == 0) && (fB l == 0) && (fX l == 0) && (l2.extractLsb' 30 2 == 0)) (.force d (l2.extractLsb' 0 7) rows (l2.extractLsb' 15 7) cols)
    | 0x21 => do
      let s ← narrow 4 (fA l)
      let d ← narrow 4 (fD l)
      given ((fB l == 0) && (fX l == 0)) (.tst s d)
    | 0x22 => do
      let d ← narrow 4 (fD l)
      given ((fA l == 0) && (fB l == 0) && (fX l == 0)) (.tdrop d)
    | 0x23 => given ((fD l == 0) && (fA l == 0) && (fB l == 0) && (fX l == 0)) (.tflush)
    | 0x24 => do
      let a ← narrow 4 (fA l)
      let sel ← (narrow 2 (fX l)).filter (· ≠ 3)
      given ((fD l == 0) && (fB l == 0)) (.tstat a sel)
    | 0x25 => given ((fD l == 0) && (fA l == 0) && (fB l == 0) && (l.extractLsb' 2 4 == 0)) (.tmode (l.getLsbD 0) (l.getLsbD 1))
    | _ => none

/-- Fields of the SKQ instructions: none when a field is reserved, too large or undefined (R63, check 3; R66). -/
def skqFields (l l2 _l3 : Lane) : Option Instr :=
  match (fOp l).toNat with
    | 0x01 => do
      let k ← narrow 3 (fD l)
      given ((fB l == 0) && (fX l == 0)) (.skbind k (fA l))
    | 0x02 => do
      let k ← narrow 3 (fD l)
      given ((fA l == 0) && (fB l == 0) && (fX l == 0)) (.skinit k)
    | 0x03 => do
      let part ← Part.ofCode (fX l)
      let k ← narrow 3 (fD l)
      let a ← narrow 4 (fA l)
      let b ← narrow 4 (fB l)
      some (.skapp part k a b)
    | 0x04 => do
      let k ← narrow 3 (fD l)
      given ((fB l == 0) && (fX l == 0)) (.skshr k (fA l))
    | 0x05 => do
      let d ← narrow 3 (fD l)
      let a ← narrow 3 (fA l)
      given ((fB l == 0) && (fX l == 0) && !(fD l == fA l)) (.skmrg d a)
    | 0x06 => do
      let v ← (narrow 1 (fX l)).map (·.getLsbD 0)
      let k ← narrow 3 (fD l)
      let a ← narrow 4 (fA l)
      some (.skrd v k a (fB l))
    | 0x07 => do
      let k ← narrow 3 (fD l)
      let a ← narrow 4 (fA l)
      given ((fX l == 0)) (.skapply k a (fB l) (l2))
    | 0x08 => do
      let k ← narrow 3 (fD l)
      given ((fA l == 0) && (fB l == 0) && (fX l == 0)) (.skde k)
    | 0x09 => do
      let k ← narrow 3 (fD l)
      given ((fA l == 0) && (fB l == 0) && (fX l == 0)) (.skrank k)
    | 0x0A => do
      let k ← narrow 3 (fD l)
      given ((fA l == 0) && (fB l == 0) && (fX l == 0)) (.sksave k)
    | 0x0B => do
      let k ← narrow 3 (fD l)
      given ((fA l == 0) && (fB l == 0) && (fX l == 0)) (.skunbind k)
    | _ => none

/-- Fields of the CPY instructions: none when a field is reserved, too large or undefined (R63, check 3; R66). -/
def cpyFields (l l2 _l3 : Lane) : Option Instr :=
  match (fOp l).toNat with
    | 0x01 => given ((fD l == 0) && (fB l == 0) && (fX l == 0)) (.cpy (fA l))
    | 0x02 => do
      let sig ← semOf (l2.getLsbD 8) (l2.extractLsb' 9 5)
      given ((fX l == 0) && (l2.extractLsb' 14 18 == 0)) (.cpyi (fD l) (fA l) (fB l) (l2.extractLsb' 0 8) sig)
    | 0x03 => given ((fD l == 0) && (fB l == 0) && (fX l == 0)) (.cqstat (fA l))
    | _ => none

/-- Fields of the LNK instructions: none when a field is reserved, too large or undefined (R63, check 3; R66). -/
def lnkFields (l l2 _l3 : Lane) : Option Instr :=
  match (fOp l).toNat with
    | 0x01 => do
      let cw ← cwOf l l2
      given (l2.extractLsb' 12 4 == 0) (.lsend (fD l) (fA l) (fB l) cw (l2.extractLsb' 0 8))
    | 0x02 => do
      let cw ← cwOf l l2
      given (l2.extractLsb' 12 4 == 0) (.lrecv (fD l) (fA l) (fB l) cw (l2.extractLsb' 0 8))
    | 0x03 => do
      let cw ← cwOf l l2
      some (.lradd (fD l) (fA l) (fB l) cw (l2.extractLsb' 0 8) (l2.extractLsb' 12 4))
    | 0x04 => do
      let clr ← (narrow 1 (fX l)).map (·.getLsbD 0)
      given ((fD l == 0) && (fA l == 0) && (fB l == 0)) (.lstat clr)
    | _ => none

/-- Fields of the ATM instructions: none when a field is reserved, too large or undefined (R63, check 3; R66). -/
def atmFields (l l2 l3 : Lane) : Option Instr :=
  match (fOp l).toNat with
    | 0x01 => do
      let op ← AtomOp.ofCode ((fX l).extractLsb' 0 4)
      let dbl ← dblOf (fX l)
      let h ← narrow 5 (fA l)
      let o ← atOf false l2
      given ((fD l == 0)) (.atom op dbl h (fB l) o (l2.extractLsb' 0 19))
    | 0x02 => do
      let op ← AtomOp.ofCode ((fX l).extractLsb' 0 4)
      let dbl ← dblOf (fX l)
      let h ← narrow 5 (fA l)
      let o ← atOf true l2
      given ((fD l == 0)) (.atomnr op dbl h (fB l) o (l2.extractLsb' 0 19))
    | 0x03 => do
      let op ← FatomOp.ofCode ((fX l).extractLsb' 0 4)
      let h ← narrow 5 (fA l)
      let o ← atOf false l2
      given ((fD l == 0) && ((fX l).extractLsb' 4 2 == 2)) (.fatom op h (fB l) o (l2.extractLsb' 0 19))
    | 0x04 => do
      let op ← FatomOp.ofCode ((fX l).extractLsb' 0 4)
      let h ← narrow 5 (fA l)
      let o ← atOf true l2
      given ((fD l == 0) && ((fX l).extractLsb' 4 2 == 2)) (.fatomnr op h (fB l) o (l2.extractLsb' 0 19))
    | 0x05 => do
      let dbl ← dblOf (fX l)
      let h ← narrow 5 (fA l)
      let o ← atOf false l2
      given ((fX l).extractLsb' 0 4 == 0) (.cas dbl h (fB l) (fD l) o (l2.extractLsb' 0 19))
    | 0x06 => do
      let op ← AtomOp.ofCode ((fX l).extractLsb' 0 4)
      let dbl ← dblOf (fX l)
      let h ← narrow 5 (fA l)
      let e ← kOf l2 l3
      some (.atomk op dbl h (fB l) (fD l) e)
    | 0x07 => do
      let dbl ← dblOf (fX l)
      let h ← narrow 5 (fA l)
      let e ← kOf l2 l3
      given ((fX l).extractLsb' 0 4 == 0) (.cask dbl h (fB l) (fD l) e)
    | 0x08 => given ((fD l == 0) && (fA l == 0) && (fB l == 0) && (fX l == 0)) (.afence)
    | 0x09 => do
      let h ← narrow 5 (fA l)
      let o ← atOf false l2
      given ((fD l == 0) && (fX l == 0)) (.qpush h (fB l) o (l2.extractLsb' 0 19))
    | 0x0A => do
      let h ← narrow 5 (fA l)
      let o ← atOf false l2
      given ((fD l == 0) && (fB l == 0) && (fX l == 0)) (.qpop h o (l2.extractLsb' 0 19))
    | 0x0B => do
      let h ← narrow 5 (fA l)
      given ((fD l == 0) && (fB l == 0) && (fX l == 0) && (l2.extractLsb' 19 13 == 0)) (.dcdec h (l2.extractLsb' 0 19))
    | 0x0C => do
      let op ← (narrow 4 (fX l)).bind NbOp.ofCode
      let o ← atOf true l2
      given ((fD l == 0) && (fB l == 0) && (l2.extractLsb' 0 19 == 0)) (.nbx op (fA l) o)
    | _ => none

/-- The fields of one instruction of an engine (R63, check 3). -/
def fieldsOf : Stream → Lane → Lane → Lane → Option Instr
  | .seq => seqFields
  | .ldq => ldqFields
  | .stq => stqFields
  | .vec => vecFields
  | .til => tilFields
  | .skq => skqFields
  | .cpy => cpyFields
  | .lnk => lnkFields
  | .atm => atmFields

/-- Why a decoder refuses lanes: the first three checks of R63 Table 2, by name. -/
inductive DecodeFault
  /-- OP is unassigned in the engine's opcode space (R74). -/
  | illegalOp
  /-- The number of lanes differs from the opcode's length (R57). -/
  | illegalLine
  /-- A reserved or undefined field (R66, R68). -/
  | illegalField
  deriving DecidableEq, Repr

/-- The decoder of one instruction: engine, first lane and the continuation lanes that follow it (R57, R63). -/
def decode (k : Stream) (lanes : List Lane) : Except DecodeFault Instr :=
  match lanes with
  | [] => .error .illegalLine
  | l :: rest =>
    match laneCount k (fOp l) with
    | none => .error .illegalOp
    | some n =>
      if lanes.length = n then
        match fieldsOf k l (rest.getD 0 0) (rest.getD 1 0) with
        | some i => .ok i
        | none => .error .illegalField
      else .error .illegalLine

/-! ## The encoder -/

/-- The engine and the lanes of an instruction; events and commands have no lanes. -/
def encode : Instr → Option (Stream × List Lane)
  | .nop => some (.seq, [rrr 0x00 0 0 0 0])
  | .add d a b => some (.seq, [rrr 0x01 d a b 0])
  | .sub d a b => some (.seq, [rrr 0x02 d a b 0])
  | .mul d a b => some (.seq, [rrr 0x03 d a b 0])
  | .mulh d a b => some (.seq, [rrr 0x04 d a b 0])
  | .mulhu d a b => some (.seq, [rrr 0x05 d a b 0])
  | .div d a b => some (.seq, [rrr 0x06 d a b 0])
  | .divu d a b => some (.seq, [rrr 0x07 d a b 0])
  | .rem d a b => some (.seq, [rrr 0x08 d a b 0])
  | .remu d a b => some (.seq, [rrr 0x09 d a b 0])
  | .and d a b => some (.seq, [rrr 0x0A d a b 0])
  | .or d a b => some (.seq, [rrr 0x0B d a b 0])
  | .xor d a b => some (.seq, [rrr 0x0C d a b 0])
  | .andn d a b => some (.seq, [rrr 0x0D d a b 0])
  | .shl d a b => some (.seq, [rrr 0x0E d a b 0])
  | .shr d a b => some (.seq, [rrr 0x0F d a b 0])
  | .sra d a b => some (.seq, [rrr 0x10 d a b 0])
  | .min d a b => some (.seq, [rrr 0x11 d a b 0])
  | .max d a b => some (.seq, [rrr 0x12 d a b 0])
  | .minu d a b => some (.seq, [rrr 0x13 d a b 0])
  | .maxu d a b => some (.seq, [rrr 0x14 d a b 0])
  | .clz d a => some (.seq, [rrr 0x15 d a 0 0])
  | .ctz d a => some (.seq, [rrr 0x16 d a 0 0])
  | .popc d a => some (.seq, [rrr 0x17 d a 0 0])
  | .cmpCc cc d a b => some (.seq, [rrr 0x18 (d.setWidth 6) a b (cc.code.setWidth 6)])
  | .sel d p a b => some (.seq, [rrr 0x19 d a b (p.setWidth 6)])
  | .lea d a b k => some (.seq, [rrr 0x1A d a b (k.setWidth 6)])
  | .bfx d a pos len => some (.seq, [rrr 0x1B d a len pos])
  | .bfi d a pos len => some (.seq, [rrr 0x1C d a len pos])
  | .addi d a imm => some (.seq, [rri 0x20 d a imm])
  | .andi d a imm => some (.seq, [rri 0x21 d a imm])
  | .ori d a imm => some (.seq, [rri 0x22 d a imm])
  | .xori d a imm => some (.seq, [rri 0x23 d a imm])
  | .shli d a k => some (.seq, [rrr 0x24 d a 0 k])
  | .shri d a k => some (.seq, [rrr 0x25 d a 0 k])
  | .srai d a k => some (.seq, [rrr 0x26 d a 0 k])
  | .cmpiCc cc d a imm => some (.seq, [rri 0x27 (cc.code ++ d) a imm])
  | .movi d imm => some (.seq, [rri 0x28 d 0 0, imm])
  | .movhi d imm => some (.seq, [rri 0x29 d 0 0, imm])
  | .br p n off => some (.seq, [fb 0x30 p n off])
  | .call p n off => some (.seq, [fb 0x31 p n off])
  | .ret => some (.seq, [rrr 0x32 0 0 0 0])
  | .jmp d a => some (.seq, [rrr 0x33 d a 0 0])
  | .loop a off => some (.seq, [rl 0x34 a off])
  | .xlt h a tag fetch write => some (.seq, [rri 0x38 (h.setWidth 6) a ((0 : BitVec 2) ++ tag ++ BitVec.ofBool fetch ++ BitVec.ofBool write)])
  | .hinv h => some (.seq, [rrr 0x39 (h.setWidth 6) 0 0 0])
  | .hstat d h => some (.seq, [rrr 0x3A d (h.setWidth 6) 0 0])
  | .wait ld st cp ti => some (.seq, [rrr 0x40 ld st cp ti])
  | .mark => some (.seq, [rrr 0x41 0 0 0 0])
  | .xfence x y => some (.seq, [rri 0x42 0 0 ((0 : BitVec 4) ++ y.code ++ x.code)])
  | .fence kind scope => some (.seq, [rri 0x43 0 0 ((0 : BitVec 7) ++ kindCode (some kind) ++ scope.code)])
  | .waita d a b cc timeout => some (.seq, [rrr 0x44 d a b (cc.code.setWidth 6), timeout])
  | .semSig sm k => some (.seq, [rrr 0x45 0 (sm.setWidth 6) 0 k])
  | .semWait d sm k timeout => some (.seq, [rrr 0x46 d (sm.setWidth 6) 0 k, timeout])
  | .semSet sm b => some (.seq, [rrr 0x47 0 (sm.setWidth 6) b 0])
  | .yield => some (.seq, [rrr 0x48 0 0 0 0])
  | .ifsync a b => some (.seq, [rrr 0x49 0 a b 0])
  | .spawn d a b x tpl => some (.seq, [rrr 0x50 d a b x, (0 : BitVec 22) ++ tpl])
  | .done => some (.seq, [rrr 0x51 0 0 0 0])
  | .arg d i => some (.seq, [rri 0x52 d 0 (i.setWidth 12)])
  | .tid d sel => some (.seq, [rrr 0x53 d 0 0 (sel.setWidth 6)])
  | .rdsr d r => some (.seq, [rri 0x54 d 0 r.code])
  | .wrsr r a => some (.seq, [rri 0x55 0 a r.code])
  | .trap d a svc => some (.seq, [rri 0x56 d a svc])
  | .brk code => some (.seq, [rri 0x57 0 0 code])
  | .resume a => some (.seq, [rrr 0x58 0 a 0 0])
  | .rdtime d => some (.seq, [rrr 0x59 d 0 0 0])
  | .pfd a => some (.seq, [rrr 0x5A 0 a 0 0])
  | .rngseed a => some (.seq, [rrr 0x5B 0 a 0 0])
  | .lds h u sz off t => some (.ldq, [fq 0x01 0 (h.setWidth 6) (BitVec.setWidth 6 (BitVec.ofBool u)) sz.code t, off])
  | .vld d h m off t => some (.ldq, [fq 0x02 (d.setWidth 6) (h.setWidth 6) ((m.getD 0).setWidth 6) (maskX m) t, off])
  | .vldr d h m off t => some (.ldq, [fq 0x03 (d.setWidth 6) (h.setWidth 6) ((m.getD 0).setWidth 6) (maskX m) t, off])
  | .vstr d h m off t => some (.stq, [fq 0x03 (d.setWidth 6) (h.setWidth 6) ((m.getD 0).setWidth 6) (maskX m) t, off])
  | .vfaddnr d h m off t => some (.stq, [fq 0x09 (d.setWidth 6) (h.setWidth 6) ((m.getD 0).setWidth 6) (maskX m) t, off])
  | .vlds d h b off t => some (.ldq, [fq 0x04 (d.setWidth 6) (h.setWidth 6) b 0 t, off])
  | .vldg d h b t => some (.ldq, [fq 0x05 (d.setWidth 6) (h.setWidth 6) (b.setWidth 6) 0 t])
  | .vlsp d a t => some (.ldq, [fq 0x06 (d.setWidth 6) a 0 0 t])
  | .vlbc d h off t => some (.ldq, [fq 0x07 (d.setWidth 6) (h.setWidth 6) 0 0 t, off])
  | .ldpf h b off t => some (.ldq, [fq 0x08 0 (h.setWidth 6) b 0 t, off])
  | .sts h sz off t => some (.stq, [fq 0x01 0 (h.setWidth 6) 0 sz.code t, off])
  | .vst d h rm m off t => some (.stq, [fq 0x02 (d.setWidth 6) (h.setWidth 6) (rm.code ++ (0 : BitVec 1) ++ m.getD 0) (maskX m) t, off])
  | .vsts d h b rm off t => some (.stq, [fq 0x04 (d.setWidth 6) (h.setWidth 6) b rm.code t, off])
  | .vsct d h b rm t => some (.stq, [fq 0x05 (d.setWidth 6) (h.setWidth 6) (b.setWidth 6) rm.code t])
  | .vssp d a t => some (.stq, [fq 0x06 (d.setWidth 6) a 0 0 t])
  | .lcln h off t => some (.stq, [fq 0x07 0 (h.setWidth 6) 0 0 t, off])
  | .linv h off t => some (.stq, [fq 0x08 0 (h.setWidth 6) 0 0 t, off])
  | .fadd d a b t => some (.vec, [fq 0x01 (d.setWidth 6) (a.setWidth 6) (b.setWidth 6) 0 t])
  | .fsub d a b t => some (.vec, [fq 0x02 (d.setWidth 6) (a.setWidth 6) (b.setWidth 6) 0 t])
  | .fmul d a b t => some (.vec, [fq 0x03 (d.setWidth 6) (a.setWidth 6) (b.setWidth 6) 0 t])
  | .fma d a b c t => some (.vec, [fq 0x04 (d.setWidth 6) (a.setWidth 6) (b.setWidth 6) 0 t, c.setWidth 32])
  | .fmin d a b t => some (.vec, [fq 0x05 (d.setWidth 6) (a.setWidth 6) (b.setWidth 6) 0 t])
  | .fmax d a b t => some (.vec, [fq 0x06 (d.setWidth 6) (a.setWidth 6) (b.setWidth 6) 0 t])
  | .fabs d a t => some (.vec, [fq 0x07 (d.setWidth 6) (a.setWidth 6) 0 0 t])
  | .fneg d a t => some (.vec, [fq 0x08 (d.setWidth 6) (a.setWidth 6) 0 0 t])
  | .frcp d a t => some (.vec, [fq 0x09 (d.setWidth 6) (a.setWidth 6) 0 0 t])
  | .frsq d a t => some (.vec, [fq 0x0A (d.setWidth 6) (a.setWidth 6) 0 0 t])
  | .fsqrt d a t => some (.vec, [fq 0x0B (d.setWidth 6) (a.setWidth 6) 0 0 t])
  | .fexp2 d a t => some (.vec, [fq 0x0C (d.setWidth 6) (a.setWidth 6) 0 0 t])
  | .flog2 d a t => some (.vec, [fq 0x0D (d.setWidth 6) (a.setWidth 6) 0 0 t])
  | .fcmpCc cc d a b t => some (.vec, [fq 0x0E (cc.code ++ d) (a.setWidth 6) (b.setWidth 6) 0 t])
  | .iadd d a b t => some (.vec, [fq 0x10 (d.setWidth 6) (a.setWidth 6) (b.setWidth 6) 0 t])
  | .isub d a b t => some (.vec, [fq 0x11 (d.setWidth 6) (a.setWidth 6) (b.setWidth 6) 0 t])
  | .imul d a b t => some (.vec, [fq 0x12 (d.setWidth 6) (a.setWidth 6) (b.setWidth 6) 0 t])
  | .iand d a b t => some (.vec, [fq 0x13 (d.setWidth 6) (a.setWidth 6) (b.setWidth 6) 0 t])
  | .ior d a b t => some (.vec, [fq 0x14 (d.setWidth 6) (a.setWidth 6) (b.setWidth 6) 0 t])
  | .ixor d a b t => some (.vec, [fq 0x15 (d.setWidth 6) (a.setWidth 6) (b.setWidth 6) 0 t])
  | .ishl d a b t => some (.vec, [fq 0x16 (d.setWidth 6) (a.setWidth 6) (b.setWidth 6) 0 t])
  | .ishr d a b t => some (.vec, [fq 0x17 (d.setWidth 6) (a.setWidth 6) (b.setWidth 6) 0 t])
  | .isra d a b t => some (.vec, [fq 0x18 (d.setWidth 6) (a.setWidth 6) (b.setWidth 6) 0 t])
  | .imin d a b t => some (.vec, [fq 0x19 (d.setWidth 6) (a.setWidth 6) (b.setWidth 6) 0 t])
  | .imax d a b t => some (.vec, [fq 0x1A (d.setWidth 6) (a.setWidth 6) (b.setWidth 6) 0 t])
  | .icmpCc cc d a b t => some (.vec, [fq 0x1B (cc.code ++ d) (a.setWidth 6) (b.setWidth 6) 0 t])
  | .vmov d a t => some (.vec, [fq 0x20 (d.setWidth 6) (a.setWidth 6) 0 0 t])
  | .vmovi d imm t => some (.vec, [fq 0x21 (d.setWidth 6) 0 0 0 t, imm])
  | .vsel d a m t => some (.vec, [fq 0x22 (d.setWidth 6) (a.setWidth 6) (m.setWidth 6) 0 t])
  | .vperm d a b t => some (.vec, [fq 0x23 (d.setWidth 6) (a.setWidth 6) (b.setWidth 6) 0 t])
  | .vbcast d t => some (.vec, [fq 0x24 (d.setWidth 6) 0 0 0 t])
  | .vlane d t => some (.vec, [fq 0x25 (d.setWidth 6) 0 0 0 t])
  | .cvt d a src dst rm m t => some (.vec, [fq 0x28 (d.setWidth 6) (a.setWidth 6) 0 0 t, (0 : BitVec 18) ++ m.getD 0 ++ BitVec.ofBool m.isSome ++ rm.code ++ dst.code ++ src.code])
  | .pack d a b w t => some (.vec, [fq 0x29 (d.setWidth 6) (a.setWidth 6) (b.setWidth 6) w.code t])
  | .unpack d a part w t => some (.vec, [fq 0x2A (d.setWidth 6) (a.setWidth 6) part w.code t])
  | .vred op a m t => some (.vec, [fq 0x30 ((m.getD 0).setWidth 6) (a.setWidth 6) op.code (maskX m) t])
  | .vscan op d a t => some (.vec, [fq 0x31 (d.setWidth 6) (a.setWidth 6) op.code 0 t])
  | .vsort key d a t => some (.vec, [fq 0x32 (d.setWidth 6) (a.setWidth 6) 0 key.code t])
  | .vuniq d a b t => some (.vec, [fq 0x33 (d.setWidth 6) (a.setWidth 6) (b.setWidth 6) 0 t])
  | .vsegsum int d a m t => some (.vec, [fq 0x34 (d.setWidth 6) (a.setWidth 6) (m.setWidth 6) (BitVec.setWidth 2 (BitVec.ofBool int)) t])
  | .mand d a b t => some (.vec, [fq 0x38 (d.setWidth 6) (a.setWidth 6) (b.setWidth 6) 0 t])
  | .mor d a b t => some (.vec, [fq 0x39 (d.setWidth 6) (a.setWidth 6) (b.setWidth 6) 0 t])
  | .mxor d a b t => some (.vec, [fq 0x3A (d.setWidth 6) (a.setWidth 6) (b.setWidth 6) 0 t])
  | .mnot d a t => some (.vec, [fq 0x3B (d.setWidth 6) (a.setWidth 6) 0 0 t])
  | .mfirst d a t => some (.vec, [fq 0x3D (d.setWidth 6) (a.setWidth 6) 0 0 t])
  | .mpop a t => some (.vec, [fq 0x3C 0 (a.setWidth 6) 0 0 t])
  | .tset d f a => some (.til, [rrr 0x01 (d.setWidth 6) a 0 f.code])
  | .tclr d => some (.til, [rrr 0x02 (d.setWidth 6) 0 0 0])
  | .tdrop d => some (.til, [rrr 0x22 (d.setWidth 6) 0 0 0])
  | .tmma d a b e => some (.til, [rrr 0x10 (d.setWidth 6) (a.setWidth 6) (b.setWidth 6) 0, mmLane2 0 0 e, mmLane3 e])
  | .tmmsp d a b md e => some (.til, [rrr 0x11 (d.setWidth 6) (a.setWidth 6) (b.setWidth 6) 0, mmLane2 0 ((0 : BitVec 1) ++ md ++ (0 : BitVec 1)) e, mmLane3 e])
  | .tmmtr d a b doff fill e => some (.til, [rrr 0x12 (d.setWidth 6) (a.setWidth 6) (b.setWidth 6) 0, mmLane2 doff fill e, mmLane3 e])
  | .tadd d a b => some (.til, [rrr 0x18 (d.setWidth 6) (a.setWidth 6) (b.setWidth 6) 0])
  | .tmul d a b => some (.til, [rrr 0x19 (d.setWidth 6) (a.setWidth 6) (b.setWidth 6) 0])
  | .tscal d a b => some (.til, [rrr 0x1A (d.setWidth 6) (a.setWidth 6) b 0])
  | .tmap fn d a => some (.til, [rrr 0x1B (d.setWidth 6) (a.setWidth 6) 0 fn.code])
  | .tred op cols d a => some (.til, [rrr 0x1C (d.setWidth 6) (a.setWidth 6) 0 ((0 : BitVec 3) ++ BitVec.ofBool cols ++ op.code)])
  | .tview k d a off => some (.til, [rrr 0x1D (d.setWidth 6) (a.setWidth 6) 0 0, (0 : BitVec 2) ++ off ++ (0 : BitVec 12) ++ k.code])
  | .tcpy d a => some (.til, [rrr 0x1E (d.setWidth 6) (a.setWidth 6) 0 0])
  | .force d row0 rows col0 cols => some (.til, [rrr 0x20 (d.setWidth 6) 0 0 0, (0 : BitVec 2) ++ cols ++ col0 ++ rows ++ row0])
  | .tst s d => some (.til, [rrr 0x21 (d.setWidth 6) (s.setWidth 6) 0 0])
  | .tflush => some (.til, [rrr 0x23 0 0 0 0])
  | .tstat a sel => some (.til, [rrr 0x24 0 (a.setWidth 6) 0 (sel.setWidth 6)])
  | .tmode ovf aliasPol => some (.til, [rrr 0x25 0 0 0 ((0 : BitVec 4) ++ BitVec.ofBool aliasPol ++ BitVec.ofBool ovf)])
  | .skbind k a => some (.skq, [rrr 0x01 (k.setWidth 6) a 0 0])
  | .skshr k a => some (.skq, [rrr 0x04 (k.setWidth 6) a 0 0])
  | .skinit k => some (.skq, [rrr 0x02 (k.setWidth 6) 0 0 0])
  | .skde k => some (.skq, [rrr 0x08 (k.setWidth 6) 0 0 0])
  | .skrank k => some (.skq, [rrr 0x09 (k.setWidth 6) 0 0 0])
  | .sksave k => some (.skq, [rrr 0x0A (k.setWidth 6) 0 0 0])
  | .skunbind k => some (.skq, [rrr 0x0B (k.setWidth 6) 0 0 0])
  | .skapp part k a b => some (.skq, [rrr 0x03 (k.setWidth 6) (a.setWidth 6) (b.setWidth 6) part.code])
  | .skmrg d a => some (.skq, [rrr 0x05 (d.setWidth 6) (a.setWidth 6) 0 0])
  | .skrd v k a b => some (.skq, [rrr 0x06 (k.setWidth 6) (a.setWidth 6) b (BitVec.setWidth 6 (BitVec.ofBool v))])
  | .skapply k a b alpha => some (.skq, [rrr 0x07 (k.setWidth 6) (a.setWidth 6) b 0, alpha])
  | .cpy a => some (.cpy, [rrr 0x01 0 a 0 0])
  | .cpyi d a b tag sig => some (.cpy, [rrr 0x02 d a b 0, (0 : BitVec 18) ++ sig.getD 0 ++ BitVec.ofBool sig.isSome ++ tag])
  | .cqstat a => some (.cpy, [rrr 0x03 0 a 0 0])
  | .lsend d a b cw tag => some (.lnk, [rrr 0x01 d a b (cw.getD 0), lnkLane tag cw 0])
  | .lrecv d a b cw tag => some (.lnk, [rrr 0x02 d a b (cw.getD 0), lnkLane tag cw 0])
  | .lradd d a b cw tag cidx => some (.lnk, [rrr 0x03 d a b (cw.getD 0), lnkLane tag cw cidx])
  | .lstat clr => some (.lnk, [rrr 0x04 0 0 0 (BitVec.setWidth 6 (BitVec.ofBool clr))])
  | .atom op dbl h b o off => some (.atm, [rrr 0x01 0 (h.setWidth 6) b (atX dbl op.code), atLane o off])
  | .atomnr op dbl h b o off => some (.atm, [rrr 0x02 0 (h.setWidth 6) b (atX dbl op.code), atLane o off])
  | .fatom op h b o off => some (.atm, [rrr 0x03 0 (h.setWidth 6) b (atX false op.code), atLane o off])
  | .fatomnr op h b o off => some (.atm, [rrr 0x04 0 (h.setWidth 6) b (atX false op.code), atLane o off])
  | .cas dbl h b d o off => some (.atm, [rrr 0x05 d (h.setWidth 6) b (atX dbl 0), atLane o off])
  | .atomk op dbl h b d e => some (.atm, [rrr 0x06 d (h.setWidth 6) b (atX dbl op.code), kLane e, e.user])
  | .cask dbl h b d e => some (.atm, [rrr 0x07 d (h.setWidth 6) b (atX dbl 0), kLane e, e.user])
  | .afence => some (.atm, [rrr 0x08 0 0 0 0])
  | .qpush h b o off => some (.atm, [rrr 0x09 0 (h.setWidth 6) b 0, atLane o off])
  | .qpop h o off => some (.atm, [rrr 0x0A 0 (h.setWidth 6) 0 0, atLane o off])
  | .dcdec h off => some (.atm, [rrr 0x0B 0 (h.setWidth 6) 0 0, atLane ⟨none, .core⟩ off])
  | .nbx op a o => some (.atm, [rrr 0x0C 0 a 0 (op.code.setWidth 6), atLane o 0])
  | _ => none

/-- The engine whose queue or sequencer an instruction belongs to; none for events and commands. -/
def Instr.stream : Instr → Option Stream
  | .nop => some .seq
  | .add .. => some .seq
  | .sub .. => some .seq
  | .mul .. => some .seq
  | .mulh .. => some .seq
  | .mulhu .. => some .seq
  | .div .. => some .seq
  | .divu .. => some .seq
  | .rem .. => some .seq
  | .remu .. => some .seq
  | .and .. => some .seq
  | .or .. => some .seq
  | .xor .. => some .seq
  | .andn .. => some .seq
  | .shl .. => some .seq
  | .shr .. => some .seq
  | .sra .. => some .seq
  | .min .. => some .seq
  | .max .. => some .seq
  | .minu .. => some .seq
  | .maxu .. => some .seq
  | .clz .. => some .seq
  | .ctz .. => some .seq
  | .popc .. => some .seq
  | .cmpCc .. => some .seq
  | .sel .. => some .seq
  | .lea .. => some .seq
  | .bfx .. => some .seq
  | .bfi .. => some .seq
  | .addi .. => some .seq
  | .andi .. => some .seq
  | .ori .. => some .seq
  | .xori .. => some .seq
  | .shli .. => some .seq
  | .shri .. => some .seq
  | .srai .. => some .seq
  | .cmpiCc .. => some .seq
  | .movi .. => some .seq
  | .movhi .. => some .seq
  | .br .. => some .seq
  | .call .. => some .seq
  | .ret => some .seq
  | .jmp .. => some .seq
  | .loop .. => some .seq
  | .xlt .. => some .seq
  | .hinv .. => some .seq
  | .hstat .. => some .seq
  | .wait .. => some .seq
  | .mark => some .seq
  | .xfence .. => some .seq
  | .fence .. => some .seq
  | .waita .. => some .seq
  | .semSig .. => some .seq
  | .semWait .. => some .seq
  | .semSet .. => some .seq
  | .yield => some .seq
  | .ifsync .. => some .seq
  | .spawn .. => some .seq
  | .done => some .seq
  | .arg .. => some .seq
  | .tid .. => some .seq
  | .rdsr .. => some .seq
  | .wrsr .. => some .seq
  | .trap .. => some .seq
  | .brk .. => some .seq
  | .resume .. => some .seq
  | .rdtime .. => some .seq
  | .pfd .. => some .seq
  | .rngseed .. => some .seq
  | .lds .. => some .ldq
  | .vld .. => some .ldq
  | .vldr .. => some .ldq
  | .vstr .. => some .stq
  | .vfaddnr .. => some .stq
  | .vlds .. => some .ldq
  | .vldg .. => some .ldq
  | .vlsp .. => some .ldq
  | .vlbc .. => some .ldq
  | .ldpf .. => some .ldq
  | .sts .. => some .stq
  | .vst .. => some .stq
  | .vsts .. => some .stq
  | .vsct .. => some .stq
  | .vssp .. => some .stq
  | .lcln .. => some .stq
  | .linv .. => some .stq
  | .fadd .. => some .vec
  | .fsub .. => some .vec
  | .fmul .. => some .vec
  | .fma .. => some .vec
  | .fmin .. => some .vec
  | .fmax .. => some .vec
  | .fabs .. => some .vec
  | .fneg .. => some .vec
  | .frcp .. => some .vec
  | .frsq .. => some .vec
  | .fsqrt .. => some .vec
  | .fexp2 .. => some .vec
  | .flog2 .. => some .vec
  | .fcmpCc .. => some .vec
  | .iadd .. => some .vec
  | .isub .. => some .vec
  | .imul .. => some .vec
  | .iand .. => some .vec
  | .ior .. => some .vec
  | .ixor .. => some .vec
  | .ishl .. => some .vec
  | .ishr .. => some .vec
  | .isra .. => some .vec
  | .imin .. => some .vec
  | .imax .. => some .vec
  | .icmpCc .. => some .vec
  | .vmov .. => some .vec
  | .vmovi .. => some .vec
  | .vsel .. => some .vec
  | .vperm .. => some .vec
  | .vbcast .. => some .vec
  | .vlane .. => some .vec
  | .cvt .. => some .vec
  | .pack .. => some .vec
  | .unpack .. => some .vec
  | .vred .. => some .vec
  | .vscan .. => some .vec
  | .vsort .. => some .vec
  | .vuniq .. => some .vec
  | .vsegsum .. => some .vec
  | .mand .. => some .vec
  | .mor .. => some .vec
  | .mxor .. => some .vec
  | .mnot .. => some .vec
  | .mfirst .. => some .vec
  | .mpop .. => some .vec
  | .tset .. => some .til
  | .tclr .. => some .til
  | .tdrop .. => some .til
  | .tmma .. => some .til
  | .tmmsp .. => some .til
  | .tmmtr .. => some .til
  | .tadd .. => some .til
  | .tmul .. => some .til
  | .tscal .. => some .til
  | .tmap .. => some .til
  | .tred .. => some .til
  | .tview .. => some .til
  | .tcpy .. => some .til
  | .force .. => some .til
  | .tst .. => some .til
  | .tflush => some .til
  | .tstat .. => some .til
  | .tmode .. => some .til
  | .skbind .. => some .skq
  | .skshr .. => some .skq
  | .skinit .. => some .skq
  | .skde .. => some .skq
  | .skrank .. => some .skq
  | .sksave .. => some .skq
  | .skunbind .. => some .skq
  | .skapp .. => some .skq
  | .skmrg .. => some .skq
  | .skrd .. => some .skq
  | .skapply .. => some .skq
  | .cpy .. => some .cpy
  | .cpyi .. => some .cpy
  | .cqstat .. => some .cpy
  | .lsend .. => some .lnk
  | .lrecv .. => some .lnk
  | .lradd .. => some .lnk
  | .lstat .. => some .lnk
  | .atom .. => some .atm
  | .atomnr .. => some .atm
  | .fatom .. => some .atm
  | .fatomnr .. => some .atm
  | .cas .. => some .atm
  | .atomk .. => some .atm
  | .cask .. => some .atm
  | .afence => some .atm
  | .qpush .. => some .atm
  | .qpop .. => some .atm
  | .dcdec .. => some .atm
  | .nbx .. => some .atm
  | _ => none

/-! ## Registers an instruction names, and the port check -/

/-- The scalar registers an instruction reads, in the order of R70: d where d names a source, a, b, x, then the
fields of the continuation lanes. -/
def Instr.srcs : Instr → List SReg
  | .add _ a b | .sub _ a b | .mul _ a b | .mulh _ a b | .mulhu _ a b | .div _ a b | .divu _ a b => [a, b]
  | .rem _ a b | .remu _ a b | .and _ a b | .or _ a b | .xor _ a b | .andn _ a b => [a, b]
  | .shl _ a b | .shr _ a b | .sra _ a b | .min _ a b | .max _ a b | .minu _ a b | .maxu _ a b => [a, b]
  | .clz _ a | .ctz _ a | .popc _ a => [a]
  | .cmpCc _ _ a b | .sel _ _ a b | .lea _ a b _ => [a, b]
  | .bfx _ a _ _ => [a]
  | .bfi d a _ _ => [d, a]
  | .addi _ a _ | .andi _ a _ | .ori _ a _ | .xori _ a _ | .shli _ a _ | .shri _ a _ | .srai _ a _ => [a]
  | .cmpiCc _ _ a _ => [a]
  | .movhi d _ => [d]
  | .jmp _ a | .loop a _ | .xlt _ a _ _ _ => [a]
  | .waita _ a b _ _ => [a, b]
  | .semSet _ b => [b]
  | .ifsync a b => [a, b]
  | .spawn _ a b x _ => [a, b, x]
  | .wrsr _ a | .trap _ a _ | .resume a | .pfd a | .rngseed a => [a]
  | .vlds _ _ b _ _ | .vsts _ _ b _ _ _ | .ldpf _ b _ _ => [b]
  | .vlsp _ a _ | .vssp _ a _ => [a]
  | .tset _ _ a => [a]
  | .tscal _ _ b => [b]
  | .tmmtr _ _ _ _ fill _ => [fill]
  | .skbind _ a | .skshr _ a => [a]
  | .skrd _ _ _ b | .skapply _ _ b _ => [b]
  | .cpy a | .cqstat a => [a]
  | .cpyi d a b _ _ => [d, a, b]
  | .lsend d a b cw _ | .lrecv d a b cw _ | .lradd d a b cw _ _ => [d, a, b] ++ cw.toList
  | .atom _ _ _ b _ _ | .atomnr _ _ _ b _ _ | .fatom _ _ b _ _ | .fatomnr _ _ b _ _ | .qpush _ b _ _ => [b]
  | .cas _ _ b d _ _ | .atomk _ _ _ b d _ | .cask _ _ b d _ => [d, b]
  | .nbx _ a _ => [a]
  | _ => []

/-- The scalar register an instruction writes. -/
def Instr.dsts : Instr → List SReg
  | .add d _ _ | .sub d _ _ | .mul d _ _ | .mulh d _ _ | .mulhu d _ _ | .div d _ _ | .divu d _ _ => [d]
  | .rem d _ _ | .remu d _ _ | .and d _ _ | .or d _ _ | .xor d _ _ | .andn d _ _ => [d]
  | .shl d _ _ | .shr d _ _ | .sra d _ _ | .min d _ _ | .max d _ _ | .minu d _ _ | .maxu d _ _ => [d]
  | .clz d _ | .ctz d _ | .popc d _ | .sel d _ _ _ | .lea d _ _ _ | .bfx d _ _ _ | .bfi d _ _ _ => [d]
  | .addi d _ _ | .andi d _ _ | .ori d _ _ | .xori d _ _ | .shli d _ _ | .shri d _ _ | .srai d _ _ => [d]
  | .movi d _ | .movhi d _ | .jmp d _ | .loop d _ | .hstat d _ | .waita d _ _ _ _ | .semWait d _ _ _ => [d]
  | .spawn d _ _ _ _ | .arg d _ | .tid d _ | .rdsr d _ | .trap d _ _ | .rdtime d => [d]
  | _ => []

/-- A port named as a source against its direction, or s63 (R69 Table 5, R70). -/
def badSrc (r : SReg) : Bool := r == 57 || r == 58 || r == 63

/-- A port named as a destination against its direction, or s63 (R69 Table 5, R70). -/
def badDst (r : SReg) : Bool := r == 56 || (decide (59 ≤ r.toNat) && decide (r.toNat ≤ 63))

/-- The port check, check 5 of R63. -/
def Instr.portBad (i : Instr) : Bool := i.srcs.any badSrc || i.dsts.any badDst

/-- The handle an LDQ, STQ or ATM instruction names (R95). -/
def Instr.handle : Instr → Option HReg
  | .lds h _ _ _ _ | .vld _ h _ _ _ | .vldr _ h _ _ _ | .vlds _ h _ _ _ | .vldg _ h _ _ | .vlbc _ h _ _ => some h
  | .ldpf h _ _ _ | .sts h _ _ _ | .vst _ h _ _ _ _ | .vstr _ h _ _ _ | .vsts _ h _ _ _ _ | .vsct _ h _ _ _ => some h
  | .lcln h _ _ | .linv h _ _ | .vfaddnr _ h _ _ _ => some h
  | .atom _ _ h _ _ _ | .atomnr _ _ h _ _ _ | .fatom _ h _ _ _ | .fatomnr _ h _ _ _ => some h
  | .cas _ h _ _ _ _ | .atomk _ _ h _ _ _ | .cask _ h _ _ _ | .qpush h _ _ _ | .qpop h _ _ | .dcdec h _ => some h
  | _ => none

/-- The token bits of an LDQ, STQ or VEC instruction (R67). -/
def Instr.tokens : Instr → Tok
  | .lds _ _ _ _ t | .vld _ _ _ _ t | .vldr _ _ _ _ t | .vlds _ _ _ _ t | .vldg _ _ _ t | .vlsp _ _ t | .vlbc _ _ _ t => t
  | .ldpf _ _ _ t | .sts _ _ _ t | .vst _ _ _ _ _ t | .vstr _ _ _ _ t | .vsts _ _ _ _ _ t | .vsct _ _ _ _ t => t
  | .vssp _ _ t | .lcln _ _ t | .linv _ _ t | .vfaddnr _ _ _ _ t => t
  | .fadd _ _ _ t | .fsub _ _ _ t | .fmul _ _ _ t | .fma _ _ _ _ t | .fmin _ _ _ t | .fmax _ _ _ t | .fabs _ _ t => t
  | .fneg _ _ t | .frcp _ _ t | .frsq _ _ t | .fsqrt _ _ t | .fexp2 _ _ t | .flog2 _ _ t | .fcmpCc _ _ _ _ t => t
  | .iadd _ _ _ t | .isub _ _ _ t | .imul _ _ _ t | .iand _ _ _ t | .ior _ _ _ t | .ixor _ _ _ t | .ishl _ _ _ t => t
  | .ishr _ _ _ t | .isra _ _ _ t | .imin _ _ _ t | .imax _ _ _ t | .icmpCc _ _ _ _ t | .vmov _ _ t | .vmovi _ _ t => t
  | .vsel _ _ _ t | .vperm _ _ _ t | .vbcast _ t | .vlane _ t | .cvt _ _ _ _ _ _ t | .pack _ _ _ _ t => t
  | .unpack _ _ _ _ t | .vred _ _ _ t | .vscan _ _ _ t | .vsort _ _ _ t | .vuniq _ _ _ t | .vsegsum _ _ _ _ t => t
  | .mand _ _ _ t | .mor _ _ _ t | .mxor _ _ _ t | .mnot _ _ t | .mpop _ t | .mfirst _ _ t => t
  | _ => 0

/-- A control transfer (R58). -/
def Instr.transfers : Instr → Bool
  | .br .. | .call .. | .ret | .jmp .. | .loop .. => true
  | _ => false

/-! ## Bytes (R4: little-endian) -/

/-- The number that bytes hold, the lowest address first. -/
def leNat : List Byte → Nat
  | [] => 0
  | b :: r => b.toNat + 256 * leNat r

/-- n bytes of a number, the lowest address first. -/
def leBytes : Nat → Nat → List Byte
  | 0, _ => []
  | n + 1, x => BitVec.ofNat 8 x :: leBytes n (x / 256)

/-- The field of w bits at a byte offset of a record. -/
def fieldAt (w : Nat) (bs : List Byte) (off : Nat) : BitVec w := BitVec.ofNat w (leNat ((bs.drop off).take ((w + 7) / 8)))

/-- The eight lanes of a 32-byte line (R54). -/
def lanesOf (bs : List Byte) : List Lane := (List.range 8).map fun i => fieldAt 32 bs (4 * i)

/-! ## Lines (R54 to R63) -/

/-- Nibble i of a header: the kind of lane i + 1 (R55). -/
def kindAt (header : Lane) (lane : Nat) : BitVec 4 := BitVec.ofNat 4 (header.toNat / 16 ^ (lane - 1))

/-- The header check of R61: bits [31:28], reserved nibbles, and 0xE in lane 1 or after 0x0. -/
def headerOk (header : Lane) : Bool :=
  header.toNat / 2 ^ 28 == 0 &&
  (List.range 7).all fun i =>
    let k := (kindAt header (i + 1)).toNat
    !(decide (10 ≤ k ∧ k ≤ 13) || k == 15 || (k == 14 && (i == 0 || kindAt header i == 0)))

/-- The next lane at or after a lane that starts an instruction; none when the line holds no more (R59). -/
def nextLane (header : Lane) : Nat → Nat → Option Nat
  | 0, _ => none
  | fuel + 1, lane =>
    if 8 ≤ lane then none else if kindAt header lane == 0 then nextLane header fuel (lane + 1) else some lane

/-- The number of 0xE lanes that follow a lane. -/
def continuations (header : Lane) : Nat → Nat → Nat
  | 0, _ => 0
  | fuel + 1, lane => if lane < 8 ∧ kindAt header lane = 14 then 1 + continuations header fuel (lane + 1) else 0

/-- The instruction whose first lane is the given lane of a line: checks 1 to 3 of R63, a control transfer with a
nonzero nibble after it (R58) included in check 2. -/
def decodeLane (lanes : List Lane) (lane : Nat) : Except DecodeFault Instr :=
  let header := lanes.getD 0 0
  match Stream.ofNibble (kindAt header lane) with
  | none => .error .illegalLine
  | some k =>
    let n := 1 + continuations header 7 (lane + 1)
    match decode k ((lanes.drop lane).take n) with
    | .error e =>
      let op := fOp (lanes.getD lane 0)
      if e = .illegalField ∧ k = .seq ∧ (op = 0x30 ∨ op = 0x31 ∨ op = 0x32 ∨ op = 0x33 ∨ op = 0x34) ∧
          (nextLane header 7 (lane + n)).isSome then .error .illegalLine
      else .error e
    | .ok i => if i.transfers ∧ (nextLane header 7 (lane + n)).isSome then .error .illegalLine else .ok i

/-! ## Command entries of Pliron (R465 to R467) -/

/-- Every byte of ARGS outside the used ranges is zero (R467). -/
def argsClean (bs : List Byte) (used : List (Nat × Nat)) : Bool :=
  (List.range 40).all fun i =>
    bs.getD (0x18 + i) 0 == 0 || used.any fun u => decide (u.1 ≤ 0x18 + i ∧ 0x18 + i < u.1 + u.2)

/-- The command of a 64-byte entry of a function's ring; none for an unlisted OPC or operation or a nonzero reserved
byte, which completes with BAD_ARG (R466 Table 3, R467 Table 9). -/
def decodeCommand (fn : BitVec 11) (bs : List Byte) : Option Instr :=
  let c : Cmd := ⟨fn, fieldAt 32 bs 4, fieldAt 64 bs 8, fieldAt 64 bs 16⟩
  let ok (used : List (Nat × Nat)) (i : Instr) : Option Instr := given (argsClean bs used) i
  let op : Byte := fieldAt 8 bs 0x18
  let traceOk (i : Instr) : Option Instr := given (argsClean bs [(0x18, 2), (0x1C, 28)] && decide ((bs.getD 0x19 0).toNat < 16)) i
  if leNat ((bs.drop 1).take 3) != 0 then none else
  match (bs.getD 0 0).toNat with
  | 0x01 => ok [(0x18, 20)] (.createContext c (fieldAt 32 bs 0x18) (fieldAt 16 bs 0x1C) (fieldAt 8 bs 0x1E)
      (fieldAt 8 bs 0x1F) (fieldAt 64 bs 0x20) (fieldAt 32 bs 0x28))
  | 0x02 => ok [] (.destroyContext c)
  | 0x03 => ok [(0x18, 16)] (.map c (fieldAt 64 bs 0x18) (fieldAt 64 bs 0x20))
  | 0x04 => ok [(0x18, 12)] (.unmap c (fieldAt 64 bs 0x18) (fieldAt 32 bs 0x20))
  | 0x05 => ok [(0x18, 8)] (.pin c (fieldAt 64 bs 0x18))
  | 0x06 => ok [(0x18, 8)] (.registerTemplate c (fieldAt 64 bs 0x18))
  | 0x07 => ok [(0x18, 1), (0x20, 18)] (.launch c op (fieldAt 64 bs 0x20) (fieldAt 64 bs 0x28) (fieldAt 8 bs 0x30)
      (fieldAt 8 bs 0x31))
  | 0x08 => ok [(0x18, 8)] (.abortRcb c (fieldAt 64 bs 0x18))
  | 0x09 => ok [(0x18, 12)] (.readFaultLog c (fieldAt 64 bs 0x18) (fieldAt 32 bs 0x20))
  | 0x0A =>
    let die : Byte := op
    let first : BitVec 16 := fieldAt 16 bs 0x1A
    let count : BitVec 16 := fieldAt 16 bs 0x1C
    match (bs.getD 0x19 0).toNat with
    | 0 => ok [(0x18, 6)] (.buffersRead c die first count)
    | 1 => ok [(0x18, 6)] (.buffersReadClear c die first count)
    | 2 => ok [(0x18, 6)] (.buffersClear c die first count)
    | 3 => ok [(0x18, 6), (0x20, 8)] (.buffersProgram c die first count (fieldAt 64 bs 0x20))
    | _ => none
  | 0x0B => ok [] (.attest c)
  | 0x0C => ok [(0x18, 2)] (.resetFunction c (fieldAt 16 bs 0x18))
  | 0x0D =>
    match op.toNat with
    | 0 => ok [(0x18, 2), (0x1C, 28)] (.traceSet c (fieldAt 8 bs 0x19) (fieldAt 32 bs 0x1C) (fieldAt 64 bs 0x20)
        (fieldAt 32 bs 0x28) (fieldAt 32 bs 0x2C) (fieldAt 64 bs 0x30))
    | 1 => traceOk (.traceRead c)
    | 2 => traceOk (.traceSettail c (fieldAt 32 bs 0x1C))
    | _ => none
  | 0x0E =>
    match op.toNat with
    | 0 => ok [(0x18, 1)] (.debugAttach c)
    | 1 => ok [(0x18, 1)] (.debugDetach c)
    | 2 => ok [(0x18, 1)] (.debugHalt c)
    | 3 => ok [(0x18, 1)] (.debugResume c)
    | 4 => ok [(0x18, 1), (0x1C, 4)] (.debugStep c (fieldAt 32 bs 0x1C))
    | _ => none
  | _ => none

/-! ## Words numbered as the opcode table numbers them -/

/-- Lane n of an instruction whose bits are w: the first lane in bits [31:0], the next above it. -/
def tableLane (w n : Nat) : Lane := BitVec.ofNat 32 (w / 2 ^ (32 * n))

/-- The line that holds one instruction of an engine whose bits are w, at lane 1: the header names the engine and as
many 0xE lanes as the opcode is long. -/
def tableLine (k : Stream) (n w : Nat) : List Lane :=
  let cont : Nat := if n = 1 then 0 else if n = 2 then 0xE0 else 0xEE0
  [BitVec.ofNat 32 (k.nibble.toNat + cont), tableLane w 0, if 2 ≤ n then tableLane w 1 else 0,
    if 3 ≤ n then tableLane w 2 else 0, 0, 0, 0, 0]

/-- The line for the first engine, in the order of R56 Table 1, whose decoder accepts the bits (the table's words do
not name their engine: log 10). -/
def tableFind (w : Nat) : List Stream → Option (List Lane × Instr)
  | [] => none
  | k :: rest =>
    match laneCount k (fOp (tableLane w 0)) with
    | none => tableFind w rest
    | some n =>
      match decodeLane (tableLine k n w) 1 with
      | .ok i => some (tableLine k n w, i)
      | .error _ => tableFind w rest

/-- The engines in the order of R56 Table 1. -/
def Stream.all : List Stream := [.seq, .ldq, .stq, .vec, .til, .skq, .cpy, .lnk, .atm]

/-- The instruction the decoder reads from an instruction of nbits bits, the bits above them zero. -/
def decodeTableWord (nbits w : Nat) : Option Instr := (tableFind (w % 2 ^ nbits) Stream.all).map (·.2)

end Sys2Proof
end

