-- ==== Sys2Proof/Config.lean ====
section
/-! DEFINITION. What one L9 module fixes and the spec does not state: the free values of the model.
Each is an opaque constant: nothing in Lean can evaluate it or prove a value of it (log 2). -/

namespace Sys2Proof.Config

/-- Cycles that the n-th step of the machine takes (R2, R377: latency changes no value; log 2). -/
opaque elapsed : Nat → Nat

/-- The n-th value the spec leaves open: a register value, a chosen free PFN, an address Pliron picks (log 2). -/
opaque freeWord : Nat → Word

/-- The two primes of the fused RSA-3072 identity key (R473). -/
opaque primeP : Nat

/-- The second prime. -/
opaque primeQ : Nat

/-- A Sutik port reaches a peer chip through the fabric (R474, R475; log 63). -/
opaque reaches : Nat → Nat → Bool

/-- The route that a peer chip and a channel choose among the ports of a die that reach the peer (R476; log 63). -/
opaque route : Nat → Nat → Nat

/-- SHA-256 of the ROM image, measured at reset (R473 Table 6). -/
opaque romDigest : List Byte

/-- SHA-256 of the fuse configuration (R473 Table 6). -/
opaque fuseDigest : List Byte

/-- This chip's number in the fabric (R474). -/
opaque chip : BitVec 10

/-- The 64 KiB page of virtual addresses at which Pliron maps the root RCB of the n-th context (R26, R466 leave
the VA to Pliron; log 9). -/
opaque rootRcbPage : Nat → BitVec 40

end Sys2Proof.Config
end

