-- ==== Sys2Proof/Machine/State.lean ====
section
/-! DEFINITION. Everything the spec gives the machine (INVENTORY.md, '## State'), as plain data, and State.reset. -/

namespace Sys2Proof.Machine

/-- The reasons a step can stop. -/
inductive Fault
  /-- Raised by an operation on a task whose context number names no context. Safe: no run reaches such a state,
  because a task enters a pool only for a context that exists (R46, R471). -/
  | noContext
  deriving DecidableEq, Repr

/-- The reasons a step can refuse. -/
inductive Refusal
  /-- Raised by exec for an instruction that has no meaning yet. Safe: nothing follows from it. -/
  | notModelled (mnemonic : String)
  deriving DecidableEq, Repr

/-- Bytes by address, in one canonical form: see Memory.wf in Ops.lean. -/
abbrev Mem := List Host.Cell

/-! ## Task state -/

/-- An event of R457 Table 4: its kind, the stream it belongs to (a die, a task register, or a word), KEY, VALUE,
VALUE2 and TASK; self tells tasks of equal registers apart. -/
structure Event where
  ekind : Nat
  die : Nat
  self : Nat := 0
  key : Word
  value : Word
  value2 : Word
  task : Word
  deriving DecidableEq, Repr

/-- Where a task stands (R44 Table 6), with the physical core of a slot (R113); idle: no task stands in this record. -/
inductive Status
  | idle
  | ready
  | staged (core : Nat)
  | running (core : Nat)
  | suspended
  deriving DecidableEq, Repr

/-- The state of a handle, or the translation an entry recorded (R93 to R96). -/
inductive Bind
  | invalid
  | pending
  | valid (leaf : Word)
  | revoked
  | faulted (code : Byte)
  deriving DecidableEq, Repr

/-- A handle: base VA, state, intents and buffer tag (R93, R94). -/
structure Handle where
  bind : Bind := .invalid
  base : Word := 0
  write : Bool := false
  fetch : Bool := false
  tag : Byte := 0
  deriving DecidableEq, Repr

/-- What an outside home answered to an entry; a posted write that the host does not accept is lost (R391, R395, R413). -/
inductive Answer
  | none
  | done
  | refused
  | poisoned
  | lost
  deriving DecidableEq, Repr

/-- Progress of a link entry (R302 to R305); leaves are the first VA and the leaf of the pages it recorded as it began (R426). -/
structure LinkProg where
  pair : Nat := 0
  partner : Option Nat := none
  leaves : List (Word × Word) := []
  bytes : Nat := 0
  idle : Nat := 0
  lost : Bool := false
  deriving DecidableEq, Repr

/-- A wait of an entry for a token: the FIFO, and the context time at which it began (R453). -/
structure TokenWait where
  fifo : Fin 6
  began : Nat
  deriving DecidableEq, Repr

/-- A 16-byte chunk of memory: its space as R346 and log 5 number it (HBM 0, cluster SRAM 1, peer 2, host 3), and its address over 16
(R389). -/
abbrev Granule := Nat × Nat

/-- Bits of a granule still to be written: which, and their values (R389). Space 4 is the scratchpad, by its addresses. -/
structure Patch where
  space : Nat
  granule : Nat
  mask : Nat
  val : Nat
  deriving DecidableEq, Repr

/-- The writes of an access that is under way: the granules still to be written, those written, those that
are written after all others (R237), and the poisoned lines that it cleans once it covers them whole (R389, R434). -/
structure Landing where
  todo : List Patch := []
  done : List Granule := []
  held : List Granule := []
  clean : List Nat := []
  deriving DecidableEq, Repr

/-- A queue entry: sequence number, instruction, the scalars captured at dispatch in the order of R70, the recorded translation (R95), its
place among all dispatches of the task and the last mark before it (R98, R273), and the prefetch distance at its dispatch (R123). taken
says that it has begun with its tokens, or was sent (R19, R272), data the store data it took at its queue's head (R190), reads the
granules whose values it has taken before it performs (R382), landing its writes that still have to land, adds the words that a vfaddnr
still adds (R389), result what an atomic that acted early returns (R383). away is what the accesses meet that it makes without a handle:
an aperture, and its answer (R413, R427). waited is one more than the context time at which a semaphore wait of its head began (R453),
with what it waits for; tokWaits are its token waits. -/
structure Entry where
  stream : Stream := .seq
  num : BitVec 32 := 0
  ins : Instr := .nop
  caps : List Word := []
  h : Option Handle := none
  ord : Nat := 0
  mark : Nat := 0
  pfd : Nat := 0
  begun : Bool := false
  taken : Bool := false
  data : Option Word := none
  reads : List (Granule × List Byte) := []
  landing : Option Landing := none
  adds : Option (List (Word × Lane)) := none
  result : Option (List Word) := none
  answer : Answer := .none
  away : Nat × Answer := (0, .none)
  pass : Bool := false
  tokWaits : List TokenWait := []
  waited : Nat := 0
  waitFlag : Nat := 0
  waitThk : Option (BitVec 8) := none
  lk : LinkProg := {}
  deriving DecidableEq, Repr

/-- One entry of a port, with the poisoned mark of R275. -/
structure PortWord where
  val : Word
  poisoned : Bool := false
  deriving DecidableEq, Repr

/-- A 32-byte line that a core's fetch path holds: the core, the context, the line's number in the address space, its place as space and
address, and its bytes (R108, R109). -/
structure Line where
  core : Nat
  ctx : Nat
  va : Nat
  place : Nat × Nat
  bytes : List Byte
  deriving DecidableEq, Repr

/-- The results of a sub-tile that are not all written yet: its thunk, its place, and the writes still to land (R179, R389). -/
structure SubPuts where
  thk : BitVec 8
  sr : Nat
  sc : Nat
  landing : Landing
  deriving DecidableEq, Repr

/-- A tile descriptor (R147 Table 1). -/
structure Desc where
  state : BitVec 2 := 0
  thk : BitVec 8 := 0
  pitch : BitVec 32 := 0
  cols : BitVec 16 := 0
  rows : BitVec 16 := 0
  base : Word := 0
  deriving DecidableEq, Repr

/-- A source snapshot of a thunk: the descriptor, the thunk it was taken from by name, and its index map (R150, R155). -/
structure Src where
  desc : Desc
  name : Option (BitVec 8) := none
  map : Nat := 0
  deriving DecidableEq, Repr

/-- An allocated thunk entry (R150 Table 2); done holds the done-bitmap of R151. outs, pool and accs are the pool indices OUTS, INS and
ACCS of its snapshots, units the units of its bitmap, the first of them BMOFF, and ord its entry's place among all dispatches of the task
(R170). -/
structure Thunk where
  idx : BitVec 8
  seq : BitVec 32
  ord : Nat := 0
  outs : Nat := 0
  pool : List Nat := []
  accs : Option Nat := none
  units : List Nat := []
  ins : Instr
  complete : Bool := false
  waitTaken : Bool := false
  out : Desc
  srcs : List Src := []
  acc : Option Src := none
  refs : Nat := 1
  done : Nat := 0
  aux : BitVec 32 := 0
  deriving DecidableEq, Repr

/-- The fields 0x00 to 0x37 of a Sketch Control Block (R222). -/
structure Scb where
  uva : Word := 0
  vva : Word := 0
  m : Nat := 0
  n : Nat := 0
  kcap : Nat := 0
  rank : Nat := 0
  klim : Nat := 0
  sfl : BitVec 16 := 0
  de : Word := 0
  shrn : Word := 0
  gen : Word := 0
  deriving DecidableEq, Repr

/-- A bound sketch slot (R224): its SCB copy and VA, the open columns, and the working store's columns of U and V. -/
structure Slot where
  scb : Scb
  va : Word
  opened : Nat := 0
  store : Nat := 0
  u : List (List Lane) := []
  v : List (List Lane) := []
  deriving DecidableEq, Repr

/-- A command of a task's virtual copy queue (R289, R373): its bytes, how far it is, the generator state of its block of
steps (R140), its flags (R142), whether its payload met an error (R298), where its next block lies (R295, R296), and a
wait in progress (R453). run is the RUN register that records it while it is paused, ord and pfd what its entry was dispatched
with (R123, R170), away what its accesses to an aperture meet (R413, R427), met that its semaphores were taken in the cycle of a signal
(R104), moved that its whole payload has been moved, reads granules that it has taken and landing writes still to land (R382, R389). -/
structure CopySlot where
  num : BitVec 32
  ord : Nat := 0
  pfd : Nat := 0
  bytes : List Byte
  checked : Bool := false
  engine : Option Bool := none
  paused : Bool := false
  run : Option Bool := none
  units : Nat := 0
  complete : Bool := false
  rng : Word := 0
  flags : BitVec 5 := 0
  err : Bool := false
  pos : Word := 0
  began : Nat := 0
  waitFlag : Nat := 0
  waitThk : Option (BitVec 8) := none
  met : Bool := false
  moved : Bool := false
  reads : List (Granule × List Byte) := []
  landing : Option Landing := none
  away : Nat × Answer := (0, .none)
  deriving DecidableEq, Repr

/-- A timed wait in progress: its remaining timeout, when it began, and what it waits for (R101, R103, R106). -/
inductive Timed
  | word (left : Option Nat) (began : Nat) (d : SReg) (addr : Word) (cc : Cc) (want : Word)
  | sem (left : Option Nat) (began : Nat) (d : SReg) (sm : SemReg) (k : BitVec 6)
  deriving DecidableEq, Repr

/-- The pool entry of a task (R319, R320), with what R45, R46, R110, R277 and R398 record. -/
structure PoolEntry where
  die : BitVec 2 := 0
  index : Nat := 0
  ctx : Nat := 0
  tpl : BitVec 10 := 0
  entry : Word := 0
  spp : Nat := 1
  rcb : Word := 0
  ttbl : Word := 0
  args : Vector Word 4 := .replicate 4 0
  origin : BitVec 2 := 0
  queue : BitVec 6 := 0
  node : BitVec 32 := 0
  nodeVa : Word := 0
  serial : Nat := 0
  dist : Nat := 0
  entered : Nat := 0
  pos : Nat := 0
  deriving DecidableEq, Repr

/-- The registers an instruction names (R68 Table 4): scalars (s56 to s63 are ports, below), predicates, vectors,
masks, semaphores, handles, descriptors, sketch slots, and the ports and token FIFOs (R18, R69). -/
structure Regs where
  s : Vector Word 64 := .replicate 64 0
  p : Vector Bool 8 := .replicate 8 false
  v : Vector (Vector Lane 64) 32 := .replicate 32 (.replicate 64 0)
  m : Vector Word 8 := .replicate 8 0
  sm : Vector Lane 32 := .replicate 32 0
  h : Vector Handle 32 := .replicate 32 {}
  td : Vector Desc 16 := .replicate 16 {}
  k : Vector (Option Slot) 8 := .replicate 8 none
  port : Vector (List PortWord) 8 := .replicate 8 []
  tok : Vector Nat 6 := .replicate 6 0
  deriving DecidableEq, Repr

/-- A result in flight (R80, R429): its kind and register, its value, and the cycles until it can be read. The register holds
the value from the handling on, and its readers wait (log 8). -/
structure InFlight where
  kind : Nat
  reg : Nat
  value : Word
  delay : Nat
  deriving DecidableEq, Repr

/-- An element of an accumulator (R143, R144): nothing yet, FP32 bits, or a sum modulo 2^32. -/
inductive AccWord
  | fresh
  | float (x : Lane)
  | int (x : Lane)
  deriving DecidableEq, Repr

/-- The matrix command in progress (R68, R169, R181): its thunk and sub-tile, the k-group to be added next, the rows that it
has already added to, and its accumulators. -/
structure MatrixCmd where
  thk : BitVec 8
  seq : BitVec 32
  sr : Nat
  sc : Nat
  group : Nat
  row : Nat
  accs : List (List AccWord)
  deriving DecidableEq, Repr

/-- The special registers of a task (R32, R114, R118, R123, R304, R327). -/
structure Special where
  fpst : BitVec 5 := 0
  rng : Word := 0
  tmode : BitVec 2 := 0
  cyc : Nat := 0
  wdog : Nat := 0
  slot : Nat := 0
  uncharged : Nat := 0
  pfd : Word := 2048
  cmask : BitVec 16 := 0
  fltc : Byte := 0
  fltv : Word := 0
  fltq : Word := 0
  thkrec : Word := 0
  deriving DecidableEq, Repr

/-- A fault raised by an instruction or an entry: its code, the stream and number FLTQ names, FLTV, THKREC, the buffer
tag of the access, whether a write was intended (R399, R420), and for a matrix command stopped mid-reduction its row
progress and k-group index, as [31:16] and [15:0] (R181). queue is the access queue that its access goes through, as unit,
role and prefetch distance (R123, R418). -/
structure FaultInfo where
  code : Byte
  stream : Stream
  seq : BitVec 32
  va : Word := 0
  thk : Word := 0
  tag : Byte := 0
  write : Bool := false
  mx : Option Nat := none
  queue : Option (Nat × Nat × Nat) := none
  deriving DecidableEq, Repr

/-- The stop record (R428 Table 9). -/
structure StopRec where
  cut : List (BitVec 32) := []
  reason : Nat := 0
  ifqn : Nat := 0
  brk : BitVec 12 := 0
  nextPc : Word := 0
  mx : Word := 0
  time : Nat := 0
  dcause : Nat := 0
  dindex : Nat := 0
  dcode : Byte := 0
  dslot : Word := 0
  deriving DecidableEq, Repr

/-- How a timed wait ended: satisfied or timed out, the context time, and the setter's kind and SRC (R101, R103, R454). -/
structure WaitEnd where
  ok : Bool
  time : Nat
  by_ : Option (Nat × Word) := none
  deriving DecidableEq, Repr

/-- A service in progress (R119, R401, R424): the result register, the service, its page, its second argument, and the transit entries
that its move has made: context, first VA and length (R422). -/
structure Service where
  d : SReg
  svc : Nat
  va : Word
  arg : Nat
  ranges : List (Nat × Nat × Nat) := []
  deriving DecidableEq, Repr

/-- Control state of the sequencer: the line, whether it was entered, its eight lanes, the next lane to handle (R54 to R61), a wait in
progress and how it ended, what a stop leaves to be done at the next run, and a watch stop that is due (R442); preempt is the entry for
which Owl pre-empts the task, halt what a debug stop or an abort will record of it once its units stand at their points (R425, R432,
R447), ranSince the cycle it entered its slot (R326), stalled that its last lane was held (R425), page the page fault it waits on (R420),
service a service in progress (R119), brkPass the breakpoints that the next instruction does not match again (R451). -/
structure Flow where
  line : Word := 0
  entered : Bool := false
  lanes : List Lane := []
  lane : Nat := 1
  timed : Option Timed := none
  ended : Option WaitEnd := none
  finishing : Option Nat := none
  brkPass : List Nat := []
  preempt : Option Nat := none
  halt : Option StopRec := none
  ranSince : Nat := 0
  stalled : Bool := false
  stepping : Bool := false
  stepDone : Bool := false
  stop : Option StopRec := none
  ready : Option Nat := none
  page : Option FaultInfo := none
  due : Option (Nat × Word) := none
  service : Option Service := none
  deriving DecidableEq, Repr

/-- A task: its pool entry and everything its context frame and backing hold (R352, R428). ifq are its results in flight, mx its matrix
command in progress, puts the results of a sub-tile that are landing (R389), adrift what accesses of an engine that have ended still have
to land, as other paths see it before an xfence (R25, R102; log 61), badger the queue whose demand is being served and wants those whose
demands wait for it (R168), home the core whose frames keep its scratchpad pages since it left its slot, cpTail the CPY number after the
last command written to a slot (R373), and written the filled pages written since they were filled (R354). -/
structure Task where
  status : Status := .idle
  pool : PoolEntry := {}
  regs : Regs := {}
  sys : Special := {}
  flow : Flow := {}
  nums : Vector (BitVec 32) 9 := .replicate 9 0
  queues : Vector (List Entry) 9 := .replicate 9 []
  ords : Nat := 1
  marked : Nat := 0
  freed : Nat := 0
  thunks : List Thunk := []
  ifq : List InFlight := []
  mx : Option MatrixCmd := none
  puts : Option SubPuts := none
  adrift : List (Path × Landing) := []
  badger : Option Stream := none
  wants : List Stream := []
  scratch : Mem := []
  filled : BitVec 32 := 0
  written : BitVec 32 := 0
  home : Option Nat := none
  vcq : List CopySlot := []
  cpTail : BitVec 32 := 0
  heldLnk : List Word := []
  held : List (Stream × Event) := []
  handles : Option Nat := none
  recordVa : Word := 0
  setter : List (Nat × (Nat × Word × Nat)) := []
  deriving DecidableEq, Repr

/-! ## Module state -/

/-- Effective values of an RCB (R27), as read at an acceptance (R29). -/
structure Eff where
  parent : Word := 0
  fdRoot : Bool := false
  prio : Nat := 0
  maxCores : Nat := 48
  cycBudget : Nat := 0
  wdogi : Nat := 0
  fhTpl : BitVec 10 := 0x3FF
  fhRcb : Word := 0
  flogVa : Word := 0
  flogRcb : Word := 0
  flogN : Nat := 16
  ttbl : Word := 0
  fhTtbl : Word := 0
  scOff : Word := 0
  baseOff : Word := 0
  deriving DecidableEq, Repr

/-- The trace ring of a context and the replay log (R452, R457, R458). -/
structure Trace where
  base : Word
  n : Nat
  mask : BitVec 4
  wthresh : Nat
  logN : Nat := 0
  logVa : Word := 0
  head : BitVec 32 := 0
  tail : BitVec 32 := 0
  lost : Nat := 0
  index : List (Nat × Nat) := []
  used : List Nat := []
  deriving DecidableEq, Repr

/-- A page of a context's page tables: its PA, its level, and the first VA it maps (R410; log 9). -/
structure Table where
  pa : Nat
  level : Nat
  va : Nat
  deriving DecidableEq, Repr

/-- A context (R410, R466 CREATE_CONTEXT): reserves are the PA and length of its sketch and spill reserves (R348), moves
and fixed the recent moves of its pages and those the move bound holds in place (R423), stepTask the task of a STEP that
has not ended (R449), spilled what the used spill units hold (R421), image the memory of the module at the last acceptance of
one of its launches (R29), rcbs the RCBs that its acceptances have named, with their ancestors (R33), issued the link entries
begun per direction of a channel, and cancelled the begun ones that an abort cancelled (R302, R432). -/
structure Ctx where
  number : Nat
  fn : BitVec 11 := 0
  privileged : Bool := false
  root : Nat := 0
  rootRcb : Word := 0
  skBytes : Nat := 0
  reserves : List (Nat × Nat) := []
  skUsed : List (Nat × Nat × Nat) := []
  spillUnits : Nat := 0
  spillUsed : List (Nat × Nat) := []
  spilled : List ((Nat × Nat) × MatrixCmd) := []
  chanFirst : Nat := 0
  chanCount : Nat := 0
  issued : List (Nat × Nat) := []
  cancelled : List (Nat × Nat) := []
  prBase : Nat := 0
  prSize : Nat := 16
  prRead : BitVec 32 := 0
  prWrite : BitVec 32 := 0
  posted : List Word := []
  watch : List (BitVec 128) := []
  watchPa : List (Option Nat) := []
  breaks : List (BitVec 128) := []
  attached : Bool := false
  halted : Bool := false
  haltCycles : Nat := 0
  stepTask : Option Nat := none
  trace : Option Trace := none
  image : Option (Mem × Mem) := none
  rcbs : List Word := []
  records : List ((Word × Nat) × List Byte) := []
  moves : List (Nat × Nat) := []
  fixed : List Nat := []
  tables : List Table := []
  deriving DecidableEq, Repr

/-- One node of an accepted launch, as the pass read and computed it (R41, R309, R310). -/
structure Node where
  dist : Nat := 0
  owner : BitVec 2 := 0
  tpl : BitVec 10 := 0
  init : Nat := 0
  arg0 : Word := 0
  arg1 : Word := 0
  done : Bool := false
  deriving DecidableEq, Repr

/-- A launch from its LAUNCH command to its retirement (R37 to R40, R308 to R315, R358): csUnits are the 64 KiB units
of each cluster set aside for it, prev the launch before it in its queue, page a page that its pass waits for, and its write intent (R313),
image the memory of the module at its acceptance, where it reads RCB values until it retires (R29). -/
structure Launch where
  serial : Nat
  ctx : Nat
  queue : BitVec 6
  nodeTbl : Word
  nodeCnt : Nat
  overlap : Bool
  lrcb : Word
  lttbl : Word
  doneVa : Word
  doneVal : Word
  csVa : Word := 0
  csSz : Nat := 0
  csFmt : Byte := 0
  csUnits : List Nat := []
  prev : Nat := 0
  accepted : Bool := false
  passed : Vector Bool 4 := .replicate 4 false
  cursor : Vector (List Nat) 4 := .replicate 4 []
  nodes : List Node := []
  dead : Bool := false
  image : Option (Mem × Mem) := none
  page : Option (Word × Bool) := none
  deriving DecidableEq, Repr

/-- A slot of a continuation launch queue (R276, R280): its home, and the template or the node it launches. -/
structure ClqSlot where
  home : Nat
  slot : Nat
  die : BitVec 2
  ctx : Nat
  tpl : Option (BitVec 10)
  serial : Nat := 0
  old : Word
  va : Word
  user : BitVec 32 := 0
  issuerNode : BitVec 32
  issuerRcb : Word
  ttbl : Word
  deriving DecidableEq, Repr

/-- A walk in progress (R415): context, address, core and what the requester intends; serial is the launch whose window of
cluster SRAM holds the address, 0 for the context's tables (R359); engine says that a copy engine asked, on the core's die (R418). -/
structure Walk where
  ctx : Nat
  va : Word
  core : Nat
  write : Bool
  fetch : Bool
  serial : Nat := 0
  engine : Bool := false
  deriving DecidableEq, Repr

/-- A translation held by a cache (R415): who holds it, the context, the page's VA and its leaf. -/
structure Cached where
  owner : Nat
  ctx : Nat
  page : Word
  leaf : Word
  deriving DecidableEq, Repr

/-- An access queue of a matrix engine or copy engine, with its current-page and next-page registers (R418): the unit is a
core number, or 192 + 2 × cluster + engine; the role is 0 A, 1 B, 2 prior output or element source, 3 result, 4 scales and
metadata, or 0 source and 1 destination. -/
structure AccessQueue where
  unit : Nat
  role : Nat
  cur : Option Cached := none
  next : Option Cached := none
  deriving DecidableEq, Repr

/-- The counters of one tag on one die (R376, R455). -/
structure Counter where
  bytes : BitVec 48 := 0
  bytesOvf : Bool := false
  stalls : BitVec 48 := 0
  stallsOvf : Bool := false
  ctl : Word := 1
  deriving DecidableEq, Repr

/-- The doorbell page of a function (R464 Table 8), and a completion held while its ring is full: TAG, status, result. -/
structure FnRegs where
  enabled : Bool := false
  cmdBase : Word := 0
  cmdSize : BitVec 32 := 0
  cqTail : BitVec 32 := 0
  cmdHead : BitVec 32 := 0
  cplBase : Word := 0
  cplSize : BitVec 32 := 0
  cpHead : BitVec 32 := 0
  cplTail : BitVec 32 := 0
  ctrl : BitVec 32 := 0
  held : Option (BitVec 32 × BitVec 16 × Word) := none
  deriving DecidableEq, Repr

/-- What the machine last sent outside: to the host, to another chip or onto a link, a flit with its port and its number within its
pair (R475); a page goes with its poisoned lines and the
blocks whose integrity tags do not match (R422); bar answers a read of a function's BAR0 (R462). -/
inductive Sent
  | hostRead (bytes : List Byte) (poisoned : Bool)
  | configRetry
  | configDone
  | msix (fn : Nat) (vector : Nat)
  | peer (bytes : List Byte) (refused poisoned : Bool)
  | flit (peer chan pair : Nat) (bytes : List Byte) (poisoned : Bool) (port : Option Nat := none) (seq : Nat := 0)
  | service (chip : Nat) (pa : Nat) (svc : Nat)
  | serviceDone (done : Bool)
  | page (bytes : List Byte) (poison tags : List Nat)
  | bar (bytes : List Byte)
  deriving DecidableEq, Repr

/-- What happens of an access before it performs (R382, R383, R389): the i-th entry of a queue begins or is sent, takes the value of a
granule, or acts at its home; the acting access of a queue or engine computes its writes; one granule of them lands. -/
inductive Early
  | begin (i : Nat)
  | take (i space g : Nat)
  | act (i : Nat)
  | part
  | land (space g : Nat)
  deriving DecidableEq, Repr

/-- The unit whose access an early move is part of: a queue, the matrix engine, or a copy engine. -/
inductive Mover
  | queue (k : Stream)
  | mx
  | copy (engine : Bool)
  deriving DecidableEq, Repr

/-- Who moves next (log 1); early is a part of an access that happens before it performs; flitPart accepts a flit whose bytes then land
one by one (R303, R389); linkNews tells the oldest pair of a channel's direction that its partner entry has begun with a byte count, or
that it has taken another flit (R302, R475); tagError makes the stored tag of a block of HBM differ from its bytes (R435); barRead and
barWrite are the host's accesses to the BAR0 of a function (R461, R462), sense what the sensors of the module read (R462). -/
inductive Move
  | sequencer (tid : Nat)
  | queue (tid : Nat) (k : Stream)
  | early (tid : Nat) (u : Mover) (x : Early)
  | flitPart (peer : BitVec 10) (chan : BitVec 8) (senderCount : Nat) (payload : List Byte)
  | event (tid : Option Nat) (i : Instr)
  | command (fn : Nat)
  | hostStore (addr : Nat) (bytes : List Byte)
  | peerStore (chip : Nat) (pa : Nat) (bytes : List Byte)
  | linkNews (peer chan : Nat) (send : Bool) (count : Nat)
  | tagError (block : Nat)
  | barRead (fn off n : Nat)
  | barWrite (fn off : Nat) (bytes : List Byte)
  | sense (dieTemp power : BitVec 32)
  deriving DecidableEq, Repr

/-- A handler waiting for a pool entry (R398): the faulting task, the record's VA and the fault. -/
structure Waiting where
  tid : Nat
  die : BitVec 2
  pool : PoolEntry
  fltc : Byte
  fltv : Word
  fltq : Word
  thkrec : Word
  deriving DecidableEq, Repr

/-- The machine. The fields are those of INVENTORY.md, '## State'; quiet names the tags of a die whose counters a command set in this step
(R456), flrs the functions whose reset waits for their tasks to stop (R471), hold the cycles of this step for which issue is held (R478),
heldFlits the flits that a replay log holds (R458, R460), air the writes of the access that acts in this step when they are to land later
(R389), wrote the HBM bytes that accesses have written in this step (R29). -/
structure State where
  now : Nat := 0
  isReady : Bool := true
  resetting : Bool := false
  thermal : Bool := false
  throttle : Bool := false
  throttled : Nat := 0
  hold : Nat := 0
  portDown : BitVec 24 := 0
  retries : Vector Nat 24 := .replicate 24 0
  trained : BitVec 8 := 0xFF
  dieTemp : BitVec 32 := 0
  power : BitVec 32 := 0
  hbm : Mem := []
  csram : Mem := []
  backing : Mem := []
  hostMem : Mem := []
  peerMem : Mem := []
  dirty : List Nat := []
  rdc : List (Nat × Nat) := []
  poison : List Nat := []
  badTags : List Nat := []
  tlb : List Cached := []
  coreTc : List Cached := []
  fetchTc : List Cached := []
  lineCache : List Line := []
  walks : List Walk := []
  accessQs : List AccessQueue := []
  transit : List (Nat × Nat × Nat) := []
  counters : List ((Nat × Nat) × Counter) := []
  quiet : List (Nat × Nat) := []
  ctxs : List Ctx := []
  nextCtx : Nat := 1
  launches : List Launch := []
  nextSerial : Nat := 1
  clq : List ClqSlot := []
  waiting : List Waiting := []
  heldFlits : List Instr := []
  lastLaunch : List (Nat × Nat) := []
  coreResv : List (Nat × Nat) := []
  overBudget : List (Nat × Word × Nat × BitVec 32) := []
  served : List (Nat × Nat) := []
  cur : Task := {}
  others : List Task := []
  flrs : List Nat := []
  fns : List (Nat × FnRegs) := [(0, { enabled := true })]
  lost : List (Nat × Nat) := []
  act : Option Entry := none
  air : Option (List Patch) := none
  wrote : List (Nat × Nat) := []
  sent : List Sent := []
  sched : List Move := []
  turn : Nat := 0
  free : Nat := 0
  deriving DecidableEq, Repr

/-- The machine right after reset: step 7 of R477 reached, nothing created, every list empty, function 0 enabled. -/
def State.reset : State := {}

end Sys2Proof.Machine
end

