-- ==== Sys2Proof/Machine/Sha.lean ====
section
/-! DEFINITION. SHA-256, by which an attestation report measures registration records (R473 Table 6), and RSASSA-PSS with SHA-256 and
MGF1, a salt of 32 bytes and the exponent 65,537, by which the report is signed (R473). -/

namespace Sys2Proof.Machine

/-- The round constants of SHA-256. -/
def shaK : List Lane :=
  [0x428A2F98, 0x71374491, 0xB5C0FBCF, 0xE9B5DBA5, 0x3956C25B, 0x59F111F1, 0x923F82A4, 0xAB1C5ED5,
   0xD807AA98, 0x12835B01, 0x243185BE, 0x550C7DC3, 0x72BE5D74, 0x80DEB1FE, 0x9BDC06A7, 0xC19BF174] ++
  [0xE49B69C1, 0xEFBE4786, 0x0FC19DC6, 0x240CA1CC, 0x2DE92C6F, 0x4A7484AA, 0x5CB0A9DC, 0x76F988DA,
   0x983E5152, 0xA831C66D, 0xB00327C8, 0xBF597FC7, 0xC6E00BF3, 0xD5A79147, 0x06CA6351, 0x14292967] ++
  [0x27B70A85, 0x2E1B2138, 0x4D2C6DFC, 0x53380D13, 0x650A7354, 0x766A0ABB, 0x81C2C92E, 0x92722C85,
   0xA2BFE8A1, 0xA81A664B, 0xC24B8B70, 0xC76C51A3, 0xD192E819, 0xD6990624, 0xF40E3585, 0x106AA070] ++
  [0x19A4C116, 0x1E376C08, 0x2748774C, 0x34B0BCB5, 0x391C0CB3, 0x4ED8AA4A, 0x5B9CCA4F, 0x682E6FF3,
   0x748F82EE, 0x78A5636F, 0x84C87814, 0x8CC70208, 0x90BEFFFA, 0xA4506CEB, 0xBEF9A3F7, 0xC67178F2]

/-- The initial hash value. -/
def shaInit : List Lane :=
  [0x6A09E667, 0xBB67AE85, 0x3C6EF372, 0xA54FF53A, 0x510E527F, 0x9B05688C, 0x1F83D9AB, 0x5BE0CD19]

/-- A big-endian word. -/
def beLane (bs : List Byte) : Lane := bs.foldl (fun x b => (x <<< 8) ||| b.setWidth 32) 0

/-- The bytes of a big-endian word. -/
def laneBytes (x : Lane) : List Byte :=
  [x.extractLsb' 24 8, x.extractLsb' 16 8, x.extractLsb' 8 8, x.extractLsb' 0 8]

/-- The message padded to whole blocks of 64 bytes. -/
def shaPad (m : List Byte) : List Byte :=
  let n := 8 * m.length
  m ++ [0x80] ++ List.replicate ((119 - m.length % 64) % 64) 0 ++ laneBytes (BitVec.ofNat 32 (n / 2 ^ 32)) ++ laneBytes (BitVec.ofNat 32 n)

/-- The message schedule: k more words after those given, the newest first. -/
def shaSchedule : Nat → List Lane → List Lane
  | 0, w => w
  | k + 1, w =>
    let s0 (x : Lane) : Lane := x.rotateRight 7 ^^^ x.rotateRight 18 ^^^ (x >>> 3)
    let s1 (x : Lane) : Lane := x.rotateRight 17 ^^^ x.rotateRight 19 ^^^ (x >>> 10)
    shaSchedule k ((s1 (w.getD 1 0) + w.getD 6 0 + s0 (w.getD 14 0) + w.getD 15 0) :: w)

/-- One round on the working variables a to h. -/
def shaRound (v : List Lane) (kw : Lane × Lane) : List Lane :=
  match v with
  | [a, b, c, d, e, f, g, h] =>
    let t1 := h + (e.rotateRight 6 ^^^ e.rotateRight 11 ^^^ e.rotateRight 25) + ((e &&& f) ^^^ (~~~e &&& g)) + kw.1 + kw.2
    let t2 := (a.rotateRight 2 ^^^ a.rotateRight 13 ^^^ a.rotateRight 22) + ((a &&& b) ^^^ (a &&& c) ^^^ (b &&& c))
    [t1 + t2, a, b, c, d + t1, e, f, g]
  | _ => v

/-- The hash after one block. -/
def shaBlock (h : List Lane) (block : List Byte) : List Lane :=
  let w0 := (List.range 16).map fun i => beLane ((block.drop (4 * i)).take 4)
  let w := (shaSchedule 48 w0.reverse).reverse
  List.zipWith (· + ·) h ((shaK.zip w).foldl shaRound h)

/-- The hash after n blocks. -/
def shaBlocks : Nat → List Lane → List Byte → List Lane
  | 0, h, _ => h
  | n + 1, h, m => shaBlocks n (shaBlock h (m.take 64)) (m.drop 64)

/-- SHA-256 of a message. -/
def sha256 (m : List Byte) : List Byte :=
  let p := shaPad m
  (shaBlocks (p.length / 64) shaInit p).flatMap laneBytes

/-! ## RSASSA-PSS (R473) -/

/-- A number as n bytes, the most significant first. -/
def beBytes (n x : Nat) : List Byte := (leBytes n x).reverse

/-- The number of bytes, the most significant first. -/
def beNat (bs : List Byte) : Nat := leNat bs.reverse

/-- MGF1 with SHA-256: n blocks of mask from a seed. -/
def mgf1 (seed : List Byte) (n : Nat) : List Byte := (List.range n).flatMap fun i => sha256 (seed ++ beBytes 4 i)

/-- The encoded message of EMSA-PSS for a modulus of 3,072 bits: 384 bytes whose first bit is 0. -/
def emsaPss (message salt : List Byte) : List Byte :=
  let h := sha256 (List.replicate 8 0 ++ sha256 message ++ salt)
  let db := List.replicate 318 0 ++ [1] ++ salt
  let masked := List.zipWith (· ^^^ ·) db (mgf1 h 11)
  (masked.headD 0 &&& 0x7F) :: masked.tail ++ h ++ [0xBC]

/-- A power modulo a number, over as many bits of the exponent as are given. -/
def powMod (m base : Nat) : Nat → Nat → Nat
  | 0, _ => 1 % m
  | bits + 1, e =>
    let half := powMod m base bits (e / 2)
    let square := half * half % m
    if e % 2 = 1 then square * base % m else square

/-- The public modulus of the identity key. -/
def rsaModulus : Nat := Config.primeP * Config.primeQ

/-- The private exponent: the inverse of 65,537 modulo (p - 1)(q - 1). -/
def rsaPrivate : Nat :=
  let phi := (Config.primeP - 1) * (Config.primeQ - 1)
  (Nat.gcdA 65537 phi % (phi : Int)).toNat

/-- The signature of a message with a salt: 384 bytes. -/
def rsaSign (message salt : List Byte) : List Byte :=
  beBytes 384 (powMod rsaModulus (beNat (emsaPss message salt)) 3072 rsaPrivate)

end Sys2Proof.Machine
end

