-- ==== Sys2Proof/Machine/Formats.lean ====
section
/-! DEFINITION. Exact values, the sixteen element formats, and rounding (R125 to R139, R141, R199 to R201). A finite
value is an exact fraction with a sign, so that each result is computed exactly and narrowed once. -/

namespace Sys2Proof

/-- A value: a NaN, an infinity, or sign and magnitude num / den with den > 0 (a zero keeps its sign). -/
inductive FV
  | nan
  | inf (neg : Bool)
  | fin (neg : Bool) (num den : Nat)
  deriving DecidableEq, Repr

/-- FPST flags: [4] nan-lost, [3] inexact, [2] underflow, [1] overflow, [0] invalid (R114). -/
abbrev Fl := BitVec 5

/-- invalid. -/
def flInvalid : Fl := 1
/-- overflow. -/
def flOverflow : Fl := 2
/-- underflow. -/
def flUnderflow : Fl := 4
/-- inexact. -/
def flInexact : Fl := 8
/-- nan-lost. -/
def flNanLost : Fl := 16

/-! ## Exact arithmetic -/

/-- A value is zero. -/
def FV.isZero : FV → Bool
  | .fin _ n _ => n == 0
  | _ => false

/-- The sign of a value. -/
def FV.neg? : FV → Bool
  | .nan => false
  | .inf s => s
  | .fin s _ _ => s

/-- The negated value. -/
def FV.negate : FV → FV
  | .nan => .nan
  | .inf s => .inf !s
  | .fin s n d => .fin (!s) n d

/-- The sum of finite values: a zero is −0 only when both are −0 (R143, R199). -/
def finAdd (s1 : Bool) (n1 d1 : Nat) (s2 : Bool) (n2 d2 : Nat) : FV :=
  let a := n1 * d2
  let b := n2 * d1
  if s1 = s2 then .fin s1 (a + b) (d1 * d2)
  else if a = b then .fin (s1 && s2 && a == 0) 0 1
  else if b < a then .fin s1 (a - b) (d1 * d2)
  else .fin s2 (b - a) (d1 * d2)

/-- The exact sum and the invalid flag of ∞ − ∞ (R143, R199). -/
def FV.add : FV → FV → FV × Fl
  | .nan, _ => (.nan, 0)
  | _, .nan => (.nan, 0)
  | .inf a, .inf b => if a = b then (.inf a, 0) else (.nan, flInvalid)
  | .inf a, _ => (.inf a, 0)
  | _, .inf b => (.inf b, 0)
  | .fin s1 n1 d1, .fin s2 n2 d2 => (finAdd s1 n1 d1 s2 n2 d2, 0)

/-- The exact product and the invalid flag of 0 × ∞. -/
def FV.mul : FV → FV → FV × Fl
  | .nan, _ => (.nan, 0)
  | _, .nan => (.nan, 0)
  | .inf a, .inf b => (.inf (a != b), 0)
  | .inf a, .fin s n _ => if n = 0 then (.nan, flInvalid) else (.inf (a != s), 0)
  | .fin s n _, .inf b => if n = 0 then (.nan, flInvalid) else (.inf (s != b), 0)
  | .fin s1 n1 d1, .fin s2 n2 d2 => (.fin (s1 != s2) (n1 * n2) (d1 * d2), 0)

/-- The exact quotient: x ≠ 0 over 0 is ±∞; 0 over 0 and ∞ over ∞ are NaN with invalid (R191). -/
def FV.div : FV → FV → FV × Fl
  | .nan, _ => (.nan, 0)
  | _, .nan => (.nan, 0)
  | .inf _, .inf _ => (.nan, flInvalid)
  | .inf a, .fin s _ _ => (.inf (a != s), 0)
  | .fin s _ _, .inf b => (.fin (s != b) 0 1, 0)
  | .fin s1 n1 d1, .fin s2 n2 d2 =>
    if n2 = 0 then (if n1 = 0 then (.nan, flInvalid) else (.inf (s1 != s2), 0))
    else (.fin (s1 != s2) (n1 * d2) (d1 * n2), 0)

/-- The order of two values that are no NaN: less, with −0 equal to +0. -/
def FV.lt : FV → FV → Bool
  | .nan, _ => false
  | _, .nan => false
  | .inf a, .inf b => a && !b
  | .inf a, .fin _ _ _ => a
  | .fin _ _ _, .inf b => !b
  | .fin s1 n1 d1, .fin s2 n2 d2 =>
    let a := n1 * d2
    let b := n2 * d1
    if s1 then (if s2 then decide (b < a) else decide (a ≠ 0 ∨ b ≠ 0))
    else if s2 then false else decide (a < b)

/-- Equal values: −0 equals +0 (R202). -/
def FV.eq : FV → FV → Bool
  | .nan, _ => false
  | _, .nan => false
  | a, b => !(a.lt b) && !(b.lt a)

/-- The lesser value: −0 below +0, any NaN gives NaN (R200). -/
def FV.min : FV → FV → FV
  | .nan, _ => .nan
  | _, .nan => .nan
  | a, b => if a.lt b then a else if b.lt a then b else if a.neg? then a else b

/-- The greater value: +0 above −0, any NaN gives NaN (R200). -/
def FV.max : FV → FV → FV
  | .nan, _ => .nan
  | _, .nan => .nan
  | a, b => if a.lt b then b else if b.lt a then a else if a.neg? then b else a

/-- The value of an integer. -/
def FV.ofInt (x : Int) : FV := .fin (decide (x < 0)) x.natAbs 1

/-- The integer of an exact integer value. -/
def FV.toInt : FV → Int
  | .fin s n d => if s then -((n / d : Nat) : Int) else ((n / d : Nat) : Int)
  | _ => 0

/-- The value 1. -/
def FV.one : FV := .fin false 1 1

/-! ## Formats (R125 Table 1) -/

/-- A floating format: mantissa bits, bias, sign position, whether it has infinities, the code of its greatest finite
value and of its canonical NaN (none: the format has no NaN; R127 Table 2, Table 3). -/
structure FSpec where
  m : Nat
  bias : Nat
  sign : Nat
  hasInf : Bool
  maxCode : Nat
  nanCode : Option Nat
  deriving DecidableEq, Repr

/-- FP32 (R125 Table 1). -/
def specFp32 : FSpec := ⟨23, 127, 31, true, 0x7F7FFFFF, some 0x7FC00000⟩

/-- FP64, the format of DE (R222). -/
def specFp64 : FSpec := ⟨52, 1023, 63, true, 0x7FEFFFFFFFFFFFFF, some 0x7FF8000000000000⟩

/-- The floating formats among the sixteen. -/
def Fmt.spec : Fmt → Option FSpec
  | .fp32 => some specFp32
  | .x19 => some ⟨11, 63, 18, true, 0x3F7FF, some 0x3FC00⟩
  | .bf16 => some ⟨7, 127, 15, true, 0x7F7F, some 0x7FC0⟩
  | .fp16 => some ⟨10, 15, 15, true, 0x7BFF, some 0x7E00⟩
  | .e5m2 => some ⟨2, 15, 7, true, 0x7B, some 0x7E⟩
  | .e4m3 => some ⟨3, 7, 7, false, 0x7E, some 0x7F⟩
  | .e3m2 => some ⟨2, 3, 5, false, 0x1F, none⟩
  | .e2m3 => some ⟨3, 1, 5, false, 0x1F, none⟩
  | .e2m1 => some ⟨1, 1, 3, false, 0x7, none⟩
  | _ => none

/-- Element width in bits: the container of X19 is 32 (R125, R126). -/
def Fmt.bits : Fmt → Nat
  | .fp32 | .x19 | .int32 => 32
  | .bf16 | .fp16 | .int16 => 16
  | .e5m2 | .e4m3 | .int8 | .uint8 | .e8m0 => 8
  | .e3m2 | .e2m3 => 6
  | .e2m1 | .int4 | .uint4 => 4

/-- An integer format: signed, and its width. -/
def Fmt.int : Fmt → Option (Bool × Nat)
  | .int8 => some (true, 8)
  | .uint8 => some (false, 8)
  | .int4 => some (true, 4)
  | .uint4 => some (false, 4)
  | .int16 => some (true, 16)
  | .int32 => some (true, 32)
  | _ => none

/-- The value 2^e. -/
def pow2 (neg : Bool) (mant : Nat) (e : Int) : FV :=
  if 0 ≤ e then .fin neg (mant * 2 ^ e.toNat) 1 else .fin neg mant (2 ^ (-e).toNat)

/-- Decode a code of a floating format (R125). -/
def FSpec.dec (f : FSpec) (code : Nat) : FV :=
  let neg := code / 2 ^ f.sign % 2 == 1
  let mag := code % 2 ^ f.sign
  let e := mag / 2 ^ f.m
  let mant := mag % 2 ^ f.m
  if f.maxCode < mag then
    (if f.hasInf && mant == 0 then .inf neg else .nan)
  else if e = 0 then pow2 neg mant (1 - f.bias - f.m)
  else pow2 neg (2 ^ f.m + mant) ((e : Int) - f.bias - f.m)

/-- A two's-complement reading of w bits. -/
def signedOf (w x : Nat) : Int := if 2 ^ (w - 1) ≤ x % 2 ^ w then (x % 2 ^ w : Int) - 2 ^ w else (x % 2 ^ w : Int)

/-- The value of an element's bits in its format, unscaled (R125). -/
def Fmt.dec (f : Fmt) (x : Nat) : FV :=
  match f.spec with
  | some sp => sp.dec (x % 2 ^ (sp.sign + 1))
  | none =>
    match f.int with
    | some (true, w) => .ofInt (signedOf w x)
    | some (false, w) => .ofInt (x % 2 ^ w : Nat)
    | none => if x % 256 = 255 then .nan else pow2 false 1 ((x % 256 : Nat) - 127)

/-! ## Rounding (R133 to R138) -/

/-- Round a fraction to an integer under a mode: the integer, and whether it was exact. r is the generator's number
under rs (R138). -/
def roundNat (mode : Rm) (r a b : Nat) : Nat × Bool :=
  let n := a / b
  let rem := a % b
  if rem = 0 then (n, true) else
  match mode with
  | .rz => (n, false)
  | .rne => (if b < 2 * rem ∨ (2 * rem = b ∧ n % 2 = 1) then n + 1 else n, false)
  | .rs => (if r < rem * 65536 / b then n + 1 else n, false)

/-- floor(log2(num / den)) for a nonzero fraction. -/
def exponentOf (num den : Nat) : Int :=
  let e : Int := (Nat.log2 num : Int) - Nat.log2 den
  let small := if 0 ≤ e then decide (num < den * 2 ^ e.toNat) else decide (num * 2 ^ (-e).toNat < den)
  if small then e - 1 else e

/-- Round a fraction to a multiple of 2^q. -/
def roundAt (mode : Rm) (r num den : Nat) (q : Int) : Nat × Bool :=
  if 0 ≤ q then roundNat mode r num (den * 2 ^ q.toNat) else roundNat mode r (num * 2 ^ (-q).toNat) den

/-- The code of a finite magnitude in a floating format and the flags (R134, R135, R141): overflow is judged with the
exponent unbounded, underflow on the rounded magnitude. So under rs a value just above the greatest finite one may round down to
it, which is the model's choice (R138, log 60). -/
def FSpec.encMag (f : FSpec) (mode : Rm) (r num den : Nat) : Nat × Fl :=
  if num = 0 then (0, 0) else
  let emin : Int := 1 - f.bias
  let e := exponentOf num den
  let q := (if e < emin then emin else e) - f.m
  let (n, exact) := roundAt mode r num den q
  let code := if n < 2 ^ f.m then n else ((q + f.m + f.bias).toNat - 1) * 2 ^ f.m + n
  if f.maxCode < code then
    (if f.hasInf && mode != .rz then f.maxCode + 1 else f.maxCode, flOverflow ||| flInexact)
  else if exact then (code, 0)
  else (code, flInexact ||| (if code < 2 ^ f.m then flUnderflow else 0))

/-- Encode a value in a floating format (R134, R135). -/
def FSpec.enc (f : FSpec) (mode : Rm) (r : Nat) (y : FV) : Nat × Fl :=
  let sign (neg : Bool) := if neg then 2 ^ f.sign else 0
  match y with
  | .nan =>
    match f.nanCode with
    | some c => (c, 0)
    | none => (0, flNanLost)
  | .inf neg => if f.hasInf then (sign neg + f.maxCode + 1, 0) else (sign neg + f.maxCode, flOverflow)
  | .fin neg num den =>
    let (c, fl) := f.encMag mode r num den
    (sign neg + c, fl)

/-- Encode a value in an integer format of w bits (R135, R137). -/
def encInt (signed : Bool) (w : Nat) (mode : Rm) (r : Nat) (y : FV) : Nat × Fl :=
  let lo : Int := if signed then -(2 ^ (w - 1) : Int) else 0
  let hi : Int := if signed then 2 ^ (w - 1) - 1 else 2 ^ w - 1
  let code (i : Int) : Nat := (i % (2 ^ w : Int)).toNat
  match y with
  | .nan => (0, flInvalid)
  | .inf neg => (code (if neg then lo else hi), flInvalid)
  | .fin neg num den =>
    let (n, exact) := roundNat mode r num den
    let i : Int := if neg then -(n : Int) else n
    if i < lo then (code lo, flInvalid) else if hi < i then (code hi, flInvalid)
    else (code i, if exact then 0 else flInexact)

/-- Encode a value in E8M0 (R135, R136). -/
def encE8m0 (mode : Rm) (r : Nat) (y : FV) : Nat × Fl :=
  match y with
  | .nan => (0xFF, 0)
  | .inf neg => if neg then (0xFF, flInvalid) else (0xFE, flOverflow)
  | .fin neg num den =>
    if neg ∨ num = 0 then (0xFF, flInvalid) else
    let e := exponentOf num den
    if e < -127 then (0, flUnderflow ||| flInexact) else
    -- 2^e ≤ y < 2^(e+1): in units of 2^e the magnitude is 1 ≤ f < 2
    let (a, b) := if 0 ≤ e then (num, den * 2 ^ e.toNat) else (num * 2 ^ (-e).toNat, den)
    let code : Nat := (e + 127).toNat
    let rem := a - b
    if rem = 0 then (if 0xFE < code then (0xFE, flOverflow ||| flInexact) else (code, 0)) else
    let up := match mode with
      | .rz => false
      | .rne => decide (b < 2 * rem) || (2 * rem == b && code % 2 == 1)
      | .rs => decide (r < rem * 65536 / b)
    let c := if up then code + 1 else code
    if 0xFE < c then (0xFE, flOverflow ||| flInexact) else (c, flInexact)

/-- enc(y, F, mode): the element's bits and the flags (R133 to R137). -/
def Fmt.enc (f : Fmt) (mode : Rm) (r : Nat) (y : FV) : Nat × Fl :=
  match f.spec with
  | some sp => sp.enc mode r y
  | none =>
    match f.int with
    | some (sg, w) => encInt sg w mode r y
    | none => encE8m0 mode r y

/-- The FP32 value of a lane. -/
def f32 (x : Lane) : FV := specFp32.dec x.toNat

/-- round_rne_fp32: the FP32 bits and the flags. -/
def toF32 (y : FV) : Lane × Fl :=
  let (c, fl) := specFp32.enc .rne 0 y
  (BitVec.ofNat 32 c, fl)

/-- The FP32 bits alone. -/
def rneF32 (y : FV) : Lane := (toF32 y).1

/-- One step of the generator and its 16-bit number (R139). -/
def rngStep (x : Word) : Word × Nat :=
  let y := x * 0x5851F42D4C957F2D + 0x14057B7EF767814F
  (y, (y.extractLsb' 48 16).toNat)

/-! ## Correctly rounded functions (R201) -/

/-- floor(sqrt x), from the highest bit of the root down. -/
def isqrtFrom (x : Nat) : Nat → Nat → Nat
  | 0, root => root
  | k + 1, root =>
    let c := root + 2 ^ k
    isqrtFrom x k (if c * c ≤ x then c else root)

/-- A magnitude known to lie strictly between s and s + 1 units of 2^-k, or to be s exactly: a fraction that rounds as
it does. -/
def sticky (neg : Bool) (s k : Nat) (exact : Bool) : FV :=
  if exact then .fin neg s (2 ^ k) else .fin neg (2 * s + 1) (2 ^ (k + 1))

/-- The square root of a positive fraction whose root lies between 2^-80 and 2^80, to 2^-128. -/
def sqrtFrac (num den : Nat) : FV :=
  let q := num * 2 ^ 256 / den
  let s := isqrtFrom q 224 0
  sticky false s 128 (s * s * den == num * 2 ^ 256)

/-- The square root of any positive fraction, scaled by an even power of two first. -/
def sqrtAny (num den : Nat) : FV :=
  let e := exponentOf num den / 2
  let s := if 0 ≤ e then sqrtFrac num (den * 4 ^ e.toNat) else sqrtFrac (num * 4 ^ (-e).toNat) den
  match s with
  | .fin g n d => if 0 ≤ e then .fin g (n * 2 ^ e.toNat) d else .fin g n (d * 2 ^ (-e).toNat)
  | x => x

/-- frcp (R201). -/
def rcpV (x : FV) : FV × Fl :=
  match x with
  | .nan => (.nan, 0)
  | .inf s => (.fin s 0 1, 0)
  | .fin s n d => if n = 0 then (.inf s, 0) else (.fin s d n, 0)

/-- fsqrt (R201). -/
def sqrtV (x : FV) : FV × Fl :=
  match x with
  | .nan => (.nan, 0)
  | .inf s => if s then (.nan, flInvalid) else (.inf false, 0)
  | .fin s n d => if n = 0 then (.fin s 0 1, 0) else if s then (.nan, flInvalid) else (sqrtAny n d, 0)

/-- frsq (R201). -/
def rsqV (x : FV) : FV × Fl :=
  match x with
  | .nan => (.nan, 0)
  | .inf s => if s then (.nan, flInvalid) else (.fin false 0 1, 0)
  | .fin s n d => if n = 0 then (.inf s, 0) else if s then (.nan, flInvalid) else (sqrtAny d n, 0)

/-- Fraction bits of the series below. -/
def serBits : Nat := 320

/-- ln 2 in units of 2^-serBits, from the series of 1 / (k 2^k), rounded down. -/
def ln2Sum : Nat → Nat → Nat → Nat
  | 0, _, acc => acc
  | fuel + 1, k, acc => ln2Sum fuel (k + 1) (acc + 2 ^ serBits / (k * 2 ^ k))

/-- The exponential series of t, in units of 2^-serBits. -/
def expSum (t : Nat) : Nat → Nat → Nat → Nat → Nat
  | 0, _, _, acc => acc
  | fuel + 1, k, term, acc => expSum t fuel (k + 1) (term * t / 2 ^ serBits / k) (acc + term)

/-- 2^(f / 2^serBits) for f below 2^serBits, in units of 2^-256: the error of the series is far below the last unit. -/
def exp2Frac (f : Nat) : Nat :=
  let t := f * ln2Sum 312 1 0 / 2 ^ serBits
  expSum t 72 1 (2 ^ serBits) 0 / 2 ^ (serBits - 256)

/-- fexp2 (R201). -/
def exp2V (x : FV) : FV × Fl :=
  match x with
  | .nan => (.nan, 0)
  | .inf s => (if s then .fin false 0 1 else .inf false, 0)
  | .fin s n d =>
    if n % d = 0 then
      (let i := min (n / d) 2000
       (pow2 false 1 (if s then -(i : Int) else i), 0))
    else
      let i := min (n / d) 2000
      let frac := n % d * 2 ^ serBits / d
      -- x = i + frac or -(i + 1) + (1 - frac)
      let (e, f) : Int × Nat := if s then (-(i : Int) - 1, 2 ^ serBits - frac) else (i, frac)
      let v := exp2Frac f
      -- a frac that the fixed point cannot tell from 0 or 1 leaves v at an end: keep it strictly inside
      let v := if v = 2 ^ 257 then v - 1 else v
      (match sticky false v 256 false with
        | .fin g a b => if 0 ≤ e then .fin g (a * 2 ^ e.toNat) b else .fin g a (b * 2 ^ (-e).toNat)
        | y => y, 0)

/-- The first k bits of log2 of a fraction in [1, 2), by squaring; y is in units of 2^-640. -/
def log2Bits : Nat → Nat → Nat → Nat
  | 0, _, acc => acc
  | k + 1, y, acc =>
    let z := y * y / 2 ^ 640
    if 2 ^ 641 ≤ z then log2Bits k (z / 2) (2 * acc + 1) else log2Bits k z (2 * acc)

/-- flog2 (R201). -/
def log2V (x : FV) : FV × Fl :=
  match x with
  | .nan => (.nan, 0)
  | .inf s => if s then (.nan, flInvalid) else (.inf false, 0)
  | .fin s n d =>
    if n = 0 then (.inf true, 0) else if s then (.nan, flInvalid) else
    let e := exponentOf n d
    let (a, b) := if 0 ≤ e then (n, d * 2 ^ e.toNat) else (n * 2 ^ (-e).toNat, d)
    if a = b then (FV.ofInt e, 0) else
    let frac := log2Bits 200 (a * 2 ^ 640 / b) 0
    if 0 ≤ e then (.fin false (2 * (e.toNat * 2 ^ 200 + frac) + 1) (2 ^ 201), 0)
    else (.fin true (2 * ((-e).toNat * 2 ^ 200 - frac) - 1) (2 ^ 201), 0)

end Sys2Proof
end

