-- ==== Sys2Proof/Machine/Memory.lean ====
section
/-! DEFINITION. Bytes of memory in canonical form, physical addresses and homes, page tables and the walk
(R346 to R348, R410 to R414, R434, R435). -/

namespace Sys2Proof.Machine

/-! ## Byte maps -/

/-- What an unlisted address reads as: zero (R477 step 4, R350, R358; log 5 for memory outside the module). -/
def unlisted : Byte := 0

/-- The byte at an address. -/
def Mem.read : Mem → Nat → Byte
  | [], _ => unlisted
  | (k, b) :: r, a => if a = k then b else if a < k then unlisted else Mem.read r a

/-- Store one byte, keeping the canonical form. -/
def Mem.write : Mem → Nat → Byte → Mem
  | [], a, b => if b = unlisted then [] else [(a, b)]
  | (k, c) :: r, a, b =>
    if a = k then (if b = unlisted then r else (a, b) :: r)
    else if a < k then (if b = unlisted then (k, c) :: r else (a, b) :: (k, c) :: r)
    else (k, c) :: Mem.write r a b

/-- The bytes from an address on. -/
def Mem.readN (m : Mem) (a n : Nat) : List Byte := (List.range n).map fun i => Mem.read m (a + i)

/-- Store bytes from an address on. -/
def Mem.writeN : Mem → Nat → List Byte → Mem
  | m, _, [] => m
  | m, a, b :: r => Mem.writeN (Mem.write m a b) (a + 1) r

/-- Return the addresses from lo to below hi to what an unlisted address reads as. -/
def Mem.clear (m : Mem) (lo hi : Nat) : Mem := m.filter fun c => decide (c.1 < lo ∨ hi ≤ c.1)

/-- The canonical form: addresses strictly rising from a bound, no byte equal to what an unlisted address reads as. -/
def Memory.wfFrom : Nat → Mem → Bool
  | _, [] => true
  | lo, (k, b) :: r => decide (lo ≤ k) && (b != unlisted) && Memory.wfFrom (k + 1) r

/-- A memory in canonical form. -/
def Memory.wf (m : Mem) : Bool := Memory.wfFrom 0 m

/-- The little-endian number in n bytes (R4). -/
def Mem.num (m : Mem) (a n : Nat) : Nat := leNat (Mem.readN m a n)

/-- Store a number in n bytes. -/
def Mem.setNum (m : Mem) (a n x : Nat) : Mem := Mem.writeN m a (leBytes n x)

/-! ## Fault codes (R432 Table 11) -/

/-- ILLEGAL_LINE. -/
def fcLine : Byte := 0x01
/-- ILLEGAL_OP. -/
def fcOp : Byte := 0x02
/-- ILLEGAL_FIELD. -/
def fcField : Byte := 0x03
/-- PORT_BAD. -/
def fcPort : Byte := 0x04
/-- PRIV. -/
def fcPriv : Byte := 0x05
/-- PAGE_NP. -/
def fcNp : Byte := 0x10
/-- PAGE_PERM. -/
def fcPerm : Byte := 0x11
/-- PTE_RESV. -/
def fcResv : Byte := 0x12
/-- HREVOKED. -/
def fcRevoked : Byte := 0x13
/-- HBOUND. -/
def fcBound : Byte := 0x14
/-- RAP_DENIED. -/
def fcRap : Byte := 0x16
/-- FMT_BAD. -/
def fcFmt : Byte := 0x17
/-- ALIGN. -/
def fcAlign : Byte := 0x18
/-- NB_CROSS. -/
def fcNbCross : Byte := 0x20
/-- NB_ATTR. -/
def fcNbAttr : Byte := 0x21
/-- ALIAS. -/
def fcAlias : Byte := 0x28
/-- THUNK_OVF. -/
def fcThunk : Byte := 0x29
/-- TILE_SHAPE. -/
def fcShape : Byte := 0x2A
/-- SK_CAP. -/
def fcSkCap : Byte := 0x30
/-- SK_STATE. -/
def fcSkState : Byte := 0x31
/-- DC_UNDER. -/
def fcUnder : Byte := 0x38
/-- K_LAUNCH. -/
def fcLaunch : Byte := 0x39
/-- Q_OVF. -/
def fcQueue : Byte := 0x3A
/-- WATCH. -/
def fcWatch : Byte := 0x40
/-- BREAK. -/
def fcBreak : Byte := 0x41
/-- TRAP. -/
def fcTrap : Byte := 0x42
/-- UE_DATA. -/
def fcData : Byte := 0x50
/-- UE_STATE. -/
def fcState : Byte := 0x51
/-- INTEGRITY. -/
def fcIntegrity : Byte := 0x52
/-- LINK_LOST. -/
def fcLost : Byte := 0x53
/-- WDOG. -/
def fcWdog : Byte := 0x60
/-- BUDGET. -/
def fcBudget : Byte := 0x61

/-- The classes that go to the fault-handler template (R398, R432). -/
def handledCode (c : Byte) : Bool :=
  c == fcRap || c == fcAlias || c == fcNbCross || c == fcNbAttr || c == fcSkCap || c == fcSkState

/-! ## Virtual addresses and leaf entries (R94, R412) -/

/-- Bits [63:57] all equal bit 56 (R94). -/
def canonical (va : Word) : Bool := (va.extractLsb' 56 8) == 0 || (va.extractLsb' 56 8) == 0xFF

/-- The number of bytes of a page of a size code (R412). -/
def pageBytes (sz : Nat) : Nat :=
  match sz with
  | 0 => 2 ^ 12
  | 1 => 2 ^ 16
  | 2 => 2 ^ 21
  | _ => 2 ^ 30

/-- PFN of a leaf. -/
def leafPfn (l : Word) : Nat := (l.extractLsb' 24 40).toNat
/-- BG. -/
def leafBg (l : Word) : Nat := (l.extractLsb' 20 3).toNat
/-- FMT code. -/
def leafFmt (l : Word) : BitVec 4 := l.extractLsb' 16 4
/-- DLT. -/
def leafDlt (l : Word) : Bool := l.getLsbD 14
/-- PIN. -/
def leafPin (l : Word) : Bool := l.getLsbD 13
/-- TSO. -/
def leafTso (l : Word) : Bool := l.getLsbD 12
/-- CC. -/
def leafCc (l : Word) : Bool := l.getLsbD 11
/-- MS. -/
def leafMs (l : Word) : Bool := l.getLsbD 10
/-- RAP. -/
def leafRap (l : Word) : Bool := l.getLsbD 9
/-- AP. -/
def leafAp (l : Word) : Nat := (l.extractLsb' 7 2).toNat
/-- SZ. -/
def leafSz (l : Word) : Nat := (l.extractLsb' 5 2).toNat
/-- X. -/
def leafX (l : Word) : Bool := l.getLsbD 2
/-- W. -/
def leafW (l : Word) : Bool := l.getLsbD 1
/-- V. -/
def leafV (l : Word) : Bool := l.getLsbD 0

/-- The first byte of the page that holds an address, for a leaf's size. -/
def pageOf (leaf va : Word) : Nat := va.toNat / pageBytes (leafSz leaf) * pageBytes (leafSz leaf)

/-- The populated bytes of a die's HBM window (R346). -/
def hbmBytes : Nat := 128 * 10 ^ 9

/-- The first offset of a die's task-backing region (R348). -/
def backingBase : Nat := 0x1D8D650000

/-- The own-cluster range of cluster SRAM (R346 Table 2). -/
def csramBase : Nat := 2 ^ 51

/-- The 22-bit offset limit of cluster SRAM. -/
def csramBytes : Nat := 2 ^ 22

/-- A physical page that the map of R346 holds whole. -/
def paMapped (pa n : Nat) : Bool :=
  decide (pa + n ≤ 2 ^ 39 ∧ pa % 2 ^ 37 + n ≤ hbmBytes) || decide (csramBase ≤ pa ∧ pa + n ≤ csramBase + csramBytes)

/-- The checks of a valid leaf (R413): reserved bits, level, alignment, range and attribute rules. -/
def leafOk (level : Nat) (l : Word) : Bool :=
  let sz := leafSz l
  let field := if leafAp l = 1 then leafPfn l % 2 ^ 30 else leafPfn l
  let unit := pageBytes sz / 4096
  !l.getLsbD 15 && !l.getLsbD 23 && leafAp l != 3 &&
  (match level with
    | 0 => decide (sz ≤ 1)
    | 1 => sz == 2
    | _ => sz == 3) &&
  field % unit == 0 &&
  (leafAp l != 0 || paMapped (leafPfn l * 4096) (pageBytes sz)) &&
  (!leafCc l || (sz == 2 && leafAp l == 0)) &&
  (!leafDlt l || (sz == 0 && leafPfn l % 2 == 0 && leafAp l == 0)) &&
  (!(leafMs l || leafPin l) || leafAp l != 2)

/-- A page of this chip's HBM: local aperture outside cluster SRAM (R266 step 5, R360). -/
def localHbm (leaf : Word) : Bool := leafAp leaf == 0 && decide (leafPfn leaf * 4096 < csramBase)

/-- One level of a walk: the entry's PA, or the end of the walk (R410, R411, R412). Level 0 reads the first entry of
the aligned group of 16 first, which maps the whole group when it is a valid 64 KiB leaf. -/
def walkFrom (hbm : Mem) (va : Nat) : Nat → Nat → Except Byte (Word × Nat)
  | 0, table =>
    let group := table + va / 2 ^ 16 % 32 * 128
    let first : Word := BitVec.ofNat 64 (Mem.num hbm group 8)
    let at_ := if leafV first && leafSz first == 1 then group else table + va / 2 ^ 12 % 512 * 8
    let e : Word := BitVec.ofNat 64 (Mem.num hbm at_ 8)
    if !leafV e then .error fcNp else if leafOk 0 e then .ok (e, at_) else .error fcResv
  | level + 1, table =>
    let at_ := table + va / 2 ^ (12 + 9 * (level + 1)) % 512 * 8
    let e : Word := BitVec.ofNat 64 (Mem.num hbm at_ 8)
    if !leafV e then .error fcNp
    else if (level + 1 = 1 ∧ leafSz e = 2) ∨ (level + 1 = 2 ∧ leafSz e = 3) then
      if leafOk (level + 1) e then .ok (e, at_) else .error fcResv
    else if leafSz e ≠ 0 ∨ e.extractLsb' 7 17 ≠ 0 ∨ e.extractLsb' 1 4 ≠ 0 then .error fcResv
    else walkFrom hbm va level (leafPfn e * 4096)

/-- A walk of a context's tables: the leaf and its PA, or the fault that ends the walk (R94, R410, R411, R413). -/
def walkTables (hbm : Mem) (root : Nat) (va : Word) : Except Byte (Word × Nat) :=
  if canonical va then walkFrom hbm va.toNat 4 root else .error fcBound

/-! ## Places -/

/-- Where bytes live: this module's HBM, cluster SRAM, a peer chip's memory, the host's memory. -/
inductive Space
  | hbm
  | csram
  | peer
  | host
  deriving DecidableEq, Repr

/-- The place of a byte that a leaf maps, for an access from a cluster (R346, R412). A delta page's data is no plain
byte of its frame: see Delta in Operands.lean. -/
def placeOf (leaf va : Word) (cluster : Nat) : Space × Nat :=
  let off := va.toNat % pageBytes (leafSz leaf)
  match leafAp leaf with
  | 0 =>
    let pa := leafPfn leaf * 4096 + off
    if pa < csramBase then (.hbm, pa) else (.csram, cluster * csramBytes + (pa - csramBase))
  | 1 => (.peer, leafPfn leaf / 2 ^ 30 * 2 ^ 52 + leafPfn leaf % 2 ^ 30 * 4096 + off)
  | _ => (.host, leafPfn leaf * 4096 + off)

/-- The memory of a space. -/
def State.memOf (s : State) : Space → Mem
  | .hbm => s.hbm
  | .csram => s.csram
  | .peer => s.peerMem
  | .host => s.hostMem

/-- The 64-byte lines that n bytes from an address touch. -/
def linesOf (a n : Nat) : List Nat :=
  if n = 0 then [] else (List.range ((a + n - 1) / 64 - a / 64 + 1)).map (· + a / 64)

/-- The lines that n bytes from an address cover whole. -/
def wholeLines (a n : Nat) : List Nat := (linesOf a n).filter fun l => decide (a ≤ 64 * l ∧ 64 * l + 64 ≤ a + n)

/-- A list of numbers with one more member. -/
def addTo (l : List Nat) (x : Nat) : List Nat := if l.contains x then l else x :: l

/-- Lines of one L2 slice of 3 MiB (R1). -/
def sliceLines : Nat := 3 * 2 ^ 20 / 64

/-- Lines of a die's remote-data cache of 32 MiB (R1). -/
def rdcLines : Nat := 32 * 2 ^ 20 / 64

/-- A list without its last member of a kind, once it holds a number of them: a full cache drops its oldest (log 48). -/
def evict {α : Type} (limit : Nat) (sel : α → Bool) (l : List α) : List α :=
  if (l.filter sel).length < limit then l else
  let keep := l.reverse
  (keep.takeWhile (fun x => !sel x) ++ (keep.dropWhile fun x => !sel x).tail).reverse

/-- The home slice of an L2 line, over all dies (R347). -/
def sliceOfLine (line : Nat) : Nat := line / 2 ^ 31 % 4 * 32 + line / 2 ^ 3 % 32

/-- A line becomes dirty in its slice, which writes its oldest dirty line back when it holds as many as it can (R1, R361). -/
def addDirty (l : List Nat) (x : Nat) : List Nat :=
  if l.contains x then l else x :: evict sliceLines (fun y => sliceOfLine y == sliceOfLine x) l

/-- A die's remote-data cache takes a copy of a line (R1, R362). -/
def addCopy (l : List (Nat × Nat)) (c : Nat × Nat) : List (Nat × Nat) :=
  if l.contains c then l else c :: evict rdcLines (fun y => y.1 == c.1) l

/-- A device write to HBM: the bytes, the L2 lines now dirty, the RDC copies invalidated (R363), the poison that a
whole line clears (R434) and the integrity tags recomputed (R435). -/
def State.hbmWrite (s : State) (a : Nat) (bs : List Byte) : State :=
  if bs.isEmpty then s else
  let ls := linesOf a bs.length
  { s with
    hbm := Mem.writeN s.hbm a bs
    dirty := ls.foldl addDirty s.dirty
    rdc := s.rdc.filter fun c => !ls.contains c.2
    poison := s.poison.filter fun l => !(wholeLines a bs.length).contains l
    badTags := s.badTags.filter fun b => !(ls.map (· / 4)).contains b }

/-- A Mole's update of HBM: the home slice's copy was recalled, so the lines are left clean (R365). -/
def State.moleWrite (s : State) (a : Nat) (bs : List Byte) : State :=
  let s := s.hbmWrite a bs
  { s with dirty := s.dirty.filter fun l => !(linesOf a bs.length).contains l }

/-- A poisoned line among those an access touches: in HBM its line, elsewhere the line number above 2^52 (R434). -/
def poisonKey (p : Space) (a : Nat) : Nat :=
  match p with
  | .hbm => a / 64
  | .csram => 2 ^ 52 + a / 64
  | .peer => 2 ^ 64 + a / 64
  | .host => 2 ^ 80 + a / 64

/-- The lines that a write covers whole are no longer poisoned (R434). -/
def State.cleanLines (s : State) (p : Space) (a n : Nat) : State :=
  if s.poison.isEmpty then s else
  let ls := (wholeLines a n).map fun l => poisonKey p (64 * l)
  { s with poison := s.poison.filter fun l => !ls.contains l }

/-- The number of the integrity tag of a 256-byte block: of HBM its block, of a peer's memory its block above 2^64; no other memory has
one (R435). -/
def tagKey (p : Space) (a : Nat) : Nat := if p = .peer then 2 ^ 64 + a / 256 else a / 256

/-- The blocks of a peer's memory that are written get new tags (R435). -/
def State.retag (s : State) (a n : Nat) : State :=
  if s.badTags.isEmpty then s else
  { s with badTags := s.badTags.filter fun b => !((linesOf a n).map fun l => tagKey .peer (64 * l)).contains b }

/-- A write to a place. -/
def State.put (s : State) (p : Space) (a : Nat) (bs : List Byte) : State :=
  match p with
  | .hbm => s.hbmWrite a bs
  | .csram => { s.cleanLines .csram a bs.length with csram := Mem.writeN s.csram a bs }
  | .peer => { (s.cleanLines .peer a bs.length).retag a bs.length with peerMem := Mem.writeN s.peerMem a bs }
  | .host => { s.cleanLines .host a bs.length with hostMem := Mem.writeN s.hostMem a bs }

/-- Some line of n bytes at a place is poisoned. -/
def State.poisoned (s : State) (p : Space) (a n : Nat) : Bool :=
  (linesOf a n).any fun l => s.poison.contains (poisonKey p (64 * l))

/-- The die of an HBM address (R347). -/
def dieOf (pa : Nat) : Nat := pa / 2 ^ 37 % 4
/-- The stack of its die. -/
def stackOf (pa : Nat) : Nat := pa / 2 ^ 8 % 2
/-- The L2 slice of its die. -/
def sliceOf (pa : Nat) : Nat := pa / 2 ^ 9 % 32
/-- The Mole of its stack. -/
def moleOf (pa : Nat) : Nat := pa / 2 ^ 9 % 16

/-- The physical offset of a logical byte of a bank-striped page (R368). -/
def striped (l : Nat) : Nat := l / 2 ^ 8 % 2 ^ 8 * 2 ^ 13 + l / 2 ^ 16 * 2 ^ 8 + l % 2 ^ 8

/-- The home agent of an HBM address, numbered as the replay KEY has it: [7:6] die, [5] Mole, [4:0] slice or the
Mole's q (R347, R457). -/
def homeOf (ms : Bool) (pa : Nat) : Nat :=
  dieOf pa * 64 + (if ms then 32 + (2 * moleOf pa + stackOf pa) else sliceOf pa)

end Sys2Proof.Machine
end

