-- ==== Sys2Proof/Machine/Frame.lean ====
section
/-! DEFINITION. A task's backing: the context frame written when it stops (R428 to R430), its scratchpad pages, bitmap area
and virtual copy queue (R352 to R354, R373). -/

namespace Sys2Proof.Machine

/-- A record of n bytes, zero but for fields given as offset, size and value. -/
def record (n : Nat) (fs : List (Nat × Nat × Nat)) : List Byte :=
  Mem.readN (fs.foldl (fun m f => Mem.setNum m f.1 f.2.1 f.2.2) []) 0 n

/-- The backing of a pool entry (R348, R352). -/
def Task.backing (t : Task) : Nat := t.pool.die.toNat * 2 ^ 37 + backingBase + t.pool.index * 2 ^ 18

/-! ## The context frame (R428 Tables 8 to 10; log 52) -/

/-- A stop record as it lies in the frame (R428 Table 9). -/
def StopRec.bytes (r : StopRec) : List Byte :=
  record 256 ((List.range 9).map (fun i => (4 * i, 4, (r.cut.getD i 0).toNat)) ++
    [(0x24, 1, r.reason), (0x25, 1, r.ifqn), (0x26, 2, r.brk.toNat), (0x28, 8, r.nextPc.toNat), (0x30, 8, r.mx.toNat),
     (0x38, 8, r.time), (0x40, 1, r.dcause), (0x41, 1, r.dindex), (0x42, 1, r.dcode.toNat), (0x48, 8, r.dslot.toNat)])

/-- Words of 8 bytes. -/
def wordBytes (l : List Nat) : List Byte := l.flatMap (leBytes 8)

/-- The state code of a handle or of a recorded translation: 0 invalid, 1 pending, 2 valid, 3 revoked, 4 and the fault
code above it. -/
def Bind.word : Bind → Nat × Nat
  | .invalid => (0, 0)
  | .pending => (1, 0)
  | .valid leaf => (2, leaf.toNat)
  | .revoked => (3, 0)
  | .faulted c => (4 + 256 * c.toNat, 0)

/-- A handle in the frame: base VA, state, translation, flags. -/
def Handle.bytes (h : Handle) : List Byte :=
  wordBytes [h.base.toNat, h.bind.word.1, h.bind.word.2,
    h.tag.toNat * 4 + (if h.fetch then 2 else 0) + (if h.write then 1 else 0)]

/-- A tile descriptor (R147 Table 1). -/
def Desc.bytes (d : Desc) : List Byte :=
  record 32 [(0, 8, d.base.toNat), (8, 2, d.rows.toNat), (10, 2, d.cols.toNat), (12, 4, d.pitch.toNat), (16, 1, d.thk.toNat),
    (17, 1, d.state.toNat)]

/-- A sketch slot's header: its SCB's fields (R222), the SCB's VA, its open columns and its working store; zero when unbound. -/
def slotBytes : Option Slot → List Byte
  | none => List.replicate 64 0
  | some k =>
    record 64 [(0, 8, k.scb.uva.toNat), (8, 8, k.scb.vva.toNat), (0x10, 4, k.scb.m), (0x14, 4, k.scb.n), (0x18, 2, k.scb.kcap),
      (0x1A, 2, k.scb.rank), (0x1C, 2, k.scb.klim), (0x1E, 2, k.scb.sfl.toNat), (0x20, 8, k.scb.de.toNat), (0x28, 4, k.scb.shrn.toNat),
      (0x2C, 4, k.scb.gen.toNat), (0x30, 8, k.va.toNat), (0x38, 2, k.opened), (0x3A, 6, k.store)]

/-- A queue entry in 32 bytes: its number, the lanes of its instruction, the recorded translation and a captured operand. -/
def Entry.bytes (e : Entry) : List Byte :=
  let lanes := ((encode e.ins).map (·.2)).getD []
  record 32 [(0, 4, e.num.toNat), (4, 4, (lanes.getD 0 0).toNat), (8, 4, (lanes.getD 1 0).toNat), (12, 4, (lanes.getD 2 0).toNat),
    (16, 8, ((e.h.map fun h => h.bind.word.2).getD 0)), (24, 8, (e.data.getD (e.caps.getD 0 0)).toNat)]

/-- An IFQ entry (R429 Table 10). -/
def InFlight.bytes (f : InFlight) : List Byte :=
  record 16 [(4, 1, f.reg), (5, 1, f.kind), (6, 2, f.delay), (8, 8, f.value.toNat)]

/-- A return-free atomic (R274). -/
def Instr.returnFree : Instr → Bool
  | .vfaddnr .. => true
  | .atomnr .. => true
  | .fatomnr .. => true
  | .nbx op _ _ => op != .sum
  | _ => false

/-- Where the frame keeps a queue's entries (R428 Table 8). -/
def frameQueue : Stream → Nat
  | .seq => 0
  | .ldq => 0x3100
  | .stq => 0x3900
  | .vec => 0x4100
  | .til => 0x4900
  | .skq => 0x4D00
  | .cpy => 0x4F00
  | .lnk => 0x5100
  | .atm => 0x5300

/-- An entry of the thunk table (R150 Table 2). -/
def Thunk.bytes (k : Thunk) : List Byte :=
  let units := k.units.length
  let lanes := ((encode k.ins).map (·.2)).getD []
  let first := lanes.getD 0 0
  record 64 ([(0, 4, k.seq.toNat), (4, 1, (first.extractLsb' 24 8).toNat), (5, 1, (first.extractLsb' 0 6).toNat),
    (6, 2, 1 + (if k.complete then 2 else 0) + if k.waitTaken then 4 else 0), (8, 2, k.outs), (0x10, 4, k.refs),
    (0x1A, 2, k.units.headD 0), (0x1C, 2, units), (0x1E, 2, ((List.range (512 * units)).filter k.done.testBit).length),
    (0x20, 4, (lanes.getD 1 0).toNat), (0x24, 4, (lanes.getD 2 0).toNat), (0x28, 4, k.aux.toNat), (0x2C, 2, k.accs.getD 0xFFFF),
    (0x2E, 1, ((k.acc.bind (·.name)).map (·.toNat)).getD 0xFF)] ++
    (List.range 3).flatMap fun i =>
      [(0x0A + 2 * i, 2, k.pool.getD i 0xFFFF), (0x14 + i, 1, (((k.srcs[i]?).bind (·.name)).map (·.toNat)).getD 0xFF),
       (0x17 + i, 1, ((k.srcs[i]?).map (·.map)).getD 0)])

/-- The runs of bytes that a stopped task's frame consists of: offset and bytes (R428 Table 8). -/
def Task.frame (t : Task) (r : StopRec) : List (Nat × List Byte) :=
  let g := t.regs
  [(0x0000, r.bytes),
   (0x0100, wordBytes ((List.range 64).map fun i => if i < 56 then (g.s.toList.getD i 0).toNat else 0)),
   (0x0300, [BitVec.ofNat 8 ((List.range 8).foldl (fun n i => n + if g.p.toList.getD i false then 2 ^ i else 0) 0)] ++
     wordBytes (g.m.toList.map (·.toNat)) ++ g.sm.toList.flatMap fun x => leBytes 4 x.toNat),
   (0x0400, wordBytes ([t.sys.fpst.toNat, t.sys.rng.toNat, t.sys.tmode.toNat, t.sys.cyc, t.sys.wdog, t.sys.pfd.toNat, t.sys.cmask.toNat] ++
     g.tok.toList ++ [((t.queues.get Stream.atm.ix).filter fun e => !Instr.returnFree e.ins).length])),
   (0x0500, g.h.toList.flatMap Handle.bytes),
   (0x0900, g.td.toList.flatMap Desc.bytes),
   (0x0B00, g.k.toList.flatMap slotBytes),
   (0x0D00, ((List.range 7).flatMap fun i => (List.range 16).flatMap fun j =>
     leBytes 8 ((((g.port.toList.getD i [])[j]?).map (·.val.toNat)).getD 0)) ++
     wordBytes ((List.range 7).map fun i => (g.port.toList.getD i []).length)),
   (0x1100, g.v.toList.flatMap fun v => v.toList.flatMap fun x => leBytes 4 x.toNat)] ++
  (Stream.all.filter (· != .seq)).map (fun k => (frameQueue k, (t.queues.get k.ix).flatMap Entry.bytes)) ++
  [(0x5700, t.ifq.flatMap InFlight.bytes)] ++
  t.thunks.map (fun k => (0x6000 + 64 * k.idx.toNat, k.bytes)) ++
  t.thunks.flatMap (fun k => (0xA000 + 32 * k.outs, k.out.bytes) ::
    ((k.pool.zip k.srcs).map (fun x => (0xA000 + 32 * x.1, x.2.desc.bytes)) ++
     (match k.accs, k.acc with | some i, some a => [(0xA000 + 32 * i, a.desc.bytes)] | _, _ => [])))

/-! ## The virtual copy queue (R373 Table 6) -/

/-- What RUN0 or RUN1 holds: the command that an engine of its number runs or has paused. -/
def Task.runWord (t : Task) (g : Bool) : Nat :=
  match t.vcq.find? fun c => !c.complete && (c.engine == some g || c.run == some g) with
  | some c => c.num.toNat * 2 ^ 32 + 2 ^ 31 + c.units % 2 ^ 31
  | none => 0

/-- The header and the slots of the virtual copy queue. -/
def Task.copyQueue (t : Task) : List (Nat × List Byte) :=
  let first (p : CopySlot → Bool) : Nat := ((t.vcq.find? p).map (·.num.toNat)).getD t.cpTail.toNat
  (0x38000, record 64 [(0, 4, t.cpTail.toNat), (4, 4, first fun c => !c.complete && c.engine.isNone && !c.paused),
    (8, 4, first fun c => !c.complete), (12, 4, 16), (16, 8, t.runWord false), (24, 8, t.runWord true)]) ::
  t.vcq.map fun c => (0x38040 + 128 * (c.num.toNat % 16), c.bytes)

/-! ## Writing the backing -/

/-- The bytes of a done-bitmap (R151). -/
def Thunk.bitmap (k : Thunk) : List (Nat × List Byte) :=
  (List.range k.units.length).map fun i => (0x30000 + 64 * k.units.getD i 0, leBytes 64 (k.done / 2 ^ (512 * i)))

/-- Write the frame, the bitmaps and the virtual copy queue of a task to its backing as it stops at a cut (R352, R373, R428). -/
def Task.save (t : Task) (r : StopRec) (m : Mem) : Mem :=
  (t.frame r ++ t.thunks.flatMap Thunk.bitmap ++ t.copyQueue).foldl (fun m x => Mem.writeN m (t.backing + x.1) x.2) m

/-- Write the frames of selected pages that were written since they were filled back to a task's backing (R354). -/
def Task.writeBack (t : Task) (pages : List Nat) (m : Mem) : Mem :=
  (pages.filter fun p => t.filled.getLsbD p && t.written.getLsbD p).foldl (fun m p =>
    Mem.writeN m (t.backing + 0x10000 + 4096 * p) (Mem.readN t.scratch (0x10000 + 4096 * p) 4096)) m

/-- A scratchpad page that is not filled takes its 4 KiB from the backing (R353). -/
def Task.fillPage (backing : Mem) (t : Task) (p : Nat) : Task :=
  if t.filled.getLsbD p then t else
  let lo := 0x10000 + 4096 * p
  let page := (backing.filter fun c => decide (t.backing + lo ≤ c.1 ∧ c.1 < t.backing + lo + 4096)).map fun c => (c.1 - t.backing, c.2)
  { t with
    filled := t.filled ||| (1 <<< p)
    scratch := (t.scratch.filter fun c => decide (c.1 < lo)) ++ page ++ t.scratch.filter fun c => decide (lo + 4096 ≤ c.1) }

/-- The scratchpad pages that an access of n bytes touches are filled (R353). -/
def Task.fillFor (backing : Mem) (t : Task) (a : Word) (n : Nat) : Task :=
  (t.fillPage backing ((a.toNat - 0x10000) / 4096)).fillPage backing ((a.toNat + n - 1 - 0x10000) / 4096)

/-- Store bytes in scratchpad: the pages they meet differ from their backing (R349, R353, R354). -/
def Task.scratchPut (t : Task) (a : Nat) (bs : List Byte) : Task :=
  if bs.isEmpty then t else
  let p := (a - 0x10000) / 4096
  let q := (a + bs.length - 1 - 0x10000) / 4096
  { t with scratch := Mem.writeN t.scratch a bs, written := t.written ||| (1 <<< p) ||| (1 <<< q) }

end Sys2Proof.Machine
end

