-- ==== Sys2Proof/Machine/Landing.lean ====
section
/-! DEFINITION. Writes that land granule by granule (R389): the bits of an access that are still to be written, how they are gathered,
and how one granule of them lands in memory or in the scratchpad (R193, R353, R354, R434, R454). -/

namespace Sys2Proof.Machine

/-- The number of a space in a granule (R389). -/
def Space.code : Space → Nat
  | .hbm => 0
  | .csram => 1
  | .peer => 2
  | .host => 3

/-- The space of a number below 4. -/
def Space.ofCode (c : Nat) : Space := if c = 0 then .hbm else if c = 1 then .csram else if c = 2 then .peer else .host

/-- The scratchpad's number in a granule. -/
def scratchCode : Nat := 4

/-- A patch is of a granule. -/
def Patch.on (p : Patch) (g : Granule) : Bool := p.space == g.1 && p.granule == g.2

/-- Two patches of one granule, the second on top. -/
def Patch.join (p q : Patch) : Patch := { p with mask := p.mask ||| q.mask, val := p.val - (p.val &&& q.mask) + q.val }

/-- Patches with one more on top. -/
def addPatch (ps : List Patch) (q : Patch) : List Patch :=
  if ps.any (·.on (q.space, q.granule)) then ps.map fun p => if p.on (q.space, q.granule) then p.join q else p else ps ++ [q]

/-- The patch of some bits of a byte. -/
def bytePatch (space a : Nat) (x : Byte × Byte) : Patch :=
  ⟨space, a / 16, x.2.toNat * 2 ^ (8 * (a % 16)), (x.1 &&& x.2).toNat * 2 ^ (8 * (a % 16))⟩

/-- Patches with bytes from an address on top: each byte with the mask of its bits that are written. -/
def patchBytes (ps : List Patch) (space : Nat) : Nat → List (Byte × Byte) → List Patch
  | _, [] => ps
  | a, x :: rest => patchBytes (addPatch ps (bytePatch space a x)) space (a + 1) rest

/-- Byte i of a granule under a patch: the old byte with the patch's bits. -/
def Patch.byte (p : Patch) (i : Nat) (old : Byte) : Byte :=
  let m : Byte := BitVec.ofNat 8 (p.mask / 2 ^ (8 * i))
  (old &&& ~~~m) ||| (BitVec.ofNat 8 (p.val / 2 ^ (8 * i)) &&& m)

/-- The bytes of a granule that a patch writes. -/
def Patch.places (p : Patch) : List Nat := (List.range 16).filter fun i => p.mask / 2 ^ (8 * i) % 256 != 0

/-- Bytes at a place with patches on top. -/
def patched (ps : List Patch) (space a : Nat) (bs : List Byte) : List Byte :=
  (List.range bs.length).map fun i =>
    let old := bs.getD i 0
    match ps.find? (·.on (space, (a + i) / 16)) with
    | some p => p.byte ((a + i) % 16) old
    | none => old

/-- Bytes at a place as the access that acts in this step sees them, its own writes among them. -/
def State.bytesAt (s : State) (p : Space) (a n : Nat) : List Byte :=
  let bs := Mem.readN (s.memOf p) a n
  match s.air with
  | none => bs
  | some ps => patched ps p.code a bs

/-- An access has written bytes at a place (R29). -/
def State.noteWrite (s : State) (p : Space) (a n : Nat) : State :=
  if p = .hbm then { s with wrote := (a, n) :: s.wrote } else s

/-- A write of an access to a place, each byte with the mask of its bits that are meant: now, or to land later (R193, R389). -/
def State.write (s : State) (p : Space) (a : Nat) (bs masks : List Byte) : State :=
  match s.air with
  | none => (s.put p a bs).noteWrite p a bs.length
  | some ps => { s with air := some (patchBytes ps p.code a (bs.zip masks)) }

/-- Scratchpad bytes of the acting task are stored; a write of the word that a waita waits for is noted with its source
(R353, R354, R454). -/
def State.scratchWrite (s : State) (time kind : Nat) (src : Word) (a : Nat) (bs : List Byte) : State :=
  let t := s.cur.scratchPut a bs
  let t := match t.flow.timed with
    | some (.word _ _ _ w _ _) =>
      if decide (a < w.toNat + 8 ∧ w.toNat < a + bs.length) then
        { t with setter := (64, (kind, src, time)) :: t.setter.filter fun x => x.1 != 64 }
      else t
    | _ => t
  { s with
    cur := t
    backing := if s.cur.filled.getLsbD ((a - 0x10000) / 4096) then s.backing else Mem.writeN s.backing (s.cur.backing + a) bs }

/-- The source that a landing in the scratchpad is noted with: it is a vssp's (R188, R454). -/
structure LandSrc where
  time : Nat
  src : Word
  deriving DecidableEq, Repr

/-- One granule lands. -/
def State.landPatch (s : State) (x : LandSrc) (p : Patch) : State :=
  p.places.foldl (fun s i =>
    let a := 16 * p.granule + i
    if p.space = scratchCode then s.scratchWrite x.time 0 x.src a [p.byte i (Mem.read s.cur.scratch a)]
    else
      let sp := Space.ofCode p.space
      (s.put sp a [p.byte i (Mem.read (s.memOf sp) a)]).noteWrite sp a 1) s

/-- The lines that patches cover whole, by their poison keys (R434). -/
def wholeKeys (ps : List Patch) : List Nat :=
  let full (space g : Nat) : Bool := ps.any fun p => p.on (space, g) && p.mask == 2 ^ 128 - 1
  ((ps.filter fun p => p.granule % 4 == 0 && p.space != scratchCode &&
      (List.range 4).all fun i => full p.space (p.granule + i))).map fun p => poisonKey (Space.ofCode p.space) (16 * p.granule)

/-- A landing with more writes. -/
def Landing.add (l : Landing) (ps : List Patch) : Landing :=
  { l with todo := ps.foldl addPatch l.todo, clean := (wholeKeys ps).foldl addTo l.clean }

/-- The writes of an access that are all still to land. -/
def landingOf (ps : List Patch) : Landing := Landing.add {} ps

/-- A granule of a landing has landed. -/
def Landing.drop (l : Landing) (g : Granule) : Landing := { l with todo := l.todo.filter fun p => !p.on g, done := g :: l.done }

/-- A granule of a landing may land: it is still to land, and it is not held for others. -/
def Landing.ready (l : Landing) (g : Granule) : Option Patch :=
  if l.held.contains g && l.todo.any (fun p => !l.held.contains (p.space, p.granule)) then none else l.todo.find? (·.on g)

/-- One granule of a landing lands, when it may. -/
def State.landOne (s : State) (x : LandSrc) (l : Landing) (g : Granule) : Option (State × Landing) :=
  (l.ready g).map fun p => (s.landPatch x p, l.drop g)

/-- The lines that a landing covers whole are no longer poisoned (R434). -/
def State.cleaned (s : State) (l : Landing) : State :=
  if s.poison.isEmpty then s else { s with poison := s.poison.filter fun k => !l.clean.contains k }

/-- The rest of a landing lands, and the lines that it covers whole are no longer poisoned (R434). -/
def State.landRest (s : State) (x : LandSrc) (l : Landing) : State :=
  (l.todo.foldl (fun s p => s.landPatch x p) s).cleaned l

/-- Some granules of a 32-byte line of a place have landed and others of the same access have not (R109, R389). -/
def Landing.splits (l : Landing) (space line : Nat) : Bool :=
  let here (g : Nat) : Bool := g / 2 == line
  l.todo.any (fun p => p.space == space && here p.granule) && l.done.any fun g => g.1 == space && here g.2

/-- What ended accesses of a task on some paths have left to land lands (R99; log 61). -/
def State.landDrift (s : State) (t : Task) (sel : Path → Bool := fun _ => true) : State :=
  (t.adrift.filter fun x => sel x.1).foldl (fun s x => s.landRest ⟨0, 0⟩ x.2) s

/-- The writes of a task's accesses that are still to land. -/
def Task.landings (t : Task) : List Landing :=
  t.queues.toList.flatMap (fun q => q.filterMap (·.landing)) ++ t.vcq.filterMap (·.landing) ++ (t.puts.map (·.landing)).toList ++
    t.adrift.map (·.2)

/-- A 32-byte line of a place is half written by some access (R109, R389). -/
def State.halfWritten (s : State) (p : Space) (a : Nat) : Bool :=
  (s.cur :: s.others).any fun t => t.landings.any fun l => l.splits p.code (a / 32)

/-- Take what an access of this step has written out of the air. -/
def State.grounded (s : State) : State := { s with air := none }

end Sys2Proof.Machine
end

