-- ==== Sys2Proof/WellFormed.lean ====
section
/-! DEFINITION. Which instructions an encoding stands for: the checks of one instruction's fields that its type does
not make, as R63 gives them (check 3 within the instruction, check 5 for ports). -/

namespace Sys2Proof

/-- The order fields of an atomic of layout L2: no scope without a kind, rel alone on return-free forms (R268). -/
def AtOrd.wf (relOnly : Bool) (o : AtOrd) : Bool :=
  (o.kind.isSome || o.scope == .core) && (!relOnly || o.kind == none || o.kind == some .rel)

/-- The checks of the fields of one instruction (R63, check 3). -/
def Instr.fieldsWf : Instr → Bool
  | .br p n _ | .call p n _ => !(p == 0 && n)
  | .loop a _ => a != 0
  | .semSig _ k | .semWait _ _ k _ => k != 0
  | .wrsr r _ => r.writable
  | .lds _ u sz _ _ => !(u && sz == .b8)
  | .vsort _ d a _ => d != a
  | .unpack _ _ part w _ => decide (part.toNat ≤ w.maxPart)
  | .tmmsp _ _ _ _ e => !e.ta
  | .tview k _ _ off => k.sliced || off == 0
  | .force _ _ rows _ cols => (subTileCount rows).isSome && (subTileCount cols).isSome
  | .tstat _ which => which != 3
  | .skmrg d a => d != a
  | .atom _ _ _ _ o _ | .fatom _ _ _ o _ | .cas _ _ _ _ o _ | .qpush _ _ o _ | .qpop _ o _ => o.wf false
  | .atomnr _ _ _ _ o _ | .fatomnr _ _ _ o _ | .nbx _ _ o => o.wf true
  | _ => true

/-- A well-formed instruction: its fields and its ports are as R63 asks. -/
def Instr.wf (i : Instr) : Bool := i.fieldsWf && !i.portBad

end Sys2Proof
end

