-- ==== Sys2Proof/Machine/Ops.lean ====
section
/-! DEFINITION. The named operations over the state: the step monad, registers, tasks, translation, RCBs and fault
logs, stopping a task at a cut, and taking a fault (R26 to R35, R44, R398, R420, R428 to R433, R447, R452). -/

namespace Sys2Proof.Machine

/-! ## How an operation ends -/

/-- How an operation ends before its end: it waits and changes nothing (stall), it waits with what it has done so far
(pause), it raises a fault (with or without what it has done so far), or the machine itself stops. -/
inductive Stop
  | stall
  | pause
  | walk (w : Walk)
  | fault (f : FaultInfo) (keep : Bool)
  | machine (f : Fault)
  deriving DecidableEq, Repr

/-- An operation of the machine. -/
abbrev M (α : Type) := ExceptT Stop (StateM State) α

/-- Wait: nothing of this attempt happens. -/
def stall {α : Type} : M α := throw .stall

/-- Wait, keeping what has happened so far. -/
def pause {α : Type} : M α := throw .pause

/-! ## Registers -/

/-- A scalar register that is no port: s0 reads 0 (R68). -/
def Regs.rd (g : Regs) (r : SReg) : Word := if r = 0 then 0 else g.s.get r.toFin

/-- Write a scalar register that is no port: s0 ignores writes (R68). -/
def Regs.wr (g : Regs) (r : SReg) (x : Word) : Regs := if r = 0 then g else { g with s := g.s.set r.toNat x r.isLt }

/-- A predicate: p0 reads true (R68). -/
def Regs.rdP (g : Regs) (r : PReg) : Bool := r = 0 || g.p.get r.toFin

/-- Write a predicate: p0 ignores writes (R68). -/
def Regs.wrP (g : Regs) (r : PReg) (x : Bool) : Regs := if r = 0 then g else { g with p := g.p.set r.toNat x r.isLt }

/-- A vector register. -/
def Regs.rdV (g : Regs) (r : VReg) : Vector Lane 64 := g.v.get r.toFin
/-- Write a vector register. -/
def Regs.wrV (g : Regs) (r : VReg) (x : Vector Lane 64) : Regs := { g with v := g.v.set r.toNat x r.isLt }
/-- A mask register. -/
def Regs.rdM (g : Regs) (r : MReg) : Word := g.m.get r.toFin
/-- Write a mask register. -/
def Regs.wrM (g : Regs) (r : MReg) (x : Word) : Regs := { g with m := g.m.set r.toNat x r.isLt }
/-- A semaphore count. -/
def Regs.rdSem (g : Regs) (r : SemReg) : Lane := g.sm.get r.toFin
/-- Write a semaphore count. -/
def Regs.wrSem (g : Regs) (r : SemReg) (x : Lane) : Regs := { g with sm := g.sm.set r.toNat x r.isLt }
/-- A handle. -/
def Regs.rdH (g : Regs) (r : HReg) : Handle := g.h.get r.toFin
/-- Write a handle. -/
def Regs.wrH (g : Regs) (r : HReg) (x : Handle) : Regs := { g with h := g.h.set r.toNat x r.isLt }
/-- A tile descriptor. -/
def Regs.rdT (g : Regs) (r : TReg) : Desc := g.td.get r.toFin
/-- Write a tile descriptor. -/
def Regs.wrT (g : Regs) (r : TReg) (x : Desc) : Regs := { g with td := g.td.set r.toNat x r.isLt }
/-- A sketch slot. -/
def Regs.rdK (g : Regs) (r : KReg) : Option Slot := g.k.get r.toFin
/-- Write a sketch slot. -/
def Regs.wrK (g : Regs) (r : KReg) (x : Option Slot) : Regs := { g with k := g.k.set r.toNat x r.isLt }

/-- Port i, for s56 + i (R69). -/
def Regs.rdPort (g : Regs) (i : BitVec 3) : List PortWord := g.port.get i.toFin
/-- Replace a port's entries. -/
def Regs.wrPort (g : Regs) (i : BitVec 3) (x : List PortWord) : Regs := { g with port := g.port.set i.toNat x i.isLt }

/-- A port's depth (R69). -/
def portDepth : Nat := 16

/-- A register field that names a port (R69). -/
def isPort (r : SReg) : Bool := decide (56 ≤ r.toNat)

/-- The index of a port. -/
def portIx (r : SReg) : BitVec 3 := r.setWidth 3

/-! ## Streams of a task -/

/-- The next sequence number of a stream (R49). -/
def Task.num (t : Task) (k : Stream) : BitVec 32 := t.nums.get k.ix
/-- A stream with its number advanced. -/
def Task.bump (t : Task) (k : Stream) : Task := { t with nums := t.nums.set k.ix (t.num k + 1) k.ix.isLt }
/-- The entries of a queue, the head first. -/
def Task.queue (t : Task) (k : Stream) : List Entry := t.queues.get k.ix
/-- Replace the entries of a queue. -/
def Task.setQueue (t : Task) (k : Stream) (q : List Entry) : Task := { t with queues := t.queues.set k.ix q k.ix.isLt }

/-- The handle number of a task: die times 4,096 plus pool index (R319, R467). -/
def Task.tid (t : Task) : Nat := t.pool.die.toNat * 4096 + t.pool.index

/-- The core whose slot a task holds. -/
def Task.coreOf (t : Task) : Option Nat :=
  match t.status with
  | .running c => some c
  | .staged c => some c
  | _ => none

/-- A task that holds a running slot. -/
def Task.isRunning (t : Task) : Bool :=
  match t.status with
  | .running _ => true
  | _ => false

/-- The cluster, 0 to 47, of the core a task runs on, or last ran on (R113). -/
def Task.cluster (t : Task) : Nat := (t.coreOf <|> t.home).getD 0 / 4

/-- The task register (R114 Table 8). -/
def Task.register (t : Task) : Word :=
  (0 : BitVec 14) ++ t.pool.origin ++ (if t.pool.origin = 0 then t.pool.queue else 0) ++ t.pool.tpl ++ t.pool.node

/-- Every task that holds a pool entry. -/
def State.tasks (s : State) : List Task := if s.cur.status = .idle then s.others else s.cur :: s.others

/-- The state with a change made to every task. -/
def State.mapTasks (s : State) (f : Task → Task) : State := { s with cur := f s.cur, others := s.others.map f }

/-- The state whose acting task is the one of a handle number; unchanged when there is none. -/
def State.focus (s : State) (tid : Nat) : State :=
  if s.cur.status ≠ .idle ∧ s.cur.tid = tid then s
  else
    match s.others.find? (·.tid == tid) with
    | none => s
    | some t =>
      let rest := s.others.filter (·.tid != tid)
      { s with cur := t, others := if s.cur.status = .idle then rest else s.cur :: rest }

/-- Put a changed task where the task of its handle number stands. -/
def State.setTask (s : State) (t : Task) : State :=
  if s.cur.status ≠ .idle ∧ s.cur.tid = t.tid then { s with cur := t }
  else { s with others := s.others.map fun u => if u.tid = t.tid then t else u }

/-- Free the pool entry of a task (R319). -/
def State.dropTask (s : State) (tid : Nat) : State :=
  { s with
    cur := if s.cur.status ≠ .idle ∧ s.cur.tid = tid then {} else s.cur
    others := s.others.filter (·.tid != tid)
    coreResv := s.coreResv.filter (·.2 != tid) }

/-! ## Tokens (R18, R19) -/

/-- The FIFO from a queue to its right or left neighbour in the ring LDQ, VEC, STQ (R18): 0 to 5. -/
def fifoOf (k : Stream) (right : Bool) : Option (Fin 6) :=
  match k, right with
  | .ldq, true => some 0
  | .ldq, false => some 1
  | .vec, true => some 2
  | .vec, false => some 3
  | .stq, true => some 4
  | .stq, false => some 5
  | _, _ => none

/-- The right neighbour of a queue in the ring (R18). -/
def rightOf : Stream → Stream
  | .ldq => .vec
  | .vec => .stq
  | .stq => .ldq
  | k => k

/-- The left neighbour. -/
def leftOf : Stream → Stream
  | .ldq => .stq
  | .vec => .ldq
  | .stq => .vec
  | k => k

/-- The FIFOs an entry takes a token from: its left neighbour's to the right for T[3], its right neighbour's to the
left for T[2] (R18, R19, R67). -/
def waitFifos (k : Stream) (t : Tok) : List (Fin 6) :=
  (if t.getLsbD 3 then (fifoOf (leftOf k) true).toList else []) ++
  (if t.getLsbD 2 then (fifoOf (rightOf k) false).toList else [])

/-- The FIFOs an entry gives a token to: left for T[1], right for T[0]. -/
def giveFifos (k : Stream) (t : Tok) : List (Fin 6) :=
  (if t.getLsbD 1 then (fifoOf k false).toList else []) ++ (if t.getLsbD 0 then (fifoOf k true).toList else [])

/-- The depth of a token FIFO (R18). -/
def fifoDepth : Nat := 8

/-- Add to a token FIFO. -/
def Regs.giveTok (g : Regs) (i : Fin 6) : Regs := { g with tok := g.tok.set i (g.tok.get i + 1) i.isLt }
/-- Take from a token FIFO. -/
def Regs.takeTok (g : Regs) (i : Fin 6) : Regs := { g with tok := g.tok.set i (g.tok.get i - 1) i.isLt }

/-! ## Contexts -/

/-- The context of a number. -/
def State.ctx? (s : State) (n : Nat) : Option Ctx := s.ctxs.find? (·.number == n)

/-- The state with a context changed. -/
def State.modCtx (s : State) (n : Nat) (f : Ctx → Ctx) : State :=
  { s with ctxs := s.ctxs.map fun c => if c.number = n then f c else c }

/-- Context time: the time base less the cycles halted by a debug stop (R122). -/
def State.timeOf (s : State) (n : Nat) : Nat := s.now - ((s.ctx? n).map (·.haltCycles)).getD 0

/-- A context's translation of an address: the leaf and its PA (R410). -/
def State.lookup (s : State) (n : Nat) (va : Word) : Except Byte (Word × Nat) :=
  match s.ctx? n with
  | none => .error fcNp
  | some c => walkTables s.hbm c.root va

/-- A page of a context that is being moved: a walk of it waits (R422). The transit list holds a context, a first VA and
a length. -/
def State.inTransit (s : State) (n : Nat) (va : Word) : Bool :=
  s.transit.any fun r => r.1 == n && decide (r.2.1 ≤ va.toNat ∧ va.toNat < r.2.1 + r.2.2)

/-- Set A, and D for a write to a page with W = 1, in a leaf, at its home, which recalls every die's copy of the line (R363, R414). -/
def State.touch (s : State) (leaf : Word) (at_ : Nat) (write : Bool) : State :=
  let l := leaf.toNat ||| (8 + if write && leafW leaf then 16 else 0)
  { s with hbm := Mem.setNum s.hbm at_ 8 l, rdc := s.rdc.filter fun c => c.2 != at_ / 64 }

/-- A launch's window of cluster SRAM holds an address (R358). -/
def Launch.inWindow (l : Launch) (va : Word) : Bool :=
  l.accepted && decide (l.csVa.toNat ≤ va.toNat ∧ va.toNat < l.csVa.toNat + l.csSz * 65536)

/-- The leaf that maps a window's page for its launch (R358). -/
def Launch.windowLeaf (l : Launch) (va : Word) : Word :=
  let pa := csramBase + l.csUnits.getD ((va.toNat - l.csVa.toNat) / 65536) 0 * 65536
  BitVec.ofNat 64 (pa / 4096 * 2 ^ 24 + (l.csFmt.toNat / 16 % 8) * 2 ^ 20 + (l.csFmt.toNat % 16) * 2 ^ 16 + 0x23)

/-- The launch whose window of cluster SRAM holds an address for a task: one of its graph nodes reaches it (R359). -/
def State.windowOf (s : State) (t : Task) (va : Word) : Option Launch :=
  s.launches.find? fun l => t.pool.origin == 0 && l.serial == t.pool.serial && l.inWindow va

/-- A task's translation of an address: its launch's window, or the context's tables; the leaf, and its PA where it
stands in a table (R359, R410). -/
def State.xlate (s : State) (t : Task) (va : Word) : Except Byte (Word × Option Nat) :=
  match s.windowOf t va with
  | some l => .ok (l.windowLeaf va, none)
  | none =>
    match s.lookup t.pool.ctx va with
    | .ok (leaf, a) => .ok (leaf, some a)
    | .error c => .error c

/-- An address in some window of the context's live launches: a page fault there is not serviceable (R359, R420). -/
def State.inWindows (s : State) (n : Nat) (va : Word) : Bool := s.launches.any fun l => l.ctx == n && l.inWindow va

/-! ## Translation caches (R415) -/

/-- A held translation maps an address of a context. -/
def Cached.covers (c : Cached) (n : Nat) (va : Word) : Bool := c.ctx == n && decide (c.page.toNat = pageOf c.leaf va)

/-- The leaf a cache holds for an address. -/
def cachedLeaf (l : List Cached) (owner n : Nat) (va : Word) : Option Word :=
  (l.find? fun c => c.owner == owner && c.covers n va).map (·.leaf)

/-- Install a translation in a cache of a number of entries, which drops its oldest when it is full (R415; log 48). -/
def install (limit : Nat) (l : List Cached) (owner n : Nat) (va leaf : Word) : List Cached :=
  if (cachedLeaf l owner n va).isSome then l else
  ⟨owner, n, BitVec.ofNat 64 (pageOf leaf va), leaf⟩ :: evict limit (fun c => c.owner == owner) l

/-- Entries of a core's translation cache, of its fetch translation cache and of a die's TLB (R415). -/
def coreEntries : Nat := 128
/-- Entries of a fetch translation cache. -/
def fetchEntries : Nat := 32
/-- Entries of a die's TLB. -/
def tlbEntries : Nat := 8192

/-- A leaf with A set, and D for a write to a page with W = 1 (R414). -/
def markedLeaf (leaf : Word) (write : Bool) : Word := BitVec.ofNat 64 (leaf.toNat ||| (8 + if write && leafW leaf then 16 else 0))

/-- A walk that ends with a valid leaf installs it in the die's TLB, in the cache of the core that asked, and for a fetch in its
fetch cache (R415). -/
def State.installWalk (s : State) (die : Nat) (core : Option Nat) (fetch : Bool) (n : Nat) (va leaf : Word) : State :=
  let s := { s with tlb := install tlbEntries s.tlb die n va leaf }
  match core with
  | none => s
  | some c =>
    { s with
      coreTc := install coreEntries s.coreTc c n va leaf
      fetchTc := if fetch then install fetchEntries s.fetchTc c n va leaf else s.fetchTc }

/-- A walk made at once: A and D are set and the translation installed (R414, R415). -/
def State.walked (s : State) (die : Nat) (core : Option Nat) (fetch : Bool) (n : Nat) (va leaf : Word) (at_ : Nat) (write : Bool) : State :=
  (s.touch leaf at_ write).installWalk die core fetch n va (markedLeaf leaf write)

/-- A run of bytes within one page: its VA and leaf, its place and its length. -/
structure Chunk where
  va : Word
  leaf : Word
  entry : Option Nat
  space : Space
  addr : Nat
  len : Nat
  deriving DecidableEq, Repr

/-- Cut n bytes from a VA on at page ends: the chunks in ascending order, or the first fault and its VA. -/
def chunks (xl : Word → Except Byte (Word × Option Nat)) (cluster : Nat) : Nat → Word → Nat → Except (Byte × Word) (List Chunk)
  | 0, _, _ => .ok []
  | fuel + 1, va, n =>
    if n = 0 then .ok [] else
    match xl va with
    | .error c => .error (c, va)
    | .ok (leaf, e) =>
      let room := pageBytes (leafSz leaf) - va.toNat % pageBytes (leafSz leaf)
      let k := min room n
      let p := placeOf leaf va cluster
      match chunks xl cluster fuel (va + BitVec.ofNat 64 k) (n - k) with
      | .error e => .error e
      | .ok r => .ok (⟨va, leaf, e, p.1, p.2, k⟩ :: r)

/-- The chunks of n bytes in a context's translation, as Pliron and the L9 itself reach memory (R484). -/
def State.ctxChunks (s : State) (n : Nat) (va : Word) (len : Nat) : Except (Byte × Word) (List Chunk) :=
  chunks (fun a => match s.lookup n a with | .ok (l, p) => .ok (l, some p) | .error c => .error c) 0 (len / 4096 + 2) va len

/-- The bytes of chunks. -/
def State.readChunks (s : State) (cs : List Chunk) : List Byte :=
  cs.flatMap fun c => Mem.readN (s.memOf c.space) c.addr c.len

/-- Bytes of a context's memory, when every one translates to a present page of local HBM (R28, R484). -/
def State.readVia (s : State) (n : Nat) (va : Word) (len : Nat) : Option (List Byte) :=
  match s.ctxChunks n va len with
  | .ok cs => if cs.all (fun c => leafAp c.leaf == 0) then some (s.readChunks cs) else none
  | .error _ => none

/-- Bytes of a context's memory, when every one translates to a present page (R484). -/
def State.readPresent (s : State) (n : Nat) (va : Word) (len : Nat) : Option (List Byte) :=
  match s.ctxChunks n va len with
  | .ok cs => some (s.readChunks cs)
  | .error _ => none

/-- Every byte translates to a present page with W = 1 (R484). -/
def State.writablePresent (s : State) (n : Nat) (va : Word) (len : Nat) : Bool :=
  match s.ctxChunks n va len with
  | .ok cs => cs.all fun c => leafW c.leaf
  | .error _ => false

/-- Store bytes over chunks. -/
def State.writeChunks (s : State) : List Chunk → List Byte → State
  | [], _ => s
  | c :: r, bs => State.writeChunks (s.put c.space c.addr (bs.take c.len)) r (bs.drop c.len)

/-- Every byte translates to a present page of local aperture with W = 1 (R35, R452). -/
def State.writableVia (s : State) (n : Nat) (va : Word) (len : Nat) : Bool :=
  match s.ctxChunks n va len with
  | .ok cs => cs.all fun c => leafAp c.leaf == 0 && leafW c.leaf
  | .error _ => false

/-- Store bytes in a context's memory; nothing when some byte does not translate. -/
def State.writeVia (s : State) (n : Nat) (va : Word) (bs : List Byte) : State :=
  match s.ctxChunks n va bs.length with
  | .ok cs => s.writeChunks cs bs
  | .error _ => s

/-! ## Region control blocks (R26 to R35) -/

/-- An RCB and its ancestors up to the root, as memory holds them: VA and 256 bytes each. -/
def State.rcbChain (s : State) (n : Nat) : Nat → Word → List (Word × List Byte)
  | 0, _ => []
  | fuel + 1, va =>
    if va = 0 then [] else
    match s.readVia n va 256 with
    | none => []
    | some bs => (va, bs) :: State.rcbChain s n fuel (fieldAt 64 bs 0)

/-- The longest chain of RCBs: every one is 256-byte aligned in the 57-bit address space (R28, R94). -/
def chainFuel : Nat := 2 ^ 49

/-- The nearest RCB of a chain that overrides an inheritable field (R27). -/
def owning (bit : Nat) (chain : List (Word × List Byte)) : Word × List Byte :=
  (chain.find? fun r => (fieldAt 16 r.2 8 : BitVec 16).getLsbD bit).getD ((chain.getLast?).getD (0, []))

/-- The effective values of an RCB (R27). -/
def effective (chain : List (Word × List Byte)) : Eff :=
  let at_ (bit w off : Nat) : BitVec w := fieldAt w (owning bit chain).2 off
  let fh := owning 5 chain
  let above := chain.dropWhile fun r => r.1 != fh.1
  { parent := fieldAt 64 ((chain.headD (0, [])).2) 0
    fdRoot := (fieldAt 16 ((chain.headD (0, [])).2) 8 : BitVec 16).getLsbD 2
    prio := (at_ 0 3 0x0A).toNat
    maxCores := (at_ 1 16 0x0C).toNat
    cycBudget := (at_ 3 64 0x10).toNat
    wdogi := (at_ 4 32 0x18).toNat
    fhTpl := at_ 5 10 0x1C
    fhRcb := fh.1
    flogVa := at_ 6 64 0x20
    flogRcb := (owning 6 chain).1
    flogN := (at_ 6 32 0x28).toNat
    ttbl := at_ 7 64 0x38
    fhTtbl := fieldAt 64 (owning 7 above).2 0x38
    scOff := at_ 8 64 0x40
    baseOff := at_ 9 64 0x48 }

/-- The state with the module's memory as an image holds it (R29). -/
def State.viewed (s : State) : Option (Mem × Mem) → State
  | some (hbm, csram) => { s with hbm, csram }
  | none => s

/-- An image of the module's memory: its HBM and its cluster SRAM. -/
abbrev Image := Mem × Mem

/-- The memory from which a task's effective values are read: its launch's acceptance while that launch is live; before the first
acceptance of the context, and for what no live launch stands behind, the context's last acceptance (R29). -/
def State.poolImage (s : State) (p : PoolEntry) : Option Image :=
  (if p.origin = 0 then s.launches.find? (·.serial == p.serial) else none).bind (·.image)

/-- The module's memory as an image holds it, else as the last acceptance of one of the context's launches found it (R29). -/
def State.rcbView (s : State) (n : Nat) (im : Option Image := none) : State := s.viewed (im <|> (s.ctx? n).bind (·.image))

/-- The effective values of an RCB in a view of memory (R27). -/
def State.rcbEff (s : State) (n : Nat) (rcb : Word) : Eff := effective (s.rcbChain n chainFuel rcb)

/-- The effective values in use for an RCB (R29). -/
def State.effOf (s : State) (n : Nat) (rcb : Word) (im : Option Image := none) : Eff := (s.rcbView n im).rcbEff n rcb

/-- The effective values in use for a task (R29). -/
def State.taskEff (s : State) (t : Task) : Eff := s.effOf t.pool.ctx t.pool.rcb (s.poolImage t.pool)

/-- An RCB and its ancestors, by VA; an RCB that cannot be read has none. -/
def State.ancestry (s : State) (n : Nat) (fuel : Nat) (rcb : Word) (im : Option Image := none) : List Word :=
  match (s.rcbView n im).rcbChain n fuel rcb with
  | [] => if rcb = 0 then [] else [rcb]
  | l => l.map (·.1)

/-- The machine knows an RCB, and its ancestors, once a task or a launch has named it (R33). -/
def State.knowRcb (s : State) (n : Nat) (rcb : Word) (im : Option Image := none) : State :=
  let l := s.ancestry n chainFuel rcb im
  s.modCtx n fun c => { c with rcbs := c.rcbs ++ l.filter fun r => !c.rcbs.contains r }

/-- An acceptance reads the effective values of every RCB of the context: the memory that holds them, and the RCBs it names
(R29, R33). -/
def State.readRcbs (s : State) (n : Nat) (rcb : Word) : State :=
  (s.modCtx n fun c => { c with image := some (s.hbm, s.csram) }).knowRcb n rcb

/-- Charged to an RCB of the subtree of a root (R30, R33). -/
def State.below (s : State) (n : Nat) (root rcb : Word) (im : Option Image := none) : Bool :=
  (s.ancestry n chainFuel rcb im).contains root

/-- The root of an RCB's fault domain: the nearest RCB with OVR bit 2 set (R33). -/
def State.domainOf (s : State) (n : Nat) (rcb : Word) (im : Option Image := none) : Word :=
  let a := s.ancestry n chainFuel rcb im
  (a.find? fun r => (s.effOf n r im).fdRoot).getD (a.getLast?.getD rcb)

/-- A field of an RCB in memory. -/
def State.rcbNum (s : State) (n : Nat) (rcb : Word) (off len : Nat) : Nat :=
  match s.readVia n (rcb + BitVec.ofNat 64 off) len with
  | some bs => leNat bs
  | none => 0

/-- Store a field of an RCB in memory. -/
def State.setRcb (s : State) (n : Nat) (rcb : Word) (off len x : Nat) : State :=
  s.writeVia n (rcb + BitVec.ofNat 64 off) (leBytes len x)

/-- STATE of an RCB (R26). -/
def State.rcbState (s : State) (n : Nat) (rcb : Word) : Nat := s.rcbNum n rcb 0x0B 1 % 4

/-- The RCB or an ancestor is aborting or aborted. -/
def State.chainAborted (s : State) (n : Nat) (rcb : Word) (im : Option Image := none) : Bool :=
  (s.ancestry n chainFuel rcb im).any fun r => s.rcbState n r == 1 || s.rcbState n r == 2

/-- An RCB of the chain whose budget on a die has run out (R31). -/
def State.spent (s : State) (n : Nat) (rcb : Word) (die : Nat) (im : Option Image := none) : Option Word :=
  (s.ancestry n chainFuel rcb im).find? fun r =>
    let b := (s.effOf n r im).cycBudget
    b != 0 && decide (b ≤ s.rcbNum n r (0x60 + 8 * die) 8)

/-- Add to LIVE of an RCB and of every ancestor (R26, R319). -/
def State.live (s : State) (n : Nat) (rcb : Word) (up : Bool) (im : Option Image := none) : State :=
  (s.ancestry n chainFuel rcb im).foldl (fun s r =>
    let x := s.rcbNum n r 0x50 4
    s.setRcb n r 0x50 4 (if up then x + 1 else x - 1)) s

/-- Charge cycles to CYCUSED of a die in one RCB; a nonzero budget that this reaches is noted until BUDGET is raised (R31). -/
def State.chargeOne (s : State) (n die cycles : Nat) (node : BitVec 32) (im : Option Image) (rcb : Word) : State :=
  let old := s.rcbNum n rcb (0x60 + 8 * die) 8
  let b := (s.effOf n rcb im).cycBudget
  let s := s.setRcb n rcb (0x60 + 8 * die) 8 (old + cycles)
  if b != 0 && decide (old < b ∧ b ≤ old + cycles) then { s with overBudget := s.overBudget ++ [(n, rcb, die, node)] } else s

/-- Charge cycles of a task to CYCUSED of its die in its RCB and every ancestor (R31). -/
def State.charge (s : State) (p : PoolEntry) (cycles : Nat) : State :=
  if cycles = 0 then s else
  let im := s.poolImage p
  (s.ancestry p.ctx chainFuel p.rcb im).foldl (fun s r => s.chargeOne p.ctx p.die.toNat cycles p.node im r) s

/-- Write a 64-byte record to an RCB's effective fault log: the state, and the record's VA unless it was dropped
(R35). -/
def State.logFault (s : State) (n : Nat) (rcb : Word) (bs : List Byte) (im : Option Image := none) : State × Option Word :=
  let e := s.effOf n rcb im
  let head := s.rcbNum n e.flogRcb 0x2C 4
  let tail := s.rcbNum n e.flogRcb 0x30 4
  let va := e.flogVa + BitVec.ofNat 64 (64 * (head % e.flogN))
  if (head + 2 ^ 32 - tail) % 2 ^ 32 < e.flogN ∧ s.writableVia n va 64 = true then
    ((s.writeVia n va bs).setRcb n e.flogRcb 0x2C 4 ((head + 1) % 2 ^ 32), some va)
  else
    let lost := s.rcbNum n e.flogRcb 0x34 4
    (s.setRcb n e.flogRcb 0x34 4 (min (lost + 1) 0xFFFFFFFF), none)

/-- The counters of a tag on a die (R376). -/
def State.counter (s : State) (die tag : Nat) : Counter := (s.counters.lookup (die, tag)).getD {}

/-- Replace the counters of a tag on a die. -/
def State.setCounter (s : State) (die tag : Nat) (c : Counter) : State :=
  let rest := s.counters.filter fun x => x.1 != (die, tag)
  { s with counters := if c = {} then rest else ((die, tag), c) :: rest }

/-- A counter as a READ returns it: [63] overflow, [47:0] count (R455, R467). -/
def counterWord (ovf : Bool) (c : BitVec 48) : Nat := (if ovf then 2 ^ 63 else 0) + c.toNat

/-- A counter counts for a function: its control word does not stop it or name another (R376, R455). -/
def Counter.counts (c : Counter) (fn : Nat) : Bool :=
  c.ctl.getLsbD 0 && (!c.ctl.getLsbD 1 || (c.ctl.extractLsb' 2 11).toNat == fn)

/-- Count the bytes of an access for its tag, unless the control word stops it or names another function (R376,
R455). -/
def State.countBytes (s : State) (die tag : Nat) (fn : Nat) (n : Nat) : State :=
  let c := s.counter die tag
  if !c.counts fn || n == 0 then s else
  let sum := c.bytes.toNat + n
  s.setCounter die tag { c with bytes := BitVec.ofNat 48 sum, bytesOvf := c.bytesOvf || decide (2 ^ 48 ≤ sum) }

/-- Count stall cycles for a tag (R376). -/
def State.countStall (s : State) (die tag : Nat) (n : Nat) : State :=
  let c := s.counter die tag
  if n = 0 then s else
  let sum := c.stalls.toNat + n
  s.setCounter die tag { c with stalls := BitVec.ofNat 48 sum, stallsOvf := c.stallsOvf || decide (2 ^ 48 ≤ sum) }

/-- The function of a task's context. -/
def State.fnOf (s : State) (n : Nat) : Nat := ((s.ctx? n).map (·.fn.toNat)).getD 0

/-- The fault record of an entry or of an instruction at its handling (R399 Table 3). -/
def faultRecord (s : State) (t : Task) (f : FaultInfo) : List Byte :=
  let die := t.pool.die.toNat
  let c := s.counter die f.tag.toNat
  record 64 [(0, 1, f.code.toNat), (1, 1, f.stream.code.toNat), (3, 1, f.tag.toNat), (4, 4, f.seq.toNat),
    (8, 8, f.va.toNat), (0x10, 8, f.thk.toNat), (0x18, 8, t.pool.rcb.toNat), (0x20, 4, t.pool.node.toNat),
    (0x24, 2, t.pool.tpl.toNat), (0x26, 1, die), (0x28, 8, counterWord c.bytesOvf c.bytes),
    (0x30, 8, counterWord c.stallsOvf c.stalls), (0x38, 8, s.timeOf t.pool.ctx)]

/-- The record of a fault that names no entry (R433 Table 12). -/
def plainRecord (s : State) (n : Nat) (rcb : Word) (code : Byte) (detail w8 w10 w20 w28 : Nat) : List Byte :=
  record 64 [(0, 1, code.toNat), (1, 1, 0xF), (4, 4, detail), (8, 8, w8), (0x10, 8, w10), (0x18, 8, rcb.toNat),
    (0x20, 8, w20), (0x28, 8, w28), (0x38, 8, s.timeOf n)]

/-! ## The trace ring (R452) -/

/-- Every byte translates to a present page of local HBM with W = 1 (R452). -/
def State.ringOk (s : State) (n : Nat) (va : Word) (len : Nat) : Bool :=
  match s.ctxChunks n va len with
  | .ok cs => cs.all fun c => localHbm c.leaf && leafW c.leaf
  | .error _ => false

/-- Write 64 bytes to a context's trace ring, or count them as lost. -/
def State.traceRing (s : State) (n : Nat) (r : Trace) (bs : List Byte) : State :=
  let va := r.base + BitVec.ofNat 64 (64 * (r.head.toNat % r.n))
  if (r.head - r.tail).toNat < r.n ∧ s.ringOk n va 64 = true then
    (s.writeVia n va bs).modCtx n fun c => { c with trace := some { r with head := r.head + 1 } }
  else s.modCtx n fun c => { c with trace := some { r with lost := min (r.lost + 1) 0xFFFFFFFF } }

/-- Write a 64-byte record of a class to a context's trace ring; the state, and TRHEAD at the write unless the record
was dropped. -/
def State.trace (s : State) (n : Nat) (cls : Nat) (bs : List Byte) : State × Option Nat :=
  match (s.ctx? n).bind (·.trace) with
  | none => (s, none)
  | some r =>
    if !r.mask.getLsbD cls then (s, none) else
    let va := r.base + BitVec.ofNat 64 (64 * (r.head.toNat % r.n))
    (s.traceRing n r bs, if (r.head - r.tail).toNat < r.n ∧ s.ringOk n va 64 = true then some r.head.toNat else none)

/-- SRC of an instruction or entry of a task: [35:32] stream, [31:0] sequence number (R443). -/
def srcWord (k : Stream) (num : BitVec 32) : Word := (0 : BitVec 28) ++ k.code ++ num

/-- Write the record of a wait that ended, if it lasted long enough, or that a debug stop found in progress (R453
Table 2): kind, outcome, flag, waiter, address, the context times at which it began and ended, and the setter. -/
def State.waitRec (s : State) (t : Task) (wkind outcome flag : Nat) (waiter addr : Word) (began ended : Nat)
    (by_ : Option (Nat × Word)) (always : Bool) : State :=
  let cycles := ended - began
  let long := match (s.ctx? t.pool.ctx).bind (·.trace) with
    | some r => always || decide (1 ≤ cycles ∧ r.wthresh ≤ cycles)
    | none => false
  if long then
    (s.trace t.pool.ctx 1 (record 64 [(0, 1, 2), (1, 1, wkind), (2, 1, outcome), (3, 1, flag),
      (4, 1, (by_.map (·.1)).getD 0xFF), (8, 8, waiter.toNat), (0x10, 8, (by_.map (·.2.toNat)).getD 0),
      (0x18, 8, addr.toNat), (0x20, 8, t.register.toNat), (0x28, 8, ended), (0x30, 8, cycles)])).1
  else s

/-! ## Stopping at a cut (R50, R425, R428) -/

/-- The flag of a token wait: [7:4] the giving stream, [3:0] the waiting one (R453). -/
def tokenFlag (k : Stream) (i : Fin 6) : Nat :=
  (if i.val < 2 then 0x10 else if i.val < 4 then 0x30 else 0x20) + k.code.toNat

/-- The semaphores that a copy command's WAITM names (R298). -/
def CopySlot.waitm (k : CopySlot) : List SemReg :=
  ((List.range 32).filter fun i => (fieldAt 32 k.bytes 4 : BitVec 32).getLsbD i).map fun i => BitVec.ofNat 5 i

/-- The semaphore that a copy command's wait in progress is for: the first of WAITM that is still missing (R298, R453). -/
def CopySlot.missing (c : CopySlot) (g : Regs) : Nat :=
  if c.waitThk.isSome then c.waitFlag else ((c.waitm.find? fun i => g.rdSem i = 0).map (·.toNat)).getD c.waitFlag

/-- The waits of a task in progress: kind, flag, waiter, address and the context time each began (R453). -/
def Task.waitsNow (t : Task) : List (Nat × Nat × Word × Word × Nat) :=
  let seq := srcWord .seq (t.num .seq)
  (if t.flow.ended.isSome then [] else match t.flow.timed with
    | some (.word _ b _ a _ _) => [(3, 0, seq, a, b)]
    | some (.sem _ b _ sm _) => [(0, sm.toNat, seq, (0 : Word), b)]
    | none => []) ++
  (Stream.all.flatMap fun k =>
    match t.queue k with
    | e :: _ => (if e.waited = 0 then [] else [(1, e.waitFlag, srcWord k e.num, (0 : Word), e.waited - 1)]) ++
        (e.tokWaits.filter fun w => t.regs.tok.get w.fifo = 0).map fun w => (4, tokenFlag k w.fifo, srcWord k e.num, (0 : Word), w.began)
    | [] => []) ++
  (t.vcq.filterMap fun c =>
    if c.began = 0 then none
    else some (if c.waitThk.isSome then 1 else 2, c.missing t.regs, srcWord .cpy c.num, (0 : Word), c.began - 1))

/-- The records of a task's waits in progress at a stop (R453, OUTCOME 2). -/
def State.waitsStop (s : State) (t : Task) (debug : Bool) : State :=
  let now := s.timeOf t.pool.ctx
  t.waitsNow.foldl (fun s w => s.waitRec t w.1 2 w.2.1 w.2.2.1 w.2.2.2.1 w.2.2.2.2 now none debug) s

/-- The oldest command of a task's virtual copy queue that has not completed. -/
def Task.oldestCopy (t : Task) : Option CopySlot := t.vcq.find? (!·.complete)

/-- The value of a stream at a cut: its oldest entry not performed, or its next number (R50, R299). -/
def Task.cutAt (t : Task) (k : Stream) : BitVec 32 :=
  match k with
  | .cpy =>
    match t.oldestCopy with
    | some c => c.num
    | none => ((t.queue .cpy).head?.map (·.num)).getD (t.num .cpy)
  | k => ((t.queue k).head?.map (·.num)).getD (t.num k)

/-- NEXTPC: the VA of the next lane to handle (R428). -/
def Task.nextPc (t : Task) : Word := t.flow.line + BitVec.ofNat 64 (4 * t.flow.lane)

/-- The stop record of a task at a cut (R428 Table 9). -/
def Task.stopRec (t : Task) (time reason : Nat) : StopRec :=
  { cut := Stream.all.map t.cutAt, reason, ifqn := t.ifq.length, nextPc := t.nextPc, time }

/-- An entry as a cut leaves it unperformed: it has not begun, and what it had taken or been answered is forgotten (R50). -/
def Entry.unbegun (e : Entry) : Entry :=
  { e with waited := 0, tokWaits := [], reads := [], taken := false, answer := .none, away := (0, .none) }

/-- Add to a semaphore count, with saturation (R103, R104). -/
def semAdd (c : Lane) (k : Nat) : Lane := BitVec.ofNat 32 (min (c.toNat + k) 0xFFFFFFFF)

/-- What a cut gives back: the tokens that unperformed entries took as they began, and the semaphores that copy commands not handed
out took (R19, R50, R298). -/
def Task.cutRegs (t : Task) : Regs :=
  let g := ([Stream.ldq, .vec, .stq].flatMap fun k => ((t.queue k).filter (·.taken)).flatMap fun e =>
    waitFifos k (Instr.tokens e.ins)).foldl Regs.giveTok t.regs
  ((t.vcq.filter fun (c : CopySlot) => c.met && !c.complete && c.engine.isNone && !c.paused).flatMap CopySlot.waitm).foldl
    (fun g i => g.wrSem i (semAdd (g.rdSem i) 1)) g

/-- The RUN register that records a command at a stop: that of its engine, or, of one that was paused before, one that no other
takes (R373). -/
def Task.runOf (t : Task) (c : CopySlot) : Option Bool :=
  if c.engine.isSome then c.engine
  else if t.vcq.any fun x => !x.complete && x.engine.isSome && x.engine == c.run then c.run.map not
  else c.run

/-- A task stopped at a cut and saved: what has begun and not performed gives back what it took (R50), its running copy commands pause
(R300), its frames stay marked with it (R354), and its
counts start again at the next entry unless the stop is a debug stop (R32, R327). A STEP goes on through a
pre-emption, and ends after a yield or a service once the task runs again (R449). -/
def Task.stopped (t : Task) (r : StopRec) : Task :=
  { t with
    status := .suspended
    home := t.coreOf
    sys := { t.sys with uncharged := 0, wdog := if r.reason = 4 then t.sys.wdog else 0,
                        slot := if r.reason = 4 then t.sys.slot else 0 }
    regs := t.cutRegs
    wants := []
    adrift := []
    queues := t.queues.map fun q => q.map Entry.unbegun
    vcq := t.vcq.map fun c =>
      if c.complete then c else
      { c with met := c.met && (c.engine.isSome || c.paused), reads := [], paused := c.paused || c.engine.isSome, run := t.runOf c,
               engine := none, began := 0 }
    flow := { t.flow with stop := some r, ready := none, preempt := none, halt := none, stalled := false,
                          stepping := t.flow.stepping && (r.reason == 1 || r.reason == 2 || r.reason == 5),
                          stepDone := t.flow.stepDone && (r.reason == 1 || r.reason == 2 || r.reason == 5) } }

/-- What a stop of a task at a cut writes: what ended accesses have left to land, the records of its waits, the cycles of its slot, its
backing (R31, R352, R428, R453). -/
def State.saveTask (s : State) (t : Task) (r : StopRec) : State :=
  let s := ((s.landDrift t).waitsStop t (r.reason == 4)).charge t.pool t.sys.uncharged
  { s with backing := { t with regs := t.cutRegs }.save r s.backing }

/-- Suspend the acting task at a cut (R44). -/
def State.suspend (s : State) (r : StopRec) : State := { s.saveTask s.cur r with cur := s.cur.stopped r }

/-- An entry has written part of its effect. -/
def Entry.acted (e : Entry) : Bool := e.landing.isSome || e.adds.isSome || e.result.isSome

/-- An entry has begun or has been sent, and has not performed. -/
def Entry.under (e : Entry) : Bool := e.taken || e.acted

/-- What an entry that has begun waits for may not come while its task's sequencer stands still: room in s56, a semaphore that a demand
of it waits for, or the end of another queue's demand (R69, R159, R168). -/
def Task.stuck (t : Task) (e : Entry) : Bool :=
  e.waited != 0 || t.badger.any (· != e.stream) ||
  (match e.ins with
    | .lds .. => decide (portDepth ≤ (t.regs.rdPort 0).length)
    | _ => false)

/-- An entry must perform before a cut: it has written part of its effect, or has begun and can go on (R50, R425). -/
def Task.mustPerform (t : Task) (e : Entry) : Bool := e.acted || (e.taken && !t.stuck e)

/-- A stop of the task is coming: nothing new begins (R425). -/
def Task.holding (t : Task) : Bool := t.flow.preempt.isSome || t.flow.halt.isSome

/-- The task is to be discarded, because its domain aborts, once it stands at a cut (R34, R432). -/
def Task.aborting (t : Task) : Bool := t.flow.halt.any fun (r : StopRec) => r.reason == 6

/-- The sequencer may not go on to the next line: its own breakpoint, `brk` or STEP stops the task, or an abort. -/
def Task.frozen (t : Task) : Bool :=
  match t.flow.halt with
  | some r => r.reason == 6 || r.dcause == 1 || r.dcause == 2 || r.dcause == 4
  | none => false

/-- The sequencer stands at its pre-emption point: a line boundary, or before a lane that is held (R425). -/
def Task.atPoint (t : Task) : Bool :=
  !t.flow.entered || t.flow.stalled || (t.flow.timed.isSome && t.flow.ended.isNone) || t.flow.finishing.isSome || t.frozen

/-- An entry of a queue must perform before a cut. Entries of LDQ, STQ and ATM begin, or are sent, so that it is at the head
(R19, R272, R383), but for loads that begin before it, which a cut leaves unperformed. -/
def Task.queueUnder (t : Task) (k : Stream) : Bool := k != .lnk && ((t.queue k).head?.map t.mustPerform).getD false

/-- No running copy command has written part of a unit only (R300). -/
def Task.copiesAtPoint (t : Task) : Bool := t.vcq.all fun c => c.landing.isNone

/-- Every queue, the copy engines and the matrix engine stand at their pre-emption points: nothing that has begun is left unperformed
(R425). -/
def Task.queuesAtPoint (t : Task) : Bool :=
  t.mx.isNone && t.puts.isNone && t.copiesAtPoint && Stream.all.all fun k => !t.queueUnder k

/-- A task can stop at a cut now. -/
def Task.atCut (t : Task) : Bool := !t.isRunning || (t.atPoint && t.queuesAtPoint)

/-- Make a suspended task Ready, in the resumed class from this cycle on (R322); a task of a halted context waits
for RESUME (R447). -/
def Task.readied (t : Task) (now : Nat) : Task :=
  { t with status := .ready, flow := { t.flow with ready := some now, page := none } }

/-- The debug stop of a task with a given cause, or its coming once the task stands at a cut (R425, R447). -/
def State.stopFor (s : State) (t : Task) (c : StopRec) : State × Task :=
  if t.coreOf.isNone || t.aborting then (s, t)
  else if t.atCut then
    let r := { t.stopRec (s.timeOf t.pool.ctx) 4 with dcause := c.dcause, dindex := c.dindex, dcode := c.dcode, dslot := c.dslot, brk := c.brk }
    (if t.isRunning then s.saveTask t r else { s with backing := t.save r s.backing }, t.stopped r)
  else (s, if t.flow.halt.isSome then t else { t with flow := { t.flow with halt := some { c with reason := 4 } } })

/-- Halt a context: every running or staged task of it but the acting one stops, with DCAUSE 5, or 0 on a HALT request
(R428, R447). -/
def State.haltOthers (s : State) (n dcause : Nat) : State :=
  let p := s.others.foldl (fun (p : State × List Task) t =>
    let q := if t.pool.ctx = n then p.1.stopFor t { dcause } else (p.1, t)
    (q.1, p.2 ++ [q.2])) (s, [])
  { p.1 with others := p.2 }.modCtx n fun c => { c with halted := true }

/-- A debug stop of the acting task (R447): its cause, index, code and ring slot, and the halt of its context. A task that is to be
discarded stays so (R432). -/
def State.debugStop (s : State) (dcause dindex : Nat) (dcode : Byte) (dslot : Word) (brk : BitVec 12) : State :=
  let t := if s.cur.aborting then s.cur
    else { s.cur with flow := { s.cur.flow with halt := some { reason := 4, dcause, dindex, dcode, dslot, brk } } }
  let p := s.stopFor t { dcause, dindex, dcode, dslot, brk }
  { p.1 with cur := p.2 }.haltOthers t.pool.ctx 5

/-! ## Pool entries (R319, R320, R398) -/

/-- The free pool entry of lowest index of a die (R319). -/
def State.freeIndex (s : State) (die : Nat) : Option Nat :=
  let used := (s.tasks.filter fun t => t.pool.die.toNat == die).map (·.pool.index)
  (List.range (used.length + 1)).find? fun i => decide (i < 4096) && !used.contains i

/-- The visible state of a task before it first runs (R45). -/
def initialRegs (arg0 : Word) : Regs := ({} : Regs).wr 2 arg0 |>.wr 3 0x10000

/-- Take a pool entry for a task: none when the die's pool is full (R319). Its scratchpad pages are zero in their backing (R350). -/
def State.enqueue (s : State) (p : PoolEntry) (sys : Special := {}) (handles : Option Nat := none) (recordVa : Word := 0) :
    Option State :=
  match s.freeIndex p.die.toNat with
  | none => none
  | some i =>
    let t : Task := { status := .ready, pool := { p with index := i, entered := s.now },
                      regs := initialRegs (p.args.get 0), sys, handles, recordVa, flow := { line := p.entry } }
    some (({ s with others := s.others ++ [t], backing := Mem.clear s.backing (t.backing + 0x10000) (t.backing + 0x30000) }.knowRcb
      p.ctx p.rcb (s.poolImage p)).live p.ctx p.rcb true (s.poolImage p))

/-- A template-table entry as read for a task: ENTRY, SPPAGES, VALID and TRCB (R36). -/
def State.template (s : State) (n : Nat) (ttbl : Word) (i : BitVec 10) : Option (Word × Nat × Bool × Word) :=
  (s.readPresent n (ttbl + BitVec.ofNat 64 (32 * i.toNat)) 32).map fun bs =>
    (fieldAt 64 bs 0, (bs.getD 8 0).toNat, (fieldAt 16 bs 0x0A : BitVec 16).getLsbD 0, fieldAt 64 bs 0x10)

/-- The LOCKs of a task's bound slots are written 0, where their page is there and may be written (R239, log 18). -/
def State.unlockAll (s : State) (t : Task) : State :=
  t.regs.k.toList.foldl (fun s k =>
    match k with
    | none => s
    | some k =>
      match s.xlate t (k.va + 0x38) with
        | .ok (leaf, _) =>
          let (p, a) := placeOf leaf (k.va + 0x38) t.cluster
          if leafW leaf then s.put p a (leBytes 8 0) else s
        | .error _ => s) s

/-- A task's working stores go back to the context's reserve (R357). -/
def State.freeStores (s : State) (t : Task) : State :=
  t.regs.k.toList.foldl (fun s k =>
    match k with
    | none => s
    | some k => s.modCtx t.pool.ctx fun c =>
        { c with skUsed := c.skUsed.filter fun u => !(u.1 == t.pool.die.toNat && u.2.1 == k.store) }) s

/-- The spill unit a stop record names (R421). -/
def StopRec.spill (r : StopRec) : Option Nat := if r.mx.getLsbD 63 then some ((r.mx.extractLsb' 32 16).toNat) else none

/-- Free the spill unit that a task's stop record names (R421). -/
def State.freeSpillOf (s : State) (t : Task) : State :=
  match t.flow.stop.bind StopRec.spill with
  | none => s
  | some u => s.modCtx t.pool.ctx fun c =>
      { c with spillUsed := c.spillUsed.filter (· != (t.pool.die.toNat, u)), spilled := c.spilled.filter (·.1 != (t.pool.die.toNat, u)) }

/-- No handler acts for a task any longer, because its entry is free (R400). -/
def State.forget (s : State) (tid : Nat) : State :=
  { s.mapTasks fun t => if t.handles = some tid then { t with handles := none } else t with
    waiting := s.waiting.filter (·.tid != tid) }

/-! ## Link pairs (R301, R302) -/

/-- Peer chip of a partner selector. -/
def selPeer (x : Word) : Nat := (x.extractLsb' 0 10).toNat
/-- Channel of a partner selector. -/
def selChan (x : Word) : Nat := (x.extractLsb' 16 8).toNat

/-- Peer chip of an entry. -/
def Entry.peer (e : Entry) : Nat := selPeer (e.caps.getD 0 0)
/-- Channel of an entry. -/
def Entry.chan (e : Entry) : Nat := selChan (e.caps.getD 0 0)

/-- A transfer that sends. -/
def Instr.isSend : Instr → Bool
  | .lsend .. => true
  | _ => false

/-- The number of a channel's direction in a context's pair counts. -/
def pairIx (peer chan : Nat) (send : Bool) : Nat := (peer * 256 + chan) * 2 + if send then 1 else 0

/-- The place of an entry's direction in a context's pair counts. -/
def pairKey (e : Entry) : Nat := pairIx e.peer e.chan (Instr.isSend e.ins)

/-- The begun transfers of a task are cancelled: their pairs exchange nothing more (R426, R432). -/
def State.cancelLinks (s : State) (t : Task) : State :=
  let l := ((t.queue .lnk).filter (·.begun)).map fun e => (pairKey e, e.lk.pair)
  if l.isEmpty then s else s.modCtx t.pool.ctx fun c => { c with cancelled := c.cancelled ++ l }

/-- What link transfers of a task have accepted lands (R303). -/
def State.landLinks (s : State) (t : Task) : State :=
  ((t.queue .lnk).filterMap (·.landing)).foldl (fun s l => s.landRest ⟨0, 0⟩ l) s

/-- Discard a task: a running one stops at a cut and its frame is written; its entry and what it holds of the context's
reserves are free, and its link transfers cancelled (R34, R239, R319, R357, R421, R428, R432). -/
def State.discard (s : State) (t : Task) : State :=
  let s := s.landLinks t
  let s := if t.isRunning then s.saveTask t (t.stopRec (s.timeOf t.pool.ctx) 6) else s
  let s := { s with transit := s.transit.filter fun r => !(t.flow.service.any fun (v : Service) => v.ranges.contains r) }
  let s := ((((s.unlockAll t).freeStores t).freeSpillOf t).cancelLinks t).forget t.tid
  (s.dropTask t.tid).live t.pool.ctx t.pool.rcb false (s.poolImage t.pool)

/-- Every RCB of a context that the machine knows of, with the ancestors of each. -/
def State.knownRcbs (s : State) (n : Nat) : List Word :=
  (((s.ctx? n).map (fun c => c.rootRcb :: c.rcbs)).getD [] ++
    ((s.tasks.filter (·.pool.ctx == n)).map (·.pool.rcb) ++ (s.launches.filter (·.ctx == n)).map (·.lrcb)).flatMap
      (s.ancestry n chainFuel)).eraseDups

/-- Begin the abort of the subtree of an RCB (R33, R34): STATE = 1 in it and below, its tasks stopped and discarded, each once
what it has begun has performed (R432), its waiting handlers gone. A task that waits for a page in its slot stands at its cut (R420,
R421). -/
def State.abortTree (s : State) (n : Nat) (root : Word) (im : Option Image := none) : State :=
  let inTree (p : PoolEntry) : Bool := s.below n root p.rcb (s.poolImage p <|> im)
  let doomed := (root :: s.knownRcbs n).eraseDups.filter fun r => s.below n root r im
  let victims := s.tasks.filter fun t => t.pool.ctx == n && inTree t.pool
  let s1 := doomed.foldl (fun s r => s.setRcb n r 0x0B 1 1) s
  let s2 := victims.foldl (fun s t =>
    if t.isRunning && !t.queuesAtPoint && t.flow.page.isNone then
      s.setTask { t with flow := { t.flow with halt := some { reason := 6 }, preempt := none } }
    else s.discard t) s1
  { s2 with waiting := s2.waiting.filter fun w => !(w.pool.ctx == n && inTree w.pool) }

/-- Abort the fault domain of an RCB (R33). -/
def State.abortDomain (s : State) (n : Nat) (rcb : Word) (im : Option Image := none) : State :=
  s.abortTree n (s.domainOf n rcb im) im

/-- Write a record against a task's RCB (R35). -/
def State.logTask (s : State) (t : Task) (bs : List Byte) : State × Option Word :=
  s.logFault t.pool.ctx t.pool.rcb bs (s.poolImage t.pool)

/-- Abort a task's fault domain (R33). -/
def State.abortTask (s : State) (t : Task) : State := s.abortDomain t.pool.ctx t.pool.rcb (s.poolImage t.pool)

/-- The pool entry of a fault-handler task (R398), when its template is valid. -/
def State.handlerEntry (s : State) (t : Task) (p : PoolEntry) : Option PoolEntry :=
  match s.template p.ctx p.ttbl p.tpl with
  | some (entry, spp, true, trcb) => some { p with entry, spp, rcb := if trcb = 0 then t.pool.rcb else trcb }
  | _ => none

/-- What a handler of a fault is enqueued with, but for what its template gives (R398). -/
def State.handlerFor (s : State) (t : Task) (f : FaultInfo) (va : Option Word) : PoolEntry :=
  let e := s.taskEff t
  { die := t.pool.die, ctx := t.pool.ctx, tpl := e.fhTpl, rcb := t.pool.rcb, ttbl := e.fhTtbl,
    args := #v[va.getD 0, t.pool.rcb, f.code.setWidth 64, t.pool.node.setWidth 64], origin := 3, node := 0xFFFFFFFF }

/-- A handler enters its die's pool with its template as read now; an invalid one ends in K_LAUNCH and the abort of the
faulting task's domain (R398). One charged to an RCB that is aborting is discarded, and so is what it would have answered for: the
faulting task's domain aborts, as without a disposition (R34, R400; log 61). -/
def State.enterHandler (s : State) (t : Task) (p : PoolEntry) (sys : Special) : State :=
  match s.handlerEntry t p with
  | none =>
    let r := plainRecord s t.pool.ctx t.pool.rcb fcLaunch p.tpl.toNat 0 0 0 t.pool.node.toNat
    (s.logTask t r).1.abortTask t
  | some p => if s.chainAborted p.ctx p.rcb then s.abortTask t else (s.enqueue p sys (some t.tid) (p.args.get 0)).getD s

/-- Hand a fault of the handled classes to a handler task, which waits while its die's pool is full (R398). -/
def State.handFault (s : State) (t : Task) (f : FaultInfo) (va : Option Word) : State :=
  let p := s.handlerFor t f va
  let sys : Special := { fltc := f.code, fltv := f.va, fltq := (0 : BitVec 28) ++ f.stream.code ++ f.seq, thkrec := f.thk }
  match s.freeIndex t.pool.die.toNat with
  | some _ => s.enterHandler t p sys
  | none => { s with waiting := s.waiting ++ [⟨t.tid, t.pool.die, p, f.code, f.va, sys.fltq, f.thk⟩] }

/-- Post a page request to the context's ring in host memory, unless one for the page stands; a function that is not
enabled posts nothing (R420, R461, R467, R468). -/
def State.postPage (s : State) (n : Nat) (va : Word) (write : Bool) : State :=
  match s.ctx? n with
  | none => s
  | some c =>
    let page := va &&& 0xFFFFFFFFFFFFF000
    let enabled := ((s.fns.lookup c.fn.toNat).map (·.enabled)).getD false
    if c.posted.contains page ∨ c.prSize ≤ (c.prWrite - c.prRead).toNat ∨ enabled = false then s else
    let i := c.prWrite.toNat % c.prSize
    let phase := (c.prWrite.toNat / c.prSize + 1) % 2
    let bs := record 32 [(0, 8, n), (8, 8, va.toNat), (16, 1, (if write then 1 else 0) + 2 * phase)]
    let s := { s with hostMem := Mem.writeN s.hostMem (c.prBase + 32 * i) bs }
    let irq := ((s.fns.lookup c.fn.toNat).map (·.ctrl.getLsbD 2)).getD false
    { s with sent := if irq then s.sent ++ [Sent.msix c.fn.toNat 1] else s.sent }.modCtx n
      fun c => { c with prWrite := c.prWrite + 1, posted := page :: c.posted }

/-- The lowest free spill unit of a context on a die (R421). -/
def State.freeSpill (s : State) (n die : Nat) : Option Nat :=
  match s.ctx? n with
  | none => none
  | some c => (List.range c.spillUnits).find? fun u => !c.spillUsed.contains (die, u)

/-- The row progress and the k-group of a matrix command as MXSTATE has them (R428 Table 9). -/
def MatrixCmd.progress (c : MatrixCmd) : Nat := c.row % 2 ^ 16 * 2 ^ 16 + c.group % 2 ^ 16

/-- An entry walks again at its queue's head: what it recorded of its page is done with (R420). -/
def Entry.walksAgain (e : Entry) (code : Byte) : Entry :=
  match e.h with
  | some h => if h.bind = .faulted code then { e with h := some { h with bind := .revoked } } else e
  | none => e

/-- A page fault of the acting task: it stops at a cut and a request is posted (R420). A matrix command stopped
mid-reduction, by its own fault or another's, saves its accumulators in a spill unit; with none free the task waits in its running slot
(R181, R421). -/
def pageFault (f : FaultInfo) (s : State) : State :=
  let s := { s with cur := s.cur.setQueue f.stream ((s.cur.queue f.stream).map fun (e : Entry) =>
    if e.num = f.seq then e.walksAgain fcNp else e) }
  let t := s.cur
  let n := t.pool.ctx
  let die := t.pool.die.toNat
  let stopWith (s : State) (mx : Word) : State :=
    let s := s.suspend { t.stopRec (s.timeOf n) 0 with mx }
    ({ s with cur := { s.cur with flow := { s.cur.flow with page := some f } } }).postPage n f.va f.write
  match t.mx with
  | none => stopWith s 0
  | some k =>
    match s.freeSpill n die with
    | none => ({ s with cur := { t with flow := { t.flow with page := some f } } }).postPage n f.va f.write
    | some u =>
      let s := stopWith (s.modCtx n fun c => { c with spillUsed := (die, u) :: c.spillUsed, spilled := ((die, u), k) :: c.spilled })
        (BitVec.ofNat 64 (2 ^ 63 + u * 2 ^ 32 + f.mx.getD k.progress))
      { s with cur := { s.cur with mx := none } }

/-- What units other than the faulting queue have begun has not performed: it performs before the cut (R50, R432). -/
def Task.othersUnder (t : Task) (k : Stream) : Bool :=
  t.puts.isSome || !t.copiesAtPoint || Stream.all.any fun q => q != k && t.queueUnder q

/-- TAKING A FAULT of the acting task (R420, R432 Table 11): a page fault suspends the task and posts a request; a
handled class with a handler in effect suspends it, writes the record and enqueues the handler (R398), unless the task
is itself a handler; every other class writes the record and aborts the fault domain. What another queue has begun performs
first. A task whose domain aborts already is discarded (R34). BREAK and WATCH reach a debugger through debugStop and come here only
without one (R120). -/
def takeFault (f : FaultInfo) (s : State) : State :=
  let t := s.cur
  let n := t.pool.ctx
  let time := s.timeOf n
  if t.othersUnder f.stream then s
  else if t.aborting then s.discard t
  else if f.code = fcNp ∧ !s.inWindows n f.va then pageFault f s
  else
    let e := s.taskEff t
    let handled := handledCode f.code && e.fhTpl != 0x3FF && t.pool.origin != 3
    let r := { t.stopRec time (if handled then 3 else 6) with dcode := f.code }
    let s := s.suspend r
    let (s, va) := s.logTask t (faultRecord s t f)
    if handled then s.handFault t f va else s.abortTask t

/-! ## Running an operation -/

/-- The outcome of an operation on a state. -/
def runM (m : M Unit) (s : State) : Host.Outcome State Fault Refusal :=
  match m.run.run s with
  | (.ok _, s') => .next s'
  | (.error .stall, _) => .next s
  | (.error .pause, s') => .next s'
  | (.error (.walk w), _) => .next { s with walks := s.walks ++ [w] }
  | (.error (.fault f keep), s') => .next (takeFault f (if keep then s' else s))
  | (.error (.machine f), _) => .fault f

/-- The acting task. -/
def theTask : M Task := do return (← get).cur

/-- Change the acting task. -/
def modTask (f : Task → Task) : M Unit := modify fun s => { s with cur := f s.cur }

/-- Change the acting task's registers. -/
def modRegs (f : Regs → Regs) : M Unit := modTask fun t => { t with regs := f t.regs }

/-- Change the acting task's special registers. -/
def modSys (f : Special → Special) : M Unit := modTask fun t => { t with sys := f t.sys }

/-- The acting task's registers. -/
def theRegs : M Regs := do return (← get).cur.regs

/-- The acting task's context. -/
def theCtx : M Ctx := do
  let s ← get
  match s.ctx? s.cur.pool.ctx with
  | some c => return c
  | none => throw (.machine .noContext)

/-- The effective RCB values of the acting task. -/
def theEff : M Eff := do
  let s ← get
  return s.taskEff s.cur

/-- A free value (log 2). -/
def freeValue : M Word := do
  let s ← get
  set { s with free := s.free + 1 }
  return Config.freeWord s.free

/-- VA of the lane being handled (R64). -/
def laneVa : M Word := do return (← theTask).nextPc

/-- Every entry dispatched has performed, and every copy command has completed. -/
def Task.drained (t : Task) : Bool := t.queues.toList.all (·.isEmpty) && t.vcq.all (·.complete)

/-- Raise a precise fault at an instruction whose entry would stand at the tail of a stream, on an access of a buffer
tag: it waits until the task has drained (R52, R53, R399). -/
def raiseTag {α : Type} (k : Stream) (tag : Byte) (code : Byte) (va : Word) : M α := do
  let t ← theTask
  if !t.drained then stall
  throw (.fault { code, stream := k, seq := t.num k, tag, va } false)

/-- Raise a fault of an instruction at its handling: every entry dispatched before it performs first, so that the cut
has each stream at its next number (R64). -/
def raiseAt {α : Type} (k : Stream) (code : Byte) (va : Word) : M α := raiseTag k 0 code va

/-- Append an entry to a port, waiting while it is full (R69). -/
def pushPort (r : SReg) (x : PortWord) : M Unit := do
  let g ← theRegs
  let q := g.rdPort (portIx r)
  if portDepth ≤ q.length then stall
  modRegs fun g => g.wrPort (portIx r) (q ++ [x])

/-- Take an entry from a port, waiting while it is empty; a poisoned entry raises UE_DATA at the instruction that
takes it (R69, R275). -/
def popPort (r : SReg) : M Word := do
  let g ← theRegs
  match g.rdPort (portIx r) with
  | [] => stall
  | x :: rest => do
    if x.poisoned then raiseAt .seq fcData (← laneVa)
    modRegs fun g => g.wrPort (portIx r) rest
    return x.val

/-- Read a scalar register or take from a port, in a SEQ instruction or at a dispatch (R68 to R70). -/
def readS (r : SReg) : M Word := do
  if isPort r then popPort r else return (← theRegs).rd r

/-- Write a scalar register or append to a port (R68 to R70). -/
def writeS (r : SReg) (x : Word) : M Unit := do
  if isPort r then pushPort r ⟨x, false⟩ else modRegs fun g => g.wr r x

end Sys2Proof.Machine
end

