-- ==== Sys2Proof/Machine/Flags.lean ====
section
/-! DEFINITION. The flag computations: the sticky flags of FPST (R114, R141, R142), the condition codes (R81, R202,
R268), and the generator steps an entry takes (R139, R140). -/

namespace Sys2Proof.Machine

/-- Raise sticky flags of FPST (R141). -/
def raiseFlags (f : Fl) : M Unit := modSys fun y => { y with fpst := y.fpst ||| f }

/-- The flags of several results together. -/
def orFlags (l : List Fl) : Fl := l.foldl (· ||| ·) 0

/-- The truth of a condition code on 64-bit values (R81 Table 2). -/
def condHolds (cc : Cc) (a b : Word) : Bool :=
  match cc with
  | .eq => a == b
  | .ne => a != b
  | .lt => a.slt b
  | .ge => b.sle a
  | .ltu => a.ult b
  | .geu => b.ule a

/-- The truth of a condition code on 32-bit lanes (R202 Table 5, R203). -/
def laneCond (cc : Cc) (a b : Lane) : Bool :=
  match cc with
  | .eq => a == b
  | .ne => a != b
  | .lt => a.slt b
  | .ge => b.sle a
  | .ltu => a.ult b
  | .geu => b.ule a

/-- The truth of a floating compare: with a NaN only ne and un hold, and −0 equals +0 (R202). -/
def floatCond (cc : FCc) (a b : Lane) : Bool :=
  let x := f32 a
  let y := f32 b
  if x = .nan ∨ y = .nan then cc == .ne || cc == .un
  else match cc with
    | .eq => x.eq y
    | .ne => !x.eq y
    | .lt => x.lt y
    | .ge => !x.lt y
    | .le => !y.lt x
    | .gt => y.lt x
    | .un => false

/-- The condition of a continuation atomic, unsigned (R276). -/
def contHolds (c : KCond) (old want : Nat) : Bool :=
  match c with
  | .eq => old == want
  | .ne => old != want
  | .ltu => decide (old < want)
  | .geu => decide (want ≤ old)

/-- Take one step of the generator: its 16-bit number (R139). -/
def rngTake : M Nat := do
  let s ← get
  let (x, r) := rngStep s.cur.sys.rng
  modSys fun y => { y with rng := x }
  return r

/-- The generator's number for one element encoded under a mode: a step under rs, none otherwise (R139). -/
def rngFor (mode : Rm) : M Nat := if mode = .rs then rngTake else return 0

/-- Signal a semaphore and note who did (R104, R454): kind and SRC as R443 codes them. -/
def signalSem (sm : SemReg) (k : Nat) (kind : Nat) (src : Word) : M Unit :=
  modify fun s => { s with cur := { s.cur with
    regs := s.cur.regs.wrSem sm (semAdd (s.cur.regs.rdSem sm) k)
    setter := (sm.toNat, (kind, src, s.timeOf s.cur.pool.ctx)) :: s.cur.setter.filter fun x => x.1 != sm.toNat } }

end Sys2Proof.Machine
end

