-- ==== Sys2Proof/Machine/Operands.lean ====
section
/-! DEFINITION. Every operand form: SEQ operands and the advance past a lane (R57 to R60), dispatch into a queue (R60,
R70, R95), the conditions under which an entry begins (R19, R98, R196, R273, R390), element addresses, packing, scales
and delta pages (R128 to R132, R183, R370, R371), and reads and writes of memory by an entry. -/

namespace Sys2Proof.Machine

/-! ## Past a lane -/

/-- The sequencer after an instruction of n lanes that transfers nowhere (R58, R59). -/
def Flow.after (f : Flow) (n : Nat) : Flow :=
  let f := { f with brkPass := [], stepDone := f.stepping }
  match nextLane (f.lanes.getD 0 0) 8 (f.lane + n) with
  | some l => { f with lane := l }
  | none => { f with line := f.line + 32, entered := false, lanes := [], lane := 1 }

/-- The sequencer after a taken control transfer (R58). -/
def Flow.to (f : Flow) (target : Word) : Flow :=
  { f with brkPass := [], stepDone := f.stepping, line := target, entered := false, lanes := [], lane := 1 }

/-- A SEQ instruction of n lanes is handled: it takes the next SEQ number and the sequencer goes on (R49, R60). -/
def handled (n : Nat) : M Unit := modTask fun t => { t.bump .seq with flow := t.flow.after n }

/-- A SEQ instruction transfers to a line. -/
def transferTo (target : Word) : M Unit := modTask fun t => { t.bump .seq with flow := t.flow.to target }

/-- The port check at the handling of an instruction (R63, check 5). -/
def portCheck (k : Stream) (i : Instr) : M Unit := do
  if i.portBad then raiseAt k fcPort (← laneVa)

/-- A SEQ instruction of n lanes: the port check, its effect, and the advance past it. -/
def seqOp (i : Instr) (n : Nat) (body : M Unit) (s : State) : Host.Outcome State Fault Refusal :=
  runM (do portCheck .seq i; body; handled n) s

/-! ## Element addresses (R128, R129, R183) -/

/-- An element: the VA of its byte or group, and its place within it (R128). -/
structure Elem where
  va : Word
  sub : Nat := 0
  deriving DecidableEq, Repr

/-- Bytes that hold an element of w bits: its own, its byte, or its 3-byte group. -/
def elemBytes (w : Nat) : Nat := if w = 6 then 3 else if w < 8 then 1 else w / 8

/-- Element j of a run of elements of w bits that begins at an address. -/
def elemAt (w : Nat) (start : Word) (j : Nat) : Elem :=
  if w = 4 then ⟨start + BitVec.ofNat 64 (j / 2), j % 2⟩
  else if w = 6 then ⟨start + BitVec.ofNat 64 (j / 4 * 3), j % 4⟩
  else ⟨start + BitVec.ofNat 64 (j * (w / 8)), 0⟩

/-- An address on an element boundary for w bits (R129). -/
def elemAligned (w : Nat) (va : Word) : Bool :=
  if w = 4 then true else if w = 6 then va.toNat % 3 == 0 else va.toNat % (w / 8) == 0

/-- The element index (R129). -/
def elemIndex (w : Nat) (e : Elem) : Nat :=
  if w = 4 then 2 * e.va.toNat + e.sub
  else if w = 6 then 4 * e.va.toNat / 3 + e.sub
  else e.va.toNat / (w / 8)

/-- An element's bits in the bytes that hold it. -/
def elemBits (w : Nat) (e : Elem) (bs : List Byte) : Nat := leNat bs / 2 ^ (w * e.sub) % 2 ^ w

/-- The bytes that hold an element, with its bits replaced (R193). -/
def elemSet (w : Nat) (e : Elem) (bs : List Byte) (x : Nat) : List Byte :=
  let old := leNat bs
  let at_ := 2 ^ (w * e.sub)
  leBytes bs.length (old - elemBits w e bs * at_ + x % 2 ^ w * at_)

/-- The format of a leaf's page. -/
def leafFormat (l : Word) : Fmt := (Fmt.ofCode (leafFmt l)).getD .fp32

/-- BG against FMT: 1 to 3 only with FMT 4 to 12, 4 to 7 never (R130). -/
def geometryOk (l : Word) : Bool :=
  leafBg l == 0 || (decide (leafBg l ≤ 3) && decide (4 ≤ (leafFmt l).toNat ∧ (leafFmt l).toNat ≤ 12))

/-- Elements that share a scale, and the bytes of a scale (R130 Table 4). -/
def blockOf (bg : Nat) : Nat × Nat := if bg = 1 then (32, 1) else if bg = 2 then (128, 4) else (16384, 4)

/-- The address of an element's scale (R131). -/
def scaleAddr (scoff : Word) (l : Word) (e : Elem) : Word :=
  let b := blockOf (leafBg l)
  scoff + BitVec.ofNat 64 (elemIndex (leafFormat l).bits e / b.1 * b.2)

/-! ## Reading and writing memory for an entry -/

/-- Raise a fault that an entry's access meets, precise at the entry (R197). -/
def raiseE {α : Type} (f : FaultInfo) (code : Byte) (va : Word) : M α := throw (.fault { f with code, va } false)

/-- What a walk is of: its die, its context, the launch of its window, and the page (R415). Requests that agree in it share one
walk. -/
def State.walkKey (s : State) (w : Walk) : Nat × Nat × Nat × Nat :=
  let page := if w.serial ≠ 0 then w.va.toNat / 65536 * 65536 else
    match s.lookup w.ctx w.va with
    | .ok (leaf, _) => pageOf leaf w.va
    | .error _ => w.va.toNat / 4096 * 4096
  (w.core / 48, w.ctx, w.serial, page)

/-- The walks that a die performs at once (R415). -/
def walksAtOnce : Nat := 128

/-- The walks that are requested of a die and have not ended, in the order requested. -/
def State.walkKeys (s : State) (die : Nat) : List (Nat × Nat × Nat × Nat) :=
  ((s.walks.filter fun x => x.core / 48 == die).map s.walkKey).eraseDups

/-- A die performs as many walks as it can (R415). -/
def State.walksFull (s : State) (die : Nat) : Bool := decide (walksAtOnce ≤ (s.walkKeys die).length)

/-- The turn of an access that needs a walk of an address that no cache holds for it: it waits for a walk of the page that is requested
already; where its die performs as many walks as it can, its own is requested behind them, and it waits; else its walk is made
at once (R415). -/
def walkTurn (va : Word) (write fetch : Bool) (core : Option Nat) : M Unit := do
  let s ← get
  let t := s.cur
  let n := t.pool.ctx
  let die := t.pool.die.toNat
  let held := ((core.bind fun c => cachedLeaf (if fetch then s.fetchTc else s.coreTc) c n va).orElse fun _ => cachedLeaf s.tlb die n va).isSome
  if !s.walks.isEmpty && !held then
    let w : Walk := { ctx := n, va, core := core.getD (48 * die), write, fetch, engine := core.isNone }
    if (s.walkKeys die).contains (s.walkKey w) then stall
    if s.walksFull die then throw (.walk w)

/-- Walk for an access of the acting task: A, and D for a write, are set and the translation installed (R414, R415); a fault is
raised at the given entry. A window of cluster SRAM stands in no table and no cache (R359). -/
def plainWalk (f : FaultInfo) (va : Word) (write : Bool) : M Word := do
  let s ← get
  let t := s.cur
  if s.inTransit t.pool.ctx va then stall
  let core := if (f.queue.map fun q => decide (192 ≤ q.1)).getD false then none else t.coreOf
  match s.xlate t va with
  | .error c => do
    walkTurn va write false core
    throw (.fault { f with code := c, va, write } false)
  | .ok (leaf, none) => return leaf
  | .ok (leaf, some a) => do
    walkTurn va write false core
    set (s.walked t.pool.die.toNat core false t.pool.ctx va leaf a write)
    return leaf

/-- The page registers of an access queue (R418). -/
def State.pageRegs (s : State) (unit role : Nat) : AccessQueue :=
  (s.accessQs.find? fun q => q.unit == unit && q.role == role).getD { unit, role }

/-- Replace the page registers of an access queue. -/
def State.setPageRegs (s : State) (q : AccessQueue) : State :=
  { s with accessQs := q :: s.accessQs.filter fun x => !(x.unit == q.unit && x.role == q.role) }

/-- Fill an access queue's next-page register once its stream is within a distance of its current page's end; a fault of that
walk is met when the stream enters the page (R419). -/
def State.fillAhead (s : State) (q : AccessQueue) (c : Cached) (va : Word) (pfd : Nat) (write : Bool) : State × AccessQueue :=
  let next := c.page.toNat + pageBytes (leafSz c.leaf)
  let at_ : Word := BitVec.ofNat 64 next
  if q.next.isSome || pfd = 0 || decide (pfd < next - va.toNat) || s.inTransit c.ctx at_ ||
      ((cachedLeaf s.tlb s.cur.pool.die.toNat c.ctx at_).isNone && s.walksFull s.cur.pool.die.toNat) then (s, q) else
  match s.lookup c.ctx at_ with
  | .error _ => (s, q)
  | .ok (leaf, a) =>
    let core := if q.unit < 192 then some q.unit else none
    (s.walked s.cur.pool.die.toNat core false c.ctx at_ leaf a write,
     { q with next := some ⟨q.unit, c.ctx, BitVec.ofNat 64 (pageOf leaf at_), markedLeaf leaf write⟩ })

/-- Translate an address of an access queue's stream: its current page, its next page, which becomes the current one, or a walk
(R418, R419). -/
def queueWalk (f : FaultInfo) (unit role pfd : Nat) (va : Word) (write : Bool) : M Word := do
  let s ← get
  let n := s.cur.pool.ctx
  let q := s.pageRegs unit role
  match q.cur.filter (·.covers n va), q.next.filter (·.covers n va) with
  | some c, _ => do
    let (s, q) := s.fillAhead q c va pfd write
    set (s.setPageRegs q)
    return c.leaf
  | none, some c => do
    let (s, q) := s.fillAhead { q with cur := some c, next := none } c va pfd write
    set (s.setPageRegs q)
    return c.leaf
  | none, none => do
    let leaf ← plainWalk f va write
    match s.xlate s.cur va with
    | .ok (_, some _) => do
      let c : Cached := ⟨unit, n, BitVec.ofNat 64 (pageOf leaf va), markedLeaf leaf write⟩
      let (s, q) := (← get).fillAhead { q with cur := some c, next := none } c va pfd write
      set (s.setPageRegs q)
    | _ => pure ()
    return leaf

/-- What an access without a handle to an aperture meets, for the entry or copy command that a fault would name (R413, R427). -/
def Task.awayOf (t : Task) (f : FaultInfo) : Nat × Answer :=
  match t.vcq.find? fun c => f.stream == .cpy && c.num == f.seq with
  | some c => c.away
  | none => (((t.queue f.stream).find? (·.num == f.seq)).map (·.away)).getD (0, .none)

/-- Translate an address for an access that holds no recorded translation: through its access queue, or by a walk. An outside home
that refuses the access raises PAGE_PERM (R413). -/
def walkFor (f : FaultInfo) (va : Word) (write : Bool) : M Word := do
  let leaf ← match f.queue with
    | none => plainWalk f va write
    | some (unit, role, pfd) => queueWalk f unit role pfd va write
  if leafAp leaf ≠ 0 ∧ (← theTask).awayOf f = (leafAp leaf, .refused) then raiseE f fcPerm va
  return leaf

/-- The same access through another queue of its unit; a copy engine has no fifth queue and reads scales through its first. -/
def FaultInfo.role (f : FaultInfo) (r : Nat) : FaultInfo :=
  { f with queue := f.queue.map fun q => (q.1, if 192 ≤ q.1 ∧ r = 4 then 0 else r, q.2.2) }

/-- Bit-serial CRC-32C (R295, R435): one bit. -/
def crcBit (c : Nat) : Nat := if c % 2 = 1 then c / 2 ^^^ 0x82F63B78 else c / 2

/-- One byte. -/
def crcByte (c : Nat) (b : Byte) : Nat :=
  crcBit (crcBit (crcBit (crcBit (crcBit (crcBit (crcBit (crcBit (c ^^^ b.toNat))))))))

/-- CRC-32C of bytes. -/
def crc32c (bs : List Byte) : Nat := bs.foldl crcByte 0xFFFFFFFF ^^^ 0xFFFFFFFF

/-- Spread packed 8-byte groups by a group table of n groups (R296, R371). -/
def spreadGroups (table : Nat) : Nat → Nat → List Byte → List Byte
  | 0, _, _ => []
  | n + 1, g, packed =>
    if table.testBit g then packed.take 8 ++ spreadGroups table n (g + 1) (packed.drop 8)
    else List.replicate 8 0 ++ spreadGroups table n (g + 1) packed

/-- The number of ones in a table of 512 groups. -/
def groupCount (table : Nat) : Nat := ((List.range 512).filter table.testBit).length

/-- The 4,096 bytes of a stored block, or none where its G or its CRC does not match; a block of zero header and
table is a block of zeros without a check where bare (R296, R371). -/
def unpackBlock (bare : Bool) (bs : List Byte) : Option (List Byte) :=
  let table := leNat ((bs.drop 64).take 64)
  if bare && leNat (bs.take 64) == 0 && table == 0 then some (List.replicate 4096 0) else
  let out := spreadGroups table 512 0 (bs.drop 128)
  if leNat (bs.take 2) = groupCount table ∧ leNat ((bs.drop 4).take 4) = crc32c out then some out else none

/-- Bytes at a place, as the acting entry reads them: the granules whose values it has taken already keep them (R382). -/
def overlay (reads : List (Granule × List Byte)) (space a : Nat) (bs : List Byte) : List Byte :=
  if reads.isEmpty then bs else
  (List.range bs.length).map fun i =>
    match reads.lookup (space, (a + i) / 16) with
    | some g => g.getD ((a + i) % 16) 0
    | none => bs.getD i 0

/-- An offset of lane 2, sign-extended. -/
def sext (n : Nat) (x : BitVec n) : Word := x.signExtend 64

/-- The runs of bytes an access through a handle touches for the bounds check, as address and length, given the captured scalars; gather
and scatter lanes are checked at the entry (R183). Of an ldpf it is the byte at base + OFF, a choice of the model (log 68). -/
def Entry.runs (e : Entry) (leaf base : Word) : List (Word × Nat) :=
  let w := (leafFormat leaf).bits
  let run (off : BitVec 32) (w n : Nat) : List (Word × Nat) :=
    let a := base + sext 32 off
    [(a, if w = 4 then n / 2 else if w = 6 then n / 4 * 3 else n * (w / 8))]
  let strided (off : BitVec 32) : List (Word × Nat) :=
    let stride := e.caps.getD 0 0
    (List.range 64).map fun j => (base + sext 32 off + BitVec.ofNat 64 j * stride, elemBytes w)
  let word (off : BitVec 19) (n : Nat) : List (Word × Nat) := [(base + sext 19 off, n)]
  match e.ins with
  | .lds _ _ sz off _ | .sts _ sz off _ => [(base + sext 32 off, 2 ^ sz.code.toNat)]
  | .vld _ _ _ off _ | .vst _ _ _ _ off _ => run off w 64
  | .vldr _ _ _ off _ | .vstr _ _ _ off _ | .vfaddnr _ _ _ off _ => run off 32 64
  | .vlds _ _ _ off _ | .vsts _ _ _ _ off _ => strided off
  | .vlbc _ _ off _ => [(base + sext 32 off, elemBytes w)]
  | .ldpf _ _ off _ | .lcln _ off _ | .linv _ off _ => [(base + sext 32 off, 1)]
  | .atom _ dbl _ _ _ off | .atomnr _ dbl _ _ _ off | .cas dbl _ _ _ _ off => word off (if dbl then 8 else 4)
  | .fatom _ _ _ _ off | .fatomnr _ _ _ _ off => word off 4
  | .atomk _ dbl _ _ _ k | .cask dbl _ _ _ k =>
    [(base + sext 8 k.off8 * (if dbl then 8 else 4), if dbl then 8 else 4)]
  | .qpush _ _ _ off | .qpop _ _ off => word off 64
  | .dcdec _ off => word off 8
  | _ => []

/-- The granules that the acting access has taken already: those of the entry or copy command that a fault of it would name. What the
matrix engine reads for a load is no access of the load (R382). -/
def Task.readsOf (t : Task) (f : FaultInfo) : List (Granule × List Byte) :=
  match f.stream with
  | .cpy => ((t.vcq.find? (·.num == f.seq)).map (·.reads)).getD []
  | .ldq => if f.queue.isSome then [] else (((t.queue .ldq).find? (·.num == f.seq)).map (·.reads)).getD []
  | k => (((t.queue k).find? (·.num == f.seq)).map (·.reads)).getD []

/-- A line of n bytes at a place that the acting access still has to read is poisoned (R434). -/
def State.poisonedFor (s : State) (reads : List (Granule × List Byte)) (p : Space) (a n : Nat) : Bool :=
  if reads.isEmpty then s.poisoned p a n else
  (List.range n).any fun i => !(reads.any (·.1 == (p.code, (a + i) / 16))) && s.poison.contains (poisonKey p (a + i))

/-- Places that an access touches: space, address and length. -/
abbrev Runs := List (Nat × Nat × Nat)

/-- Runs of virtual bytes of a page as places. -/
def placeRuns (leaf : Word) (cluster : Nat) (l : List (Word × Nat)) : Runs :=
  l.map fun r => ((placeOf leaf r.1 cluster).1.code, (placeOf leaf r.1 cluster).2, r.2)

/-- Places share a byte. -/
def placesMeet (a b : Runs) : Bool :=
  a.any fun x => b.any fun y => x.1 == y.1 && decide (x.2.1 < y.2.1 + y.2.2 ∧ y.2.1 < x.2.1 + x.2.2)

/-- The parts of places that lie in a granule. -/
def inGranule (g : Granule) (l : Runs) : Runs :=
  (l.filter (·.1 == g.1)).map fun r =>
    let lo := max r.2.1 (16 * g.2)
    (r.1, lo, min (r.2.1 + r.2.2) (16 * g.2 + 16) - lo)

/-- The places of the elements of an entry whose bytes are known before it performs, none where it reads others beside them, or
bytes that its registers choose (R183, R382). -/
def Entry.ownPlaces (e : Entry) (cluster : Nat) : Option Runs :=
  match e.h with
  | some h =>
    match h.bind with
    | .valid l =>
      let r := e.runs l h.base
      if leafBg l = 0 && !leafDlt l && !r.isEmpty then some (placeRuns l cluster r) else none
    | _ => none
  | none => none

/-- A load that has taken bytes leaves to later loads no older value of them: two reads of one queue whose bytes overlap take their
values in queue order (R382). -/
def Entry.dropReads (cluster : Nat) (took : Nat × Nat × Nat) (e : Entry) : Entry :=
  { e with reads := e.reads.filter fun r => !placesMeet (inGranule r.1 ((e.ownPlaces cluster).getD [(r.1.1, 16 * r.1.2, 16)])) [took] }

/-- The loads that a test selects drop the values of bytes that they have taken. -/
def Task.dropReads (t : Task) (took : Nat × Nat × Nat) (sel : Entry → Bool) : Task :=
  if (t.queue .ldq).all (·.reads.isEmpty) then t else
  t.setQueue .ldq ((t.queue .ldq).map fun e => if sel e then e.dropReads t.cluster took else e)

/-- An LDQ entry has taken bytes at a place as it performs (R382). -/
def loadTook (f : FaultInfo) (p : Space) (a n : Nat) : M Unit := do
  if f.stream = .ldq ∧ f.queue = none then
    modTask fun t => t.dropReads (p.code, a, n) fun e => e.num != f.seq

/-- The bytes of a base page, raw, in the translation of VA + BASEOFF: a fault has FLTV at the base VA, and a base
page that is a delta page raises PAGE_PERM (R371). -/
def baseBytes (f : FaultInfo) (va : Word) (n : Nat) : M (List Byte) := do
  let leaf ← walkFor f va false
  if leafDlt leaf then raiseE f fcPerm va
  let s ← get
  let (p, a) := placeOf leaf va s.cur.cluster
  let reads := s.cur.readsOf f
  if s.poisonedFor reads p a n then raiseE f fcData va
  loadTook f p a n
  return overlay reads p.code a (s.bytesAt p a n)

/-- The stored block behind a delta page: 8 KiB at its frame (R370). -/
def deltaBlock (s : State) (leaf : Word) : List Byte := Mem.readN s.hbm (leafPfn leaf * 4096) 8192

/-- The bytes of a stored block that a read of its page reads: header, table and packed groups (R370, R371). -/
def deltaRead (s : State) (leaf : Word) : Nat := 128 + 8 * groupCount (leNat (Mem.readN s.hbm (leafPfn leaf * 4096 + 64) 64))

/-- The stored block behind a delta page holds a poisoned line that a read of the page reads (R370, R434). -/
def deltaPoisoned (s : State) (leaf : Word) : Bool := s.poisoned .hbm (leafPfn leaf * 4096) (deltaRead s leaf)

/-- n bytes from an address within a page, as a read of the page gives them: the stored bytes, or on a delta page the
XOR of delta and base; poison raises UE_DATA at the entry (R197, R371, R427, R434). -/
def loadBytes (f : FaultInfo) (leaf va : Word) (n : Nat) : M (List Byte) := do
  let s ← get
  let (p, a) := placeOf leaf va s.cur.cluster
  let reads := s.cur.readsOf f
  if leafDlt leaf then
    let frame := leafPfn leaf * 4096
    if s.poisonedFor reads .hbm frame (deltaRead s leaf) then raiseE f fcData va
    match unpackBlock true (overlay reads 0 frame (deltaBlock s leaf)) with
    | none => raiseE f fcData va
    | some d => do
      let e ← theEff
      let off := va.toNat % 4096
      let b ← baseBytes f (va + e.baseOff) n
      loadTook f .hbm frame (deltaRead s leaf)
      return List.zipWith (· ^^^ ·) ((d.drop off).take n) b
  else
    if s.poisonedFor reads p a n || (leafAp leaf != 0 && s.cur.awayOf f == (leafAp leaf, .poisoned)) then raiseE f fcData va
    loadTook f p a n
    return overlay reads p.code a (s.bytesAt p a n)

/-- Store bytes from an address within a page, each with the mask of its bits that are meant (R193); a posted write that the host does
not accept is lost (R413). -/
def storeMasked (leaf va : Word) (bs masks : List Byte) : M Unit := modify fun s =>
  if s.act.any (fun (e : Entry) => e.answer == .lost) then s else
  let (p, a) := placeOf leaf va s.cur.cluster
  s.write p a bs masks

/-- Store bytes from an address within a page. -/
def storeBytes (leaf va : Word) (bs : List Byte) : M Unit := storeMasked leaf va bs (List.replicate bs.length 0xFF)

/-- The bytes from an address to the end of its page. -/
def roomIn (leaf va : Word) : Nat := pageBytes (leafSz leaf) - va.toNat % pageBytes (leafSz leaf)

/-- n bytes from an address, of which a 6-bit group or a scale may lie partly in the next page (R129, R131). -/
def loadSpan (f : FaultInfo) (leaf va : Word) (n : Nat) : M (List Byte) := do
  let k := roomIn leaf va
  if n ≤ k then loadBytes f leaf va n else
  let a ← loadBytes f leaf va k
  let next := va + BitVec.ofNat 64 k
  let leaf2 ← walkFor f next false
  return a ++ (← loadBytes f leaf2 next (n - k))

/-- The bits of an element of a page. -/
def loadElem (f : FaultInfo) (leaf : Word) (e : Elem) : M Nat := do
  let w := (leafFormat leaf).bits
  return elemBits w e (← loadSpan f leaf e.va (elemBytes w))

/-- The stored bytes at an address within a page, as they lie. -/
def rawBytes (leaf va : Word) (n : Nat) : M (List Byte) := do
  let s ← get
  let (p, a) := placeOf leaf va s.cur.cluster
  return s.bytesAt p a n

/-- Store the bits of an element of a page, leaving the rest of its byte or group (R193); a 6-bit group may lie partly
in the next page. -/
def storeElem (f : FaultInfo) (leaf : Word) (e : Elem) (x : Nat) : M Unit := do
  let w := (leafFormat leaf).bits
  let n := elemBytes w
  let k := roomIn leaf e.va
  let masks := elemSet w e (List.replicate n 0) (2 ^ w - 1)
  if n ≤ k then storeMasked leaf e.va (elemSet w e (← rawBytes leaf e.va n) x) masks else
  let next := e.va + BitVec.ofNat 64 k
  let leaf2 ← walkFor f next true
  let bs := elemSet w e ((← rawBytes leaf e.va k) ++ (← rawBytes leaf2 next (n - k))) x
  storeMasked leaf e.va (bs.take k) (masks.take k)
  storeMasked leaf2 next (bs.drop k) (masks.drop k)

/-- The lines that elements written together cover whole are no longer poisoned (R434). -/
def State.cleanElems (s : State) (cluster w : Nat) (l : List (Word × Elem)) : State :=
  if s.poison.isEmpty then s else
  let masks (e : Elem) : List (Byte × Byte) := (elemSet w e (List.replicate (elemBytes w) 0) (2 ^ w - 1)).map fun m => (0, m)
  let ps := l.foldl (fun ps x => patchBytes ps (placeOf x.1 x.2.va cluster).1.code (placeOf x.1 x.2.va cluster).2 (masks x.2)) []
  { s with poison := s.poison.filter fun k => !(wholeKeys ps).contains k }

/-- The value of an element's scale: 1 when unscaled (R131). A fault of its translation has FLTV at the scale. -/
def loadScale (f : FaultInfo) (leaf : Word) (e : Elem) : M FV := do
  if leafBg leaf = 0 then return FV.one
  let sa := scaleAddr (← theEff).scOff leaf e
  let f := f.role 4
  let l ← walkFor f sa false
  let n := (blockOf (leafBg leaf)).2
  let bs ← loadSpan f l sa n
  return if n = 1 then Fmt.e8m0.dec (leNat bs) else Fmt.fp32.dec (leNat bs)

/-- dec(x, F) of an element with its scale, exact (R132), and invalid when the product makes a NaN. -/
def decElem (f : FaultInfo) (leaf : Word) (e : Elem) : M (FV × Fl) := do
  let x ← loadElem f leaf e
  let v := (leafFormat leaf).dec x
  if leafBg leaf = 0 then return (v, 0)
  let sc ← loadScale f leaf e
  return v.mul sc

/-- The lane a decoded load writes for an element (R132). -/
def laneOf (f : FaultInfo) (leaf : Word) (e : Elem) : M Lane := do
  let fmt := leafFormat leaf
  let x ← loadElem f leaf e
  if leafBg leaf = 0 then
    match fmt.int with
    | some (true, w) => return BitVec.ofInt 32 (signedOf w x)
    | some (false, _) => return BitVec.ofNat 32 x
    | none => return if fmt = .fp32 then BitVec.ofNat 32 x else rneF32 (fmt.dec x)
  else
    let sc ← loadScale f leaf e
    return rneF32 ((fmt.dec x).mul sc).1

/-- Encode a value for an element with its scale under a mode: the bits and the flags (R133, R191). -/
def encFor (f : FaultInfo) (leaf : Word) (e : Elem) (mode : Rm) (r : Nat) (x : FV) : M (Nat × Fl) := do
  if leafBg leaf = 0 then return (leafFormat leaf).enc mode r x
  let sc ← loadScale f leaf e
  let (q, fl) := x.div sc
  let (b, fl2) := (leafFormat leaf).enc mode r q
  return (b, fl ||| fl2)

/-! ## Dispatch (R60, R70, R95) -/

/-- The page of a handle, from its leaf, holds n bytes at an address. -/
def inPage (leaf base va : Word) (n : Nat) : Bool :=
  let p := pageOf leaf base
  decide (p ≤ va.toNat ∧ va.toNat + n ≤ p + pageBytes (leafSz leaf))

/-- The first address of an access outside its handle's page. -/
def Entry.outside (e : Entry) (leaf base : Word) : Option Word :=
  ((e.runs leaf base).find? fun r => !inPage leaf base r.1 r.2).map (·.1)

/-- An entry that writes through its handle: it needs write intent, and STQ entries W = 1 (R94, R95). -/
def Instr.writes (i : Instr) (k : Stream) : Bool :=
  match k, i with
  | .atm, _ => true
  | .stq, .lcln .. => false
  | .stq, .linv .. => false
  | .stq, _ => true
  | _, _ => false

/-- The checks of R95 on a handle with a known translation: bounds, then permits. -/
def handleCheck (raise : Byte → Word → M Unit) (e : Entry) (h : Handle) (leaf : Word) : M Unit := do
  match e.outside leaf h.base with
  | some va => raise fcBound va
  | none => pure ()
  if Instr.writes e.ins e.stream && (!h.write || (e.stream == .stq && !leafW leaf)) then raise fcPerm h.base

/-- What the sequencer records of a handle as it dispatches an entry, and the faults it raises then, with FLTV at the handle's
base (R95, log 53). -/
def recordHandle (e : Entry) (hr : HReg) : M Handle := do
  let h := (← theRegs).rdH hr
  match h.bind with
  | .invalid => raiseTag e.stream h.tag fcRevoked h.base
  | .revoked => raiseTag e.stream h.tag fcRevoked h.base
  | .faulted c =>
    if c = fcBound then raiseTag e.stream h.tag fcBound h.base
    if Instr.writes e.ins e.stream && !h.write then raiseTag e.stream h.tag fcPerm h.base
  | .valid leaf => handleCheck (raiseTag e.stream h.tag) e h leaf
  | .pending => if Instr.writes e.ins e.stream && !h.write then raiseTag e.stream h.tag fcPerm h.base
  return h

/-- Take the scalar operands of an entry in the order of R70. -/
def capture : List SReg → M (List Word)
  | [] => return []
  | r :: rest => do
    let x ← readS r
    return x :: (← capture rest)

/-- Dispatch an instruction of n lanes to the tail of its queue (R60): the port check, the room in the queue, the
operands, the handle, then the entry with its number. -/
def dispatch (k : Stream) (i : Instr) (n : Nat) (check : List Word → M Unit) : M Unit := do
  portCheck k i
  let t ← theTask
  if k.depth ≤ (t.queue k).length then stall
  let caps ← capture i.srcs
  check caps
  let e : Entry := { stream := k, num := t.num k, ins := i, caps, ord := t.ords, mark := t.marked, pfd := t.sys.pfd.toNat }
  let h ← match Instr.handle i with
    | some hr => (do return some (← recordHandle e hr))
    | none => pure none
  modTask fun t =>
    { (t.setQueue k (t.queue k ++ [{ e with h }])).bump k with ords := t.ords + 1, flow := t.flow.after n }

/-! ## Beginning and performing an entry -/

/-- The kind of an atomic, none for other entries (R273). -/
def Instr.kindOf? : Instr → Option Kind
  | .atom _ _ _ _ o _ | .atomnr _ _ _ _ o _ | .fatom _ _ _ o _ | .fatomnr _ _ _ o _ | .cas _ _ _ _ o _ => o.kind
  | .qpush _ _ o _ | .qpop _ o _ | .nbx _ _ o => o.kind
  | .atomk _ _ _ _ _ e | .cask _ _ _ _ e => some (if e.ar then .ar else .rel)
  | .dcdec _ _ => some .rel
  | _ => none

/-- The leaf an entry recorded, when it is known. -/
def Entry.leaf? (e : Entry) : Option Word :=
  match e.h with
  | some h => (match h.bind with | .valid l => some l | _ => none)
  | none => none

/-- The leaf of an entry's page: the one it recorded, else what a walk would find now (R390). -/
def State.entryPage (s : State) (e : Entry) : Option Word :=
  match e.leaf?, e.h with
  | some l, _ => some l
  | none, some h => (match s.xlate s.cur h.base with | .ok (l, _) => some l | .error _ => none)
  | none, none => none

/-- An entry through a page with TSO = 1 (R390). -/
def State.tso (s : State) (e : Entry) : Bool := (s.entryPage e).any leafTso

/-- An entry that may go through a page with TSO = 1: its page has it, or is not there yet (R390, R420). -/
def State.mayTso (s : State) (e : Entry) : Bool := e.h.isSome && (s.entryPage e).all leafTso

/-- The bytes an entry touches, as far as they are known before it performs: a whole page for gather and scatter. -/
def State.touches (s : State) (e : Entry) : List (Word × Nat) :=
  match e.h, s.entryPage e with
  | some h, some l =>
    let r := e.runs l h.base
    if r.isEmpty then [(BitVec.ofNat 64 (pageOf l h.base), pageBytes (leafSz l))] else r
  | _, _ => []

/-- The places of n bytes from an address, none where some page is not there. -/
def State.rangePlaces (s : State) (va : Word) (n : Nat) : Option Runs :=
  match chunks (s.xlate s.cur) s.cur.cluster (n / 4096 + 2) va n with
  | .ok cs => some (cs.map fun c => (c.space.code, c.addr, c.len))
  | .error _ => none

/-- The scales of the elements in n bytes from an address of a page: their first address, and their bytes (R131). -/
def scaleRange (scoff leaf va : Word) (n : Nat) : Word × Nat :=
  let lo := scaleAddr scoff leaf ⟨va, 0⟩
  let hi := scaleAddr scoff leaf ⟨va + BitVec.ofNat 64 (n - 1), if (leafFormat leaf).bits = 4 then 1 else 0⟩
  (lo, (hi - lo).toNat + (blockOf (leafBg leaf)).2)

/-- What an access reads beside its elements: their scales, and on a delta page the stored block and the base bytes (R131, R371). -/
def State.besides (s : State) (leaf : Word) (runs : List (Word × Nat)) : List (Option Runs) :=
  let eff := s.taskEff s.cur
  (if leafBg leaf = 0 then [] else runs.map fun r =>
    let x := scaleRange eff.scOff leaf r.1 r.2
    s.rangePlaces x.1 x.2) ++
  (if !leafDlt leaf then [] else
    some [(0, leafPfn leaf * 4096, 8192)] :: runs.map fun r => s.rangePlaces (r.1 + eff.baseOff) r.2)

/-- The places that an entry may touch, scales and base bytes among them; none where they are not known. -/
def State.mayTouch (s : State) (e : Entry) : Option Runs :=
  match s.entryPage e with
  | none => none
  | some l =>
    let runs := s.touches e
    let l2 := some (placeRuns l s.cur.cluster runs) :: s.besides l runs
    if l2.all (·.isSome) then some (l2.flatMap (·.getD [])) else none

/-- Two entries may touch a byte in common (R390). -/
def State.mayMeet (s : State) (x e : Entry) : Bool :=
  match s.mayTouch x, s.mayTouch e with
  | some a, some b => placesMeet a b
  | _, _ => true

/-- An entry may begin: the marks before it (R98), the acquires and its own release (R273), and the order of pages
with TSO = 1 (R390). -/
def State.mayBegin (s : State) (e : Entry) : Bool :=
  let t := s.cur
  let ldst := t.queue .ldq ++ t.queue .stq
  let earlier (q : List Entry) := q.filter fun x => x.ord < e.ord
  let mem := e.stream == .ldq || e.stream == .stq || e.stream == .atm
  !((e.stream == .ldq || e.stream == .stq) && ldst.any fun x => x.ord < e.mark) &&
  !(mem && (earlier (t.queue .atm)).any fun x =>
      let k := Instr.kindOf? x.ins
      k == some .acq || k == some .ar) &&
  !((Instr.kindOf? e.ins == some .rel || Instr.kindOf? e.ins == some .ar) &&
      !(earlier (ldst ++ t.queue .atm)).isEmpty) &&
  !(e.stream == .stq && s.tso e && (earlier (t.queue .ldq)).any s.mayTso) &&
  !(e.stream == .ldq && s.tso e && (earlier (t.queue .stq)).any fun x => s.mayTso x && s.mayMeet x e)

/-- Change the head entry of a queue. -/
def modHead (k : Stream) (f : Entry → Entry) : M Unit := modTask fun t =>
  match t.queue k with
  | [] => t
  | e :: r => t.setQueue k (f e :: r)

/-- The fault an entry would raise, with its number and buffer tag, code and address still to be filled in. -/
def Entry.info (e : Entry) : FaultInfo := { code := 0, stream := e.stream, seq := e.num, tag := (e.h.map (·.tag)).getD 0 }

/-- The translation an entry performs through: it waits for a pending walk, raises the fault of a failed one, and
walks again after a revocation, and after the service of a page that was missing; the checks of
R95 are made on a walk's result (R95, R402, R420). -/
def entryLeaf (e : Entry) : M Word := do
  match e.h with
  | none => throw (.machine .noContext)
  | some h =>
    match h.bind with
    | .pending => stall
    | .invalid => raiseE e.info fcRevoked h.base
    | .valid leaf => return leaf
    | .faulted c => throw (.fault { e.info with code := c, va := h.base, write := h.write } false)
    | .revoked => again h
where
  /-- A walk at the head, and its checks; the entry records what it found, and then waits for a home outside. -/
  again (h : Handle) : M Word := do
    let leaf ← walkFor e.info h.base h.write
    handleCheck (raiseE e.info) e h leaf
    modHead e.stream fun x => { x with h := some { h with bind := .valid leaf } }
    if leafAp leaf ≠ 0 then pause
    return leaf

/-- The checks of R95 again on an entry whose walk was pending at its dispatch. -/
def recheck (e : Entry) (leaf : Word) : M Unit := do
  match e.h with
  | none => pure ()
  | some h => handleCheck (raiseE e.info) e h leaf

/-- A wait of the acting task ended now: its record, with the setter of the given key (R453, R454). -/
def waitRecord (wkind outcome flag : Nat) (waiter addr : Word) (began : Nat) (setKey : Option Nat) : M Unit :=
  modify fun s =>
    let by_ := if outcome = 0 then setKey.bind (fun i => (s.cur.setter.lookup i).map fun x => (x.1, x.2.1)) else none
    s.waitRec s.cur wkind outcome flag waiter addr began (s.timeOf s.cur.pool.ctx) by_ false

/-- The head entry of a queue begins to wait, unless it waits already: what has happened so far stays (R453). -/
def beginWait {α : Type} (e : Entry) (flag : Nat) (thk : Option (BitVec 8)) : M α := do
  if e.waited = 0 then
    let s ← get
    modHead e.stream fun x => { x with waited := s.timeOf s.cur.pool.ctx + 1, waitFlag := flag, waitThk := thk }
  pause

/-- The key of a token FIFO among the setters (R454). -/
def tokKey (i : Fin 6) : Nat := 32 + i.val

/-- The record of a token wait that ended as the token of its setter came (R453, R454). -/
def State.tokRecord (s : State) (e : Entry) (w : TokenWait) : State :=
  let by_ := s.cur.setter.lookup (tokKey w.fifo)
  s.waitRec s.cur 4 0 (tokenFlag e.stream w.fifo) (srcWord e.stream e.num) 0 w.began
    ((by_.map (·.2.2)).getD (s.timeOf s.cur.pool.ctx)) (by_.map fun x => (x.1, x.2.1)) false

/-- The waits of an entry for its tokens: those that have ended are recorded, those that begin are noted, and the entry goes on
once every token is there (R19, R453). -/
def awaitTokens (e : Entry) (waits : List (Fin 6)) : M Unit := do
  let s ← get
  let t := s.cur
  let here (i : Fin 6) : Bool := t.regs.tok.get i != 0
  let ended := e.tokWaits.filter fun w => here w.fifo
  let fresh := waits.filter fun i => !here i && !(e.tokWaits.any (·.fifo == i))
  let traced := ((s.ctx? t.pool.ctx).bind (·.trace)).isSome
  if traced && !ended.isEmpty then
    set (ended.foldl (fun s w => s.tokRecord e w) s)
  if (traced && !ended.isEmpty) || !fresh.isEmpty then
    modHead e.stream fun x => { x with
      tokWaits := (x.tokWaits.filter fun w => !here w.fifo) ++ fresh.map fun i => ⟨i, s.timeOf t.pool.ctx⟩ }
    pause
  if !waits.all here then stall

/-- Take the tokens of an entry as it begins (R19). -/
def takeTokens (e : Entry) : M Unit := modRegs fun g => (waitFifos e.stream (Instr.tokens e.ins)).foldl Regs.takeTok g

/-- Give an entry's tokens; the giver whose token ends a FIFO's emptiness is noted, with the context time (R19, R454). -/
def Task.giveTokens (t : Task) (e : Entry) (time : Nat) (gives : List (Fin 6)) : Task :=
  gives.foldl (fun t i =>
    { t with
      regs := t.regs.giveTok i
      setter := if t.regs.tok.get i = 0 then (tokKey i, (0, srcWord e.stream e.num, time)) :: t.setter.filter fun x => x.1 != tokKey i
        else t.setter }) t

/-- The tokens that entries of a queue which have begun owe to a FIFO (R19). -/
def Task.owed (t : Task) (k : Stream) (i : Fin 6) : Nat :=
  ((t.queue k).filter fun x => x.under && (giveFifos k (Instr.tokens x.ins)).contains i).length

/-- The entries of s60 that an ATM entry appends (R69, R272). -/
def Instr.appends : Instr → Nat
  | .atom .. | .fatom .. | .cas .. | .qpush .. | .afence => 1
  | .atomk .. | .cask .. | .dcdec .. | .qpop .. => 2
  | .nbx op _ _ => if op = .sum then 1 else 0
  | _ => 0

/-- s60 has no room for what an ATM entry and those before it append (R272). -/
def Task.atmFull (t : Task) (e : Entry) : Bool :=
  let ahead := (t.queue .atm).takeWhile (·.num != e.num)
  decide (portDepth < (t.regs.rdPort 4).length + ((ahead ++ [e]).map fun x => Instr.appends x.ins).sum)

/-- A FIFO that an entry gives a token to has no room for it (R19), or s60 none for what an ATM entry appends (R272). -/
def Task.noRoom (t : Task) (e : Entry) : Bool :=
  (giveFifos e.stream (Instr.tokens e.ins)).any (fun i => decide (fifoDepth ≤ t.regs.tok.get i + t.owed e.stream i)) ||
  (e.stream == .atm && t.atmFull e)

/-- An entry begins: it has its tokens (R19). -/
def begins (e : Entry) : M Unit := do
  if !e.taken then
    takeTokens e
    modHead e.stream fun x => { x with taken := true }

/-- The source of what an entry writes in the scratchpad (R454). -/
def State.landSrc (s : State) (e : Entry) : LandSrc := ⟨s.timeOf s.cur.pool.ctx, srcWord e.stream e.num⟩

/-- Wait until an entry may begin: the order of its queue and of fences, its tokens, and the room for those it gives (R19, R98, R273,
R390). -/
def awaitBegin (e : Entry) : M Unit := do
  if !e.under then
    if !(← get).mayBegin e then stall
    awaitTokens e (waitFifos e.stream (Instr.tokens e.ins))
    if (← theTask).noRoom e then stall

/-- Perform an entry of a queue with format Q or an ATM entry: it begins when it may and its tokens and the room for those it
gives are there, and takes its tokens (R19); it has its effect, leaves the queue and gives its tokens. An entry whose writes are to land
later has begun then, and performs as the rest of them lands (R389). -/
def perform (e : Entry) (body : M Unit) : M Unit := do
  match e.landing with
  | some l => modify fun s => s.landRest (s.landSrc e) l
  | none => do
    awaitBegin e
    body
    if !e.taken then takeTokens e
    match (← get).air with
    | some ps => do
      modHead e.stream fun x => { x with taken := true, landing := some (landingOf ps) }
      modify State.grounded
      pause
    | none => pure ()
  let s ← get
  modTask fun t => (t.setQueue e.stream (t.queue e.stream).tail).giveTokens e (s.timeOf s.cur.pool.ctx)
    (giveFifos e.stream (Instr.tokens e.ins))

/-- What the ended accesses of the acting task on a path have left to land lands: no access of the same path, and none that the alias
filter or a demand orders after them, sees less (R99, R172; log 61). -/
def settlePath (p : Path) : M Unit := do
  if !(← theTask).adrift.isEmpty then
    modify fun s => s.landDrift s.cur (· == p)
    modTask fun t => { t with adrift := t.adrift.filter (·.1 != p) }

/-- Perform the entry at the head of a queue without tokens; where its writes are to land later it performs as the rest of them lands,
those that a choice selects after all others (R237, R389). -/
def performHead (k : Stream) (e : Entry) (last : List Patch → List Granule) (body : M Unit) : M Unit := do
  match e.landing with
  | some l => modify fun s => s.landRest ⟨0, 0⟩ l
  | none => do
    body
    match (← get).air with
    | some ps => do
      modHead k fun x => { x with taken := true, landing := some { landingOf ps with held := last ps } }
      modify State.grounded
      pause
    | none => pure ()
  modTask fun t => t.setQueue k (t.queue k).tail

/-- A queue instruction of n lanes: without an acting entry the sequencer dispatches it; otherwise the acting entry
performs. -/
def queued (k : Stream) (i : Instr) (n : Nat) (body : Entry → M Unit) (s : State) : Host.Outcome State Fault Refusal :=
  match s.act with
  | none => runM (dispatch k i n fun _ => pure ()) s
  | some e => runM (perform e (body e)) s

/-- A return-free entry is dispatched: the next afence covers it (R274). -/
def queuedFree (k : Stream) (i : Instr) (n : Nat) (body : Entry → M Unit) (s : State) : Host.Outcome State Fault Refusal :=
  match s.act with
  | none => runM (do
      dispatch k i n fun _ => pure ()
      modTask fun t => { t with freed := t.freed + 1 }) s
  | some e => runM (perform e (body e)) s

/-- The acting entry has left its queue: used by entries that perform without the rules of format Q. -/
def popHead (k : Stream) : M Unit := modTask fun t => t.setQueue k (t.queue k).tail

/-- The entry begins: it takes its tokens and is sent to an outside home (R19). -/
def sendOut {α : Type} (e : Entry) : M α := do
  if e.taken then stall
  begins e
  pause

/-- Wait for an outside home: local and cluster places go on at once, peer and host places after their answer; a
refused access raises PAGE_PERM (R360, R413), poisoned data UE_DATA (R427); a plain store asks for no data. -/
def needAnswer (e : Entry) (leaf va : Word) : M Unit := do
  if leafAp leaf = 0 then return
  match e.answer with
  | .none => sendOut e
  | .done | .lost => pure ()
  | .refused => raiseE e.info fcPerm va
  | .poisoned => if e.stream = .stq ∧ !(Instr.returnFree e.ins) then pure () else raiseE e.info fcData va

end Sys2Proof.Machine
end

