-- ==== Sys2Proof/Machine/Watch.lean ====
section
/-! DEFINITION. Watchpoints (R439 to R443): what matches, the watch record, precise stops at an entry and imprecise
stops after the match at a home. -/

namespace Sys2Proof.Machine

/-- The kind of an access (R440). -/
inductive AKind
  | read
  | write
  | atomic
  deriving DecidableEq, Repr

/-- The descriptor bit of a kind: KR, KW, KA (R439 Table 3). -/
def AKind.bit : AKind → Nat
  | .read => 35
  | .write => 36
  | .atomic => 37

/-- The WFL bit of a kind (R443 Table 5). -/
def AKind.flag : AKind → Nat
  | .read => 16
  | .write => 4
  | .atomic => 8

/-- Who makes an access: SKIND, SRC, and the context and task register of the task it serves (R440 Table 4, R443). -/
structure Source where
  skind : Nat
  src : Word
  own : Option (Nat × Word) := none
  deriving DecidableEq, Repr

/-- The source of an entry of a task. -/
def Entry.source (t : Task) (e : Entry) : Source := ⟨0, srcWord e.stream e.num, some (t.pool.ctx, t.register)⟩

/-- A match: the context, the watchpoint, its descriptor, the PA of its range and the watched bytes touched. -/
structure Match where
  ctx : Nat
  index : Nat
  desc : BitVec 128
  pa : Nat
  mask : Nat
  deriving DecidableEq, Repr

/-- The watched bytes of a range that runs of physical bytes touch. -/
def touched (desc : BitVec 128) (pa : Nat) (runs : List (Nat × Nat)) : Nat :=
  (List.range 16).foldl (fun m i =>
    if desc.getLsbD (48 + i) && runs.any (fun r => decide (r.1 ≤ pa + i ∧ pa + i < r.1 + r.2)) then m + 2 ^ i else m) 0

/-- The matches of an access on a path to runs of HBM bytes (R440): reads match only on path LD. -/
def State.matches (s : State) (path : Nat) (kind : AKind) (runs : List (Nat × Nat)) : List Match :=
  if kind = .read ∧ path ≠ 0 then [] else
  s.ctxs.flatMap fun c =>
    (List.range c.watch.length).filterMap fun i =>
      let d := c.watch.getD i 0
      match c.watchPa.getD i none with
      | none => none
      | some pa =>
        let mask := touched d pa runs
        if d.getLsbD 38 && d.getLsbD path && d.getLsbD kind.bit && mask != 0 then some ⟨c.number, i, d, pa, mask⟩ else none

/-- The watch record of a match (R443 Table 5). -/
def watchBytes (s : State) (m : Match) (precise stop : Bool) (path : Nat) (kind : AKind) (src : Source) (skid : Nat) : List Byte :=
  let task := match src.own with
    | some (n, r) => if n = m.ctx then r.toNat else 0
    | none => 0
  record 64 [(0, 1, 1), (1, 1, m.index), (2, 1, path),
    (3, 1, (if precise then 1 else 0) + (if stop then 2 else 0) + kind.flag), (4, 2, m.mask), (6, 1, src.skind),
    (8, 8, (m.desc.extractLsb' 64 64).toNat), (0x10, 8, src.src.toNat), (0x18, 4, skid), (0x20, 8, task),
    (0x28, 8, s.timeOf m.ctx)]

/-- A match stops the source's task when the watchpoint has STOP = 1 and belongs to the task's context (R441, R442). -/
def Match.stops (m : Match) (src : Source) : Bool :=
  m.desc.getLsbD 39 && (match src.own with | some (n, _) => n == m.ctx | none => false)

/-- Write the records of an access's matches; the watchpoint and ring index of the first match that stops its task:
all ones when its record was dropped (R428 DSLOT). skid is given the matching chunk's end. -/
def State.watch (s : State) (precise : Bool) (path : Nat) (kind : AKind) (src : Source) (runs : List (Nat × Nat))
    (skid : Nat → Nat) : State × Option (Nat × Word) :=
  (s.matches path kind runs).foldl (fun acc m =>
    let stop := m.stops src
    let (s, slot) := acc.1.trace m.ctx 0 (watchBytes acc.1 m precise stop path kind src (skid (m.pa + 16)))
    let hit : Nat × Word := (m.index, match slot with | some i => BitVec.ofNat 64 i | none => -1)
    (s, if stop && acc.2.isNone then some hit else acc.2)) (s, none)

/-- The HBM bytes among runs of virtual addresses in one page. -/
def hbmRuns (leaf : Word) (cluster : Nat) (runs : List (Word × Nat)) : List (Nat × Nat) :=
  runs.filterMap fun r =>
    match placeOf leaf r.1 cluster with
    | (.hbm, a) => some (a, r.2)
    | _ => none

/-- A precise access is about to happen: its records, and with STOP = 1 the stop before it performs; when the task
resumes, the entry performs once without matching again (R441). -/
def watchEntry (e : Entry) (path : Nat) (kind : AKind) (runs : List (Nat × Nat)) : M Unit := do
  if e.pass then return
  let s ← get
  let (s', hit) := s.watch true path kind (e.source s.cur) runs fun _ => 0
  set s'
  match hit with
  | none => pure ()
  | some (i, slot) => do
    modHead e.stream fun x => { x with pass := true }
    modify fun s => s.debugStop 3 i fcWatch slot 0
    pause

/-- An access has happened at a home: its records, and a stop that is due (R442). -/
def watchHome (path : Nat) (kind : AKind) (src : Source) (runs : List (Nat × Nat)) (skid : Nat → Nat) : M Unit := do
  let s ← get
  let (s', hit) := s.watch false path kind src runs skid
  set s'
  match hit with
  | none => pure ()
  | some h => modTask fun t => { t with flow := { t.flow with due := some (t.flow.due.getD h) } }

/-- Take the watch stop that is due, as a pre-emption would stop the task (R442). -/
def stopDue : M Unit := do
  match (← theTask).flow.due with
  | none => pure ()
  | some (i, slot) => do
    modTask fun t => { t with flow := { t.flow with due := none } }
    modify fun s => s.debugStop 3 i fcWatch slot 0

/-- SKID of a burst engine: the rest of the 256-byte burst after the matching chunk, plus one burst (R440 Table 4). -/
def burstSkid (chunkEnd : Nat) : Nat := (256 - chunkEnd % 256) % 256 + 256

/-- SKID at a Mole: the rest of the 64-byte granule after the matching chunk, plus one granule. -/
def granuleSkid (chunkEnd : Nat) : Nat := (64 - chunkEnd % 64) % 64 + 64

/-- SRC of a Mole: [7:6] die, [4] stack, [3:0] Mole (R443). -/
def moleSrc (pa : Nat) : Word := BitVec.ofNat 64 (dieOf pa * 64 + stackOf pa * 16 + moleOf pa)

end Sys2Proof.Machine
end

