-- ==== Sys2Proof/Machine/Badger.lean ====
section
/-! DEFINITION. The thunk table, index maps, demand and the alias filter (R147, R150 to R155, R157 to R163, R166 to
R168, R172 to R174, R178 to R181). A demand is first laid out as a list of operations, then carried out one by one. -/

namespace Sys2Proof.Machine

/-! ## Thunks -/

/-- A rectangle of rows [r0, r1) and columns [c0, c1). -/
structure Rect where
  r0 : Nat
  r1 : Nat
  c0 : Nat
  c1 : Nat
  deriving DecidableEq, Repr

/-- The thunk of an index. -/
def findThunk (ts : List Thunk) (u : BitVec 8) : Option Thunk := ts.find? (·.idx == u)

/-- Change the thunk of an index. -/
def modThunk (ts : List Thunk) (u : BitVec 8) (f : Thunk → Thunk) : List Thunk := ts.map fun t => if t.idx = u then f t else t

/-- The thunks an entry took by name, as sources or accumulation source. -/
def Thunk.names (t : Thunk) : List (BitVec 8) := (t.srcs ++ t.acc.toList).filterMap (·.name)

/-- Lane 3 of a matrix form. -/
def Instr.mmExt? : Instr → Option MmExt
  | .tmma _ _ _ e => some e
  | .tmmsp _ _ _ _ e => some e
  | .tmmtr _ _ _ _ _ e => some e
  | _ => none

/-- The semaphore a thunk waits on (R159). -/
def Thunk.waitSem (t : Thunk) : Option SemReg := (Instr.mmExt? t.ins).bind (·.wait)

/-- Drop one reference on a thunk: it is freed when it is complete and unreferenced, which drops the references it
held (R152). -/
def release : Nat → List Thunk → BitVec 8 → List Thunk
  | 0, ts, _ => ts
  | fuel + 1, ts, u =>
    let ts := modThunk ts u fun t => { t with refs := t.refs - 1 }
    match findThunk ts u with
    | none => ts
    | some t => if t.complete ∧ t.refs = 0 then t.names.foldl (release fuel) (ts.filter (·.idx != u)) else ts

/-- The greatest number of thunks, and so of names followed one after another (R150). -/
def thunkFuel : Nat := 257

/-- Free a thunk that is complete and unreferenced (R152). -/
def freeThunk (ts : List Thunk) (u : BitVec 8) : List Thunk :=
  match findThunk ts u with
  | none => ts
  | some t => if t.complete ∧ t.refs = 0 then t.names.foldl (release thunkFuel) (ts.filter (·.idx != u)) else ts

/-- Remove a descriptor's name (R175). -/
def Task.dropName (t : Task) (d : TReg) : Task :=
  let x := t.regs.rdT d
  if x.state = 0 then t else
  { t with thunks := release thunkFuel t.thunks x.thk, regs := t.regs.wrT d { x with state := 0, thk := 0 } }

/-- Sub-tiles across a tile (R151). -/
def tilesOf (n : Nat) : Nat := (n + 31) / 32

/-- The number of a sub-tile in the done-bitmap (R151). -/
def Desc.subIndex (d : Desc) (sr sc : Nat) : Nat := sr * tilesOf d.cols.toNat + sc

/-- The number of sub-tiles of a tile. -/
def Desc.subCount (d : Desc) : Nat := tilesOf d.rows.toNat * tilesOf d.cols.toNat

/-- A whole tile. -/
def Desc.whole (d : Desc) : Rect := ⟨0, d.rows.toNat, 0, d.cols.toNat⟩

/-- The rectangle of a sub-tile, clipped to the tile. -/
def Desc.subRect (d : Desc) (sr sc : Nat) : Rect :=
  ⟨32 * sr, min (32 * sr + 32) d.rows.toNat, 32 * sc, min (32 * sc + 32) d.cols.toNat⟩

/-- Numbers from lo to below hi. -/
def span (lo hi : Nat) : List Nat := (List.range (hi - lo)).map (· + lo)

/-- The sub-tiles of a tile that a rectangle meets, ascending row, then column (R167). -/
def Desc.subTiles (d : Desc) (r : Rect) : List (Nat × Nat) :=
  let r1 := min r.r1 d.rows.toNat
  let c1 := min r.c1 d.cols.toNat
  if r1 ≤ r.r0 ∨ c1 ≤ r.c0 then [] else
  (span (r.r0 / 32) (tilesOf r1)).flatMap fun sr => (span (r.c0 / 32) (tilesOf c1)).map fun sc => (sr, sc)

/-- TA of a thunk. -/
def Thunk.ta (t : Thunk) : Bool := ((Instr.mmExt? t.ins).map (·.ta)).getD false
/-- TB of a thunk. -/
def Thunk.tb (t : Thunk) : Bool := ((Instr.mmExt? t.ins).map (·.tb)).getD false
/-- OFF of a view. -/
def Thunk.viewOff (t : Thunk) : Nat :=
  match t.ins with
  | .tview _ _ _ off => off.toNat
  | _ => 0

/-- The rows of a tile that n bytes from an offset on lie in, in all their columns. -/
def Desc.byteRows (d : Desc) (off n : Nat) : Rect :=
  let p := d.pitch.toNat
  if p = 0 then d.whole else ⟨off / p, (off + n + p - 1) / p, 0, d.cols.toNat⟩

/-- The 16-element groups along K of a tmmsp whose A tile is given (R157). -/
def Desc.groups (a : Desc) : Nat := a.cols.toNat / 8

/-- The rectangles of a metadata tile that hold the metadata of rows [r0, r1): the bits of their 32-row blocks and their index
words (R155, R157; log 14). -/
def Thunk.metaRects (t : Thunk) (m : Desc) (r : Rect) : List Rect :=
  let k := ((t.srcs.head?).map (·.desc.groups)).getD 0
  let lo := r.r0 / 32 * k / 8
  [m.byteRows lo ((tilesOf r.r1 * k + 7) / 8 - lo), m.byteRows (m.pitch.toNat + r.r0 * k * 2) ((r.r1 - r.r0) * k * 2)]

/-- The source rectangle of an output rectangle for the codes 0 to 9 (R155 Table 4). -/
def Thunk.mapRect (t : Thunk) (x : Src) (r : Rect) : Rect :=
  match x.map with
  | 0 => r
  | 1 => ⟨r.c0, r.c1, r.r0, r.r1⟩
  | 2 => ⟨r.r0 + t.viewOff, r.r1 + t.viewOff, r.c0, r.c1⟩
  | 3 => ⟨r.r0, r.r1, r.c0 + t.viewOff, r.c1 + t.viewOff⟩
  | 4 => ⟨0, 1, r.c0, r.c1⟩
  | 5 => ⟨r.r0, r.r1, 0, 1⟩
  | 6 => ⟨0, x.desc.rows.toNat, r.c0, r.c1⟩
  | 7 => ⟨r.r0, r.r1, 0, x.desc.cols.toNat⟩
  | 8 => if t.ta then ⟨0, x.desc.rows.toNat, r.r0, r.r1⟩ else ⟨r.r0, r.r1, 0, x.desc.cols.toNat⟩
  | 9 => if t.tb then ⟨r.c0, r.c1, 0, x.desc.cols.toNat⟩ else ⟨0, x.desc.rows.toNat, r.c0, r.c1⟩
  | _ => x.desc.whole

/-- The source rectangles of an output rectangle (R155). -/
def Thunk.mapRects (t : Thunk) (x : Src) (r : Rect) : List Rect := if x.map = 15 then t.metaRects x.desc r else [t.mapRect x r]

/-- DOFF of a tmmtr. -/
def Thunk.doff (t : Thunk) : Option Int :=
  match t.ins with
  | .tmmtr _ _ _ doff _ _ => some doff.toInt
  | _ => none

/-- An element is masked: j > i + DOFF (R158). -/
def Thunk.maskedAt (t : Thunk) (i j : Nat) : Bool :=
  match t.doff with
  | some d => decide ((i : Int) + d < j)
  | none => false

/-- Every element of a rectangle is masked: the one nearest the diagonal is. -/
def Thunk.maskedRect (t : Thunk) (r : Rect) : Bool := t.maskedAt (r.r1 - 1) r.c0

/-! ## The plan of a demand (R167) -/

/-- One step of a demand: take a thunk's lane 3 wait, or compute a sub-tile. -/
inductive DemandOp
  | take (u : BitVec 8)
  | compute (u : BitVec 8) (sr sc : Nat)
  deriving DecidableEq, Repr

/-- Lay out the demand of a rectangle of a thunk: the operations so far, latest first, and the table as they leave it.
A wholly masked sub-tile demands no source (R158). -/
def plan : Nat → BitVec 8 → Rect → List Thunk × List DemandOp → List Thunk × List DemandOp
  | 0, _, _, acc => acc
  | fuel + 1, u, rect, acc =>
    match findThunk acc.1 u with
    | none => acc
    | some t0 =>
      (t0.out.subTiles rect).foldl (fun acc s =>
        match findThunk acc.1 u with
        | none => acc
        | some t =>
          let bit := t.out.subIndex s.1 s.2
          if t.complete || t.done.testBit bit then acc else
          let r := t.out.subRect s.1 s.2
          let acc := if t.waitSem.isSome && !t.waitTaken then
              (modThunk acc.1 u fun x => { x with waitTaken := true }, DemandOp.take u :: acc.2) else acc
          let acc := if t.maskedRect r then acc else
            (t.srcs ++ t.acc.toList).foldl (fun acc x =>
              match x.name with
              | none => acc
              | some v => (t.mapRects x r).foldl (fun acc q => plan fuel v q acc) acc) acc
          (modThunk acc.1 u fun x => { x with done := x.done ||| 2 ^ bit }, DemandOp.compute u s.1 s.2 :: acc.2)) acc

/-- The operations of a demand, in order. -/
def planOf (ts : List Thunk) (u : BitVec 8) (r : Rect) : List DemandOp := (plan thunkFuel u r (ts, [])).2.reverse

/-! ## Elements of a tile (R147) -/

/-- The width of a tile's elements: that of the page of element (0, 0); write for a tile that is written (R420). -/
def tileWidth (f : FaultInfo) (d : Desc) (write : Bool := false) : M Nat := do
  return (leafFormat (← walkFor f d.base write)).bits

/-- Element (i, j) of a tile and its page: a page of another width raises FMT_BAD, an address off its element boundary
ALIGN, a geometry that does not fit its format FMT_BAD (R130, R147). -/
def tileElem (f : FaultInfo) (d : Desc) (w i j : Nat) (write : Bool) : M (Word × Elem) := do
  let e := elemAt w (d.base + BitVec.ofNat 64 i * d.pitch.setWidth 64) j
  let leaf ← walkFor f e.va write
  if (leafFormat leaf).bits ≠ w || !geometryOk leaf then raiseE f fcFmt e.va
  if !elemAligned w e.va then raiseE f fcAlign e.va
  return (leaf, e)

/-- A decoded operand: its exact value, the flags of its scale, and whether it is an unscaled integer (R144). -/
structure Opnd where
  v : FV
  fl : Fl := 0
  int : Bool := false
  va : Word := 0
  deriving DecidableEq, Repr

/-- Read and decode an element of a tile. -/
def readOpnd (f : FaultInfo) (d : Desc) (w i j : Nat) : M Opnd := do
  let (leaf, e) ← tileElem f d w i j false
  let (v, fl) ← decElem f leaf e
  return { v, fl, int := leafBg leaf == 0 && (leafFormat leaf).int.isSome, va := e.va }

/-- A result ready to be written: the page, the element and its bits (R179). -/
structure Put where
  leaf : Word
  elem : Elem
  bits : Nat
  deriving DecidableEq, Repr

/-- The output element for a result: a page without W, or a delta page, raises PAGE_PERM (R179), and so does a second page that a
6-bit group reaches into. -/
def outElem (f : FaultInfo) (d : Desc) (w i j : Nat) : M (Word × Elem) := do
  let f := { f with write := true }.role 3
  let (leaf, e) ← tileElem f d w i j true
  if !leafW leaf || leafDlt leaf then raiseE f fcPerm e.va
  if roomIn leaf e.va < elemBytes w then
    let next := e.va + BitVec.ofNat 64 (roomIn leaf e.va)
    let leaf2 ← walkFor f next true
    if !leafW leaf2 || leafDlt leaf2 then raiseE f fcPerm next
  return (leaf, e)

/-- Encode a value for an output element under rne (R156, R160). -/
def encOut (f : FaultInfo) (d : Desc) (w i j : Nat) (y : FV) : M (Put × Fl) := do
  let (leaf, e) ← outElem f d w i j
  let (b, fl) ← encFor f leaf e .rne 0 y
  return (⟨leaf, e, b⟩, fl)

/-- The MX source of a task (R443: SKIND 2, core). -/
def mxSource (t : Task) : Source := ⟨2, BitVec.ofNat 64 (t.coreOf.getD 0), some (t.pool.ctx, t.register)⟩

/-- Write the results of a sub-tile on path MX: the bytes, the count for tag 0, and the watch at the homes; SKID is what
remains of the sub-tile after the matching chunk. -/
def writePuts (f : FaultInfo) (w : Nat) (ps : List Put) : M Unit := do
  for p in ps do
    storeElem (f.role 3) p.leaf p.elem p.bits
  modify fun s => if s.air.isSome then s else s.cleanElems s.cur.cluster w (ps.map fun p => (p.leaf, p.elem))
  let s ← get
  let t := s.cur
  set (s.countBytes t.pool.die.toNat 0 (s.fnOf t.pool.ctx) ((ps.length * w + 7) / 8))
  let runs := ps.flatMap fun p => hbmRuns p.leaf t.cluster [(p.elem.va, elemBytes w)]
  watchHome 2 .write (mxSource t) runs fun chunkEnd =>
    min 4096 (((runs.filter fun r => decide (chunkEnd ≤ r.1)).length * w + 7) / 8)

/-- Count the bytes of elements read on path MX: tag 0 (R375). -/
def countRead (w n : Nat) : M Unit := modify fun s =>
  s.countBytes s.cur.pool.die.toNat 0 (s.fnOf s.cur.pool.ctx) ((n * w + 7) / 8)

/-! ## Matrix forms (R143, R144, R156 to R158) -/

/-- The exact sum of an accumulator and the terms of one group, rounded once (R143): a NaN term gives a NaN without a
flag, a product 0 × ∞ and opposite infinities give invalid. -/
def groupSum (acc : FV) (terms : List (FV × Fl)) : FV × Fl :=
  let prodFl := orFlags (terms.map (·.2))
  if acc = .nan ∨ terms.any (·.1 == .nan) then (.nan, prodFl) else
  let (t, fl) := terms.foldl (fun x y => let (z, g) := x.1.add y.1; (z, x.2 ||| g)) (acc, (0 : Fl))
  let (c, fl2) := toF32 t
  (f32 c, prodFl ||| (if t = .nan then flInvalid else fl ||| fl2))

/-- An accumulator of a matrix command, on the floating or the integer path (R143, R144). -/
inductive Acc
  | float (x : FV)
  | int (x : Int)
  deriving DecidableEq, Repr

/-- The initial accumulator of an element: −0.0 or 0, or with β = 1 the prior output, with the flag of its scale; a floating or
scaled C on the integer path raises FMT_BAD, and an integer C is read in its own format (R141, R143, R144; log 55). -/
def Acc.start (f : FaultInfo) (intPath : Bool) (c : Option Opnd) : M (Acc × Fl) := do
  match c with
  | none => return (if intPath then .int 0 else .float (.fin true 0 1), 0)
  | some x =>
    if intPath then
      if !x.int then raiseE f fcFmt x.va
      return (.int x.v.toInt, 0)
    else return (.float x.v, x.fl)

/-- Fold one group into an accumulator: the pairs of operands, and whether a +0 term stands among them (R157). A pair of another
path than the accumulator's raises FMT_BAD (R144, log 55). -/
def Acc.group (f : FaultInfo) (acc : Acc) (pairs : List (Opnd × Opnd)) (plusZero : Bool) : M (Acc × Fl) := do
  let zero : List (FV × Fl) := if plusZero then [(.fin false 0 1, 0)] else []
  let bad := pairs.find? fun p => p.1.int != p.2.int || p.1.int != (match acc with | .int _ => true | .float _ => false)
  match bad, acc with
  | some p, _ => raiseE f fcFmt p.1.va
  | none, .int x => return (.int ((pairs.foldl (fun x p => x + p.1.v.toInt * p.2.v.toInt) x) % 2 ^ 32), 0)
  | none, .float x => do
    let (y, fl) := groupSum x (pairs.map (fun p => p.1.v.mul p.2.v) ++ zero)
    return (.float y, fl ||| orFlags (pairs.map fun p => p.1.fl ||| p.2.fl))

/-- An accumulator as the file holds it between groups (R68). -/
def Acc.word : Acc → AccWord
  | .float x => .float (toF32 x).1
  | .int x => .int (BitVec.ofInt 32 x)

/-- The accumulator that a word of the file holds, unless the element has none yet. -/
def AccWord.acc : AccWord → Option Acc
  | .fresh => none
  | .float x => some (.float (f32 x))
  | .int x => some (.int x.toInt)

/-- The value an accumulator holds: the integer path's word is signed. -/
def AccWord.value : AccWord → FV
  | .fresh => .fin true 0 1
  | .float x => f32 x
  | .int x => FV.ofInt x.toInt

/-- FaultInfo with the progress a matrix command has at a row and group. -/
def FaultInfo.at_ (f : FaultInfo) (row group : Nat) : FaultInfo := { f with mx := some (row % 2 ^ 16 * 2 ^ 16 + group % 2 ^ 16) }

/-- Count raw bytes read on path MX: tag 0 (R376). -/
def countRaw (n : Nat) : M Unit := countRead 8 n

/-- A group of tmmsp is live for the 32-row block of a row (R157). -/
def groupLive (f : FaultInfo) (m : Desc) (k16 i g : Nat) : M Bool := do
  let bit := i / 32 * k16 + g
  let va := m.base + BitVec.ofNat 64 (bit / 8)
  let leaf ← walkFor f va false
  let b := (← loadBytes f leaf va 1).getD 0 0
  countRaw 1
  return b.toNat.testBit (bit % 8)

/-- The index word of a row in a live group of tmmsp: the positions along K of its eight stored values (R157). -/
def metaRow (f : FaultInfo) (m : Desc) (k16 i g : Nat) : M (List Nat) := do
  let wa := m.base + m.pitch.setWidth 64 + BitVec.ofNat 64 ((i * k16 + g) * 2)
  if wa.toNat % 2 ≠ 0 then raiseE f fcAlign wa
  let leaf ← walkFor f wa false
  let word := leNat (← loadBytes f leaf wa 2)
  countRaw 2
  let idx := (List.range 8).map fun t => word / 4 ^ t % 4
  if (List.range 4).any fun q => decide (idx.getD (2 * q + 1) 0 ≤ idx.getD (2 * q) 0) then raiseE f fcField wa
  return (List.range 8).map fun t => 16 * g + 4 * (t / 2) + idx.getD t 0

/-- A matrix command: its thunk and rectangle, its operands, their widths, and K. -/
structure MatrixJob where
  t : Thunk
  r : Rect
  a : Desc
  b : Desc
  wa : Nat
  wb : Nat
  wc : Nat
  k : Nat
  deriving DecidableEq, Repr

/-- β of a matrix command (R156). -/
def MatrixJob.beta (x : MatrixJob) : Bool := ((Instr.mmExt? x.t.ins).map (·.acc)).getD false

/-- The metadata tile of a tmmsp. -/
def MatrixJob.sparse (x : MatrixJob) : Option Desc := (x.t.srcs.find? (·.map == 15)).map (·.desc)

/-- The A elements of a row in a group, with the reduction indices they stand at (R156, R157). -/
def MatrixJob.rowOfA (x : MatrixJob) (f : FaultInfo) (i g : Nat) : M (List (Nat × Opnd)) := do
  match x.sparse with
  | none =>
    (span (16 * g) (min (16 * g + 16) x.k)).mapM fun kk => do
      return (kk, ← (if x.t.ta then readOpnd (f.role 0) x.a x.wa kk i else readOpnd (f.role 0) x.a x.wa i kk))
  | some m => do
    let pos ← metaRow (f.role 4) m (x.k / 16) i g
    (List.range 8).mapM fun q => do return (pos.getD q 0, ← readOpnd (f.role 0) x.a x.wa i (8 * g + q))

/-- The B elements at a reduction index, over the columns of the sub-tile. -/
def MatrixJob.rowOfB (x : MatrixJob) (f : FaultInfo) (kk : Nat) : M (List Opnd) := do
  let l ← (span x.r.c0 x.r.c1).mapM fun j =>
    if x.t.tb then readOpnd (f.role 1) x.b x.wb j kk else readOpnd (f.role 1) x.b x.wb kk j
  countRead x.wb l.length
  return l

/-- The accumulators of a row begin (R143, R144); the groups before g were dead, and each added a +0 term (R157). -/
def MatrixJob.begin (x : MatrixJob) (f : FaultInfo) (i g : Nat) (paths : List Bool) : M (List Acc) := do
  if x.beta then countRead x.wc (x.r.c1 - x.r.c0)
  (paths.zip (span x.r.c0 x.r.c1)).mapM fun y => do
    let prior ← if x.beta then (do return some (← readOpnd (f.role 2) x.t.out x.wc i y.2)) else pure none
    let (acc, fl) ← Acc.start f y.1 prior
    let (acc, fl2) ← if g = 0 then pure (acc, 0) else Acc.group f acc [] true
    raiseFlags (fl ||| fl2)
    return acc

/-- One row of one live group: the index word, the row of A, the rows of B that it needs and no earlier row of the group has read,
the prior outputs where the accumulators begin, and the sum. -/
def MatrixJob.rowStep (x : MatrixJob) (f : FaultInfo) (i g : Nat) (bs : List (Nat × List Opnd)) (accs : List AccWord) :
    M (List AccWord × List (Nat × List Opnd)) := do
  let f := f.at_ (i - x.r.r0) g
  let row ← x.rowOfA f i g
  countRead x.wa row.length
  let fresh ← (row.filter fun p => !bs.any (·.1 == p.1)).mapM fun p => do return (p.1, ← x.rowOfB f p.1)
  let bs := bs ++ fresh
  let pairs (j : Nat) := row.map fun p => (p.2, (((bs.lookup p.1).getD []).getD j { v := .nan }))
  let n := x.r.c1 - x.r.c0
  let paths := (List.range n).map fun j => match pairs j with | p :: _ => p.1.int && p.2.int | [] => false
  let start ← if accs.all (· != .fresh) then pure (accs.filterMap AccWord.acc) else x.begin f i g paths
  let out ← (start.zip (List.range n)).mapM fun y => do
    let (acc, fl) ← Acc.group f y.1 (pairs y.2) x.sparse.isSome
    raiseFlags fl
    return acc.word
  return (out, bs)

/-- One row of one dead group: a +0 term for each accumulator that has begun (R157). -/
def deadRow (f : FaultInfo) (accs : List AccWord) : M (List AccWord) :=
  accs.mapM fun a =>
    match a.acc with
    | none => return a
    | some acc => do
      let (acc, fl) ← Acc.group f acc [] true
      raiseFlags fl
      return acc.word

/-- Set the progress of the matrix command. -/
def setMatrix (c : Option MatrixCmd) : M Unit := modTask fun k => { k with mx := c }

/-- One group of a sub-tile, from the row that the command stands at: its accumulators and flags are kept as each row is added
(R142, R181). -/
def MatrixJob.groupStep (x : MatrixJob) (f : FaultInfo) (c : MatrixCmd) : M MatrixCmd := do
  let g := c.group
  let live ← match x.sparse with
    | none => pure true
    | some m => groupLive ((f.at_ c.row g).role 4) m (x.k / 16) x.r.r0 g
  let (c, _) ← (span (x.r.r0 + c.row) x.r.r1).foldlM (fun (p : MatrixCmd × List (Nat × List Opnd)) i => do
    let (c, bs) := p
    let row := i - x.r.r0
    let old := c.accs.getD row []
    let (new, bs) ← if live then x.rowStep f i g bs old else (do return (← deadRow f old, bs))
    let c := { c with row := row + 1, accs := c.accs.set row new }
    setMatrix (some c)
    return (c, bs)) (c, [])
  let c := { c with group := g + 1, row := 0 }
  setMatrix (some c)
  return c

/-- A row whose groups were all dead: its path is that of the pages of element (0, 0) of A and B (R144, R157; log 55). -/
def MatrixJob.deadEnd (x : MatrixJob) (f : FaultInfo) (i : Nat) (accs : List AccWord) : M (List AccWord) := do
  if accs.all (· != .fresh) then return accs
  let int (leaf : Word) : Bool := leafBg leaf == 0 && (leafFormat leaf).int.isSome
  let la ← walkFor (f.role 0) x.a.base false
  let lb ← walkFor (f.role 1) x.b.base false
  if int la != int lb then raiseE f fcFmt x.a.base
  return (← x.begin f i 1 (accs.map fun _ => int la)).map Acc.word

/-- The values of a sub-tile of a matrix form, row by row: groups in ascending order (R143), from where the command stands if it
was stopped in the middle of its reduction (R181). The order in which its operands are translated, and so which of several faults
is raised, is the model's choice (log 55). -/
def matrixValues (f : FaultInfo) (t : Thunk) (r : Rect) : M (List (List FV)) := do
  match t.srcs with
  | p :: q :: _ => do
    let a := p.desc
    let b := q.desc
    let wc ← tileWidth (f.role 3) t.out true
    let wa ← tileWidth (f.role 0) a
    let wb ← tileWidth (f.role 1) b
    let sparse := t.srcs.any (·.map == 15)
    let k := if sparse then 2 * a.cols.toNat else if t.ta then a.rows.toNat else a.cols.toNat
    let x : MatrixJob := ⟨t, r, a, b, wa, wb, wc, k⟩
    let accs := List.replicate (r.r1 - r.r0) (List.replicate (r.c1 - r.c0) AccWord.fresh)
    let new : MatrixCmd := ⟨t.idx, t.seq, r.r0 / 32, r.c0 / 32, 0, 0, accs⟩
    let c := match (← theTask).mx with
      | some c => if c.thk = new.thk ∧ c.seq = new.seq ∧ c.sr = new.sr ∧ c.sc = new.sc then c else new
      | none => new
    let c ← (span c.group ((k + 15) / 16)).foldlM (fun c _ => x.groupStep f c) c
    let accs ← (c.accs.zip (span r.r0 r.r1)).mapM fun y => x.deadEnd (f.at_ (y.2 - r.r0) c.group) y.2 y.1
    setMatrix none
    return accs.map fun row => row.map AccWord.value
  | _ => return []

/-! ## Element forms (R160 to R163) -/

/-- A value of one source element mapped (R160 Table 6). -/
def mapValue (fn : MapFn) (x : FV) : FV × Fl :=
  match fn with
  | .relu =>
    match x with
    | .nan => (.nan, 0)
    | x => (if (FV.fin false 0 1).lt x then x else .fin false 0 1, 0)
  | .neg => (x.negate, 0)
  | .abs =>
    match x with
    | .nan => (.nan, 0)
    | .inf _ => (.inf false, 0)
    | .fin _ n d => (.fin false n d, 0)
  | .sq => x.mul x
  | .cvt => (x, 0)

/-- The sum of a list in groups of sixteen, rounded once a group (R161). -/
def sumGroups : Nat → List Opnd → FV → Fl → FV × Fl
  | 0, _, acc, fl => (acc, fl)
  | fuel + 1, l, acc, fl =>
    if l.isEmpty then (acc, fl) else
    let (x, g) := groupSum acc ((l.take 16).map fun o => (o.v, o.fl))
    sumGroups fuel (l.drop 16) x (fl ||| g)

/-- The reduction of tred over the elements along its axis (R161). -/
def redValue (op : TRedOp) (l : List Opnd) : FV × Fl :=
  let fl := orFlags (l.map (·.fl))
  match op with
  | .sum => sumGroups (l.length + 1) l (.fin true 0 1) 0
  | .max => (((l.map (·.v)).foldl (fun m x => some (match m with | none => x | some y => y.max x)) none).getD .nan, fl)
  | .min => (((l.map (·.v)).foldl (fun m x => some (match m with | none => x | some y => y.min x)) none).getD .nan, fl)

/-- Element (i, j) of a view's source (R155 Table 4). -/
def viewAt (map off i j : Nat) : Nat × Nat :=
  match map with
  | 1 => (j, i)
  | 2 => (i + off, j)
  | 3 => (i, j + off)
  | 4 => (0, j)
  | 5 => (i, 0)
  | _ => (i, j)

/-- The exact value of an output element of an element form (R160). -/
def elementValue (f : FaultInfo) (t : Thunk) (a b : Desc) (wa wb i j : Nat) : M (FV × Fl) := do
  match t.ins with
  | .tadd .. => do
    let x ← readOpnd f a wa i j
    let y ← readOpnd f b wb i j
    let (v, fl) := x.v.add y.v
    return (v, fl ||| x.fl ||| y.fl)
  | .tmul .. => do
    let x ← readOpnd f a wa i j
    let y ← readOpnd f b wb i j
    let (v, fl) := x.v.mul y.v
    return (v, fl ||| x.fl ||| y.fl)
  | .tscal .. => do
    let x ← readOpnd f a wa i j
    let (v, fl) := x.v.mul (f32 t.aux)
    return (v, fl ||| x.fl)
  | .tmap fn _ _ => do
    let x ← readOpnd f a wa i j
    let (v, fl) := mapValue fn x.v
    return (v, fl ||| x.fl)
  | .tred op cols _ _ => do
    let l ← if cols then (List.range a.cols.toNat).mapM fun k => readOpnd f a wa i k
      else (List.range a.rows.toNat).mapM fun k => readOpnd f a wa k j
    return redValue op l
  | _ => do
    let (si, sj) := viewAt ((t.srcs.head?.map (·.map)).getD 0) t.viewOff i j
    let x ← readOpnd f a wa si sj
    return (x.v, x.fl)

/-- Every element of a rectangle, row by row. -/
def Rect.elems (r : Rect) : List (Nat × Nat) := (span r.r0 r.r1).flatMap fun i => (span r.c0 r.c1).map fun j => (i, j)

/-- The number of source elements an element form reads for a sub-tile. -/
def Thunk.readCount (t : Thunk) (r : Rect) (a : Desc) : Nat :=
  let n := (r.r1 - r.r0) * (r.c1 - r.c0)
  match t.ins with
  | .tadd .. => 2 * n
  | .tmul .. => 2 * n
  | .tred _ cols _ _ => n * (if cols then a.cols.toNat else a.rows.toNat)
  | _ => n

/-- The results of a sub-tile: encoded, and checked for their pages, before any of them is written (R179); element by element,
which decides which of several faults is raised, a choice of the model (log 67). -/
def subTilePuts (f : FaultInfo) (t : Thunk) (r : Rect) : M (Nat × List Put) := do
  let wc ← tileWidth (f.role 3) t.out true
  if (Instr.mmExt? t.ins).isSome then
    let vals ← if t.maskedRect r then pure [] else matrixValues f t r
    let ps ← r.elems.mapM fun p => do
      let y := if t.maskedAt p.1 p.2 then f32 t.aux else ((vals.getD (p.1 - r.r0) []).getD (p.2 - r.c0) .nan)
      let (put, fl) ← encOut f t.out wc p.1 p.2 y
      raiseFlags fl
      return put
    return (wc, ps)
  else
    let a := (t.srcs.head?.map (·.desc)).getD t.out
    let b := ((t.srcs.drop 1).head?.map (·.desc)).getD a
    let fs := f.role 2
    let wa ← tileWidth fs a
    let wb ← tileWidth fs b
    countRead wa (t.readCount r a)
    let ps ← r.elems.mapM fun p =>
      match t.ins with
      | .tcpy .. => do
        let (leaf, e) ← tileElem fs a wa p.1 p.2 false
        let x ← loadElem fs leaf e
        let (ol, oe) ← outElem f t.out wc p.1 p.2
        if leafFmt leaf ≠ leafFmt ol ∨ leafBg leaf ≠ leafBg ol then raiseE f fcFmt e.va
        return ⟨ol, oe, x⟩
      | _ => do
        let (y, fl) ← elementValue fs t a b wa wb p.1 p.2
        let (put, fl2) ← encOut f t.out wc p.1 p.2 y
        raiseFlags (fl ||| fl2)
        return put
    return (wc, ps)

/-! ## Carrying out a demand -/

/-- THKREC of a thunk and sub-tile (R114 Table 7, R115). -/
def thkWord (t : Thunk) (sr sc : Nat) : Word :=
  BitVec.ofNat 64 (2 ^ 63 + sc % 128 * 2 ^ 47 + sr % 128 * 2 ^ 40 + t.idx.toNat * 2 ^ 32 + t.seq.toNat)

/-- An operation whose fault keeps what has been done: the walks, the counts, and the flags and accumulators of the groups
completed, which only a page fault goes on from (R142, R178, R181). -/
def keeping {α : Type} (m : M α) : M α :=
  tryCatch m fun x =>
    match x with
    | .fault f _ => do
      if f.code ≠ fcNp ∧ f.mx.isSome then setMatrix none
      throw (.fault f true)
    | x => throw x

/-- A thunk became complete: its descriptors show it, its lane 3 signal is given, and it is freed when nothing names
it (R159, R167). -/
def completeThunk (t : Thunk) : M Unit := do
  modTask fun k =>
    { k with
      regs := { k.regs with td := k.regs.td.map fun d => if d.state = 1 ∧ d.thk = t.idx then { d with state := 2 } else d }
      thunks := modThunk k.thunks t.idx fun x => { x with complete := true } }
  match (Instr.mmExt? t.ins).bind (·.sig) with
  | some sm => signalSem sm 1 0 (srcWord .til t.seq)
  | none => pure ()
  modTask fun k => { k with thunks := freeThunk k.thunks t.idx }

/-- A sem.wait of the sequencer in progress that a semaphore's count satisfies: it is tested before the other waits (R104). -/
def Task.seqTakes (t : Task) (sm : SemReg) : Bool :=
  match t.flow.timed, t.flow.ended with
  | some (.sem _ _ _ x k), none => x == sm && decide (k.toNat ≤ (t.regs.rdSem sm).toNat)
  | _, _ => false

/-- A lane 3 wait in progress is for a semaphore: it is tested before the waits of copy commands (R104). -/
def Task.tilTakes (t : Task) (sm : SemReg) : Bool :=
  Stream.all.any fun k =>
    match t.queue k with
    | e :: _ => e.waited != 0 && (((e.waitThk.bind (findThunk t.thunks)).bind Thunk.waitSem) == some sm)
    | [] => false

/-- Take a thunk's lane 3 semaphore, or wait for it (R159). -/
def takeWait (e : Entry) (u : BitVec 8) : M Unit := do
  let k ← theTask
  match findThunk k.thunks u with
  | none => pure ()
  | some t =>
    match t.waitSem with
    | none => pure ()
    | some sm => do
      if k.seqTakes sm then stall
      if k.regs.rdSem sm = 0 then beginWait e sm.toNat (some u)
      modTask fun k =>
        { k with regs := k.regs.wrSem sm (k.regs.rdSem sm - 1),
                 thunks := modThunk k.thunks u fun x => { x with waitTaken := true } }
      if e.waited ≠ 0 ∧ e.waitThk = some u then
        waitRecord 1 0 sm.toNat (srcWord e.stream e.num) 0 (e.waited - 1) (some sm.toNat)
        modHead e.stream fun x => { x with waited := 0, waitThk := none }

/-- An access of a task's queue or copy engine keeps no value of some granules that it has taken before. -/
def Task.untake (t : Task) (gone : Granule → Bool) : Task :=
  let keep (l : List (Granule × List Byte)) := l.filter fun r => !gone r.1
  let head (k : Stream) (t : Task) : Task :=
    match t.queue k with
    | e :: rest => if e.reads.isEmpty then t else t.setQueue k ({ e with reads := keep e.reads } :: rest)
    | [] => t
  { head .til (head .skq t) with vcq := t.vcq.map fun c => if c.reads.isEmpty then c else { c with reads := keep c.reads } }

/-- What is dispatched after a thunk keeps no value from before it was written (R172, R382). -/
def thunkWrote (ord : Nat) (ps : List Patch) : M Unit := modTask fun t =>
  (ps.foldl (fun t p => t.dropReads (p.space, 16 * p.granule, 16) fun e => decide (ord < e.ord)) t).untake fun g => ps.any (·.on g)

/-- The places of results as patches of whole granules. -/
def putPatches (cluster w : Nat) (ps : List Put) : List Patch :=
  (ps.flatMap fun p => placeRuns p.leaf cluster [(p.elem.va, elemBytes w)]).foldl (fun l r =>
    addPatch (addPatch l ⟨r.1, r.2.1 / 16, 0, 0⟩) ⟨r.1, (r.2.1 + r.2.2 - 1) / 16, 0, 0⟩) []

/-- A sub-tile's results are written: its bit is set, and a thunk with every bit set is complete (R151, R159). -/
def subDone (u : BitVec 8) (sr sc : Nat) : M Unit := do
  match findThunk (← theTask).thunks u with
  | none => pure ()
  | some t => do
    let t := { t with done := t.done ||| 2 ^ t.out.subIndex sr sc }
    modTask fun k => { k with thunks := modThunk k.thunks u fun x => { x with done := t.done } }
    if (List.range t.out.subCount).all t.done.testBit then completeThunk t

/-- The rest of a sub-tile's results lands, and the sub-tile is done (R389). -/
def finishPuts : M Unit := do
  match (← theTask).puts with
  | none => pure ()
  | some p => do
    modify fun s => s.landRest ⟨0, 0⟩ p.landing
    modTask fun t => { t with puts := none }
    subDone p.thk p.sr p.sc

/-- Compute one sub-tile that is not done and write it, after an earlier one has landed; a fault names the origin, with THKREC, and what
stood done stays done (R178). Where its writes are to land later, it is done once they have (R389). -/
def computeSub (e : Entry) (u : BitVec 8) (sr sc : Nat) : M Unit := do
  settlePath .mx
  finishPuts
  let k ← theTask
  match (findThunk k.thunks u).filter fun t => !t.done.testBit (t.out.subIndex sr sc) with
  | none => pure ()
  | some t => do
    let f : FaultInfo := { e.info with thk := thkWord t sr sc, tag := 0, queue := some (k.coreOf.getD 0, 2, e.pfd) }
    keeping (do
      let (w, ps) ← subTilePuts f t (t.out.subRect sr sc)
      writePuts f w ps
      thunkWrote t.ord (putPatches k.cluster w ps))
    match (← get).air with
    | some ps => do
      modTask fun k => { k with puts := some ⟨u, sr, sc, landingOf ps⟩ }
      modify State.grounded
      pause
    | none => subDone u sr sc

/-- A sub-tile whose thunk gives no signal is done before the rest of its results lands, as paths without an xfence may see it (R25;
log 61). -/
def driftPuts : M Unit := do
  match (← theTask).puts with
  | none => pure ()
  | some p => do
    modTask fun t => { t with puts := none, adrift := t.adrift ++ [(.mx, p.landing)] }
    subDone p.thk p.sr p.sc

/-- Carry out one operation of a demand; a watch stop that became due ends the attempt there (R442). -/
def demandOp (e : Entry) (o : DemandOp) : M Unit := do
  match o with
  | .take u => takeWait e u
  | .compute u sr sc => do
    computeSub e u sr sc
    if (← theTask).flow.due.isSome then
      stopDue
      pause

/-- The order in which requests that stand at once are taken (R168). -/
def requestOrder : Stream → Nat
  | .til => 0
  | .ldq => 1
  | .stq => 2
  | .cpy => 3
  | .skq => 4
  | _ => 5

/-- A queue's demand waits for no other any longer. -/
def unwant (k : Stream) : M Unit := modTask fun t => { t with wants := t.wants.filter (· != k) }

/-- Badger takes up the demand of an entry, or the entry waits while it serves another queue's; of those that wait, it takes up the
first in the order TIL, LDQ, STQ, CPY, SKQ, ATM (R168). -/
def takeBadger (e : Entry) : M Unit := do
  let t ← theTask
  if t.badger = some e.stream then return
  if t.badger.isSome || t.wants.any fun k => decide (requestOrder k < requestOrder e.stream) then
    modTask fun t => { t with wants := if t.wants.contains e.stream then t.wants else e.stream :: t.wants }
    pause
  unwant e.stream
  modTask fun t => { t with badger := some e.stream }

/-- Badger has served a demand. -/
def freeBadger : M Unit := modTask fun t => { t with badger := none }

/-- Carry out a demand for an entry (R167, R168). -/
def demand (e : Entry) (u : BitVec 8) (r : Rect) : M Unit := do
  settlePath .mx
  let ops := planOf (← theTask).thunks u r
  if ops.isEmpty then
    unwant e.stream
    return
  takeBadger e
  for o in ops do
    demandOp e o
  freeBadger

/-- Force a thunk completely (R154). -/
def forceAll (e : Entry) (u : BitVec 8) : M Unit := do
  match findThunk (← theTask).thunks u with
  | none => pure ()
  | some t => demand e u t.out.whole

/-! ## Spans and the alias filter (R154, R172, R173) -/

/-- The span of a descriptor: first byte and length (R154). -/
def Desc.span (d : Desc) : Nat × Nat :=
  (d.base.toNat, (d.rows.toNat - 1) * d.pitch.toNat + 4 * d.cols.toNat)

/-- The span of a source: a metadata snapshot's runs to the end of the index array (R157). -/
def Thunk.srcSpan (t : Thunk) (x : Src) : Nat × Nat :=
  if x.map = 15 then
    match t.srcs with
    | a :: _ => (x.desc.base.toNat, x.desc.pitch.toNat + a.desc.rows.toNat * (a.desc.cols.toNat / 8) * 2)
    | [] => (x.desc.base.toNat, 0)
  else x.desc.span

/-- Two runs of bytes meet. -/
def meet (a b : Nat × Nat) : Bool := decide (a.1 < b.1 + b.2 ∧ b.1 < a.1 + a.2)

/-- Row r of an output, as the filter sees it: 4 × COLS bytes (R172). -/
def Desc.rowRun (d : Desc) (r : Nat) : Nat × Nat := (d.base.toNat + r * d.pitch.toNat, 4 * d.cols.toNat)

/-- The sub-tile rows of an output that runs of bytes overlap, ascending. -/
def overlapRows (d : Desc) (runs : List (Nat × Nat)) : List Nat :=
  (List.range (tilesOf d.rows.toNat)).filter fun sr =>
    (span (32 * sr) (min (32 * sr + 32) d.rows.toNat)).any fun r => runs.any fun x => meet x (d.rowRun r)

/-- What an access would force of a pending thunk: all of it, or some sub-tile rows. -/
def Thunk.forcedBy (t : Thunk) (runs : List (Nat × Nat)) : Option (List Rect) :=
  if t.srcs.any fun x => runs.any fun r => meet r (t.srcSpan x) then some [t.out.whole]
  else if runs.any fun r => meet r t.out.span then
    let rows := overlapRows t.out runs
    if rows.isEmpty then none
    else some (rows.map fun sr => ⟨32 * sr, min (32 * sr + 32) t.out.rows.toNat, 0, t.out.cols.toNat⟩)
  else none

/-- The lowest byte of an access within the row ranges of an output, and its row; where the ranges of two rows hold it, the lower
row, which is the model's choice (R173, log 56). -/
def lowestByte (d : Desc) (runs : List (Nat × Nat)) : Nat × Nat :=
  let all := (List.range d.rows.toNat).flatMap fun r =>
    let row := d.rowRun r
    (runs.filter fun x => meet x row).map fun x => (max x.1 row.1, r)
  (all.foldl (fun m x => match m with | none => some x | some y => if x.1 < y.1 then some x else some y) none).getD (0, 0)

/-- The first overlapping sub-tile that ALIAS names (R173). -/
def firstOverlap (t : Thunk) (runs : List (Nat × Nat)) (w : Nat) : Nat × Nat :=
  if t.srcs.any fun x => runs.any fun r => meet r (t.srcSpan x) then (0, 0) else
  let (b, r) := lowestByte t.out runs
  let off := b - (t.out.base.toNat + r * t.out.pitch.toNat)
  let col := if w = 6 then off / 3 * 4 else off * 8 / w
  (r / 32, min (col / 32) (tilesOf t.out.cols.toNat - 1))

/-- The alias filter before an access to runs of bytes performs (R172, R173): under policy 0 the overlapped thunks are
forced, oldest first, and what the access had taken before then it takes again (R382); under policy 1 ALIAS is raised where anything
would be. A thunk appended after the access was dispatched is not looked at (R170). -/
def aliasFilter (e : Entry) (va : Word) (runs : List (Nat × Nat)) : M Unit := do
  settlePath .mx
  let t0 ← theTask
  let pending := t0.thunks.filter fun t => !t.complete && decide (t.ord < e.ord)
  if t0.sys.tmode.getLsbD 1 then
    let forces := pending.any fun t =>
      match t.forcedBy runs with
      | some rs => rs.any fun r => !(planOf t0.thunks t.idx r).isEmpty
      | none => false
    match (if forces then pending.find? fun t => (t.forcedBy runs).isSome else none) with
    | none => pure ()
    | some t => do
      let w := match (← get).xlate t0 t.out.base with
        | .ok (leaf, _) => (leafFormat leaf).bits
        | .error _ => 32
      let (sr, sc) := firstOverlap t runs w
      throw (.fault { e.info with code := fcAlias, va, thk := thkWord t sr sc } false)
  else
    for t in pending do
      match t.forcedBy runs with
      | none => pure ()
      | some rs =>
        for r in rs do
          if !(planOf (← theTask).thunks t.idx r).isEmpty then modHead e.stream fun x => { x with reads := [] }
          demand e t.idx r

/-- Runs of virtual bytes as the filter takes them. -/
def natRuns (l : List (Word × Nat)) : List (Nat × Nat) := l.map fun r => (r.1.toNat, r.2)

end Sys2Proof.Machine
end

