-- ==== Sys2Proof/Machine/Replay.lean ====
section
/-! DEFINITION. Recording and replay (R457 to R460): a record for each event of R457 Table 4, and the order a log
imposes on the events as they recur. -/

namespace Sys2Proof.Machine

/-- The number that names an event's stream among those of its kind: the die, the task register, or the word (R457). Records
of tasks with equal registers carry the same TASK, so the log holds them in one stream (log 54). -/
def Event.stream (e : Event) : Nat :=
  match e.ekind with
  | 0 => e.die
  | 1 => e.die
  | 4 => e.key.toNat
  | _ => e.task.toNat

/-- The event that a logged record describes (R457 Table 5). -/
def eventOf (bs : List Byte) : Event :=
  { ekind := (bs.getD 1 0).toNat, die := (bs.getD 2 0).toNat, key := fieldAt 64 bs 8, value := fieldAt 64 bs 0x10,
    value2 := fieldAt 64 bs 0x18, task := fieldAt 64 bs 0x20 }

/-- The event recurs as the logged one: the same key and, where they are fixed before it happens, the same template,
address or entry (R458, R460). -/
def Event.recurs (e logged : Event) : Bool :=
  e.ekind == logged.ekind && e.stream == logged.stream && e.key == logged.key &&
  (match e.ekind with
    | 0 => e.value == logged.value && e.value2 == logged.value2
    | 1 => e.value == logged.value && e.value2 == logged.value2
    | 4 => e.value2 == logged.value2 && e.task == logged.task
    | _ => true)

/-- An event that may arrive before its turn and is then held: those of a task's own sequencer come in its order (R458, R460). -/
def Event.holdable (e : Event) : Bool := e.ekind != 2 && e.ekind != 3

/-- What the log says of an event: no order imposed, its turn has come (with the record's position), it is held, or it
diverges (with the next record of its stream). -/
inductive Turn
  | free
  | go (i : Nat) (logged : Event)
  | hold
  | diverge (logged : Option Event)
  deriving DecidableEq, Repr

/-- The records of a context's log not yet used, in order, with their positions. -/
def State.replayLog (s : State) (n : Nat) (r : Trace) : List (Nat × Event) :=
  (List.range r.logN).filterMap fun i =>
    if r.used.contains i then none else
    match s.readPresent n (r.logVa + BitVec.ofNat 64 (64 * i)) 64 with
    | some bs => if bs.getD 0 0 = 3 then some (i, eventOf bs) else none
    | none => none

/-- Some record of the log, used or not, belongs to the event's stream. -/
def State.replayHolds (s : State) (n : Nat) (r : Trace) (e : Event) : Bool :=
  (s.replayLog n { r with used := [] }).any fun x => x.2.ekind == e.ekind && x.2.stream == e.stream

/-- The turn of an event under a context's log (R458, R460). -/
def State.turnOf (s : State) (n : Nat) (e : Event) : Turn :=
  match (s.ctx? n).bind (·.trace) with
  | none => .free
  | some r =>
    if !r.mask.getLsbD 3 || !s.replayHolds n r e then .free else
    let rest := (s.replayLog n r).filter fun x => x.2.ekind == e.ekind && x.2.stream == e.stream
    match rest with
    | [] => .diverge none
    | x :: more =>
      if e.recurs x.2 then (if e.ekind = 4 ∧ e.value ≠ x.2.value then .diverge (some x.2) else .go x.1 x.2)
      else if e.holdable && more.any fun y => e.recurs y.2 then .hold
      else .diverge (some x.2)

/-- What tells the recorder's streams apart: their kind, and the die, the word, or the task itself (R457). -/
def Event.counted (e : Event) : Nat :=
  e.ekind * 2 ^ 160 + (match e.ekind with | 2 | 3 => e.self | _ => e.stream)

/-- The position of an event in its stream (R457, INDEX). -/
def State.indexOf (s : State) (n : Nat) (e : Event) : Nat :=
  (((s.ctx? n).bind (·.trace)).bind (·.index.lookup e.counted)).getD 0

/-- The count of an event's stream advanced. -/
def State.countEvent (s : State) (n : Nat) (e : Event) : State :=
  s.modCtx n fun c => { c with trace := c.trace.map fun r => { r with
    index := (e.counted, (r.index.lookup e.counted).getD 0 + 1) :: r.index.filter fun x => x.1 != e.counted } }

/-- An event of a context takes its place in its stream, with a replay record where class bit 2 is set (R457 Table 5). -/
def State.recordEvent (s : State) (n : Nat) (e : Event) : State :=
  match (s.ctx? n).bind (·.trace) with
  | none => s
  | some r =>
    let i := s.indexOf n e
    let s := s.countEvent n e
    if !r.mask.getLsbD 2 then s else
    (s.trace n 2 (record 64 [(0, 1, 3), (1, 1, e.ekind), (2, 1, e.die), (4, 4, i), (8, 8, e.key.toNat),
      (0x10, 8, e.value.toNat), (0x18, 8, e.value2.toNat), (0x20, 8, if e.ekind = 1 then 0 else e.task.toNat),
      (0x28, 8, if e.ekind = 2 then e.value2.toNat else s.timeOf n)])).1

/-- The stream of a task that an event belongs to. -/
def Event.of (e : Event) : Stream :=
  match e.ekind with
  | 1 => .lnk
  | 4 => .atm
  | _ => .seq

/-- The move that brings a held event of a task again: of a flit its acceptance, else that of its sequencer or queue. -/
def State.againMove (s : State) (tid : Nat) (k : Stream) (e : Event) : Move :=
  let flit (i : Instr) : Bool := match i with
    | .linkFlitReceive peer chan _ _ _ => e.key == (peer.setWidth 64 ||| (chan.setWidth 64 <<< 16))
    | _ => false
  match k, s.heldFlits.find? flit with
  | .lnk, some i => .event none i
  | .seq, _ => .sequencer tid
  | k, _ => .queue tid k

/-- The moves that bring the held events of a context again, in the order of the log, those it does not list last: of its launches in
launch queues, and of its tasks (R458, R460). -/
def State.heldInOrder (s : State) (n : Nat) : List Move :=
  let log : List Event := match (s.ctx? n).bind (·.trace) with
    | some r => (s.replayLog n r).map fun x => x.2
    | none => []
  let tasks : List (Event × Move) := s.tasks.flatMap fun t => if t.pool.ctx = n then t.held.map fun h => (h.2, s.againMove t.tid h.1 h.2) else []
  let slots : List (Event × Move) := (s.clq.filter (·.ctx == n)).map fun c =>
    ({ ekind := 0, die := c.die.toNat, key := BitVec.ofNat 64 (c.home + 256 * c.slot), value := 0, value2 := c.va, task := 0 },
     Move.event none (.clqDrain c.home))
  let same (x : Event × Move) (e : Event) : Bool :=
    x.1.recurs e || (x.1.ekind == 0 && e.ekind == 0 && x.1.stream == e.stream && x.1.key == e.key)
  let held := slots ++ tasks
  let listed := log.flatMap fun e => held.filter (same · e)
  ((listed ++ held.filter fun x => !(log.any (same x))).map fun x => x.2).eraseDups

/-- No event of a context is held any more: they happen at once, in their stream's order (R460). -/
def State.releaseHeld (s : State) (n : Nat) : State :=
  { s.mapTasks fun t => if t.pool.ctx = n then { t with held := [] } else t with sched := s.heldInOrder n ++ s.sched }

/-- Write a divergence record and impose no order from then on (R460). -/
def State.diverged (s : State) (n : Nat) (e : Event) (logged : Option Event) : State :=
  let bs := record 64 [(0, 1, 5), (1, 1, e.ekind), (4, 4, s.indexOf n e), (8, 8, e.key.toNat),
    (0x10, 8, (logged.map (·.key.toNat)).getD 0), (0x20, 8, if e.ekind = 1 then 0 else e.task.toNat), (0x28, 8, s.timeOf n)]
  let s := match (s.ctx? n).bind (·.trace) with
    | none => s
    | some r => s.traceRing n r bs
  s.releaseHeld n |>.modCtx n fun c => { c with trace := c.trace.map fun r => { r with mask := r.mask &&& 7 } }

/-- Mark a record of the log used. -/
def State.useRecord (s : State) (n i : Nat) : State :=
  s.modCtx n fun c => { c with trace := c.trace.map fun r => { r with used := i :: r.used } }

/-- An event that concerns a context happens, unless its turn has not come: its record of the log is used, or a divergence ends
the order, and it takes its place in its stream (R457, R458, R460). -/
def State.occur (s : State) (n : Nat) (e : Event) : Option State :=
  match s.turnOf n e with
  | .hold => none
  | .free => some (s.recordEvent n e)
  | .go i _ => some ((s.useRecord n i).recordEvent n e)
  | .diverge l => some ((s.diverged n e l).recordEvent n e)

/-- An event is among those that a task holds: the same kind and key (R458). -/
def Task.holds (t : Task) (e : Event) : Bool := t.held.any fun h => h.2.ekind == e.ekind && h.2.key == e.key

/-- An event that concerns a context happens at the acting task; out of its turn it is held until REPLAY_HOLD_RELEASE frees it
(R458). -/
def happen (n : Nat) (e : Event) : M Unit := do
  let s ← get
  if s.cur.holds e then stall
  match s.occur n e with
  | none => do
    modTask fun t => { t with held := t.held ++ [(e.of, e)] }
    pause
  | some s' => set s'

/-- REPLAY_HOLD_RELEASE: the held events of a stream of the acting task may proceed, each once those the log places before it
have occurred (R458). -/
def execReplayHoldRelease (k : Stream) (s : State) : Host.Outcome State Fault Refusal :=
  .next { s with cur := { s.cur with held := s.cur.held.filter fun x => x.1 != k || s.turnOf s.cur.pool.ctx x.2 == .hold } }

/-- The value a log gives an event whose outcome it fixes: a wait's outcome or rdtime's value (R458). -/
def State.forced (s : State) (n : Nat) (e : Event) : Option Event :=
  match s.turnOf n e with
  | .go _ l => some l
  | _ => none

/-- What tells a task apart from others of the same task register: its pool entry and when it entered it (R457). -/
def Task.self (t : Task) : Nat := t.pool.entered * 2 ^ 16 + t.tid

/-- The event of the end of a timed wait of a task (R457, EKIND 2). -/
def Task.waitEvent (t : Task) (time : Nat) (ok : Bool) : Event :=
  { ekind := 2, die := t.pool.die.toNat, self := t.self, key := srcWord .seq (t.num .seq), value := if ok then 1 else 0,
    value2 := BitVec.ofNat 64 time, task := t.register }

end Sys2Proof.Machine
end

