-- ==== Sys2Proof/Machine/Seq.lean ====
section
/-! DEFINITION. The sequencer's instructions of chapter 5 that act on the task alone, line entry, and the timed
waits (R58 to R62, R80 to R109, R112 to R117, R122 to R124). Task and service instructions are in Tasks.lean. -/

namespace Sys2Proof.Machine

/-! ## Arithmetic (R82, R83) -/

/-- An RRR instruction: s[d] = f(s[a], s[b]). -/
def rrrOp (i : Instr) (d a b : SReg) (f : Word → Word → Word) (s : State) : Host.Outcome State Fault Refusal :=
  seqOp i 1 (do let x ← readS a; let y ← readS b; writeS d (f x y)) s

/-- A one-source instruction: s[d] = f(s[a]). -/
def rrOp (i : Instr) (d a : SReg) (f : Word → Word) (s : State) : Host.Outcome State Fault Refusal :=
  seqOp i 1 (do let x ← readS a; writeS d (f x)) s

/-- Bits [127:64] of the signed product (R82). -/
def mulhV (a b : Word) : Word := (a.signExtend 128 * b.signExtend 128).extractLsb' 64 64

/-- Bits [127:64] of the unsigned product (R82). -/
def mulhuV (a b : Word) : Word := (a.setWidth 128 * b.setWidth 128).extractLsb' 64 64

/-- div: truncating, −1 for a zero divisor (R83). -/
def divV (a b : Word) : Word := if b = 0 then -1 else BitVec.ofInt 64 (a.toInt.tdiv b.toInt)

/-- divu (R83). -/
def divuV (a b : Word) : Word := if b = 0 then -1 else BitVec.ofNat 64 (a.toNat / b.toNat)

/-- rem: the sign follows the dividend (R83). -/
def remV (a b : Word) : Word := if b = 0 then a else BitVec.ofInt 64 (a.toInt.tmod b.toInt)

/-- remu (R83). -/
def remuV (a b : Word) : Word := if b = 0 then a else BitVec.ofNat 64 (a.toNat % b.toNat)

/-- A shift count: b mod 64 (R82). -/
def shiftCount (b : Word) : Nat := b.toNat % 64

/-- The number of leading zero bits; 64 for 0 (R82). -/
def clzV (a : Word) : Word :=
  BitVec.ofNat 64 (((List.range 64).find? fun i => a.getLsbD (63 - i)).getD 64)

/-- The number of trailing zero bits; 64 for 0 (R82). -/
def ctzV (a : Word) : Word := BitVec.ofNat 64 (((List.range 64).find? fun i => a.getLsbD i).getD 64)

/-- The number of one bits (R82). -/
def popcV (a : Word) : Word := BitVec.ofNat 64 ((List.range 64).filter fun i => a.getLsbD i).length

/-- ADD (R82). -/
def execAdd (d a b : SReg) := rrrOp (.add d a b) d a b (· + ·)
/-- SUB (R82). -/
def execSub (d a b : SReg) := rrrOp (.sub d a b) d a b (· - ·)
/-- MUL (R82). -/
def execMul (d a b : SReg) := rrrOp (.mul d a b) d a b (· * ·)
/-- MULH (R82). -/
def execMulh (d a b : SReg) := rrrOp (.mulh d a b) d a b mulhV
/-- MULHU (R82). -/
def execMulhu (d a b : SReg) := rrrOp (.mulhu d a b) d a b mulhuV
/-- DIV (R83). -/
def execDiv (d a b : SReg) := rrrOp (.div d a b) d a b divV
/-- DIVU (R83). -/
def execDivu (d a b : SReg) := rrrOp (.divu d a b) d a b divuV
/-- REM (R83). -/
def execRem (d a b : SReg) := rrrOp (.rem d a b) d a b remV
/-- REMU (R83). -/
def execRemu (d a b : SReg) := rrrOp (.remu d a b) d a b remuV
/-- AND (R82). -/
def execAnd (d a b : SReg) := rrrOp (.and d a b) d a b (· &&& ·)
/-- OR (R82). -/
def execOr (d a b : SReg) := rrrOp (.or d a b) d a b (· ||| ·)
/-- XOR (R82). -/
def execXor (d a b : SReg) := rrrOp (.xor d a b) d a b (· ^^^ ·)
/-- ANDN (R82). -/
def execAndn (d a b : SReg) := rrrOp (.andn d a b) d a b fun x y => x &&& ~~~y
/-- SHL (R82). -/
def execShl (d a b : SReg) := rrrOp (.shl d a b) d a b fun x y => x <<< shiftCount y
/-- SHR (R82). -/
def execShr (d a b : SReg) := rrrOp (.shr d a b) d a b fun x y => x >>> shiftCount y
/-- SRA (R82). -/
def execSra (d a b : SReg) := rrrOp (.sra d a b) d a b fun x y => x.sshiftRight (shiftCount y)
/-- MIN (R82). -/
def execMin (d a b : SReg) := rrrOp (.min d a b) d a b fun x y => if x.slt y then x else y
/-- MAX (R82). -/
def execMax (d a b : SReg) := rrrOp (.max d a b) d a b fun x y => if x.slt y then y else x
/-- MINU (R82). -/
def execMinu (d a b : SReg) := rrrOp (.minu d a b) d a b fun x y => if x.ult y then x else y
/-- MAXU (R82). -/
def execMaxu (d a b : SReg) := rrrOp (.maxu d a b) d a b fun x y => if x.ult y then y else x
/-- CLZ (R82). -/
def execClz (d a : SReg) := rrOp (.clz d a) d a clzV
/-- CTZ (R82). -/
def execCtz (d a : SReg) := rrOp (.ctz d a) d a ctzV
/-- POPC (R82). -/
def execPopc (d a : SReg) := rrOp (.popc d a) d a popcV

/-- NOP (R71). -/
def execNop := seqOp .nop 1 (pure ())

/-! ## Compare, select, address and bit fields (R84, R85) -/

/-- CMP_CC (R84). -/
def execCmpCc (cc : Cc) (d : PReg) (a b : SReg) :=
  seqOp (.cmpCc cc d a b) 1 (do let x ← readS a; let y ← readS b; modRegs fun g => g.wrP d (condHolds cc x y))
/-- SEL (R84). -/
def execSel (d : SReg) (p : PReg) (a b : SReg) :=
  seqOp (.sel d p a b) 1 (do let x ← readS a; let y ← readS b; writeS d (if (← theRegs).rdP p then x else y))
/-- LEA (R84). -/
def execLea (d a b : SReg) (k : BitVec 3) := rrrOp (.lea d a b k) d a b fun x y => x + y <<< k.toNat

/-- 2^len − 1, with a length field of 0 meaning 64 (R85). -/
def fieldMask (len : BitVec 6) : Word := if len = 0 then -1 else BitVec.ofNat 64 (2 ^ len.toNat - 1)

/-- The result of bfx (R85). -/
def bfxV (a : Word) (pos len : BitVec 6) : Word := (a >>> pos.toNat) &&& fieldMask len

/-- The result of bfi: the field of a placed in d (R85). -/
def bfiV (d a : Word) (pos len : BitVec 6) : Word :=
  let m := fieldMask len <<< pos.toNat
  (d &&& ~~~m) ||| (((a &&& fieldMask len) <<< pos.toNat) &&& m)

/-- BFX (R85). -/
def execBfx (d a : SReg) (pos len : BitVec 6) := rrOp (.bfx d a pos len) d a (bfxV · pos len)
/-- BFI (R85). -/
def execBfi (d a : SReg) (pos len : BitVec 6) := rrrOp (.bfi d a pos len) d d a (bfiV · · pos len)

/-! ## Immediates (R86 to R88) -/

/-- ADDI (R86). -/
def execAddi (d a : SReg) (imm : BitVec 12) := rrOp (.addi d a imm) d a (· + sext 12 imm)
/-- ANDI (R86). -/
def execAndi (d a : SReg) (imm : BitVec 12) := rrOp (.andi d a imm) d a (· &&& sext 12 imm)
/-- ORI (R86). -/
def execOri (d a : SReg) (imm : BitVec 12) := rrOp (.ori d a imm) d a (· ||| sext 12 imm)
/-- XORI (R86). -/
def execXori (d a : SReg) (imm : BitVec 12) := rrOp (.xori d a imm) d a (· ^^^ sext 12 imm)
/-- SHLI (R86). -/
def execShli (d a : SReg) (k : BitVec 6) := rrOp (.shli d a k) d a (· <<< k.toNat)
/-- SHRI (R86). -/
def execShri (d a : SReg) (k : BitVec 6) := rrOp (.shri d a k) d a (· >>> k.toNat)
/-- SRAI (R86). -/
def execSrai (d a : SReg) (k : BitVec 6) := rrOp (.srai d a k) d a (·.sshiftRight k.toNat)
/-- CMPI_CC (R87). -/
def execCmpiCc (cc : Cc) (d : PReg) (a : SReg) (imm : BitVec 12) :=
  seqOp (.cmpiCc cc d a imm) 1 (do let x ← readS a; modRegs fun g => g.wrP d (condHolds cc x (sext 12 imm)))
/-- MOVI (R88). -/
def execMovi (d : SReg) (imm : BitVec 32) := seqOp (.movi d imm) 2 (writeS d (sext 32 imm))
/-- MOVHI (R88). -/
def execMovhi (d : SReg) (imm : BitVec 32) :=
  seqOp (.movhi d imm) 2 (do let x ← readS d; writeS d (imm ++ x.extractLsb' 0 32))

/-! ## Control transfers (R58, R89 to R92) -/

/-- A target line: the transfer's own line plus 32 times a signed offset (R58). -/
def lineAt (line : Word) {n : Nat} (off : BitVec n) : Word := line + 32 * sext n off

/-- A SEQ control transfer: the port check and what it does. -/
def transferOp (i : Instr) (body : M Unit) (s : State) : Host.Outcome State Fault Refusal :=
  runM (do portCheck .seq i; body) s

/-- BR: taken when p XOR n is 1 (R89). -/
def execBr (p : PReg) (n : Bool) (off : BitVec 20) :=
  transferOp (.br p n off) (do
    let t ← theTask
    if t.regs.rdP p != n then transferTo (lineAt t.flow.line off) else handled 1)
/-- CALL: s1 = the own line + 32 when it is taken (R90). -/
def execCall (p : PReg) (n : Bool) (off : BitVec 20) :=
  transferOp (.call p n off) (do
    let t ← theTask
    if t.regs.rdP p != n then
      writeS 1 (t.flow.line + 32)
      transferTo (lineAt t.flow.line off)
    else handled 1)
/-- RET: a target with nonzero bits [4:0] raises ALIGN (R91), with FLTV at the lane being handled, which is the model's choice
(log 53). -/
def execRet :=
  transferOp .ret (do
    let x ← readS 1
    if x.extractLsb' 0 5 ≠ 0 then raiseAt .seq fcAlign (← laneVa)
    transferTo x)
/-- JMP (R91); ALIGN has FLTV as for ret (log 53). -/
def execJmp (d a : SReg) :=
  transferOp (.jmp d a) (do
    let t ← theTask
    let x ← readS a
    if x.extractLsb' 0 5 ≠ 0 then raiseAt .seq fcAlign (← laneVa)
    writeS d (t.flow.line + 32)
    transferTo x)
/-- LOOP: the decremented count decides (R92). -/
def execLoop (a : SReg) (off : BitVec 18) :=
  transferOp (.loop a off) (do
    let t ← theTask
    let x ← readS a
    writeS a (x - 1)
    if x - 1 ≠ 0 then transferTo (lineAt t.flow.line off) else handled 1)

/-! ## Translation and handles (R93 to R96, R415) -/

/-- XLT: valid when the core's cache or the die TLB holds the address, faulted with HBOUND for a VA of no page, else pending with a
walk requested (R93, R94, R415). A window of cluster SRAM is in neither (R359, log 48). -/
def execXlt (h : HReg) (a : SReg) (tag : BitVec 8) (fetch write : Bool) :=
  seqOp (.xlt h a tag fetch write) 1 (do
    let va ← readS a
    let s ← get
    let t := s.cur
    let n := t.pool.ctx
    let core := t.coreOf.getD 0
    let bound (b : Bind) : M Unit := modRegs fun g => g.wrH h ({ bind := b, base := va, write, fetch, tag } : Handle)
    let walk (serial : Nat) : M Unit := do
      set { s with walks := s.walks ++ [({ ctx := n, va, core, write, fetch, serial } : Walk)] }
      bound .pending
    if !canonical va then bound (.faulted fcBound)
    else
      match s.windowOf t va with
      | some l => walk l.serial
      | none =>
        match (cachedLeaf s.coreTc core n va).orElse fun _ => cachedLeaf s.tlb t.pool.die.toNat n va with
        | some leaf =>
          set { s with coreTc := install coreEntries s.coreTc core n va leaf
                       fetchTc := if fetch then install fetchEntries s.fetchTc core n va leaf else s.fetchTc }
          bound (.valid leaf)
        | none => walk 0)

/-- A task's pending handle waits for a walk. -/
def State.awaitsWalk (s : State) (w : Walk) (t : Task) (h : Handle) : Bool :=
  h.bind == .pending && t.pool.die.toNat == w.core / 48 && t.pool.ctx == w.ctx &&
    s.walkKey { w with va := h.base, serial := ((s.windowOf t h.base).map (·.serial)).getD 0 } == s.walkKey w

/-- A handle that a test selects takes a walk's result; others stay (R93, R95). -/
def Handle.settle (sel : Handle → Bool) (b : Bind) (h : Handle) : Handle := if sel h then { h with bind := b } else h

/-- A task's handles and entries after a walk. -/
def Task.settle (sel : Handle → Bool) (b : Bind) (t : Task) : Task :=
  { t with
    regs := { t.regs with h := t.regs.h.map (Handle.settle sel b) }
    queues := t.queues.map fun q => q.map fun e => { e with h := e.h.map (Handle.settle sel b) } }

/-- The walk of a request is among those that its die performs: the earliest requested (R415). -/
def State.walking (s : State) (w : Walk) : Bool :=
  ((s.walkKeys (w.core / 48)).take walksAtOnce).contains (s.walkKey w)

/-- What a walk finds: the leaf, and where it stands in a table (R359, R410). -/
def State.walkResult (s : State) (w : Walk) : Except Byte (Word × Option Nat) :=
  if w.serial = 0 then (s.lookup w.ctx w.va).map fun x => (x.1, some x.2) else
  match s.launches.find? fun l => l.serial == w.serial && l.inWindow w.va with
  | some l => .ok (l.windowLeaf w.va, none)
  | none => .error fcNp

/-- WALK_COMPLETE: the n-th walk ends: a valid leaf is installed with A, and D for a write, set, or the walk ends in a
fault; requests for one page of one context on a die share it. A page in transit keeps its walks waiting (R414, R415, R422). -/
def execWalkComplete (n : Nat) (s : State) : Host.Outcome State Fault Refusal :=
  match s.walks[n]? with
  | none => .next s
  | some w =>
    if (w.serial == 0 && s.inTransit w.ctx w.va) || !s.walking w then .next s else
    let key := s.walkKey w
    let same := s.walks.filter fun x => s.walkKey x == key
    let rest := s.walks.filter fun x => s.walkKey x != key
    let ends (u : State) (b : Bind) : State := u.mapTasks fun t => t.settle (s.awaitsWalk w t) b
    match s.walkResult w with
    | .error c => .next (ends { s with walks := rest } (.faulted c))
    | .ok (leaf, none) => .next (ends { s with walks := rest } (.valid leaf))
    | .ok (leaf, some at_) =>
      let write := same.any (·.write)
      let u := same.foldl (fun u x => u.installWalk (x.core / 48) (if x.engine then none else some x.core) x.fetch x.ctx x.va (markedLeaf leaf write))
        { s.touch leaf at_ write with walks := rest }
      .next (ends u (.valid (markedLeaf leaf write)))

/-- HINV (R96). -/
def execHinv (h : HReg) := seqOp (.hinv h) 1 (modRegs fun g => g.wrH h { g.rdH h with bind := .invalid })

/-- The result of hstat (R96 Table 4). -/
def hstatV (h : Handle) : Word :=
  match h.bind with
  | .invalid => 0
  | .pending => 1 <<< 24
  | .valid leaf => (2 <<< 24) ||| (leaf.extractLsb' 0 24).setWidth 64
  | .revoked => 3 <<< 24
  | .faulted c => (c.setWidth 64 <<< 32) ||| (4 <<< 24)

/-- HSTAT (R96). -/
def execHstat (d : SReg) (h : HReg) := seqOp (.hstat d h) 1 (do writeS d (hstatV ((← theRegs).rdH h)))

/-! ## Waiting, marks and fences (R97 to R100) -/

/-- Commands of the cp class: CPY entries and commands not yet completed (R97, R299). -/
def Task.copiesLeft (t : Task) : Nat := (t.queue .cpy).length + (t.vcq.filter (!·.complete)).length

/-- A class is at or below its limit; 63 ignores it (R97). -/
def within (limit : BitVec 6) (n : Nat) : Bool := limit == 63 || decide (n ≤ limit.toNat)

/-- WAIT (R97). -/
def execWait (ld st cp ti : BitVec 6) :=
  seqOp (.wait ld st cp ti) 1 (do
    let t ← theTask
    if !(within ld (t.queue .ldq).length && within st (t.queue .stq).length && within cp t.copiesLeft &&
        within ti (t.queue .til).length) then stall)

/-- MARK (R98). -/
def execMark := seqOp .mark 1 (modTask fun t => { t with marked := t.ords })

/-- An entry on path NB (R287). -/
def Instr.nearBank : Instr → Bool
  | .nbx .. => true
  | _ => false

/-- Every access on a path made by an entry already dispatched has performed (R99); nbx reads its block on path AT (R378). -/
def Task.pathClear (t : Task) (p : Path) : Bool :=
  let clear (k : Stream) := (t.queue k).isEmpty
  t.adrift.all (·.1 != p) && match p with
  | .ld => clear .ldq
  | .st => clear .stq
  | .mx => clear .til && clear .ldq && clear .stq && clear .skq && clear .cpy && t.vcq.all (·.checked) &&
      !(t.queue .atm).any fun e => Instr.nearBank e.ins
  | .sk => clear .skq
  | .cp => t.copiesLeft == 0
  | .lk => clear .lnk
  | .at => clear .atm
  | .nb => !(t.queue .atm).any fun e => Instr.nearBank e.ins

/-- XFENCE: the sequencer is held until path X is clear, so every later access on Y observes it (R99). What an access of an engine
has left to land counts until it has landed; other data is seen on every path once it has performed, a choice of the model (log 61). -/
def execXfence (x y : Path) := seqOp (.xfence x y) 1 (do if !(← theTask).pathClear x then stall)

/-- FENCE: acq waits for LD and AT, rel and ar for LD, ST and AT (R100). The scope asks nothing more of a machine in
which a performed write is in its home, where every observer reads it. -/
def execFence (kind : Kind) (scope : Scope) :=
  seqOp (.fence kind scope) 1 (do
    let t ← theTask
    let ok := (t.queue .ldq).isEmpty && (t.queue .atm).isEmpty && (kind == .acq || (t.queue .stq).isEmpty)
    if !ok then stall)

/-! ## Scratchpad words (R349, R353) -/

/-- n bytes from an address lie in the task's scratchpad pages (R349). -/
def inScratch (t : Task) (a : Word) (n : Nat) : Bool :=
  decide (0x10000 ≤ a.toNat ∧ a.toNat + n ≤ 0x10000 + 4096 * t.pool.spp)

/-- The pages a scratchpad access touches are filled by it (R353). -/
def fillFor (a : Word) (n : Nat) : M Unit := modify fun s => { s with cur := s.cur.fillFor s.backing a n }

/-- SCRATCHPAD_PAGE_FILL: the page's bytes arrive from backing (R353). -/
def execScratchpadPageFill (page : BitVec 5) (s : State) : Host.Outcome State Fault Refusal :=
  if s.cur.coreOf.isSome ∧ page.toNat < s.cur.pool.spp then
    .next { s with cur := s.cur.fillPage s.backing page.toNat }
  else .next s

/-! ## Timed waits (R101 to R106) -/

/-- T of lane 2: 0xFFFF_FFFF means no timeout (R101). -/
def timeoutOf (t : BitVec 32) : Option Nat := if t = 0xFFFFFFFF then none else some t.toNat

/-- The condition of a timed wait holds now. -/
def Timed.holds (t : Task) : Timed → Bool
  | .word _ _ _ a cc want => condHolds cc (BitVec.ofNat 64 (Mem.num t.scratch a.toNat 8)) want
  | .sem _ _ _ sm k => decide (k.toNat ≤ (t.regs.rdSem sm).toNat)

/-- The register a timed wait writes. -/
def Timed.dest : Timed → SReg
  | .word _ _ d _ _ _ => d
  | .sem _ _ d _ _ => d

/-- The remaining timeout. -/
def Timed.left : Timed → Option Nat
  | .word l _ _ _ _ _ => l
  | .sem l _ _ _ _ => l

/-- The context time a timed wait began. -/
def Timed.began : Timed → Nat
  | .word _ b _ _ _ _ => b
  | .sem _ b _ _ _ => b

/-- The key among the setters of what a timed wait waits for: a semaphore's number, or 64 for the awaited word (R454). -/
def Timed.key : Timed → Nat
  | .word .. => 64
  | .sem _ _ _ sm _ => sm.toNat

/-- A timed wait is satisfied: a semaphore wait subtracts its k, and the setter is noted (R101, R103, R454). -/
def Task.meet (t : Task) (w : Timed) (time : Nat) : Task :=
  { t with
    regs := match w with
      | .word .. => t.regs
      | .sem _ _ _ sm k => t.regs.wrSem sm (t.regs.rdSem sm - k.setWidth 32)
    flow := { t.flow with timed := some w, ended := some ⟨true, time, (t.setter.lookup w.key).map fun x => (x.1, x.2.1)⟩ } }

/-- A timed wait passes its timeout at a context time. -/
def Task.miss (t : Task) (w : Timed) (time : Nat) : Task :=
  { t with flow := { t.flow with timed := some w, ended := some ⟨false, time, none⟩ } }

/-- A timed wait with a timeout that has just ended is an event of its task's stream (R457, EKIND 2; a log holds none of them). -/
def State.recordEnd (s : State) (t : Task) : State :=
  match t.flow.timed, t.flow.ended with
  | some w, some x => if w.left.isSome then (s.occur t.pool.ctx (t.waitEvent x.time x.ok)).getD s else s
  | _, _ => s

/-- The sequencer goes on past a timed wait that has ended, with its wait record and its result (R101, R103, R453). -/
def endTimed : M Unit := do
  let s ← get
  let t := s.cur
  match t.flow.timed, t.flow.ended with
  | some w, some x => do
    let seq := srcWord .seq (t.num .seq)
    let (kind, flag, addr) : Nat × Nat × Word := match w with
      | .word _ _ _ a _ _ => (3, 0, a)
      | .sem _ _ _ sm _ => (0, sm.toNat, 0)
    modify fun s => s.waitRec t kind (if x.ok then 0 else 1) flag seq addr w.began x.time x.by_ false
    writeS w.dest (if x.ok then 1 else 0)
    modTask fun t => { t with flow := { t.flow with timed := none, ended := none } }
    handled 2
  | _, _ => pure ()

/-- What a log forces on a timed wait of a task: satisfied, timed out, or nothing (R458, EKIND 2). -/
def State.forcedWait (s : State) (t : Task) : Option Bool :=
  (s.forced t.pool.ctx (t.waitEvent 0 true)).map fun l => l.value == 1

/-- A timed wait may end satisfied: its condition holds, and no log makes it time out (R458). -/
def Timed.satisfied (s : State) (t : Task) (w : Timed) : Bool := w.holds t && s.forcedWait t != some false

/-- A timed wait may time out: its timeout has run out and its condition does not hold, or a log says which (R458). -/
def Timed.expired (s : State) (t : Task) (w : Timed) : Bool :=
  w.left == some 0 && (if s.forcedWait t = some false then true else !w.holds t && s.forcedWait t != some true)

/-- Begin a timed wait: it is examined in the cycle it is handled (R101). -/
def beginTimed (w : Timed) : M Unit := do
  let s ← get
  let time := s.timeOf s.cur.pool.ctx
  if w.satisfied s s.cur then
    modTask (·.meet w time)
    modify fun s => s.recordEnd s.cur
    endTimed
  else if w.expired s s.cur then
    modTask (·.miss w time)
    modify fun s => s.recordEnd s.cur
    endTimed
  else modTask fun t => { t with flow := { t.flow with timed := some w, ended := none } }

/-- WAITA (R101). While its wait is in progress the lane is held; a write of its word that lands meanwhile is its setter (R454). -/
def execWaita (d a b : SReg) (cc : Cc) (timeout : BitVec 32) (s : State) : Host.Outcome State Fault Refusal :=
  runM (do
    portCheck .seq (.waita d a b cc timeout)
    let t ← theTask
    if t.flow.timed.isSome then stall
    let addr ← readS a
    let want ← readS b
    if addr.toNat % 8 ≠ 0 then raiseAt .seq fcAlign addr
    if !inScratch t addr 8 then raiseAt .seq fcBound addr
    fillFor addr 8
    modTask fun t => { t with setter := t.setter.filter fun x => x.1 != 64 }
    beginTimed (.word (timeoutOf timeout) (s.timeOf t.pool.ctx) d addr cc want)) s

/-- End the timed wait in progress if it is of the given kind and has ended so, or ends so in this cycle. -/
def timedEvent (word ok : Bool) (s : State) : Host.Outcome State Fault Refusal :=
  let t := s.cur
  match t.flow.timed with
  | none => .next s
  | some w =>
    let kind := match w with
      | .word .. => true
      | .sem .. => false
    let time := s.timeOf t.pool.ctx
    if kind != word || !t.isRunning then .next s else
    match t.flow.ended with
    | some x => if x.ok == ok then runM endTimed s else .next s
    | none =>
      if ok && w.satisfied s t then runM endTimed { s.recordEnd (t.meet w time) with cur := t.meet w time }
      else if !ok && w.expired s t then runM endTimed { s.recordEnd (t.miss w time) with cur := t.miss w time }
      else .next s

/-- WAITA_SATISFIED (R101). -/
def execWaitaSatisfied := timedEvent true true
/-- WAITA_TIMEOUT (R101). -/
def execWaitaTimeout := timedEvent true false

/-- SEM_SIG (R103). -/
def execSemSig (sm : SemReg) (k : BitVec 6) :=
  seqOp (.semSig sm k) 1 (do signalSem sm k.toNat 0 (srcWord .seq ((← theTask).num .seq)))

/-- SEM_WAIT (R103). -/
def execSemWait (d : SReg) (sm : SemReg) (k : BitVec 6) (timeout : BitVec 32) (s : State) : Host.Outcome State Fault Refusal :=
  runM (do
    portCheck .seq (.semWait d sm k timeout)
    if (← theTask).flow.timed.isSome then stall
    beginTimed (.sem (timeoutOf timeout) (s.timeOf s.cur.pool.ctx) d sm k)) s

/-- SEM_WAIT_SATISFIED (R103). -/
def execSemWaitSatisfied := timedEvent false true
/-- SEM_WAIT_TIMEOUT (R103). -/
def execSemWaitTimeout := timedEvent false false

/-- SEM_SET (R103). -/
def execSemSet (sm : SemReg) (b : SReg) :=
  seqOp (.semSet sm b) 1 (do
    let x ← readS b
    let src := srcWord .seq ((← theTask).num .seq)
    let s ← get
    let time := s.timeOf s.cur.pool.ctx
    modTask fun t => { t with regs := t.regs.wrSem sm (x.extractLsb' 0 32)
                              setter := (sm.toNat, (0, src, time)) :: t.setter.filter fun y => y.1 != sm.toNat })

/-! ## Fetch (R59 to R62, R108) -/

/-- A fetch or header fault: no lane handled, FLTQ at the SEQ stream's next number, FLTV at the line (R62, R64). -/
def fetchFault (code : Byte) : M Unit := do raiseAt .seq code (← theTask).flow.line

/-- The copy of a line that the acting task's core holds. -/
def State.heldLine (s : State) (va : Word) (place : Nat × Nat) : Option Line :=
  s.lineCache.find? fun x => x.core == s.cur.coreOf.getD 0 && x.ctx == s.cur.pool.ctx && x.va == va.toNat / 32 && x.place == place

/-- A core holds the bytes of a line that it has fetched. -/
def State.holdLine (s : State) (va : Word) (place : Nat × Nat) (bytes : List Byte) : State :=
  let x : Line := ⟨s.cur.coreOf.getD 0, s.cur.pool.ctx, va.toNat / 32, place, bytes⟩
  { s with lineCache := x :: s.lineCache.filter fun y => !(y.core == x.core && y.ctx == x.ctx && y.va == x.va) }

/-- The bytes of a line that is fetched: those that memory holds, or older ones that the core holds, a free value chooses which (R109,
log 57). -/
def fetchedLine (va : Word) (place : Nat × Nat) (now : List Byte) : M (List Byte) := do
  match (← get).heldLine va place with
  | some x => if x.bytes = now then return now else return if (← freeValue).getLsbD 0 then x.bytes else now
  | none => return now

/-- LINE_ENTRY: fetch the line through its translation, check X and the header, and stand at its first instruction; a
line without one is passed over (R59, R61, R62). It is fetched whole, as it was or as it is (R109): a line that a store has written in
part is waited for. -/
def execLineEntry (s : State) : Host.Outcome State Fault Refusal :=
  if s.cur.flow.entered then .next s else
  runM (do
    let t := s.cur
    if s.inTransit t.pool.ctx t.flow.line then stall
    match s.xlate t t.flow.line with
    | .error c =>
      walkTurn t.flow.line false true t.coreOf
      fetchFault c
    | .ok (leaf, at_) =>
      if !leafX leaf then fetchFault fcPerm
      match at_ with
      | some a => do
        walkTurn t.flow.line false true t.coreOf
        modify fun s => s.walked t.pool.die.toNat t.coreOf true t.pool.ctx t.flow.line leaf a false
      | none => pure ()
      let f : FaultInfo := { code := 0, stream := .seq, seq := t.num .seq }
      let (p, a) := placeOf leaf t.flow.line t.cluster
      if s.halfWritten p a then stall
      let now ← tryCatch (loadBytes f leaf t.flow.line 32) fun x =>
        match x with
        | .fault g _ => raiseAt .seq g.code t.flow.line
        | x => throw x
      let bytes ← fetchedLine t.flow.line (p.code, a) now
      let lanes := lanesOf bytes
      let header := lanes.getD 0 0
      if !headerOk header then fetchFault fcLine
      modify fun s => s.holdLine t.flow.line (p.code, a) bytes
      match nextLane header 8 1 with
      | none => modTask fun t => { t with flow := { t.flow with line := t.flow.line + 32, lane := 1 } }
      | some l => modTask fun t => { t with flow := { t.flow with entered := true, lanes, lane := l } }) s

/-- IFSYNC: this core's copies of the range's lines are discarded (R108). -/
def execIfsync (a b : SReg) :=
  seqOp (.ifsync a b) 1 (do
    let lo ← readS a
    let n ← readS b
    modify fun s => { s with lineCache := s.lineCache.filter fun x =>
      !(x.core == s.cur.coreOf.getD 0 && (decide (2 ^ 20 < n.toNat) ||
        (n != 0 && x.ctx == s.cur.pool.ctx && decide (lo.toNat / 32 ≤ x.va ∧ x.va ≤ (lo.toNat + n.toNat - 1) / 32)))) })

/-! ## Identity and special registers (R112 to R117, R122 to R124) -/

/-- ARG (R112). -/
def execArg (d : SReg) (i : BitVec 2) :=
  seqOp (.arg d i) 1 (do writeS d ((← theTask).pool.args.get i.toFin))

/-- TID (R113). -/
def execTid (d : SReg) (which : BitVec 2) :=
  seqOp (.tid d which) 1 (do
    let s ← get
    let t := s.cur
    writeS d (match which.toNat with
      | 0 => t.pool.node.setWidth 64
      | 1 => BitVec.ofNat 64 (t.coreOf.getD 0)
      | 2 => BitVec.ofNat 64 (s.fnOf t.pool.ctx)
      | _ => t.pool.tpl.setWidth 64))

/-- The entries that R117 waits for have performed. -/
def Task.quiet117 (t : Task) : Bool :=
  (t.queue .vec).isEmpty && (t.queue .stq).isEmpty && (t.queue .til).isEmpty && (t.queue .skq).isEmpty && t.copiesLeft == 0

/-- The registers whose reads and writes wait (R117). -/
def SysReg.waits : SysReg → Bool
  | .fpst => true
  | .rng => true
  | _ => false

/-- The core register: [7:6] die, [5:2] cluster, [1:0] core in cluster (R113, R114). -/
def coreWord (c : Nat) : Word := BitVec.ofNat 64 (c / 48 * 64 + c % 48 / 4 * 4 + c % 4)

/-- The value of a system register (R114 Table 7). -/
def sysValue (s : State) (r : SysReg) : Word :=
  let t := s.cur
  let e := s.taskEff t
  match r with
  | .ctx => BitVec.ofNat 64 (t.pool.ctx * 2 ^ 32 + s.fnOf t.pool.ctx)
  | .rcbp => t.pool.rcb
  | .task => t.register
  | .core => coreWord (t.coreOf.getD 0)
  | .fltc => t.sys.fltc.setWidth 64
  | .fltv => t.sys.fltv
  | .fltq => t.sys.fltq
  | .thkrec => t.sys.thkrec
  | .scoff => e.scOff
  | .baseoff => e.baseOff
  | .pfd => t.sys.pfd
  | .fpst => t.sys.fpst.setWidth 64
  | .rng => t.sys.rng
  | .tmode => t.sys.tmode.setWidth 64
  | .cyc => BitVec.ofNat 64 t.sys.cyc
  | .wdog => BitVec.ofNat 64 t.sys.wdog

/-- RDSR (R114, R117). -/
def execRdsr (d : SReg) (r : SysReg) :=
  seqOp (.rdsr d r) 1 (do
    let s ← get
    if (SysReg.waits r) && !s.cur.quiet117 then stall
    writeS d (sysValue s r))

/-- WRSR: a value with a nonzero reserved bit raises ILLEGAL_FIELD and changes nothing, as does a read-only register
(R114, R117). -/
def execWrsr (r : SysReg) (a : SReg) :=
  seqOp (.wrsr r a) 1 (do
    let t ← theTask
    if (SysReg.waits r) && !t.quiet117 then stall
    let x ← readS a
    match r with
    | .pfd =>
      if x.extractLsb' 20 44 ≠ 0 ∨ x.extractLsb' 0 6 ≠ 0 then raiseAt .seq fcField (← laneVa)
      modSys fun y => { y with pfd := x }
    | .fpst =>
      if x.extractLsb' 5 59 ≠ 0 then raiseAt .seq fcField (← laneVa)
      modSys fun y => { y with fpst := x.extractLsb' 0 5 }
    | .rng => modSys fun y => { y with rng := x }
    | _ => raiseAt .seq fcField (← laneVa))

/-- RDTIME: the context's time, or the recorded value under replay (R122, R457, R458). -/
def execRdtime (d : SReg) :=
  seqOp (.rdtime d) 1 (do
    let s ← get
    let t := s.cur
    let now : Word := BitVec.ofNat 64 (s.timeOf t.pool.ctx)
    let ev (x : Word) : Event := { ekind := 3, die := t.pool.die.toNat, self := t.self, key := (t.num .seq).setWidth 64, value := x,
                                   value2 := 0, task := t.register }
    let x := ((s.forced t.pool.ctx (ev now)).map (·.value)).getD now
    happen t.pool.ctx (ev x)
    writeS d x)

/-- The prefetch distance a value sets: down to a multiple of 64, at most 1,048,512 (R123). -/
def pfdV (x : Word) : Word := if x.ult 1048512 then x &&& 0xFFFFFFFFFFFFFFC0 else 1048512

/-- PFD (R123). -/
def execPfd (a : SReg) := seqOp (.pfd a) 1 (do let x ← readS a; modSys fun y => { y with pfd := pfdV x })

/-- RNGSEED (R124, R117). -/
def execRngseed (a : SReg) :=
  seqOp (.rngseed a) 1 (do
    if !(← theTask).quiet117 then stall
    let x ← readS a
    modSys fun y => { y with rng := x })

end Sys2Proof.Machine
end

