-- ==== Sys2Proof/Machine/Ldq.lean ====
section
/-! DEFINITION. The load queue (R182 to R189), with the operand forms of vector memory that the store queue shares
(R183, R184). -/

namespace Sys2Proof.Machine

/-! ## Shared with the store queue -/

/-- The translation an entry performs through, with the checks of R95 made on a walk's result (R95, R197). -/
def accessLeaf (e : Entry) : M Word := do
  let leaf ← entryLeaf e
  recheck e leaf
  return leaf

/-- Base VA of an entry's handle. -/
def Entry.base (e : Entry) : Word := (e.h.map (·.base)).getD 0

/-- Count the bytes of an entry for its handle's tag on the issuing die (R375, R376). -/
def countFor (e : Entry) (n : Nat) : M Unit := modify fun s =>
  s.countBytes s.cur.pool.die.toNat ((e.h.map (·.tag.toNat)).getD 0) (s.fnOf s.cur.pool.ctx) n

/-- Bytes of n elements of w bits. -/
def bytesOf (w n : Nat) : Nat := (n * w + 7) / 8

/-- The geometry check of a decoded access (R130). -/
def formatCheck (e : Entry) (leaf va : Word) : M Unit := do
  if !geometryOk leaf then raiseE e.info fcFmt va

/-- Every element starts on an element boundary, or the entry raises ALIGN (R183). -/
def alignCheck (e : Entry) (w : Nat) (els : List (Nat × Elem)) : M Unit := do
  match els.find? fun x => !elemAligned w x.2.va with
  | some x => raiseE e.info fcAlign x.2.va
  | none => pure ()

/-- Every element lies in the handle's page, or the entry raises HBOUND (R183): for gather and scatter lanes. -/
def boundCheck (e : Entry) (leaf : Word) (w : Nat) (els : List (Nat × Elem)) : M Unit := do
  match els.find? fun x => !inPage leaf e.base x.2.va (elemBytes w) with
  | some x => raiseE e.info fcBound x.2.va
  | none => pure ()

/-- The elements of a contiguous form: lane and element (R183). -/
def contiguous (w : Nat) (start : Word) : List (Nat × Elem) := (List.range 64).map fun j => (j, elemAt w start j)

/-- The elements of a strided form. -/
def strided (start stride : Word) : List (Nat × Elem) :=
  (List.range 64).map fun j => (j, { va := start + BitVec.ofNat 64 j * stride })

/-- The elements of a gather or scatter form: a lane whose offset is 0xFFFFFFFF is inactive (R183). -/
def gathered (base : Word) (offsets : Vector Lane 64) : List (Nat × Elem) :=
  (List.finRange 64).filterMap fun j : Fin 64 =>
    let o := offsets.get j
    if o = 0xFFFFFFFF then none else some (j.val, { va := base + o.setWidth 64 })

/-- The active elements of a masked form (R184). -/
def activeEls (g : Regs) (m : Option MReg) (els : List (Nat × Elem)) : List (Nat × Elem) :=
  match m with
  | none => els
  | some k => els.filter fun x => (g.rdM k).getLsbD x.1

/-- The bytes that elements touch. -/
def elemRuns (w : Nat) (els : List (Nat × Elem)) : List (Word × Nat) := els.map fun x => (x.2.va, elemBytes w)

/-- The HBM bytes that an access reads beside its elements: their scales, and on a delta page the stored block and the base bytes
(R131, R371, R440). -/
def State.sideRuns (s : State) (leaf : Word) (runs : List (Word × Nat)) : List (Nat × Nat) :=
  let t := s.cur
  let eff := s.taskEff t
  let at_ (va : Word) (n : Nat) : List (Nat × Nat) :=
    match s.xlate t va with
    | .ok (l, _) => hbmRuns l t.cluster [(va, n)]
    | .error _ => []
  let b := blockOf (leafBg leaf)
  (if leafBg leaf = 0 then [] else
    (runs.map fun r => scaleAddr eff.scOff leaf ⟨r.1, 0⟩).eraseDups.flatMap fun va => at_ va b.2) ++
  (if !leafDlt leaf then [] else
    (leafPfn leaf * 4096, deltaRead s leaf) :: runs.flatMap fun r => at_ (r.1 + eff.baseOff) r.2)

/-- Before an access through a handle performs: the answer of an outside home, the alias filter and the precise
watchpoints (R172, R197, R441). -/
def beforeAccess (e : Entry) (leaf : Word) (path : Nat) (kind : AKind) (runs : List (Word × Nat)) : M Unit := do
  let va := (runs.head?.map (·.1)).getD e.base
  needAnswer e leaf va
  aliasFilter e va (natRuns runs)
  let s ← get
  watchEntry e path kind (hbmRuns leaf s.cur.cluster runs ++ if kind = .read then s.sideRuns leaf runs else [])

/-! ## Loads -/

/-- An LDQ instruction of n lanes. -/
def ldqOp (i : Instr) (n : Nat) (body : Entry → M Unit) (s : State) : Host.Outcome State Fault Refusal :=
  queued .ldq i n body s

/-- A lane of a vector register. -/
def setLane (d : VReg) (j : Nat) (x : Lane) : M Unit := modRegs fun g =>
  if h : j < 64 then g.wrV d ((g.rdV d).set j x h) else g

/-- The sign- or zero-extended value of sz bytes (R185). -/
def extendTo (u : Bool) (sz : Sz) (bs : List Byte) : Word :=
  let x := leNat bs
  let w := 8 * 2 ^ sz.code.toNat
  if u then BitVec.ofNat 64 x else BitVec.ofInt 64 (signedOf w x)

/-- LDS: one entry to s56 (R185). -/
def execLds (h : HReg) (u : Bool) (sz : Sz) (off : BitVec 32) (t : Tok) :=
  ldqOp (.lds h u sz off t) 2 fun e => do
    let leaf ← accessLeaf e
    let n := 2 ^ sz.code.toNat
    let va := e.base + sext 32 off
    if va.toNat % n ≠ 0 then raiseE e.info fcAlign va
    beforeAccess e leaf 0 .read [(va, n)]
    let bs ← loadBytes e.info leaf va n
    pushPort 56 ⟨extendTo u sz bs, false⟩
    countFor e n

/-- Write each active lane with its decoded element (R186). -/
def decodeLanes (e : Entry) (d : VReg) (leaf : Word) : List (Nat × Elem) → M Unit
  | [] => pure ()
  | x :: rest => do
    setLane d x.1 (← laneOf e.info leaf x.2)
    decodeLanes e d leaf rest

/-- A decoded load of elements into lanes (R183, R184, R186). The order of its checks is the model's choice (log 67). -/
def decodedLoad (e : Entry) (d : VReg) (m : Option MReg) (gather : Bool) (els : Nat → List (Nat × Elem)) : M Unit := do
  let leaf ← accessLeaf e
  let w := (leafFormat leaf).bits
  let all := els w
  formatCheck e leaf e.base
  alignCheck e w all
  if gather then boundCheck e leaf w all
  let act := activeEls (← theRegs) m all
  beforeAccess e leaf 0 .read (elemRuns w act)
  decodeLanes e d leaf act
  countFor e (bytesOf w act.length)

/-- VLD (R186). -/
def execVld (d : VReg) (h : HReg) (m : Option MReg) (off : BitVec 32) (t : Tok) :=
  ldqOp (.vld d h m off t) 2 fun e => decodedLoad e d m false fun w => contiguous w (e.base + sext 32 off)

/-- VLDS: the stride is read at dispatch (R186). -/
def execVlds (d : VReg) (h : HReg) (b : SReg) (off : BitVec 32) (t : Tok) :=
  ldqOp (.vlds d h b off t) 2 fun e =>
    decodedLoad e d none false fun _ => strided (e.base + sext 32 off) (e.caps.getD 0 0)

/-- VLDG: the offsets are read when the entry performs (R186). -/
def execVldg (d : VReg) (h : HReg) (b : VReg) (t : Tok) :=
  ldqOp (.vldg d h b t) 1 fun e => do
    let g ← theRegs
    decodedLoad e d none true fun _ => gathered e.base (g.rdV b)

/-- VLBC: one element to every lane (R186). -/
def execVlbc (d : VReg) (h : HReg) (off : BitVec 32) (t : Tok) :=
  ldqOp (.vlbc d h off t) 2 fun e => do
    let leaf ← accessLeaf e
    let w := (leafFormat leaf).bits
    let x : Elem := { va := e.base + sext 32 off }
    formatCheck e leaf x.va
    alignCheck e w [(0, x)]
    beforeAccess e leaf 0 .read [(x.va, elemBytes w)]
    let l ← laneOf e.info leaf x
    modRegs fun g => g.wrV d (Vector.replicate 64 l)
    countFor e (bytesOf w 1)

/-- Read lanes raw, in ascending order (R187). -/
def rawLanes (e : Entry) (d : VReg) (leaf : Word) : List (Nat × Elem) → M Unit
  | [] => pure ()
  | x :: rest => do
    setLane d x.1 (BitVec.ofNat 32 (leNat (← loadBytes e.info leaf x.2.va 4)))
    rawLanes e d leaf rest

/-- VLDR: 256 bytes raw (R187). -/
def execVldr (d : VReg) (h : HReg) (m : Option MReg) (off : BitVec 32) (t : Tok) :=
  ldqOp (.vldr d h m off t) 2 fun e => do
    let leaf ← accessLeaf e
    let all := contiguous 32 (e.base + sext 32 off)
    alignCheck e 32 all
    let act := activeEls (← theRegs) m all
    beforeAccess e leaf 0 .read (elemRuns 32 act)
    rawLanes e d leaf act
    countFor e (4 * act.length)

/-- The checks of a scratchpad form: 4-byte alignment, then the task's pages (R187), in an order that is the model's choice (log 67). -/
def scratchCheck (e : Entry) (a : Word) : M Unit := do
  if a.toNat % 4 ≠ 0 then raiseE e.info fcAlign a
  if !inScratch (← theTask) a 256 then raiseE e.info fcBound a
  fillFor a 256

/-- VLSP (R187): no handle, no alias filter, no tag. -/
def execVlsp (d : VReg) (a : SReg) (t : Tok) :=
  ldqOp (.vlsp d a t) 1 fun e => do
    let addr := e.caps.getD 0 0
    scratchCheck e addr
    modTask fun k =>
      let bs := overlay (k.readsOf e.info) scratchCode addr.toNat (Mem.readN k.scratch addr.toNat 256)
      { k with regs := k.regs.wrV d (Vector.ofFn fun j : Fin 64 => BitVec.ofNat 32 (leNat ((bs.drop (4 * j)).take 4))) }

/-- The lines of n bytes of a page that are homed on another die (R189). -/
def prefetchLines (die : Nat) (leaf va : Word) (n : Nat) : List Nat :=
  match placeOf leaf va 0 with
  | (.hbm, a) => (linesOf a n).filter fun l => dieOf (64 * l) != die
  | _ => []

/-- n bytes from an address, clipped to the page of a base: the first of them that the page holds, and how many (R189). -/
def clipTo (leaf base va : Word) (n : Nat) : Word × Nat :=
  let p := pageOf leaf base
  let lo := max va.toNat p
  (BitVec.ofNat 64 lo, min (va.toNat + n) (p + pageBytes (leafSz leaf)) - lo)

/-- LDPF: no visible effect; the remote lines it asks for come into the remote-data cache (R189). -/
def execLdpf (h : HReg) (b : SReg) (off : BitVec 32) (t : Tok) :=
  ldqOp (.ldpf h b off t) 2 fun e => do
    let n := (e.caps.getD 0 0).toNat
    let s ← get
    let leaf : Option Word :=
      match e.h.map (·.bind) with
      | some (Bind.valid l) => some l
      | some Bind.revoked => (match s.xlate s.cur e.base with | .ok (l, _) => some l | .error _ => none)
      | _ => none
    if e.h.map (·.bind) = some .pending then stall
    match leaf with
    | none => pure ()
    | some l => modify fun s =>
        let die := s.cur.pool.die.toNat
        let (va, k) := clipTo l e.base (e.base + sext 32 off) n
        { s with rdc := ((prefetchLines die l va k).map fun x => (die, x)).foldl addCopy s.rdc }

end Sys2Proof.Machine
end

