-- ==== Sys2Proof/Machine/Stq.lean ====
section
/-! DEFINITION. The store queue (R182 to R184, R188, R190 to R195). -/

namespace Sys2Proof.Machine

/-- An STQ instruction of n lanes. -/
def stqOp (i : Instr) (n : Nat) (body : Entry → M Unit) (s : State) : Host.Outcome State Fault Refusal :=
  queued .stq i n body s

/-- A delta page takes no store (R191, R371). -/
def deltaCheck (e : Entry) (leaf va : Word) : M Unit := do
  if leafDlt leaf then raiseE e.info fcPerm va

/-- An sts takes its data from s57 as it reaches its queue's head, and is saved with it (R190, R441). -/
def takeStoreData : M Unit := do
  match (← theRegs).rdPort 1 with
  | [] => stall
  | x :: rest => do
    modRegs fun g => g.wrPort 1 rest
    modHead .stq fun y => { y with data := some x.val }

/-- What an sts does once it has its data (R190). -/
def stsBody (sz : Sz) (off : BitVec 32) (x : Word) (e : Entry) : M Unit := do
  let leaf ← accessLeaf e
  let n := 2 ^ sz.code.toNat
  let va := e.base + sext 32 off
  if va.toNat % n ≠ 0 then raiseE e.info fcAlign va
  deltaCheck e leaf va
  beforeAccess e leaf 1 .write [(va, n)]
  storeBytes leaf va (leBytes n (x.toNat % 2 ^ (8 * n)))
  countFor e n

/-- STS: the low bytes of an entry of s57, raw; the entry is taken even if the store must then wait (R190). -/
def execSts (h : HReg) (sz : Sz) (off : BitVec 32) (t : Tok) (s : State) : Host.Outcome State Fault Refusal :=
  match s.act with
  | none => runM (dispatch .stq (.sts h sz off t) 2 fun _ => pure ()) s
  | some e =>
    match e.data with
    | some x => runM (perform e (stsBody sz off x e)) s
    | none =>
      match runM takeStoreData s with
      | .next s1 =>
        match (s1.cur.queue .stq).head?.bind (·.data) with
        | some x => let e := { e with data := some x }; runM (perform e (stsBody sz off x e)) { s1 with act := some e }
        | none => .next s1
      | o => o

/-- An integer saturated to an integer format (R137, R191). -/
def saturate (signed : Bool) (w : Nat) (x : Int) : Nat :=
  let lo : Int := if signed then -(2 ^ (w - 1) : Int) else 0
  let hi : Int := if signed then 2 ^ (w - 1) - 1 else 2 ^ w - 1
  ((if x < lo then lo else if hi < x then hi else x) % (2 ^ w : Int)).toNat

/-- The bits an encoding store writes for a lane (R191), with the flags and the generator step of R139. -/
def encodeLane (e : Entry) (leaf : Word) (el : Elem) (rm : Rm) (x : Lane) : M Nat := do
  let fmt := leafFormat leaf
  if leafBg leaf = 0 ∧ (fmt = .fp32 ∨ fmt = .int32) then return x.toNat
  match (if leafBg leaf = 0 then fmt.int else none) with
  | some (sg, w) => return saturate sg w x.toInt
  | none => do
    let r ← rngFor rm
    let (b, fl) ← encFor e.info leaf el rm r (f32 x)
    raiseFlags fl
    return b

/-- Write active lanes in ascending order (R191, R193). -/
def encodeLanes (e : Entry) (v : Vector Lane 64) (leaf : Word) (rm : Rm) : List (Nat × Elem) → M Unit
  | [] => pure ()
  | x :: rest => do
    let b ← encodeLane e leaf x.2 rm (v.toList.getD x.1 0)
    storeElem e.info leaf x.2 b
    encodeLanes e v leaf rm rest

/-- The lines that a store covers whole are no longer poisoned (R434). -/
def cleanStored (leaf : Word) (w : Nat) (els : List (Nat × Elem)) : M Unit := modify fun s =>
  if s.air.isSome then s else s.cleanElems s.cur.cluster w (els.map fun x => (leaf, x.2))

/-- An encoding store of a register's lanes to elements (R183, R184, R191). The order of its checks is the model's choice (log 67). -/
def encodedStore (e : Entry) (d : VReg) (rm : Rm) (m : Option MReg) (scatter : Bool) (els : Nat → List (Nat × Elem)) :
    M Unit := do
  let leaf ← accessLeaf e
  let w := (leafFormat leaf).bits
  let all := els w
  formatCheck e leaf e.base
  alignCheck e w all
  if scatter then boundCheck e leaf w all
  deltaCheck e leaf e.base
  let g ← theRegs
  let act := activeEls g m all
  beforeAccess e leaf 1 .write (elemRuns w act)
  encodeLanes e (g.rdV d) leaf rm act
  cleanStored leaf w act
  countFor e (bytesOf w act.length)

/-- VST (R191). -/
def execVst (d : VReg) (h : HReg) (rm : Rm) (m : Option MReg) (off : BitVec 32) (t : Tok) :=
  stqOp (.vst d h rm m off t) 2 fun e => encodedStore e d rm m false fun w => contiguous w (e.base + sext 32 off)

/-- VSTS (R191). -/
def execVsts (d : VReg) (h : HReg) (b : SReg) (rm : Rm) (off : BitVec 32) (t : Tok) :=
  stqOp (.vsts d h b rm off t) 2 fun e =>
    encodedStore e d rm none false fun _ => strided (e.base + sext 32 off) (e.caps.getD 0 0)

/-- VSCT (R191, R193). -/
def execVsct (d : VReg) (h : HReg) (b : VReg) (rm : Rm) (t : Tok) :=
  stqOp (.vsct d h b rm t) 1 fun e => do
    let g ← theRegs
    encodedStore e d rm none true fun _ => gathered e.base (g.rdV b)

/-- Write lanes raw, in ascending order (R192). -/
def storeLanes (v : Vector Lane 64) (leaf : Word) : List (Nat × Elem) → M Unit
  | [] => pure ()
  | x :: rest => do
    storeBytes leaf x.2.va (leBytes 4 (v.toList.getD x.1 0).toNat)
    storeLanes v leaf rest

/-- VSTR (R192). -/
def execVstr (d : VReg) (h : HReg) (m : Option MReg) (off : BitVec 32) (t : Tok) :=
  stqOp (.vstr d h m off t) 2 fun e => do
    let leaf ← accessLeaf e
    let all := contiguous 32 (e.base + sext 32 off)
    alignCheck e 32 all
    deltaCheck e leaf e.base
    let g ← theRegs
    let act := activeEls g m all
    beforeAccess e leaf 1 .write (elemRuns 32 act)
    storeLanes (g.rdV d) leaf act
    cleanStored leaf 32 act
    countFor e (4 * act.length)

/-- Scratchpad bytes of the acting task are stored, now or to land later (R353, R354, R389, R454). -/
def writeScratch (kind : Nat) (src : Word) (a : Nat) (bs : List Byte) : M Unit := modify fun s =>
  match s.air with
  | none => s.scratchWrite (s.timeOf s.cur.pool.ctx) kind src a bs
  | some ps => { s with air := some (patchBytes ps scratchCode a (bs.map fun b => (b, 0xFF))) }

/-- VSSP (R188). -/
def execVssp (d : VReg) (a : SReg) (t : Tok) :=
  stqOp (.vssp d a t) 1 fun e => do
    let addr := e.caps.getD 0 0
    scratchCheck e addr
    writeScratch 0 (srcWord .stq e.num) addr.toNat (((← theRegs).rdV d).toList.flatMap fun x => leBytes 4 x.toNat)

/-- The HBM line that an access names, when it lies in this chip's HBM. -/
def hbmLine (leaf va : Word) : Option Nat :=
  match placeOf leaf va 0 with
  | (.hbm, a) => some (a / 64)
  | _ => none

/-- A cache command on the line that holds an address: the alias filter looks at the line first (R194, R197). -/
def lineCommand (e : Entry) (off : BitVec 32) (act : State → Nat → State) : M Unit := do
  let leaf ← accessLeaf e
  let va := e.base + sext 32 off
  aliasFilter e va [(va.toNat / 64 * 64, 64)]
  match hbmLine leaf va with
  | some l => modify fun s => act s l
  | none => pure ()

/-- LCLN: the home slice's copy of the line is clean (R194). -/
def execLcln (h : HReg) (off : BitVec 32) (t : Tok) :=
  stqOp (.lcln h off t) 2 fun e => lineCommand e off fun s l => { s with dirty := s.dirty.filter (· != l) }

/-- LINV: this die's remote-data cache drops the line (R194). -/
def execLinv (h : HReg) (off : BitVec 32) (t : Tok) :=
  stqOp (.linv h off t) 2 fun e => lineCommand e off fun s l =>
    { s with rdc := s.rdc.filter (· != (s.cur.pool.die.toNat, l)) }

/-- Add words at the Moles, one atomic operation a word: no flag (R195). -/
def moleAdd (leaf : Word) : List (Word × Lane) → M Unit
  | [] => pure ()
  | x :: rest => do
    let old : Lane := BitVec.ofNat 32 (leNat (← rawBytes leaf x.1 4))
    let new := rneF32 ((f32 old).add (f32 x.2)).1
    modify fun s =>
      let (p, a) := placeOf leaf x.1 s.cur.cluster
      (match p with
      | .hbm => s.moleWrite a (leBytes 4 new.toNat)
      | p => s.put p a (leBytes 4 new.toNat)).noteWrite p a 4
    moleAdd leaf rest

/-- The watch at the Moles: one look for each line that the runs touch (R440 Table 4). -/
def watchMoles (path : Nat) (own : Option (Nat × Word)) (runs : List (Nat × Nat)) : M Unit := do
  for l in (runs.flatMap fun r => linesOf r.1 r.2).eraseDups do
    watchHome path .atomic ⟨4, moleSrc (64 * l), own⟩ (runs.filter fun r => (linesOf r.1 r.2).contains l) granuleSkid

/-- The attributes vfaddnr asks of its page (R195, R360). -/
def moleCheck (e : Entry) (leaf va : Word) : M Unit := do
  if leafFmt leaf ≠ 0 ∨ leafBg leaf ≠ 0 then raiseE e.info fcFmt va
  if !leafMs leaf || leafAp leaf == 2 || (leafAp leaf == 0 && decide (csramBase ≤ leafPfn leaf * 4096)) then
    raiseE e.info fcNbAttr va
  if leafAp leaf = 1 ∧ leafRap leaf = false then raiseE e.info fcRap va

/-- The words that a vfaddnr entry adds, once it may: its checks, the answer of a home outside, and the alias filter (R195). -/
def faddnrWords (d : VReg) (m : Option MReg) (off : BitVec 32) (e : Entry) : M (Word × List (Word × Lane)) := do
  let leaf ← accessLeaf e
  let start := e.base + sext 32 off
  let all := contiguous 32 start
  alignCheck e 32 all
  deltaCheck e leaf e.base
  moleCheck e leaf start
  let t ← theTask
  let act := activeEls t.regs m all
  needAnswer e leaf start
  aliasFilter e start (natRuns (elemRuns 32 act))
  let s ← get
  match act.find? fun x => let (p, a) := placeOf leaf x.2.va t.cluster; s.poisoned p a 4 with
  | some x => raiseE e.info fcData x.2.va
  | none => pure ()
  countFor e (4 * act.length)
  return (leaf, act.map fun x => (x.2.va, (t.regs.rdV d).toList.getD x.1 0))

/-- Words are added at the Moles, with the watch there (R195, R440). -/
def faddnrAdd (leaf : Word) (l : List (Word × Lane)) : M Unit := do
  moleAdd leaf l
  let t ← theTask
  watchMoles 1 (some (t.pool.ctx, t.register)) (hbmRuns leaf t.cluster (l.map fun x => (x.1, 4)))

/-- The work of a vfaddnr entry: the words that it has not added yet (R195, R389). -/
def faddnrBody (d : VReg) (m : Option MReg) (off : BitVec 32) (e : Entry) : M Unit := do
  match e.adds with
  | some l => faddnrAdd ((e.leaf?).getD 0) l
  | none => do
    let (leaf, l) ← faddnrWords d m off e
    faddnrAdd leaf l

/-- A vfaddnr entry begins, with the words that it is to add, which land later, line by line (R195, R389). -/
def faddnrPart (d : VReg) (m : Option MReg) (off : BitVec 32) (e : Entry) : M Unit := do
  awaitBegin e
  let (_, l) ← faddnrWords d m off e
  begins e
  modHead .stq fun x => { x with adds := some l }

/-- One line of 64 bytes of a vfaddnr is added (R389). -/
def faddnrLine (space line : Nat) (e : Entry) : M Unit := do
  let leaf := (e.leaf?).getD 0
  let t ← theTask
  let here (x : Word × Lane) : Bool :=
    let p := placeOf leaf x.1 t.cluster
    p.1.code == space && p.2 / 64 == line
  match e.adds with
  | none => pure ()
  | some l => do
    faddnrAdd leaf (l.filter here)
    modHead .stq fun x => { x with adds := some (l.filter fun x => !here x) }

/-- VFADDNR (R195). -/
def execVfaddnr (d : VReg) (h : HReg) (m : Option MReg) (off : BitVec 32) (t : Tok) (s : State) :
    Host.Outcome State Fault Refusal :=
  match s.act with
  | none => queuedFree .stq (.vfaddnr d h m off t) 2 (fun _ => pure ()) s
  | some e => runM (do
      perform e (faddnrBody d m off e)
      stopDue) s

end Sys2Proof.Machine
end

