-- ==== Sys2Proof/Machine/Vec.lean ====
section
/-! DEFINITION. The vector queue (R198 to R212): 64 lanes of 32 bits; every entry performs whole, in queue order. -/

namespace Sys2Proof.Machine

/-- The contents of a vector register. -/
abbrev VecVal := Vector Lane 64

/-- A VEC instruction of n lanes: dispatched by the sequencer, performed by the vector unit (R198). -/
def vecOp (i : Instr) (n : Nat) (body : M Unit) (s : State) : Host.Outcome State Fault Refusal :=
  queued .vec i n (fun _ => body) s

/-- Write a vector register with lane results and raise their flags (R141, R142). -/
def putLanes (d : VReg) (r : Vector (Lane × Fl) 64) : M Unit := do
  modRegs fun g => g.wrV d (r.map (·.1))
  raiseFlags (orFlags (r.toList.map (·.2)))

/-! ## Floating point (R199 to R202) -/

/-- A floating operation of two operands, rounded once (R199). -/
def f2 (op : FV → FV → FV × Fl) (a b : Lane) : Lane × Fl :=
  let (v, fl) := op (f32 a) (f32 b)
  let (c, fl2) := toF32 v
  (c, fl ||| fl2)

/-- The sum of two lanes. -/
def faddL : Lane → Lane → Lane × Fl := f2 FV.add
/-- The difference of two lanes. -/
def fsubL : Lane → Lane → Lane × Fl := f2 fun x y => x.add y.negate
/-- The product of two lanes. -/
def fmulL : Lane → Lane → Lane × Fl := f2 FV.mul
/-- The lesser of two lanes (R200). -/
def fminL : Lane → Lane → Lane × Fl := f2 fun x y => (x.min y, 0)
/-- The greater of two lanes (R200). -/
def fmaxL : Lane → Lane → Lane × Fl := f2 fun x y => (x.max y, 0)

/-- a × b + c with one rounding; 0 × ∞ is tested first (R199). -/
def fmaL (a b c : Lane) : Lane × Fl :=
  let (p, fl) := (f32 a).mul (f32 b)
  if fl ≠ 0 then (0x7FC00000, fl) else
  let (v, fl) := p.add (f32 c)
  let (x, fl2) := toF32 v
  (x, fl ||| fl2)

/-- A unary floating operation, rounded once. -/
def f1 (op : FV → FV × Fl) (a : Lane) : Lane × Fl :=
  let (v, fl) := op (f32 a)
  let (c, fl2) := toF32 v
  (c, fl ||| fl2)

/-- The absolute value: a NaN gives the canonical NaN (R200). -/
def fabsL (a : Lane) : Lane × Fl := (if f32 a = .nan then 0x7FC00000 else a &&& 0x7FFFFFFF, 0)
/-- The negated lane (R200). -/
def fnegL (a : Lane) : Lane × Fl := (if f32 a = .nan then 0x7FC00000 else a ^^^ 0x80000000, 0)

/-- A two-operand floating entry. -/
def fBin (i : Instr) (d a b : VReg) (f : Lane → Lane → Lane × Fl) :=
  vecOp i 1 (do
    let g ← theRegs
    putLanes d (Vector.zipWith f (g.rdV a) (g.rdV b)))

/-- A one-operand floating entry. -/
def fUn (i : Instr) (d a : VReg) (f : Lane → Lane × Fl) :=
  vecOp i 1 (do putLanes d (((← theRegs).rdV a).map f))

/-- FADD (R199). -/
def execFadd (d a b : VReg) (t : Tok) := fBin (.fadd d a b t) d a b faddL
/-- FSUB (R199). -/
def execFsub (d a b : VReg) (t : Tok) := fBin (.fsub d a b t) d a b fsubL
/-- FMUL (R199). -/
def execFmul (d a b : VReg) (t : Tok) := fBin (.fmul d a b t) d a b fmulL
/-- FMA (R199). -/
def execFma (d a b c : VReg) (t : Tok) :=
  vecOp (.fma d a b c t) 2 (do
    let g ← theRegs
    putLanes d (Vector.ofFn fun j : Fin 64 => fmaL ((g.rdV a).get j) ((g.rdV b).get j) ((g.rdV c).get j)))
/-- FMIN (R200). -/
def execFmin (d a b : VReg) (t : Tok) := fBin (.fmin d a b t) d a b fminL
/-- FMAX (R200). -/
def execFmax (d a b : VReg) (t : Tok) := fBin (.fmax d a b t) d a b fmaxL
/-- FABS (R200). -/
def execFabs (d a : VReg) (t : Tok) := fUn (.fabs d a t) d a fabsL
/-- FNEG (R200). -/
def execFneg (d a : VReg) (t : Tok) := fUn (.fneg d a t) d a fnegL
/-- FRCP (R201). -/
def execFrcp (d a : VReg) (t : Tok) := fUn (.frcp d a t) d a (f1 rcpV)
/-- FRSQ (R201). -/
def execFrsq (d a : VReg) (t : Tok) := fUn (.frsq d a t) d a (f1 rsqV)
/-- FSQRT (R201). -/
def execFsqrt (d a : VReg) (t : Tok) := fUn (.fsqrt d a t) d a (f1 sqrtV)
/-- FEXP2 (R201). -/
def execFexp2 (d a : VReg) (t : Tok) := fUn (.fexp2 d a t) d a (f1 exp2V)
/-- FLOG2 (R201). -/
def execFlog2 (d a : VReg) (t : Tok) := fUn (.flog2 d a t) d a (f1 log2V)

/-- The mask whose bit j is a condition of lane j. -/
def maskBy (f : Fin 64 → Bool) : Word := BitVec.ofNat 64 ((List.finRange 64).foldl (fun x j => if f j then x + 2 ^ j.val else x) 0)

/-- FCMP_CC (R202). -/
def execFcmpCc (cc : FCc) (d : MReg) (a b : VReg) (t : Tok) :=
  vecOp (.fcmpCc cc d a b t) 1 (modRegs fun g =>
    g.wrM d (maskBy fun j => floatCond cc ((g.rdV a).get j) ((g.rdV b).get j)))

/-! ## Integer arithmetic (R203) -/

/-- A two-operand integer entry: no flag. -/
def iBin (i : Instr) (d a b : VReg) (f : Lane → Lane → Lane) :=
  vecOp i 1 (modRegs fun g => g.wrV d (Vector.zipWith f (g.rdV a) (g.rdV b)))

/-- IADD (R203). -/
def execIadd (d a b : VReg) (t : Tok) := iBin (.iadd d a b t) d a b (· + ·)
/-- ISUB (R203). -/
def execIsub (d a b : VReg) (t : Tok) := iBin (.isub d a b t) d a b (· - ·)
/-- IMUL (R203). -/
def execImul (d a b : VReg) (t : Tok) := iBin (.imul d a b t) d a b (· * ·)
/-- IAND (R203). -/
def execIand (d a b : VReg) (t : Tok) := iBin (.iand d a b t) d a b (· &&& ·)
/-- IOR (R203). -/
def execIor (d a b : VReg) (t : Tok) := iBin (.ior d a b t) d a b (· ||| ·)
/-- IXOR (R203). -/
def execIxor (d a b : VReg) (t : Tok) := iBin (.ixor d a b t) d a b (· ^^^ ·)
/-- ISHL (R203). -/
def execIshl (d a b : VReg) (t : Tok) := iBin (.ishl d a b t) d a b fun x y => x <<< (y.toNat % 32)
/-- ISHR (R203). -/
def execIshr (d a b : VReg) (t : Tok) := iBin (.ishr d a b t) d a b fun x y => x >>> (y.toNat % 32)
/-- ISRA (R203). -/
def execIsra (d a b : VReg) (t : Tok) := iBin (.isra d a b t) d a b fun x y => x.sshiftRight (y.toNat % 32)

/-- The lesser lane, signed. -/
def iminL (x y : Lane) : Lane := if x.slt y then x else y
/-- The greater lane, signed. -/
def imaxL (x y : Lane) : Lane := if x.slt y then y else x

/-- IMIN (R203). -/
def execImin (d a b : VReg) (t : Tok) := iBin (.imin d a b t) d a b iminL
/-- IMAX (R203). -/
def execImax (d a b : VReg) (t : Tok) := iBin (.imax d a b t) d a b imaxL
/-- ICMP_CC (R203). -/
def execIcmpCc (cc : Cc) (d : MReg) (a b : VReg) (t : Tok) :=
  vecOp (.icmpCc cc d a b t) 1 (modRegs fun g =>
    g.wrM d (maskBy fun j => laneCond cc ((g.rdV a).get j) ((g.rdV b).get j)))

/-! ## Moves (R204) -/

/-- VMOV (R204). -/
def execVmov (d a : VReg) (t : Tok) := vecOp (.vmov d a t) 1 (modRegs fun g => g.wrV d (g.rdV a))
/-- VMOVI (R204). -/
def execVmovi (d : VReg) (imm : BitVec 32) (t : Tok) :=
  vecOp (.vmovi d imm t) 2 (modRegs fun g => g.wrV d (Vector.replicate 64 imm))
/-- VSEL: lane j = m[b] bit j ? a_j : d_j (R204). -/
def execVsel (d a : VReg) (m : MReg) (t : Tok) :=
  vecOp (.vsel d a m t) 1 (modRegs fun g => g.wrV d (Vector.ofFn fun j : Fin 64 =>
    if (g.rdM m).getLsbD j then (g.rdV a).get j else (g.rdV d).get j))
/-- VPERM: lane j = a at lane b_j[5:0] (R204). -/
def execVperm (d a b : VReg) (t : Tok) :=
  vecOp (.vperm d a b t) 1 (modRegs fun g => g.wrV d (Vector.ofFn fun j : Fin 64 =>
    (g.rdV a).get (((g.rdV b).get j).extractLsb' 0 6).toFin))
/-- VBCAST: one entry of s58 to every lane (R204). -/
def execVbcast (d : VReg) (t : Tok) :=
  vecOp (.vbcast d t) 1 (do
    let x ← popPort 58
    modRegs fun g => g.wrV d (Vector.replicate 64 (x.extractLsb' 0 32)))
/-- VLANE: lane j = j (R204). -/
def execVlane (d : VReg) (t : Tok) :=
  vecOp (.vlane d t) 1 (modRegs fun g => g.wrV d (Vector.ofFn fun j : Fin 64 => BitVec.ofNat 32 j))

/-! ## Conversion and packing (R205, R206) -/

/-- Lane j takes part in a masked form (R184). -/
def activeLane (g : Regs) (m : Option MReg) (j : Nat) : Bool :=
  match m with
  | none => true
  | some k => (g.rdM k).getLsbD j

/-- The lane that holds an encoded element: INT4, INT8 and INT16 sign-extended, the others zero-extended (R205). -/
def laneBits (f : Fmt) (x : Nat) : Lane :=
  match f.int with
  | some (true, w) => BitVec.ofInt 32 (signedOf w x)
  | _ => BitVec.ofNat 32 x

/-- Convert lanes in ascending order, a generator step for each active lane under rs (R139, R205). -/
def cvtLanes (d a : VReg) (src dst : Fmt) (rm : Rm) (m : Option MReg) : List (Fin 64) → M Unit
  | [] => pure ()
  | j :: rest => do
    let g ← theRegs
    if activeLane g m j then
      let r ← rngFor rm
      let (x, fl) := dst.enc rm r (src.dec (((g.rdV a).get j).toNat % 2 ^ src.bits))
      raiseFlags fl
      modRegs fun g => g.wrV d ((g.rdV d).set j (laneBits dst x))
    cvtLanes d a src dst rm m rest

/-- CVT: source lanes are read as they stand before their own lane is written, and each lane reads only itself
(R205). -/
def execCvt (d a : VReg) (src dst : Fmt) (rm : Rm) (m : Option MReg) (t : Tok) :=
  vecOp (.cvt d a src dst rm m t) 2 (cvtLanes d a src dst rm m (List.finRange 64))

/-- The width of a packed element (R206). -/
def PackW.bits : PackW → Nat
  | .w16 => 16
  | .w8 => 8
  | .w4 => 4

/-- PACK: element i of the stream at bits [W(i+1)−1 : Wi] of the register (R206). -/
def execPack (d a b : VReg) (w : PackW) (t : Tok) :=
  vecOp (.pack d a b w t) 1 (modRegs fun g =>
    let per := 32 / (PackW.bits w)
    let elem (i : Nat) : Nat :=
      if h : i < 64 then ((g.rdV a)[i]).toNat % 2 ^ (PackW.bits w)
      else if h : i - 64 < 64 then ((g.rdV b)[i - 64]).toNat % 2 ^ (PackW.bits w) else 0
    g.wrV d (Vector.ofFn fun j : Fin 64 =>
      if j.val * per < 128 then
        BitVec.ofNat 32 ((List.range per).foldl (fun x i => x + elem (j * per + i) * 2 ^ ((PackW.bits w) * i)) 0)
      else 0))

/-- UNPACK: lane j = element 64p + j, zero-extended (R206). -/
def execUnpack (d a : VReg) (part : BitVec 6) (w : PackW) (t : Tok) :=
  vecOp (.unpack d a part w t) 1 (modRegs fun g =>
    let per := 32 / (PackW.bits w)
    g.wrV d (Vector.ofFn fun j : Fin 64 =>
      let i := 64 * part.toNat + j
      BitVec.ofNat 32 ((((g.rdV a).toList.getD (i / per) 0).toNat / 2 ^ ((PackW.bits w) * (i % per))) % 2 ^ (PackW.bits w))))

/-! ## Reductions, scans, sort, segments (R207 to R211) -/

/-- One node of a reduction (R207 Table 6). -/
def redNode (op : RedOp) (a b : Lane) : Lane × Fl :=
  match op with
  | .fadd => faddL a b
  | .fmax => fmaxL a b
  | .fmin => fminL a b
  | .iadd => (a + b, 0)
  | .imax => (imaxL a b, 0)
  | .imin => (iminL a b, 0)
  | .iand => (a &&& b, 0)
  | .ior => (a ||| b, 0)

/-- The identity of a reduction. -/
def redIdentity : RedOp → Lane
  | .fadd => 0x80000000
  | .fmax => 0xFF800000
  | .fmin => 0x7F800000
  | .iadd => 0
  | .imax => 0x80000000
  | .imin => 0x7FFFFFFF
  | .iand => 0xFFFFFFFF
  | .ior => 0

/-- One level of the tree: neighbours combined in pairs, with the flags so far. -/
def redLevel (op : RedOp) : List Lane → Fl → List Lane × Fl
  | a :: b :: rest, fl =>
    let (x, f) := redNode op a b
    let (r, fl) := redLevel op rest (fl ||| f)
    (x :: r, fl)
  | l, fl => (l, fl)

/-- The pairwise tree over 2^k lanes (R207). -/
def redTree (op : RedOp) : Nat → List Lane → Fl → Lane × Fl
  | 0, l, fl => (l.headD 0, fl)
  | k + 1, l, fl =>
    let (r, fl) := redLevel op l fl
    redTree op k r fl

/-- The word a reduction appends to s59 (R207). -/
def redWord (op : RedOp) (x : Lane) : Word :=
  match op with
  | .iadd | .imax | .imin => x.signExtend 64
  | _ => x.setWidth 64

/-- VRED (R207). -/
def execVred (op : RedOp) (a : VReg) (m : Option MReg) (t : Tok) :=
  vecOp (.vred op a m t) 1 (do
    let g ← theRegs
    let lanes := (List.finRange 64).map fun j : Fin 64 => if activeLane g m j then (g.rdV a).get j else redIdentity op
    let (x, fl) := redTree op 6 lanes 0
    raiseFlags fl
    pushPort 59 ⟨redWord op x, false⟩)

/-- An inclusive prefix of a list, from the value before it (R208). -/
def scanFrom (op : RedOp) : Lane → List Lane → List (Lane × Fl)
  | _, [] => []
  | acc, x :: rest =>
    let (y, fl) := redNode op acc x
    (y, fl) :: scanFrom op y rest

/-- Lanes from a list of 64. -/
def lanesFrom (l : List Lane) : VecVal := Vector.ofFn fun j : Fin 64 => l.getD j 0

/-- VSCAN (R208). -/
def execVscan (op : RedOp) (d a : VReg) (t : Tok) :=
  vecOp (.vscan op d a t) 1 (do
    let l := ((← theRegs).rdV a).toList
    let r := (l.headD 0, 0) :: scanFrom op (l.headD 0) l.tail
    modRegs fun g => g.wrV d (lanesFrom (r.map (·.1)))
    raiseFlags (orFlags (r.map (·.2))))

/-- The key order of vsort: strictly below (R209). -/
def keyBelow (k : SortKey) (a b : Lane) : Bool :=
  match k with
  | .u => a.ult b
  | .s => a.slt b
  | .f => if f32 a = .nan then false else if f32 b = .nan then true else (f32 a).lt (f32 b)

/-- Insert a pair after every pair whose key is not above its own: the sort stays stable. -/
def insertKey (k : SortKey) (x : Lane × Lane) : List (Lane × Lane) → List (Lane × Lane)
  | [] => [x]
  | y :: rest => if keyBelow k x.1 y.1 then x :: y :: rest else y :: insertKey k x rest

/-- VSORT: keys in v[d], payload in v[a] (R209). -/
def execVsort (key : SortKey) (d a : VReg) (t : Tok) :=
  vecOp (.vsort key d a t) 1 (modRegs fun g =>
    let r := ((g.rdV d).toList.zip (g.rdV a).toList).foldl (fun l x => insertKey key x l) []
    (g.wrV d (lanesFrom (r.map (·.1)))).wrV a (lanesFrom (r.map (·.2))))

/-- Heads of runs of equal keys (R210). -/
def uniqMask (b : VecVal) : Word :=
  maskBy fun j => j.val == 0 || b.toList.getD j 0 != b.toList.getD (j.val - 1) 0

/-- VUNIQ (R210). -/
def execVuniq (d : MReg) (a b : VReg) (t : Tok) :=
  vecOp (.vuniq d a b t) 1 (modRegs fun g =>
    let m := uniqMask (g.rdV b)
    (g.wrM d m).wrV a (Vector.ofFn fun j : Fin 64 =>
      BitVec.ofNat 32 (((List.range (j.val + 1)).filter fun i => m.getLsbD i).length - 1)))

/-- The sum of a segment: from its head's value, the lanes after it up to the next head (R211). -/
def segSum (int : Bool) (m : Word) (lanes : List Lane) : Nat → Nat → Lane → Fl → Lane × Fl
  | 0, _, acc, fl => (acc, fl)
  | fuel + 1, j, acc, fl =>
    if 64 ≤ j ∨ m.getLsbD j then (acc, fl) else
    let (x, f) := if int then (acc + lanes.getD j 0, 0) else faddL acc (lanes.getD j 0)
    segSum int m lanes fuel (j + 1) x (fl ||| f)

/-- VSEGSUM (R211). -/
def execVsegsum (int : Bool) (d a : VReg) (m : MReg) (t : Tok) :=
  vecOp (.vsegsum int d a m t) 1 (do
    let g ← theRegs
    let heads := g.rdM m
    let lanes := (g.rdV a).toList
    putLanes d (Vector.ofFn fun j : Fin 64 =>
      if j.val = 0 ∨ heads.getLsbD j then segSum int heads lanes 64 (j + 1) (lanes.getD j 0) 0 else (0, 0)))

/-! ## Masks (R212) -/

/-- MAND (R212). -/
def execMand (d a b : MReg) (t : Tok) := vecOp (.mand d a b t) 1 (modRegs fun g => g.wrM d (g.rdM a &&& g.rdM b))
/-- MOR (R212). -/
def execMor (d a b : MReg) (t : Tok) := vecOp (.mor d a b t) 1 (modRegs fun g => g.wrM d (g.rdM a ||| g.rdM b))
/-- MXOR (R212). -/
def execMxor (d a b : MReg) (t : Tok) := vecOp (.mxor d a b t) 1 (modRegs fun g => g.wrM d (g.rdM a ^^^ g.rdM b))
/-- MNOT (R212). -/
def execMnot (d a : MReg) (t : Tok) := vecOp (.mnot d a t) 1 (modRegs fun g => g.wrM d (~~~g.rdM a))
/-- MPOP: the number of set bits to s59 (R212). -/
def execMpop (a : MReg) (t : Tok) :=
  vecOp (.mpop a t) 1 (do
    let x := (← theRegs).rdM a
    pushPort 59 ⟨BitVec.ofNat 64 ((List.range 64).filter fun i => x.getLsbD i).length, false⟩)
/-- MFIRST: the lowest set bit alone (R212). -/
def execMfirst (d a : MReg) (t : Tok) :=
  vecOp (.mfirst d a t) 1 (modRegs fun g => g.wrM d (g.rdM a &&& (-(g.rdM a))))

end Sys2Proof.Machine
end

