-- ==== Sys2Proof/Machine/Atm.lean ====
section
/-! DEFINITION. The atomic queue (R265 to R287): atomics at the home, continuations, dependence counters, global queues
and near-bank commands. -/

namespace Sys2Proof.Machine

/-- What an ATM entry does as it performs: an atomic that has acted at its home already appends what it found (R272, R383). -/
def atmBody (e : Entry) (body : M Unit) : M Unit :=
  match e.result with
  | some ws => do
    for w in ws do
      pushPort 60 ⟨w, false⟩
  | none => body

/-- An ATM instruction of n lanes. -/
def atmOp (i : Instr) (n : Nat) (body : Entry → M Unit) (s : State) : Host.Outcome State Fault Refusal :=
  match s.act with
  | none => runM (dispatch .atm i n fun _ => pure ()) s
  | some e => runM (do perform e (atmBody e (body e)); stopDue) s

/-- A return-free ATM instruction: the next afence covers it (R274). -/
def atmFree (i : Instr) (n : Nat) (body : Entry → M Unit) (s : State) : Host.Outcome State Fault Refusal :=
  match s.act with
  | none => queuedFree .atm i n body s
  | some e => runM (do perform e (atmBody e (body e)); stopDue) s

/-! ## Targets (R265, R266) -/

/-- Wait for the answer of a home outside: a refused access raises PAGE_PERM, a poisoned target is the operation's to report
(R275, R395, R413). -/
def atmAnswer (e : Entry) (leaf va : Word) : M Unit := do
  if leafAp leaf = 0 then return
  match e.answer with
  | .none => sendOut e
  | .refused => raiseE e.info fcPerm va
  | _ => pure ()

/-- The checks of an atomic's target, in order (R266); near is set for the forms that need local aperture. -/
def atmTarget (e : Entry) (va : Word) (align : Nat) (near : Bool) : M Word := do
  let leaf ← accessLeaf e
  if va.toNat % align ≠ 0 then raiseE e.info fcAlign va
  if !leafW leaf || leafDlt leaf || leafAp leaf == 2 then raiseE e.info fcPerm va
  if leafAp leaf = 1 ∧ leafRap leaf = false then raiseE e.info fcRap va
  if near && !localHbm leaf then raiseE e.info fcPerm va
  atmAnswer e leaf va
  return leaf

/-- Bytes written at the home: by the Mole on a memory-side page, else by the L2 slice or the cluster's controller. -/
def homePut (leaf va : Word) (bs : List Byte) : M Unit := modify fun s =>
  let (p, a) := placeOf leaf va s.cur.cluster
  (if p = .hbm ∧ leafMs leaf = true then s.moleWrite a bs else s.put p a bs).noteWrite p a bs.length

/-- The number at a target of n bytes. -/
def homeNum (leaf va : Word) (n : Nat) : M Nat := do return leNat (← rawBytes leaf va n)

/-- Some byte of a target is poisoned, as its home finds or answers (R275). -/
def homePoisoned (e : Entry) (leaf va : Word) (n : Nat) : M Bool := do
  let s ← get
  let (p, a) := placeOf leaf va s.cur.cluster
  return e.answer == .poisoned || s.poisoned p a n

/-- The event of a returning entry at its home (R457, EKIND 4). -/
def atmEvent (e : Entry) (leaf va : Word) (first : Word) : M Unit := do
  let s ← get
  let t := s.cur
  let (_, a) := placeOf leaf va t.cluster
  happen t.pool.ctx { ekind := 4, die := t.pool.die.toNat, key := BitVec.ofNat 64 (a / 8 * 8), value := first,
                      value2 := srcWord .atm e.num, task := t.register }

/-- The watch at the home (R440 Table 4: SKID 7). -/
def atmWatch (e : Entry) (leaf : Word) (runs : List (Word × Nat)) : M Unit := do
  let t ← theTask
  watchHome 6 .atomic (e.source t) (hbmRuns leaf t.cluster runs) fun _ => 7

/-- The entry at the head of ATM leaves without performing, and its task's domain aborts with a record (R275, R281). -/
def dropAtomic (abort : State → State) : M Unit := do
  popHead .atm
  modify abort
  pause

/-- The target is poisoned: a returning entry appends its entries marked poisoned; a return-free one records UE_DATA
and its domain aborts (R275, R433). -/
def poisonedTarget (e : Entry) (va : Word) (returns : Nat) : M Unit := do
  if returns = 0 then
    dropAtomic fun s =>
      let t := s.cur
      let n := t.pool.ctx
      let r := plainRecord s n t.pool.rcb fcData 0 va.toNat 0 e.num.toNat t.pool.node.toNat
      (s.logTask t r).1.abortTask t
  for _ in List.range returns do
    pushPort 60 ⟨0, true⟩

/-- A read-modify-write at the home: f gives the new number, or none to leave the word; a returning form appends the old
one to s60 (R269 to R271). -/
def atomicAt (e : Entry) (va : Word) (n : Nat) (returning : Bool) (f : Nat → Option Nat) : M Unit := do
  let leaf ← atmTarget e va n false
  if ← homePoisoned e leaf va n then
    poisonedTarget e va (if returning then 1 else 0)
  else
    let old ← homeNum leaf va n
    if returning then
      atmEvent e leaf va (BitVec.ofNat 64 old)
      pushPort 60 ⟨BitVec.ofNat 64 old, false⟩
    match f old with
    | some x => homePut leaf va (leBytes n x)
    | none => pure ()
    atmWatch e leaf [(va, n)]
    countFor e n

/-! ## Operations (R269, R270) -/

/-- The operand size (R267). -/
def atSize (dbl : Bool) : Nat := if dbl then 8 else 4

/-- The new value of an integer atomic on n-byte words (R269). -/
def atomV (op : AtomOp) (n old t : Nat) : Nat :=
  let m := 2 ^ (8 * n)
  let so := signedOf (8 * n) old
  let st := signedOf (8 * n) t
  match op with
  | .add => (old + t) % m
  | .and => old &&& t
  | .or => old ||| t
  | .xor => old ^^^ t
  | .min => if st < so then t else old
  | .max => if so < st then t else old
  | .minu => if t < old then t else old
  | .maxu => if old < t then t else old
  | .swap => t

/-- The sum of two BF16 halves (R270). -/
def bf16Sum (a b : Nat) : Nat := (Fmt.bf16.enc .rne 0 ((Fmt.bf16.dec a).add (Fmt.bf16.dec b)).1).1

/-- The new value of a floating atomic on a 32-bit word (R270). -/
def fatomV (op : FatomOp) (old t : Nat) : Nat :=
  let a : Lane := BitVec.ofNat 32 old
  let b : Lane := BitVec.ofNat 32 t
  match op with
  | .fadd32 => (faddL a b).1.toNat
  | .fmin32 => (fminL a b).1.toNat
  | .fmax32 => (fmaxL a b).1.toNat
  | .faddbf2 => bf16Sum (old % 65536) (t % 65536) + bf16Sum (old / 65536 % 65536) (t / 65536 % 65536) * 65536

/-- The operand of an atomic: its low 8n bits. -/
def lowBytes (n : Nat) (x : Word) : Nat := x.toNat % 2 ^ (8 * n)

/-- VA of a target in layout L2. -/
def Entry.target (e : Entry) (off : BitVec 19) : Word := e.base + sext 19 off

/-- ATOM (R269). -/
def execAtom (op : AtomOp) (dbl : Bool) (h : HReg) (b : SReg) (o : AtOrd) (off : BitVec 19) :=
  atmOp (.atom op dbl h b o off) 2 fun e =>
    let n := atSize dbl
    atomicAt e (e.target off) n true fun old => some (atomV op n old (lowBytes n (e.caps.getD 0 0)))
/-- ATOMNR (R269). -/
def execAtomnr (op : AtomOp) (dbl : Bool) (h : HReg) (b : SReg) (o : AtOrd) (off : BitVec 19) :=
  atmFree (.atomnr op dbl h b o off) 2 fun e =>
    let n := atSize dbl
    atomicAt e (e.target off) n false fun old => some (atomV op n old (lowBytes n (e.caps.getD 0 0)))
/-- FATOM (R270). -/
def execFatom (op : FatomOp) (h : HReg) (b : SReg) (o : AtOrd) (off : BitVec 19) :=
  atmOp (.fatom op h b o off) 2 fun e =>
    atomicAt e (e.target off) 4 true fun old => some (fatomV op old (lowBytes 4 (e.caps.getD 0 0)))
/-- FATOMNR (R270). -/
def execFatomnr (op : FatomOp) (h : HReg) (b : SReg) (o : AtOrd) (off : BitVec 19) :=
  atmFree (.fatomnr op h b o off) 2 fun e =>
    atomicAt e (e.target off) 4 false fun old => some (fatomV op old (lowBytes 4 (e.caps.getD 0 0)))
/-- CAS: the comparand is captured first, then the new value (R70, R271). -/
def execCas (dbl : Bool) (h : HReg) (b d : SReg) (o : AtOrd) (off : BitVec 19) :=
  atmOp (.cas dbl h b d o off) 2 fun e =>
    let n := atSize dbl
    atomicAt e (e.target off) n true fun old =>
      if old = lowBytes n (e.caps.getD 0 0) then some (lowBytes n (e.caps.getD 1 0)) else none

/-- AFENCE: what it covers is counted as it is dispatched (R274). -/
def execAfence (s : State) : Host.Outcome State Fault Refusal :=
  match s.act with
  | none => runM (do
      dispatch .atm .afence 1 fun _ => pure ()
      modTask fun t =>
        let q := t.queue .atm
        let last := q.getLast?.map fun e => { e with caps := [BitVec.ofNat 64 t.freed] }
        { t.setQueue .atm (q.dropLast ++ last.toList) with freed := 0 }) s
  | some e => runM (perform e (do
      let t ← theTask
      let freeAdd (x : Entry) : Bool := match x.ins with
        | .vfaddnr .. => decide (x.ord < e.ord)
        | _ => false
      if (t.queue .stq).any freeAdd then stall
      happen t.pool.ctx { ekind := 4, die := t.pool.die.toNat, key := 0, value := e.caps.getD 0 0,
                          value2 := srcWord .atm e.num, task := t.register }
      pushPort 60 ⟨e.caps.getD 0 0, false⟩)) s

/-! ## Continuations (R276, R281, R483) -/

/-- The free slot of lowest number of a home's continuation launch queue: 32 slots (R276; log 11). -/
def State.clqSlot (s : State) (home : Nat) : Option Nat :=
  (List.range 32).find? fun i => !(s.clq.any fun c => c.home == home && c.slot == i)

/-- The slot that a continuation reserves: none while the home's queue or the pool of its die is full (R276, R280, R321). -/
def State.clqRoom (s : State) (home : Nat) : Option Nat := if (s.freeIndex (home / 64)).isSome then s.clqSlot home else none

/-- The live launch of a context whose node table holds a DC word, the earliest accepted of several, and the node
(R483). -/
def State.nodeAt (s : State) (n : Nat) (va : Word) : Option (Launch × Nat) :=
  (s.launches.find? fun l => l.accepted && l.ctx == n &&
    decide (l.nodeTbl.toNat ≤ va.toNat ∧ va.toNat < l.nodeTbl.toNat + 64 * l.nodeCnt)).map fun l =>
      (l, (va.toNat - l.nodeTbl.toNat) / 64)

/-- The work of a continuation atomic (R276): pairs of s60 entries. -/
def continuation (e : Entry) (dbl : Bool) (k : KExt) (want : Word) (f : Nat → Nat) : M Unit := do
  let n := atSize dbl
  let va := e.base + sext 8 k.off8 * BitVec.ofNat 64 n
  let leaf ← atmTarget e va n true
  let s ← get
  let t := s.cur
  let (_, pa) := placeOf leaf va t.cluster
  let home := homeOf (leafMs leaf) pa
  match s.clqRoom home with
  | none => do
    pushPort 60 ⟨2, false⟩
    pushPort 60 ⟨0, false⟩
  | some slot =>
    if ← homePoisoned e leaf va n then
      poisonedTarget e va 2
    else
      let old ← homeNum leaf va n
      let held := contHolds k.cond old (lowBytes n want)
      atmEvent e leaf va (if held then 0 else 1)
      homePut leaf va (leBytes n (f old))
      if held then
        modify fun s => { s with clq := s.clq ++ [
          { home, slot, die := BitVec.ofNat 2 (dieOf pa), ctx := t.pool.ctx, tpl := some k.tpl,
            old := BitVec.ofNat 64 old, va, user := k.user, issuerNode := t.pool.node,
            issuerRcb := t.pool.rcb, ttbl := t.pool.ttbl }] }
      pushPort 60 ⟨if held then 0 else 1, false⟩
      pushPort 60 ⟨BitVec.ofNat 64 old, false⟩
      atmWatch e leaf [(va, n)]
      countFor e n

/-- ATOMK: the condition operand is captured first (R276). -/
def execAtomk (op : AtomOp) (dbl : Bool) (h : HReg) (b d : SReg) (k : KExt) :=
  atmOp (.atomk op dbl h b d k) 3 fun e =>
    let n := atSize dbl
    continuation e dbl k (e.caps.getD 0 0) fun old => atomV op n old (lowBytes n (e.caps.getD 1 0))
/-- CASK (R276). -/
def execCask (dbl : Bool) (h : HReg) (b d : SReg) (k : KExt) :=
  atmOp (.cask dbl h b d k) 3 fun e =>
    let n := atSize dbl
    continuation e dbl k (e.caps.getD 0 0) fun old =>
      if old = lowBytes n (e.caps.getD 0 0) then lowBytes n (e.caps.getD 1 0) else old

/-- How a decrement of a dependence counter ends (R281, R317, R330). -/
inductive Decrement
  | full
  | poisoned
  | under
  | performed (old : Nat)
  deriving DecidableEq, Repr

/-- A decrement of a DC word at its home, for a task of a context: a counter taken from 1 to 0 enqueues its node
through a slot of the home's launch queue (R281, R483); a poisoned live counter aborts its launch's domain (R330). -/
def State.decrement (s : State) (t : Task) (leaf va : Word) : State × Decrement :=
  let (_, pa) := placeOf leaf va 0
  let home := homeOf (leafMs leaf) pa
  let n := t.pool.ctx
  match s.clqRoom home with
  | none => (s, .full)
  | some slot =>
    if s.poisoned .hbm pa 8 then
      match s.nodeAt n va with
      | none => (s, .poisoned)
      | some (l, _) =>
        let r := plainRecord s n l.lrcb fcState (dieOf pa) va.toNat 1 0 0
        ((s.logFault n l.lrcb r l.image).1.abortDomain n l.lrcb l.image, .poisoned)
    else
      let old := Mem.num s.hbm pa 8
      if old = 0 then (s, .under) else
      let bs := leBytes 8 (old - 1)
      let s := (if leafMs leaf then s.moleWrite pa bs else s.hbmWrite pa bs).noteWrite .hbm pa 8
      if old ≠ 1 then (s, .performed old) else
      match s.nodeAt n va with
      | none => (s, .performed old)
      | some (l, i) =>
        ({ s with clq := s.clq ++ [
            { home, slot, die := ((l.nodes.getD i {}).owner), ctx := n, tpl := none, serial := l.serial, old := 1, va,
              user := BitVec.ofNat 32 i, issuerNode := t.pool.node, issuerRcb := t.pool.rcb, ttbl := l.lttbl }] }, .performed old)

/-- Record DC_UNDER against a task's RCB and abort its domain (R281, R317, R433). -/
def State.dcUnder (s : State) (t : Task) (va : Word) : State :=
  let n := t.pool.ctx
  (s.logTask t (plainRecord s n t.pool.rcb fcUnder 0 va.toNat 0 0 t.pool.node.toNat)).1.abortTask t

/-- DCDEC (R281). -/
def execDcdec (h : HReg) (off : BitVec 19) :=
  atmOp (.dcdec h off) 2 fun e => do
    let va := e.target off
    if va.toNat % 64 ≠ 8 then
      let _ ← accessLeaf e
      raiseE e.info fcAlign va
    let leaf ← atmTarget e va 8 true
    let s ← get
    let t := s.cur
    match (s.decrement t leaf va).2 with
    | .full => do
      pushPort 60 ⟨2, false⟩
      pushPort 60 ⟨0, false⟩
    | .poisoned => do
      set (s.decrement t leaf va).1
      if (← get).cur.status = .idle then pause
      poisonedTarget e va 2
    | .under => dropAtomic fun s => s.dcUnder t va
    | .performed old => do
      atmEvent e leaf va (if old = 1 then 0 else 1)
      modify fun s => (s.decrement t leaf va).1
      pushPort 60 ⟨if old = 1 then 0 else 1, false⟩
      pushPort 60 ⟨BitVec.ofNat 64 old, false⟩
      atmWatch e leaf [(va, 8)]
      countFor e 8

/-! ## Global queues (R282, R283) -/

/-- A queue header as its home reads it: CAP, HEAD and TAIL; Q_OVF where it is no sound header of a ring within its
page. TAIL − HEAD is exact (R7): a HEAD above TAIL overflows nothing (log 66). -/
def queueHeader (e : Entry) (leaf va : Word) : M (Nat × Nat × Nat) := do
  let bs ← rawBytes leaf va 64
  let cap := leNat (bs.take 4)
  let head := leNat ((bs.drop 8).take 8)
  let tail := leNat ((bs.drop 16).take 8)
  let reserved := ((bs.drop 4).take 4 ++ (bs.drop 24).take 40).any (· != 0)
  let sound := decide (1 ≤ cap ∧ cap ≤ 2 ^ 24) && 2 ^ Nat.log2 cap == cap
  if !sound || reserved || decide (head + cap < tail) || decide (roomIn leaf va < 64 + 8 * cap) then
    raiseE e.info fcQueue va
  return (cap, head, tail)

/-- VA of a slot of a ring. -/
def slotVa (va : Word) (cap i : Nat) : Word := va + BitVec.ofNat 64 (64 + 8 * (i % cap))

/-- QPUSH (R283): the slot is written before the new TAIL. -/
def execQpush (h : HReg) (b : SReg) (o : AtOrd) (off : BitVec 19) :=
  atmOp (.qpush h b o off) 2 fun e => do
    let va := e.target off
    let leaf ← atmTarget e va 64 true
    if ← homePoisoned e leaf va 64 then poisonedTarget e va 1
    else
      let (cap, head, tail) ← queueHeader e leaf va
      if tail = head + cap then
        atmEvent e leaf va 1
        pushPort 60 ⟨1, false⟩
        atmWatch e leaf [(va, 64)]
      else
        atmEvent e leaf va 0
        homePut leaf (slotVa va cap tail) (leBytes 8 (e.caps.getD 0 0).toNat)
        homePut leaf (va + 16) (leBytes 8 ((tail + 1) % 2 ^ 64))
        pushPort 60 ⟨0, false⟩
        atmWatch e leaf [(va, 64), (slotVa va cap tail, 8)]
        countFor e 8

/-- QPOP (R283). -/
def execQpop (h : HReg) (o : AtOrd) (off : BitVec 19) :=
  atmOp (.qpop h o off) 2 fun e => do
    let va := e.target off
    let leaf ← atmTarget e va 64 true
    if ← homePoisoned e leaf va 64 then poisonedTarget e va 2
    else
      let (cap, head, tail) ← queueHeader e leaf va
      if tail = head then
        atmEvent e leaf va 1
        pushPort 60 ⟨1, false⟩
        pushPort 60 ⟨0, false⟩
        atmWatch e leaf [(va, 64)]
      else if ← homePoisoned e leaf (slotVa va cap head) 8 then poisonedTarget e va 2
      else
        atmEvent e leaf va 0
        let x ← homeNum leaf (slotVa va cap head) 8
        homePut leaf (va + 8) (leBytes 8 ((head + 1) % 2 ^ 64))
        pushPort 60 ⟨0, false⟩
        pushPort 60 ⟨BitVec.ofNat 64 x, false⟩
        atmWatch e leaf [(va, 64), (slotVa va cap head, 8)]
        countFor e 8

/-! ## Near-bank commands (R284 to R287, R367 to R369) -/

/-- An operand of a near-bank command: its VA, whether it is written, and whether its page needs W = 1 (R285). -/
structure NbOperand where
  va : Word
  write : Bool
  permit : Bool := true
  deriving DecidableEq, Repr

/-- A near-bank block (R284 Table 6). -/
structure NbBlock where
  y : Word
  x : Word
  m : Word
  v : Word
  nel : Nat
  par : List Lane
  deriving DecidableEq, Repr

/-- The block of 128 bytes. -/
def nbBlock (bs : List Byte) : NbBlock :=
  { y := fieldAt 64 bs 0, x := fieldAt 64 bs 8, m := fieldAt 64 bs 0x10, v := fieldAt 64 bs 0x18
    nel := leNat ((bs.drop 0x20).take 4), par := (List.range 8).map fun i => fieldAt 32 bs (0x28 + 4 * i) }

/-- The parameters an operation uses (R284 Table 6). -/
def NbOp.params : NbOp → Nat
  | .axpy | .scale => 1
  | .sum => 0
  | .adamw => 7

/-- Every field that the operation does not use is zero (R284). -/
def nbFieldsOk (op : NbOp) (bs : List Byte) : Bool :=
  let zero (off n : Nat) := ((bs.drop off).take n).all (· == 0)
  zero 0x24 4 && zero 0x48 56 && zero (0x28 + 4 * NbOp.params op) (32 - 4 * NbOp.params op) &&
  (match op with
    | .axpy => zero 0x10 16
    | .adamw => true
    | _ => zero 8 24)

/-- The operands of an operation in the order of Table 6. -/
def NbBlock.operands (b : NbBlock) : NbOp → List NbOperand
  | .axpy => [{ va := b.y, write := true }, { va := b.x, write := false, permit := false }]
  | .scale => [{ va := b.y, write := true }]
  | .sum => [{ va := b.y, write := false }]
  | .adamw => [{ va := b.y, write := true }, { va := b.x, write := false, permit := false }, { va := b.m, write := true },
      { va := b.v, write := true }]

/-- The PA of an operand's element i: the one at logical offset (VA mod 2 MiB) + 4i of its page (R285, R368). -/
def nbElemPa (leaf va : Word) (i : Nat) : Nat := leafPfn leaf * 4096 + striped (va.toNat % 2 ^ 21 + 4 * i)

/-- The first operand that some test refuses raises a fault at its VA. -/
def nbCheck (e : Entry) (code : Byte) (bad : NbOperand × Word → Bool) : List (NbOperand × Word) → M Unit
  | [] => pure ()
  | o :: rest => do
    if bad o then raiseE e.info code o.1.va
    nbCheck e code bad rest

/-- The checks of R285 on operands of n > 0 elements: each with its leaf. -/
def nbLeaves (e : Entry) (os : List NbOperand) (n : Nat) : M (List (NbOperand × Word)) := do
  for o in os do
    if o.va.toNat % 2 ^ 21 + 4 * n > 2 ^ 21 then raiseE e.info fcNbCross o.va
  let ls ← os.mapM fun o => do return (o, ← walkFor e.info o.va o.write)
  let die := match ls with
    | (_, l) :: _ => dieOf (leafPfn l * 4096)
    | [] => 0
  nbCheck e fcNbAttr (fun o => leafSz o.2 != 2 || !leafCc o.2 || !leafPin o.2 || !localHbm o.2 ||
    dieOf (leafPfn o.2 * 4096) != die) ls
  nbCheck e fcFmt (fun o => leafFmt o.2 != 0 || leafBg o.2 != 0) ls
  nbCheck e fcPerm (fun o => o.1.permit && !leafW o.2) ls
  nbCheck e fcField (fun o => os.any fun p => p.va != o.1.va && meet (p.va.toNat, 4 * n) (o.1.va.toNat, 4 * n)) ls
  return ls

/-- rne of an exact value, as an exact value. -/
def rneV (x : FV) : FV := f32 (rneF32 x)

/-- The new operands of element i: AXPY, SCALE and ADAMW (R286), from the old ones in the order of Table 6. -/
def nbStep (op : NbOp) (par : List Lane) (old : List FV) : List FV :=
  let p (i : Nat) : FV := f32 (par.getD i 0)
  let o (i : Nat) : FV := old.getD i .nan
  let mul (a b : FV) : FV := (a.mul b).1
  let add (a b : FV) : FV := (a.add b).1
  match op with
  | .axpy => [rneV (add (o 0) (mul (p 0) (o 1))), o 1]
  | .scale => [rneV (mul (p 0) (o 0))]
  | .sum => [o 0]
  | .adamw =>
    let w := o 0
    let g := o 1
    let a1 := rneV (add .one (p 1).negate)
    let a2 := rneV (add .one (p 2).negate)
    let m := rneV (add (mul (p 1) (o 2)) (mul a1 g))
    let v := rneV (add (mul (p 2) (o 3)) (mul (mul a2 g) g))
    let den := rneV (add (rneV (sqrtV (rneV (mul v (p 6)))).1) (p 3))
    let u := rneV ((rneV (mul m (p 5))).div den).1
    let step := rneV (mul (p 0) (rneV (add u (rneV (mul (p 4) w)))))
    [rneV (add w step.negate), g, m, v]

/-- The elements of a command, in ascending order: every operand is read before any is written, and m and v are written before w
(R286). -/
def nbElements (op : NbOp) (par : List Lane) (ls : List (NbOperand × Word)) : List Nat → M Unit
  | [] => pure ()
  | i :: rest => do
    let s ← get
    let old := ls.map fun o => f32 (BitVec.ofNat 32 (Mem.num s.hbm (nbElemPa o.2 o.1.va i) 4))
    let new := nbStep op par old
    let writes := ls.zip new
    set ((writes.drop 1 ++ writes.take 1).foldl (fun s x =>
      if x.1.1.write then (s.moleWrite (nbElemPa x.1.2 x.1.1.va i) (leBytes 4 (rneF32 x.2).toNat)).noteWrite .hbm (nbElemPa x.1.2 x.1.1.va i) 4
      else s) s)
    nbElements op par ls rest

/-- SUM: groups of sixteen ascending elements, each rounded once (R286). -/
def nbSum : Nat → List FV → FV → FV
  | 0, _, acc => acc
  | fuel + 1, l, acc =>
    if l.isEmpty then acc else
    nbSum fuel (l.drop 16) (rneV ((l.take 16).foldl (fun x y => (x.add y).1) acc))

/-- The work of an nbx entry (R284 to R287). -/
def nbBody (op : NbOp) (e : Entry) : M Unit := do
  let a := e.caps.getD 0 0
  if a.toNat % 128 ≠ 0 then raiseE e.info fcAlign a
  if !inScratch (← theTask) a 128 then raiseE e.info fcBound a
  fillFor a 128
  let bs := Mem.readN (← theTask).scratch a.toNat 128
  if !nbFieldsOk op bs then raiseE e.info fcField a
  let b := nbBlock bs
  let os := b.operands op
  for o in os do
    if o.va.toNat % 4 ≠ 0 then raiseE e.info fcAlign o.va
  if b.nel ≠ 0 then
    let ls ← nbLeaves e os b.nel
    aliasFilter e b.y (os.map fun o => (o.va.toNat, 4 * b.nel))
    let s ← get
    match ls.find? fun o => (List.range b.nel).any fun i => s.poisoned .hbm (nbElemPa o.2 o.1.va i) 4 with
    | some o => raiseE e.info fcData o.1.va
    | none => pure ()
    match op with
    | .sum => do
      let l := ls.flatMap fun o => (List.range b.nel).map fun i =>
        f32 (BitVec.ofNat 32 (Mem.num s.hbm (nbElemPa o.2 o.1.va i) 4))
      let x := rneF32 (nbSum (b.nel + 1) l (.fin true 0 1))
      pushPort 60 ⟨x.setWidth 64, false⟩
    | _ => nbElements op b.par ls (List.range b.nel)
    let t ← theTask
    watchMoles 7 (some (t.pool.ctx, t.register)) (ls.flatMap fun o =>
      if o.1.write then (List.range b.nel).map fun i => (nbElemPa o.2 o.1.va i, 4) else [])
    modify fun s => s.countBytes s.cur.pool.die.toNat 0 (s.fnOf s.cur.pool.ctx) (4 * b.nel * os.length)

/-- NBX: SUM returns its result; the other forms are free of a return, and the next afence covers them (R274, R286). -/
def execNbx (op : NbOp) (a : SReg) (o : AtOrd) (s : State) : Host.Outcome State Fault Refusal :=
  if op = .sum then atmOp (.nbx op a o) 2 (nbBody op) s else atmFree (.nbx op a o) 2 (nbBody op) s

end Sys2Proof.Machine
end

