-- ==== Sys2Proof/Machine/Shrink.lean ====
section
/-! DEFINITION. The shrink of a sketch (R240 to R243): exact arithmetic, each rounding to FP32 or FP64 named, with the
flags of R141 gathered beside the values. -/

namespace Sys2Proof.Machine

/-- A computation that gathers flags. -/
abbrev FlM := StateM Fl

/-- round_rne_fp32 of an exact value (R240). -/
def rn (x : FV × Fl) : FlM FV := do
  let (c, g) := toF32 x.1
  modify (· ||| x.2 ||| g)
  return f32 c

/-- rne64 of an exact value (R240). -/
def rn64 (x : FV × Fl) : FlM FV := do
  let (c, g) := specFp64.enc .rne 0 x.1
  modify (· ||| x.2 ||| g)
  return specFp64.dec c

/-- The group rule of R143 from a value with terms. -/
def groupRule : Nat → FV → List (FV × Fl) → FlM FV
  | 0, acc, _ => return acc
  | fuel + 1, acc, l => do
    if l.isEmpty then return acc
    let (x, g) := groupSum acc (l.take 16)
    modify (· ||| g)
    groupRule fuel x (l.drop 16)

/-- The group rule over all of a list of terms. -/
def group (acc : FV) (l : List (FV × Fl)) : FlM FV := groupRule (l.length + 1) acc l

/-- dot(x, y): the group rule with β = 0 (R240). -/
def dot (x y : List FV) : FlM FV := group (.fin true 0 1) (List.zipWith FV.mul x y)

/-- The terms −x·y. -/
def negProds (x y : List FV) : List (FV × Fl) :=
  List.zipWith (fun a b => let (p, g) := a.mul b; (p.negate, g)) x y

/-- +0. -/
def fzero : FV := .fin false 0 1

/-- a ≤ b, false with a NaN. -/
def FV.le (a b : FV) : Bool := a.lt b || a.eq b

/-- The Gram matrix of columns (R240). -/
def gram (x : List (List FV)) : FlM (List (List FV)) := x.mapM fun a => x.mapM fun b => dot a b

/-- An entry of a matrix by row. -/
def entry (m : List (List FV)) (i j : Nat) : FV := (m.getD i []).getD j fzero

/-- The Cholesky factor of one side: its rows, which columns are dependent, and the energy dropped (R240). -/
def cholesky (g other : List (List FV)) (r : Nat) (dropped : FV) : FlM (List (List FV) × List Bool × FV) :=
  (List.range r).foldlM (fun (acc : List (List FV) × List Bool × FV) j => do
    let (rows, dep, dropped) := acc
    let colj := rows.map fun w => w.getD j fzero
    let d ← group (entry g j j) (negProds colj colj)
    if FV.le d ((FV.fin false 1 (2 ^ 20)).mul (entry g j j)).1 then
      let (p, f) := (d.max fzero).mul (entry other j j)
      let (y, f2) := dropped.add p
      return (rows ++ [List.replicate r fzero], dep ++ [true], ← rn64 (y, f ||| f2))
    else
      let tjj ← rn (sqrtV d)
      let tail ← (span (j + 1) r).mapM fun q => do
        let e ← group (entry g j q) (negProds colj (rows.map fun w => w.getD q fzero))
        rn (e.div tjj)
      return (rows ++ [List.replicate j fzero ++ [tjj] ++ tail], dep ++ [false], dropped)) ([], [], dropped)

/-- Forward substitution: the columns Q of one side (R240). -/
def substitute (x t : List (List FV)) (dep : List Bool) : FlM (List (List FV)) :=
  (List.range x.length).foldlM (fun q j => do
    let xj := x.getD j []
    if dep.getD j false then return q ++ [List.replicate xj.length fzero]
    let colj := (List.range j).map fun l => entry t l j
    let qj ← (List.range xj.length).mapM fun i => do
      let e ← group (xj.getD i fzero) (negProds colj (q.map fun c => c.getD i fzero))
      rn (e.div (entry t j j))
    return q ++ [qj]) []

/-- One pass over both sides, u then v: the new columns, the factors T, and the energy dropped (R240). -/
def shrinkPass (xu xv : List (List FV)) (dropped : FV) :
    FlM (List (List FV) × List (List FV) × List (List FV) × List (List FV) × FV) := do
  let gu ← gram xu
  let gv ← gram xv
  let (tu, du, dropped) ← cholesky gu gv xu.length dropped
  let qu ← substitute xu tu du
  let (tv, dv, dropped) ← cholesky gv gu xv.length dropped
  let qv ← substitute xv tv dv
  return (qu, qv, tu, tv, dropped)

/-- The product of two matrices by rows, each entry a dot over the inner index (R240). -/
def matMul (a b : List (List FV)) (r : Nat) : FlM (List (List FV)) :=
  a.mapM fun row => (List.range r).mapM fun j => dot row (b.map fun w => w.getD j fzero)

/-- Rotate two columns (R241). -/
def rotate (cs sn : FV) (m : List (List FV)) (p q : Nat) : FlM (List (List FV)) := do
  let mix (a x b y : FV) (neg : Bool) : FlM FV := do
    let (u, f) := a.mul x
    let (w, f2) := b.mul y
    let (z, f3) := u.add (if neg then w.negate else w)
    rn (z, f ||| f2 ||| f3)
  let rows ← (List.zip (m.getD p []) (m.getD q [])).mapM fun xy => do
    return (← mix cs xy.1 sn xy.2 true, ← mix sn xy.1 cs xy.2 false)
  return (m.set p (rows.map (·.1))).set q (rows.map (·.2))

/-- rne(sqrt(rne(1 + x·x))) (R241). -/
def rootOnePlus (x : FV) : FlM FV := do
  let (p, f) := x.mul x
  let (y, f2) := FV.one.add p
  rn (sqrtV (← rn (y, f ||| f2)))

/-- The absolute value. -/
def magV : FV → FV
  | .nan => .nan
  | .inf _ => .inf false
  | .fin _ n d => .fin false n d

/-- One pair of a Jacobi sweep: the columns of C and W, and whether a rotation was made (R241). -/
def jacobiPair (acc : List (List FV) × List (List FV) × Bool) (pq : Nat × Nat) :
    FlM (List (List FV) × List (List FV) × Bool) := do
  let (c, w, _) := acc
  let cp := c.getD pq.1 []
  let cq := c.getD pq.2 []
  let a ← dot cp cp
  let b ← dot cq cq
  let g ← dot cp cq
  let root ← rn (sqrtV (← rn (a.mul b)))
  if FV.le (magV g) ((FV.fin false 1 (2 ^ 24)).mul root).1 then return acc
  let (diff, f) := b.add a.negate
  let (z0, f2) := diff.div ((FV.fin false 2 1).mul g).1
  let z ← rn (z0, f ||| f2)
  let (den, f3) := (magV z).add (← rootOnePlus z)
  let tau ← rn ((FV.fin (z.lt fzero) 1 1).div (← rn (den, f3)))
  let cs ← rn (FV.one.div (← rootOnePlus tau))
  let sn ← rn (cs.mul tau)
  return (← rotate cs sn c pq.1 pq.2, ← rotate cs sn w pq.1 pq.2, true)

/-- Sweeps until one makes no rotation, at most the given number (R241). -/
def jacobi (pairs : List (Nat × Nat)) : Nat → List (List FV) → List (List FV) → FlM (List (List FV) × List (List FV))
  | 0, c, w => return (c, w)
  | n + 1, c, w => do
    let (c, w, rotated) ← pairs.foldlM jacobiPair (c, w, false)
    if rotated then jacobi pairs n c w else return (c, w)

/-- Insert an index into a list in descending order of σ, after the equal ones (R242); where a NaN stands is the model's reading (log 69).
-/
def insertDesc (sig : List FV) (i : Nat) : List Nat → List Nat
  | [] => [i]
  | x :: r => if (sig.getD x fzero).lt (sig.getD i fzero) then i :: x :: r else x :: insertDesc sig i r

/-- The order π of the singular values (R242). -/
def sortDesc (sig : List FV) : List Nat := (List.range sig.length).foldl (fun l i => insertDesc sig i l) []

/-- The kept σ′ and the energy dropped, by MODE (R242). -/
def keepSigma (fd : Bool) (sq : List FV) (sig : List FV) (order : List Nat) (t : Nat) (dropped : FV) : FlM (List FV × FV) := do
  let sqAt (i : Nat) : FV := sq.getD (order.getD i 0) fzero
  let (kept, dropped) ← (List.range t).foldlM (fun (acc : List FV × FV) i => do
    if !fd then return (acc.1 ++ [sig.getD (order.getD i 0) fzero], acc.2)
    let (x, f) := (sqAt i).add (sqAt t).negate
    let s2 ← rn64 (x.max fzero, f)
    let sv ← rn (sqrtV s2)
    let (p, f2) := sv.mul sv
    let (y, f3) := (sqAt i).add p.negate
    let e ← rn64 (y, f2 ||| f3)
    return (acc.1 ++ [sv], ← rn64 (acc.2.add e))) ([], dropped)
  let dropped ← (span t order.length).foldlM (fun d i => rn64 (d.add (sqAt i))) dropped
  return (kept, dropped)

/-- The shrink of columns U and V to t: the new columns as FP32 values before their encoding, and the energy dropped
(R240 to R242). -/
def shrinkTo (u v : List (List FV)) (t : Nat) (fd : Bool) : FlM (List (List FV) × List (List FV) × FV) := do
  let r := u.length
  let (xu, xv, tu1, tv1, d1) ← shrinkPass u v fzero
  let (qu, qv, tu2, tv2, d2) ← shrinkPass xu xv d1
  let ru ← matMul tu2 tu1 r
  let rv ← matMul tv2 tv1 r
  let cRows ← ru.mapM fun a => rv.mapM fun b => dot a b
  let c0 := (List.range r).map fun j => cRows.map fun w => w.getD j fzero
  let w0 := (List.range r).map fun j => (List.range r).map fun i => if i = j then FV.one else fzero
  let pairs := (List.range r).flatMap fun p => (span (p + 1) r).map fun q => (p, q)
  let (c, w) ← jacobi pairs 8 c0 w0
  let sig ← c.mapM fun cj => do rn (sqrtV (← dot cj cj))
  let p ← (List.zip c sig).mapM fun x =>
    if x.2.isZero then return x.1.map fun _ => fzero else x.1.mapM fun y => rn (y.div x.2)
  let order := sortDesc sig
  let sq := sig.map fun x => (x.mul x).1
  let (kept, dropped) ← keepSigma fd sq sig order t d2
  let rowsOf (q : List (List FV)) : List (List FV) :=
    (List.range (q.headD []).length).map fun e => q.map fun c => c.getD e fzero
  let nu ← (List.range t).mapM fun i => (rowsOf qu).mapM fun row => do
    rn ((← dot row (p.getD (order.getD i 0) [])).mul (kept.getD i fzero))
  let nv ← (List.range t).mapM fun i => (rowsOf qv).mapM fun row => dot row (w.getD (order.getD i 0) [])
  return (nu, nv, dropped)

end Sys2Proof.Machine
end

