-- ==== Sys2Proof/Machine/Skq.lean ====
section
/-! DEFINITION. The sketch queue (R222 to R239, R246 to R249): control blocks, slots and every SKQ instruction. -/

namespace Sys2Proof.Machine

/-! ## Memory on path SK (R248) -/

/-- Bytes from an address, page by page. -/
def readRange (f : FaultInfo) : Nat → Word → Nat → M (List Byte)
  | 0, _, _ => return []
  | fuel + 1, va, n => do
    if n = 0 then return []
    let leaf ← walkFor f va false
    let k := min n (roomIn leaf va)
    let bs ← loadBytes f leaf va k
    return bs ++ (← readRange f fuel (va + BitVec.ofNat 64 k) (n - k))

/-- Every page of a run can be written: W = 1 and no delta page, or PAGE_PERM (R228, R237, R371). -/
def checkRange (f : FaultInfo) : Nat → Word → Nat → M Unit
  | 0, _, _ => pure ()
  | fuel + 1, va, n => do
    if n ≠ 0 then
      let leaf ← walkFor f va true
      if !leafW leaf || leafDlt leaf then raiseE { f with write := true } fcPerm va
      let k := min n (roomIn leaf va)
      checkRange f fuel (va + BitVec.ofNat 64 k) (n - k)

/-- Store bytes from an address, page by page; the runs of HBM bytes written. -/
def writeRange (f : FaultInfo) : Nat → Word → List Byte → M (List (Nat × Nat))
  | 0, _, _ => return []
  | fuel + 1, va, bs => do
    if bs.isEmpty then return []
    let leaf ← walkFor f va true
    let k := min bs.length (roomIn leaf va)
    storeBytes leaf va (bs.take k)
    let here := hbmRuns leaf (← theTask).cluster [(va, k)]
    return here ++ (← writeRange f fuel (va + BitVec.ofNat 64 k) (bs.drop k))

/-- Pages that a run of bytes can touch, and one more. -/
def rangeFuel (n : Nat) : Nat := n / 4096 + 2

/-- The source of the sketch unit of a task's cluster (R440 Table 4). -/
def skSource (t : Task) : Source := ⟨3, BitVec.ofNat 64 (t.cluster * 256), some (t.pool.ctx, t.register)⟩

/-- Read on path SK: tag 0 (R375). -/
def skRead (f : FaultInfo) (va : Word) (n : Nat) : M (List Byte) := do
  let bs ← readRange f (rangeFuel n) va n
  countRead 8 n
  return bs

/-- Write on path SK, with its count and its watch. -/
def skWrite (f : FaultInfo) (va : Word) (bs : List Byte) : M Unit := do
  let runs ← writeRange f (rangeFuel bs.length) va bs
  countRead 8 bs.length
  watchHome 3 .write (skSource (← theTask)) runs burstSkid

/-- Write results of elements on path SK. -/
def skPut (f : FaultInfo) (w : Nat) (p : Put) : M Unit := do
  storeElem f p.leaf p.elem p.bits
  countRead w 1
  let t ← theTask
  watchHome 3 .write (skSource t) (hbmRuns p.leaf t.cluster [(p.elem.va, elemBytes w)]) burstSkid

/-! ## Control blocks and slots (R222 to R225, R357) -/

/-- The fields of a control block's first 56 bytes. -/
def scbOf (bs : List Byte) : Scb :=
  let num (off n : Nat) := leNat ((bs.drop off).take n)
  { uva := fieldAt 64 bs 0, vva := fieldAt 64 bs 8, m := num 0x10 4, n := num 0x14 4, kcap := num 0x18 2,
    rank := num 0x1A 2, klim := num 0x1C 2, sfl := fieldAt 16 bs 0x1E, de := fieldAt 64 bs 0x20,
    shrn := fieldAt 64 bs 0x28, gen := fieldAt 64 bs 0x30 }

/-- The checks of R223, LOCK among them. -/
def scbOk (bs : List Byte) : Bool :=
  let c := scbOf bs
  decide (1 ≤ c.m ∧ c.m ≤ 32768 ∧ 1 ≤ c.n ∧ c.n ≤ 32768 ∧ 2 ≤ c.kcap ∧ c.kcap ≤ 256 ∧ c.rank ≤ c.kcap ∧
    1 ≤ c.klim ∧ c.klim < c.kcap) &&
  decide ((c.sfl.extractLsb' 1 2).toNat < 2) && c.sfl.extractLsb' 4 12 == 0 &&
  decide (c.uva.toNat % 64 = 0 ∧ c.vva.toNat % 64 = 0) && (bs.drop 0x38).all (· == 0)

/-- FF: the factor format (R222). -/
def Scb.fmt (c : Scb) : Fmt := if c.sfl.getLsbD 1 then .bf16 else .fp32
/-- RS: stochastic rounding of factors. -/
def Scb.rs (c : Scb) : Bool := c.sfl.getLsbD 3
/-- MODE: FD rather than TRUNC. -/
def Scb.fd (c : Scb) : Bool := c.sfl.getLsbD 0
/-- The bytes of a factor. -/
def Scb.fb (c : Scb) : Nat := (Scb.fmt c).bits / 8
/-- SU and SV: the bytes from one column to the next (R222). -/
def Scb.stride (c : Scb) (rows : Nat) : Nat := (rows * (Scb.fmt c).bits + 511) / 512 * 64
/-- The bytes of a working store (R225). -/
def Scb.storeBytes (c : Scb) : Nat := (Scb.stride c c.m + Scb.stride c c.n) * c.kcap

/-- The lowest offset at which a size fits among used ranges below a limit (R357). -/
def lowestGap (used : List (Nat × Nat)) (size limit : Nat) : Option Nat :=
  let fits (c : Nat) : Bool := decide (c + size ≤ limit) && used.all fun u => decide (u.1 + u.2 ≤ c ∨ c + size ≤ u.1)
  (0 :: used.map fun u => u.1 + u.2).foldl (fun best c =>
    if fits c && (match best with | none => true | some b => decide (c < b)) then some c else best) none

/-- The lowest place of a working store in the context's reserve on a die. -/
def State.sketchPlace (s : State) (n die size : Nat) : Option Nat :=
  (s.ctx? n).bind fun c =>
    lowestGap ((c.skUsed.filter fun u => u.1 == die).map fun u => (u.2.1, u.2.2)) size c.skBytes

/-- The LOCK value of a binding task (R222 Table 2). -/
def lockWord (t : Task) (k : KReg) : Word :=
  BitVec.ofNat 64 (2 ^ 63 + k.toNat * 2 ^ 48 + t.coreOf.getD 0 * 2 ^ 40 + t.pool.ctx % 2 ^ 32)

/-- The first byte and the length of column j of a factor in memory. -/
def Scb.column (c : Scb) (v : Bool) (j : Nat) : Word × Nat :=
  let rows := if v then c.n else c.m
  ((if v then c.vva else c.uva) + BitVec.ofNat 64 (j * Scb.stride c rows), rows * Scb.fb c)

/-- The elements of a raw column. -/
def columnOf (fb : Nat) (bs : List Byte) : List Lane :=
  (List.range (bs.length / fb)).map fun i => BitVec.ofNat 32 (leNat ((bs.drop (fb * i)).take fb))

/-! ## The shape of an SKQ instruction (R226, R227) -/

/-- The granules that an SKQ entry writes after all others: the three of the control block's fields in an sksave (R237). -/
def lastWrites (i : Instr) (ps : List Patch) : List Granule :=
  match i with
  | .sksave _ => (ps.drop (ps.length - 3)).map fun p => (p.space, p.granule)
  | _ => []

/-- An SKQ entry performs at its queue's head, after what earlier ones have left to land (R48, R389). -/
def performSk (e : Entry) (body : M Unit) : M Unit := do
  settlePath .sk
  performHead .skq e (lastWrites e.ins) body

/-- An SKQ instruction of n lanes. Its faults keep the demands that it made before them. -/
def skOp (i : Instr) (n : Nat) (body : Entry → M Unit) (s : State) : Host.Outcome State Fault Refusal :=
  match s.act with
  | none => runM (dispatch .skq i n fun _ => pure ()) s
  | some e => runM (do performSk e (keeping (body e)); stopDue) s

/-- A bound slot, or SK_STATE; open columns are refused unless the entry may meet them (R227). -/
def slotFor (e : Entry) (k : KReg) (openOk : Bool) : M Slot := do
  match (← theRegs).rdK k with
  | none => raiseE e.info fcSkState 0
  | some x => do
    if x.opened ≠ 0 && !openOk then raiseE e.info fcSkState x.va
    return x

/-- Replace a bound slot. -/
def putSlot (k : KReg) (x : Slot) : M Unit := modRegs fun g => g.wrK k (some x)

/-- Encode a factor (R230, R242): a generator step each under RS. -/
def encFactor (c : Scb) (x : FV) : M Lane := do
  let mode : Rm := if Scb.rs c then .rs else .rne
  let r ← rngFor mode
  let (b, fl) := (Scb.fmt c).enc mode r x
  raiseFlags fl
  return BitVec.ofNat 32 b

/-- Encode columns in order. -/
def encColumns (c : Scb) (cols : List (List FV)) : M (List (List Lane)) := cols.mapM fun col => col.mapM (encFactor c)

/-- The decoded values of columns. -/
def Slot.decoded (x : Slot) (cols : List (List Lane)) : List (List FV) :=
  cols.map fun c => c.map fun b => (Scb.fmt x.scb).dec b.toNat

/-- A value that is no finite number. -/
def FV.odd : FV → Bool
  | .fin _ _ _ => false
  | _ => true

/-- Shrink a slot to t columns (R240 to R243). -/
def shrinkSlot (x : Slot) (t : Nat) : M Slot := do
  let u := Slot.decoded x x.u
  let v := Slot.decoded x x.v
  let shrn := x.scb.shrn + 1
  if (u ++ v).any fun c => c.any FV.odd then
    raiseFlags flInvalid
    return { x with scb := { x.scb with rank := 0, de := 0x7FF8000000000000, shrn }, u := [], v := [] }
  else
    let ((nu, nv, dropped), fl) := (shrinkTo u v t (Scb.fd x.scb)).run 0
    raiseFlags fl
    let eu ← encColumns x.scb nu
    let ev ← encColumns x.scb nv
    let (sum, f) := (specFp64.dec x.scb.de.toNat).add dropped
    let (de, f2) := specFp64.enc .rne 0 sum
    raiseFlags (f ||| f2)
    return { x with scb := { x.scb with rank := t, de := BitVec.ofNat 64 de, shrn }, u := eu, v := ev }

/-- Shrink to the limit k when the rank exceeds it (R230, R233). -/
def shrinkOver (x : Slot) : M Slot := if x.scb.klim < x.scb.rank then shrinkSlot x x.scb.klim else return x

/-! ## Binding, clearing, saving (R228, R229, R237, R238) -/

/-- The factor columns of a control block, read raw (R228). -/
def factorColumns (read : Word → Nat → M (List Byte)) (c : Scb) (v : Bool) : M (List (List Lane)) :=
  (List.range c.rank).mapM fun j => do
    let (at_, len) := Scb.column c v j
    return columnOf (Scb.fb c) (← read at_ len)

/-- SKBIND (R228): the control block's reads and checks, the store, then the LOCK, which must still read 0 after what the alias
filter forced, then the columns; their pages are translated before the LOCK is written (R227). -/
def execSkbind (k : KReg) (a : SReg) :=
  skOp (.skbind k a) 1 fun e => do
    let va := e.caps.getD 0 0
    if va.toNat % 128 ≠ 0 then raiseE e.info fcAlign va
    if ((← theRegs).rdK k).isSome then raiseE e.info fcSkState va
    checkRange e.info 2 va 128
    let bs ← skRead e.info va 128
    if !scbOk bs then raiseE e.info fcSkState va
    let c := scbOf bs
    let t ← theTask
    let n := t.pool.ctx
    match (← get).sketchPlace n t.pool.die.toNat (Scb.storeBytes c) with
    | none => raiseE e.info fcSkCap va
    | some place => do
      let look (at_ : Word) (len : Nat) := readRange e.info (rangeFuel len) at_ len
      let _ ← factorColumns look c false
      let _ ← factorColumns look c true
      aliasFilter e va [(va.toNat + 0x38, 8)]
      if leNat (← look (va + 0x38) 8) ≠ 0 then raiseE e.info fcSkState va
      skWrite e.info (va + 0x38) (leBytes 8 (lockWord t k).toNat)
      modify fun s => s.modCtx n fun x => { x with skUsed := (t.pool.die.toNat, place, Scb.storeBytes c) :: x.skUsed }
      let u ← factorColumns (skRead e.info) c false
      let v ← factorColumns (skRead e.info) c true
      putSlot k { scb := c, va, store := place, u, v }

/-- SKINIT (R229). -/
def execSkinit (k : KReg) :=
  skOp (.skinit k) 1 fun e => do
    let x ← slotFor e k false
    putSlot k { x with scb := { x.scb with rank := 0, de := 0, shrn := 0 }, u := [], v := [] }

/-- SKSAVE (R237). -/
def execSksave (k : KReg) :=
  skOp (.sksave k) 1 fun e => do
    let x ← slotFor e k false
    let c := { x.scb with gen := x.scb.gen + 1 }
    let cols := ((List.range c.rank).map fun j => (Scb.column c false j, x.u.getD j [])) ++
      ((List.range c.rank).map fun j => (Scb.column c true j, x.v.getD j []))
    for p in cols do
      checkRange e.info (rangeFuel p.1.2) p.1.1 p.1.2
    checkRange e.info 2 (x.va + 0x18) 0x20
    aliasFilter e x.va (cols.map (fun p => (p.1.1.toNat, p.1.2)) ++ [(x.va.toNat + 0x18, 0x20)])
    for p in cols do
      skWrite e.info p.1.1 (p.2.flatMap fun b => leBytes (Scb.fb c) b.toNat)
    skWrite e.info (x.va + 0x18) (leBytes 2 c.kcap ++ leBytes 2 c.rank ++ leBytes 2 c.klim ++ leBytes 2 c.sfl.toNat ++
      leBytes 8 c.de.toNat ++ leBytes 8 c.shrn.toNat ++ leBytes 8 c.gen.toNat)
    putSlot k { x with scb := c }

/-- Return a slot's working store and unbind it (R238). -/
def dropSlot (k : KReg) (x : Slot) : M Unit := do
  let t ← theTask
  modify fun s => s.modCtx t.pool.ctx fun c =>
    { c with skUsed := c.skUsed.filter fun u => !(u.1 == t.pool.die.toNat && u.2.1 == x.store) }
  modRegs fun g => g.wrK k none

/-- SKUNBIND (R238). -/
def execSkunbind (k : KReg) :=
  skOp (.skunbind k) 1 fun e => do
    let x ← slotFor e k true
    checkRange e.info 2 (x.va + 0x38) 8
    aliasFilter e (x.va + 0x38) [(x.va.toNat + 0x38, 8)]
    skWrite e.info (x.va + 0x38) (leBytes 8 0)
    dropSlot k x

/-! ## Appending, shrinking and merging (R230 to R233) -/

/-- Demand a descriptor whole when it is pending, as tst does (R230, R235). -/
def demandDesc (e : Entry) (d : TReg) : M Unit := do
  let x := (← theRegs).rdT d
  if x.state = 1 then forceAll e x.thk

/-- The decoded columns of a tile, with their flags (R230, R132). -/
def tileColumns (f : FaultInfo) (d : Desc) : M (List (List FV) × Fl) := do
  let w ← tileWidth f d
  let cols ← (List.range d.cols.toNat).mapM fun c => (List.range d.rows.toNat).mapM fun i => readOpnd f d w i c
  countRead w (d.rows.toNat * d.cols.toNat)
  return (cols.map fun c => c.map (·.v), orFlags (cols.map fun c => orFlags (c.map (·.fl))))

/-- SKAPP: whole, first or last (R230, R231). -/
def execSkapp (part : Part) (k : KReg) (a b : TReg) :=
  skOp (.skapp part k a b) 1 fun e => do
    let x ← slotFor e k (part == .last)
    if part = .last ∧ x.opened = 0 then raiseE e.info fcSkState x.va
    let g ← theRegs
    let dx := g.rdT a
    let dd := g.rdT b
    let n := dx.cols.toNat
    let filled (l : List (List Lane)) : Nat := (l.getLast?.map (·.length)).getD 0
    let shape := match part with
      | .whole => decide (dx.rows.toNat = x.scb.m ∧ dd.rows.toNat = x.scb.n)
      | .first => decide (dx.rows.toNat < x.scb.m ∧ dd.rows.toNat < x.scb.n)
      | .last => decide (n = x.opened ∧ filled x.u + dx.rows.toNat = x.scb.m ∧ filled x.v + dd.rows.toNat = x.scb.n)
    if !(shape && n == dd.cols.toNat && n != 0 && dx.rows != 0 && dd.rows != 0) then raiseE e.info fcShape 0
    demandDesc e a
    demandDesc e b
    if part ≠ .last ∧ x.scb.kcap < x.scb.rank + n then raiseE e.info fcSkCap x.va
    let (cu, f1) ← tileColumns e.info dx
    let (cv, f2) ← tileColumns e.info dd
    raiseFlags (f1 ||| f2)
    let eu ← encColumns x.scb cu
    let ev ← encColumns x.scb cv
    match part with
    | .whole => do
      putSlot k (← shrinkOver { x with scb := { x.scb with rank := x.scb.rank + n }, u := x.u ++ eu, v := x.v ++ ev })
    | .first => putSlot k { x with opened := n, u := x.u ++ eu, v := x.v ++ ev }
    | .last => do
      let join (l tail : List (List Lane)) := l.take x.scb.rank ++ List.zipWith (· ++ ·) (l.drop x.scb.rank) tail
      putSlot k (← shrinkOver { x with scb := { x.scb with rank := x.scb.rank + n }, opened := 0,
                                       u := join x.u eu, v := join x.v ev })

/-- SKSHR: a target at or above the rank has no effect (R232). -/
def execSkshr (k : KReg) (a : SReg) :=
  skOp (.skshr k a) 1 fun e => do
    let x ← slotFor e k false
    let t := (e.caps.getD 0 0).toNat
    if t < x.scb.rank then putSlot k (← shrinkSlot x t)

/-- SKMRG (R233): neither slot may hold open columns (R227). That the sum of the energies raises its flags is the model's reading (log
69). -/
def execSkmrg (d a : KReg) :=
  skOp (.skmrg d a) 1 fun e => do
    let x ← slotFor e d false
    let y ← slotFor e a false
    if !(x.scb.m == y.scb.m && x.scb.n == y.scb.n && Scb.fmt x.scb == Scb.fmt y.scb) then raiseE e.info fcSkState x.va
    if x.scb.kcap < x.scb.rank + y.scb.rank then raiseE e.info fcSkCap x.va
    let (sum, f) := (specFp64.dec x.scb.de.toNat).add (specFp64.dec y.scb.de.toNat)
    let (de, f2) := specFp64.enc .rne 0 sum
    raiseFlags (f ||| f2)
    putSlot d (← shrinkOver { x with
      scb := { x.scb with rank := x.scb.rank + y.scb.rank, de := BitVec.ofNat 64 de }
      u := x.u ++ y.u, v := x.v ++ y.v })

/-! ## Reading out and applying (R234 to R236) -/

/-- Bytes that the elements of a row of a tile lie in. -/
def rowBytes (d : Desc) (w i : Nat) : Word × Nat :=
  let start := d.base + BitVec.ofNat 64 i * d.pitch.setWidth 64
  let last := elemAt w start (d.cols.toNat - 1)
  (start, (last.va - start).toNat + elemBytes w)

/-- The rows of a tile as runs for the alias filter. -/
def tileRuns (d : Desc) (w : Nat) : List (Nat × Nat) := natRuns ((List.range d.rows.toNat).map (rowBytes d w))

/-- The lines that a tile covers whole have been written (R434). -/
def skClean (d : Desc) (w : Nat) : M Unit := modify fun s =>
  if s.air.isSome then s else
  s.cleanElems s.cur.cluster w ((Desc.whole d).elems.filterMap fun p =>
    let e := elemAt w (d.base + BitVec.ofNat 64 p.1 * d.pitch.setWidth 64) p.2
    match s.xlate s.cur e.va with
    | .ok (leaf, _) => some (leaf, e)
    | .error _ => none)

/-- Write values to a tile on path SK, each encoded under rne: all are encoded before the first is written (R227). -/
def writeTile (e : Entry) (d : Desc) (vals : Nat → Nat → FV) : M Unit := do
  let f := e.info
  let w ← tileWidth f d true
  let cells := (Desc.whole d).elems
  for p in cells do
    let (_, _) ← encOut f d w p.1 p.2 (vals p.1 p.2)
    pure ()
  aliasFilter e d.base (tileRuns d w)
  for p in cells do
    let (put, fl) ← encOut f d w p.1 p.2 (vals p.1 p.2)
    raiseFlags fl
    skPut f w put
  skClean d w

/-- SKRD (R234). -/
def execSkrd (v : Bool) (k : KReg) (a : TReg) (b : SReg) :=
  skOp (.skrd v k a b) 1 fun e => do
    let x ← slotFor e k false
    if x.scb.rank ≠ 0 then
      let d := (← theRegs).rdT a
      let first := (e.caps.getD 0 0).toNat
      let rows := if v then x.scb.n else x.scb.m
      if d.rows = 0 ∨ d.cols = 0 ∨ rows < first + d.rows.toNat ∨ x.scb.rank < d.cols.toNat then raiseE e.info fcShape 0
      let cols := Slot.decoded x (if v then x.v else x.u)
      writeTile e d fun i j => (cols.getD j []).getD (first + i) fzero

/-- The value of an element of skapply: dec(W) and the groups of α·U·V in ascending l (R235, R143). -/
def applyValue (alpha : FV) (u v : List FV) (acc : FV) : FV × Fl :=
  (group acc (List.zipWith (fun a b =>
    let (p, f) := alpha.mul a
    let (q, f2) := p.mul b
    (q, f ||| f2)) u v)).run 0

/-- SKAPPLY (R235): every element is translated and read before the first is written. -/
def execSkapply (k : KReg) (a : TReg) (b : SReg) (alpha : BitVec 32) :=
  skOp (.skapply k a b alpha) 2 fun e => do
    let x ← slotFor e k false
    let f := e.info
    let d := (← theRegs).rdT a
    let s := e.caps.getD 0 0
    let ru := (s.extractLsb' 0 32).toNat
    let rv := (s.extractLsb' 32 32).toNat
    if 1024 < d.rows.toNat ∨ 1024 < d.cols.toNat ∨ x.scb.m < ru + d.rows.toNat ∨
        x.scb.n < rv + d.cols.toNat then raiseE f fcShape 0
    demandDesc e a
    if x.scb.rank ≠ 0 ∧ d.rows ≠ 0 ∧ d.cols ≠ 0 then
      let u := Slot.decoded x x.u
      let v := Slot.decoded x x.v
      let w ← tileWidth f d true
      let cells := (Desc.whole d).elems
      for p in cells do
        let _ ← readOpnd f d w p.1 p.2
        let (leaf, el) ← outElem f d w p.1 p.2
        let _ ← loadScale f leaf el
        pure ()
      aliasFilter e d.base (tileRuns d w)
      for p in cells do
        let old ← readOpnd f d w p.1 p.2
        let (y, fl) := applyValue (f32 alpha) (u.map fun c => c.getD (ru + p.1) fzero)
          (v.map fun c => c.getD (rv + p.2) fzero) old.v
        let (put, fl2) ← encOut f d w p.1 p.2 y
        raiseFlags (old.fl ||| fl ||| fl2)
        countRead w 1
        skPut f w put
      skClean d w

/-- SKDE (R236). -/
def execSkde (k : KReg) :=
  skOp (.skde k) 1 fun e => do
    let x ← slotFor e k true
    pushPort 61 ⟨x.scb.de, false⟩

/-- SKRANK (R236). -/
def execSkrank (k : KReg) :=
  skOp (.skrank k) 1 fun e => do
    let x ← slotFor e k true
    pushPort 61 ⟨BitVec.ofNat 64 x.scb.rank, false⟩

end Sys2Proof.Machine
end

