-- ==== Sys2Proof/Machine/Cpy.lean ====
section
/-! DEFINITION. The copy queue (R288 to R300, R145, R146, R370 to R374): commands, their checks, hand-out to an engine
of the cluster and completion. A command's payload moves in COPY_COMPLETE, in units of 4 KiB; a watch stop that becomes
due ends it at the next unit (R300, R442). -/

namespace Sys2Proof.Machine

/-! ## Commands (R288, R289) -/

/-- A copy command (R289 Table 7). -/
structure CopyCmd where
  type : Nat
  cfl : Nat
  btag : Byte
  rm : Nat
  waitm : BitVec 32
  sigm : BitVec 32
  cwsp : Word
  cwval : Word
  errval : Word
  src : Word
  dst : Word
  n : List Nat
  s : List Word
  d : List Word
  p0 : Word
  p1 : Word
  deriving DecidableEq, Repr

/-- The command of 128 bytes. -/
def copyCmd (bs : List Byte) : CopyCmd :=
  let num (off k : Nat) := leNat ((bs.drop off).take k)
  { type := num 0 1, cfl := num 1 1, btag := bs.getD 2 0, rm := num 3 1, waitm := fieldAt 32 bs 4,
    sigm := fieldAt 32 bs 8, cwsp := BitVec.ofNat 64 (num 0x0C 4), cwval := fieldAt 64 bs 0x10,
    errval := fieldAt 64 bs 0x18, src := fieldAt 64 bs 0x20, dst := fieldAt 64 bs 0x28,
    n := (List.range 4).map fun i => num (0x30 + 4 * i) 4
    s := (List.range 3).map fun i => fieldAt 64 bs (0x40 + 8 * i)
    d := (List.range 3).map fun i => fieldAt 64 bs (0x58 + 8 * i)
    p0 := fieldAt 64 bs 0x70, p1 := fieldAt 64 bs 0x78 }

/-- The command of a cpyi: a COPY in one dimension; a count of 2^32 or more stands as an extent of 0, which the check
refuses like it (R288). -/
def cpyiBytes (d a b : Word) (tag : BitVec 8) (sig : Option SemReg) : List Byte :=
  record 128 [(0, 1, 1), (2, 1, tag.toNat), (8, 4, match sig with | some m => 2 ^ m.toNat | none => 0),
    (0x20, 8, a.toNat), (0x28, 8, d.toNat), (0x30, 4, if b.toNat < 2 ^ 32 then b.toNat else 0),
    (0x34, 4, 1), (0x38, 4, 1), (0x3C, 4, 1)]

/-- An extent. -/
def CopyCmd.ext (c : CopyCmd) (i : Nat) : Nat := c.n.getD i 1
/-- A source stride. -/
def CopyCmd.ss (c : CopyCmd) (i : Nat) : Word := c.s.getD (i - 1) 0
/-- A destination stride. -/
def CopyCmd.ds (c : CopyCmd) (i : Nat) : Word := c.d.getD (i - 1) 0
/-- CW. -/
def CopyCmd.cw (c : CopyCmd) : Bool := c.cfl % 2 == 1
/-- RM. -/
def CopyCmd.mode (c : CopyCmd) : Rm :=
  match c.rm % 4 with
  | 0 => .rne
  | 1 => .rz
  | _ => .rs

/-- The dimensions of a type (R289 Table 8). -/
def CopyCmd.dims (c : CopyCmd) : Nat :=
  match c.type with
  | 1 => 4
  | 2 => 2
  | 3 => 4
  | 4 => 4
  | 5 => 2
  | _ => 1

/-- The field checks of R290 and Table 8 that need no memory; an N1 that the type does not use is checked like N2 and N3 (log 70). -/
def CopyCmd.fieldsOk (c : CopyCmd) : Bool :=
  decide (1 ≤ c.type ∧ c.type ≤ 8) && c.cfl / 2 == 0 && decide (c.rm < 3) && (c.rm == 0 || c.type == 3) &&
  c.n.all (fun x => decide (1 ≤ x)) &&
  ([1, 2, 3].all fun i => decide (i < c.dims) || (c.ext i == 1 && c.ss i == 0 && c.ds i == 0)) &&
  (c.type == 4 || c.type == 5 || c.type == 6 || c.type == 7 || c.p0 == 0) &&
  (c.type == 5 || c.p1 == 0) && (c.type != 6 || decide (c.p0.toNat < 2)) &&
  (c.type != 4 || c.src == 0) && (!c.cw || c.cwval != c.errval) &&
  (c.type != 6 || decide (c.ext 0 % 4096 = 0 ∧ c.src.toNat % 4096 = 0 ∧ c.dst.toNat % 4096 = 0)) &&
  (!(c.type == 7 || c.type == 8) || c.ext 0 % 4096 == 0)

/-- The starts of the rows of i3, i2, i1, from outer to inner (R291). -/
def rowStarts (base : Word) (n : List Nat) (st : List Word) : List Word :=
  (List.range (n.getD 3 1)).flatMap fun i3 => (List.range (n.getD 2 1)).flatMap fun i2 =>
    (List.range (n.getD 1 1)).map fun i1 =>
      base + BitVec.ofNat 64 i1 * st.getD 0 0 + BitVec.ofNat 64 i2 * st.getD 1 0 + BitVec.ofNat 64 i3 * st.getD 2 0

/-- The span of rows of a length: from the lowest to above the highest byte (R290). -/
def rowsSpan (base : Word) (len : Nat) (n : List Nat) (st : List Word) : Int × Int :=
  let ends := (List.range 3).map fun i => ((n.getD (i + 1) 1 : Int) - 1) * (st.getD i 0).toInt
  (ends.foldl (fun x e => x + min 0 e) (base.toNat : Int), ends.foldl (fun x e => x + max 0 e) (base.toNat + len : Int))

/-- Two spans overlap. -/
def spansMeet (a b : Int × Int) : Bool := decide (a.1 < b.2 ∧ b.1 < a.2)

/-- The bytes that n packed elements of w bits lie in, from an element boundary. -/
def packedBytes (w n : Nat) : Nat := if w = 6 then (n + 3) / 4 * 3 else (n * w + 7) / 8

/-- A span as a run for the alias filter. -/
def spanRun (x : Int × Int) : Nat × Nat := (x.1.toNat, (x.2 - x.1).toNat)

/-! ## Memory on path CP -/

/-- The fault information of a command, and the access queue of the source of the engine that serves it (R290, R418). -/
def CopySlot.info (k : CopySlot) (t : Task) (engine : Bool) : FaultInfo :=
  { code := 0, stream := .cpy, seq := k.num, tag := (copyCmd k.bytes).btag
    queue := some (192 + 2 * t.cluster + (if engine then 1 else 0), 0, k.pfd) }

/-- The source of a cluster's copy engine (R440 Table 4: SKIND 1, cluster and engine). -/
def cpSource (t : Task) (engine : Bool) : Source :=
  ⟨1, BitVec.ofNat 64 (t.cluster * 256 + if engine then 1 else 0), some (t.pool.ctx, t.register)⟩

/-- A value read on path CP, or a mark that it met an uncorrectable error (R298, R434). A unit that meets one lands whole (log 62). -/
def orPoisoned {α : Type} (m : M α) (bad : M α) : M (α × Bool) :=
  tryCatch (do return (← m, false)) fun x =>
    match x with
    | .fault g k =>
      if g.code = fcData then (do
        if (← get).air.isSome then stall
        return (← bad, true)) else throw (.fault g k)
    | x => throw x

/-- Bytes of one page, or its stored bytes with a mark. -/
def pageCopyRead (f : FaultInfo) (leaf va : Word) (n : Nat) : M (List Byte × Bool) :=
  orPoisoned (loadBytes f leaf va n) (rawBytes leaf va n)

/-- Bytes from an address, page by page. -/
def copyRead (f : FaultInfo) : Nat → Word → Nat → M (List Byte × Bool)
  | 0, _, _ => return ([], false)
  | fuel + 1, va, n => do
    if n = 0 then return ([], false)
    let leaf ← walkFor f va false
    let k := min n (roomIn leaf va)
    let (bs, bad) ← pageCopyRead f leaf va k
    let (rest, bad2) ← copyRead f fuel (va + BitVec.ofNat 64 k) (n - k)
    return (bs ++ rest, bad || bad2)

/-- Mark the lines of n bytes poisoned (R298). -/
def State.poisonLines (s : State) (p : Space) (a n : Nat) : State :=
  { s with poison := ((linesOf a n).map fun l => poisonKey p (64 * l)).foldl addTo s.poison }

/-- Change a command of the acting task. -/
def modSlot (num : BitVec 32) (g : CopySlot → CopySlot) : M Unit := modTask fun t =>
  { t with vcq := t.vcq.map fun k => if k.num = num then g k else k }

/-- A page that a command may write, through the access queue of its destination: W = 1 and no delta page (R290). -/
def destLeaf (f : FaultInfo) (va : Word) : M Word := do
  let leaf ← walkFor ({ f with write := true }.role 1) va true
  if !leafW leaf || leafDlt leaf then raiseE f fcPerm va
  return leaf

/-- After n bytes were written at a place: their count, the watch, and for a payload error the poison and the mark. -/
def wroteAt (k : CopySlot) (engine : Bool) (leaf va : Word) (n count : Nat) (bad : Bool) : M Unit := do
  let t ← theTask
  let (p, a) := placeOf leaf va t.cluster
  if bad then
    modify fun s => s.poisonLines p a n
    modSlot k.num fun x => { x with err := true }
  modify fun s => s.countBytes t.pool.die.toNat (copyCmd k.bytes).btag.toNat (s.fnOf t.pool.ctx) count
  watchHome 4 .write (cpSource t engine) (hbmRuns leaf t.cluster [(va, n)]) burstSkid

/-- Write bytes from an address, page by page. -/
def copyWrite (k : CopySlot) (engine : Bool) (bad : Bool) : Nat → Word → List Byte → M Unit
  | 0, _, _ => pure ()
  | fuel + 1, va, bs => do
    if !bs.isEmpty then
      let leaf ← destLeaf (k.info (← theTask) engine) va
      let n := min bs.length (roomIn leaf va)
      storeBytes leaf va (bs.take n)
      wroteAt k engine leaf va n n bad
      copyWrite k engine bad fuel (va + BitVec.ofNat 64 n) (bs.drop n)

/-- Cut n bytes from an address at the ends of 64-byte lines: offset and length (R291, R434). -/
def pieces (va : Nat) : Nat → Nat → Nat → List (Nat × Nat)
  | 0, _, _ => []
  | fuel + 1, off, n =>
    if n = 0 then [] else
    let k := min n (64 - (va + off) % 64)
    (off, k) :: pieces va fuel (off + k) (n - k)

/-- The pieces of a row. -/
def rowPieces (va : Word) (n : Nat) : List (Nat × Nat) := pieces va.toNat (n / 64 + 2) 0 n

/-- The 256-byte blocks of this chip's HBM that n bytes from an address lie in. -/
def State.blocksAt (s : State) (t : Task) (va : Word) (n : Nat) : List Nat :=
  match s.xlate t va with
  | .ok (leaf, _) => (hbmRuns leaf t.cluster [(va, min n (roomIn leaf va))]).flatMap fun r => ((linesOf r.1 r.2).map (· / 4)).eraseDups
  | .error _ => []

/-- A block of n bytes at an address has an integrity tag that does not match (R435). -/
def State.tagBad (s : State) (t : Task) (va : Word) (n : Nat) : Bool :=
  !s.badTags.isEmpty && (s.blocksAt t va n).any s.badTags.contains

/-- A copy carries the integrity tag of what it reads (R435). -/
def carryTag (bad : Bool) (dst : Word) (n : Nat) : M Unit := do
  if bad then
    if (← get).air.isSome then stall
    modify fun s => { s with badTags := (s.blocksAt s.cur dst n).foldl addTo s.badTags }

/-- One part of a command's payload: its size in bits, and what it does. -/
structure CopyPart where
  bits : Nat
  act : M Unit

/-- A row of bytes copied raw, piece by piece (R291, R292). -/
def rawRow (k : CopySlot) (engine : Bool) (src dst : Word) (n : Nat) : List CopyPart :=
  (rowPieces dst n).map fun p => ⟨8 * p.2, do
    let (from_, to_) := (src + BitVec.ofNat 64 p.1, dst + BitVec.ofNat 64 p.1)
    let s ← get
    let (bs, bad) ← copyRead (k.info s.cur engine) 2 from_ p.2
    copyWrite k engine bad 2 to_ bs
    carryTag (s.tagBad s.cur from_ p.2) to_ p.2⟩

/-- A row of the fill pattern (R292). -/
def fillRow (k : CopySlot) (engine : Bool) (pattern dst : Word) (n : Nat) : List CopyPart :=
  (rowPieces dst n).map fun p => ⟨8 * p.2, copyWrite k engine false 2 (dst + BitVec.ofNat 64 p.1)
    ((List.range p.2).map fun i => (leBytes 8 pattern.toNat).getD ((p.1 + i) % 8) 0)⟩

/-! ## Elements (R293, R297, R145, R146) -/

/-- An element of a typed side and its page: another width or a bad geometry raises FMT_BAD, an address off its
boundary ALIGN (R129, R130, R293). -/
def copyElem (f : FaultInfo) (w : Nat) (row : Word) (i : Nat) (write : Bool) : M (Word × Elem) := do
  let e := elemAt w row i
  let leaf ← if write then destLeaf f e.va else walkFor f e.va false
  if write && roomIn leaf e.va < elemBytes w then
    let _ ← destLeaf f (e.va + BitVec.ofNat 64 (roomIn leaf e.va))
  if (leafFormat leaf).bits ≠ w || !geometryOk leaf then raiseE f fcFmt e.va
  if !elemAligned w e.va then raiseE f fcAlign e.va
  return (leaf, e)

/-- The width of the elements of a side: that of the page of its first address. -/
def sideWidth (f : FaultInfo) (va : Word) (write : Bool) : M Nat := do
  return (leafFormat (← walkFor ({ f with write }.role (if write then 1 else 0)) va write)).bits

/-- One element converted: enc(dec(x, FS), FD, RM) (R293, R140). -/
def convertElem (k : CopySlot) (engine : Bool) (mode : Rm) (ws wd : Nat) (src dst : Word) (i : Nat) : M Unit := do
  let f := k.info (← theTask) engine
  let (sl, se) ← copyElem f ws src i false
  let (dl, de) ← copyElem f wd dst i true
  let r ← if mode = .rs then (do
      match (← theTask).vcq.find? (·.num == k.num) with
      | some x => do
        let (next, r) := rngStep x.rng
        modSlot k.num fun x => { x with rng := next }
        return r
      | none => return 0) else pure 0
  let ((v, fl), bad) ← orPoisoned (decElem f sl se) (pure (.nan, 0))
  if !bad then
    let (b, fl2) ← encFor f dl de mode r v
    storeElem (f.role 1) dl de b
    modSlot k.num fun x => { x with flags := x.flags ||| fl ||| fl2 }
  wroteAt k engine dl de.va (elemBytes wd) (if de.sub = 0 then elemBytes wd else 0) bad

/-- One element moved to its transposed place, its bits unchanged (R146, R297). -/
def moveElem (k : CopySlot) (engine : Bool) (w : Nat) (src : Word) (j : Nat) (dst : Word) (i : Nat) : M Unit := do
  let f := k.info (← theTask) engine
  let (sl, se) ← copyElem f w src j false
  let (dl, de) ← copyElem f w dst i true
  let (x, bad) ← orPoisoned (loadElem f sl se) (pure 0)
  storeElem (f.role 1) dl de x
  wroteAt k engine dl de.va (elemBytes w) (if de.sub = 0 then elemBytes w else 0) bad

/-- The scale of a source tile, written to the scale address of its destination tile's first element (R146). -/
def moveScale (k : CopySlot) (engine : Bool) (w : Nat) (src : Word) (j : Nat) (dst : Word) (i : Nat) : M Unit := do
  let f := k.info (← theTask) engine
  let (sl, se) ← copyElem f w src j false
  let (dl, de) ← copyElem f w dst i true
  let off := (← theEff).scOff
  let (bs, bad) ← copyRead f 2 (scaleAddr off sl se) 4
  copyWrite k engine bad 2 (scaleAddr off dl de) bs

/-- The granule of a width (R145 Table 9). -/
def granule (w : Nat) : Nat := if w = 32 then 4 else if w = 16 then 8 else if w = 8 then 16 else 32

/-- The rows of a side of a TRANSPOSE. -/
def CopyCmd.srcRow (c : CopyCmd) (i : Nat) : Word := c.src + BitVec.ofNat 64 i * c.ss 1
/-- A destination row of a TRANSPOSE or a GATHER-ROWS. -/
def CopyCmd.dstRow (c : CopyCmd) (j : Nat) : Word := c.dst + BitVec.ofNat 64 j * c.ds 1

/-- The rows and columns of a side of a TRANSPOSE are whole tiles of a page with BG 3: each of 16,384 consecutive elements (R130, R131,
R146; log 25). -/
def wholeTiles (w : Nat) (base pitch : Word) (cols : Nat) : Bool :=
  pitch.toNat == 16 * w && (List.range (cols / 128)).all fun j => elemIndex w (elemAt w base (128 * j)) % 16384 == 0

/-- The checks of R146: FMT_BAD for a command that breaks one; the element width. -/
def transposeCheck (f : FaultInfo) (c : CopyCmd) : M Nat := do
  let sl ← walkFor f c.src false
  let dl ← destLeaf f c.dst
  let w := (leafFormat sl).bits
  let g := if leafBg sl = 3 then 128 else granule w
  let (cols, rows) := (c.ext 0, c.ext 1)
  let origin (va : Word) : Bool := w ≥ 8 || elemIndex w { va } % 32 == 0
  if leafFmt sl ≠ leafFmt dl ∨ leafBg sl ≠ leafBg dl ∨ leafBg sl = 1 ∨ leafBg sl = 2 ∨ cols % g ≠ 0 ∨ rows % g ≠ 0 then
    raiseE f fcFmt c.src
  if !(origin c.src && origin c.dst) then raiseE f fcFmt c.src
  if leafBg sl = 3 ∧ !(wholeTiles w c.src (c.ss 1) cols && wholeTiles w c.dst (c.ds 1) rows) then raiseE f fcFmt c.src
  return w

/-- Every element of a TRANSPOSE, and after them the scales of its tiles (R146, R297). -/
def transposeParts (k : CopySlot) (engine : Bool) (c : CopyCmd) (w : Nat) (bg : Nat) : List CopyPart :=
  let (cols, rows) := (c.ext 0, c.ext 1)
  ((List.range rows).flatMap fun i => (List.range cols).map fun j =>
    ⟨w, moveElem k engine w (c.srcRow i) j (c.dstRow j) i⟩) ++
  if bg = 3 then
    (List.range (rows / 128)).flatMap fun i => (List.range (cols / 128)).map fun j =>
      ⟨32, moveScale k engine w (c.srcRow (128 * i)) (128 * j) (c.dstRow (128 * j)) (128 * i)⟩
  else []

/-! ## Gathered rows, bank layout and stored blocks (R292, R294 to R296) -/

/-- The index of a destination row, on path CP (R292). -/
def rowIndex (f : FaultInfo) (c : CopyCmd) (r : Nat) : M (Nat × Bool) := do
  let (bs, bad) ← copyRead f 2 (c.p0 + BitVec.ofNat 64 (4 * r)) 4
  return (leNat bs, bad)

/-- A row of GATHER-ROWS is written: its index is below P1 and not 0xFFFF_FFFF (R292). -/
def CopyCmd.takesRow (c : CopyCmd) (idx : Nat) : Bool := decide (idx < c.p1.toNat) && idx != 0xFFFFFFFF

/-- The index of the row that a GATHER-ROWS is at, read with the row's first piece; none where the row is not written (R292). -/
def rowAt (k : CopySlot) (engine : Bool) (c : CopyCmd) (r : Nat) (first : Bool) : M (Option Nat) := do
  if first then
    let (idx, bad) ← rowIndex (k.info (← theTask) engine) c r
    let takes := !bad && c.takesRow idx
    modSlot k.num fun x => { x with err := x.err || bad, pos := if takes then BitVec.ofNat 64 idx else -1 }
  return ((← theTask).vcq.find? (·.num == k.num)).bind fun x => if x.pos = -1 then none else some x.pos.toNat

/-- A destination row of GATHER-ROWS, piece by piece (R292, R300). -/
def gatherRow (k : CopySlot) (engine : Bool) (c : CopyCmd) (r : Nat) : List CopyPart :=
  (rowPieces (c.dstRow r) (c.ext 0)).map fun p => ⟨8 * p.2, do
    match ← rowAt k engine c r (p.1 == 0) with
    | none => pure ()
    | some idx => do
      let (from_, to_) := (c.src + BitVec.ofNat 64 idx * c.ss 1 + BitVec.ofNat 64 p.1, c.dstRow r + BitVec.ofNat 64 p.1)
      let s ← get
      let (bs, bad) ← copyRead (k.info s.cur engine) 2 from_ p.2
      copyWrite k engine bad 2 to_ bs
      carryTag (s.tagBad s.cur from_ p.2) to_ p.2⟩

/-- The VA of a logical byte of a bank-striped page, for a VA whose offset is the logical one (R294, R368). -/
def stripedVa (va : Word) : Word :=
  BitVec.ofNat 64 (va.toNat / 2 ^ 21 * 2 ^ 21 + striped (va.toNat % 2 ^ 21))

/-- The two sides of a RELAYOUT-BANK: direction 1 reads the striped side (R289 Table 8). -/
def CopyCmd.fromStriped (c : CopyCmd) : Bool := c.p0 == 1

/-- The pieces of 256 bytes of a RELAYOUT-BANK: source and destination. -/
def CopyCmd.bankPieces (c : CopyCmd) : List (Word × Word) :=
  (List.range (c.ext 0 / 256)).map fun i =>
    let s := c.src + BitVec.ofNat 64 (256 * i)
    let d := c.dst + BitVec.ofNat 64 (256 * i)
    if c.fromStriped then (stripedVa s, d) else (s, stripedVa d)

/-- The group table of a block of 4,096 bytes: bit g is 1 when group g is nonzero (R295). -/
def groupTable (bs : List Byte) : Nat :=
  (List.range 512).foldl (fun x g => if ((bs.drop (8 * g)).take 8).all (· == 0) then x else x + 2 ^ g) 0

/-- The stored block of 4,096 bytes (R295). -/
def storedBlock (bs : List Byte) : List Byte :=
  let table := groupTable bs
  let packed := ((List.range 512).filter table.testBit).flatMap fun g => (bs.drop (8 * g)).take 8
  let pad := (64 - packed.length % 64) % 64
  record 64 [(0, 2, groupCount table), (4, 4, crc32c bs)] ++ leBytes 64 table ++ packed ++ List.replicate pad 0

/-- The size of a stored block of G groups (R295). -/
def storedSize (g : Nat) : Nat := 128 + 64 * ((g + 7) / 8)

/-- COMPRESS goes to a delta page (R295). -/
def toDelta (f : FaultInfo) (c : CopyCmd) : M Bool := do
  return leafDlt (← walkFor ({ f with write := true }.role 1) c.dst true)

/-- The page of a delta block: W = 1, DLT = 1 and a block that fills it; ALIGN else is the model's choice (log 70). -/
def deltaLeaf (f : FaultInfo) (va : Word) : M Word := do
  let leaf ← walkFor ({ f with write := true }.role 1) va true
  if !leafW leaf || !leafDlt leaf then raiseE f fcPerm va
  if va.toNat % 4096 ≠ 0 then raiseE f fcAlign va
  return leaf

/-- One logical block compressed (R295): to a delta page as its backing, else at the next 64-byte boundary with its
size in the table. -/
def compressBlock (k : CopySlot) (engine : Bool) (c : CopyCmd) (delta : Bool) (b : Nat) : M Unit := do
  let f := k.info (← theTask) engine
  let (bs, bad) ← copyRead f 3 (c.src + BitVec.ofNat 64 (4096 * b)) 4096
  if delta then
    let va := c.dst + BitVec.ofNat 64 (4096 * b)
    let leaf ← deltaLeaf f va
    let (base, bad2) ← orPoisoned (baseBytes f (va + (← theEff).baseOff) 4096) (pure [])
    let block := storedBlock (if bad2 then bs else List.zipWith (· ^^^ ·) bs base)
    let frame := leafPfn leaf * 4096
    modify fun s => (s.hbmWrite frame block).noteWrite .hbm frame block.length
    let t ← theTask
    if bad || bad2 then
      modify fun s => s.poisonLines .hbm frame block.length
      modSlot k.num fun x => { x with err := true }
    modify fun s => s.countBytes t.pool.die.toNat c.btag.toNat (s.fnOf t.pool.ctx) block.length
    watchHome 4 .write (cpSource t engine) [(frame, block.length)] burstSkid
  else
    let pos := (((← theTask).vcq.find? (·.num == k.num)).map (·.pos)).getD 0
    let block := storedBlock bs
    copyWrite k engine bad 3 pos block
    copyWrite k engine false 2 (c.p0 + BitVec.ofNat 64 (4 * b)) (leBytes 4 block.length)
    let next := (pos.toNat + block.length + 63) / 64 * 64
    modSlot k.num fun x => { x with pos := BitVec.ofNat 64 next }

/-- One stored block decompressed; a block that does not check gives zeros and ERRVAL (R296). -/
def decompressBlock (k : CopySlot) (engine : Bool) (c : CopyCmd) (b : Nat) : M Unit := do
  let f := k.info (← theTask) engine
  let pos := (((← theTask).vcq.find? (·.num == k.num)).map (·.pos)).getD 0
  let (head, _) ← copyRead f 2 pos 2
  let size := storedSize (leNat head)
  let (bs, bad) ← copyRead f (rangeFuel size) pos size
  let out := unpackBlock false bs
  if out.isNone then modSlot k.num fun x => { x with err := true }
  copyWrite k engine bad 3 (c.dst + BitVec.ofNat 64 (4096 * b)) (out.getD (List.replicate 4096 0))
  modSlot k.num fun x => { x with pos := pos + BitVec.ofNat 64 size }

/-! ## Checks (R290) -/

/-- A scratchpad address of n bytes, aligned and within the task's pages, or ALIGN or HBOUND (R288). -/
def scratchAt (f : FaultInfo) (a : Word) (n align : Nat) : M Unit := do
  if a.toNat % align ≠ 0 then raiseE f fcAlign a
  if !inScratch (← theTask) a n then raiseE f fcBound a

/-- Every page of a run of bytes translates; a written one can be written. -/
def touchRange (f : FaultInfo) (write : Bool) : Nat → Word → Nat → M Unit
  | 0, _, _ => pure ()
  | fuel + 1, va, n => do
    if n ≠ 0 then
      let leaf ← if write then destLeaf f va else walkFor f va false
      let k := min n (roomIn leaf va)
      touchRange f write fuel (va + BitVec.ofNat 64 k) (n - k)

/-- Every page of rows of bytes translates. -/
def touchRows (f : FaultInfo) (write : Bool) (n : Nat) : List Word → M Unit
  | [] => pure ()
  | r :: rest => do
    touchRange f write (rangeFuel n) r n
    touchRows f write n rest

/-- The striped side's page: 2 MiB, CC = 1 and PIN = 1 (R289 Table 8). -/
def bankCheck (f : FaultInfo) (c : CopyCmd) : List Word → M Unit
  | [] => pure ()
  | va :: rest => do
    let leaf ← walkFor f va false
    if leafSz leaf ≠ 2 || !leafCc leaf || !leafPin leaf then raiseE f fcNbAttr va
    bankCheck f c rest

/-- Spans overlap: ILLEGAL_FIELD (R290). -/
def overlapCheck (f : FaultInfo) (a b : Int × Int) : M Unit := do
  if spansMeet a b then raiseE f fcField 0

/-- The lowest and highest bytes of pieces of 256 bytes. -/
def pieceSpan (l : List Word) : Int × Int :=
  match l with
  | [] => (0, 0)
  | x :: r => r.foldl (fun s y => (min s.1 y.toNat, max s.2 (y.toNat + 256))) ((x.toNat : Int), (x.toNat + 256 : Int))

/-- The bytes from DST to the end of the last stored block of a COMPRESS, by what its source holds now: each block begins at a 64-byte
boundary after the one before (R295). -/
def compressedBytes (f : FaultInfo) (c : CopyCmd) : M Nat := do
  let sizes ← (List.range (c.ext 0 / 4096)).mapM fun b => do
    let (bs, _) ← copyRead f 3 (c.src + BitVec.ofNat 64 (4096 * b)) 4096
    return storedSize (groupCount (groupTable bs))
  let top := sizes.foldl (fun x size => (x.2 + size, (x.2 + size + 63) / 64 * 64)) (c.dst.toNat, c.dst.toNat)
  return top.1 - c.dst.toNat

/-- The bytes that the stored blocks of a DECOMPRESS take. -/
def storedBytes (f : FaultInfo) : Nat → Word → M Nat
  | 0, _ => return 0
  | n + 1, pos => do
    let (head, _) ← copyRead f 2 pos 2
    let size := storedSize (leNat head)
    touchRange f false (rangeFuel size) pos size
    return size + (← storedBytes f n (pos + BitVec.ofNat 64 size))

/-- The spans of a command as far as its fields and the formats of its first pages give them: source and destination (R290). The
lengths of stored blocks depend on data (log 25). -/
def copySpans (f : FaultInfo) (c : CopyCmd) : M (Option ((Int × Int) × (Int × Int))) := do
  let n0 := c.ext 0
  match c.type with
  | 1 => return some (rowsSpan c.src n0 c.n c.s, rowsSpan c.dst n0 c.n c.d)
  | 2 => do
    let w ← sideWidth f c.src false
    return some (rowsSpan c.src (packedBytes w n0) c.n c.s, rowsSpan c.dst (packedBytes w (c.ext 1)) [c.ext 1, n0] c.d)
  | 3 => do
    let ws ← sideWidth f c.src false
    let wd ← sideWidth f c.dst true
    return some (rowsSpan c.src (packedBytes ws n0) c.n c.s, rowsSpan c.dst (packedBytes wd n0) c.n c.d)
  | 5 => return if c.p1 = 0 then none else some (rowsSpan c.src n0 [n0, c.p1.toNat] c.s, rowsSpan c.dst n0 c.n c.d)
  | 6 => return some (pieceSpan (c.bankPieces.map (·.1)), pieceSpan (c.bankPieces.map (·.2)))
  | 7 => do
    if !(← toDelta f c) then return none
    return some ((c.src.toNat, c.src.toNat + n0), (c.dst.toNat, c.dst.toNat + n0))
  | _ => return none

/-- The translation checks of a command, and the runs that the alias filter looks at (R290). Where a P0 that does not fit the destination
of a COMPRESS is found, and its code, are the model's choice (log 70). -/
def copyPages (f : FaultInfo) (c : CopyCmd) : M (List (Nat × Nat)) := do
  let n0 := c.ext 0
  match c.type with
  | 1 => do
    touchRows f false n0 (rowStarts c.src c.n c.s)
    touchRows f true n0 (rowStarts c.dst c.n c.d)
    return []
  | 2 => do
    let w ← transposeCheck f c
    let first ← walkFor f c.src false
    for i in List.range (c.ext 1) do
      for j in List.range n0 do
        let (sl, se) ← copyElem f w (c.srcRow i) j false
        let (dl, de) ← copyElem f w (c.dstRow j) i true
        if [sl, dl].any fun l => leafFmt l != leafFmt first || leafBg l != leafBg first then raiseE f fcFmt se.va
        if leafBg sl = 3 ∧ i % 128 = 0 ∧ j % 128 = 0 then
          let off := (← theEff).scOff
          let _ ← walkFor f (scaleAddr off sl se) false
          let _ ← destLeaf f (scaleAddr off dl de)
    return []
  | 3 => do
    let ws ← sideWidth f c.src false
    let wd ← sideWidth f c.dst true
    for rows in List.zip (rowStarts c.src c.n c.s) (rowStarts c.dst c.n c.d) do
      for i in List.range n0 do
        let (sl, se) ← copyElem f ws rows.1 i false
        let (dl, de) ← copyElem f wd rows.2 i true
        if leafBg sl ≠ 0 then
          let _ ← walkFor f (scaleAddr (← theEff).scOff sl se) false
        if leafBg dl ≠ 0 then
          let _ ← walkFor f (scaleAddr (← theEff).scOff dl de) false
    return []
  | 4 => do
    touchRows f true n0 (rowStarts c.dst c.n c.d)
    return [spanRun (rowsSpan c.dst n0 c.n c.d)]
  | 5 => do
    if c.p0.toNat % 4 ≠ 0 then raiseE f fcAlign c.p0
    for r in List.range (c.ext 1) do
      let (idx, bad) ← rowIndex f c r
      if !bad && c.takesRow idx then
        touchRange f false (rangeFuel n0) (c.src + BitVec.ofNat 64 idx * c.ss 1) n0
        touchRange f true (rangeFuel n0) (c.dstRow r) n0
    return if c.p1 = 0 then [spanRun (rowsSpan c.dst n0 c.n c.d)] else []
  | 6 => do
    let ps := c.bankPieces
    bankCheck f c (if c.fromStriped then ps.map (·.1) else ps.map (·.2))
    touchRows f false 256 (ps.map (·.1))
    touchRows f true 256 (ps.map (·.2))
    return []
  | 7 => do
    let delta ← toDelta f c
    if delta != (c.p0 == 0) then raiseE f fcField 0
    touchRange f false (rangeFuel n0) c.src n0
    if delta then
      for b in List.range (n0 / 4096) do
        let va := c.dst + BitVec.ofNat 64 (4096 * b)
        let _ ← deltaLeaf f va
        let base ← walkFor f (va + (← theEff).baseOff) false
        if leafDlt base then raiseE f fcPerm (va + (← theEff).baseOff)
      return []
    else
      let total ← compressedBytes f c
      overlapCheck f (c.src.toNat, c.src.toNat + n0) (c.dst.toNat, c.dst.toNat + total)
      touchRange f true (rangeFuel total) c.dst total
      touchRange f true (rangeFuel n0) c.p0 (n0 / 4096 * 4)
      return [(c.src.toNat, n0), (c.dst.toNat, total)]
  | _ => do
    let total ← storedBytes f (n0 / 4096) c.src
    overlapCheck f (c.src.toNat, c.src.toNat + total) (c.dst.toNat, c.dst.toNat + n0)
    touchRange f true (rangeFuel n0) c.dst n0
    return [(c.src.toNat, total), (c.dst.toNat, n0)]

/-- The checks of a command before it writes anything, in the order of R290: fields and overlap, the completion word, the pages;
its source and destination ranges. -/
def copyCheck (k : CopySlot) (engine : Bool) : M (List (Nat × Nat)) := do
  let f := k.info (← theTask) engine
  let c := copyCmd k.bytes
  if !c.fieldsOk then raiseE f fcField 0
  let spans ← copySpans f c
  match spans with
  | some x => overlapCheck f x.1 x.2
  | none => pure ()
  if c.cw then scratchAt f c.cwsp 8 8
  let more ← copyPages f c
  return ((spans.map fun x => [spanRun x.1, spanRun x.2]).getD []) ++ more

/-! ## The CPY instructions (R288) -/

/-- Room in the queue: 16 entries that have not performed, and 16 slots from the oldest command on (R56, R374). -/
def copyRoom : M Unit := do
  let t ← theTask
  if 16 ≤ t.copiesLeft then stall

/-- A command enters the next slot of the virtual copy queue, and its entry leaves the queue's head (R374). -/
def takeSlot (e : Entry) (bytes : List Byte) : M Unit := do
  let t ← theTask
  if t.vcq.any fun k => !k.complete && decide (16 ≤ (e.num - k.num).toNat) then stall
  modTask fun t => { t with cpTail := e.num + 1, vcq := t.vcq ++ [({ num := e.num, ord := e.ord, pfd := e.pfd, bytes } : CopySlot)] }
  popHead .cpy

/-- CPY (R288, R374). -/
def execCpy (a : SReg) (s : State) : Host.Outcome State Fault Refusal :=
  match s.act with
  | none => runM (do copyRoom; dispatch .cpy (.cpy a) 1 fun _ => pure ()) s
  | some e => runM (do
      let at_ := e.caps.getD 0 0
      scratchAt e.info at_ 128 128
      fillFor at_ 128
      takeSlot e (Mem.readN (← theTask).scratch at_.toNat 128)) s

/-- CPYI (R288). -/
def execCpyi (d a b : SReg) (tag : BitVec 8) (sig : Option SemReg) (s : State) : Host.Outcome State Fault Refusal :=
  match s.act with
  | none => runM (do copyRoom; dispatch .cpy (.cpyi d a b tag sig) 2 fun _ => pure ()) s
  | some e => runM (takeSlot e (cpyiBytes (e.caps.getD 0 0) (e.caps.getD 1 0) (e.caps.getD 2 0) tag sig)) s

/-- The status word of cqstat (R288): the oldest command not completed, or its own number; the commands handed out and
not completed; the units done in the oldest of those. -/
def cqWord (t : Task) (num : BitVec 32) : Word :=
  let running := t.vcq.filter fun k => (k.engine.isSome || k.paused) && !k.complete
  let units := (running.head?.map (·.units)).getD 0
  ((t.oldestCopy.map (·.num)).getD num) ++ (0 : BitVec 8) ++ BitVec.ofNat 8 running.length ++ BitVec.ofNat 16 units

/-- CQSTAT: it performs once every earlier command has been handed out, without waiting for their completion (R288). -/
def execCqstat (a : SReg) (s : State) : Host.Outcome State Fault Refusal :=
  match s.act with
  | none => runM (do copyRoom; dispatch .cpy (.cqstat a) 1 fun _ => pure ()) s
  | some e => runM (do
      let at_ := e.caps.getD 0 0
      let t ← theTask
      if t.vcq.any fun k => k.engine.isNone && !k.paused && !k.complete then stall
      scratchAt e.info at_ 8 8
      fillFor at_ 8
      writeScratch 0 (srcWord .cpy e.num) at_.toNat (leBytes 8 (cqWord t e.num).toNat)
      popHead .cpy) s

/-! ## Hand-out and completion (R289, R298 to R300) -/

/-- The engine of the acting task's cluster serves no command. -/
def State.engineFree (s : State) (engine : Bool) : Bool :=
  !(s.tasks.any fun t => t.isRunning && t.cluster == s.cur.cluster &&
    t.vcq.any fun k => k.engine == some engine && !k.complete)

/-- The command that is handed out next: paused ones stand before the rest (R289, R300). -/
def Task.nextCopy (t : Task) : Option CopySlot := t.vcq.find? fun k => k.engine.isNone && !k.complete

/-- The alias filter on a command's ranges. A semaphore wait in a demand it makes is kept with the command. -/
def copyAlias (k : CopySlot) (runs : List (Nat × Nat)) : M Unit := do
  let queue := (← theTask).queue .cpy
  let e : Entry := { stream := .cpy, num := k.num, ins := .cqstat 0, ord := k.ord, pfd := k.pfd,
                     waited := k.began, waitThk := k.waitThk, h := some { tag := (copyCmd k.bytes).btag } }
  modTask fun t => t.setQueue .cpy [e]
  let settle : M Unit := do
    let w := (← theTask).queue .cpy
    modTask fun t => t.setQueue .cpy queue
    match w.head? with
    | some x => modSlot k.num fun y => { y with began := x.waited, waitFlag := x.waitFlag, waitThk := x.waitThk }
    | none => pure ()
  tryCatch (aliasFilter e (copyCmd k.bytes).dst runs) fun x => do
    settle
    throw x
  settle

/-- Take the semaphores of WAITM, one from each, after the waits of SEQ and TIL, or wait; the setter is the last signal of one of
them (R104, R298, R453, R454). -/
def takeSems (k : CopySlot) : M Unit := do
  let t ← theTask
  let named := k.waitm
  if named.any fun i => t.regs.rdSem i != 0 && (t.seqTakes i || t.tilTakes i) then stall
  match named.find? fun i => t.regs.rdSem i = 0 with
  | some i => do
    if k.began = 0 then
      let s ← get
      modSlot k.num fun x => { x with began := s.timeOf t.pool.ctx + 1, waitFlag := i.toNat }
    pause
  | none => do
    modRegs fun g => named.foldl (fun g i => g.wrSem i (g.rdSem i - 1)) g
    let last := ((t.setter.find? fun x => named.any fun i => i.toNat == x.1).map (·.1)).getD k.waitFlag
    if k.began ≠ 0 then waitRecord 2 0 last (srcWord .cpy k.num) 0 (k.began - 1) (some last)

/-- Steps of the generator that a command takes at its hand-out: one for each element of a CONVERT under rs (R293). -/
def CopyCmd.steps (c : CopyCmd) : Nat := if c.type = 3 ∧ c.mode = .rs then c.n.foldl (· * ·) 1 else 0

/-- The generator after n steps. -/
def rngAfter : Nat → Word → Word
  | 0, x => x
  | n + 1, x => rngAfter n (rngStep x).1

/-- A task has a command that an engine can take, as far as its semaphores go (R289, R374). -/
def Task.offersCopy (t : Task) : Bool :=
  t.isRunning && (match t.nextCopy with
    | none => false
    | some k => k.paused || (List.range 32).all fun i =>
        !(copyCmd k.bytes).waitm.getLsbD i || t.regs.rdSem (BitVec.ofNat 5 i) != 0)

/-- The acting task's turn at the engines of its cluster: they take commands in rotation, from the core after the one that they
served last, from core 0 first (R374, log 27). -/
def State.copyTurn (s : State) : Bool :=
  let cl := s.cur.cluster
  let last := (s.served.lookup cl).getD 3
  let place (t : Task) : Nat := (t.coreOf.getD 0 % 4 + 7 - last) % 4
  !(s.others.any fun t => t.cluster == cl && t.offersCopy && decide (place t < place s.cur))

/-- Note the core that the engines of the acting task's cluster serve. -/
def State.serveCore (s : State) : State :=
  { s with served := (s.cur.cluster, s.cur.coreOf.getD 0 % 4) :: s.served.filter fun x => x.1 != s.cur.cluster }

/-- COPY_HANDOUT: the next command is checked, takes its semaphores and its generator steps, and goes to an engine of
the cluster; a paused command goes on from where it was (R289, R290, R293, R298, R300, R374). -/
def execCopyHandout (engine : Bool) (s : State) : Host.Outcome State Fault Refusal :=
  if !s.cur.isRunning || !s.engineFree engine || !s.copyTurn then .next s else
  match s.cur.nextCopy with
  | none => .next s
  | some k =>
    runM (do
      if k.paused then
        modSlot k.num fun x => { x with engine := some engine, run := none, paused := false }
      else
        if !k.checked then
          keeping (do copyAlias k (← copyCheck k engine))
          modSlot k.num fun x => { x with checked := true, began := 0, waitThk := none }
        let k ← (do return ((← theTask).vcq.find? (·.num == k.num)).getD k)
        if !k.met then takeSems k
        let c := copyCmd k.bytes
        let x0 := (← theTask).sys.rng
        modSys fun y => { y with rng := rngAfter c.steps y.rng }
        modSlot k.num fun x => { x with engine := some engine, rng := x0, began := 0,
                                        pos := if c.type = 8 then c.src else c.dst }
      modify State.serveCore
      stopDue) s

/-- The parts of a command's payload in traversal order. -/
def copyParts (k : CopySlot) (engine : Bool) : M (List CopyPart) := do
  let f := k.info (← theTask) engine
  let c := copyCmd k.bytes
  let n0 := c.ext 0
  match c.type with
  | 1 => return (List.zip (rowStarts c.src c.n c.s) (rowStarts c.dst c.n c.d)).flatMap fun r => rawRow k engine r.1 r.2 n0
  | 2 => do
    let leaf ← walkFor f c.src false
    return transposeParts k engine c (leafFormat leaf).bits (leafBg leaf)
  | 3 => do
    let ws ← sideWidth f c.src false
    let wd ← sideWidth f c.dst true
    return (List.zip (rowStarts c.src c.n c.s) (rowStarts c.dst c.n c.d)).flatMap fun r =>
      (List.range n0).map fun i => ⟨wd, convertElem k engine c.mode ws wd r.1 r.2 i⟩
  | 4 => return (rowStarts c.dst c.n c.d).flatMap fun r => fillRow k engine c.p0 r n0
  | 5 => return (List.range (c.ext 1)).flatMap (gatherRow k engine c)
  | 6 => return c.bankPieces.flatMap fun p => rawRow k engine p.1 p.2 256
  | 7 => do
    let delta ← toDelta f c
    return (List.range (n0 / 4096)).map fun b => ⟨4096 * 8, compressBlock k engine c delta b⟩
  | _ => return (List.range (n0 / 4096)).map fun b => ⟨4096 * 8, decompressBlock k engine c b⟩

/-- Carry out the parts from the recorded progress on; at the end of a unit in which a watch stop became due, or of the last unit
asked for, the command stops there (R300, R442). True when the last part has performed. -/
def runParts (num : BitVec 32) (skip : Nat) (last : Option Nat) : Nat → List CopyPart → M Bool
  | _, [] => return true
  | bits, p :: rest => do
    let after := bits + p.bits
    if skip * 32768 ≤ bits then p.act
    if bits / 32768 < after / 32768 ∧ skip * 32768 ≤ bits then
      modSlot num fun x => { x with units := after / 32768 }
      let full := match last with | some n => decide (n ≤ after / 32768) | none => false
      if ((← theTask).flow.due.isSome || full) && !rest.isEmpty then return false
    runParts num skip last after rest

/-- The slots of completed commands before the oldest that has not completed are free again (R374). -/
def Task.retireCopies (t : Task) : Task := { t with vcq := t.vcq.dropWhile (·.complete) }

/-- A command whose payload has performed completes: its flags, its completion word and its signals (R298, R299). -/
def finishCopy (num : BitVec 32) (engine : Bool) : M Unit := do
  match (← theTask).vcq.find? (·.num == num) with
  | none => pure ()
  | some k => do
    let c := copyCmd k.bytes
    let src := cpSource (← theTask) engine
    raiseFlags k.flags
    if c.cw then
      writeScratch 1 src.src c.cwsp.toNat (leBytes 8 (if k.err then c.errval else c.cwval).toNat)
    for i in (List.range 32).filter fun i => c.sigm.getLsbD i do
      signalSem (BitVec.ofNat 5 i) 1 1 src.src
    modSlot num fun x => { x with complete := true, engine := none, paused := false }
    modTask Task.retireCopies

/-- What the acting task's command on an engine has written and not landed lands (R389). -/
def landCopy (k : CopySlot) : M Unit := do
  match k.landing with
  | none => pure ()
  | some l => do
    modify fun s => s.landRest ⟨0, 0⟩ l
    modSlot k.num fun x => { x with landing := none }

/-- The command that an engine runs for the acting task performs: its writes that have not landed land, and, unless a stop of the task
is coming, its payload goes on to its end (R300, R425). A fault of a page shot
down meanwhile is charged to its entry, and the command waits (R290, R419). -/
def copyRun (engine : Bool) (s : State) : Host.Outcome State Fault Refusal :=
  if !s.cur.isRunning then .next s else
  match s.cur.vcq.find? fun k => k.engine == some engine && !k.complete with
  | none => .next s
  | some k =>
    runM (do
      landCopy k
      if !s.cur.holding then
        let done ← if k.moved then pure true else (do runParts k.num k.units none 0 (← copyParts k engine))
        if done then finishCopy k.num engine
      stopDue) s

/-- One unit of the payload of the command that an engine runs: its writes land later (R300, R389). -/
def copyUnit (engine : Bool) (s : State) : Host.Outcome State Fault Refusal :=
  match s.cur.vcq.find? fun k => k.engine == some engine && !k.complete && !k.moved with
  | none => .next s
  | some k =>
    runM (do
      let done ← runParts k.num k.units (some (k.units + 1)) 0 (← copyParts k engine)
      let ps := ((← get).air).getD []
      modSlot k.num fun x => { x with moved := done, landing := some ((x.landing.getD {}).add ps) }
      modify State.grounded) s

/-- A command that signals no semaphore completes before the rest of its payload lands, as paths without an xfence may see it (R102; log
61). -/
def copyDrift (engine : Bool) (s : State) : Host.Outcome State Fault Refusal :=
  match s.cur.vcq.find? fun k => k.engine == some engine && !k.complete && k.moved && (copyCmd k.bytes).sigm == 0 with
  | none => .next s
  | some k =>
    runM (do
      modTask fun t => { t with adrift := t.adrift ++ (k.landing.map fun l => (.cp, l)).toList }
      modSlot k.num fun x => { x with landing := none }
      finishCopy k.num engine
      stopDue) s

/-- COPY_COMPLETE: the payload of the engine's command performs; then its completion word and its signals (R298, R299). -/
def execCopyComplete (engine : Bool) (s : State) : Host.Outcome State Fault Refusal := copyRun engine s

end Sys2Proof.Machine
end

