-- ==== Sys2Proof/Machine/Lnk.lean ====
section
/-! DEFINITION. The link queue and the die's link engine (R301 to R306, R426, R435, R475, R476): transfers begin in
queue order, exchange flits, and perform in queue order. -/

namespace Sys2Proof.Machine

/-! ## Fields of a transfer (R301) -/

/-- Local VA of an entry. -/
def Entry.lkVa (e : Entry) : Word := e.caps.getD 1 0
/-- Byte count of an entry. -/
def Entry.lkCount (e : Entry) : Nat := (e.caps.getD 2 0).toNat

/-- A transfer that receives. -/
def Instr.isRecv : Instr → Bool
  | .lrecv .. => true
  | .lradd .. => true
  | _ => false

/-- A transfer that adds. -/
def Instr.lkAdds : Instr → Bool
  | .lradd .. => true
  | _ => false

/-- Buffer tag of a transfer (R301). -/
def Instr.lkTag : Instr → BitVec 8
  | .lsend _ _ _ _ t => t
  | .lrecv _ _ _ _ t => t
  | .lradd _ _ _ _ t _ => t
  | _ => 0

/-- The fault a transfer would raise. -/
def Entry.lkInfo (e : Entry) : FaultInfo := { e.info with tag := Instr.lkTag e.ins }

/-- The checks at dispatch: reserved bits of the selector, the channel's owner, the byte count (R301, R476). -/
def linkFields (caps : List Word) : M Unit := do
  let sel := caps.getD 0 0
  let n := (caps.getD 2 0).toNat
  let c ← theCtx
  let reserved := sel.extractLsb' 10 6 ≠ 0 ∨ sel.extractLsb' 24 40 ≠ 0
  let chan := selChan sel
  if reserved ∨ chan < c.chanFirst ∨ c.chanFirst + c.chanCount ≤ chan ∨ n < 1 ∨ 2 ^ 30 < n then
    raiseAt .lnk fcField (← laneVa)

/-! ## Losing a partner (R305) -/

/-- The mark that stands for every channel of a peer. -/
def wholePeer : Nat := 256

/-- The partner on a channel is lost. -/
def State.isLost (s : State) (peer chan : Nat) : Bool := s.lost.contains (peer, chan) || s.lost.contains (peer, wholePeer)

/-- Mark the begun transfers that a test selects as lost, in every task. -/
def State.loseLinks (s : State) (hit : Task → Entry → Bool) : State :=
  s.mapTasks fun t => t.setQueue .lnk ((t.queue .lnk).map fun e =>
    if e.begun && hit t e then { e with lk := { e.lk with lost := true } } else e)

/-! ## Beginning (R302 to R304) -/

/-- The bytes both sides of a pair act on, once the partner's count is known. -/
def Entry.share (e : Entry) : Nat :=
  match e.lk.partner with
  | some n => min n e.lkCount
  | none => e.lkCount

/-- Nothing is left to be moved: a lost partner, or every byte of the pair accepted (R303, R305). -/
def Entry.linkDone (e : Entry) : Bool :=
  match e.ins with
  | .lstat _ => true
  | _ => e.begun && (e.lk.lost || (e.lk.partner.isSome && decide (e.share ≤ e.lk.bytes)))

/-- The 256-byte blocks of HBM that n bytes touch. -/
def blocksOf (a n : Nat) : List Nat := ((linesOf a n).map (· / 4)).eraseDups

/-- Egress of n bytes of HBM: a block whose tag does not match is poisoned, with an INTEGRITY record in the log of an
RCB (R433, R435). Egress 0 is the host's, 1 a link's. The stored tag is a free value (log 2). -/
def State.egress (s : State) (kind : Nat) (n : Nat) (rcb : Word) (a len : Nat) : State :=
  ((blocksOf a len).filter s.badTags.contains).foldl (fun s b =>
    let tag := (Config.freeWord s.free).toNat % 2 ^ 32
    let sum := crc32c (Mem.readN s.hbm (256 * b) 256)
    let s := ({ s with free := s.free + 1 }).poisonLines .hbm (256 * b) 256
    (s.logFault n rcb (plainRecord s n rcb fcIntegrity kind (256 * b) (tag * 2 ^ 32 + sum) 0 0)).1) s

/-- The leaf that an entry recorded as it began for the page of an address (R95, R426). -/
def Entry.linkLeaf (e : Entry) (va : Word) : Option Word :=
  (e.lk.leaves.find? fun x => pageOf x.2 x.1 == pageOf x.2 va).map (·.2)

/-- The pages of a range with the leaves that a walk of each records, cut at page ends: a written page can be written, and the
base of a delta page is there to be read. -/
def linkPages (f : FaultInfo) (write : Bool) : Nat → Word → Nat → M (List (Word × Word))
  | 0, _, _ => return []
  | fuel + 1, va, n => do
    if n = 0 then return []
    let leaf ← if write then destLeaf f va else walkFor f va false
    if leafDlt leaf then
      let _ ← walkFor f (va + (← theEff).baseOff) false
    let k := min n (roomIn leaf va)
    return (va, leaf) :: (← linkPages f write fuel (va + BitVec.ofNat 64 k) (n - k))

/-- The bytes of a flit, raw, through the translations its entry recorded, after the egress check of their blocks: a payload error
marks it (R303, R434, R435). -/
def flitBytes (e : Entry) : Nat → Word → Nat → M (List Byte × Bool)
  | 0, _, _ => return ([], false)
  | fuel + 1, va, n => do
    if n = 0 then return ([], false)
    match e.linkLeaf va with
    | none => stall
    | some leaf => do
      let k := min n (roomIn leaf va)
      modify fun s =>
        let t := s.cur
        match placeOf leaf va t.cluster with
        | (.hbm, a) => s.egress 1 t.pool.ctx t.pool.rcb a k
        | _ => s
      let (bs, bad) ← pageCopyRead e.lkInfo leaf va k
      let (rest, bad2) ← flitBytes e fuel (va + BitVec.ofNat 64 k) (n - k)
      return (bs ++ rest, bad || bad2)

/-! ## Ports (R474 to R476) -/

/-- The ports of a die that are up and reach a peer (R474, R475). -/
def State.upPorts (s : State) (die peer : Nat) : List Nat :=
  ((List.range 6).map (6 * die + ·)).filter fun j => Config.reaches j peer && !s.portDown.getLsbD j

/-- The port on which a die's flits of a channel travel: the one that the peer and the channel choose of those that are up (R475,
R476; log 63). -/
def State.portOf (s : State) (die peer chan : Nat) : Option Nat :=
  let l := s.upPorts die peer
  l[Config.route peer chan % l.length]?

/-- A flit was accepted on the port of a channel: no retries of that port have failed in a row (R475). -/
def State.heard (s : State) (die peer chan : Nat) : State :=
  match s.portOf die peer chan with
  | none => s
  | some j => if h : j < 24 then { s with retries := s.retries.set j 0 h } else s

/-- The flits of a send, from the given offset on (R303, R475). -/
def sendFlits (e : Entry) : Nat → Nat → M Unit
  | 0, _ => pure ()
  | fuel + 1, off => do
    if off < e.share then
      let (bs, bad) ← flitBytes e 3 (e.lkVa + BitVec.ofNat 64 off) (min 256 (e.share - off))
      modify fun s => { s with
        sent := s.sent ++ [Sent.flit e.peer e.chan e.lk.pair bs bad (s.portOf s.cur.pool.die.toNat e.peer e.chan) (off / 256)] }
      sendFlits e fuel (off + 256)

/-- Bytes of an element of an lradd page: FP32 or BF16, unscaled, or FMT_BAD (R303). -/
def addWidth (f : FaultInfo) (leaf va : Word) : M Nat := do
  let w := (leafFormat leaf).bits / 8
  if leafBg leaf ≠ 0 || !(leafFmt leaf == 0 || leafFmt leaf == 2) then raiseE f fcFmt va
  return w

/-- Every page of an lradd's destination: its format, and the element boundaries. -/
def addPages (f : FaultInfo) (count : Nat) : Nat → Word → Nat → M Unit
  | 0, _, _ => pure ()
  | fuel + 1, va, n => do
    if n ≠ 0 then
      let leaf ← destLeaf f va
      let w ← addWidth f leaf va
      if va.toNat % w ≠ 0 then raiseE f fcAlign va
      if count % w ≠ 0 then raiseE f fcField va
      let k := min n (roomIn leaf va)
      addPages f count fuel (va + BitVec.ofNat 64 k) (n - k)

/-- Change an entry of the link queue. -/
def modLink (num : BitVec 32) (g : Entry → Entry) : M Unit := modTask fun t =>
  t.setQueue .lnk ((t.queue .lnk).map fun e => if e.num = num then g e else e)

/-- The next number of a context's pairs in a direction of a channel. -/
def Ctx.issuedOf (c : Ctx) (key : Nat) : Nat := (c.issued.lookup key).getD 0

/-- A transfer takes its place among the pairs of its channel (R302). -/
def takePair (e : Entry) (g : Nat → LinkProg → LinkProg) : M Unit := do
  let c ← theCtx
  let pair := c.issuedOf (pairKey e)
  modify fun s => s.modCtx c.number fun c =>
    { c with issued := (pairKey e, pair + 1) :: c.issued.filter fun x => x.1 != pairKey e }
  modLink e.num fun x => { x with begun := true, lk := g pair x.lk }

/-- A transfer begins: its checks, the translations it records, and its place among the pairs of its channel. -/
def linkBegin (e : Entry) : M Unit := do
  let f := e.lkInfo
  match e.caps[3]? with
  | some a => scratchAt f a 8 8
  | none => pure ()
  if (← get).isLost e.peer e.chan then takePair e fun pair l => { l with pair, lost := true }
  else
    let fuel := rangeFuel e.lkCount
    match e.ins with
    | .lradd .. => addPages f e.lkCount fuel e.lkVa e.lkCount
    | _ => pure ()
    let leaves ← linkPages f (Instr.isRecv e.ins) fuel e.lkVa e.lkCount
    takePair e fun pair l => { l with pair, leaves }

/-- A begun pair's partner has begun with a byte count: a send sends its flits, as far as both act on the pair, and counts their
bytes (R302, R376). -/
def linkMeet (e : Entry) (count : Nat) : M Unit := do
  if e.lk.partner.isNone then
    let e := { e with lk := { e.lk with partner := some count } }
    modLink e.num fun x => { x with lk := { x.lk with partner := some count } }
    if Instr.isSend e.ins then
      tryCatch (sendFlits e (e.share / 256 + 1) 0) fun x =>
        match x with
        | .fault _ _ => stall
        | x => throw x
      modify fun s => s.countBytes s.cur.pool.die.toNat (Instr.lkTag e.ins).toNat (s.fnOf s.cur.pool.ctx) e.share

/-! ## Performing (R304, R305) -/

/-- The result of a transfer: 0 OK, 1 LOST, 2 SIZE. -/
def Entry.linkResult (e : Entry) : Nat :=
  if e.lk.lost then 1 else if e.lk.partner = some e.lkCount then 0 else 2

/-- CMASK after a transfer: bit CIDX set by an lradd with result OK. -/
def cmaskAfter (e : Entry) (mask : BitVec 16) : BitVec 16 :=
  match e.ins with
  | .lradd _ _ _ _ _ i => if e.linkResult = 0 then mask ||| (1 <<< i.toNat) else mask
  | _ => mask

/-- The status word (R304). -/
def linkWord (num : BitVec 32) (result active : Nat) (mask : BitVec 16) : Word :=
  num ++ (BitVec.ofNat 4 result) ++ (0 : BitVec 4) ++ BitVec.ofNat 8 active ++ mask

/-- The LINK_LOST record of a transfer (R305, R433). -/
def lostRecord (s : State) (e : Entry) : List Byte :=
  let t := s.cur
  plainRecord s t.pool.ctx t.pool.rcb fcLost (e.peer + e.chan * 2 ^ 16) e.num.toNat e.lk.bytes 0 t.pool.node.toNat

/-- The head of the link queue performs: what it has accepted lands, CMASK, the LINK_LOST record, the completion word; its status word
goes where the caller puts it. The entries that it counts as active are those behind it that have begun (log 64). -/
def linkPerform (e : Entry) : M Word := do
  modify fun s => s.landRest ⟨0, 0⟩ (e.landing.getD {})
  modLink e.num fun x => { x with landing := none }
  let t ← theTask
  let mask := cmaskAfter e t.sys.cmask
  let result := match e.ins with
    | .lstat _ => 0
    | _ => e.linkResult
  let active := (t.queue .lnk).tail.filter (·.begun)
  let w := linkWord e.num result active.length mask
  let after := match e.ins with
    | .lstat clr => if clr then 0 else mask
    | _ => mask
  modSys fun y => { y with cmask := after }
  if result = 1 then modify fun s => (s.logTask t (lostRecord s e)).1
  match e.caps[3]? with
  | some a => writeScratch 7 (t.pool.die.setWidth 64) a.toNat (leBytes 8 w.toNat)
  | none => pure ()
  popHead .lnk
  return w

/-- The transfers that completed while the task was stopped perform as it runs again, and their status words wait to
be appended to s62 before any other entry performs (R426). -/
def heldLinks : Nat → M Unit
  | 0 => pure ()
  | fuel + 1 => do
    match (← theTask).queue .lnk with
    | e :: _ =>
      if e.begun && e.linkDone then
        let w ← linkPerform e
        modTask fun t => { t with heldLnk := t.heldLnk ++ [w] }
        heldLinks fuel
    | [] => pure ()

/-- Append the held status words to s62 (R426). -/
def drainHeld : Nat → M Unit
  | 0 => pure ()
  | fuel + 1 => do
    match (← theTask).heldLnk with
    | [] => pure ()
    | w :: rest => do
      pushPort 62 ⟨w, false⟩
      modTask fun t => { t with heldLnk := rest }
      drainHeld fuel

/-- An acting entry of the link queue: a transfer that has not begun begins, up to 16 at once and in queue order; the
head performs once it is done. An entry behind the head leaves its faults to the time when it is the head. -/
def linkAct (e : Entry) : M Unit := do
  let head := ((← theTask).queue .lnk).head?.map (·.num) == some e.num
  if head && e.linkDone then
    let w ← linkPerform e
    pushPort 62 ⟨w, false⟩
  else if e.begun || e.linkDone then stall
  else if head then linkBegin e
  else tryCatch (linkBegin e) fun x =>
    match x with
    | .fault _ _ => stall
    | x => throw x

/-- The head of the link queue performs before the rest of what it has accepted lands, as paths without an xfence may see it (R102; log
61). -/
def linkDrift (e : Entry) : M Unit := do
  match e.landing with
  | none => stall
  | some l => do
    modTask fun t => { t with adrift := t.adrift ++ [(.lk, l)] }
    linkAct { e with landing := none }

/-- A link transfer of two lanes. -/
def linkOp (i : Instr) (s : State) : Host.Outcome State Fault Refusal :=
  match s.act with
  | none => runM (dispatch .lnk i 2 linkFields) s
  | some e => runM (linkAct e) s

/-- LSEND (R303). -/
def execLsend (d a b : SReg) (cw : Option SReg) (tag : BitVec 8) := linkOp (.lsend d a b cw tag)
/-- LRECV (R303). -/
def execLrecv (d a b : SReg) (cw : Option SReg) (tag : BitVec 8) := linkOp (.lrecv d a b cw tag)
/-- LRADD (R303). -/
def execLradd (d a b : SReg) (cw : Option SReg) (tag : BitVec 8) (cidx : BitVec 4) := linkOp (.lradd d a b cw tag cidx)

/-- LSTAT (R304). -/
def execLstat (clr : Bool) (s : State) : Host.Outcome State Fault Refusal :=
  match s.act with
  | none => runM (dispatch .lnk (.lstat clr) 1 fun _ => pure ()) s
  | some e => runM (linkAct e) s

/-! ## Flits (R303, R475, R476) -/

/-- A begun pair has received no flit for 2^24 cycles (R305). -/
def Entry.timedOut (e : Entry) : Bool :=
  decide (2 ^ 24 ≤ e.lk.idle) && e.lk.partner.isSome

/-- A context owns a channel. -/
def Ctx.owns (c : Ctx) (chan : Nat) : Bool := decide (c.chanFirst ≤ chan ∧ chan < c.chanFirst + c.chanCount)

/-- The begun transfers of a direction on a channel that are not done, with their tasks. -/
def State.openLinks (s : State) (send : Bool) (peer chan : Nat) : List (Task × Entry) :=
  s.tasks.flatMap fun t =>
    if ((s.ctx? t.pool.ctx).map (·.owns chan)).getD false then
      ((t.queue .lnk).filter fun e => e.begun && !e.linkDone && (if send then Instr.isSend e.ins else Instr.isRecv e.ins) &&
        e.peer == peer && e.chan == chan).map fun e => (t, e)
    else []

/-- The one of them whose pair is oldest. -/
def firstPair (l : List (Task × Entry)) : Option (Task × Entry) :=
  l.foldl (fun m x => match m with
    | none => some x
    | some y => if x.2.lk.pair < y.2.lk.pair then some x else some y) none

/-- The flits this chip has sent for a pair. -/
def State.sentFlits (s : State) (peer chan pair : Nat) : List (List Byte × Bool) :=
  s.sent.filterMap fun x =>
    match x with
    | .flit p c i bs bad _ _ => if p = peer ∧ c = chan ∧ i = pair then some (bs, bad) else none
    | _ => none

/-- The context of this chip that owns a channel (R476). -/
def State.chanCtx (s : State) (chan : Nat) : Option Ctx := s.ctxs.find? (·.owns chan)

/-- A pair of this chip with itself was cancelled on one side by an abort (R432). -/
def State.isCancelled (s : State) (peer chan : Nat) (send : Bool) (pair : Nat) : Bool :=
  (s.chanCtx chan).any fun c => c.cancelled.contains (pairIx peer chan send, pair)

/-- A flit from this chip to itself is one that it sent (R302). -/
def State.loopOk (s : State) (e : Entry) (count : Nat) (bs : List Byte) (bad : Bool) : Bool :=
  if BitVec.ofNat 10 e.peer = Config.chip then
    let sender := (s.openLinks true e.peer e.chan).any fun x => x.2.lk.pair == e.lk.pair && x.2.lkCount == count
    match (s.sentFlits e.peer e.chan e.lk.pair)[e.lk.bytes / 256]? with
    | some (x, b) => bs == x && b == bad && sender
    | none => false
  else true

/-- The elements of the first k bytes added to the old ones (R303). -/
def addElems (w : Nat) : Nat → List Byte → List Byte → List Byte
  | 0, old, _ => old
  | fuel + 1, old, inc =>
    if old.length < w then old else
    let f := if w = 4 then Fmt.fp32 else Fmt.bf16
    let sum := (f.enc .rne 0 ((f.dec (leNat (old.take w))).add (f.dec (leNat (inc.take w)))).1).1
    leBytes w sum ++ addElems w fuel (old.drop w) (inc.drop w)

/-- Received bytes are written or added page by page, through the translations that the entry recorded as it began (R303, R426). -/
def landBytes (e : Entry) (bad : Bool) : Nat → Word → List Byte → M Unit
  | 0, _, _ => pure ()
  | fuel + 1, va, bs => do
    if !bs.isEmpty then
      match e.linkLeaf va with
      | none => stall
      | some leaf => do
        let part := bs.take (roomIn leaf va)
        let t ← theTask
        let new ← match e.ins with
          | .lradd .. =>
            (addElems ((leafFormat leaf).bits / 8) part.length · part) <$> rawBytes leaf va part.length
          | _ => pure part
        storeBytes leaf va new
        let (p, a) := placeOf leaf va t.cluster
        if bad then modify fun s => s.poisonLines p a part.length
        watchHome 5 .write ⟨7, t.pool.die.setWidth 64, some (t.pool.ctx, t.register)⟩
          (hbmRuns leaf t.cluster [(va, part.length)]) burstSkid
        landBytes e bad fuel (va + BitVec.ofNat 64 part.length) (bs.drop part.length)

/-- The physical bytes of a part of an entry's range, through its recorded translations: space, address and length. -/
def Entry.linkRuns (e : Entry) (cluster : Nat) : Nat → Word → Nat → List (Nat × Nat × Nat)
  | 0, _, _ => []
  | fuel + 1, va, n =>
    if n = 0 then [] else
    match e.linkLeaf va with
    | none => []
    | some leaf =>
      let k := min n (roomIn leaf va)
      let p := placeOf leaf va cluster
      (p.1.code, p.2, k) :: e.linkRuns cluster fuel (va + BitVec.ofNat 64 k) (n - k)

/-- An earlier active lradd of the task still has to add into a place that a flit of n bytes at an offset adds into (R304). -/
def Task.addsBefore (t : Task) (e : Entry) (off n : Nat) : Bool :=
  let mine := e.linkRuns t.cluster 3 (e.lkVa + BitVec.ofNat 64 off) n
  (Instr.lkAdds e.ins) && ((t.queue .lnk).takeWhile (·.num != e.num)).any fun x =>
    x.begun && !x.linkDone && Instr.lkAdds x.ins &&
      let left := x.share - x.lk.bytes
      (x.linkRuns t.cluster (rangeFuel left) (x.lkVa + BitVec.ofNat 64 x.lk.bytes) left).any fun r =>
        mine.any fun m => r.1 == m.1 && decide (r.2.1 < m.2.1 + m.2.2 ∧ m.2.1 < r.2.1 + r.2.2)

/-- A flit whose turn in a replay log has not come is kept, to be accepted once it is released (R458, R460). -/
def State.holdFlit (s : State) (n : Nat) (e : Event) (flit : Instr) : State :=
  let rest := s.heldFlits.filter (· != flit)
  if s.turnOf n e = .hold then { s with heldFlits := rest ++ [flit] } else { s with heldFlits := rest }

/-- LINK_FLIT_RECEIVE: the next flit of a channel is accepted for the oldest open receive (R303, R457, R475); a
payload that is not the next part of the pair is refused, and one that an earlier lradd comes before waits (R304). The bytes of a
receive may land later; poisoned ones and those of an lradd land whole (R389; log 62). -/
def execLinkFlitReceive (peer : BitVec 10) (chan : BitVec 8) (senderCount : Nat) (payload : List Byte) (poisoned : Bool)
    (s : State) : Host.Outcome State Fault Refusal :=
  match firstPair (s.openLinks false peer.toNat chan.toNat) with
  | none => .next s
  | some (t, e) =>
    let share := min senderCount e.lkCount
    let off := e.lk.bytes
    let ok := decide (1 ≤ senderCount ∧ payload.length = min 256 (share - off)) && !e.timedOut &&
      (e.lk.partner.isNone || e.lk.partner == some senderCount) && s.loopOk e senderCount payload poisoned
    if !ok || t.addsBefore e off payload.length then .next s else
    let flit : Instr := .linkFlitReceive peer chan senderCount payload poisoned
    let event : Event := { ekind := 1, die := t.pool.die.toNat, key := peer.setWidth 64 ||| (chan.setWidth 64 <<< 16),
                           value := e.num.setWidth 64, value2 := BitVec.ofNat 64 (off / 256), task := 0 }
    runM (do
      modify fun s => s.holdFlit t.pool.ctx event flit
      happen t.pool.ctx event
      landBytes e poisoned 3 (e.lkVa + BitVec.ofNat 64 off) payload
      match (← get).air with
      | some ps => do
        modLink e.num fun x => { x with landing := some ((x.landing.getD {}).add ps) }
        modify State.grounded
      | none => pure ()
      modLink e.num fun x => { x with lk := { x.lk with partner := some senderCount, bytes := off + payload.length, idle := 0 } }
      if BitVec.ofNat 10 e.peer = Config.chip then
        modify fun s => s.mapTasks fun u => u.setQueue .lnk ((u.queue .lnk).map fun x =>
          if x.begun && Instr.isSend x.ins && x.peer == e.peer && x.chan == e.chan && x.lk.pair == e.lk.pair then
            { x with lk := { x.lk with idle := 0 } } else x)
      modify fun s => s.countBytes t.pool.die.toNat (Instr.lkTag e.ins).toNat (s.fnOf t.pool.ctx) payload.length
      modify fun s => s.heard t.pool.die.toNat e.peer e.chan
      if (← theTask).isRunning then stopDue) ((if Instr.lkAdds e.ins || poisoned then s.grounded else s).focus t.tid)

/-- The receiver of a pair on this chip, when it is its own peer, has accepted the last flit (R302, R303). -/
def State.loopAccepted (s : State) (e : Entry) : Bool :=
  if BitVec.ofNat 10 e.peer = Config.chip then
    let issued := ((s.chanCtx e.chan).map (·.issuedOf (pairIx e.peer e.chan false))).getD 0
    decide (e.lk.pair < issued) && !((s.openLinks false e.peer e.chan).any fun x => x.2.lk.pair == e.lk.pair) &&
      !s.isCancelled e.peer e.chan false e.lk.pair
  else true

/-- LINK_SEND_ACCEPTED: the receiver has accepted the last flit of the oldest open send (R303), which ends a run of failed retries of
its port (R475). -/
def execLinkSendAccepted (peer : BitVec 10) (chan : BitVec 8) (recvCount : Nat) (s : State) : Host.Outcome State Fault Refusal :=
  match firstPair (s.openLinks true peer.toNat chan.toNat) with
  | none => .next s
  | some (t, e) =>
    if recvCount = 0 || e.timedOut || !(e.lk.partner.isNone || e.lk.partner == some recvCount) || !s.loopAccepted e then .next s else
    runM (do
      linkMeet e recvCount
      modLink e.num fun x => { x with lk := { x.lk with bytes := x.share } }
      modify fun s => s.heard t.pool.die.toNat e.peer e.chan) (s.focus t.tid)

/-- The byte count of the begun partner of an entry, where this chip is its own peer (R302). -/
def State.loopCount (s : State) (e : Entry) : Option Nat :=
  (((s.openLinks (!Instr.isSend e.ins) e.peer e.chan).find? fun x => x.2.lk.pair == e.lk.pair)).map (·.2.lkCount)

/-- News of a pair's partner. With a count the oldest open entry of the direction whose partner was not known learns it; without one the
receiver of the oldest send whose partner is known has taken another flit (R302, R305, R475). Where this chip is its own peer, its own
entries tell. -/
def linkNews (peer chan : Nat) (send : Bool) (count : Nat) (s : State) : Host.Outcome State Fault Refusal :=
  let open_ := s.openLinks send peer chan
  let loop := decide (BitVec.ofNat 10 peer = Config.chip)
  if loop || count != 0 then
    match firstPair (open_.filter (·.2.lk.partner.isNone)) with
    | some (t, e) =>
      match (if loop then s.loopCount e else some count) with
      | some n => runM (linkMeet e n) (s.focus t.tid)
      | none => .next s
    | none => .next s
  else
    match firstPair (open_.filter (·.2.lk.partner.isSome)) with
    | some (t, e) =>
      if send && !e.timedOut then
        runM (do
          modLink e.num fun x => { x with lk := { x.lk with idle := 0 } }
          modify fun s => s.heard t.pool.die.toNat e.peer e.chan) (s.focus t.tid)
      else .next s
    | none => .next s

/-- The fabric reports a peer chip unreachable: every open pair with it is lost, and so is what follows (R305). -/
def State.unreachable (s : State) (peer : Nat) : State :=
  let s := s.loseLinks fun _ e => e.peer == peer && !e.linkDone
  { s with lost := (peer, wholePeer) :: s.lost.filter (· != (peer, wholePeer)) }

/-- The peers that a port taken down has left without a port of its die (R475). -/
def State.cutOff (s : State) (port : Nat) : List Nat :=
  (List.range 1024).filter fun p => Config.reaches port p && (s.upPorts (port / 6) p).isEmpty

/-- FLIT_CRC_RETRY: a flit is sent again; after 16 failures in a row the port is taken down, its flits go through another port of its
die, and a peer that no port of it reaches is unreachable (R475; log 63). -/
def execFlitCrcRetry (port : BitVec 5) (s : State) : Host.Outcome State Fault Refusal :=
  if h : port.toNat < 24 then
    let n := s.retries.get ⟨port.toNat, h⟩ + 1
    let s1 := { s with retries := s.retries.set port.toNat n h }
    if n < 16 then .next s1 else
    let s2 := { s1 with portDown := s1.portDown ||| (1 <<< port.toNat) }
    .next ((if s.portDown.getLsbD port.toNat then [] else s2.cutOff port.toNat).foldl State.unreachable s2)
  else .next s

/-- LINK_PEER_UNREACHABLE (R305). -/
def execLinkPeerUnreachable (peer : BitVec 10) (s : State) : Host.Outcome State Fault Refusal := .next (s.unreachable peer.toNat)

/-- LINK_FLIT_TIMEOUT: the partner on the channel is lost (R305). -/
def execLinkFlitTimeout (peer : BitVec 10) (chan : BitVec 8) (s : State) : Host.Outcome State Fault Refusal :=
  let here (e : Entry) := e.peer == peer.toNat && e.chan == chan.toNat && !e.linkDone
  if (s.openLinks true peer.toNat chan.toNat ++ s.openLinks false peer.toNat chan.toNat).any fun x => x.2.timedOut then
    let s := s.loseLinks fun _ e => here e
    .next { s with lost := (peer.toNat, chan.toNat) :: s.lost.filter (· != (peer.toNat, chan.toNat)) }
  else .next s

/-- LINK_PEER_REACHABLE (R305). -/
def execLinkPeerReachable (peer : BitVec 10) (s : State) : Host.Outcome State Fault Refusal :=
  .next { s with lost := s.lost.filter fun x => x.1 != peer.toNat }

end Sys2Proof.Machine
end

