-- ==== Sys2Proof/Machine/Owl.lean ====
section
/-! DEFINITION. The ready-pool scheduler (R30 to R32, R43, R44, R319 to R328, R425): the key, placement, reservation,
unstaging, pre-emption, the entry into a running slot, and what a running slot is charged. -/

namespace Sys2Proof.Machine

/-! ## The key (R322) -/

/-- Effective priority of a task. -/
def State.prioOf (s : State) (t : Task) : Nat := (s.taskEff t).prio

/-- The place of a task's launch in the acceptance order. -/
def State.acceptOrder (s : State) (t : Task) : Nat :=
  if t.pool.origin = 0 then s.launches.findIdx (·.serial == t.pool.serial) else 0

/-- The key of a Ready entry: smaller is earlier. -/
def State.keyOf (s : State) (t : Task) : List Int :=
  let (cls, since, dist) : Int × Int × Int :=
    match t.flow.ready with
    | some c => (0, c, 0)
    | none => (1, 0, -t.pool.dist)
  [-(s.prioOf t : Int), cls, since, dist, t.pool.node.toNat, s.acceptOrder t, t.pool.entered, t.pool.pos, t.pool.index]

/-- Lexicographic order. -/
def lexLt : List Int → List Int → Bool
  | x :: xs, y :: ys => decide (x < y) || (x == y && lexLt xs ys)
  | [], _ :: _ => true
  | _, [] => false

/-- Insert an entry in key order. -/
def insertEntry (x : List Int × Task) : List (List Int × Task) → List (List Int × Task)
  | [] => [x]
  | y :: r => if lexLt x.1 y.1 then x :: y :: r else y :: insertEntry x r

/-- Entries in key order. -/
def State.inOrder (s : State) (l : List Task) : List Task :=
  (l.foldl (fun acc t => insertEntry (s.keyOf t, t) acc) []).map (·.2)

/-- A task that is Ready. -/
def Task.isReady (t : Task) : Bool := t.status == .ready

/-- A Ready entry takes part in dispatch: its context is not halted, unless it is the task of a STEP (R447, R449). -/
def State.eligible (s : State) (t : Task) : Bool :=
  t.isReady && (t.flow.stepping || !((s.ctx? t.pool.ctx).map (·.halted)).getD true)

/-- The Ready entries of a die in key order. -/
def State.readyOrder (s : State) (die : BitVec 2) : List Task :=
  s.inOrder (s.tasks.filter fun t => t.pool.die == die && s.eligible t)

/-! ## Conditions of placement (R30, R43, R323, R324) -/

/-- The cores of a die. -/
def coresOf (die : BitVec 2) : List Nat := (List.range 48).map (48 * die.toNat + ·)

/-- The task in a core's running slot. -/
def State.runningOn (s : State) (c : Nat) : Option Task := s.tasks.find? (·.status == .running c)

/-- The task in a core's staged slot. -/
def State.stagedOn (s : State) (c : Nat) : Option Task := s.tasks.find? (·.status == .staged c)

/-- Pages of the running task of a core. -/
def State.pagesOn (s : State) (c : Nat) : Nat := ((s.runningOn c).map (·.pool.spp)).getD 0

/-- Tasks of an RCB's subtree in slots of a die, leaving out those of given handles (R30). -/
def State.heldBy (s : State) (n : Nat) (rcb : Word) (die : BitVec 2) (without : List Nat) : Nat :=
  (s.tasks.filter fun t => t.pool.ctx == n && t.pool.die == die && t.coreOf.isSome && !without.contains t.tid &&
    s.below n rcb t.pool.rcb (s.poolImage t.pool)).length

/-- The budgets of an entry's chain allow its placement once the tasks of given handles are gone; nothing of an aborting
chain is dispatched (R30, R31, R34). -/
def State.budgetOk (s : State) (t : Task) (without : List Nat) : Bool :=
  let n := t.pool.ctx
  let im := s.poolImage t.pool
  !s.chainAborted n t.pool.rcb im && (s.spent n t.pool.rcb t.pool.die.toNat im).isNone &&
  (s.ancestry n chainFuel t.pool.rcb im).all fun r => decide (s.heldBy n r t.pool.die without < (s.effOf n r im).maxCores)

/-- No reservation keeps a core for another entry: the oldest of a core's counts (R324; log 58). -/
def State.openTo (s : State) (t : Task) (c : Nat) : Bool :=
  match s.coreResv.lookup c with
  | some x => x == t.tid
  | none => true

/-- A core's staged slot is empty and not kept for another entry (R324). -/
def State.slotFor (s : State) (t : Task) (c : Nat) : Bool := (s.stagedOn c).isNone && s.openTo t c

/-- A core that an entry can be staged on (R43, R323). -/
def State.fits (s : State) (t : Task) (c : Nat) : Bool := s.slotFor t c && decide (s.pagesOn c + t.pool.spp ≤ 64)

/-- The core that an entry goes to: the lowest with an empty running slot, else the lowest that fits (R323). -/
def State.coreFor (s : State) (t : Task) : Option Nat :=
  let l := (coresOf t.pool.die).filter (s.fits t)
  (l.find? fun c => (s.runningOn c).isNone).orElse fun _ => l.head?

/-- The scratchpad pages of a task that lie in frames. -/
def Task.framePages (t : Task) : List Nat := (List.range 32).filter t.filled.getLsbD

/-- Frames of a task are reclaimed: their contents go to its backing if they were written since they were filled (R354). -/
def State.reclaimFrom (s : State) (t : Task) (pages : List Nat) : State :=
  { s with backing := t.writeBack pages s.backing }.setTask
    { t with filled := pages.foldl (fun f p => f &&& ~~~((1 : BitVec 32) <<< p)) t.filled,
             written := pages.foldl (fun f p => f &&& ~~~((1 : BitVec 32) <<< p)) t.written }

/-- A stopped task whose frames stay on a core (R354). -/
def Task.restsOn (t : Task) (c : Nat) : Bool := t.coreOf.isNone && t.home == some c

/-- Reclaim a number of frames of a core from the tasks that rest on it, in turn (R354; log 39). -/
def State.reclaim (s : State) : Nat → List Task → State
  | _, [] => s
  | n, t :: r =>
    let pages := t.framePages.take n
    State.reclaim (s.reclaimFrom t pages) (n - pages.length) r

/-- The frames that a core lacks for what its slots and the tasks that rest on it hold (R43, R354). -/
def State.framesShort (s : State) (c : Nat) : Nat :=
  let slots := (s.tasks.filter fun t => t.coreOf == some c).map (·.pool.spp)
  let rest := (s.tasks.filter (Task.restsOn · c)).map fun t => t.framePages.length
  slots.sum + rest.sum - 64

/-- A task goes to a core: on the core where its frames stay it finds them, and from another core they are written back first
(R354). -/
def Task.toCore (t : Task) (c : Nat) : Task :=
  if t.home = some c then { t with status := .staged c }
  else { t with status := .staged c, home := some c, filled := 0, written := 0 }

/-- Put an entry into a core's staged slot (R323, R324, R354). -/
def State.place (s : State) (t : Task) (c : Nat) : State :=
  let s := if t.home = some c then s else { s with backing := t.writeBack t.framePages s.backing }
  let s := s.setTask (t.toCore c)
  let s := s.reclaim (s.framesShort c) (s.tasks.filter (Task.restsOn · c))
  { s with coreResv := s.coreResv.filter (·.2 != t.tid) }

/-- The core an entry reserves: the lowest whose running task holds the fewest pages (R324). -/
def State.coreToReserve (s : State) (t : Task) : Option Nat :=
  (coresOf t.pool.die).foldl (fun m c =>
    match m with
    | none => some c
    | some b => if s.pagesOn c < s.pagesOn b then some c else some b) none

/-- OWL_PLACE: the first entry in key order that can be placed is staged; the first of all, passed over only for want
of scratchpad, reserves a core instead (R323, R324). -/
def execOwlPlace (die : BitVec 2) (s : State) : Host.Outcome State Fault Refusal :=
  let order := s.readyOrder die
  let placeable (t : Task) : Bool := s.budgetOk t [] && (s.coreFor t).isSome
  let wants (t : Task) : Bool :=
    s.budgetOk t [] && (s.coreFor t).isNone && (coresOf die).any (s.slotFor t) && !(s.coreResv.any (·.2 == t.tid))
  match order.head? with
  | none => .next s
  | some first =>
    match (if wants first then s.coreToReserve first else none) with
    | some c => .next { s with coreResv := s.coreResv ++ [(c, first.tid)] }
    | none =>
      match order.find? placeable with
      | none => .next s
      | some t =>
        match s.coreFor t with
        | some c => .next (s.place t c)
        | none => .next s

/-! ## Making room (R326, R327) -/

/-- The best of a list under a strict order. -/
def bestOf (better : Task → Task → Bool) (l : List Task) : Option Task :=
  l.foldl (fun m t => match m with
    | none => some t
    | some b => if better t b then some t else some b) none

/-- The first entry in key order, when no staged slot of the die is free. -/
def State.wantsRoom (s : State) (die : BitVec 2) : Option Task :=
  match (s.readyOrder die).head? with
  | none => none
  | some e => if (coresOf die).any (fun c => (s.stagedOn c).isNone) then none else some e

/-- A staged task of lower priority whose slot the entry could take (R326). -/
def State.unstageable (s : State) (e : Task) : List Task :=
  s.tasks.filter fun u =>
    match u.status with
    | .staged c => u.pool.die == e.pool.die && decide (s.prioOf u < s.prioOf e) && s.budgetOk e [u.tid] &&
        decide (s.pagesOn c + e.pool.spp ≤ 64) && s.openTo e c
    | _ => false

/-- OWL_UNSTAGE: the lowest priority first, then the highest core (R326). -/
def execOwlUnstage (die : BitVec 2) (s : State) : Host.Outcome State Fault Refusal :=
  match s.wantsRoom die with
  | none => .next s
  | some e =>
    match bestOf (fun a b => decide (s.prioOf a < s.prioOf b) ||
        (s.prioOf a == s.prioOf b && decide (b.coreOf.getD 0 < a.coreOf.getD 0))) (s.unstageable e) with
    | none => .next s
    | some u => .next (s.setTask { u with status := .ready })

/-- The removal of a running task lets an entry be placed: its core's staged task runs next, and its staged slot is empty then
(R43, R324, R326). -/
def State.freedBy (s : State) (e v : Task) : Bool :=
  s.budgetOk e [v.tid] && ((s.coreFor e).isSome ||
    v.coreOf.any fun c => s.openTo e c && decide (((s.stagedOn c).map (·.pool.spp)).getD 0 + e.pool.spp ≤ 64))

/-- Running tasks whose removal would let an entry be placed within its budgets, and that no pre-emption has chosen. -/
def State.victims (s : State) (e : Task) : List Task :=
  s.tasks.filter fun v => v.isRunning && v.pool.die == e.pool.die && v.flow.preempt.isNone && s.freedBy e v

/-- A pre-emption for an entry is in progress. -/
def State.preempting (s : State) (e : Task) : Bool := s.tasks.any fun v => v.flow.preempt == some e.tid

/-- Mark a running task as pre-empted for an entry. -/
def State.markPreempt (s : State) (v e : Task) : State :=
  s.setTask { v with flow := { v.flow with preempt := some e.tid } }

/-- The task that R326 pre-empts for an entry: the lowest priority, then the one that entered its slot last, then the
highest core. -/
def State.preemptFor (s : State) (e : Task) : Option Task :=
  bestOf (fun a b => decide (s.prioOf a < s.prioOf b) || (s.prioOf a == s.prioOf b &&
      (decide (b.flow.ranSince < a.flow.ranSince) ||
        (a.flow.ranSince == b.flow.ranSince && decide (b.coreOf.getD 0 < a.coreOf.getD 0)))))
    ((s.victims e).filter fun v => decide (s.prioOf v < s.prioOf e))

/-- OWL_PREEMPT (R326). -/
def execOwlPreempt (die : BitVec 2) (s : State) : Host.Outcome State Fault Refusal :=
  match s.wantsRoom die with
  | none => .next s
  | some e =>
    if s.preempting e || !(s.unstageable e).isEmpty then .next s else
    match s.preemptFor e with
    | none => .next s
    | some v => .next (s.markPreempt v e)

/-- The first entry of a die in key order, when it cannot be placed (R327). -/
def State.keptOut (s : State) (die : BitVec 2) : Option Task :=
  match (s.readyOrder die).head? with
  | none => none
  | some e => if s.budgetOk e [] && (s.coreFor e).isSome then none else some e

/-- The entry can be given room under R326. -/
def State.roomMade (s : State) (die : BitVec 2) (e : Task) : Bool :=
  (s.wantsRoom die).isSome && (!(s.unstageable e).isEmpty || (s.preemptFor e).isSome)

/-- EQUAL_PRIORITY_TIMESLICE: after 2^24 cycles in its slot a task of the entry's own priority gives way: the one that
has held its slot longest, then the highest core (R327). -/
def execEqualPriorityTimeslice (die : BitVec 2) (s : State) : Host.Outcome State Fault Refusal :=
  match s.keptOut die with
  | none => .next s
  | some e =>
    if s.preempting e || s.roomMade die e then .next s else
    match bestOf (fun a b => decide (b.sys.slot < a.sys.slot) ||
        (a.sys.slot == b.sys.slot && decide (b.coreOf.getD 0 < a.coreOf.getD 0)))
        ((s.victims e).filter fun v => s.prioOf v == s.prioOf e && decide (2 ^ 24 ≤ v.sys.slot)) with
    | none => .next s
    | some v => .next (s.markPreempt v e)

/-- PREEMPTION_CUT: once every unit stands at its point, the pre-empted task stops at a cut and is Ready in the resumed class, a
task that a debug stop waits for is Suspended, and one of an aborting domain is discarded (R326, R425, R432, R447). -/
def execPreemptionCut (s : State) : Host.Outcome State Fault Refusal :=
  let t := s.cur
  if !t.isRunning then .next s else
  match t.flow.halt with
  | some r =>
    if r.reason = 6 then .next (if t.queuesAtPoint then s.discard t else s)
    else
      let p := s.stopFor t r
      .next { p.1 with cur := p.2 }
  | none =>
    if t.flow.preempt.isSome && t.atCut then
      let s := s.suspend (t.stopRec (s.timeOf t.pool.ctx) 1)
      .next { s with cur := s.cur.readied s.now }
    else .next s

/-! ## Entering a running slot (R43, R45, R426, R430) -/

/-- A task as it enters a running slot: what its last stop recorded is done with, and its waits go on. -/
def Task.entering (t : Task) (c now time : Nat) : Task :=
  let again : Timed → Timed
    | .word l _ d a cc w => .word l time d a cc w
    | .sem l _ d sm k => .sem l time d sm k
  { t with
    status := .running c
    flow := { t.flow with stop := none, ready := none, ranSince := now, stalled := false,
                          timed := if t.flow.ended.isSome then t.flow.timed else t.flow.timed.map again } }

/-- The accumulators of a task come back from the spill unit that its stop names, and the unit is free (R421, R430). -/
def State.reload (s : State) (t : Task) : State × Task :=
  match t.flow.stop.bind StopRec.spill with
  | none => (s, t)
  | some u => (s.freeSpillOf t, { t with mx := ((s.ctx? t.pool.ctx).bind fun c => c.spilled.lookup (t.pool.die.toNat, u)) <|> t.mx })

/-- STAGED_TO_RUNNING: the staged task of a core enters its empty running slot; it acquires, reloads the accumulators of its
stop, and its held link status words come first (R43, R45, R421, R426, R430). -/
def execStagedToRunning (core : Nat) (s : State) : Host.Outcome State Fault Refusal :=
  match s.runningOn core, s.stagedOn core with
  | none, some t =>
    runM (do
      modify fun s =>
        let (s, t) := s.reload s.cur
        { s with cur := t.entering core s.now (s.timeOf t.pool.ctx) }
      heldLinks 16) (s.focus t.tid)
  | _, _ => .next s

/-! ## What a slot is charged (R31, R32) -/

/-- Charge the cycles of the acting task's slot that are not charged yet. -/
def State.chargeNow (s : State) : State :=
  let t := s.cur
  { s.charge t.pool t.sys.uncharged with cur := { t with sys := { t.sys with uncharged := 0 } } }

/-- CYCUSED_UPDATE (R31). -/
def execCycusedUpdate (s : State) : Host.Outcome State Fault Refusal :=
  if s.cur.isRunning then .next s.chargeNow else .next s

/-- Raise BUDGET against an RCB whose CYCUSED of a die has reached its budget: its record, and the abort of its domain (R31, R433). -/
def State.raiseBudget (s : State) (n : Nat) (rcb : Word) (die : Nat) (node : BitVec 32) : State :=
  let s := { s with overBudget := s.overBudget.filter fun x => !(x.1 == n && x.2.1 == rcb && x.2.2.1 == die) }
  let used := s.rcbNum n rcb (0x60 + 8 * die) 8
  let rec_ := plainRecord s n rcb fcBudget die (s.effOf n rcb).cycBudget used 0 node.toNat
  (s.logFault n rcb rec_).1.abortDomain n rcb

/-- BUDGET: the RCB of the acting task's chain whose budget has run out, else one that a charge as a task left its slot has
brought to its budget (R31). -/
def execBudget (s : State) : Host.Outcome State Fault Refusal :=
  let t := s.cur
  let s' := if t.isRunning then s.chargeNow else s
  match (if t.isRunning then s'.spent t.pool.ctx t.pool.rcb t.pool.die.toNat (s'.poolImage t.pool) else none), s'.overBudget with
  | some r, _ => .next (s'.raiseBudget t.pool.ctx r t.pool.die.toNat t.pool.node)
  | none, (n, r, die, node) :: _ => .next (s'.raiseBudget n r die node)
  | none, [] => .next s

/-- WDOG: a count above WDOGI × 1,024 stops the task at a cut, once what its queues have begun has performed, and its domain aborts (R32,
R50, R433). -/
def execWdog (s : State) : Host.Outcome State Fault Refusal :=
  let t := s.cur
  let n := t.pool.ctx
  let w := (s.taskEff t).wdogi
  if t.isRunning && !t.othersUnder .seq && w != 0 && decide (w * 1024 < t.sys.wdog) then
    let r := plainRecord s n t.pool.rcb fcWdog t.pool.die.toNat w t.sys.wdog 0 t.pool.node.toNat
    let s := s.suspend { t.stopRec (s.timeOf n) 6 with dcode := fcWdog }
    .next ((s.logTask t r).1.abortTask t)
  else .next s

end Sys2Proof.Machine
end

