-- ==== Sys2Proof/Machine/Launch.lean ====
section
/-! DEFINITION. Launches from their acceptance to their retirement: the distribution pass, the acceptance cursors, the
continuation launch queues and the end of an abort (R34, R38 to R40, R46, R277 to R280, R308 to R316, R321, R358). -/

namespace Sys2Proof.Machine

/-! ## Acceptance (R39, R308, R358) -/

/-- The launch queue of a function that holds a launch, as one number. -/
def State.queueNum (s : State) (n : Nat) (queue : BitVec 6) : Nat := s.fnOf n * 64 + queue.toNat

/-- Replace a launch. -/
def State.modLaunch (s : State) (serial : Nat) (g : Launch → Launch) : State :=
  { s with launches := s.launches.map fun l => if l.serial = serial then g l else l }

/-- Take a launch away. -/
def State.dropLaunch (s : State) (serial : Nat) : State :=
  { s with launches := s.launches.filter (·.serial != serial) }

/-- The units of each cluster's SRAM that no accepted launch holds (R358). -/
def State.freeUnits (s : State) : List Nat :=
  (List.range 64).filter fun u => !(s.launches.any fun l => l.accepted && l.csUnits.contains u)

/-- Write units of every cluster with zeros (R358). -/
def State.zeroUnits (s : State) (units : List Nat) : State :=
  let inUnits (a : Nat) : Bool := units.contains (a % csramBytes / 65536)
  { s with
    csram := s.csram.filter fun c => !inUnits c.1
    poison := s.poison.filter fun k => !(decide (2 ^ 52 ≤ k ∧ k < 2 ^ 64) && inUnits ((k - 2 ^ 52) * 64)) }

/-- LAUNCH_ACCEPT: the next launch of a queue is accepted once the one before it has retired or, with OVERLAP, has been
accepted, and its cluster SRAM is free; the effective values in use until it retires are read then (R29); a launch into an aborted
domain is retired instead (R34, R39, R358). -/
def execLaunchAccept (ctx : Nat) (queue : BitVec 6) (s : State) : Host.Outcome State Fault Refusal :=
  match s.launches.find? fun l => !l.accepted && s.queueNum l.ctx l.queue == s.queueNum ctx queue with
  | none => .next s
  | some l =>
    if !l.overlap && s.launches.any (·.serial == l.prev) then .next s
    else if s.chainAborted l.ctx l.lrcb then .next (s.dropLaunch l.serial)
    else if s.freeUnits.length < l.csSz then .next s
    else
      let units := s.freeUnits.take l.csSz
      let s := (s.readRcbs l.ctx l.lrcb).zeroUnits units
      let image := (s.ctx? l.ctx).bind (·.image)
      let ttbl := if l.lttbl = 0 then (s.effOf l.ctx l.lrcb).ttbl else l.lttbl
      .next { s with launches := s.launches.filter (·.serial != l.serial) ++
        [{ l with accepted := true, csUnits := units, lttbl := ttbl, image }] }

/-! ## The distribution pass (R309 to R314) -/

/-- How the pass fails: a record with its code and its word at 0x10, or a page that is not there yet. -/
inductive PassStop
  | fault (code : Byte) (w : Nat)
  | wait (va : Word) (write : Bool)
  deriving DecidableEq, Repr

/-- A page fault of the pass is serviced, unless it lies in a window of cluster SRAM (R313, R359). -/
def passFault (s : State) (n : Nat) (e : Byte × Word) (write : Bool) : PassStop :=
  if e.1 = fcNp ∧ !s.inWindows n e.2 then .wait e.2 write else .fault e.1 e.2.toNat

/-- Bytes as the pass reads them (R313). -/
def State.passRead (s : State) (n : Nat) (va : Word) (len : Nat) : Except PassStop (List Byte) :=
  match s.ctxChunks n va len with
  | .error e => .error (passFault s n e false)
  | .ok cs => .ok (s.readChunks cs)

/-- The L9 has walked to chunks for an access of its own on a die: A, and D for a write, are set, and the die's TLB holds the
translations (R414, R415). -/
def State.walkedChunks (s : State) (die : Nat) (n : Nat) (write : Bool) (cs : List Chunk) : State :=
  cs.foldl (fun s c => match c.entry with
    | some a => s.walked die none false n c.va c.leaf a write
    | none => s) s

/-- The pages of n bytes of a context are read by the L9 on a die. -/
def State.walkedRange (s : State) (die : Nat) (n : Nat) (va : Word) (len : Nat) : State :=
  match s.ctxChunks n va len with
  | .ok cs => s.walkedChunks die n false cs
  | .error _ => s

/-- A node as read: the node, its successors, and whether it breaks R40. -/
structure NodeRead where
  node : Node
  succ : List Nat
  bad : Bool
  deriving DecidableEq, Repr

/-- The owner die of node i (R310, R360). -/
def State.ownerOf (s : State) (l : Launch) (i : Nat) (bs : List Byte) : BitVec 2 :=
  let die (va : Word) : Option (BitVec 2) :=
    if va = 0 ∨ l.inWindow va = true then none else
    match s.lookup l.ctx va with
    | .ok (leaf, _) => if localHbm leaf then some (BitVec.ofNat 2 (dieOf (placeOf leaf va 0).2)) else none
    | .error _ => none
  let flags : BitVec 16 := fieldAt 16 bs 2
  ((die (fieldAt 64 bs 0x30)).orElse fun _ => if flags.getLsbD 0 then die (fieldAt 64 bs 0x38) else none).getD (BitVec.ofNat 2 i)

/-- Read node i of a launch (R41, R313). -/
def State.readNode (s : State) (l : Launch) (i : Nat) : Except PassStop NodeRead :=
  match s.passRead l.ctx (l.nodeTbl + BitVec.ofNat 64 (64 * i)) 64 with
  | .error e => .error e
  | .ok bs =>
    let tpl : BitVec 16 := fieldAt 16 bs 0
    let flags : BitVec 16 := fieldAt 16 bs 2
    let n := leNat ((bs.drop 0x18).take 4)
    match s.passRead l.ctx (fieldAt 64 bs 0x10) (4 * n) with
    | .error e => .error e
    | .ok ss =>
      let succ := (List.range n).map fun j => leNat ((ss.drop (4 * j)).take 4)
      .ok { node := { owner := s.ownerOf l i bs, tpl := tpl.setWidth 10, init := leNat ((bs.drop 4).take 4),
                      arg0 := fieldAt 64 bs 0x20, arg1 := fieldAt 64 bs 0x28 },
            succ, bad := tpl.extractLsb' 10 6 != 0 || flags.extractLsb' 1 15 != 0 || succ.any fun x => decide (l.nodeCnt ≤ x) }

/-- The distances of R309 as far as k rounds of the reverse topological pass settle them. -/
def distRounds (succ : List (List Nat)) : Nat → List (Option Nat)
  | 0 => succ.map fun _ => none
  | k + 1 =>
    let before := distRounds succ k
    succ.map fun l => l.foldl (fun m x =>
      match m, before.getD x none with
      | some a, some b => some (max a (b + 1))
      | _, _ => none) (some 0)

/-- The nodes of a launch with their distances and owners, or the failure of the pass (R40, R309, R310, R313). -/
def State.passNodes (s : State) (l : Launch) : Except PassStop (List Node) :=
  match (List.range l.nodeCnt).mapM (s.readNode l) with
  | .error e => .error e
  | .ok rs =>
    let dists := distRounds (rs.map (·.succ)) l.nodeCnt
    match (List.range l.nodeCnt).find? fun i => ((rs[i]?).map (·.bad)).getD false with
    | some i => .error (.fault fcField i)
    | none =>
      match (List.range l.nodeCnt).find? fun i => (dists.getD i none).isNone with
      | some i => .error (.fault fcField i)
      | none => .ok ((rs.zip dists).map fun x => { x.1.node with dist := x.2.getD 0 })

/-- The DIST word of a node (R312 Table 1). -/
def Node.distWord (x : Node) : Nat := x.owner.toNat * 2 ^ 24 + x.dist

/-- The indices of the nodes that a die owns. -/
def ownedBy (die : BitVec 2) (nodes : List Node) : List Nat :=
  (List.range nodes.length).filter fun i => (nodes.getD i {}).owner == die

/-- VA of a node record. -/
def Launch.nodeVa (l : Launch) (i : Nat) : Word := l.nodeTbl + BitVec.ofNat 64 (64 * i)

/-- The pages of the node table and of the successor lists have been read by a die's pass (R313, R414). -/
def State.walkedTable (s : State) (l : Launch) (die : Nat) : State :=
  (List.range l.nodeCnt).foldl (fun s i =>
    match s.readVia l.ctx (l.nodeVa i) 64 with
    | some bs => (s.walkedRange die l.ctx (l.nodeVa i) 64).walkedRange die l.ctx (fieldAt 64 bs 0x10) (4 * leNat ((bs.drop 0x18).take 4))
    | none => s) s

/-- What keeps the pass of a launch from some DIST word, of whichever die: it is found before any node of the launch is there to run
(R312, R313). -/
def State.distStop (s : State) (l : Launch) : Option PassStop :=
  (List.range l.nodeCnt).findSome? fun i =>
    let va := l.nodeVa i + 0x1C
    match s.ctxChunks l.ctx va 4 with
    | .error e => some (passFault s l.ctx e true)
    | .ok cs => if cs.all fun c => leafW c.leaf then none else some (.fault fcPerm va.toNat)

/-- Write the DIST words of a die's nodes (R312). -/
def State.writeDist (s : State) (l : Launch) (die : Nat) (nodes : List Node) : List Nat → Except PassStop State
  | [] => .ok s
  | i :: rest =>
    let va := l.nodeVa i + 0x1C
    match s.ctxChunks l.ctx va 4 with
    | .error e => .error (passFault s l.ctx e true)
    | .ok cs =>
      if cs.all fun c => leafW c.leaf then
        State.writeDist ((s.walkedChunks die l.ctx true cs).writeChunks cs (leBytes 4 (nodes.getD i {}).distWord)) l die nodes rest
      else .error (.fault fcPerm va.toNat)

/-- A launch fault: the record in LRCB's log, the abort of its domain, and no node on any die (R40, R313, R433). -/
def State.launchFault (s : State) (l : Launch) (code : Byte) (w : Nat) : State :=
  let r := plainRecord s l.ctx l.lrcb code l.queue.toNat l.nodeTbl.toNat w 0 0
  ((s.logFault l.ctx l.lrcb r l.image).1.modLaunch l.serial fun x =>
    { x with dead := true, cursor := .replicate 4 [] }).abortDomain l.ctx l.lrcb l.image

/-- DISTRIBUTION_PASS: a die works out the nodes, writes the DIST words of its own and fills its cursor with those whose
INITDC is 0 (R309 to R314). -/
def execDistributionPass (die : BitVec 2) (serial : Nat) (s : State) : Host.Outcome State Fault Refusal :=
  match s.launches.find? fun l => l.serial == serial && l.accepted && !l.dead && !l.passed.get die.toFin with
  | none => .next s
  | some l =>
    if s.chainAborted l.ctx l.lrcb l.image || s.walksFull die.toNat then .next s else
    let found := if l.nodes.isEmpty then s.passNodes l else .ok l.nodes
    let result : Except PassStop (List Node × State) :=
      match found with
      | .error e => .error e
      | .ok nodes =>
        match s.distStop l with
        | some e => .error e
        | none =>
        match (s.walkedTable l die.toNat).writeDist l die.toNat nodes (ownedBy die nodes) with
        | .error e => .error e
        | .ok s => .ok (nodes, s)
    match result with
    | .error (.wait va write) => .next ((s.postPage l.ctx va write).modLaunch serial fun x => { x with page := some (va, write) })
    | .error (.fault code w) => .next (s.launchFault l code w)
    | .ok (nodes, s) =>
      let first := (ownedBy die nodes).filter fun i => (nodes.getD i {}).init == 0
      .next (s.modLaunch serial fun x =>
        { x with nodes, page := none, passed := x.passed.set die.toNat true die.isLt, cursor := x.cursor.set die.toNat first die.isLt })

/-! ## Entering a ready pool (R46, R277 to R280, R314, R321) -/

/-- What becomes of a node that is about to enter a ready pool: the pool is full; it takes no entry, with the state that leaves;
or it has entered. -/
inductive NodeEntry
  | full
  | out (s : State)
  | into (s : State)
  deriving DecidableEq, Repr

/-- A node about to enter its owner's pool reads its template: it enters, or K_LAUNCH is recorded and LRCB's domain aborted; a node
charged to an aborting RCB is discarded (R34, R46). -/
def State.enterNode (s : State) (l : Launch) (i : Nat) (pos : Nat) : NodeEntry :=
  let x := l.nodes.getD i {}
  match s.freeIndex x.owner.toNat with
  | none => .full
  | some _ =>
    match s.template l.ctx l.lttbl x.tpl with
    | some (entry, spp, true, trcb) =>
      let rcb := if trcb = 0 then l.lrcb else trcb
      if s.chainAborted l.ctx rcb l.image then .out s else
      let p : PoolEntry :=
        { die := x.owner, ctx := l.ctx, tpl := x.tpl, entry, spp, rcb, ttbl := l.lttbl, queue := l.queue,
          args := #v[x.arg0, x.arg1, l.nodeVa i, BitVec.ofNat 64 i], node := BitVec.ofNat 32 i, nodeVa := l.nodeVa i,
          serial := l.serial, dist := x.dist, pos }
      match s.enqueue p with
      | some s => .into s
      | none => .full
    | _ =>
      let r := plainRecord s l.ctx l.lrcb fcLaunch x.tpl.toNat (l.nodeVa i).toNat 0 0 i
      .out ((s.logFault l.ctx l.lrcb r l.image).1.abortDomain l.ctx l.lrcb l.image)

/-- Take a slot of a continuation launch queue away. -/
def State.dropSlot (s : State) (c : ClqSlot) : State :=
  { s with clq := s.clq.filter fun x => !(x.home == c.home && x.slot == c.slot) }

/-- The entry of a continuation task in the pool of the home's die (R277). -/
def ClqSlot.entryFor (c : ClqSlot) (tpl : BitVec 10) (entry : Word) (spp : Nat) (trcb : Word) : PoolEntry :=
  { die := c.die, ctx := c.ctx, tpl, entry, spp, rcb := if trcb = 0 then c.issuerRcb else trcb, ttbl := c.ttbl,
    args := #v[c.old, c.va, c.user.setWidth 64, c.issuerNode.setWidth 64], origin := 1, node := 0xFFFFFFFF }

/-- A continuation that is not launched: K_LAUNCH in the issuer's log, and its domain aborts (R279, R433). -/
def State.failSlot (s : State) (c : ClqSlot) (tpl : BitVec 10) : State :=
  let r := plainRecord s c.ctx c.issuerRcb fcLaunch tpl.toNat c.va.toNat c.old.toNat c.user.toNat c.issuerNode.toNat
  ((s.logFault c.ctx c.issuerRcb r).1.dropSlot c).abortDomain c.ctx c.issuerRcb

/-- What a slot's drain leads to: it stays, its launch is dropped, its node takes no entry, it fails, or a task enters a pool. -/
inductive Drain
  | stay
  | drop
  | out (s : State)
  | fail (tpl : BitVec 10)
  | enter (s : State) (tpl node : Nat) (task : Word)
  deriving DecidableEq, Repr

/-- The drain of a slot: a node's waits until the passes of its home's and of its owner's die have ended (R279, R312, R314, R315). -/
def State.drainSlot (s : State) (c : ClqSlot) : Drain :=
  match c.tpl with
  | some tpl =>
    if (s.freeIndex c.die.toNat).isNone then .stay else
    match s.template c.ctx c.ttbl tpl with
    | some (entry, spp, true, trcb) =>
      let p := c.entryFor tpl entry spp trcb
      if s.chainAborted c.ctx p.rcb || (s.spent c.ctx p.rcb c.die.toNat).isSome then .fail tpl else
      match s.enqueue p with
      | some s => .enter s tpl.toNat p.node.toNat ({ pool := p } : Task).register
      | none => .stay
    | _ => .fail tpl
  | none =>
    match s.launches.find? fun l => l.serial == c.serial && l.accepted && !l.dead with
    | none => .drop
    | some l =>
      if s.chainAborted l.ctx l.lrcb l.image then .drop
      else if !l.passed.get (BitVec.ofNat 2 (c.home / 64)).toFin || !l.passed.get (l.nodes.getD c.user.toNat {}).owner.toFin then .stay
      else
        match s.enterNode l c.user.toNat 0 with
        | .full => .stay
        | .out s' => .out s'
        | .into s' => .enter s' 0x3FF c.user.toNat
            ((0 : BitVec 16) ++ l.queue ++ (l.nodes.getD c.user.toNat {}).tpl ++ c.user)

/-- The event of a slot's drain (R457, EKIND 0). -/
def ClqSlot.event (c : ClqSlot) (tpl node : Nat) (task : Word) : Event :=
  { ekind := 0, die := c.die.toNat, key := BitVec.ofNat 64 (c.home + 256 * c.slot),
    value := BitVec.ofNat 64 (node * 2 ^ 32 + tpl), value2 := c.va, task }

/-- CLQ_DRAIN: the slot of a home that was reserved first drains into a ready pool, unless a replay log holds it
(R279, R280, R457, R458). -/
def execClqDrain (home : Nat) (s : State) : Host.Outcome State Fault Refusal :=
  match s.clq.find? (·.home == home) with
  | none => .next s
  | some c =>
    match s.drainSlot c with
    | .stay => .next s
    | .drop => .next (s.dropSlot c)
    | .fail tpl => .next (s.failSlot c tpl)
    | .out s' => .next (s'.dropSlot c)
    | .enter s' tpl node task =>
      match s'.occur c.ctx (c.event tpl node task) with
      | none => .next s
      | some s'' => .next (s''.dropSlot c)

/-! ## The order in which a pool fills (R321) -/

/-- The die whose pool a slot's task enters. -/
def State.slotDie (s : State) (c : ClqSlot) : BitVec 2 :=
  match c.tpl with
  | some _ => c.die
  | none => (((s.launches.find? (·.serial == c.serial)).bind fun l => l.nodes[c.user.toNat]?).map (·.owner)).getD 0

/-- A slot could put a task into its pool now. -/
def State.canDrain (s : State) (c : ClqSlot) : Bool :=
  match s.drainSlot c with
  | .enter s' tpl node task => (s'.occur c.ctx (c.event tpl node task)).isSome
  | _ => false

/-- The continuation launch queues that come first to a die's pool: each of them at most one entry (R321). -/
def State.drainsFirst (s : State) (die : BitVec 2) : Nat :=
  ((s.clq.map (·.home)).eraseDups.filter fun h =>
    match s.clq.find? (·.home == h) with
    | some c => s.slotDie c == die && s.canDrain c
    | none => false).length

/-- The free entries of a die's pool. -/
def State.freeEntries (s : State) (die : BitVec 2) : Nat := 4096 - (s.tasks.filter fun t => t.pool.die == die).length

/-- The launch whose cursor on a die comes next (R314, R321). -/
def State.nextCursor (s : State) (die : BitVec 2) : Option Launch :=
  s.launches.find? fun l => l.accepted && !l.dead && !s.chainAborted l.ctx l.lrcb l.image && !(l.cursor.get die.toFin).isEmpty

/-- A free entry is left for `spawn` once the queues and the cursors have theirs (R321). -/
def State.spawnRoom (s : State) (die : BitVec 2) : Bool :=
  decide (s.drainsFirst die + (if (s.nextCursor die).isSome then 1 else 0) < s.freeEntries die)

/-- CURSOR_ENQUEUE: the next node of a die's cursors, in acceptance order and ascending index, once the continuation launch
queues have their entries (R314, R321). -/
def execCursorEnqueue (die : BitVec 2) (s : State) : Host.Outcome State Fault Refusal :=
  match s.nextCursor die with
  | none => .next s
  | some l =>
    match l.cursor.get die.toFin with
    | [] => .next s
    | i :: rest =>
      if s.freeEntries die ≤ s.drainsFirst die then .next s else
      let took (s : State) : State := s.modLaunch l.serial fun x => { x with cursor := x.cursor.set die.toNat rest die.isLt }
      match s.enterNode l i 1 with
      | .full => .next s
      | .out s => .next (took s)
      | .into s => .next (took s)

/-! ## Retirement (R34, R38) -/

/-- No task of a launch holds a pool entry. -/
def State.noTasks (s : State) (l : Launch) : Bool :=
  !(s.tasks.any fun t => t.pool.origin == 0 && t.pool.ctx == l.ctx && t.pool.serial == l.serial)

/-- An RCB of a launch's chain is aborted. -/
def State.chainDown (s : State) (n : Nat) (rcb : Word) (im : Option Image := none) : Bool :=
  (s.ancestry n chainFuel rcb im).any fun r => s.rcbState n r == 2

/-- DONEVAL goes to DONEVA, in a page of any aperture with W = 1 (R38). -/
def State.writeDone (s : State) (l : Launch) : State :=
  match (if l.doneVa = 0 then .ok [] else s.ctxChunks l.ctx l.doneVa 8) with
  | .ok cs => if cs.all (fun c => leafW c.leaf) then (s.walkedChunks 0 l.ctx true cs).writeChunks cs (leBytes 8 l.doneVal.toNat) else s
  | .error _ => s

/-- LAUNCH_RETIRE: every node has executed `done` and its decrements have performed: DONEVAL is written (R38); or the
launch's domain is down and its last task is gone, and nothing is written (R34). -/
def execLaunchRetire (serial : Nat) (s : State) : Host.Outcome State Fault Refusal :=
  match s.launches.find? fun l => l.serial == serial && l.accepted with
  | none => .next s
  | some l =>
    if s.chainAborted l.ctx l.lrcb l.image then
      if s.chainDown l.ctx l.lrcb l.image && s.noTasks l then .next (s.dropLaunch serial) else .next s
    else if !l.dead && l.passed.toList.all (·) && l.nodes.all (·.done) && !s.walksFull 0 then
      .next ((s.writeDone l).dropLaunch serial)
    else .next s

/-- STATE of an aborting RCB becomes 2 when its LIVE is 0, and the launches it kept retire (R34). -/
def State.endAbort (s : State) (n : Nat) (rcb : Word) : State :=
  if s.rcbState n rcb == 1 && s.rcbNum n rcb 0x50 4 == 0 then
    let s := s.setRcb n rcb 0x0B 1 2
    { s with launches := s.launches.filter fun l =>
      !(l.accepted && l.ctx == n && s.chainDown n l.lrcb l.image && s.noTasks l) }
  else s

/-- ABORT_COMPLETE (R34). -/
def execAbortComplete (ctx : Nat) (rcb : Word) (s : State) : Host.Outcome State Fault Refusal := .next (s.endAbort ctx rcb)

end Sys2Proof.Machine
end

