-- ==== Sys2Proof/Machine/Pages.lean ====
section
/-! DEFINITION. Pliron's hand on translation (R311, R348, R401, R410 to R424, R467): free frames, tables, MAP and UNMAP
of leaves, shootdown, and the services MAP, MIGRATE, PIN and GRANT_RAP. -/

namespace Sys2Proof.Machine

/-! ## Leaves that exist -/

/-- A leaf entry in a table of a context. -/
structure Mapping where
  ctx : Nat
  va : Nat
  entry : Nat
  leaf : Word
  deriving DecidableEq, Repr

/-- The valid leaf entries of a table page (R411, R412). -/
def leavesOf (hbm : Mem) (n : Nat) (t : Table) : List Mapping :=
  let num (i : Nat) : Word := BitVec.ofNat 64 (Mem.num hbm (t.pa + 8 * i) 8)
  let used := ((hbm.filter fun c => decide (t.pa ≤ c.1 ∧ c.1 < t.pa + 4096)).map fun c => (c.1 - t.pa) / 8).eraseDups
  used.filterMap fun i =>
    let e := num i
    let grouped := leafV (num (i / 16 * 16)) && leafSz (num (i / 16 * 16)) == 1
    let here := leafV e && (match t.level with
      | 0 => if grouped then i % 16 == 0 else leafSz e == 0
      | 1 => leafSz e == 2
      | 2 => leafSz e == 3
      | _ => false)
    if here then some ⟨n, t.va + i * 2 ^ (12 + 9 * t.level), t.pa + 8 * i, e⟩ else none

/-- Every valid leaf of every context. -/
def State.mappings (s : State) : List Mapping := s.ctxs.flatMap fun c => c.tables.flatMap (leavesOf s.hbm c.number)

/-! ## Free frames (R348) -/

/-- The frame of HBM that a leaf names. -/
def leafFrame (leaf : Word) : List (Nat × Nat) :=
  if leafAp leaf = 0 ∧ leafPfn leaf * 4096 < csramBase then
    [(leafPfn leaf * 4096, if leafDlt leaf then 8192 else pageBytes (leafSz leaf))]
  else []

/-- The HBM ranges in use: table pages, reserves and mapped frames. -/
def State.usedRanges (s : State) : List (Nat × Nat) :=
  (s.ctxs.flatMap fun c => c.reserves ++ c.tables.map fun t => (t.pa, 4096)) ++
  s.mappings.flatMap fun m => leafFrame m.leaf

/-- The highest aligned run of a size that lies in [lo, hi) and meets no used range. -/
def highestGap (used : List (Nat × Nat)) (size align lo hi : Nat) : Option Nat :=
  let starts := (hi :: used.map (·.1)).filterMap fun e =>
    if lo + size ≤ e ∧ e ≤ hi then some ((e - size) / align * align) else none
  (starts.filter fun a => decide (lo ≤ a) && used.all fun u => decide (a + size ≤ u.1 ∨ u.1 + u.2 ≤ a)).foldl
    (fun m a => match m with
      | none => some a
      | some b => some (max a b)) none

/-- The lowest aligned run of a size that lies in [lo, hi) and meets no used range. -/
def lowestRun (used : List (Nat × Nat)) (size align lo hi : Nat) : Option Nat :=
  let starts := (lo :: used.map fun u => u.1 + u.2).map fun e => (e + align - 1) / align * align
  (starts.filter fun a => decide (lo ≤ a ∧ a + size ≤ hi) && used.all fun u => decide (a + size ≤ u.1 ∨ u.1 + u.2 ≤ a)).foldl
    (fun m a => match m with
      | none => some a
      | some b => some (min a b)) none

/-- The lowest free run on the first die that has one, outside given ranges: Pliron's own pages come from the bottom of a
die, its reserves from the top (R348; log 9). -/
def State.freeOutside (s : State) (also : List (Nat × Nat)) (size : Nat) : Option Nat :=
  (List.range 4).findSome? fun d => lowestRun (also ++ s.usedRanges) size size (d * 2 ^ 37) (d * 2 ^ 37 + backingBase)

/-- A free page for a table, outside the frame of the leaf that the table is for. -/
def State.freeTable (s : State) (leaf : Word) : Option Nat := s.freeOutside (leafFrame leaf) 4096

/-- A free frame. -/
def State.freeFrame (s : State) (size : Nat) : Option Nat := s.freeOutside [] size

/-- A PFN in a task-backing region or in a context's reserve, for a page of n bytes (R348). -/
def State.refusedFrame (s : State) (pa n : Nat) : Bool :=
  decide (pa < 2 ^ 39) && (decide (backingBase < pa % 2 ^ 37 + n) ||
    s.ctxs.any fun c => c.reserves.any fun u => decide (pa < u.1 + u.2 ∧ u.1 < pa + n))

/-! ## Tables and leaves (R410, R411, R467) -/

/-- The index of a VA at a level. -/
def vaIndex (va level : Nat) : Nat := va / 2 ^ (12 + 9 * level) % 512

/-- Pliron writes a table entry at its home. -/
def State.setEntry (s : State) (at_ : Nat) (e : Word) : State := s.hbmWrite at_ (leBytes 8 e.toNat)

/-- The leaf of the i-th part of a page that is cut into pages of a size code: the same bytes, with the attributes that such a page may
have (R412, R413; log 36). -/
def partLeaf (leaf : Word) (sz i : Nat) : Word :=
  let pfn := leafPfn leaf + i * (pageBytes sz / 4096)
  BitVec.ofNat 64 (pfn * 2 ^ 24 + leaf.toNat % 2 ^ 24 / 2 ^ 12 * 2 ^ 12 + (if leafCc leaf && sz == 2 then 2 ^ 11 else 0) +
    leaf.toNat % 2 ^ 11 / 2 ^ 7 * 2 ^ 7 + sz * 2 ^ 5 + leaf.toNat % 2 ^ 5)

/-- The entries of a table that takes the place of an entry at the level above: those of a larger page are its parts, since a mapping is
removed only by UNMAP (R467). -/
def tableBytes (e : Word) (level : Nat) : List Byte :=
  if leafV e then (List.range 512).flatMap fun i => leBytes 8 (partLeaf e (if level = 0 then 0 else level + 1) i).toNat
  else List.replicate 4096 0

/-- The table of a level for a VA, made where it is missing; none when no page is free (R467). -/
def State.tableFor (s : State) (n va target : Nat) (leaf : Word) : Nat → Nat → Option (State × Nat)
  | 0, table => some (s, table)
  | up + 1, table =>
    let level := target + up + 1
    let at_ := table + 8 * vaIndex va level
    let e : Word := BitVec.ofNat 64 (Mem.num s.hbm at_ 8)
    if leafV e && leafSz e == 0 then State.tableFor s n va target leaf up (leafPfn e * 4096)
    else
      match s.freeTable leaf with
      | none => none
      | some pa =>
        let s := (s.hbmWrite pa (tableBytes e (level - 1))).setEntry at_ (BitVec.ofNat 64 (pa / 4096 * 2 ^ 24 + 1))
        let span := 2 ^ (12 + 9 * level)
        let t : Table := ⟨pa, level - 1, va / span * span⟩
        State.tableFor (s.modCtx n fun c => { c with tables := t :: c.tables }) n va target leaf up pa

/-- The level of a leaf's size. -/
def levelOf (sz : Nat) : Nat := if sz ≤ 1 then 0 else sz - 1

/-- Write a leaf for the page that holds a VA; what maps the rest of a larger page around it stays, and the tables of smaller pages that it
covers are gone (R467). -/
def State.mapLeaf (s : State) (n : Nat) (va leaf : Word) : Option State :=
  match s.ctx? n with
  | none => none
  | some c =>
    let sz := leafSz leaf
    let level := levelOf sz
    let v := va.toNat
    match s.tableFor n v level leaf (4 - level) c.root with
    | none => none
    | some (s, table) =>
      let i := vaIndex v level
      let group := table + 8 * (i / 16 * 16)
      let first : Word := BitVec.ofNat 64 (Mem.num s.hbm group 8)
      let s := if sz = 0 ∧ leafV first ∧ leafSz first = 1 then
        s.hbmWrite group ((List.range 16).flatMap fun i => leBytes 8 (partLeaf first 0 i).toNat) else s
      let s := if sz = 1 then (s.hbmWrite group (List.replicate 128 0)).setEntry group leaf else s.setEntry (table + 8 * i) leaf
      let base := v / pageBytes sz * pageBytes sz
      some (s.modCtx n fun c => { c with tables := c.tables.filter fun t =>
        !(decide (t.level < level ∧ base ≤ t.va ∧ t.va < base + pageBytes sz)) })

/-! ## Shootdown (R417) -/

/-- Two runs of virtual bytes meet. -/
def rangesMeet (a n b m : Nat) : Bool := decide (a < b + m ∧ b < a + n)

/-- The page of a translation meets a range. -/
def pageMeets (lo len : Nat) (base leaf : Word) : Bool := rangesMeet lo len (pageOf leaf base) (pageBytes (leafSz leaf))

/-- A handle on a page of the range is revoked (R96, R417). -/
def Handle.shoot (lo len : Nat) (h : Handle) : Handle :=
  match h.bind with
  | .valid leaf => if pageMeets lo len h.base leaf then { h with bind := .revoked } else h
  | .pending => if rangesMeet lo len h.base.toNat 1 then { h with bind := .revoked } else h
  | _ => h

/-- A task's handles, and the recorded translations of a stopped one, after a shootdown. -/
def Task.shoot (n lo len : Nat) (t : Task) : Task :=
  let revoke (e : Entry) : Entry := { e with h := e.h.map (Handle.shoot lo len) }
  if t.pool.ctx ≠ n then t else
  { t with
    regs := { t.regs with h := t.regs.h.map (Handle.shoot lo len) }
    queues := if t.isRunning then t.queues else t.queues.map (List.map revoke) }

/-- Where a watchpoint's range lies in this chip's HBM, while it does (R440). -/
def State.watchPlace (s : State) (n : Nat) (d : BitVec 128) : Option Nat :=
  let va : Word := d.extractLsb' 64 64
  match s.lookup n va with
  | .ok (leaf, _) =>
    match leafAp leaf, placeOf leaf va 0 with
    | 0, (.hbm, a) => some a
    | _, _ => none
  | .error _ => none

/-- The shootdown of a VA range of a context, after its leaves have changed: watchpoints follow (R440), cached translations and those
of access queues go, handles are revoked, and so are the recorded translations of stopped tasks. -/
def State.shootdown (s : State) (n lo len : Nat) : State :=
  let keep (c : Cached) : Bool := !(c.ctx == n && pageMeets lo len c.page c.leaf)
  let accessQs := s.accessQs.map fun q => { q with cur := q.cur.filter keep, next := q.next.filter keep }
  ({ s with tlb := s.tlb.filter keep, coreTc := s.coreTc.filter keep, fetchTc := s.fetchTc.filter keep, accessQs }.mapTasks
    (Task.shoot n lo len)).modCtx n fun c => { c with watchPa := c.watch.map (s.watchPlace n) }

/-- An entry holds a recorded translation of a page that meets a range, its own or a begun link entry's. -/
def Entry.holdsPage (e : Entry) (lo len : Nat) : Bool :=
  (match e.h, e.leaf? with
    | some h, some leaf => pageMeets lo len h.base leaf
    | _, _ => false) ||
  (e.begun && e.lk.leaves.any fun x => pageMeets lo len x.1 x.2)

/-- A task keeps a shootdown of its context from completing: an entry of its queues while it runs, and a begun link entry, which
runs on while it is stopped, until its last byte has moved (R417, R426). -/
def Task.keepsPage (t : Task) (lo len : Nat) : Bool :=
  if t.isRunning then t.queues.toList.any fun q => q.any (Entry.holdsPage · lo len)
  else (t.queue .lnk).any fun e => !e.linkDone && e.holdsPage lo len

/-- A launch's pass holds the shootdowns of its context: it runs on some die, and the leaves do not come from a MAP that answers the
page it waits for (R311, R313). -/
def State.passHolds (s : State) (l : Launch) (lo len : Nat) (map : Bool) : Bool :=
  l.accepted && !l.dead && !l.passed.toList.all (·) && !s.chainAborted l.ctx l.lrcb l.image &&
  !(map && l.page.any fun p => decide (lo ≤ p.1.toNat ∧ p.1.toNat < lo + len))

/-- A task has begun writes that have not landed (R389). -/
def Task.landsLater (t : Task) : Bool := t.landings.any (!·.todo.isEmpty) || (t.queue .stq).any (·.adds.isSome)

/-- A shootdown can complete: no entry holds a matching translation, no write through one is still to land, and no distribution pass of
the context holds it (R311, R417). -/
def State.mayShoot (s : State) (n lo len : Nat) (map : Bool := false) : Bool :=
  !(s.launches.any fun l => l.ctx == n && s.passHolds l lo len map) &&
  !(s.tasks.any fun t => t.landsLater || (t.pool.ctx == n && t.keepsPage lo len))

/-! ## Answers to page requests (R420, R424) -/

/-- Write a result register: a port has room, as its writer saw (R119). -/
def Regs.put (g : Regs) (r : SReg) (x : Word) : Regs :=
  if isPort r then g.wrPort (portIx r) (g.rdPort (portIx r) ++ [⟨x, false⟩]) else g.wr r x

/-- A service of a suspended task ends with a result: the task is Ready in the resumed class (R119). -/
def Task.served (t : Task) (code : Nat) (now : Nat) : Task :=
  match t.flow.service with
  | none => t
  | some v =>
    { t with regs := t.regs.put v.d (BitVec.ofNat 64 code), flow := { t.flow with service := none } }.readied now

/-- MAP answered the request for a range: tasks that wait on it become Ready, passes go on, and MAP services end
(R313, R420, R424). -/
def State.answerPages (s : State) (n lo len : Nat) : State :=
  let inRange (va : Word) : Bool := decide (lo ≤ va.toNat ∧ va.toNat < lo + len)
  let s := s.modCtx n fun c => { c with posted := c.posted.filter fun p => !inRange p }
  let launches := s.launches.map fun (l : Launch) => if l.ctx = n then { l with page := l.page.filter fun p => !inRange p.1 } else l
  ({ s with launches } : State).mapTasks fun t =>
    if t.pool.ctx ≠ n then t else
    if t.isRunning then { t with flow := { t.flow with page := t.flow.page.filter fun f => !inRange f.va } } else
    if t.status ≠ .suspended then t else
    match t.flow.page, t.flow.service with
    | some f, _ => if inRange f.va then t.readied s.now else t
    | none, some v => if v.svc = 1 && inRange v.va then t.served 0 s.now else t
    | none, none => t

/-! ## MIGRATE (R401, R422, R423) -/

/-- Where the frame of a leaf lies. -/
def frameOf (leaf : Word) : Space × Nat :=
  placeOf leaf 0 0

/-- Copy a page's bytes with its poison and its integrity tags (R422). -/
def State.copyFrame (s : State) (src dst : Space × Nat) (len : Nat) : State :=
  let bs := Mem.readN (s.memOf src.1) src.2 len
  let bad := (linesOf src.2 len).filter fun l => s.poison.contains (poisonKey src.1 (64 * l))
  let tagged (p : Space) : Bool := p == .hbm || p == .peer
  let tags := if tagged src.1 then (blocksOf src.2 len).filter fun b => s.badTags.contains (tagKey src.1 (256 * b)) else []
  let s := s.put dst.1 dst.2 bs
  let s := { s with poison := (bad.map fun l => poisonKey dst.1 (dst.2 + (64 * l - src.2))).foldl addTo s.poison }
  if tagged dst.1 then
    { s with badTags := (tags.map fun b => tagKey dst.1 (dst.2 + (256 * b - src.2))).foldl addTo s.badTags }
  else s

/-- Every leaf that maps the same page as a given one. -/
def State.sharers (s : State) (leaf : Word) : List Mapping :=
  s.mappings.filter fun m => leafAp m.leaf == leafAp leaf && leafPfn m.leaf == leafPfn leaf && leafSz m.leaf == leafSz leaf

/-- A leaf with another frame and aperture. -/
def retarget (leaf : Word) (ap pfn : Nat) : Word :=
  BitVec.ofNat 64 (pfn * 2 ^ 24 + leaf.toNat % 2 ^ 24 / 2 ^ 9 * 2 ^ 9 + ap * 2 ^ 7 + leaf.toNat % 2 ^ 7)

/-- Every mapping of the page gets its new leaf, and is shot down. -/
def State.relocate (s : State) (ms : List Mapping) (ap pfn : Nat) : State :=
  ms.foldl (fun s m => (s.setEntry m.entry (retarget m.leaf ap pfn)).shootdown m.ctx m.va (pageBytes (leafSz m.leaf))) s

/-- Whether the other chips of a move or a permit agree: a free value (log 2). -/
def peersAgree : M Bool := do return (← freeValue).getLsbD 0

/-- The place a page moves to: a free local frame that Pliron chose, or one that the target chip's Pliron chose; which
one is a free value (log 2). -/
def newFrame (here : Bool) (target : BitVec 10) (size : Nat) : M (Option (Nat × Nat)) := do
  let x ← freeValue
  let s ← get
  if here then
    let hi := x.toNat % (4 * 2 ^ 37)
    let near := highestGap s.usedRanges size size (hi / 2 ^ 37 * 2 ^ 37) (min hi (hi / 2 ^ 37 * 2 ^ 37 + backingBase))
    return (near.orElse fun _ => s.freeFrame size).map fun pa => (0, pa / 4096)
  else
    return some (1, target.toNat * 2 ^ 30 + x.toNat % 2 ^ 30 / (size / 4096) * (size / 4096))

/-- The recent moves of a page, by time. -/
def Ctx.movesOf (c : Ctx) (base now : Nat) : List Nat :=
  (c.moves.filter fun m => m.1 == base && decide (now < m.2 + 2 ^ 31)).map (·.2)

/-- The places at which contexts map a page: context and first VA. -/
abbrev Places := List (Nat × Nat)

/-- A page that the move bound holds, at any of the places that map it (R423). -/
def State.isFixed (s : State) (l : Places) : Bool := l.any fun p => ((s.ctx? p.1).map (·.fixed.contains p.2)).getD false

/-- The recent moves of a page: the most that any of its places counts (R423). -/
def State.movesAt (s : State) (l : Places) : Nat :=
  (l.map fun p => ((s.ctx? p.1).map fun c => (c.movesOf p.2 s.now).length).getD 0).foldl max 0

/-- The move bound holds a page in place from now on (R423). -/
def State.fixPage (s : State) (l : Places) : State :=
  l.foldl (fun s p => s.modCtx p.1 fun c => { c with fixed := addTo c.fixed p.2 }) s

/-- A page has moved now (R423). -/
def State.noteMove (s : State) (l : Places) : State :=
  l.foldl (fun s p => s.modCtx p.1 fun c =>
    { c with moves := (p.2, s.now) :: c.moves.filter fun m => m.1 != p.2 || decide (s.now < m.2 + 2 ^ 31) }) s

/-- How a service ends: with a result, or later; a move that waits for its shootdown has made transit entries (R422). -/
inductive Served
  | now (result : Nat)
  | later (va : Word) (arg : Nat) (ranges : List (Nat × Nat × Nat))
  deriving DecidableEq, Repr

/-- Make transit entries for ranges of pages: walks of them wait (R422). -/
def State.enterTransit (s : State) (l : List (Nat × Nat × Nat)) : State :=
  { s with transit := l.foldl (fun t r => if t.contains r then t else r :: t) s.transit }

/-- Release the walks that wait on transit entries (R422). -/
def State.leaveTransit (s : State) (l : List (Nat × Nat × Nat)) : State := { s with transit := s.transit.filter fun r => !l.contains r }

/-- MIGRATE of a page of the acting task's context to a chip: the result, or the wait for its shootdown (R401, R422, R423). -/
def migrate (va : Word) (tchip : BitVec 16) : M Served := do
  let s ← get
  let c ← theCtx
  let n := c.number
  match s.lookup n va with
  | .error _ => return .now 2
  | .ok (leaf, _) => do
    let (sp, pa) := frameOf leaf
    let here := tchip = 0xFFFF ∨ tchip.extractLsb' 0 10 = Config.chip
    let target : BitVec 10 := if tchip = 0xFFFF then Config.chip else tchip.extractLsb' 0 10
    let owner : BitVec 10 := if sp = .peer then BitVec.ofNat 10 (leafPfn leaf / 2 ^ 30) else Config.chip
    let base := pageOf leaf va
    let size := pageBytes (leafSz leaf)
    if (tchip ≠ 0xFFFF ∧ tchip.extractLsb' 10 6 ≠ 0) ∨ sp = .host ∨ sp = .csram then return .now 2
    if owner = target then return .now 0
    let ms := s.sharers leaf
    let places : Places := ((n, base) :: ms.map fun m => (m.ctx, m.va)).eraseDups
    if leafPin leaf || s.isFixed places then return .now 1
    if 2 ≤ s.movesAt places then
      modify (State.fixPage · places)
      return .now 1
    let ranges := places.map fun p => (p.1, p.2, size)
    if ms.any fun m => !s.mayShoot m.ctx m.va (pageBytes (leafSz m.leaf)) then
      modify (State.enterTransit · ranges)
      return .later va tchip.toNat ranges
    modify (State.leaveTransit · ranges)
    if !(← peersAgree) then return .now 3
    match ← newFrame (decide here) target size with
    | none => return .now 3
    | some (ap, pfn) => do
      let ok (l : Word) : Bool := leafOk (levelOf (leafSz l)) (retarget l ap pfn)
      if !ok leaf || ms.any fun m => !ok m.leaf then return .now 3
      modify fun s => ((s.copyFrame (sp, pa) (frameOf (retarget leaf ap pfn)) size).relocate ms ap pfn).noteMove places
      return .now 0

/-! ## PIN, GRANT_RAP and MAP (R401, R424) -/

/-- PIN of a page of a context: the result, and the state with the leaf pinned; none while its shootdown must wait. -/
def State.pinPage (s : State) (n : Nat) (va : Word) : Option (State × Nat) :=
  match s.lookup n va with
  | .error _ => some (s, 2)
  | .ok (leaf, at_) =>
    if leafSz leaf ≠ 2 ∨ leafAp leaf ≠ 0 then some (s, 1)
    else if leafPin leaf then some (s, 0)
    else if !s.mayShoot n (pageOf leaf va) (2 ^ 21) then none
    else some ((s.setEntry at_ (leaf ||| (1 <<< 13))).shootdown n (pageOf leaf va) (2 ^ 21), 0)

/-- PIN as a service. -/
def pinService (va : Word) : M Served := do
  let s ← get
  match s.pinPage s.cur.pool.ctx va with
  | none => return .later va 0 []
  | some (s, r) => do
    set s
    return .now r

/-- GRANT_RAP: RAP = 1 on a page with peer aperture, if its owner agrees. -/
def grantRap (va : Word) : M Served := do
  let s ← get
  let n := s.cur.pool.ctx
  match s.lookup n va with
  | .error _ => return .now 2
  | .ok (leaf, at_) => do
    if leafAp leaf ≠ 1 then return .now 2
    if !s.mayShoot n (pageOf leaf va) (pageBytes (leafSz leaf)) then return .later va 0 []
    if !(← peersAgree) then return .now 3
    modify fun s => (s.setEntry at_ (leaf ||| (1 <<< 9))).shootdown n (pageOf leaf va) (pageBytes (leafSz leaf))
    return .now 0

/-- A service of the acting task with its arguments: MAP of a page that is there ends at once, and of any other waits for the
driver (R119, R401, R424). -/
def serve (svc : Nat) (va : Word) (arg : Nat) : M Served := do
  match svc with
  | 1 =>
    let s ← get
    match s.lookup s.cur.pool.ctx va with
    | .ok _ => return .now 0
    | .error _ => return .later va arg []
  | 2 => migrate va (BitVec.ofNat 16 arg)
  | 3 => pinService va
  | _ => grantRap va

/-- A service on the argument block at a VA (R119, R401, R424, R484). -/
def service (svc : Nat) (block : Word) : M Served := do
  let s ← get
  if block.toNat % 8 ≠ 0 then return .now 2
  match s.readPresent s.cur.pool.ctx block 16 with
  | none => return .now 2
  | some bs =>
    let va : Word := fieldAt 64 bs 0
    let rest := leNat (bs.drop 8)
    let ok := match svc with
      | 1 => decide (rest < 2) && canonical va
      | 2 => decide (rest < 2 ^ 16)
      | _ => decide (rest = 0)
    if ok then serve svc va rest else return .now 2

/-- Pliron goes on with the service of a suspended task that waits for a shootdown (R119, R422). -/
def State.resumeService (s : State) (t : Task) (v : Service) : State :=
  match (serve v.svc v.va v.arg).run.run (s.focus t.tid) with
  | (.ok (.now r), s') => (s'.leaveTransit v.ranges).setTask (s'.cur.served r s'.now)
  | _ => s

/-- Pliron goes on with every service but MAP that waits, in turn. -/
def State.serveAll (s : State) : State :=
  s.tasks.foldl (fun s t =>
    match t.status, t.flow.service with
    | .suspended, some v => if v.svc = 1 then s else s.resumeService t v
    | _, _ => s) s

end Sys2Proof.Machine
end

