-- ==== Sys2Proof/Machine/Tasks.lean ====
section
/-! DEFINITION. Lanes as the sequencer handles them (R60, R63, R451), and the instructions that make, hand over, end or
restart a task (R42, R46, R47, R53, R107, R110, R111, R119 to R121, R281, R398, R400, R430). -/

namespace Sys2Proof.Machine

/-! ## The next lane (R60, R63, R451) -/

/-- What the sequencer finds at the next lane: a line breakpoint, a decode fault against an engine, or an instruction
of an engine. -/
inductive LaneAct
  | stop (index : Nat)
  | bad (k : Stream) (code : Byte)
  | run (k : Stream) (i : Instr)
  deriving DecidableEq, Repr

/-- The enabled line breakpoint that matches the acting task's next lane, but for those it has stopped at already (R450 Table 1, R451). -/
def State.breakAt (s : State) : Option Nat :=
  let t := s.cur
  match s.ctx? t.pool.ctx with
  | none => none
  | some c =>
    (List.range c.breaks.length).find? fun i =>
      let d := c.breaks.getD i 0
      !t.flow.brkPass.contains i && c.attached && d.getLsbD 39 && d.extractLsb' 64 64 == t.flow.line && d.getLsbD (32 + t.flow.lane - 1)

/-- The fault code of a decoder's refusal. -/
def DecodeFault.code : DecodeFault → Byte
  | .illegalOp => fcOp
  | .illegalLine => fcLine
  | .illegalField => fcField

/-- The engine of a lane. -/
def Task.laneEngine (t : Task) : Stream :=
  (Stream.ofNibble (kindAt (t.flow.lanes.getD 0 0) t.flow.lane)).getD .seq

/-- What the acting task's next lane asks for. -/
def State.laneAct (s : State) : LaneAct :=
  match s.breakAt with
  | some i => .stop i
  | none =>
    let t := s.cur
    match decodeLane t.flow.lanes t.flow.lane with
    | .error e => .bad t.laneEngine (DecodeFault.code e)
    | .ok i => .run t.laneEngine i

/-- The debug stop of a line breakpoint; the instruction is then handled once without matching the same breakpoint again (R451). -/
def State.breakStop (s : State) (i : Nat) : State :=
  let s := s.debugStop 1 i fcBreak 0 0
  { s with cur := { s.cur with flow := { s.cur.flow with brkPass := i :: s.cur.flow.brkPass } } }

/-- A decode fault at the next lane (R64). -/
def badLane (k : Stream) (code : Byte) : M Unit := do raiseAt k code (← laneVa)

/-- The number of lanes of an instruction. -/
def Instr.lanes (i : Instr) : Nat := ((encode i).map (·.2.length)).getD 1

/-- The entry for an instruction of a queue is appended at its tail (R60), with what its own dispatch adds. -/
def dispatchLane (k : Stream) (i : Instr) : M Unit := do
  if k = .cpy then copyRoom
  dispatch k i (Instr.lanes i) (match k, i with
    | _, .lstat _ => fun _ => pure ()
    | .lnk, _ => linkFields
    | _, _ => fun _ => pure ())
  if Instr.returnFree i then modTask fun t => { t with freed := t.freed + 1 }
  if i = .afence then modTask fun t =>
    let q := t.queue .atm
    let last := q.getLast?.map fun e => { e with caps := [BitVec.ofNat 64 t.freed] }
    { t.setQueue .atm (q.dropLast ++ last.toList) with freed := 0 }

/-! ## Results in flight (R80, R429) -/

/-- Cycles from the handling of an instruction until its result can be read (R80 Table 1). -/
def Instr.latency : Instr → Nat
  | .mul .. | .mulh .. | .mulhu .. => 3
  | .div .. | .divu .. | .rem .. | .remu .. => 24
  | .xlt .. => 40
  | _ => 1

/-- The handles whose state an instruction reads or writes. -/
def Instr.handleRegs : Instr → List HReg
  | .hinv h | .hstat _ h => [h]
  | .xlt h _ _ _ _ => [h]
  | i => (Instr.handle i).toList

/-- The scalar registers that an instruction names, `ret` the one that it returns by (R91). -/
def Instr.scalarRegs (i : Instr) : List SReg := if i = .ret then [1] else i.srcs ++ i.dsts

/-- An instruction names a register whose result is in flight (R80). -/
def Task.awaits (t : Task) (i : Instr) : Bool :=
  t.ifq.any fun f =>
    (f.kind == 0 && (Instr.scalarRegs i).any fun r => r.toNat == f.reg) || (f.kind == 2 && (Instr.handleRegs i).any fun h => h.toNat == f.reg)

/-- QUEUE_DISPATCH: the sequencer handles a lane that is no SEQ instruction, once the registers that it names hold their results (R60,
R80). -/
def execQueueDispatch (s : State) : Host.Outcome State Fault Refusal :=
  let f := s.cur.flow
  if !s.cur.isRunning || !f.entered || f.timed.isSome || f.finishing.isSome || s.cur.laneEngine == .seq then .next s else
  match s.laneAct with
  | .stop i => .next (s.breakStop i)
  | .bad k code => runM (badLane k code) s
  | .run k i => if s.cur.awaits i then .next s else runM (dispatchLane k i) s

/-! ## Making tasks (R110, R398) -/

/-- The entry of a spawned task (R110). -/
def spawnEntry (t : Task) (tpl : BitVec 10) (a b x : Word) (entry : Word) (spp : Nat) (trcb : Word) : PoolEntry :=
  { die := t.pool.die, ctx := t.pool.ctx, tpl, entry, spp, rcb := if trcb = 0 then t.pool.rcb else trcb, ttbl := t.pool.ttbl,
    args := #v[a, b, x, t.pool.node.setWidth 64], origin := 2, node := 0xFFFFFFFF, pos := 2 }

/-- What spawn leads to: the status, and the state with the new task when it is 0 (R110, R321). -/
def State.spawn (s : State) (p : PoolEntry) : State × Nat :=
  if s.chainAborted p.ctx p.rcb then (s, 2)
  else if (s.spent p.ctx p.rcb p.die.toNat).isSome then (s, 3)
  else if !s.spawnRoom p.die then (s, 1)
  else
    match s.enqueue p with
    | none => (s, 1)
    | some s => (s, 0)

/-- SPAWN: a release over LD, ST and AT; an invalid template raises K_LAUNCH (R110). -/
def execSpawn (d a b x : SReg) (tpl : BitVec 10) :=
  seqOp (.spawn d a b x tpl) 2 (do
    let t ← theTask
    if !((t.queue .ldq).isEmpty && (t.queue .stq).isEmpty && (t.queue .atm).isEmpty) then stall
    let va ← readS a
    let vb ← readS b
    let vx ← readS x
    let s ← get
    match s.template t.pool.ctx t.pool.ttbl tpl with
    | some (entry, spp, true, trcb) => do
      let (s, st) := s.spawn (spawnEntry t tpl va vb vx entry spp trcb)
      set s
      writeS d (BitVec.ofNat 64 st)
    | _ => raiseAt .seq fcLaunch 0)

/-- A waiting handler takes an entry of its die's pool, with its template as read now; an invalid one ends in K_LAUNCH
and the abort of the faulting task's domain (R398). -/
def State.seat (s : State) (w : Waiting) : State :=
  match s.freeIndex w.die.toNat with
  | none => s
  | some _ =>
    let s := { s with waiting := s.waiting.filter (· != w) }
    match s.tasks.find? (·.tid == w.tid) with
    | none => s
    | some t =>
      s.enterHandler t w.pool { fltc := w.fltc, fltv := w.fltv, fltq := w.fltq, thkrec := w.thkrec }

/-- Handlers that wait for an entry enter in the order of their faults (R398). -/
def State.seatAll (s : State) : State :=
  s.waiting.foldl (fun s w => if s.waiting.contains w then s.seat w else s) s

/-! ## Ending a task (R42, R47, R111, R239, R281, R400) -/

/-- The faulting task after its handler's `done`: Ready in the resumed class when DISP is 1, else its domain aborts
(R400). -/
def State.disposition (s : State) (t : Task) : State :=
  match t.handles.bind fun h => s.tasks.find? (·.tid == h) with
  | none => s
  | some u =>
    if u.status ≠ .suspended ∨ (u.flow.stop.map (·.reason)) ≠ some 3 then s else
    let disp := if t.recordVa = 0 then none else (s.readPresent t.pool.ctx (t.recordVa + 2) 1).map (·.getD 0 0)
    if disp = some 1 then s.setTask (u.readied s.now) else s.abortTask u

/-- The acting task is complete: its node is done, a handler's disposition acts, and its entry is free (R38, R319). -/
def State.complete (s : State) : State :=
  let s := { s.landDrift s.cur with cur := { s.cur with adrift := [] } }
  let t := s.cur
  let s := s.chargeNow
  let s := if t.pool.origin = 0 then s.modLaunch t.pool.serial fun l =>
      { l with nodes := l.nodes.set t.pool.node.toNat { (l.nodes.getD t.pool.node.toNat {}) with done := true } } else s
  let s := if t.pool.origin = 3 then s.disposition t else s
  if s.tasks.any (·.tid == t.tid) then (s.dropTask t.tid).live t.pool.ctx t.pool.rcb false (s.poolImage t.pool) else s

/-- The acting task is a node of a graph with successors to tell (R111). -/
def Task.isNode (t : Task) : Bool := t.pool.origin == 0 && t.pool.node != 0xFFFFFFFF

/-- Any fault of `done` but a missing page: the record names the `done`, and the domain aborts (R281). -/
def doneFault {α : Type} (f : FaultInfo) : M α := do
  modify fun s =>
    let t := s.cur
    (s.logTask t (faultRecord s t f)).1.abortTask t
  pause

/-- A word of node data for `done`, by a walk (R414, R415): a missing page is serviced, with what was done before it kept (R281); a word
that is written needs W = 1 and no delta page. -/
def doneLeaf (va : Word) (write : Bool) : M Word := do
  let s ← get
  let t := s.cur
  let f : FaultInfo := { code := 0, stream := .seq, seq := t.num .seq, va, write }
  if s.inTransit t.pool.ctx va then stall
  walkTurn va write false t.coreOf
  match s.lookup t.pool.ctx va with
  | .error c => if c = fcNp then throw (.fault { f with code := c } true) else doneFault { f with code := c }
  | .ok (leaf, a) => do
    set (s.walked t.pool.die.toNat t.coreOf false t.pool.ctx va leaf a write)
    if write && (!leafW leaf || leafDlt leaf) then doneFault { f with code := fcPerm }
    return leaf

/-- The word of a successor's counter: beside W = 1, what R266 asks of the target of a dcdec (R281). -/
def counterLeaf (va : Word) : M Word := do
  let leaf ← doneLeaf va true
  let t ← theTask
  let f : FaultInfo := { code := 0, stream := .seq, seq := t.num .seq, va, write := true }
  if leafAp leaf == 2 then doneFault { f with code := fcPerm }
  if leafAp leaf == 1 && !leafRap leaf then doneFault { f with code := fcRap }
  if !localHbm leaf then doneFault { f with code := fcPerm }
  return leaf

/-- A number of node data. -/
def doneNum (va : Word) (n : Nat) : M Nat := do
  let leaf ← doneLeaf va false
  return leNat (← rawBytes leaf va n)

/-- The successors of the acting node as its record gives them: the list's VA and its length (R41). -/
def successors : M (Word × Nat) := do
  let va := (← theTask).pool.nodeVa
  return (BitVec.ofNat 64 (← doneNum (va + 0x10) 8), ← doneNum (va + 0x18) 4)

/-- The acting task completes once every successor decrement has performed. -/
def finishIfDone : M Unit := do
  let t ← theTask
  match t.flow.finishing with
  | none => pure ()
  | some k => do
    if t.isNode then
      let (_, n) ← successors
      if n ≤ k then modify State.complete
    else modify State.complete

/-- Each slot still bound is unbound as `skunbind` would unbind it, with its faults raised at the `done` (R239). -/
def unlockSlots : List (Fin 8) → M Unit
  | [] => pure ()
  | i :: rest => do
    let t ← theTask
    match t.regs.k.get i with
    | none => pure ()
    | some x => do
      let f : FaultInfo := { code := 0, stream := .seq, seq := t.num .seq, write := true }
      checkRange f 2 (x.va + 0x38) 8
      skWrite f (x.va + 0x38) (leBytes 8 0)
      dropSlot (.ofFin i) x
    unlockSlots rest

/-- DONE: once every queue has drained, INITDC goes back into DC, pending thunks are discarded, sketch slots unbound,
and the successor decrements are issued (R42, R47, R239). -/
def execDone (s : State) : Host.Outcome State Fault Refusal :=
  runM (do
    portCheck .seq .done
    let t ← theTask
    if t.flow.finishing.isSome then stall
    if !t.drained then stall
    if t.isNode then
      let init ← doneNum (t.pool.nodeVa + 4) 4
      let leaf ← doneLeaf (t.pool.nodeVa + 8) true
      homePut leaf (t.pool.nodeVa + 8) (leBytes 8 init)
    unlockSlots (List.finRange 8)
    modTask fun t => { t with thunks := [], flow := { t.flow with finishing := some 0 } }
    if (← theTask).flow.due.isSome then stopDue else finishIfDone) s

/-- DONE_SUCCESSOR_DECREMENT: the next decrement of a `done` in progress performs at its home, or is issued again on
KFULL; after the last the task completes (R281, R317, R330, R483). -/
def execDoneSuccessorDecrement (s : State) : Host.Outcome State Fault Refusal :=
  match s.cur.flow.finishing with
  | none => .next s
  | some k =>
    if !s.cur.isRunning then .next s else
    runM (do
      let t ← theTask
      let (list, n) ← successors
      if n ≤ k then finishIfDone else
      let i ← doneNum (list + BitVec.ofNat 64 (4 * k)) 4
      let va := t.pool.nodeVa - BitVec.ofNat 64 (64 * t.pool.node.toNat) + BitVec.ofNat 64 (64 * i) + 8
      let leaf ← counterLeaf va
      let performed (s : State) : M Unit := do
        set s
        modTask fun t => { t with flow := { t.flow with finishing := some (k + 1) } }
      let (s', r) := (← get).decrement t leaf va
      match r with
      | .full => stall
      | .under => do
        modify fun s => s.dcUnder t va
        pause
      | .poisoned =>
        if s'.cur.tid = t.tid ∧ s'.cur.isRunning then do
          performed s'
          finishIfDone
        else set s'
      | .performed _ => do
        performed s'
        watchHome 6 .atomic ⟨0, srcWord .seq (t.num .seq), some (t.pool.ctx, t.register)⟩
          (hbmRuns leaf t.cluster [(va, 8)]) fun _ => 7
        if (← theTask).flow.due.isSome then stopDue else finishIfDone) s

/-! ## Yield (R53, R107) -/

/-- The Ready entry that takes a yielding task's core: of equal priority, and one that Owl could place on this core once
its running slot is empty. -/
def State.yieldTo (s : State) (t : Task) (c : Nat) : Option Task :=
  (s.readyOrder t.pool.die).find? fun u =>
    s.prioOf u == s.prioOf t && s.budgetOk u [t.tid] && s.slotFor u c && decide (u.pool.spp ≤ 64)

/-- YIELD (R53, R107). -/
def execYield (s : State) : Host.Outcome State Fault Refusal :=
  runM (do
    portCheck .seq .yield
    handled 1
    let s ← get
    let t := s.cur
    let c := t.coreOf.getD 0
    match s.yieldTo t c with
    | none => pure ()
    | some u =>
      if !t.queuesAtPoint then stall
      let s := s.suspend (t.stopRec (s.timeOf t.pool.ctx) 2)
      set ({ s with cur := { s.cur with status := .ready } }.place u c)) s

/-! ## Services and breaks (R119, R120) -/

/-- The acting task leaves its slot as Suspended for a service (R119). -/
def leaveForService : M Unit := modify fun s => s.suspend (s.cur.stopRec (s.timeOf s.cur.pool.ctx) 5)

/-- TRAP: once the queues have drained the task is suspended, and Pliron performs the service (R119). -/
def execTrap (d a : SReg) (svc : BitVec 12) (s : State) : Host.Outcome State Fault Refusal :=
  runM (do
    portCheck .seq (.trap d a svc)
    let t ← theTask
    if !t.drained then stall
    if t.pool.origin ≠ 3 || !(decide (1 ≤ svc.toNat ∧ svc.toNat ≤ 4)) then raiseAt .seq fcTrap 0
    let block ← readS a
    if isPort d && decide (portDepth ≤ ((← theRegs).rdPort (portIx d)).length) then stall
    match ← service svc.toNat block with
    | .now r => do
      writeS d (BitVec.ofNat 64 r)
      handled 1
      leaveForService
      modify fun s => { s with cur := s.cur.readied s.now }
    | .later va arg ranges => do
      handled 1
      leaveForService
      modTask fun t => { t with flow := { t.flow with service := some ⟨d, svc.toNat, va, arg, ranges⟩ } }
      if svc = 1 then modify fun s => s.postPage t.pool.ctx va (arg == 1)) s

/-- BRK: a debug stop after the `brk` when a debugger is attached, else BREAK aborts the domain (R120). -/
def execBrk (code : BitVec 12) (s : State) : Host.Outcome State Fault Refusal :=
  runM (do
    portCheck .seq (.brk code)
    if (← theCtx).attached then
      handled 1
      modify fun s => s.debugStop 2 0 fcBreak 0 code
    else raiseAt .seq fcBreak 0) s

/-! ## Resume (R121, R430) -/

/-- A stopped task whose frame lies at a place, but for one that a service keeps suspended (R121, R430; log 38). -/
def State.stoppedAt (s : State) (leaf va : Word) : Option Task :=
  s.tasks.find? fun u => u.status == .suspended && u.flow.service.isNone && placeOf leaf va 0 == (.hbm, u.backing)

/-- RESUME: PRIV outside Pliron's own contexts; in one, the suspended task whose frame is at s[a] becomes Ready in the resumed class,
and runs on from NEXTPC once it has a slot; a frame of no suspended task changes nothing (R44, R121, R430; log 38). -/
def execResume (a : SReg) (s : State) : Host.Outcome State Fault Refusal :=
  runM (do
    if !(← theCtx).privileged then raiseAt .seq fcPriv (← laneVa)
    portCheck .seq (.resume a)
    let va ← readS a
    let seq := (← theTask).num .seq
    handled 1
    let s ← get
    let t := s.cur
    match s.lookup t.pool.ctx va with
    | .error code => throw (.fault { code, stream := .seq, seq, va } false)
    | .ok (leaf, _) =>
      match s.stoppedAt leaf va with
      | none => pure ()
      | some u => set (s.setTask (u.readied s.now))) s

end Sys2Proof.Machine
end

