-- ==== Sys2Proof/Machine/Pliron.lean ====
section
/-! DEFINITION. Pliron's commands (R37, R348, R420, R439, R447 to R452, R455, R461 to R473, R484): the rings, completion
entries, and every command of R466 Table 3. -/

namespace Sys2Proof.Machine

/-! ## Rings and completions (R463 to R465) -/

/-- The doorbell page of a function. -/
def State.fnRegs (s : State) (fn : Nat) : FnRegs := (s.fns.lookup fn).getD {}

/-- Change the doorbell page of a function. -/
def State.modFn (s : State) (fn : Nat) (g : FnRegs → FnRegs) : State :=
  { s with fns := s.fns.map fun x => if x.1 = fn then (fn, g x.2) else x }

/-- Step 7 of R477 has been reached: doorbells are accepted and commands executed. -/
def State.serving (s : State) : Bool := s.isReady && !s.resetting && !s.thermal

/-- Pliron may execute the next command of a function: its rings are on, a command waits, and no completion is held
(R464). -/
def State.commandWaits (s : State) (fn : Nat) : Bool :=
  let r := s.fnRegs fn
  s.serving && r.enabled && r.ctrl.getLsbD 0 && r.cmdHead != r.cqTail && r.held.isNone

/-- Write bytes at a host bus address. -/
def State.hostPut (s : State) (a : Word) (bs : List Byte) : State :=
  { s with hostMem := Mem.writeN s.hostMem a.toNat bs }

/-- Bytes at a host bus address. -/
def State.hostGet (s : State) (a : Word) (n : Nat) : List Byte := Mem.readN s.hostMem a.toNat n

/-- Write a completion entry, or hold it while the ring is full; vector 0 follows the entry when enabled (R463, R464). -/
def State.complete? (s : State) (fn : Nat) (tag : BitVec 32) (status : BitVec 16) (result : Word) : State :=
  let r := s.fnRegs fn
  if (r.cplTail - r.cpHead).toNat < r.cplSize.toNat then
    let i := r.cplTail.toNat
    let phase := (i / r.cplSize.toNat + 1) % 2
    let bs := record 16 [(0, 4, tag.toNat), (4, 2, status.toNat), (6, 1, phase), (8, 8, result.toNat)]
    let s := s.hostPut (r.cplBase + BitVec.ofNat 64 (16 * (i % r.cplSize.toNat))) bs
    ({ s with sent := if r.ctrl.getLsbD 1 then s.sent ++ [Sent.msix fn 0] else s.sent }).modFn fn fun r =>
      { r with cplTail := r.cplTail + 1, held := none }
  else s.modFn fn fun r => { r with held := some (tag, status, result) }

/-- A command is done: CMDHEAD advances and its completion follows (R464, R465). -/
def State.reply (s : State) (c : Cmd) (status : BitVec 16) (result : Word) : State :=
  (s.modFn c.fn.toNat fun r => { r with cmdHead := r.cmdHead + 1 }).complete? c.fn.toNat c.tag status result

/-- OK. -/
def stOk : BitVec 16 := 0
/-- BAD_ARG. -/
def stArg : BitVec 16 := 1
/-- BAD_CONTEXT. -/
def stContext : BitVec 16 := 2
/-- NO_RESOURCE. -/
def stResource : BitVec 16 := 3
/-- BAD_RCB. -/
def stRcb : BitVec 16 := 4
/-- SEMGRAPH. -/
def stSemgraph : BitVec 16 := 5
/-- BAD_WATCH. -/
def stWatch : BitVec 16 := 6
/-- BAD_BREAK. -/
def stBreak : BitVec 16 := 7
/-- REFUSED. -/
def stRefused : BitVec 16 := 8

/-- What a command leads to: it waits (with what it has done), or it completes with a status and a result. -/
inductive Done
  | wait (s : State)
  | ok (s : State) (result : Word) (status : BitVec 16 := stOk)
  | bad (status : BitVec 16) (result : Word)
  deriving DecidableEq, Repr

/-- Execute a command of a function. -/
def command (c : Cmd) (body : State → Done) (s : State) : Host.Outcome State Fault Refusal :=
  if !s.commandWaits c.fn.toNat then .next s else
  match body s with
  | .wait s => .next s
  | .ok s r st => .next (s.reply c st r)
  | .bad st r => .next (s.reply c st r)

/-- Execute a command on a context of its own function (R461). -/
def onContext (c : Cmd) (body : Ctx → State → Done) : State → Host.Outcome State Fault Refusal :=
  command c fun s =>
    match s.ctx? c.ctx.toNat with
    | none => .bad stContext 0
    | some k => if k.fn = c.fn then body k s else .bad stContext 0

/-- The completion of a command entry that no command of R466 accepts. -/
def badCommand (c : Cmd) : State → Host.Outcome State Fault Refusal := command c fun _ => .bad stArg 0

/-- A power of two from lo to hi. -/
def powerIn (lo hi x : Nat) : Bool := decide (lo ≤ x ∧ x ≤ hi) && (x &&& (x - 1)) == 0

/-! ## ABORT_RCB (R33, R34, R313, R420, R424) -/

/-- The driver refuses the pages that tasks of a domain wait for: a PAGE_NP record for each of them (R420). -/
def State.refusePages (s : State) (n : Nat) (root : Word) : State :=
  (s.tasks.filter fun t => t.pool.ctx == n && s.below n root t.pool.rcb (s.poolImage t.pool)).foldl (fun s t =>
    match t.flow.page with
    | some f => (s.logTask t (faultRecord s t f)).1
    | none => s) s

/-- The pages of launches of a domain that wait cannot be serviced (R313). -/
def State.refusePasses (s : State) (n : Nat) (root : Word) : State :=
  (s.launches.filter fun l => l.ctx == n && l.accepted && s.below n root l.lrcb l.image).foldl (fun s l =>
    match l.page with
    | some (va, _) => s.launchFault l fcNp va.toNat
    | none => s) s

/-- MAP services of handlers outside a domain that work for a task inside it get result 3 (R424). -/
def State.refuseServices (s : State) (n : Nat) (root : Word) : State :=
  s.mapTasks fun t =>
    if t.pool.ctx = n ∧ t.flow.service.any (·.svc == 1) = true ∧ s.below n root t.pool.rcb (s.poolImage t.pool) = false ∧
        s.below n root (t.pool.args.get 1) = true then
      t.served 3 s.now else t

/-- Page requests that nobody waits for any more are closed. -/
def State.prunePosted (s : State) (n : Nat) : State :=
  let page (va : Word) : Word := va &&& 0xFFFFFFFFFFFFF000
  let wanted := (s.tasks.filter (·.pool.ctx == n)).flatMap (fun t =>
      (t.flow.page.map fun f => page f.va).toList ++ (t.flow.service.map fun x => page x.va).toList) ++
    (s.launches.filter (·.ctx == n)).filterMap (fun l => l.page.map fun p => page p.1)
  s.modCtx n fun k => { k with posted := k.posted.filter wanted.contains }

/-- The fault domain with a root aborts at a command (R33, R313, R420, R424). -/
def State.abortRoot (s : State) (n : Nat) (root : Word) : State :=
  ((((s.refusePages n root).refusePasses n root).refuseServices n root).abortTree n root).prunePosted n

/-- ABORT_RCB: the fault domain of the named RCB aborts. -/
def execAbortRcb (c : Cmd) (rcb : Word) : State → Host.Outcome State Fault Refusal :=
  onContext c fun k s =>
    let n := k.number
    if rcb.toNat % 256 ≠ 0 ∨ s.writableVia n rcb 256 = false then .bad stArg 0 else .ok (s.abortRoot n (s.domainOf n rcb)) 0

/-! ## CREATE_CONTEXT and DESTROY_CONTEXT (R348, R466, R467, R471) -/

/-- The reserves of a context on each die, taken downwards (R348): the sketch reserve, then the spill units. -/
def State.takeReserves (s : State) (mib spill : Nat) : Option (List (Nat × Nat)) :=
  (List.range 4).foldl (fun acc die => acc.bind fun got =>
    let take (got : List (Nat × Nat)) (len : Nat) : Option (List (Nat × Nat)) :=
      if len = 0 then some got else
      (highestGap (got ++ s.usedRanges) len 64 (die * 2 ^ 37) (die * 2 ^ 37 + backingBase)).map fun a => (a, len) :: got
    (take got (mib * 2 ^ 20)).bind fun got => take got (spill * 65536)) (some [])

/-- A channel of a run belongs to some context. -/
def State.channelTaken (s : State) (first count : Nat) : Bool :=
  s.ctxs.any fun k => decide (count ≠ 0 ∧ k.chanCount ≠ 0 ∧ first < k.chanFirst + k.chanCount ∧ k.chanFirst < first + count)

/-- The root RCB as Pliron writes it: every field overridden, none of the budgets set (R27, R28; log 9). -/
def rootBytes (va : Word) : List Byte :=
  record 256 [(8, 2, 0x3FF), (0x0C, 2, 48), (0x1C, 2, 0x3FF), (0x20, 8, (va + 0x1000).toNat), (0x28, 4, 16)]

/-- A new context with its tables and root RCB; none when some frame or reserve is short. -/
def State.newContext (s : State) (k : Ctx) (mib spill : Nat) : Option State :=
  match s.takeReserves mib spill with
  | none => none
  | some rs =>
    let s := { s with ctxs := s.ctxs ++ [{ k with reserves := rs }], nextCtx := s.nextCtx + 1 }
    match s.freeFrame 4096 with
    | none => none
    | some root =>
      let s := (s.hbmWrite root (List.replicate 4096 0)).modCtx k.number fun k => { k with root, tables := [⟨root, 4, 0⟩] }
      match s.freeFrame 65536 with
      | none => none
      | some pa =>
        match s.mapLeaf k.number k.rootRcb (BitVec.ofNat 64 (pa / 4096 * 2 ^ 24 + 0x23)) with
        | none => none
        | some s => some ((s.hbmWrite pa (List.replicate 65536 0)).writeVia k.number k.rootRcb (rootBytes k.rootRcb))

/-- CREATE_CONTEXT. -/
def execCreateContext (c : Cmd) (mib : BitVec 32) (spill : BitVec 16) (chanFirst chanCount : BitVec 8) (prBase : Word)
    (prSize : BitVec 32) : State → Host.Outcome State Fault Refusal :=
  command c fun s =>
    if !(decide (mib.toNat ≤ 4096 ∧ spill.toNat ≤ 256 ∧ chanFirst.toNat + chanCount.toNat ≤ 256 ∧ prBase.toNat % 4096 = 0) &&
        powerIn 16 4096 prSize.toNat) then .bad stArg 0
    else if s.channelTaken chanFirst.toNat chanCount.toNat then .bad stResource 0
    else
      let n := s.nextCtx
      let k : Ctx :=
        { number := n, fn := c.fn, rootRcb := ((0 : BitVec 8) ++ Config.rootRcbPage n) ++ (0 : BitVec 16),
          skBytes := mib.toNat * 2 ^ 20, spillUnits := spill.toNat, chanFirst := chanFirst.toNat,
          chanCount := chanCount.toNat, prBase := prBase.toNat, prSize := prSize.toNat }
      match s.newContext k mib.toNat spill.toNat with
      | none => .bad stResource 0
      | some s => .ok (s.hostPut c.hbuf (leBytes 8 k.rootRcb.toNat)) (BitVec.ofNat 64 (n * 2 ^ 32))

/-- ABORT_RCB of a context's root, unless it aborts or is down already, and its queued launches are retired; its tasks are discarded,
but for those whose units have not yet come to their points (R432, R471). -/
def State.endTasks (s : State) (k : Ctx) : State :=
  let n := k.number
  let s := if s.rcbState n k.rootRcb = 0 then s.abortRoot n k.rootRcb else s
  let busy (t : Task) : Bool := t.isRunning && !t.queuesAtPoint
  let s := (s.tasks.filter fun t => t.pool.ctx == n && !busy t).foldl State.discard s
  { s with launches := s.launches.filter (·.ctx != n), clq := s.clq.filter (·.ctx != n), waiting := s.waiting.filter (·.pool.ctx != n) }

/-- Some task of a context holds a pool entry. -/
def State.hasTasks (s : State) (n : Nat) : Bool := s.tasks.any (·.pool.ctx == n)

/-- A page of a context is unmapped: V = 0 in its leaf, and what the move bound keeps of it is dropped (R423, R467). -/
def State.unmapPage (s : State) (n : Nat) (p : Nat × Nat × Nat) : State :=
  let e := Mem.num s.hbm p.2.2 8
  ((s.setEntry p.2.2 (BitVec.ofNat 64 (e / 2 * 2))).modCtx n fun k =>
    { k with fixed := k.fixed.filter (· != p.1), moves := k.moves.filter (·.1 != p.1) }).shootdown n p.1 p.2.1

/-- Every page of a context is unmapped, with its shootdown (R417, R471). -/
def State.unmapAll (s : State) (k : Ctx) : State :=
  (k.tables.flatMap (leavesOf s.hbm k.number)).foldl (fun s m => s.unmapPage k.number (m.va, pageBytes (leafSz m.leaf), m.entry)) s

/-- A context without tasks is gone: its aborts end, its debugger is detached, its pages are unmapped, and its reserves and channels are
free (R34, R471). -/
def State.destroy (s : State) (k : Ctx) : State :=
  let n := k.number
  let s := ((s.knownRcbs n).foldl (fun s r => s.endAbort n r) s).unmapAll k
  let other (c : Cached) : Bool := c.ctx != n
  { s with
    walks := s.walks.filter (·.ctx != n)
    transit := s.transit.filter (·.1 != n)
    tlb := s.tlb.filter other
    coreTc := s.coreTc.filter other
    fetchTc := s.fetchTc.filter other
    accessQs := s.accessQs.map fun q => { q with cur := q.cur.filter other, next := q.next.filter other }
    overBudget := s.overBudget.filter (·.1 != n)
    ctxs := s.ctxs.filter (·.number != n) }

/-- DESTROY_CONTEXT (R471). -/
def execDestroyContext (c : Cmd) : State → Host.Outcome State Fault Refusal :=
  onContext c fun k s =>
    let s := s.endTasks k
    if s.hasTasks k.number then .wait s else .ok (s.destroy k) 0

/-! ## MAP, UNMAP and PIN (R348, R413, R417, R420, R424, R467) -/

/-- The range that changes when a leaf is mapped: its own page, or the larger page it stands in. -/
def State.mapRange (s : State) (n : Nat) (va leaf : Word) : Nat × Nat :=
  match s.lookup n va with
  | .ok (old, _) => if leafSz leaf < leafSz old then (pageOf old va, pageBytes (leafSz old)) else (pageOf leaf va, pageBytes (leafSz leaf))
  | .error _ => (pageOf leaf va, pageBytes (leafSz leaf))

/-- MAP. -/
def execMap (c : Cmd) (va leaf : Word) : State → Host.Outcome State Fault Refusal :=
  onContext c fun k s =>
    let n := k.number
    let size := if leafDlt leaf then 8192 else pageBytes (leafSz leaf)
    if !canonical va || !leafV leaf || !leafOk (levelOf (leafSz leaf)) leaf then .bad stArg 0
    else if leafAp leaf = 0 ∧ s.refusedFrame (leafPfn leaf * 4096) size = true then .bad stRefused 0
    else
      let r := s.mapRange n va leaf
      if !s.mayShoot n r.1 r.2 true then .wait s else
      match s.mapLeaf n va leaf with
      | none => .bad stResource 0
      | some s => .ok ((s.shootdown n r.1 r.2).answerPages n (pageOf leaf va) (pageBytes (leafSz leaf))) 0

/-- The mapped pages among a count of pages from a VA on: first VA, length and leaf PA of each (R467). -/
def State.unmapRun (s : State) (n : Nat) : Nat → Nat → List (Nat × Nat × Nat)
  | 0, _ => []
  | k + 1, va =>
    match s.lookup n (BitVec.ofNat 64 va) with
    | .ok (leaf, at_) =>
      let base := pageOf leaf (BitVec.ofNat 64 va)
      let len := pageBytes (leafSz leaf)
      (base, len, at_) :: State.unmapRun s n k (base + len)
    | .error _ => State.unmapRun s n k (va / 4096 * 4096 + 4096)

/-- UNMAP. -/
def execUnmap (c : Cmd) (va : Word) (count : BitVec 32) : State → Host.Outcome State Fault Refusal :=
  onContext c fun k s =>
    let n := k.number
    if count = 0 ∨ 2 ^ 20 < count.toNat then .bad stArg 0 else
    match s.lookup n va with
    | .error _ => .bad stArg 0
    | .ok _ =>
      let run := s.unmapRun n count.toNat va.toNat
      if run.any fun p => !s.mayShoot n p.1 p.2.1 then .wait s
      else .ok (run.foldl (fun s p => s.unmapPage n p) s) 0

/-- PIN. -/
def execPin (c : Cmd) (va : Word) : State → Host.Outcome State Fault Refusal :=
  onContext c fun k s =>
    match s.pinPage k.number va with
    | none => .wait s
    | some (s, 0) => .ok s 0
    | some (_, r) => .bad stArg (BitVec.ofNat 64 r)

/-! ## REGISTER_TEMPLATE (R36, R51, R469, R470) -/

/-- The edges of a wait graph whose first semaphore is the second of another: pruning k times. -/
def pruneEdges : Nat → List (Nat × Nat) → List (Nat × Nat)
  | 0, es => es
  | k + 1, es => pruneEdges k (es.filter fun e => es.any fun f => f.2 == e.1)

/-- A wait graph over 32 semaphores has no cycle (R51). -/
def acyclic (es : List (Nat × Nat)) : Bool := (pruneEdges 33 es).isEmpty

/-- The record of registration after its 24 fixed bytes: its edges (R469 Table 10). -/
def edgesOf (bs : List Byte) : List (BitVec 16) := (List.range (bs.length / 2)).map fun i => fieldAt 16 bs (2 * i)

/-- Write a template entry: every field with VALID = 0, then TFLAGS (R470). -/
def State.writeTemplate (s : State) (n : Nat) (va entry trcb : Word) (spp : Byte) (valid : Bool) : State :=
  let bs := record 32 [(0, 8, entry.toNat), (8, 1, spp.toNat), (0x10, 8, trcb.toNat)]
  (s.writeVia n va bs).writeVia n (va + 0x0A) (leBytes 2 (if valid then 3 else 0))

/-- Keep the registration record of a valid template, in the order of the tables' VAs and indices, for ATTEST. -/
def insertRecord (key : Word × Nat) (bs : List Byte) : List ((Word × Nat) × List Byte) → List ((Word × Nat) × List Byte)
  | [] => [(key, bs)]
  | x :: r =>
    if x.1 = key then (key, bs) :: r
    else if key.2 < x.1.2 ∨ (key.2 = x.1.2 ∧ key.1.toNat < x.1.1.toNat) then (key, bs) :: x :: r
    else x :: insertRecord key bs r

/-- REGISTER_TEMPLATE (R469): a withdrawal, whose ENTRY is 0, leaves VALID = 0 like a wait graph with a cycle. -/
def execRegisterTemplate (c : Cmd) (ttbl : Word) : State → Host.Outcome State Fault Refusal :=
  onContext c fun k s =>
    let n := k.number
    let head := s.hostGet c.hbuf 24
    let index := leNat (head.take 2)
    let count := leNat ((head.drop 2).take 2)
    let spp := head.getD 4 0
    let entry : Word := fieldAt 64 head 8
    let trcb : Word := fieldAt 64 head 16
    let tail := s.hostGet (c.hbuf + 24) (2 * count)
    let edges := edgesOf tail
    let va := ttbl + BitVec.ofNat 64 (32 * index)
    let codeOk := entry == 0 || (entry.toNat % 32 == 0 && match s.lookup n entry with
      | .ok (leaf, _) => leafX leaf
      | .error _ => false)
    if ttbl.toNat % 32 ≠ 0 ∨ 1024 ≤ index ∨ 1024 < count ∨ spp = 0 ∨ 32 < spp.toNat ∨ leNat ((head.drop 5).take 3) ≠ 0 then
      .bad stArg 0
    else if edges.any (fun e => e &&& 0xE0E0 != 0) || !codeOk || !s.writablePresent n va 32 then .bad stArg 0
    else
      let good := acyclic (edges.map fun e => ((e.extractLsb' 8 5).toNat, (e.extractLsb' 0 5).toNat))
      let valid := entry != 0 && good
      let s := (s.writeTemplate n va entry trcb spp valid).modCtx n fun k =>
        let rest := k.records.filter fun r => r.1 != (ttbl, index)
        { k with records := if valid then insertRecord (ttbl, index) (head ++ tail) rest else rest }
      .ok s 0 (if good = true then stOk else stSemgraph)

/-! ## LAUNCH (R28, R37, R39, R358) -/

/-- The reserved bits of an RCB are zero, STATE is not 3, SCOFF and BASEOFF have zero low bits (R26, R28). -/
def rcbClean (bs : List Byte) : Bool :=
  let zero (at_ n : Nat) : Bool := leNat ((bs.drop at_).take n) == 0
  (fieldAt 16 bs 8 : BitVec 16).extractLsb' 10 6 == 0 && (fieldAt 8 bs 0x0A : Byte).extractLsb' 3 5 == 0 &&
  decide ((bs.getD 0x0B 0).toNat ≤ 2) && (fieldAt 16 bs 0x1C : BitVec 16).extractLsb' 10 6 == 0 && zero 0x1E 2 &&
  (fieldAt 64 bs 0x40 : Word).extractLsb' 0 40 == 0 && (fieldAt 64 bs 0x48 : Word).extractLsb' 0 12 == 0 &&
  zero 0x54 12 && zero 0x80 128

/-- An RCB and its ancestors up to a root, when each is aligned and readable and none comes twice (R28). -/
def State.launchChain (s : State) (n : Nat) : Nat → List Word → Word → Option (List (Word × List Byte))
  | 0, _, _ => none
  | fuel + 1, seen, va =>
    if va = 0 ∨ va.toNat % 256 ≠ 0 ∨ seen.contains va = true then none else
    match s.readVia n va 256 with
    | none => none
    | some bs =>
      if (fieldAt 64 bs 0 : Word) = 0 then some [(va, bs)]
      else (State.launchChain s n fuel (va :: seen) (fieldAt 64 bs 0)).map ((va, bs) :: ·)

/-- The checks of R28 on a chain. -/
def chainClean (chain : List (Word × List Byte)) : Bool :=
  (chain.all fun r => rcbClean r.2) &&
  (((chain.getLast?).map fun r => (fieldAt 16 r.2 8 : BitVec 16) == 0x3FF).getD false) &&
  (List.range chain.length).all fun i =>
    let e := effective (chain.drop i)
    decide (1 ≤ e.maxCores ∧ e.maxCores ≤ 48) && powerIn 16 65536 e.flogN

/-- The launch that a packet describes, unless R37 refuses it. -/
def packetLaunch (n serial prev : Nat) (queue : BitVec 6) (bs : List Byte) (csva : Word) (cssz csfmt : Byte) : Option Launch :=
  let nodeTbl : Word := fieldAt 64 bs 0
  let nodeCnt := leNat ((bs.drop 8).take 4)
  let flags : BitVec 32 := fieldAt 32 bs 0x0C
  let doneVa : Word := fieldAt 64 bs 0x20
  if flags.extractLsb' 1 31 ≠ 0 ∨ leNat (bs.drop 0x30) ≠ 0 ∨ nodeCnt = 0 ∨ 2 ^ 24 < nodeCnt ∨ nodeTbl.toNat % 64 ≠ 0 ∨
      doneVa.toNat % 8 ≠ 0 then none
  else some
    { serial, ctx := n, queue, nodeTbl, nodeCnt, overlap := flags.getLsbD 0, lrcb := fieldAt 64 bs 0x10,
      lttbl := fieldAt 64 bs 0x18, doneVa, doneVal := fieldAt 64 bs 0x28, csVa := csva, csSz := cssz.toNat, csFmt := csfmt, prev }

/-- LAUNCH: the launch is queued, not yet accepted (R39, R467). -/
def execLaunch (c : Cmd) (queue : BitVec 8) (packet csva : Word) (cssz csfmt : BitVec 8) :
    State → Host.Outcome State Fault Refusal :=
  onContext c fun k s =>
    let n := k.number
    let q : BitVec 6 := queue.setWidth 6
    if 64 ≤ queue.toNat ∨ packet.toNat % 128 ≠ 0 ∨ csva.toNat % 65536 ≠ 0 ∨ 64 < cssz.toNat ∨ (cssz = 0 ∧ csva ≠ 0) ∨
        csfmt.getLsbD 7 = true then .bad stArg 0 else
    let num := s.queueNum n q
    match s.readPresent n packet 128 with
    | none => .bad stArg 0
    | some bs =>
      match packetLaunch n s.nextSerial ((s.lastLaunch.lookup num).getD 0) q bs csva cssz csfmt with
      | none => .bad stArg 0
      | some l =>
        match s.launchChain n chainFuel [] l.lrcb with
        | none => .bad stRcb 0
        | some chain =>
          if !chainClean chain then .bad stRcb 0
          else .ok { s with launches := s.launches ++ [l], nextSerial := s.nextSerial + 1,
                            lastLaunch := (num, l.serial) :: s.lastLaunch.filter (·.1 != num) } 0

/-! ## READ_FAULT_LOG (R35, R467) -/

/-- READ_FAULT_LOG: records from FLOGTAIL up, then FLOGTAIL past them. -/
def execReadFaultLog (c : Cmd) (rcb : Word) (max : BitVec 32) : State → Host.Outcome State Fault Refusal :=
  onContext c fun k s =>
    let n := k.number
    if max = 0 ∨ 65536 < max.toNat ∨ s.readVia n rcb 256 = none then .bad stArg 0 else
    let e := s.effOf n rcb
    let head := s.rcbNum n e.flogRcb 0x2C 4
    let tail := s.rcbNum n e.flogRcb 0x30 4
    let count := min max.toNat (min ((head + 2 ^ 32 - tail) % 2 ^ 32) e.flogN)
    let records := (List.range count).mapM fun i =>
      s.readPresent n (e.flogVa + BitVec.ofNat 64 (64 * ((tail + i) % e.flogN))) 64
    match records with
    | none => .bad stArg 0
    | some rs =>
      if !s.writableVia n e.flogRcb 256 then .bad stArg 0
      else .ok ((s.hostPut c.hbuf rs.flatten).setRcb n e.flogRcb 0x30 4 ((tail + count) % 2 ^ 32))
        (BitVec.ofNat 64 (s.rcbNum n e.flogRcb 0x34 4 * 2 ^ 32 + count))

/-! ## READ_BUFFER_COUNTERS (R455, R456, R467) -/

/-- The 32 bytes of a tag's counters. -/
def Counter.bytes32 (c : Counter) : List Byte :=
  record 32 [(0, 8, counterWord c.bytesOvf c.bytes), (8, 8, counterWord c.stallsOvf c.stalls), (16, 8, c.ctl.toNat)]

/-- The counters of a run of tags as READ writes them. -/
def State.counterBytes (s : State) (die first count : Nat) : List Byte :=
  (List.range count).flatMap fun i => (s.counter die (first + i)).bytes32

/-- Change the counters of a run of tags. -/
def State.eachCounter (s : State) (die first count : Nat) (g : Counter → Counter) : State :=
  (List.range count).foldl (fun s i => s.setCounter die (first + i) (g (s.counter die (first + i)))) s

/-- Counters and overflow bits at zero. -/
def Counter.cleared (c : Counter) : Counter := { ctl := c.ctl }

/-- An operation on the counters of a run of tags of a die: whether it reads, and what it leaves; one that sets them wins over the
increments of its cycle (R456). -/
def counterOp (c : Cmd) (die : BitVec 8) (first count : BitVec 16) (okay reads sets : Bool) (g : Counter → Counter) :
    State → Host.Outcome State Fault Refusal :=
  onContext c fun _ s =>
    if 4 ≤ die.toNat ∨ 256 ≤ first.toNat ∨ count = 0 ∨ 256 < first.toNat + count.toNat ∨ okay = false then .bad stArg 0 else
    let s' := if reads then s.hostPut c.hbuf (s.counterBytes die.toNat first.toNat count.toNat) else s
    let quiet := if sets then (List.range count.toNat).map fun i => (die.toNat, first.toNat + i) else []
    .ok ({ s' with quiet }.eachCounter die.toNat first.toNat count.toNat g) 0

/-- READ. -/
def execBuffersRead (c : Cmd) (die : BitVec 8) (first count : BitVec 16) := counterOp c die first count true true false id
/-- READ_CLEAR. -/
def execBuffersReadClear (c : Cmd) (die : BitVec 8) (first count : BitVec 16) :=
  counterOp c die first count true true true Counter.cleared
/-- CLEAR. -/
def execBuffersClear (c : Cmd) (die : BitVec 8) (first count : BitVec 16) :=
  counterOp c die first count true false true Counter.cleared
/-- PROGRAM. -/
def execBuffersProgram (c : Cmd) (die : BitVec 8) (first count : BitVec 16) (ctl : Word) :=
  counterOp c die first count (ctl.extractLsb' 13 51 == 0) false true fun k => { k with ctl }

/-! ## ATTEST (R473) -/

/-- Bytes cut or filled with zeros to a length. -/
def fitTo (n : Nat) (bs : List Byte) : List Byte := (bs ++ List.replicate n 0).take n

/-- The first 256 bytes of the report of a function (R473 Table 6). -/
def State.reportFields (s : State) (fn : BitVec 11) (nonce : List Byte) : List Byte :=
  let ks := s.ctxs.filter (·.fn == fn)
  fitTo 32 nonce ++ fitTo 32 Config.romDigest ++ fitTo 32 Config.fuseDigest ++ leBytes 2 fn.toNat ++ leBytes 2 ks.length ++
  leBytes 4 (if ks.any (·.attached) then 1 else 0) ++ fitTo 32 (sha256 (ks.flatMap fun k => k.records.flatMap (·.2))) ++
  List.replicate 120 0

/-- ATTEST: the report over the nonce at HBUF; the salt of the signature is a free value. -/
def execAttest (c : Cmd) : State → Host.Outcome State Fault Refusal :=
  onContext c fun _ s =>
    let signed := s.reportFields c.fn (s.hostGet c.hbuf 32) ++ beBytes 384 rsaModulus
    let salt := (List.range 4).flatMap fun i => leBytes 8 (Config.freeWord (s.free + i)).toNat
    .ok ({ s with free := s.free + 4 }.hostPut c.hbuf (signed ++ rsaSign signed salt)) 0

/-! ## RESET_FUNCTION (R461, R471) -/

/-- Every context of a function is destroyed, and the function's ring pointers and doorbell are cleared, once no task of it is left;
whether that is so (R471). -/
def State.resetFn (s : State) (fn : Nat) : State × Bool :=
  let ks := s.ctxs.filter fun k => k.fn.toNat == fn
  let s := ks.foldl State.endTasks s
  if ks.any fun k => s.hasTasks k.number then (s, false) else
  ((ks.foldl State.destroy s).modFn fn fun r =>
    { r with cqTail := 0, cmdHead := 0, cpHead := 0, cplTail := 0, held := none }, true)

/-- A reset of a function that no completion follows: it goes on in later steps while tasks of it are left (R471, R478). -/
def State.tryReset (s : State) (fn : Nat) : State :=
  let (s, done) := s.resetFn fn
  { s with flrs := if done then s.flrs.filter (· != fn) else addTo s.flrs fn }

/-- RESET_FUNCTION: of itself, its completion is the first entry of the cleared ring. -/
def execResetFunction (c : Cmd) (fn : BitVec 16) : State → Host.Outcome State Fault Refusal :=
  command c fun s =>
    if 1024 < fn.toNat then .bad stArg 0
    else if c.fn ≠ 0 ∧ fn.toNat ≠ c.fn.toNat then .bad stContext 0
    else
      match s.resetFn fn.toNat with
      | (s, false) => .wait s
      | (s, true) => if fn.toNat = c.fn.toNat then .wait (s.complete? fn.toNat c.tag stOk 0) else .ok s 0

/-! ## TRACE_CONTROL (R452, R458, R460, R467) -/

/-- Every byte translates to a present page. -/
def State.present (s : State) (n : Nat) (va : Word) (len : Nat) : Bool :=
  match s.ctxChunks n va len with
  | .ok _ => true
  | .error _ => false

/-- TRACE_CONTROL SET: the ring with its counts at zero, or BAD_ARG. -/
def execTraceSet (c : Cmd) (mask : BitVec 8) (n : BitVec 32) (base : Word) (wthresh logN : BitVec 32) (logVa : Word) :
    State → Host.Outcome State Fault Refusal :=
  onContext c fun k s =>
    if mask.extractLsb' 4 4 ≠ 0 ∨ powerIn 64 65536 n.toNat = false ∨ base.toNat % 4096 ≠ 0 then .bad stArg 0
    else if !s.ringOk k.number base (64 * n.toNat) ||
        (mask.getLsbD 3 && !s.present k.number logVa (64 * logN.toNat)) then .bad stArg 0
    else
      let r : Trace := { base, n := n.toNat, mask := mask.setWidth 4, wthresh := wthresh.toNat, logN := logN.toNat, logVa }
      let s := if mask.getLsbD 3 then s else s.releaseHeld k.number
      .ok (s.modCtx k.number fun k => { k with trace := some r }) 0

/-- TRACE_CONTROL READ. -/
def execTraceRead (c : Cmd) : State → Host.Outcome State Fault Refusal :=
  onContext c fun k s =>
    let (h, t, l) := match k.trace with
      | some r => (r.head.toNat, r.tail.toNat, r.lost)
      | none => (0, 0, 0)
    .ok (s.hostPut c.hbuf (leBytes 4 h ++ leBytes 4 t ++ leBytes 4 l ++ leBytes 4 0)) 0

/-- TRACE_CONTROL SETTAIL. -/
def execTraceSettail (c : Cmd) (tail : BitVec 32) : State → Host.Outcome State Fault Refusal :=
  onContext c fun k s =>
    match k.trace with
    | none => .bad stArg 0
    | some r => .ok (s.modCtx k.number fun k => { k with trace := some { r with tail } }) 0

/-! ## DEBUG_ATTACH (R439, R447, R449, R450, R467) -/

/-- The checks of a watchpoint descriptor (R439). -/
def watchOk (d : BitVec 128) : Bool :=
  d.extractLsb' 40 8 == 0 && d.extractLsb' 9 26 == 0 && d.extractLsb' 64 4 == 0 && canonical (d.extractLsb' 64 64) &&
  (!d.getLsbD 38 || d.extractLsb' 48 16 != 0)

/-- The checks of a line-breakpoint descriptor (R450). -/
def breakOk (d : BitVec 128) : Bool :=
  d.extractLsb' 40 24 == 0 && d.extractLsb' 0 32 == 0 && d.extractLsb' 64 5 == 0 && canonical (d.extractLsb' 64 64) &&
  (!d.getLsbD 39 || d.extractLsb' 32 7 != 0)

/-- Descriptors of 16 bytes each. -/
def descriptors (bs : List Byte) (first count : Nat) : List (BitVec 128) :=
  (List.range count).map fun i => fieldAt 128 bs (16 * (first + i))

/-- DEBUG_ATTACH ATTACH. -/
def execDebugAttach (c : Cmd) : State → Host.Outcome State Fault Refusal :=
  onContext c fun k s =>
    let bs := s.hostGet c.hbuf 192
    let watch := descriptors bs 0 8
    let breaks := descriptors bs 8 4
    if k.attached then .bad stRefused 0
    else if !watch.all watchOk then .bad stWatch 0
    else if !breaks.all breakOk then .bad stBreak 0
    else .ok (s.modCtx k.number fun k =>
      { k with attached := true, watch, breaks, watchPa := watch.map (s.watchPlace k.number) }) 0

/-- A task at a RESUME: no STEP goes on, and a debug stop that was to come does not. -/
def Task.unhalted (t : Task) : Task :=
  { t with flow := { t.flow with stepping := false, halt := t.flow.halt.filter (·.reason != 4) } }

/-- Every stopped task of a halted context is Ready in the resumed class (R447). -/
def State.resumeAll (s : State) (n : Nat) : State :=
  (s.mapTasks fun t =>
    if t.pool.ctx ≠ n then t
    else if t.status = .suspended ∧ t.flow.stop.map (·.reason) = some 4 then (t.readied s.now).unhalted
    else t.unhalted).modCtx n fun k => { k with halted := false, stepTask := none }

/-- DEBUG_ATTACH DETACH. -/
def execDebugDetach (c : Cmd) : State → Host.Outcome State Fault Refusal :=
  onContext c fun k s =>
    if !k.attached then .bad stRefused 0 else
    let s := if k.halted then s.resumeAll k.number else s
    .ok ((s.mapTasks fun t => if t.pool.ctx = k.number then { t with flow := { t.flow with due := none } } else t).modCtx
      k.number fun k => { k with attached := false, watch := [], watchPa := [], breaks := [] }) 0

/-- No task acts: the acting task stands among the others. -/
def State.park (s : State) : State := { s with cur := {}, others := s.tasks }

/-- The tasks of a context that a debug stop holds, by handle. -/
def State.debugStopped (s : State) (n : Nat) : List Task :=
  let l := s.tasks.filter fun t => t.pool.ctx == n && t.status == .suspended && t.flow.stop.map (·.reason) == some 4
  (l.foldl (fun acc t => insertEntry ([(t.tid : Int)], t) acc) []).map (·.2)

/-- DEBUG_ATTACH HALT: once every running task of the context has stopped at its points, an entry of 16 bytes for each stopped task
(R425, R447). -/
def execDebugHalt (c : Cmd) : State → Host.Outcome State Fault Refusal :=
  onContext c fun k s =>
    if !k.attached then .bad stRefused 0 else
    let s := s.park.haltOthers k.number 0
    if s.tasks.any fun t => t.pool.ctx == k.number && t.isRunning then .wait s else
    let l := s.debugStopped k.number
    .ok (s.hostPut c.hbuf (l.flatMap fun t => leBytes 8 t.register.toNat ++ leBytes 4 t.tid ++ leBytes 4 0))
      (BitVec.ofNat 64 l.length)

/-- DEBUG_ATTACH RESUME. -/
def execDebugResume (c : Cmd) : State → Host.Outcome State Fault Refusal :=
  onContext c fun k s => if !k.attached then .bad stRefused 0 else .ok (s.resumeAll k.number) 0

/-- The task of a STEP has not ended its step. -/
def State.stillSteps (s : State) (tid : Nat) : Bool := s.tasks.any fun t => t.tid == tid && t.flow.stepping

/-- DEBUG_ATTACH STEP: the named stopped task alone may run until it has handled one instruction; the command completes
when the step has ended (R449, R465). -/
def execDebugStep (c : Cmd) (handle : BitVec 32) : State → Host.Outcome State Fault Refusal :=
  onContext c fun k s =>
    if !k.attached then .bad stRefused 0 else
    match k.stepTask with
    | some tid => if s.stillSteps tid then .wait s else .ok (s.modCtx k.number fun k => { k with stepTask := none }) 0
    | none =>
      match (s.debugStopped k.number).find? (·.tid == handle.toNat) with
      | none => .bad stArg 0
      | some t =>
        let u := t.readied s.now
        .wait ((s.setTask { u with flow := { u.flow with stepping := true } }).modCtx k.number fun k =>
          { k with stepTask := some t.tid })

/-- STEP_END: the stepped task has handled one instruction and takes a debug stop (R449). -/
def execStepEnd (s : State) : Host.Outcome State Fault Refusal :=
  let f := s.cur.flow
  if s.cur.isRunning && f.stepping && f.stepDone then .next (s.debugStop 4 0 0 0 0) else .next s

end Sys2Proof.Machine
end

