-- ==== Sys2Proof/Machine/Time.lean ====
section
/-! DEFINITION. What elapsed cycles change (R31, R32, R106, R118, R122, R305, R327, R376, R448, R478). -/

namespace Sys2Proof.Machine

/-- A timed wait after k more cycles (R106). -/
def Timed.after (k : Nat) : Timed → Timed
  | .word l b d a cc w => .word (l.map (· - k)) b d a cc w
  | .sem l b d sm n => .sem (l.map (· - k)) b d sm n

/-- A begun pair that is not done counts cycles without a flit (R305). -/
def Entry.after (k : Nat) (e : Entry) : Entry :=
  if e.begun && !e.linkDone && e.lk.partner.isSome then { e with lk := { e.lk with idle := e.lk.idle + k } } else e

/-- The clocks of a context stand still: it is halted, and some task of it has stopped or none runs; but while the task of a STEP runs they
run (R448, R449). -/
def State.standsStill (s : State) (n : Nat) : Bool :=
  match s.ctx? n with
  | none => false
  | some c =>
    let mine := s.tasks.filter fun t => t.pool.ctx == n
    c.halted && !(mine.any fun t => t.isRunning && c.stepTask == some t.tid) &&
      (mine.any (fun t => t.status == .suspended && (t.flow.stop.map (·.reason)) == some 4) || !mine.any Task.isRunning)

/-- A task after k more cycles: what a running slot counts, unless its context's clocks stand still, its results in flight (R80), and the
clocks of its begun link entries, which run on while it is stopped (R426, R448). -/
def Task.after (k : Nat) (still : Bool) (t : Task) : Task :=
  let t := t.setQueue .lnk ((t.queue .lnk).map (Entry.after k))
  if !t.isRunning then t else
  let t := { t with ifq := (t.ifq.map fun f => { f with delay := f.delay - k }).filter fun f => f.delay != 0 }
  if still then t else
  { t with
    sys := { t.sys with cyc := t.sys.cyc + k, wdog := t.sys.wdog + k, slot := t.sys.slot + k,
                        uncharged := t.sys.uncharged + k }
    flow := { t.flow with timed := t.flow.timed.map (Timed.after k) } }

/-- An entry at the head of a task's queue stands ready except for a translation or the answer of a home: it has begun, or it may
begin and its tokens and the room for those it gives are there (R376). -/
def State.lacks (s : State) (t : Task) (e : Entry) : Bool :=
  let ready := e.taken || ((s.focus t.tid).mayBegin e &&
    (waitFifos e.stream (Instr.tokens e.ins)).all (fun i => t.regs.tok.get i != 0) && !t.noRoom e)
  let missing := match e.h with
    | none => false
    | some h =>
      match h.bind with
      | .pending => true
      | .valid leaf => leafAp leaf != 0 && e.answer == .none
      | .revoked => s.inTransit t.pool.ctx h.base
      | _ => false
  missing && ready

/-- What stands ready and waits in a cycle: its die, its tag and its function (R376). -/
abbrev Waits := List (Nat × Nat × Nat)

/-- A wait of a task's access of a tag. -/
def State.waitOf (s : State) (t : Task) (tag : Nat) : Nat × Nat × Nat := (t.pool.die.toNat, tag, s.fnOf t.pool.ctx)

/-- The waits of the head entries of running tasks that a test selects. -/
def State.headWaits (s : State) (sel : Task → Entry → Bool) : Waits :=
  (s.tasks.filter Task.isRunning).flatMap fun t =>
    (Stream.all.filterMap fun q => (t.queue q).head?).filterMap fun e =>
      e.h.bind fun h => if sel t e then some (s.waitOf t h.tag.toNat) else none

/-- Count k stall cycles for every tag of a die that has something that waits, once; the first of them is lost where a command of this
step set the counter (R376, R456). -/
def State.countWaits (s : State) (k : Nat) (l : Waits) : State :=
  let counted := l.filter fun x => (s.counter x.1 x.2.1).counts x.2.2
  ((counted.map fun x => (x.1, x.2.1)).eraseDups).foldl (fun s d =>
    s.countStall d.1 d.2 (if s.quiet.contains d then k - 1 else k)) s

/-- A context's time stands still while its clocks do (R122, R448). -/
def State.ctxAfter (s : State) (k : Nat) (c : Ctx) : Ctx :=
  if s.standsStill c.number then { c with haltCycles := c.haltCycles + k } else c

/-- k cycles elapse, in which some accesses wait. -/
def State.elapse (s : State) (k : Nat) (l : Waits) : State :=
  let s := s.countWaits k l
  { s with now := s.now + k, ctxs := s.ctxs.map (s.ctxAfter k) }.mapTasks fun t => t.after k (s.standsStill t.pool.ctx)

end Sys2Proof.Machine
end

