-- ==== Sys2Proof/Machine/Outside.lean ====
section
/-! DEFINITION. What the outside does to the machine: doorbells and configuration, host and peer accesses, answers of
outside homes, requests of other chips' Plirons, errors, cooling and reset (R329, R330, R391, R395, R413, R422, R427,
R434 to R436, R461 to R464, R468, R471, R477, R478). -/

namespace Sys2Proof.Machine

/-! ## The doorbell page (R462 to R464, R468) -/

/-- A doorbell register of a function is written, if doorbells are accepted and the function is enabled. -/
def doorbell (fn : BitVec 11) (body : FnRegs → State → State) (s : State) : Host.Outcome State Fault Refusal :=
  let r := s.fnRegs fn.toNat
  if s.serving && r.enabled then .next (body r s) else .next s

/-- CQTAIL_DOORBELL. -/
def execCqtailDoorbell (fn : BitVec 11) (v : BitVec 32) : State → Host.Outcome State Fault Refusal :=
  doorbell fn fun _ s => s.modFn fn.toNat fun r => { r with cqTail := v }

/-- CPHEAD_WRITE: entries are freed, and a held completion is written once there is room (R464). -/
def execCpheadWrite (fn : BitVec 11) (v : BitVec 32) : State → Host.Outcome State Fault Refusal :=
  doorbell fn fun r s =>
    let s := s.modFn fn.toNat fun r => { r with cpHead := v }
    match r.held with
    | none => s
    | some (tag, st, res) => s.complete? fn.toNat tag st res

/-- CTRL_WRITE: rings that are turned on start with every index at 0; a reserved bit discards the write (R464). -/
def execCtrlWrite (fn : BitVec 11) (v : BitVec 32) : State → Host.Outcome State Fault Refusal :=
  doorbell fn fun r s =>
    if v.extractLsb' 3 29 ≠ 0 then s
    else if v.getLsbD 0 && !r.ctrl.getLsbD 0 then
      s.modFn fn.toNat fun r => { r with ctrl := v, cqTail := 0, cmdHead := 0, cpHead := 0, cplTail := 0, held := none }
    else s.modFn fn.toNat fun r => { r with ctrl := v }

/-- The page faults of a context that wait for a page request are posted while the ring has room (R420, R468). -/
def State.postWaiting (s : State) (n : Nat) : State :=
  let s := s.tasks.foldl (fun s t =>
    if t.pool.ctx ≠ n then s else
    let s := match t.flow.page with
      | some f => s.postPage n f.va f.write
      | none => s
    match t.flow.service with
    | some v => if v.svc = 1 then s.postPage n v.va (v.arg == 1) else s
    | none => s) s
  s.launches.foldl (fun s l =>
    match l.page with
    | some (va, write) => if l.ctx = n then s.postPage n va write else s
    | none => s) s

/-- PRDB_WRITE: entries of a context's page-request ring are freed (R468). -/
def execPrdbWrite (fn : BitVec 11) (v : Word) : State → Host.Outcome State Fault Refusal :=
  doorbell fn fun _ s =>
    let n := (v.extractLsb' 32 32).toNat
    match s.ctx? n with
    | none => s
    | some k => if k.fn = fn then (s.modCtx n fun k => { k with prRead := v.extractLsb' 0 32 }).postWaiting n else s

/-- DOORBELL_REGISTER_WRITE: ring bases and sizes while the rings are off; every other write is discarded (R464). -/
def execDoorbellRegisterWrite (fn : BitVec 11) (off : BitVec 12) (v : Word) : State → Host.Outcome State Fault Refusal :=
  doorbell fn fun r s =>
    let size : BitVec 32 := v.setWidth 32
    let sizeOk := powerIn 16 4096 v.toNat
    if r.ctrl.getLsbD 0 then s else
    match off.toNat with
    | 0x000 => if v.toNat % 4096 = 0 then s.modFn fn.toNat fun r => { r with cmdBase := v } else s
    | 0x008 => if sizeOk then s.modFn fn.toNat fun r => { r with cmdSize := size } else s
    | 0x018 => if v.toNat % 4096 = 0 then s.modFn fn.toNat fun r => { r with cplBase := v } else s
    | 0x020 => if sizeOk then s.modFn fn.toNat fun r => { r with cplSize := size } else s
    | _ => s

/-! ## Configuration, reset, power and cooling (R461, R471, R477, R478) -/

/-- The virtual functions 1 to n are enabled and every other one is not (R461). -/
def State.enableVfs (s : State) (n : Nat) : State :=
  let old := s.fns.map fun x => (x.1, { x.2 with enabled := x.1 == 0 || decide (x.1 ≤ n) })
  let new := ((List.range n).map (· + 1)).filter fun i => (s.fns.lookup i).isNone
  { s with fns := old ++ new.map fun i => (i, { enabled := true }) }

/-- CONFIGURATION_REQUEST: Configuration Request Retry Status before step 7; a write at function 0 enables its virtual
functions (R461, R477). -/
def execConfigurationRequest (fn : BitVec 11) (write : Bool) (numVfs : BitVec 16) (s : State) :
    Host.Outcome State Fault Refusal :=
  if !s.serving then .next { s with sent := s.sent ++ [.configRetry] } else
  let s := if write && fn == 0 && decide (numVfs.toNat ≤ 1024) then s.enableVfs numVfs.toNat else s
  .next { s with sent := s.sent ++ [.configDone] }

/-- FUNCTION_LEVEL_RESET: as RESET_FUNCTION, without a completion entry (R471). -/
def execFunctionLevelReset (fn : BitVec 11) (s : State) : Host.Outcome State Fault Refusal :=
  if s.serving then .next (s.tryReset fn.toNat) else .next s

/-- The reset sequence of R477: everything as at reset but what lies outside the module. Which stacks and ports train is
a free value; a stack that fails keeps the module in reset. -/
def State.rerun (s : State) : State :=
  let trained : BitVec 8 := (Config.freeWord s.free).setWidth 8
  let portDown : BitVec 24 := (Config.freeWord (s.free + 1)).setWidth 24
  { State.reset with
    isReady := trained == 0xFF, resetting := trained != 0xFF, trained, portDown
    dieTemp := s.dieTemp, power := s.power, hostMem := s.hostMem, peerMem := s.peerMem
    sent := s.sent, sched := s.sched, turn := s.turn, free := s.free + 2 }

/-- POWER_ON. -/
def execPowerOn (s : State) : Host.Outcome State Fault Refusal := .next s.rerun

/-- PERST_ASSERT. -/
def execPerstAssert (s : State) : Host.Outcome State Fault Refusal := .next s.rerun

/-- DIETEMP with the temperature of a die (R462). -/
def setTemp (x : BitVec 32) (die : BitVec 2) (temp : Byte) : BitVec 32 :=
  (x &&& ~~~((0xFF : BitVec 32) <<< (8 * die.toNat))) ||| (temp.setWidth 32 <<< (8 * die.toNat))

/-- THERMAL_TRIP: a die reports its temperature; above 110 °C every context stops as RESET_FUNCTION of every function
would, and the module stays in reset until PERST# (R478). -/
def execThermalTrip (die : BitVec 2) (temp : Byte) (s : State) : Host.Outcome State Fault Refusal :=
  let s := { s with dieTemp := setTemp s.dieTemp die temp }
  if temp.toNat ≤ 110 then .next s else
  let s := (s.fns.map (·.1)).foldl State.tryReset s
  .next { s with thermal := true, isReady := false, resetting := true }

/-- THROTTLE_HOLD: issue is held for whole cycles, which count as stalls of the tags at queue heads as they pass (R478). -/
def execThrottleHold (cycles : Nat) (s : State) : Host.Outcome State Fault Refusal :=
  .next { s with throttle := true, throttled := s.throttled + cycles, hold := s.hold + cycles }

/-! ## Host accesses (R391, R435) -/

/-- Record matches of an access that serves no task of this chip (R442). -/
def State.watchOutside (s : State) (path : Nat) (kind : AKind) (skind : Nat) (src : Word) (a n : Nat) (skid : Nat → Nat) : State :=
  (s.watch false path kind ⟨skind, src, none⟩ [(a, n)] skid).1

/-- HOST_WRITE: a posted write performs at its homes; what does not translate to a writable page of local HBM is lost. -/
def execHostWrite (ctx : Nat) (va : Word) (bytes : List Byte) (s : State) : Host.Outcome State Fault Refusal :=
  match s.ctxChunks ctx va bytes.length with
  | .error _ => .next s
  | .ok cs =>
    if !(cs.all fun c => localHbm c.leaf && leafW c.leaf && !leafDlt c.leaf) then .next s else
    .next (cs.foldl (fun s c => s.watchOutside 8 .write 6 (BitVec.ofNat 64 (s.fnOf ctx)) c.addr c.len fun _ => 0)
      (cs.foldl (fun s c => s.noteWrite c.space c.addr c.len) (s.writeChunks cs bytes)))

/-- The bytes of a chunk as a host read returns them, and whether they are poisoned: on a delta page the XOR of delta and
base, the base at the BASEOFF of the function's root RCB (R371, R434). -/
def State.hostBytes (s : State) (n : Nat) (root : Word) (c : Chunk) : List Byte × Bool :=
  if !leafDlt c.leaf then (Mem.readN s.hbm c.addr c.len, s.poisoned .hbm c.addr c.len) else
  let bad := (List.replicate c.len 0, true)
  match unpackBlock true (deltaBlock s c.leaf), s.ctxChunks n (c.va + (s.effOf n root).baseOff) c.len with
  | some d, .ok bs =>
    if deltaPoisoned s c.leaf || bs.any (fun b => leafDlt b.leaf || s.poisoned b.space b.addr b.len) then bad
    else (List.zipWith (· ^^^ ·) ((d.drop (c.va.toNat % 4096)).take c.len) (s.readChunks bs), false)
  | _, _ => bad

/-- HOST_READ: the bytes with their poison, after the egress check of R435; nothing where some byte has no page of local
HBM. -/
def execHostRead (ctx : Nat) (va : Word) (n : Nat) (s : State) : Host.Outcome State Fault Refusal :=
  let nothing : State := { s with sent := s.sent ++ [.hostRead [] false] }
  match s.ctxChunks ctx va n with
  | .error _ => .next nothing
  | .ok cs =>
    if !(cs.all fun c => localHbm c.leaf) then .next nothing else
    let root := ((s.ctx? ctx).map (·.rootRcb)).getD 0
    let s := cs.foldl (fun s c => s.egress 0 ctx root c.addr c.len) s
    let got := cs.map (s.hostBytes ctx root)
    .next { s with sent := s.sent ++ [.hostRead (got.flatMap (·.1)) (got.any (·.2))] }

/-! ## Answers of outside homes (R395, R413, R427) -/

/-- Store bytes over the places of runs of virtual addresses in a page, in order. -/
def State.fillRuns (s : State) (leaf : Word) : List (Word × Nat) → List Byte → State
  | [], _ => s
  | r :: rest, bs =>
    let (p, a) := placeOf leaf r.1 0
    State.fillRuns (s.put p a (bs.take r.2)) leaf rest (bs.drop r.2)

/-- What an entry makes of an answer: a posted write to the host that meets an error is lost (R413). -/
def Entry.takes (e : Entry) (ap : Nat) (ans : Answer) : Answer :=
  if ap = 2 ∧ ans = .poisoned ∧ Instr.writes e.ins e.stream then .lost else ans

/-- An answer to accesses that no handle names: what those of the head, or of the oldest copy command, meet from then on in an
aperture (R413, R427). -/
def Task.answerOther (t : Task) (k : Stream) (ap : Nat) (ans : Answer) : Task :=
  if ans = .none ∨ ans = .done then t else
  match k, t.oldestCopy with
  | .cpy, some c => { t with vcq := t.vcq.map fun x => if x.num = c.num then { x with away := (ap, ans) } else x }
  | k, _ =>
    match t.queue k with
    | [] => t
    | e :: rest => t.setQueue k ({ e with away := (ap, ans) } :: rest)

/-- An entry has been sent to an aperture and has no answer. -/
def Entry.sentTo (e : Entry) (ap : Nat) : Bool := e.taken && e.answer == .none && e.leaf?.any fun l => leafAp l == ap

/-- The oldest entry of a queue of the acting task that has been sent to an aperture and has no answer gets it: with it, what
its home's memory holds. Where there is none, the accesses of the head without a handle get it. -/
def answerHead (k : Stream) (ap : Nat) (bs : List Byte) (ans : Answer) (s : State) : Host.Outcome State Fault Refusal :=
  let q := s.cur.queue k
  match q.findIdx? (·.sentTo ap) with
  | none => .next { s with cur := s.cur.answerOther k ap ans }
  | some i =>
    match q[i]? with
    | none => .next s
    | some e =>
      let s := match e.h, e.leaf?, ans with
        | some h, some leaf, .done => s.fillRuns leaf (e.runs leaf h.base) bs
        | _, _, _ => s
      .next { s with cur := s.cur.setQueue k (q.set i { e with answer := e.takes ap ans }) }

/-- HOST_COMPLETION_TIMEOUT: poisoned data (R427). -/
def execHostCompletionTimeout (stream : Stream) : State → Host.Outcome State Fault Refusal := answerHead stream 2 [] .poisoned

/-- ROOT_COMPLEX_COMPLETION: the data, or with an error poisoned data (R413). -/
def execRootComplexCompletion (stream : Stream) (bytes : List Byte) (error : Bool) : State → Host.Outcome State Fault Refusal :=
  answerHead stream 2 bytes (if error then .poisoned else .done)

/-- PEER_HOME_ANSWER: the peer's data, poisoned data, or a refusal (R395, R413). -/
def execPeerHomeAnswer (stream : Stream) (bytes : List Byte) (refused poisoned : Bool) : State → Host.Outcome State Fault Refusal :=
  answerHead stream 1 bytes (if refused then .refused else if poisoned then .poisoned else .done)

/-! ## Peer accesses (R360, R395, R413, R440, R472) -/

/-- The leaf of some context that maps n bytes of this chip's HBM. -/
def State.mappedAt (s : State) (pa n : Nat) : Option Word :=
  (s.mappings.find? fun m => localHbm m.leaf &&
    decide (leafPfn m.leaf * 4096 ≤ pa ∧ pa + n ≤ leafPfn m.leaf * 4096 + pageBytes (leafSz m.leaf))).map (·.leaf)

/-- The bytes that a peer's access touches. -/
def PeerOp.size : PeerOp → Nat
  | .load n => n
  | .store bs => bs.length
  | .engineStore _ _ bs => bs.length
  | .atom _ dbl _ => atSize dbl
  | .cas dbl _ _ => atSize dbl
  | .fatom _ _ => 4
  | .vfadd lanes => 4 * lanes.length

/-- The new number that a peer's atomic makes of the old one. -/
def PeerOp.newNum (op : PeerOp) (old : Nat) : Nat :=
  match op with
  | .atom o dbl x => atomV o (atSize dbl) old (lowBytes (atSize dbl) x)
  | .cas dbl c new => if old = lowBytes (atSize dbl) c then lowBytes (atSize dbl) new else old
  | .fatom o x => fatomV o old x.toNat
  | _ => old

/-- What is sent back for a peer's access. -/
def State.answerPeer (s : State) (bs : List Byte) (refused poisoned : Bool) : State :=
  { s with sent := s.sent ++ [.peer bs refused poisoned] }

/-- The lanes of a peer's vfaddnr are added at the Moles, with the watch records of each of their granules (R195, R440 Table 4). -/
def State.peerAdds (s : State) (pa : Nat) (lanes : List (Option Lane)) : State :=
  let words := (List.range lanes.length).filterMap fun i => ((lanes[i]?).bind id).map fun x => (pa + 4 * i, x)
  let s := words.foldl (fun s w =>
    let old : Lane := BitVec.ofNat 32 (Mem.num s.hbm w.1 4)
    (s.moleWrite w.1 (leBytes 4 (rneF32 ((f32 old).add (f32 w.2)).1).toNat)).noteWrite .hbm w.1 4) s
  ((words.map (·.1 / 64)).eraseDups).foldl (fun s l =>
    (s.watch false 1 .atomic ⟨4, moleSrc (64 * l), none⟩ ((words.filter (·.1 / 64 == l)).map fun w => (w.1, 4)) granuleSkid).1) s

/-- The source kind and the SKID of an engine's write at its home (R440 Table 4). -/
def engineSource (path : Path) (pa n : Nat) : Nat × (Nat → Nat) :=
  match path with
  | .cp => (1, burstSkid)
  | .sk => (3, burstSkid)
  | .lk => (7, burstSkid)
  | _ => (2, fun e => min 4096 (pa + n - e))

/-- PEER_ACCESS_ARRIVAL: an access through another chip's peer aperture performs at its home, or is refused where no
context maps the bytes. -/
def execPeerAccessArrival (chip : BitVec 10) (port : BitVec 5) (pa : Nat) (op : PeerOp) (s : State) :
    Host.Outcome State Fault Refusal :=
  match s.mappedAt pa (PeerOp.size op) with
  | none => .next (s.answerPeer [] true false)
  | some leaf =>
    let bad := s.poisoned .hbm pa (PeerOp.size op)
    let put (s : State) (bs : List Byte) : State := (if leafMs leaf then s.moleWrite pa bs else s.hbmWrite pa bs).noteWrite .hbm pa bs.length
    match op with
    | .load n => .next (s.answerPeer (Mem.readN s.hbm pa n) false bad)
    | .store bs => .next (((s.hbmWrite pa bs).noteWrite .hbm pa bs.length).answerPeer [] false false)
    | .engineStore path src bs =>
      let (skind, skid) := engineSource path pa bs.length
      .next ((((s.hbmWrite pa bs).noteWrite .hbm pa bs.length).watchOutside path.code.toNat .write skind src pa bs.length skid).answerPeer
        [] false false)
    | .vfadd lanes => .next (if bad then s.answerPeer [] false true else (s.peerAdds pa lanes).answerPeer [] false false)
    | op =>
      let n := PeerOp.size op
      if pa % n ≠ 0 then .next (s.answerPeer [] true false)
      else if bad then .next (s.answerPeer [] false true)
      else
        let old := Mem.num s.hbm pa n
        let src : Word := BitVec.ofNat 64 (chip.toNat * 2 ^ 16 + port.toNat)
        .next (((put s (leBytes n (PeerOp.newNum op old))).watchOutside 6 .atomic 5 src pa n fun _ => 7).answerPeer (leBytes n old) false false)

/-! ## Requests of other chips' Plirons (R422) -/

/-- The mappings of a page whose home is this chip, or the asking chip, by its PA there. -/
def State.pageMappings (s : State) (chip : BitVec 10) (pa size : Nat) : List Mapping :=
  s.mappings.filter fun m => pageBytes (leafSz m.leaf) == size &&
    ((localHbm m.leaf && leafPfn m.leaf * 4096 == pa) ||
     (leafAp m.leaf == 1 && leafPfn m.leaf == chip.toNat * 2 ^ 30 + pa / 4096))

/-- The reply of this chip's Pliron. -/
def State.answerService (s : State) (done : Bool) : State := { s with sent := s.sent ++ [.serviceDone done] }

/-- The transit entries of mappings are released. -/
def State.endTransit (s : State) (ms : List Mapping) : State :=
  { s with transit := s.transit.filter fun r => !(ms.any fun m => m.ctx == r.1 && m.va == r.2.1) }

/-- The places at which contexts map a page (R423). -/
def placesOf (ms : List Mapping) : Places := (ms.map fun (m : Mapping) => (m.ctx, m.va)).eraseDups

/-- What is sent of a page that moves away: its bytes, and counted from its first byte its poisoned lines and the blocks whose integrity
tags do not match (R422). -/
def State.pageOut (s : State) (pa size : Nat) : Sent :=
  .page (Mem.readN s.hbm pa size) (((linesOf pa size).filter s.poison.contains).map (· - pa / 64))
    (((blocksOf pa size).filter s.badTags.contains).map (· - pa / 256))

/-- A page that moves here lands in a free frame, with its poison and its integrity tags (R422). -/
def State.pageIn (s : State) (pa : Nat) (bytes : List Byte) (poison tags : List Nat) : State :=
  let s := s.hbmWrite pa bytes
  { s with poison := (poison.map (· + pa / 64)).foldl addTo s.poison, badTags := (tags.map (· + pa / 256)).foldl addTo s.badTags }

/-- A frame of this chip's HBM that Pliron may give to a page that moves here (R348, R422). -/
def State.frameFree (s : State) (pa size : Nat) : Bool :=
  paMapped pa size && decide (pa < 2 ^ 39) && pa % 4096 == 0 && !s.refusedFrame pa size &&
  !(s.usedRanges.any fun r => rangesMeet pa size r.1 r.2)

/-- PEER_SERVICE_REQUEST: this chip's part in a MIGRATE or GRANT_RAP of another chip's handler (R401, R422, R423). A pinned
page, one that the move bound holds, or a mapping that cannot be updated, refuses. -/
def execPeerServiceRequest (chip : BitVec 10) (pa : Nat) (size : Nat) (svc : PeerSvc) (s : State) :
    Host.Outcome State Fault Refusal :=
  let ms := s.pageMappings chip pa size
  let len (m : Mapping) : Nat := pageBytes (leafSz m.leaf)
  match svc with
  | .transit =>
    if (ms.any fun m => leafPin m.leaf) || s.isFixed (placesOf ms) then .next (s.answerService false) else
    .next ({ s with transit := ms.map (fun (m : Mapping) => (m.ctx, m.va, len m)) ++ s.transit }.answerService true)
  | .shootdown =>
    if ms.any fun m => !s.mayShoot m.ctx m.va (len m) then .next s
    else .next ((ms.foldl (fun s m => s.shootdown m.ctx m.va (len m)) s).answerService true)
  | .copyOut => .next { s with sent := s.sent ++ [s.pageOut pa size] }
  | .copyIn bytes poison tags =>
    if bytes.length = size ∧ s.frameFree pa size = true then .next ((s.pageIn pa bytes poison tags).answerService true)
    else .next (s.answerService false)
  | .grantRap => .next (s.answerService (!ms.isEmpty))
  | .refuse => .next ((s.endTransit ms).answerService false)
  | .install leaf =>
    let ap := leafAp leaf
    let pfn := leafPfn leaf
    if ms.any fun m => !leafOk (levelOf (leafSz m.leaf)) (retarget m.leaf ap pfn) then .next ((s.endTransit ms).answerService false)
    else if ms.any fun m => !s.mayShoot m.ctx m.va (len m) then .next s
    else .next ((((s.relocate ms ap pfn).noteMove (placesOf ms)).endTransit ms).answerService true)

/-! ## Errors (R329, R330, R433, R434, R436) -/

/-- LINE_UNCORRECTABLE_ERROR: a line of HBM is poisoned at its home (R434). -/
def execLineUncorrectableError (line : Nat) (s : State) : Host.Outcome State Fault Refusal :=
  .next { s with poison := addTo s.poison line }

/-- DC_WORD_UE: the line of a DC word is poisoned (R330). -/
def execDcWordUe (pa : Nat) (s : State) : Host.Outcome State Fault Refusal :=
  .next { s with poison := addTo s.poison (pa / 64) }

/-- UE_STATE for a pool entry against an RCB: the record, and the abort of its domain (R329, R433). -/
def State.ueState (s : State) (n : Nat) (rcb : Word) (die index : Nat) : State :=
  (s.logFault n rcb (plainRecord s n rcb fcState die index 0 0 0)).1.abortDomain n rcb

/-- POOL_ENTRY_UE: the entry is discarded and the domain of its RCB aborts; unreadable, the domain of every RCB with an
entry in that die's pool (R329). -/
def execPoolEntryUe (handle : Nat) (readable : Bool) (s : State) : Host.Outcome State Fault Refusal :=
  match s.tasks.find? (·.tid == handle) with
  | none => .next s
  | some t =>
    let die := t.pool.die.toNat
    let hit := if readable then [(t.pool.ctx, t.pool.rcb)]
      else ((s.tasks.filter (·.pool.die == t.pool.die)).map fun u => (u.pool.ctx, u.pool.rcb)).eraseDups
    .next (hit.foldl (fun s x => s.ueState x.1 x.2 die t.pool.index) s)

/-- PARITY_ERROR: UE_STATE against the task's RCB (R436). -/
def execParityError (handle : Nat) (s : State) : Host.Outcome State Fault Refusal :=
  match s.tasks.find? (·.tid == handle) with
  | none => .next s
  | some t => .next (s.ueState t.pool.ctx t.pool.rcb t.pool.die.toNat t.pool.index)

end Sys2Proof.Machine
end

