-- ==== Sys2Proof/Machine/Bar.lean ====
section
/-! DEFINITION. BAR0 of a function as the host reads and writes it: the doorbell pages and the module status page (R461, R462, R464). -/

namespace Sys2Proof.Machine

/-- What an offset of a function's BAR0 lies in (R461, R462). -/
inductive BarPage
  | doorbell (fn at_ : Nat)
  | status (at_ : Nat)
  | none
  deriving DecidableEq, Repr

/-- The page at an offset: the physical function has the page of every function and the status page, a virtual one its own page. -/
def barPage (fn off : Nat) : BarPage :=
  if fn = 0 then
    if off / 4096 ≤ 1024 then .doorbell (off / 4096) (off % 4096) else if off / 4096 = 0xFFF then .status (off % 4096) else .none
  else if off < 4096 then .doorbell fn off
  else .none

/-- The doorbell page of a function as a read finds it (R464 Table 8); PRDB, which is for writing, reads as an open value (log 65). -/
def FnRegs.page (r : FnRegs) (prdb : Word) : List Byte :=
  record 4096 [(0x000, 8, r.cmdBase.toNat), (0x008, 4, r.cmdSize.toNat), (0x00C, 4, r.cqTail.toNat), (0x010, 4, r.cmdHead.toNat),
    (0x018, 8, r.cplBase.toNat), (0x020, 4, r.cplSize.toNat), (0x024, 4, r.cpHead.toNat), (0x028, 4, r.cplTail.toNat),
    (0x02C, 4, r.ctrl.toNat), (0x030, 8, prdb.toNat)]

/-- MSTAT (R462 Table 11). -/
def State.mstat (s : State) : Nat := s.isReady.toNat + 2 * s.thermal.toNat + 4 * s.throttle.toNat + 8 * s.resetting.toNat

/-- The module status page (R462 Table 11). -/
def State.statusPage (s : State) : List Byte :=
  record 4096 [(0x000, 8, s.mstat), (0x008, 4, s.portDown.toNat), (0x00C, 4, s.trained.toNat), (0x010, 4, s.dieTemp.toNat),
    (0x014, 4, s.power.toNat), (0x018, 8, s.now), (0x020, 8, s.throttled)]

/-- n bytes of a page from an offset, as far as the page goes. -/
def pageBytesAt (page : List Byte) (at_ n : Nat) : List Byte := (page.drop at_).take n

/-- The host reads n bytes of a function's BAR0; where no page lies it reads zeros, and so does a function that is not enabled
(log 65). -/
def barRead (fn off n : Nat) (s : State) : State :=
  let answer (bs : List Byte) (s : State) : State := { s with sent := s.sent ++ [.bar bs] }
  if !(s.fnRegs fn).enabled then answer (List.replicate n 0) s else
  match barPage fn off with
  | .doorbell f a => answer (pageBytesAt ((s.fnRegs f).page (Config.freeWord s.free)) a n) { s with free := s.free + 1 }
  | .status a => answer (pageBytesAt s.statusPage a n) s
  | .none => answer (List.replicate n 0) s

/-- The host writes bytes of a function's BAR0: a write of one whole register acts as R464 says, and every other one is discarded, as is
a write to the module status page (R462; log 65). -/
def barWrite (fn off : Nat) (bs : List Byte) (s : State) : Host.Outcome State Fault Refusal :=
  if !(s.fnRegs fn).enabled then .next s else
  match barPage fn off with
  | .doorbell f a =>
    let v := leNat bs
    let g : BitVec 11 := BitVec.ofNat 11 f
    match a, bs.length with
    | 0x000, 8 | 0x018, 8 | 0x008, 4 | 0x020, 4 => execDoorbellRegisterWrite g (BitVec.ofNat 12 a) (BitVec.ofNat 64 v) s
    | 0x00C, 4 => execCqtailDoorbell g (BitVec.ofNat 32 v) s
    | 0x024, 4 => execCpheadWrite g (BitVec.ofNat 32 v) s
    | 0x02C, 4 => execCtrlWrite g (BitVec.ofNat 32 v) s
    | 0x030, 8 => execPrdbWrite g (BitVec.ofNat 64 v) s
    | _, _ => .next s
  | _ => .next s

end Sys2Proof.Machine
end

