-- ==== Sys2Proof/Machine/Til.lean ====
section
/-! DEFINITION. The tile queue (R147 to R179): descriptors, appends, force, tst, tflush, tdrop, tstat, tmode, and the
events of the demand engine. -/

namespace Sys2Proof.Machine

/-- A TIL instruction of n lanes: dispatched, and performed at the head of its queue. -/
def tilOp (i : Instr) (n : Nat) (body : Entry → M Unit) (s : State) : Host.Outcome State Fault Refusal :=
  match s.act with
  | none => runM (dispatch .til i n fun _ => pure ()) s
  | some e => runM (do performHead .til e (fun _ => []) (body e); stopDue) s

/-! ## Descriptors (R148, R149, R175 to R177) -/

/-- A descriptor with one field written; none when the value is out of range (R148). -/
def Desc.withField (d : Desc) (f : TField) (x : Word) : Option Desc :=
  let size := decide (1 ≤ x.toNat ∧ x.toNat ≤ 16384)
  match f with
  | .base => some { d with base := x }
  | .rows => if size then some { d with rows := x.setWidth 16 } else none
  | .cols => if size then some { d with cols := x.setWidth 16 } else none
  | .pitch => if x.toNat < 2 ^ 32 then some { d with pitch := x.setWidth 32 } else none

/-- TSET (R148). -/
def execTset (d : TReg) (f : TField) (a : SReg) :=
  tilOp (.tset d f a) 1 fun e => do
    let x := e.caps.getD 0 0
    match ((← theTask).regs.rdT d).withField f x with
    | none => raiseE e.info fcShape 0
    | some _ =>
      modTask fun t =>
        let t := t.dropName d
        let y := { t.regs.rdT d with state := 0, thk := 0 }
        { t with regs := t.regs.wrT d ((y.withField f x).getD y) }

/-- TCLR (R149). -/
def execTclr (d : TReg) :=
  tilOp (.tclr d) 1 fun _ => modTask fun t =>
    let t := t.dropName d
    { t with regs := t.regs.wrT d {} }

/-- TDROP (R175). -/
def execTdrop (d : TReg) := tilOp (.tdrop d) 1 fun _ => modTask (·.dropName d)

/-- Bitmap units of an output (R151). -/
def Desc.units (d : Desc) : Nat := (d.subCount + 511) / 512

/-- Snapshots a thunk holds (R150). -/
def Thunk.snaps (t : Thunk) : Nat := 1 + t.srcs.length + t.acc.toList.length

/-- The words of tstat (R176). -/
def tstatWord (t : Task) (a : TReg) (which : BitVec 2) : Word :=
  let d := t.regs.rdT a
  match which.toNat with
  | 0 =>
    let (dn, total) := match if d.state = 0 then none else findThunk t.thunks d.thk with
      | none => (0, 0)
      | some k => (((List.range k.out.subCount).filter k.done.testBit).length, k.out.subCount)
    BitVec.ofNat 64 (dn * 2 ^ 32 + total * 2 ^ 16 + d.state.toNat * 2 ^ 8 + d.thk.toNat)
  | 1 => BitVec.ofNat 64 ((512 - (t.thunks.map (·.out.units)).sum) * 2 ^ 32 +
      (768 - (t.thunks.map Thunk.snaps).sum) * 2 ^ 16 + (256 - t.thunks.length))
  | _ => d.base

/-- TSTAT (R176). -/
def execTstat (a : TReg) (which : BitVec 2) :=
  tilOp (.tstat a which) 1 fun _ => do pushPort 61 ⟨tstatWord (← theTask) a which, false⟩

/-- TMODE (R177). -/
def execTmode (ovf aliasPol : Bool) :=
  tilOp (.tmode ovf aliasPol) 1 fun _ =>
    modSys fun y => { y with tmode := BitVec.ofBool aliasPol ++ BitVec.ofBool ovf }

/-! ## Appending (R153, R154, R174) -/

/-- The thunks reached from one through accumulation sources, itself first (R154). -/
def accChain (ts : List Thunk) : Nat → Option (BitVec 8) → List (BitVec 8)
  | 0, _ => []
  | _ + 1, none => []
  | fuel + 1, some u => u :: accChain ts fuel ((findThunk ts u).bind fun t => t.acc.bind (·.name))

/-- A pending thunk that a new append must force: its overlaps with the new output and the new sources, less those the
append takes by name (R154). -/
def Thunk.mustForce (u : Thunk) (ts : List Thunk) (out : Nat × Nat) (acc : Option (BitVec 8))
    (srcs : List ((Nat × Nat) × Option (BitVec 8))) : Bool :=
  (meet out u.out.span && !(accChain ts thunkFuel acc).contains u.idx) ||
  u.srcs.any (fun x => meet out (u.srcSpan x)) ||
  srcs.any fun x => meet x.1 u.out.span && x.2 != some u.idx

/-- Force, oldest first, every pending thunk that a new output and new sources overlap (R154). -/
def forceOverlaps (e : Entry) (out : Nat × Nat) (acc : Option (BitVec 8)) (srcs : List ((Nat × Nat) × Option (BitVec 8))) :
    M Unit := do
  let ts := (← theTask).thunks
  for u in ts.filter fun u => !u.complete && u.mustForce ts out acc srcs do
    forceAll e u.idx

/-- The name a descriptor gives a source: its thunk when it is pending (R153). -/
def Desc.name (d : Desc) : Option (BitVec 8) := if d.state = 1 then some d.thk else none

/-- Reclaim a complete thunk: descriptors naming it get STATE 0, entries holding it drop the reference (R174). -/
def Task.reclaim (t : Task) (u : BitVec 8) : Task :=
  let forget (x : Src) : Src := if x.name = some u then { x with name := none } else x
  match findThunk t.thunks u with
  | none => t
  | some k =>
    let rest := (t.thunks.filter (·.idx != u)).map fun x => { x with srcs := x.srcs.map forget, acc := x.acc.map forget }
    { t with
      thunks := k.names.foldl (release thunkFuel) rest
      regs := { t.regs with td := t.regs.td.map fun d => if d.state ≠ 0 ∧ d.thk = u then { d with state := 0, thk := 0 } else d } }

/-- One more entry, its snapshots and its units are free (R150, R174); the units need not lie together (log 12). -/
def Task.fits (t : Task) (d : TReg) (nsrc : Nat) (beta : Bool) : Bool :=
  let out := t.regs.rdT d
  let snaps := 1 + nsrc + if beta && out.state == 1 then 1 else 0
  decide (t.thunks.length < 256 ∧ (t.thunks.map Thunk.snaps).sum + snaps ≤ 768 ∧
    (t.thunks.map (·.out.units)).sum + out.units ≤ 512)

/-- Obtain what an append needs, reclaiming and forcing under the overflow policy (R174). -/
def obtain_ (e : Entry) (d : TReg) (nsrc : Nat) (beta : Bool) : Nat → M Unit
  | 0 => pure ()
  | fuel + 1 => do
    let t ← theTask
    if t.fits d nsrc beta then return
    match t.thunks.find? (·.complete) with
    | some u => do
      modTask (·.reclaim u.idx)
      obtain_ e d nsrc beta fuel
    | none => do
      if t.sys.tmode.getLsbD 0 then throw (.fault { e.info with code := fcThunk } true)
      match t.thunks.head? with
      | none => pure ()
      | some u => do
        forceAll e u.idx
        modTask (·.reclaim u.idx)
        obtain_ e d nsrc beta fuel

/-- The lowest thunk index that no entry has, as Part I shows it (R10 Table 3, R17; log 12). -/
def freeThunkIndex : M (BitVec 8) := do
  let ts := (← theTask).thunks
  return BitVec.ofNat 8 (((List.range 256).find? fun i => !(ts.any fun t => t.idx.toNat == i)).getD 0)

/-- The lowest numbers below a limit that are not used. -/
def freeNums (limit : Nat) (used : List Nat) (n : Nat) : List Nat := ((List.range limit).filter fun i => !used.contains i).take n

/-- The pool indices that a task's thunks hold (R150). -/
def Task.poolUsed (t : Task) : List Nat := t.thunks.flatMap fun k => k.outs :: k.pool ++ k.accs.toList

/-- The bitmap units that a task's thunks hold (R151). -/
def Task.unitsUsed (t : Task) : List Nat := t.thunks.flatMap (·.units)

/-- A descriptor's sizes lie from 1 to a limit (R154 Table 3). -/
def Desc.sized (d : Desc) (limit : Nat) : Bool :=
  decide (1 ≤ d.rows.toNat ∧ d.rows.toNat ≤ limit ∧ 1 ≤ d.cols.toNat ∧ d.cols.toNat ≤ limit)

/-- Append a thunk: shapes, overlaps, room, then the new entry (R153). The sources are given with their maps; shapes
says what Table 3 asks beyond the sizes. -/
def append (e : Entry) (d : TReg) (srcs : List (TReg × Nat)) (beta : Bool) (aux : BitVec 32)
    (shapes : Desc → List Desc → Bool) : M Unit := do
  let t ← theTask
  let out := t.regs.rdT d
  let ds := srcs.map fun x => t.regs.rdT x.1
  if !(out.sized 4096 && (srcs.all fun x => x.2 == 15 || (t.regs.rdT x.1).sized 16384) && shapes out ds) then
    raiseE e.info fcShape 0
  let newSpan (x : TReg × Nat) : Nat × Nat :=
    let s := t.regs.rdT x.1
    if x.2 = 15 then
      let a := ds.getD 0 {}
      (s.base.toNat, s.pitch.toNat + a.rows.toNat * (a.cols.toNat / 8) * 2)
    else s.span
  forceOverlaps e out.span (if beta then out.name else none)
    (srcs.map fun x => (newSpan x, (t.regs.rdT x.1).name))
  obtain_ e d srcs.length beta thunkFuel
  let idx ← freeThunkIndex
  modTask fun t =>
    let out := t.regs.rdT d
    let taken : List Src := srcs.map fun x => let s := t.regs.rdT x.1; { desc := s, name := s.name, map := x.2 }
    let acc : Option Src := if beta && out.state == 1 then some { desc := out, name := some out.thk, map := 0 } else none
    let named := (taken ++ acc.toList).filterMap (·.name)
    let ts := named.foldl (fun ts u => modThunk ts u fun x => { x with refs := x.refs + 1 }) t.thunks
    let slots := freeNums 768 t.poolUsed (1 + taken.length + acc.toList.length)
    let units := freeNums 512 t.unitsUsed out.units
    let t := { t with thunks := ts }.dropName d
    let k : Thunk :=
      { idx, seq := e.num, ord := e.ord, outs := slots.headD 0, pool := (slots.drop 1).take taken.length
        accs := if acc.isSome then slots.getLast? else none
        units, ins := e.ins, out, srcs := taken, acc, aux }
    { t with
      thunks := t.thunks ++ [k]
      regs := t.regs.wrT d { t.regs.rdT d with state := 1, thk := idx } }

/-- Same shape. -/
def Desc.same (a b : Desc) : Bool := a.rows == b.rows && a.cols == b.cols

/-- The shapes of tmma and tmmtr (R154 Table 3). -/
def mmShapes (x : MmExt) (c : Desc) (l : List Desc) : Bool :=
  match l with
  | a :: b :: _ =>
    let (m, k) := if x.ta then (a.cols, a.rows) else (a.rows, a.cols)
    let (k2, n) := if x.tb then (b.cols, b.rows) else (b.rows, b.cols)
    c.rows == m && c.cols == n && k == k2
  | _ => false

/-- The shapes of tmmsp: A is M×(K/2), K a multiple of 16. -/
def mmspShapes (x : MmExt) (c : Desc) (l : List Desc) : Bool :=
  match l with
  | a :: b :: _ =>
    let (k2, n) := if x.tb then (b.cols, b.rows) else (b.rows, b.cols)
    c.rows == a.rows && c.cols == n && 2 * a.cols.toNat == k2.toNat && k2.toNat % 16 == 0
  | _ => false

/-- TMMA (R156). -/
def execTmma (d a b : TReg) (x : MmExt) :=
  tilOp (.tmma d a b x) 3 fun e => append e d [(a, 8), (b, 9)] x.acc 0 (mmShapes x)
/-- TMMSP (R157). -/
def execTmmsp (d a b md : TReg) (x : MmExt) :=
  tilOp (.tmmsp d a b md x) 3 fun e => append e d [(a, 8), (b, 9), (md, 15)] x.acc 0 (mmspShapes x)
/-- TMMTR (R158). -/
def execTmmtr (d a b : TReg) (doff : BitVec 16) (fill : SReg) (x : MmExt) :=
  tilOp (.tmmtr d a b doff fill x) 3 fun e =>
    append e d [(a, 8), (b, 9)] x.acc ((e.caps.getD 0 0).setWidth 32) (mmShapes x)

/-- Every source has the output's shape. -/
def allSame (c : Desc) (l : List Desc) : Bool := l.all c.same

/-- TADD (R160). -/
def execTadd (d a b : TReg) := tilOp (.tadd d a b) 1 fun e => append e d [(a, 0), (b, 0)] false 0 allSame
/-- TMUL (R160). -/
def execTmul (d a b : TReg) := tilOp (.tmul d a b) 1 fun e => append e d [(a, 0), (b, 0)] false 0 allSame
/-- TSCAL (R160). -/
def execTscal (d a : TReg) (b : SReg) :=
  tilOp (.tscal d a b) 1 fun e => append e d [(a, 0)] false ((e.caps.getD 0 0).setWidth 32) allSame
/-- TMAP (R160). -/
def execTmap (fn : MapFn) (d a : TReg) := tilOp (.tmap fn d a) 1 fun e => append e d [(a, 0)] false 0 allSame
/-- TCPY (R162). -/
def execTcpy (d a : TReg) := tilOp (.tcpy d a) 1 fun e => append e d [(a, 0)] false 0 allSame

/-- TRED (R161). -/
def execTred (op : TRedOp) (cols : Bool) (d a : TReg) :=
  tilOp (.tred op cols d a) 1 fun e => append e d [(a, if cols then 7 else 6)] false 0 fun c l =>
    l.all fun s => if cols then c.rows == s.rows && c.cols == 1 else c.rows == 1 && c.cols == s.cols

/-- The shapes of tview (R154 Table 3). -/
def viewShapes (k : ViewKind) (off : Nat) (c : Desc) (l : List Desc) : Bool :=
  l.all fun a =>
    match k with
    | .ident => c.same a
    | .tr => c.rows == a.cols && c.cols == a.rows
    | .rows => c.cols == a.cols && decide (off + c.rows.toNat ≤ a.rows.toNat)
    | .cols => c.rows == a.rows && decide (off + c.cols.toNat ≤ a.cols.toNat)
    | .rbc => a.rows == 1 && c.cols == a.cols
    | .cbc => a.cols == 1 && c.rows == a.rows

/-- TVIEW (R163). -/
def execTview (k : ViewKind) (d a : TReg) (off : BitVec 14) :=
  tilOp (.tview k d a off) 2 fun e => append e d [(a, k.code.toNat)] false 0 (viewShapes k off.toNat)

/-! ## Demands (R164 to R166) -/

/-- The rectangle that force names (R164). -/
def forceRect (row0 : BitVec 7) (rows : BitVec 8) (col0 : BitVec 7) (cols : BitVec 8) : Rect :=
  ⟨32 * row0.toNat, 32 * (row0.toNat + rows.toNat), 32 * col0.toNat, 32 * (col0.toNat + cols.toNat)⟩

/-- FORCE (R164). -/
def execForce (d : TReg) (row0 : BitVec 7) (rows : BitVec 8) (col0 : BitVec 7) (cols : BitVec 8) :=
  tilOp (.force d row0 rows col0 cols) 2 fun e => do
    let x := (← theTask).regs.rdT d
    if x.state = 1 then
      let r := forceRect row0 rows col0 cols
      if x.rows.toNat ≤ r.r0 ∨ x.cols.toNat ≤ r.c0 then raiseE e.info fcShape 0
      demand e x.thk r

/-- Write one sub-tile of tst's destination: enc(dec(S(i, j)), FD, rne) (R165). -/
def copySub (e : Entry) (s d : Desc) (sr sc : Nat) : M Unit := do
  let thk := match findThunk (← theTask).thunks s.thk with
    | some t => if s.state = 0 then 0 else thkWord t sr sc
    | none => 0
  let f : FaultInfo := { e.info with thk, tag := 0, queue := some ((← theTask).coreOf.getD 0, 2, e.pfd) }
  settlePath .mx
  keeping (do
    let ws ← tileWidth f s
    let wd ← tileWidth (f.role 3) d true
    let r := s.subRect sr sc
    countRead ws r.elems.length
    let ps ← r.elems.mapM fun p => do
      let x ← readOpnd f s ws p.1 p.2
      let (put, fl) ← encOut f d wd p.1 p.2 x.v
      raiseFlags (fl ||| x.fl)
      return put
    writePuts f wd ps)

/-- TST: the form with one operand has d = s (R165). -/
def execTst (s d : TReg) :=
  tilOp (.tst s d) 1 fun e => do
    let g := (← theTask).regs
    let x := g.rdT s
    if s = d then
      if x.state = 1 then forceAll e x.thk
    else
      let y := g.rdT d
      if !(x.sized 65535 && y.same x) || meet x.span y.span then raiseE e.info fcShape 0
      forceOverlaps e y.span none []
      let x := (← theTask).regs.rdT s
      if x.state = 1 then forceAll e x.thk
      for p in x.subTiles x.whole do
        copySub e x y p.1 p.2

/-- TFLUSH (R166). -/
def execTflush :=
  tilOp .tflush 1 fun e => do
    for u in (← theTask).thunks do
      forceAll e u.idx

/-! ## Events of the demand engine -/

/-- What is left of the demand of a force, tst or tflush. -/
def Entry.planLeft (e : Entry) (t : Task) : List DemandOp :=
  let whole (x : Desc) := if x.state = 1 then planOf t.thunks x.thk x.whole else []
  match e.ins with
  | .force d row0 rows col0 cols =>
    let x := t.regs.rdT d
    if x.state = 1 then planOf t.thunks x.thk (forceRect row0 rows col0 cols) else []
  | .tst s d =>
    let x := t.regs.rdT s
    let y := t.regs.rdT d
    if s = d ∨ (x.sized 65535 = true ∧ y.same x = true ∧ meet x.span y.span = false) then whole x else []
  | .tflush =>
    match t.thunks.find? (!·.complete) with
    | some u => planOf t.thunks u.idx u.out.whole
    | none => []
  | _ => []

/-- The operations up to the first sub-tile computed. -/
def firstSub : List DemandOp → List DemandOp
  | [] => []
  | .take u :: rest => .take u :: firstSub rest
  | .compute u sr sc :: _ => [.compute u sr sc]

/-- MATRIX_COMMAND_COMPLETE: one sub-tile of the demand at the head of TIL is computed and written (R169). -/
def execMatrixCommandComplete (s : State) : Host.Outcome State Fault Refusal :=
  match s.cur.queue .til with
  | [] => .next s
  | e :: _ =>
    if !s.cur.isRunning || (e.planLeft s.cur).isEmpty then .next s else
    runM (do
      takeBadger e
      for o in firstSub (e.planLeft s.cur) do
        demandOp e o
      if (e.planLeft (← theTask)).isEmpty then freeBadger) s

/-- THUNK_SEM_WAIT: a lane 3 wait in progress is satisfied and takes its semaphore (R159). -/
def execThunkSemWait (s : State) : Host.Outcome State Fault Refusal :=
  let waiting := Stream.all.filterMap fun k =>
    match s.cur.queue k with
    | e :: _ => if e.waited = 0 then none else e.waitThk.map fun u => (e, u)
    | [] => none
  match waiting.find? fun x =>
      match (findThunk s.cur.thunks x.2).bind Thunk.waitSem with
      | some sm => s.cur.regs.rdSem sm != 0 && !s.cur.seqTakes sm
      | none => false with
  | none => .next s
  | some (e, u) => if s.cur.isRunning then runM (takeWait e u) s else .next s

end Sys2Proof.Machine
end

