-- ==== Sys2Proof/Machine/Dispatch.lean ====
section
/-! DEFINITION. The dispatch of an instruction to its meaning: one arm per constructor of Instr. -/

namespace Sys2Proof.Machine

/-- What an instruction does in a state. -/
def exec (i : Instr) (s : State) : Host.Outcome State Fault Refusal :=
  match i with
  | .add d a b => Sys2Proof.Machine.execAdd d a b s
  | .sub d a b => Sys2Proof.Machine.execSub d a b s
  | .mul d a b => Sys2Proof.Machine.execMul d a b s
  | .mulh d a b => Sys2Proof.Machine.execMulh d a b s
  | .mulhu d a b => Sys2Proof.Machine.execMulhu d a b s
  | .div d a b => Sys2Proof.Machine.execDiv d a b s
  | .divu d a b => Sys2Proof.Machine.execDivu d a b s
  | .rem d a b => Sys2Proof.Machine.execRem d a b s
  | .remu d a b => Sys2Proof.Machine.execRemu d a b s
  | .and d a b => Sys2Proof.Machine.execAnd d a b s
  | .or d a b => Sys2Proof.Machine.execOr d a b s
  | .xor d a b => Sys2Proof.Machine.execXor d a b s
  | .andn d a b => Sys2Proof.Machine.execAndn d a b s
  | .shl d a b => Sys2Proof.Machine.execShl d a b s
  | .shr d a b => Sys2Proof.Machine.execShr d a b s
  | .sra d a b => Sys2Proof.Machine.execSra d a b s
  | .min d a b => Sys2Proof.Machine.execMin d a b s
  | .max d a b => Sys2Proof.Machine.execMax d a b s
  | .minu d a b => Sys2Proof.Machine.execMinu d a b s
  | .maxu d a b => Sys2Proof.Machine.execMaxu d a b s
  | .clz d a => Sys2Proof.Machine.execClz d a s
  | .ctz d a => Sys2Proof.Machine.execCtz d a s
  | .popc d a => Sys2Proof.Machine.execPopc d a s
  | .cmpCc cc d a b => Sys2Proof.Machine.execCmpCc cc d a b s
  | .sel d p a b => Sys2Proof.Machine.execSel d p a b s
  | .lea d a b k => Sys2Proof.Machine.execLea d a b k s
  | .bfx d a pos len => Sys2Proof.Machine.execBfx d a pos len s
  | .bfi d a pos len => Sys2Proof.Machine.execBfi d a pos len s
  | .addi d a imm => Sys2Proof.Machine.execAddi d a imm s
  | .andi d a imm => Sys2Proof.Machine.execAndi d a imm s
  | .ori d a imm => Sys2Proof.Machine.execOri d a imm s
  | .xori d a imm => Sys2Proof.Machine.execXori d a imm s
  | .shli d a k => Sys2Proof.Machine.execShli d a k s
  | .shri d a k => Sys2Proof.Machine.execShri d a k s
  | .srai d a k => Sys2Proof.Machine.execSrai d a k s
  | .cmpiCc cc d a imm => Sys2Proof.Machine.execCmpiCc cc d a imm s
  | .movi d imm => Sys2Proof.Machine.execMovi d imm s
  | .movhi d imm => Sys2Proof.Machine.execMovhi d imm s
  | .br p n off => Sys2Proof.Machine.execBr p n off s
  | .call p n off => Sys2Proof.Machine.execCall p n off s
  | .jmp d a => Sys2Proof.Machine.execJmp d a s
  | .loop a off => Sys2Proof.Machine.execLoop a off s
  | .xlt h a tag fetch write => Sys2Proof.Machine.execXlt h a tag fetch write s
  | .hinv h => Sys2Proof.Machine.execHinv h s
  | .hstat d h => Sys2Proof.Machine.execHstat d h s
  | .wait ld st cp ti => Sys2Proof.Machine.execWait ld st cp ti s
  | .xfence x y => Sys2Proof.Machine.execXfence x y s
  | .fence kind scope => Sys2Proof.Machine.execFence kind scope s
  | .waita d a b cc timeout => Sys2Proof.Machine.execWaita d a b cc timeout s
  | .semSig sm k => Sys2Proof.Machine.execSemSig sm k s
  | .semWait d sm k timeout => Sys2Proof.Machine.execSemWait d sm k timeout s
  | .semSet sm b => Sys2Proof.Machine.execSemSet sm b s
  | .ifsync a b => Sys2Proof.Machine.execIfsync a b s
  | .spawn d a b x tpl => Sys2Proof.Machine.execSpawn d a b x tpl s
  | .arg d which => Sys2Proof.Machine.execArg d which s
  | .tid d sel => Sys2Proof.Machine.execTid d sel s
  | .rdsr d r => Sys2Proof.Machine.execRdsr d r s
  | .wrsr r a => Sys2Proof.Machine.execWrsr r a s
  | .trap d a svc => Sys2Proof.Machine.execTrap d a svc s
  | .brk code => Sys2Proof.Machine.execBrk code s
  | .resume a => Sys2Proof.Machine.execResume a s
  | .rdtime d => Sys2Proof.Machine.execRdtime d s
  | .pfd a => Sys2Proof.Machine.execPfd a s
  | .rngseed a => Sys2Proof.Machine.execRngseed a s
  | .lds h u sz off t => Sys2Proof.Machine.execLds h u sz off t s
  | .vld d h m off t => Sys2Proof.Machine.execVld d h m off t s
  | .vldr d h m off t => Sys2Proof.Machine.execVldr d h m off t s
  | .vlds d h b off t => Sys2Proof.Machine.execVlds d h b off t s
  | .vldg d h b t => Sys2Proof.Machine.execVldg d h b t s
  | .vlsp d a t => Sys2Proof.Machine.execVlsp d a t s
  | .vlbc d h off t => Sys2Proof.Machine.execVlbc d h off t s
  | .ldpf h b off t => Sys2Proof.Machine.execLdpf h b off t s
  | .sts h sz off t => Sys2Proof.Machine.execSts h sz off t s
  | .vst d h rm m off t => Sys2Proof.Machine.execVst d h rm m off t s
  | .vstr d h m off t => Sys2Proof.Machine.execVstr d h m off t s
  | .vsts d h b rm off t => Sys2Proof.Machine.execVsts d h b rm off t s
  | .vsct d h b rm t => Sys2Proof.Machine.execVsct d h b rm t s
  | .vssp d a t => Sys2Proof.Machine.execVssp d a t s
  | .lcln h off t => Sys2Proof.Machine.execLcln h off t s
  | .linv h off t => Sys2Proof.Machine.execLinv h off t s
  | .vfaddnr d h m off t => Sys2Proof.Machine.execVfaddnr d h m off t s
  | .fadd d a b t => Sys2Proof.Machine.execFadd d a b t s
  | .fsub d a b t => Sys2Proof.Machine.execFsub d a b t s
  | .fmul d a b t => Sys2Proof.Machine.execFmul d a b t s
  | .fma d a b c t => Sys2Proof.Machine.execFma d a b c t s
  | .fmin d a b t => Sys2Proof.Machine.execFmin d a b t s
  | .fmax d a b t => Sys2Proof.Machine.execFmax d a b t s
  | .fabs d a t => Sys2Proof.Machine.execFabs d a t s
  | .fneg d a t => Sys2Proof.Machine.execFneg d a t s
  | .frcp d a t => Sys2Proof.Machine.execFrcp d a t s
  | .frsq d a t => Sys2Proof.Machine.execFrsq d a t s
  | .fsqrt d a t => Sys2Proof.Machine.execFsqrt d a t s
  | .fexp2 d a t => Sys2Proof.Machine.execFexp2 d a t s
  | .flog2 d a t => Sys2Proof.Machine.execFlog2 d a t s
  | .fcmpCc cc d a b t => Sys2Proof.Machine.execFcmpCc cc d a b t s
  | .iadd d a b t => Sys2Proof.Machine.execIadd d a b t s
  | .isub d a b t => Sys2Proof.Machine.execIsub d a b t s
  | .imul d a b t => Sys2Proof.Machine.execImul d a b t s
  | .iand d a b t => Sys2Proof.Machine.execIand d a b t s
  | .ior d a b t => Sys2Proof.Machine.execIor d a b t s
  | .ixor d a b t => Sys2Proof.Machine.execIxor d a b t s
  | .ishl d a b t => Sys2Proof.Machine.execIshl d a b t s
  | .ishr d a b t => Sys2Proof.Machine.execIshr d a b t s
  | .isra d a b t => Sys2Proof.Machine.execIsra d a b t s
  | .imin d a b t => Sys2Proof.Machine.execImin d a b t s
  | .imax d a b t => Sys2Proof.Machine.execImax d a b t s
  | .icmpCc cc d a b t => Sys2Proof.Machine.execIcmpCc cc d a b t s
  | .vmov d a t => Sys2Proof.Machine.execVmov d a t s
  | .vmovi d imm t => Sys2Proof.Machine.execVmovi d imm t s
  | .vsel d a m t => Sys2Proof.Machine.execVsel d a m t s
  | .vperm d a b t => Sys2Proof.Machine.execVperm d a b t s
  | .vbcast d t => Sys2Proof.Machine.execVbcast d t s
  | .vlane d t => Sys2Proof.Machine.execVlane d t s
  | .cvt d a src dst rm m t => Sys2Proof.Machine.execCvt d a src dst rm m t s
  | .pack d a b w t => Sys2Proof.Machine.execPack d a b w t s
  | .unpack d a part w t => Sys2Proof.Machine.execUnpack d a part w t s
  | .vred op a m t => Sys2Proof.Machine.execVred op a m t s
  | .vscan op d a t => Sys2Proof.Machine.execVscan op d a t s
  | .vsort key d a t => Sys2Proof.Machine.execVsort key d a t s
  | .vuniq d a b t => Sys2Proof.Machine.execVuniq d a b t s
  | .vsegsum int d a m t => Sys2Proof.Machine.execVsegsum int d a m t s
  | .mand d a b t => Sys2Proof.Machine.execMand d a b t s
  | .mor d a b t => Sys2Proof.Machine.execMor d a b t s
  | .mxor d a b t => Sys2Proof.Machine.execMxor d a b t s
  | .mnot d a t => Sys2Proof.Machine.execMnot d a t s
  | .mpop a t => Sys2Proof.Machine.execMpop a t s
  | .mfirst d a t => Sys2Proof.Machine.execMfirst d a t s
  | .tset d f a => Sys2Proof.Machine.execTset d f a s
  | .tclr d => Sys2Proof.Machine.execTclr d s
  | .tmma d a b e => Sys2Proof.Machine.execTmma d a b e s
  | .tmmsp d a b md e => Sys2Proof.Machine.execTmmsp d a b md e s
  | .tmmtr d a b doff fill e => Sys2Proof.Machine.execTmmtr d a b doff fill e s
  | .tadd d a b => Sys2Proof.Machine.execTadd d a b s
  | .tmul d a b => Sys2Proof.Machine.execTmul d a b s
  | .tscal d a b => Sys2Proof.Machine.execTscal d a b s
  | .tmap fn d a => Sys2Proof.Machine.execTmap fn d a s
  | .tred op cols d a => Sys2Proof.Machine.execTred op cols d a s
  | .tview k d a off => Sys2Proof.Machine.execTview k d a off s
  | .tcpy d a => Sys2Proof.Machine.execTcpy d a s
  | .force d row0 rows col0 cols => Sys2Proof.Machine.execForce d row0 rows col0 cols s
  | .tst v d => Sys2Proof.Machine.execTst v d s
  | .tdrop d => Sys2Proof.Machine.execTdrop d s
  | .tstat a sel => Sys2Proof.Machine.execTstat a sel s
  | .tmode ovf aliasPol => Sys2Proof.Machine.execTmode ovf aliasPol s
  | .skbind k a => Sys2Proof.Machine.execSkbind k a s
  | .skinit k => Sys2Proof.Machine.execSkinit k s
  | .skapp part k a b => Sys2Proof.Machine.execSkapp part k a b s
  | .skshr k a => Sys2Proof.Machine.execSkshr k a s
  | .skmrg d a => Sys2Proof.Machine.execSkmrg d a s
  | .skrd v k a b => Sys2Proof.Machine.execSkrd v k a b s
  | .skapply k a b alpha => Sys2Proof.Machine.execSkapply k a b alpha s
  | .skde k => Sys2Proof.Machine.execSkde k s
  | .skrank k => Sys2Proof.Machine.execSkrank k s
  | .sksave k => Sys2Proof.Machine.execSksave k s
  | .skunbind k => Sys2Proof.Machine.execSkunbind k s
  | .cpy a => Sys2Proof.Machine.execCpy a s
  | .cpyi d a b tag sig => Sys2Proof.Machine.execCpyi d a b tag sig s
  | .cqstat a => Sys2Proof.Machine.execCqstat a s
  | .copyHandout engine => Sys2Proof.Machine.execCopyHandout engine s
  | .copyComplete engine => Sys2Proof.Machine.execCopyComplete engine s
  | .lsend d a b cw tag => Sys2Proof.Machine.execLsend d a b cw tag s
  | .lrecv d a b cw tag => Sys2Proof.Machine.execLrecv d a b cw tag s
  | .lradd d a b cw tag cidx => Sys2Proof.Machine.execLradd d a b cw tag cidx s
  | .lstat clr => Sys2Proof.Machine.execLstat clr s
  | .linkFlitReceive peer chan senderCount payload poisoned => Sys2Proof.Machine.execLinkFlitReceive peer chan senderCount payload poisoned s
  | .flitCrcRetry port => Sys2Proof.Machine.execFlitCrcRetry port s
  | .linkPeerUnreachable peer => Sys2Proof.Machine.execLinkPeerUnreachable peer s
  | .linkFlitTimeout peer chan => Sys2Proof.Machine.execLinkFlitTimeout peer chan s
  | .linkPeerReachable peer => Sys2Proof.Machine.execLinkPeerReachable peer s
  | .atom op dbl h b o off => Sys2Proof.Machine.execAtom op dbl h b o off s
  | .atomnr op dbl h b o off => Sys2Proof.Machine.execAtomnr op dbl h b o off s
  | .fatom op h b o off => Sys2Proof.Machine.execFatom op h b o off s
  | .fatomnr op h b o off => Sys2Proof.Machine.execFatomnr op h b o off s
  | .cas dbl h b d o off => Sys2Proof.Machine.execCas dbl h b d o off s
  | .atomk op dbl h b d e => Sys2Proof.Machine.execAtomk op dbl h b d e s
  | .cask dbl h b d e => Sys2Proof.Machine.execCask dbl h b d e s
  | .qpush h b o off => Sys2Proof.Machine.execQpush h b o off s
  | .qpop h o off => Sys2Proof.Machine.execQpop h o off s
  | .dcdec h off => Sys2Proof.Machine.execDcdec h off s
  | .nbx op a o => Sys2Proof.Machine.execNbx op a o s
  | .walkComplete n => Sys2Proof.Machine.execWalkComplete n s
  | .scratchpadPageFill page => Sys2Proof.Machine.execScratchpadPageFill page s
  | .stagedToRunning core => Sys2Proof.Machine.execStagedToRunning core s
  | .owlPlace die => Sys2Proof.Machine.execOwlPlace die s
  | .owlUnstage die => Sys2Proof.Machine.execOwlUnstage die s
  | .owlPreempt die => Sys2Proof.Machine.execOwlPreempt die s
  | .equalPriorityTimeslice die => Sys2Proof.Machine.execEqualPriorityTimeslice die s
  | .abortComplete ctx rcb => Sys2Proof.Machine.execAbortComplete ctx rcb s
  | .launchAccept ctx queue => Sys2Proof.Machine.execLaunchAccept ctx queue s
  | .distributionPass die serial => Sys2Proof.Machine.execDistributionPass die serial s
  | .cursorEnqueue die => Sys2Proof.Machine.execCursorEnqueue die s
  | .clqDrain home => Sys2Proof.Machine.execClqDrain home s
  | .replayHoldRelease stream => Sys2Proof.Machine.execReplayHoldRelease stream s
  | .launchRetire serial => Sys2Proof.Machine.execLaunchRetire serial s
  | .peerAccessArrival chip port pa op => Sys2Proof.Machine.execPeerAccessArrival chip port pa op s
  | .hostWrite ctx va bytes => Sys2Proof.Machine.execHostWrite ctx va bytes s
  | .hostRead ctx va n => Sys2Proof.Machine.execHostRead ctx va n s
  | .hostCompletionTimeout stream => Sys2Proof.Machine.execHostCompletionTimeout stream s
  | .lineUncorrectableError line => Sys2Proof.Machine.execLineUncorrectableError line s
  | .poolEntryUe handle readable => Sys2Proof.Machine.execPoolEntryUe handle readable s
  | .dcWordUe pa => Sys2Proof.Machine.execDcWordUe pa s
  | .parityError handle => Sys2Proof.Machine.execParityError handle s
  | .functionLevelReset fn => Sys2Proof.Machine.execFunctionLevelReset fn s
  | .thermalTrip die temp => Sys2Proof.Machine.execThermalTrip die temp s
  | .throttleHold cycles => Sys2Proof.Machine.execThrottleHold cycles s
  | .cqtailDoorbell fn v => Sys2Proof.Machine.execCqtailDoorbell fn v s
  | .cpheadWrite fn v => Sys2Proof.Machine.execCpheadWrite fn v s
  | .ctrlWrite fn v => Sys2Proof.Machine.execCtrlWrite fn v s
  | .prdbWrite fn v => Sys2Proof.Machine.execPrdbWrite fn v s
  | .doorbellRegisterWrite fn off v => Sys2Proof.Machine.execDoorbellRegisterWrite fn off v s
  | .createContext c mib spill chanFirst chanCount prBase prSize => Sys2Proof.Machine.execCreateContext c mib spill chanFirst chanCount prBase prSize s
  | .destroyContext c => Sys2Proof.Machine.execDestroyContext c s
  | .map c va leaf => Sys2Proof.Machine.execMap c va leaf s
  | .unmap c va count => Sys2Proof.Machine.execUnmap c va count s
  | .pin c va => Sys2Proof.Machine.execPin c va s
  | .registerTemplate c ttbl => Sys2Proof.Machine.execRegisterTemplate c ttbl s
  | .launch c queue packet csva cssz csfmt => Sys2Proof.Machine.execLaunch c queue packet csva cssz csfmt s
  | .abortRcb c rcb => Sys2Proof.Machine.execAbortRcb c rcb s
  | .readFaultLog c rcb max => Sys2Proof.Machine.execReadFaultLog c rcb max s
  | .buffersRead c die first count => Sys2Proof.Machine.execBuffersRead c die first count s
  | .buffersReadClear c die first count => Sys2Proof.Machine.execBuffersReadClear c die first count s
  | .buffersClear c die first count => Sys2Proof.Machine.execBuffersClear c die first count s
  | .buffersProgram c die first count ctl => Sys2Proof.Machine.execBuffersProgram c die first count ctl s
  | .attest c => Sys2Proof.Machine.execAttest c s
  | .resetFunction c fn => Sys2Proof.Machine.execResetFunction c fn s
  | .traceSet c mask n base wthresh logN logVa => Sys2Proof.Machine.execTraceSet c mask n base wthresh logN logVa s
  | .traceRead c => Sys2Proof.Machine.execTraceRead c s
  | .traceSettail c tail => Sys2Proof.Machine.execTraceSettail c tail s
  | .debugAttach c => Sys2Proof.Machine.execDebugAttach c s
  | .debugDetach c => Sys2Proof.Machine.execDebugDetach c s
  | .debugHalt c => Sys2Proof.Machine.execDebugHalt c s
  | .debugResume c => Sys2Proof.Machine.execDebugResume c s
  | .debugStep c handle => Sys2Proof.Machine.execDebugStep c handle s
  | .rootComplexCompletion stream bytes error => Sys2Proof.Machine.execRootComplexCompletion stream bytes error s
  | .peerHomeAnswer stream bytes refused poisoned => Sys2Proof.Machine.execPeerHomeAnswer stream bytes refused poisoned s
  | .linkSendAccepted peer chan recvCount => Sys2Proof.Machine.execLinkSendAccepted peer chan recvCount s
  | .peerServiceRequest chip pa size svc => Sys2Proof.Machine.execPeerServiceRequest chip pa size svc s
  | .configurationRequest fn write numVfs => Sys2Proof.Machine.execConfigurationRequest fn write numVfs s
  | .lineEntry => Sys2Proof.Machine.execLineEntry s
  | .queueDispatch => Sys2Proof.Machine.execQueueDispatch s
  | .nop => Sys2Proof.Machine.execNop s
  | .ret => Sys2Proof.Machine.execRet s
  | .mark => Sys2Proof.Machine.execMark s
  | .waitaSatisfied => Sys2Proof.Machine.execWaitaSatisfied s
  | .waitaTimeout => Sys2Proof.Machine.execWaitaTimeout s
  | .semWaitSatisfied => Sys2Proof.Machine.execSemWaitSatisfied s
  | .semWaitTimeout => Sys2Proof.Machine.execSemWaitTimeout s
  | .yield => Sys2Proof.Machine.execYield s
  | .done => Sys2Proof.Machine.execDone s
  | .doneSuccessorDecrement => Sys2Proof.Machine.execDoneSuccessorDecrement s
  | .tflush => Sys2Proof.Machine.execTflush s
  | .thunkSemWait => Sys2Proof.Machine.execThunkSemWait s
  | .matrixCommandComplete => Sys2Proof.Machine.execMatrixCommandComplete s
  | .afence => Sys2Proof.Machine.execAfence s
  | .preemptionCut => Sys2Proof.Machine.execPreemptionCut s
  | .cycusedUpdate => Sys2Proof.Machine.execCycusedUpdate s
  | .budget => Sys2Proof.Machine.execBudget s
  | .wdog => Sys2Proof.Machine.execWdog s
  | .powerOn => Sys2Proof.Machine.execPowerOn s
  | .perstAssert => Sys2Proof.Machine.execPerstAssert s
  | .stepEnd => Sys2Proof.Machine.execStepEnd s

end Sys2Proof.Machine
end

