-- ==== Sys2Proof/Machine/Early.lean ====
section
/-! DEFINITION. What happens of an access before it performs, as its task and others can observe it: an entry begins or is sent behind
earlier ones, takes the value of a granule, or acts at its home; the writes of an access are computed, and land one granule at a time
(R19, R272, R300, R382, R383, R389). -/

namespace Sys2Proof.Machine

/-- The acting task can begin something: it runs, no stop of it is coming, and it waits for no page (R425). -/
def Task.free (t : Task) : Bool := t.isRunning && !t.holding && t.flow.page.isNone && t.flow.due.isNone

/-- A step of part of an access, when the task stands where it stood; else nothing happens. -/
def keepIf (s : State) (ok : State → Bool) (o : Host.Outcome State Fault Refusal) : State :=
  match o with
  | .next s' =>
    if s'.cur.tid == s.cur.tid && s'.cur.isRunning && s'.cur.holding == s.cur.holding && s'.cur.flow.due.isNone && ok s' then
      { s' with act := none, air := none }
    else s
  | _ => s

/-! ## Beginning (R19, R272, R382) -/

/-- An LDQ entry begins behind earlier ones that wait: its tokens are there and none of those waits for the same FIFO; there is room for
what it and they give, and none of them lacks room (R19). -/
def State.mayStart (s : State) (e : Entry) (earlier : List Entry) : Bool :=
  let t := s.cur
  let waiting := earlier.filter fun x => !x.under
  let waits (x : Entry) := waitFifos .ldq (Instr.tokens x.ins)
  let gives (x : Entry) := giveFifos .ldq (Instr.tokens x.ins)
  !e.under && s.mayBegin e &&
  (waits e).all (fun i => t.regs.tok.get i != 0 && !(waiting.any fun x => (waits x).contains i)) &&
  !(waiting.any t.noRoom) &&
  (gives e).all fun i =>
    decide (t.regs.tok.get i + t.owed .ldq i + (waiting.filter fun x => (gives x).contains i).length < fifoDepth)

/-- The target of an atomic that its home can perform without a fault of its own: its VA and size, and whether it needs local HBM; none
for queue operations, nbx and afence (R265, R276, R281). -/
def Entry.word? (e : Entry) : Option (Word × Nat × Bool) :=
  match e.ins with
  | .atom _ dbl _ _ _ off | .atomnr _ dbl _ _ _ off | .cas dbl _ _ _ _ off => some (e.target off, atSize dbl, false)
  | .fatom _ _ _ _ off | .fatomnr _ _ _ _ off => some (e.target off, 4, false)
  | .atomk _ dbl _ _ _ k | .cask dbl _ _ _ k => some (e.base + sext 8 k.off8 * BitVec.ofNat 64 (atSize dbl), atSize dbl, true)
  | .dcdec _ off => if (e.target off).toNat % 64 = 8 then some (e.target off, 8, true) else none
  | _ => none

/-- The line of an atomic that passes the checks of its target (R266). -/
def State.atomLine (s : State) (e : Entry) : Option (Nat × Nat) :=
  match e.word?, e.leaf? with
  | some (va, n, near), some l =>
    if va.toNat % n = 0 ∧ leafW l = true ∧ leafDlt l = false ∧ leafAp l ≠ 2 ∧ (leafAp l ≠ 1 ∨ leafRap l = true) ∧
        (near = false ∨ localHbm l = true) then
      some ((placeOf l va s.cur.cluster).1.code, (placeOf l va s.cur.cluster).2 / 64)
    else none
  | _, _ => none

/-- An ATM entry is sent: in queue order, after its checks, when s60 has room for what it and those before it append (R272). -/
def State.maySend (s : State) (e : Entry) (earlier : List Entry) : Bool :=
  !e.under && (s.atomLine e).isSome && s.mayBegin e && !s.cur.atmFull e &&
  earlier.all fun x => x.under && (s.atomLine x).isSome

/-- The i-th entry of LDQ or ATM begins. -/
def earlyBegin (k : Stream) (i : Nat) (s : State) : State :=
  let q := s.cur.queue k
  match q[i]? with
  | none => s
  | some e =>
    let ok := match k with
      | .ldq => s.mayStart e (q.take i)
      | .atm => s.maySend e (q.take i)
      | _ => false
    if !ok then s else
    let regs := (waitFifos k (Instr.tokens e.ins)).foldl Regs.takeTok s.cur.regs
    { s with cur := { s.cur with regs }.setQueue k (q.set i { e with taken := true }) }

/-! ## Taking values (R382) -/

/-- The granules that an access takes at once with one of them: a stored block of its delta page whole, a line of a memory-side page or
of what it reads beside its own page, else the granule (R287, R372, R389). -/
def takeUnit (own : Option Word) (cluster : Nat) (g : Granule) : List Granule :=
  let line := (List.range 4).map fun i => (g.1, g.2 / 4 * 4 + i)
  if g.1 = scratchCode then [g] else
  match own with
  | none => line
  | some l =>
    let frame := leafPfn l * 256
    if leafDlt l = true ∧ g.1 = 0 ∧ frame ≤ g.2 ∧ g.2 < frame + 512 then (List.range 512).map fun i => (0, frame + i)
    else if leafMs l then line
    else
      let p := placeOf l 0 cluster
      if p.1.code = g.1 ∧ p.2 / 16 ≤ g.2 ∧ g.2 < p.2 / 16 + pageBytes (leafSz l) / 16 then [g] else line

/-- Some result that a thunk dispatched before an access has not written whole lies in a granule (R172). -/
def State.inPuts (s : State) (ord : Nat) (g : Granule) : Bool :=
  s.cur.puts.any fun p => ((findThunk s.cur.thunks p.thk).any fun t => decide (t.ord < ord)) &&
    (p.landing.todo.any (·.on g) || p.landing.done.contains g)

/-- The bytes of a granule: memory's, or the scratchpad's. -/
def State.granule (s : State) (g : Granule) : List Byte :=
  if g.1 = scratchCode then Mem.readN s.cur.scratch (16 * g.2) 16 else Mem.readN (s.memOf (Space.ofCode g.1)) (16 * g.2) 16

/-- The granules of a unit can be taken: none is poisoned, none is a result that is being written, and of the scratchpad those of filled
pages; of a place outside the chip those that the home has answered (R353, R395, R434). -/
def State.mayTake (s : State) (ord : Nat) (outside : Bool) (unit : List Granule) : Bool :=
  unit.all fun g =>
    !s.inPuts ord g &&
    (if g.1 = scratchCode then decide (4096 ≤ g.2) && s.cur.filled.getLsbD ((16 * g.2 - 0x10000) / 4096)
     else (decide (g.1 < 2) || outside) && !s.poisoned (Space.ofCode g.1) (16 * g.2) 16)

/-- A load may take the value of a granule: it has begun, its home has answered, the granule is one that it may read, and pages with
TSO = 1 keep their order (R382, R390). -/
def State.mayRead (s : State) (e : Entry) (earlier : List Entry) (g : Granule) : Bool :=
  e.under && !(e.reads.any (·.1 == g)) && !(s.mayTso e && earlier.any s.mayTso) &&
  (match e.ins with
    | .vlsp .. =>
      let a := ((e.caps.getD 0 0).toNat)
      g.1 == scratchCode && decide (a % 4 = 0) && inScratch s.cur (e.caps.getD 0 0) 256 && placesMeet [(g.1, 16 * g.2, 16)] [(scratchCode, a, 256)]
    | _ => e.leaf?.isSome && g.1 != scratchCode && (s.mayTouch e).all fun l => placesMeet [(g.1, 16 * g.2, 16)] l)

/-- The i-th entry of LDQ takes the value of a granule, and of those that it takes at once with it; later loads keep no older value of
their bytes (R382). -/
def earlyLoad (i : Nat) (g : Granule) (s : State) : State :=
  let q := s.cur.queue .ldq
  match q[i]? with
  | none => s
  | some e =>
    let unit := takeUnit e.leaf? s.cur.cluster g
    let outside := e.answer == .done && e.leaf?.any fun l => leafAp l != 0
    if !(s.mayRead e (q.take i) g && s.mayTake e.ord outside unit) then s else
    let e' := { e with reads := unit.map (fun g => (g, s.granule g)) ++ e.reads }
    let later := (q.drop (i + 1)).map fun x => unit.foldl (fun x g => x.dropReads s.cur.cluster (g.1, 16 * g.2, 16)) x
    { s with cur := s.cur.setQueue .ldq (q.take i ++ e' :: later) }

/-- The entry at the head of TIL or SKQ takes the value of a granule before its access, once no thunk that it may demand waits for a
semaphore (R159, R382). -/
def earlyHead (k : Stream) (g : Granule) (s : State) : State :=
  match s.cur.queue k with
  | [] => s
  | e :: rest =>
    let unit := takeUnit none s.cur.cluster g
    let waits := s.cur.thunks.any fun t => !t.complete && t.waitSem.isSome && !t.waitTaken
    if e.landing.isSome || waits || g.1 == scratchCode || e.reads.any (·.1 == g) || !s.mayTake e.ord false unit then s else
    { s with cur := s.cur.setQueue k ({ e with reads := unit.map (fun g => (g, s.granule g)) ++ e.reads } :: rest) }

/-- The command that an engine runs takes the value of a granule of its source. -/
def earlyCopy (engine : Bool) (g : Granule) (s : State) : State :=
  match s.cur.vcq.find? fun k => k.engine == some engine && !k.complete && !k.moved with
  | none => s
  | some k =>
    let unit := takeUnit none s.cur.cluster g
    if g.1 == scratchCode || k.reads.any (·.1 == g) || !s.mayTake k.ord false unit then s else
    { s with cur := { s.cur with vcq := s.cur.vcq.map fun x =>
        if x.num = k.num then { x with reads := unit.map (fun g => (g, s.granule g)) ++ x.reads } else x } }

/-! ## Atomics at their home (R272, R383) -/

/-- An atomic that has been sent may act at its home: the home has answered, and those sent before it to the same line have acted (R272,
R383). -/
def State.mayAct (s : State) (e : Entry) (earlier : List Entry) : Bool :=
  e.taken && e.result.isNone && (s.atomLine e).isSome && (e.leaf?.all fun l => leafAp l == 0 || e.answer == .done) &&
  earlier.all fun x => x.result.isSome || s.atomLine x != s.atomLine e

/-- The i-th entry of ATM acts at its home; what it returns waits until it performs. -/
def earlyAtomic (i : Nat) (s : State) : State :=
  let t := s.cur
  let q := t.queue .atm
  match q[i]? with
  | none => s
  | some e =>
    if !s.mayAct e (q.take i) then s else
    let start := t.setQueue .atm [e]
    let o := exec e.ins { s with act := some e, cur := { start with regs := start.regs.wrPort 4 [] } }
    let done := keepIf s (fun s' => (s'.cur.queue .atm).isEmpty && (s'.cur.regs.rdPort 4).all (!·.poisoned)) o
    if (done.cur.queue .atm).length = q.length then s else
    let u := done.cur.setQueue .atm (q.set i { e with result := some ((done.cur.regs.rdPort 4).map (·.val)) })
    { done with cur := { u with regs := u.regs.wrPort 4 (t.regs.rdPort 4) } }

/-! ## Writes that land later (R389) -/

/-- Writes of the acting task begin to land with this access: some are there that were not. -/
def State.startsLanding (before s : State) : Bool :=
  decide (((before.cur.landings.flatMap (·.todo)).length < (s.cur.landings.flatMap (·.todo)).length)) ||
  decide (((before.cur.queue .stq).filterMap (·.adds)).length < ((s.cur.queue .stq).filterMap (·.adds)).length)

/-- The entry at the head of a queue computes its writes, or a sub-tile that it demands is computed; they land later. -/
def partHead (k : Stream) (s : State) : State :=
  match s.cur.queue k with
  | [] => s
  | e :: _ =>
    if e.acted || s.cur.puts.isSome then s else
    let s1 := { s with act := some e, air := some [] }
    keepIf s s.startsLanding (match e.ins with
      | .vfaddnr d _ m off _ => runM (faddnrPart d m off e) s1
      | i => exec i s1)

/-- The matrix engine computes the next sub-tile of TIL's demand; its results land later. -/
def partMx (s : State) : State :=
  if s.cur.puts.isSome then s else keepIf s s.startsLanding (execMatrixCommandComplete { s with air := some [] })

/-- A copy engine moves one unit of its command, or takes one and computes a sub-tile for it; what it writes lands later. -/
def partCopy (engine : Bool) (s : State) : State :=
  if s.cur.vcq.any fun k => k.engine == some engine && !k.complete then keepIf s (fun _ => true) (copyUnit engine { s with air := some [] })
  else if s.cur.puts.isSome then s
  else keepIf s s.startsLanding (execCopyHandout engine { s with air := some [] })

/-- One granule of the first landing of a list that may land lands. -/
def State.landFirst (s : State) (x : LandSrc) (g : Granule) : List Landing → Option (State × List Landing)
  | [] => none
  | l :: rest =>
    match s.landOne x l g with
    | some (s, l) => some (s, l :: rest)
    | none => (s.landFirst x g rest).map fun r => (r.1, l :: r.2)

/-- One granule of what ended accesses of a path have left to land lands. -/
def landAdrift (p : Path) (g : Granule) (s : State) : State :=
  let mine := s.cur.adrift.filter (·.1 == p)
  match s.landFirst ⟨0, 0⟩ g (mine.map (·.2)) with
  | none => s
  | some (s, l) =>
    let s := (l.filter fun x => x.todo.isEmpty).foldl State.cleaned s
    { s with cur := { s.cur with adrift := s.cur.adrift.filter (·.1 != p) ++ (l.filter fun x => !x.todo.isEmpty).map fun x => (p, x) } }

/-- The path of what a queue's ended accesses have left to land. -/
def driftPath : Stream → Path
  | .skq => .sk
  | .lnk => .lk
  | .cpy => .cp
  | _ => .mx

/-- One granule of what the entries of a queue are writing lands, or one line of words that a vfaddnr adds. -/
def landQueue (k : Stream) (g : Granule) (s : State) : State :=
  let q := s.cur.queue k
  match q.findIdx? fun e => (e.landing.any fun l => (l.ready g).isSome) || e.adds.isSome with
  | none => landAdrift (driftPath k) g s
  | some i =>
    match q[i]? with
    | none => s
    | some e =>
      match e.landing with
      | some l =>
        (match s.landOne (s.landSrc e) l g with
          | none => s
          | some (s, l) => { s with cur := s.cur.setQueue k (q.set i { e with landing := some l }) })
      | none =>
        if i = 0 ∧ e.stream = .stq then keepIf s (fun _ => true) (runM (faddnrLine g.1 (g.2 / 4) e) s) else s

/-- One granule of a sub-tile's results lands. -/
def landPuts (g : Granule) (s : State) : State :=
  match s.cur.puts with
  | none => landAdrift .mx g s
  | some p =>
    match s.landOne ⟨0, 0⟩ p.landing g with
    | none => s
    | some (s, l) => { s with cur := { s.cur with puts := some { p with landing := l } } }

/-- One granule of what a copy engine has moved lands. -/
def landCopyOne (engine : Bool) (g : Granule) (s : State) : State :=
  match s.cur.vcq.find? fun k => k.engine == some engine && !k.complete with
  | none => landAdrift .cp g s
  | some k =>
    match k.landing.bind fun l => s.landOne ⟨0, 0⟩ l g with
    | none => landAdrift .cp g s
    | some (s, l) =>
      { s with cur := { s.cur with vcq := s.cur.vcq.map fun x => if x.num = k.num then { x with landing := some l } else x } }

/-! ## Ending before all has landed (R25, R102; log 61) -/

/-- The head of a queue performs while its writes still land. -/
def driftHead (k : Stream) (s : State) : Host.Outcome State Fault Refusal :=
  match s.cur.queue k with
  | [] => .next s
  | e :: _ =>
    match k, e.landing with
    | .lnk, some _ => runM (linkDrift e) s
    | .skq, some l | .til, some l =>
      runM (do
        modTask fun t => { (t.setQueue k (t.queue k).tail) with adrift := t.adrift ++ [(driftPath k, l)] }
        stopDue) s
    | _, _ => .next s

/-- Something happens of an access of the acting task before it performs. -/
def earlyAct (u : Mover) (x : Early) (s : State) : Host.Outcome State Fault Refusal :=
  match x with
  | .land space g =>
    (match u with
    | .queue k => .next (if k = .lnk || s.cur.isRunning then landQueue k (space, g) s else s)
    | .mx => .next (landPuts (space, g) s)
    | .copy engine => .next (landCopyOne engine (space, g) s))
  | x =>
    if !s.cur.free then .next s else
    match u, x with
    | .queue k, .begin i => .next (earlyBegin k i s)
    | .queue .ldq, .take i space g => .next (earlyLoad i (space, g) s)
    | .queue .til, .take _ space g => .next (earlyHead .til (space, g) s)
    | .queue .skq, .take _ space g => .next (earlyHead .skq (space, g) s)
    | .queue .atm, .act i => .next (earlyAtomic i s)
    | .queue k, .act _ => driftHead k s
    | .queue k, .part => .next (partHead k s)
    | .mx, .part => .next (partMx s)
    | .mx, .act _ => runM driftPuts' s
    | .copy engine, .take _ space g => .next (earlyCopy engine (space, g) s)
    | .copy engine, .part => .next (partCopy engine s)
    | .copy engine, .act _ => copyDrift engine s
    | _, _ => .next s
where
  /-- The sub-tile whose results land is done, where its thunk gives no signal. -/
  driftPuts' : M Unit := do
    let t ← theTask
    let signals := t.puts.any fun p => (findThunk t.thunks p.thk).any fun k => ((Instr.mmExt? k.ins).bind (·.sig)).isSome
    if signals then stall
    driftPuts

end Sys2Proof.Machine
end

