-- ==== Sys2Proof/Machine/Moves.lean ====
section
/-! DEFINITION. Who moves in a step, and what the move does: the sequencer of a task, the head of a queue, an event, a
command of a function, or a store of the host or of a peer chip to its own memory (R18, R60, R163, R463; log 1). -/

namespace Sys2Proof.Machine

/-- An instruction that no stream and no command ring holds: an event of the machine or of its surroundings. -/
def Instr.isEvent : Instr → Bool
  | .copyHandout _ | .copyComplete _ => true
  | .linkFlitReceive .. | .flitCrcRetry _ | .linkPeerUnreachable _ | .linkFlitTimeout .. | .linkPeerReachable _ => true
  | .linkSendAccepted .. => true
  | .walkComplete _ | .scratchpadPageFill _ | .stagedToRunning _ => true
  | .owlPlace _ | .owlUnstage _ | .owlPreempt _ | .equalPriorityTimeslice _ => true
  | .abortComplete .. | .launchAccept .. | .distributionPass .. | .cursorEnqueue _ | .clqDrain _ | .launchRetire _ => true
  | .replayHoldRelease _ => true
  | .peerAccessArrival .. | .hostWrite .. | .hostRead .. | .hostCompletionTimeout _ => true
  | .lineUncorrectableError _ | .poolEntryUe .. | .dcWordUe _ | .parityError _ => true
  | .functionLevelReset _ | .thermalTrip .. | .throttleHold _ => true
  | .cqtailDoorbell .. | .cpheadWrite .. | .ctrlWrite .. | .prdbWrite .. | .doorbellRegisterWrite .. => true
  | .rootComplexCompletion .. | .peerHomeAnswer .. | .peerServiceRequest .. | .configurationRequest .. => true
  | .waitaSatisfied | .waitaTimeout | .semWaitSatisfied | .semWaitTimeout => true
  | .thunkSemWait | .matrixCommandComplete | .preemptionCut | .cycusedUpdate | .budget | .wdog => true
  | .powerOn | .perstAssert => true
  | _ => false

/-! ## The sequencer of a task -/

/-- What the sequencer stands at: equal before and after an attempt that was held (R425). -/
def Task.stand (t : Task) : Word × Nat × Bool × BitVec 32 × Option Nat :=
  (t.flow.line, t.flow.lane, t.flow.entered, t.num .seq, t.flow.finishing)

/-- Note whether the sequencer's attempt was held. -/
def noteHeld (before : Task) (s : State) : State :=
  if s.cur.isRunning && s.cur.tid == before.tid then
    { s with cur := { s.cur with flow := { s.cur.flow with stalled := s.cur.stand == before.stand } } }
  else s

/-- The results that an instruction leaves in flight in a task: of a latency above 1, to a register that is no port (R80, R429). -/
def Task.flights (t : Task) (i : Instr) : List InFlight :=
  let delay := Instr.latency i
  if delay ≤ 1 then [] else
  match i with
  | .xlt h _ _ _ _ => [⟨2, h.toNat, BitVec.ofNat 64 (t.regs.rdH h).bind.word.1, delay⟩]
  | i => (i.dsts.filter fun d => d != 0 && !isPort d).map fun d => ⟨0, d.toNat, t.regs.rd d, delay⟩

/-- Note what an instruction that the sequencer has handled leaves in flight. -/
def noteResult (before : Task) (i : Instr) (s : State) : State :=
  if s.cur.isRunning && s.cur.tid == before.tid && s.cur.num .seq != before.num .seq then
    { s with cur := { s.cur with ifq := s.cur.ifq ++ s.cur.flights i } }
  else s

/-- An outcome with its next state changed. -/
def mapNext (f : State → State) : Host.Outcome State Fault Refusal → Host.Outcome State Fault Refusal
  | .next s => .next (f s)
  | o => o

/-- A timed wait in progress: its end when its condition holds, else its end by timeout (R101, R103). -/
def timedMove (w : Timed) (s : State) : Host.Outcome State Fault Refusal :=
  let (sat, out) : Instr × Instr := match w with
    | .word .. => (.waitaSatisfied, .waitaTimeout)
    | .sem .. => (.semWaitSatisfied, .semWaitTimeout)
  match exec sat s with
  | .next s' => if s'.cur.tid == s.cur.tid && s'.cur.flow.timed.isSome then exec out s' else .next s'
  | o => o

/-- The next lane of an entered line: a breakpoint, a decode fault, or an instruction, once the registers that it names hold their
results (R60, R63, R80, R451). -/
def laneMove (s : State) : Host.Outcome State Fault Refusal :=
  match s.laneAct with
  | .stop i => .next (s.breakStop i)
  | .bad k code => runM (badLane k code) s
  | .run _ i => if s.cur.awaits i then .next s else mapNext (noteResult s.cur i) (exec i { s with act := none })

/-- The acting task's sequencer moves; no line is entered while a stop of the task is coming (R425). -/
def sequencerAct (s : State) : Host.Outcome State Fault Refusal :=
  let f := s.cur.flow
  if f.page.isSome || s.cur.frozen then .next s
  else if f.due.isSome then runM stopDue s
  else if f.stepping && f.stepDone then exec .stepEnd s
  else if f.finishing.isSome then exec .doneSuccessorDecrement s
  else match f.timed with
  | some w => timedMove w s
  | none =>
    if f.entered then laneMove s
    else if s.cur.holding then .next s
    else exec .lineEntry s

/-- The state in which a task of a handle number acts, when it holds a pool entry. -/
def State.acting (s : State) (tid : Nat) : Option State :=
  let s := s.focus tid
  if s.cur.status ≠ .idle ∧ s.cur.tid = tid then some s else none

/-- The sequencer of a task moves, if the task runs. -/
def sequencerMove (tid : Nat) (s : State) : Host.Outcome State Fault Refusal :=
  match s.acting tid with
  | none => .next s
  | some s => if s.cur.isRunning then mapNext (noteHeld s.cur) (sequencerAct s) else .next s

/-! ## The queues of a task -/

/-- The entry of a queue that acts: its head; of the link queue its head once it is done, else the first transfer that
has not begun (R302, R426). -/
def Task.actor (t : Task) (k : Stream) : Option Entry :=
  match k with
  | .lnk =>
    match (t.queue .lnk).head? with
    | none => none
    | some e => if e.linkDone then some e else (t.queue .lnk).find? fun x => !x.begun && !x.linkDone
  | k => (t.queue k).head?

/-- While a stop of the task is coming only what has begun goes on: an entry that has begun or been sent, a link transfer, and the
entry for which the matrix engine is in the middle of a command (R425, R426). -/
def Task.goesOn (t : Task) (k : Stream) (e : Entry) : Bool :=
  !t.holding || e.under || (k == .lnk && (e.begun || e.linkDone)) || (t.mx.isSome && t.badger == some k)

/-- While a stop of the task is coming, the sub-tile of a queue's demand whose results are landing ends (R389, R425). -/
def Task.endsPuts (t : Task) (k : Stream) : Bool := t.holding && t.puts.isSome && t.badger == some k

/-- A queue of the acting task moves; held link status words come first (R426). -/
def queueAct (k : Stream) (s : State) : Host.Outcome State Fault Refusal :=
  if s.cur.flow.page.isSome || s.cur.flow.due.isSome then .next s
  else if !s.cur.heldLnk.isEmpty then runM (drainHeld 1) s
  else if s.cur.endsPuts k then runM finishPuts s
  else match s.cur.actor k with
    | none => .next s
    | some e => if s.cur.goesOn k e then exec e.ins { s with act := some e } else .next s

/-- The fields of an RCB that the L9 alone writes: offset and length (R29). -/
def ownFields : List (Nat × Nat) := [(0x0B, 1), (0x2C, 4), (0x34, 4), (0x50, 4), (0x60, 8), (0x68, 8), (0x70, 8), (0x78, 8)]

/-- Accesses of this step have written a byte of a field of an RCB (R29). -/
def State.wroteField (s : State) (n : Nat) (rcb : Word) (x : Nat × Nat) : Bool :=
  match s.ctxChunks n (rcb + BitVec.ofNat 64 x.1) x.2 with
  | .ok cs => cs.any fun c => c.space == .hbm && s.wrote.any fun w => decide (w.1 < c.addr + c.len ∧ c.addr < w.1 + w.2)
  | .error _ => false

/-- A write that an access made to a field of an RCB that the L9 alone writes leaves it undefined, a free value, but for STATE from 2
to 0 while LIVE is 0 (R29). -/
def State.spoilField (before : State) (n : Nat) (rcb : Word) (s : State) (x : Nat × Nat) : State :=
  let old := before.rcbNum n rcb x.1 x.2
  let new := s.rcbNum n rcb x.1 x.2
  if !s.wroteField n rcb x || decide (x.1 = 0x0B ∧ old = 2 ∧ new = 0 ∧ s.rcbNum n rcb 0x50 4 = 0) then s else
  { s with free := s.free + 1 }.setRcb n rcb x.1 x.2 ((Config.freeWord s.free).toNat % 2 ^ (8 * x.2))

/-- The RCB fields that accesses have written in a step (R29). -/
def State.spoil (before s : State) : State :=
  if s.wrote.isEmpty then s else
  s.ctxs.foldl (fun s c => (s.knownRcbs c.number).foldl (fun s r => ownFields.foldl (before.spoilField c.number r) s) s) s

/-- A queue of a task moves, if the task runs. -/
def queueMove (tid : Nat) (k : Stream) (s : State) : Host.Outcome State Fault Refusal :=
  match s.acting tid with
  | none => .next s
  | some s =>
    if s.cur.isRunning then queueAct k s else .next s

/-! ## Events and commands -/

/-- An event that begins work for a task: none begins while a stop of the task is coming, but a demand in the middle of a command, or
whose results are landing, ends that (R425). -/
def Task.begins (t : Task) : Instr → Bool
  | .matrixCommandComplete => t.mx.isNone && t.puts.isNone
  | .copyHandout _ => !(t.mx.isSome && t.badger == some .cpy)
  | _ => false

/-- An event happens, to a task where one is named. -/
def eventMove (tid : Option Nat) (i : Instr) (s : State) : Host.Outcome State Fault Refusal :=
  if !Instr.isEvent i then .next s else
  match tid with
  | none => exec i s
  | some t =>
    match s.acting t with
    | none => .next s
    | some s => if s.cur.holding && s.cur.begins i then .next s else exec i s

/-- Pliron executes the next command of a function's ring (R463 to R466). -/
def commandMove (fn : Nat) (s : State) : Host.Outcome State Fault Refusal :=
  let r := s.fnRegs fn
  if !s.commandWaits fn then .next s else
  let bs := s.hostGet (r.cmdBase + BitVec.ofNat 64 (64 * (r.cmdHead.toNat % r.cmdSize.toNat))) 64
  match decodeCommand (BitVec.ofNat 11 fn) bs with
  | some i => exec i s
  | none => badCommand ⟨BitVec.ofNat 11 fn, fieldAt 32 bs 4, fieldAt 64 bs 8, fieldAt 64 bs 16⟩ s

/-- What a move does. -/
def runMove (m : Move) (s : State) : Host.Outcome State Fault Refusal :=
  match m with
  | .sequencer tid => sequencerMove tid s
  | .queue tid k => queueMove tid k s
  | .early tid u x => (match s.acting tid with
    | none => .next s
    | some s => earlyAct u x s)
  | .flitPart peer chan count payload => mapNext State.grounded (exec (.linkFlitReceive peer chan count payload false) { s with air := some [] })
  | .event tid i => eventMove tid i s
  | .command fn => commandMove fn s
  | .hostStore a bs => .next { s with hostMem := Mem.writeN s.hostMem a bs }
  | .linkNews peer chan send count => linkNews peer chan send count s
  | .tagError block => .next { s with badTags := addTo s.badTags block }
  | .barRead fn off n => .next (barRead fn off n s)
  | .barWrite fn off bs => barWrite fn off bs s
  | .sense t p => .next { s with dieTemp := t, power := p }
  | .peerStore chip pa bs => .next { s with peerMem := Mem.writeN s.peerMem (chip * 2 ^ 52 + pa) bs }

/-! ## Who moves -/

/-- The landings of what ended accesses of a task have left to land (R25, R102; log 61). -/
def Task.driftMoves (t : Task) : List Move :=
  let mover : Path → Mover
    | .sk => .queue .skq
    | .lk => .queue .lnk
    | .cp => .copy false
    | _ => .mx
  t.adrift.flatMap fun x => x.2.todo.map fun p => Move.early t.tid (mover x.1) (.land p.space p.granule)

/-- The moves of a task that can lead to something. -/
def Task.moves (t : Task) : List Move :=
  match t.status with
  | .running _ =>
    .sequencer t.tid ::
    (Stream.all.filter fun k => !(t.queue k).isEmpty || (k == .lnk && !t.heldLnk.isEmpty) || t.endsPuts k).map (Move.queue t.tid) ++
    (if (t.queue .til).isEmpty then [] else [Move.event (some t.tid) .matrixCommandComplete]) ++
    (if t.thunks.isEmpty then [] else [Move.event (some t.tid) .thunkSemWait]) ++
    (if t.vcq.isEmpty then [] else [false, true].flatMap fun g =>
      [Move.event (some t.tid) (.copyHandout g), Move.event (some t.tid) (.copyComplete g)]) ++
    (t.held.map fun h => Move.event (some t.tid) (.replayHoldRelease h.1)) ++
    (if t.holding then [Move.event (some t.tid) .preemptionCut] else []) ++
    (if 65536 ≤ t.sys.uncharged then [Move.event (some t.tid) .cycusedUpdate] else []) ++
    [Move.event (some t.tid) .budget, Move.event (some t.tid) .wdog] ++ fills t ++ t.driftMoves
  | .staged c => Move.event none (.stagedToRunning c) :: fills t
  | _ => []
where
  /-- Fills of the scratchpad pages that are still missing (R353). -/
  fills (t : Task) : List Move :=
    ((List.range (min 32 t.pool.spp)).filter fun p => !t.filled.getLsbD p).map fun p =>
      Move.event (some t.tid) (.scratchpadPageFill (BitVec.ofNat 5 p))

/-- The moves of the scheduler of a die. -/
def State.dieMoves (s : State) (die : BitVec 2) : List Move :=
  (if s.tasks.any fun t => t.pool.die == die && t.isReady then
    [.event none (.owlPlace die), .event none (.owlUnstage die), .event none (.owlPreempt die),
     .event none (.equalPriorityTimeslice die)] else []) ++
  (if s.launches.any fun l => !(l.cursor.get die.toFin).isEmpty then [.event none (.cursorEnqueue die)] else [])

/-- The news of pairs of this chip with itself, and the loss of pairs that have received no flit for too long (R305). -/
def State.linkMoves (s : State) : List Move :=
  let begun (t : Task) : List Entry := (t.queue .lnk).filter fun e => e.begun && !e.linkDone
  ((s.tasks.flatMap fun t => ((begun t).filter Entry.timedOut).map fun e =>
      Move.event none (.linkFlitTimeout (BitVec.ofNat 10 e.peer) (BitVec.ofNat 8 e.chan))) ++
    s.tasks.flatMap fun t => ((begun t).filter fun e => BitVec.ofNat 10 e.peer == Config.chip).map fun e =>
      Move.linkNews e.peer e.chan (Instr.isSend e.ins) 0).eraseDups

/-- The moves of launches. -/
def State.launchMoves (s : State) : List Move :=
  s.launches.flatMap fun l =>
    if l.accepted then
      ((List.range 4).filter fun d => !l.dead && !l.passed.get (BitVec.ofNat 2 d).toFin).map (fun d =>
        Move.event none (.distributionPass (BitVec.ofNat 2 d) l.serial)) ++ [.event none (.launchRetire l.serial)]
    else [.event none (.launchAccept l.ctx l.queue)]

/-- Every move that can lead to something, the acting task's first. -/
def State.moves (s : State) : List Move :=
  s.tasks.flatMap Task.moves ++
  ((s.fns.map (·.1)).filter s.commandWaits).map Move.command ++
  ([0, 1, 2, 3] : List (BitVec 2)).flatMap s.dieMoves ++ s.launchMoves ++
  ((s.clq.map (·.home)).eraseDups.map fun h => Move.event none (.clqDrain h)) ++
  ((List.range s.walks.length).map fun i => Move.event none (.walkComplete i)) ++ s.linkMoves ++
  (if s.overBudget.isEmpty then [] else [Move.event none .budget]) ++
  (s.ctxs.flatMap fun c => ((s.knownRcbs c.number).filter fun r => s.rcbState c.number r == 1).map fun r =>
    Move.event none (.abortComplete c.number r))

/-- The move of this step: the first that is scheduled, else one of those that can lead to something, in turn (log 1). -/
def State.nextMove (s : State) : Option Move :=
  match s.sched with
  | m :: _ => some m
  | [] =>
    let l := s.moves
    l[s.turn % l.length]?

/-! ## The end of a step -/

/-- A timed wait of a running task as this cycle and the cycles that the step takes leave it: satisfied by what stands there now, else
ended where its timeout passes within them, unless its context's clocks stand still (R101, R103, R448). -/
def State.examine (s : State) (k : Nat) (t : Task) : Task :=
  if !t.isRunning then t else
  match t.flow.timed, t.flow.ended with
  | some w, none =>
    let time := s.timeOf t.pool.ctx
    if w.satisfied s t then t.meet w time
    else if w.expired s t then t.miss w time
    else match w.left with
      | some l => if l < k ∧ s.forcedWait t ≠ some true ∧ s.standsStill t.pool.ctx = false then t.miss w (time + l) else t
      | none => t
  | _, _ => t

/-- The record of a wait for a semaphore that ended now: its kind, its flag, its waiter and when it began (R453, R454). -/
def State.waitEnds (s : State) (t : Task) (wkind flag : Nat) (waiter : Word) (began : Nat) : State :=
  s.waitRec t wkind 0 flag waiter 0 began (s.timeOf t.pool.ctx) ((t.setter.lookup flag).map fun x => (x.1, x.2.1)) false

/-- The semaphore of a thunk that a wait in progress is for, when it can be taken now (R104, R159). -/
def Task.thunkSem (t : Task) (u : Option (BitVec 8)) : Option (Thunk × SemReg) :=
  ((u.bind (findThunk t.thunks)).bind fun k => k.waitSem.map fun sm => (k, sm)).filter fun x => !x.1.waitTaken && t.regs.rdSem x.2 != 0

/-- A thunk's semaphore is taken. -/
def Task.takeSem (t : Task) (k : Thunk) (sm : SemReg) : Task :=
  { t with
    regs := t.regs.wrSem sm (t.regs.rdSem sm - 1)
    thunks := modThunk t.thunks k.idx fun x => { x with waitTaken := true } }

/-- The lane 3 waits in progress at the heads of a task's queues, each satisfied by what stands there now (R104, R159). -/
def State.headTakes (p : State × Task) (k : Stream) : State × Task :=
  let (s, t) := p
  match t.queue k with
  | [] => p
  | e :: rest =>
    match (if e.waited = 0 then none else t.thunkSem e.waitThk) with
    | none => p
    | some (x, sm) =>
      (s.waitEnds t 1 sm.toNat (srcWord e.stream e.num) (e.waited - 1),
       (t.takeSem x sm).setQueue k ({ e with waited := 0, waitThk := none } :: rest))

/-- The waits in progress of copy commands, each satisfied by what stands there now: those of a demand's thunk, and those of WAITM, which
take from every semaphore named in one cycle (R104, R159, R298). -/
def State.copyTakes (p : State × Task) (c : CopySlot) : State × Task :=
  let (s, t) := p
  let mod (t : Task) (f : CopySlot → CopySlot) : Task := { t with vcq := t.vcq.map fun x => if x.num = c.num then f x else x }
  if c.began = 0 then p else
  match c.waitThk.isSome, t.thunkSem c.waitThk with
  | true, some (x, sm) =>
    (s.waitEnds t 1 sm.toNat (srcWord .cpy c.num) (c.began - 1), mod (t.takeSem x sm) fun x => { x with began := 0, waitThk := none })
  | true, none => p
  | false, _ =>
    if c.waitm.any fun i => t.regs.rdSem i == 0 then p else
    let last := ((t.setter.find? fun x => c.waitm.any fun i => i.toNat == x.1).map (·.1)).getD c.waitFlag
    (s.waitEnds t 2 last (srcWord .cpy c.num) (c.began - 1),
     mod { t with regs := c.waitm.foldl (fun g i => g.wrSem i (g.rdSem i - 1)) t.regs } fun x => { x with began := 0, met := true })

/-- The waits in progress of a task, tested against what stands there at the end of a step in the order SEQ, TIL, CPY; one that is
satisfied subtracts before the next is tested (R101, R103, R104). -/
def State.testWaits (k : Nat) (s : State) (t : Task) : State :=
  if !t.isRunning then s else
  let u := s.examine k t
  let s := if t.flow.ended.isNone then s.recordEnd u else s
  let p := Stream.all.foldl State.headTakes (s, { u with held := ((s.tasks.find? (·.tid == t.tid)).getD u).held })
  let p := (t.vcq.filter (·.waitThk.isSome)).foldl State.copyTakes p
  let p := (t.vcq.filter (·.waitThk.isNone)).foldl State.copyTakes p
  p.1.setTask p.2

/-- What a step does for a state goes nowhere. -/
def goesNowhere (f : State → Host.Outcome State Fault Refusal) (s : State) : Bool :=
  match f s with
  | .next s' => s' == s
  | _ => false

/-- What stands still only because a page is being moved goes on without the transit entries (R376, R422). -/
def State.inTransitOnly (s : State) (f : State → Host.Outcome State Fault Refusal) : Bool :=
  goesNowhere f s && !goesNowhere f { s with transit := [] }

/-- The waits of running tasks' accesses for pages that are being moved, but for those that a handle names: of the matrix engine, the
sketch unit and near-bank commands (tag 0), of copy commands and of link transfers (R375, R376, R422). -/
def State.transitWaits (s : State) : Waits :=
  if s.transit.isEmpty then [] else
  (s.tasks.filter Task.isRunning).flatMap fun t =>
    let s := s.focus t.tid
    let heads := (Stream.all.filter (· != .lnk)).filterMap fun k => (t.queue k).head?
    (heads.filterMap fun e =>
      if !s.lacks t e && s.inTransitOnly (fun s => exec e.ins { s with act := some e }) then some (s.waitOf t 0) else none) ++
    ([false, true].flatMap fun g => (t.vcq.filter fun c => c.engine == some g && !c.complete).filterMap fun c =>
      if s.inTransitOnly (copyRun g) then some (s.waitOf t (copyCmd c.bytes).btag.toNat) else none) ++
    ((t.actor .lnk).toList.filterMap fun e =>
      if s.inTransitOnly (fun s => exec e.ins { s with act := some e }) then some (s.waitOf t (Instr.lkTag e.ins).toNat) else none)

/-- The cycles that this step takes: at least one. -/
def State.cycles (s : State) : Nat := Config.elapsed s.turn + 1

/-- The cycles of a step pass: those that it takes, and those for which issue is held, which count as stalls of all heads (R376, R478). -/
def State.passTime (s : State) : State :=
  let moved := s.transitWaits
  let s := s.elapse s.cycles (s.headWaits s.lacks ++ moved)
  if s.hold = 0 then s else { s.elapse s.hold (s.headWaits (fun _ _ => true) ++ moved) with hold := 0 }

/-- After a move: fields that are undefined after it, handlers, services and resets that wait, waits in progress, and time. -/
def State.settle (before s : State) : State :=
  let s := { before.spoil s with act := none, air := none, wrote := [] }.seatAll.serveAll
  let s := s.flrs.foldl State.tryReset s
  let s := s.tasks.foldl (State.testWaits (s.cycles + s.hold)) s
  { s.passTime with turn := s.turn + 1, quiet := [] }

/-- The state a move starts from. -/
def State.begin (s : State) : State := { s with sched := s.sched.tail, throttle := false, act := none, air := none, wrote := [] }

/-- The same; a read of the module status page sees the hold that stood (R462, R478). -/
def State.beginFor (s : State) : Move → State
  | .barRead .. => { s.begin with throttle := s.throttle }
  | _ => s.begin

/-- One move and what follows it. -/
def stepMove (s : State) : Host.Outcome State Fault Refusal :=
  match s.nextMove with
  | none => .next (s.begin.settle s.begin)
  | some m => mapNext s.begin.settle (runMove m (s.beginFor m))

/-! ## A machine that stands at an instruction -/

/-- The line that holds the instruction of a table word; where no engine's decoder accepts it, a line of SEQ. -/
def wordLine (w : Nat) : List Lane := ((tableFind w Stream.all).map (·.1)).getD (tableLine .seq 1 w)

/-- The leaf of a 2 MiB page at PA 2 MiB, with W and X. -/
def fetchLeaf : Word := BitVec.ofNat 64 (512 * 2 ^ 24 + 0x47)

/-- A page table for VA 0 to 2 MiB and a root RCB at VA 0x10000, as CREATE_CONTEXT and MAP leave them. -/
def fetchImage (m : Mem) : Mem :=
  let entry (m : Mem) (a : Nat) (e : Word) : Mem := Mem.setNum m a 8 e.toNat
  let m := entry m 0x1000 (BitVec.ofNat 64 (2 * 2 ^ 24 + 1))
  let m := entry m 0x2000 (BitVec.ofNat 64 (3 * 2 ^ 24 + 1))
  let m := entry m 0x3000 (BitVec.ofNat 64 (4 * 2 ^ 24 + 1))
  let m := entry m 0x4000 fetchLeaf
  let m := Mem.setNum m 0x210008 2 0x3FF
  let m := Mem.setNum m 0x21000C 2 48
  let m := Mem.setNum m 0x21001C 2 0x3FF
  let m := Mem.setNum m 0x210020 8 0x11000
  Mem.setNum m 0x210028 4 16

/-- The context of fetchImage. -/
def fetchCtx (n : Nat) : Ctx :=
  { number := n, root := 0x1000, rootRcb := 0x10000,
    tables := [⟨0x1000, 4, 0⟩, ⟨0x2000, 3, 0⟩, ⟨0x3000, 2, 0⟩, ⟨0x4000, 1, 0⟩] }

/-- A task that runs on core 0 and stands at a line at VA 0x20000, its scratchpad filled. -/
def fetchTask (n index : Nat) : Task :=
  { status := .running 0, pool := { index, ctx := n, entry := 0x20000, rcb := 0x10000 }, regs := initialRegs 0,
    flow := { line := 0x20000 }, filled := 0xFFFFFFFF }

/-- A machine whose acting task runs; from reset, one task of one context. -/
def State.withRunner (s : State) : State :=
  if s.cur.isRunning then s else
  { s with
    hbm := fetchImage s.hbm, nextCtx := s.nextCtx + 1, ctxs := fetchCtx s.nextCtx :: s.ctxs
    cur := fetchTask s.nextCtx ((s.freeIndex 0).getD 0), others := s.tasks }

/-- The acting task's sequencer stands at lane 1 of a line, with nothing else to do first, and moves next. -/
def State.atLine (s : State) (line : List Lane) : State :=
  let t := s.cur
  { s with
    sched := [.sequencer t.tid]
    cur := { t with ifq := [],
                    flow := { t.flow with entered := true, lanes := line, lane := 1, timed := none, finishing := none,
                                          page := none, due := none, halt := none, stepDone := false, brkPass := [0, 1, 2, 3] } } }

end Sys2Proof.Machine
end

