-- ==== Sys2Proof/Machine/Step.lean ====
section
/-! DEFINITION. One step of the machine, and the machine that stands at a given instruction. -/

namespace Sys2Proof.Machine

/-- One step: one move, and the time that passes with it. -/
def step (s : State) : Host.Outcome State Fault Refusal := stepMove s

/-- The state with an instruction word of the opcode table in the line buffer of the acting task's sequencer, which
moves next. -/
def State.withFetchWord (s : State) (nbits w : Nat) : State := s.withRunner.atLine (wordLine (w % 2 ^ nbits))

end Sys2Proof.Machine
end

