-- ==== Sys2Proof/Safety.lean ====
section
/-! DEFINITION. The terms in which claims speak of the machine: sound states, operands that can be taken and results
that can be put, where the sequencer and a queue stand after an instruction. -/

namespace Sys2Proof.Machine

/-- Every memory of the machine is in its canonical form, the tasks' backing and each task's scratchpad too. -/
def State.MemoryWf (s : State) : Prop :=
  Memory.wf s.hbm = true ∧ Memory.wf s.csram = true ∧ Memory.wf s.hostMem = true ∧ Memory.wf s.peerMem = true ∧
  Memory.wf s.backing = true ∧ Memory.wf s.cur.scratch = true ∧ ∀ t ∈ s.others, Memory.wf t.scratch = true

/-- The step goes on: no fault and no refusal of the machine itself. -/
def State.GoesOn (s : State) : Prop := ∃ t, step s = .next t

/-- The acting task's context exists. -/
def State.HasContext (s : State) : Prop := (s.ctx? s.cur.pool.ctx).isSome = true

/-- No context traces or replays, so no event is recorded, held or diverges (R452, R458). -/
def State.Untraced (s : State) : Prop := (∀ c ∈ s.ctxs, c.trace = none) ∧ s.cur.held = []

/-- No context has a watchpoint (R439). -/
def State.Unwatched (s : State) : Prop := ∀ c ∈ s.ctxs, c.watch = []

/-- The leaf a context's tables give an address (R410). -/
def State.Maps (s : State) (n : Nat) (va leaf : Word) : Prop := ∃ pa, s.lookup n va = .ok (leaf, pa)

/-- Every entry the acting task has dispatched has performed, and every copy command has completed. -/
def State.Drained (s : State) : Prop := (∀ k : Stream, s.cur.queue k = []) ∧ ∀ c ∈ s.cur.vcq, c.complete = true

/-! ## Registers of the acting task -/

/-- The state with the acting task changed. -/
def State.withTask (s : State) (f : Task → Task) : State := { s with cur := f s.cur }

/-- The state with the acting task's registers changed. -/
def State.withRegs (s : State) (f : Regs → Regs) : State := { s with cur := { s.cur with regs := f s.cur.regs } }

/-- The state with the acting task's special registers changed. -/
def State.withSys (s : State) (f : Special → Special) : State := { s with cur := { s.cur with sys := f s.cur.sys } }

/-- A scalar source read: its value and the state after it. A register gives its value (s0 gives 0); a port gives its
oldest entry and loses it. None for a port that is empty or whose oldest entry is poisoned (R68, R69, R275). -/
def State.take (s : State) (r : SReg) : Option (Word × State) :=
  if isPort r then
    match s.cur.regs.rdPort (portIx r) with
    | [] => none
    | x :: rest => if x.poisoned then none else some (x.val, s.withRegs fun g => g.wrPort (portIx r) rest)
  else some (s.cur.regs.rd r, s)

/-- Two sources, read in order. -/
def State.take2 (s : State) (a b : SReg) : Option (Word × Word × State) :=
  match s.take a with
  | none => none
  | some (x, s1) =>
    match s1.take b with
    | none => none
    | some (y, s2) => some (x, y, s2)

/-- A scalar result put: a register takes it (s0 discards it), a port takes it behind its other entries. None for a
port that is full (R68, R69). -/
def State.give (s : State) (r : SReg) (x : Word) : Option State :=
  if isPort r then
    if (s.cur.regs.rdPort (portIx r)).length < 16 then
      some (s.withRegs fun g => g.wrPort (portIx r) (g.rdPort (portIx r) ++ [⟨x, false⟩]))
    else none
  else some (s.withRegs fun g => g.wr r x)

/-! ## After an instruction of the sequencer -/

/-- A SEQ instruction of n lanes has been handled: the SEQ stream's number is one more, and the sequencer stands past
its lanes (R49, R58 to R60). -/
def State.past (s : State) (n : Nat) : State := { s with cur := { s.cur.bump .seq with flow := s.cur.flow.after n } }

/-- A SEQ instruction has transferred to a line (R58). -/
def State.goneTo (s : State) (a : Word) : State := { s with cur := { s.cur.bump .seq with flow := s.cur.flow.to a } }

/-! ## An entry of a queue -/

/-- Nothing of an entry has happened yet: it has not begun, has taken and written nothing, and no outside home has answered it. -/
def Entry.Fresh (e : Entry) : Prop := e.under = false ∧ e.reads = [] ∧ e.answer = .none

/-- The acting entry, the head of its queue, may begin: nothing of it has happened, nothing it is ordered after is left, each FIFO it
takes a token from has one, and each it gives one to has room beside what begun entries owe it (R18, R19, R98, R273, R390). A wait it
was in is recorded nowhere; no load behind it has taken bytes early, and its writes land as it performs (R382, R389). -/
def State.Ready (s : State) (e : Entry) : Prop :=
  s.act = some e ∧ s.air = none ∧ (∀ x ∈ s.cur.queue .ldq, x.reads = []) ∧ (s.cur.queue e.stream).head? = some e ∧ e.Fresh ∧
  s.mayBegin e = true ∧ (e.tokWaits = [] ∨ s.Untraced) ∧
  (∀ n ∈ waitFifos e.stream (Instr.tokens e.ins), s.cur.regs.tok.get n ≠ 0) ∧ s.cur.noRoom e = false

/-- The head entry of a queue has performed: it takes its tokens, leaves the queue and gives its tokens; the entry whose token ends
a FIFO's emptiness is noted as its giver (R19, R454). -/
def State.left (s : State) (e : Entry) : State :=
  s.withTask fun t =>
    let u := { t with regs := (waitFifos e.stream (Instr.tokens e.ins)).foldl Regs.takeTok t.regs }
    (u.setQueue e.stream (u.queue e.stream).tail).giveTokens e (s.timeOf t.pool.ctx) (giveFifos e.stream (Instr.tokens e.ins))

/-- Nothing but the access itself is met on its way to memory: no watchpoint, no trace, no pending thunk, nothing of an
ended access that is still to land, no poisoned line, no page in transit, no walk that is still to end. -/
def State.Clear (s : State) : Prop :=
  s.Unwatched ∧ s.Untraced ∧ s.cur.thunks = [] ∧ s.cur.puts = none ∧ s.cur.adrift = [] ∧ s.poison = [] ∧ s.transit = [] ∧ s.walks = []

/-- An entry has a valid translation, to a page of this module that is no delta page, passes the checks of R95, and
meets nothing on the way. -/
def State.Serves (s : State) (e : Entry) (leaf base : Word) : Prop :=
  s.Clear ∧ (∃ h : Handle, e.h = some h ∧ h.bind = .valid leaf ∧ h.base = base ∧ (Instr.writes e.ins e.stream = true → h.write = true)) ∧
  e.outside leaf base = none ∧ (Instr.writes e.ins e.stream = true → leafW leaf = true) ∧ leafAp leaf = 0 ∧ leafDlt leaf = false

end Sys2Proof.Machine
end

