-- ==== Sys2Proof/Certificates/Slice0/Obligations.lean ====
section
/-! DEFINITION. What this model claims of the L9, from the numbered rules of spec/. -/

open Sys2Proof Sys2Proof.Machine

/-! ## Arithmetic of the sequencer (R82 to R88) -/

/-- The value an instruction of two sources computes, as its rule says it in whole numbers: R82 Table 3, R84 (lea), R85
(bfi, whose first source is s[d]), each with its destination and sources. -/
def twoSourceRow : Instr → Option (SReg × SReg × SReg × (Word → Word → Word))
  | .add d a b => some (d, a, b, fun x y => BitVec.ofNat 64 (x.toNat + y.toNat))
  | .sub d a b => some (d, a, b, fun x y => BitVec.ofInt 64 (x.toInt - y.toInt))
  | .mul d a b => some (d, a, b, fun x y => BitVec.ofNat 64 (x.toNat * y.toNat))
  | .mulh d a b => some (d, a, b, fun x y => BitVec.ofInt 64 (x.toInt * y.toInt / 2 ^ 64))
  | .mulhu d a b => some (d, a, b, fun x y => BitVec.ofNat 64 (x.toNat * y.toNat / 2 ^ 64))
  | .and d a b => some (d, a, b, fun x y => x &&& y)
  | .or d a b => some (d, a, b, fun x y => x ||| y)
  | .xor d a b => some (d, a, b, fun x y => x ^^^ y)
  | .andn d a b => some (d, a, b, fun x y => x &&& ~~~y)
  | .shl d a b => some (d, a, b, fun x y => BitVec.ofNat 64 (x.toNat * 2 ^ (y.toNat % 64)))
  | .shr d a b => some (d, a, b, fun x y => BitVec.ofNat 64 (x.toNat / 2 ^ (y.toNat % 64)))
  | .sra d a b => some (d, a, b, fun x y => BitVec.ofInt 64 (x.toInt / 2 ^ (y.toNat % 64)))
  | .min d a b => some (d, a, b, fun x y => if x.toInt ≤ y.toInt then x else y)
  | .max d a b => some (d, a, b, fun x y => if x.toInt ≤ y.toInt then y else x)
  | .minu d a b => some (d, a, b, fun x y => if x.toNat ≤ y.toNat then x else y)
  | .maxu d a b => some (d, a, b, fun x y => if x.toNat ≤ y.toNat then y else x)
  | .lea d a b k => some (d, a, b, fun x y => BitVec.ofNat 64 (x.toNat + y.toNat * 2 ^ k.toNat))
  | .bfi d a pos len => some (d, d, a, fun x y =>
      let ones := 2 ^ (if len = 0 then 64 else len.toNat) - 1
      let m := BitVec.ofNat 64 (ones * 2 ^ pos.toNat)
      (x &&& ~~~m) ||| (BitVec.ofNat 64 (y.toNat % (ones + 1) * 2 ^ pos.toNat) &&& m))
  | _ => none

/-- The quotient or remainder of R83. -/
def divisionRow : Instr → Option (SReg × SReg × SReg × (Word → Word → Word))
  | .div d a b => some (d, a, b, fun x y =>
      if y = 0 then 0xFFFFFFFFFFFFFFFF
      else if x.toInt = -2 ^ 63 ∧ y.toInt = -1 then x else BitVec.ofInt 64 (x.toInt.tdiv y.toInt))
  | .divu d a b => some (d, a, b, fun x y => if y = 0 then 0xFFFFFFFFFFFFFFFF else BitVec.ofNat 64 (x.toNat / y.toNat))
  | .rem d a b => some (d, a, b, fun x y =>
      if y = 0 then x
      else if x.toInt = -2 ^ 63 ∧ y.toInt = -1 then 0
      else BitVec.ofInt 64 (x.toInt - x.toInt.tdiv y.toInt * y.toInt))
  | .remu d a b => some (d, a, b, fun x y => if y = 0 then x else BitVec.ofNat 64 (x.toNat - x.toNat / y.toNat * y.toNat))
  | _ => none

/-- The value an instruction of one source computes: R85 (bfx), R86, R88 (movhi, whose source is s[d]). -/
def oneSourceRow : Instr → Option (SReg × SReg × Nat × (Word → Word))
  | .bfx d a pos len => some (d, a, 1, fun x =>
      BitVec.ofNat 64 (x.toNat / 2 ^ pos.toNat % 2 ^ (if len = 0 then 64 else len.toNat)))
  | .addi d a imm => some (d, a, 1, fun x => BitVec.ofInt 64 (x.toInt + imm.toInt))
  | .andi d a imm => some (d, a, 1, fun x => x &&& BitVec.ofInt 64 imm.toInt)
  | .ori d a imm => some (d, a, 1, fun x => x ||| BitVec.ofInt 64 imm.toInt)
  | .xori d a imm => some (d, a, 1, fun x => x ^^^ BitVec.ofInt 64 imm.toInt)
  | .shli d a k => some (d, a, 1, fun x => BitVec.ofNat 64 (x.toNat * 2 ^ k.toNat))
  | .shri d a k => some (d, a, 1, fun x => BitVec.ofNat 64 (x.toNat / 2 ^ k.toNat))
  | .srai d a k => some (d, a, 1, fun x => BitVec.ofInt 64 (x.toInt / 2 ^ k.toNat))
  | .movhi d imm => some (d, d, 2, fun x => BitVec.ofNat 64 (imm.toNat * 2 ^ 32 + x.toNat % 2 ^ 32))
  | _ => none

/-- Each two-source instruction writes the value of its rule to s[d] and goes on: R82 Table 3 (add to maxu), R84
(lea), R85 (bfi). A port gives an entry or takes one (R69, R70); s0 discards. -/
def TwoSourceInstructionsWriteTheirValue : Prop :=
  ∀ (i : Instr) (s s1 t : State) (d a b : SReg) (f : Word → Word → Word) (x y : Word),
    twoSourceRow i = some (d, a, b, f) → i.portBad = false → s.take2 a b = some (x, y, s1) →
    s1.give d (f x y) = some t → exec i s = .next (t.past 1)

/-- O1. R83: the four divisions. -/
def Obligations.DivisionsFollowTheirPseudocode : Prop :=
  (∀ (i : Instr) (s s1 t : State) (d a b : SReg) (f : Word → Word → Word) (x y : Word),
    divisionRow i = some (d, a, b, f) → i.portBad = false → s.take2 a b = some (x, y, s1) →
    s1.give d (f x y) = some t → exec i s = .next (t.past 1)) ∧
  (∀ f : Word → Word → Word, divisionRow (.div 0 0 0) = some (0, 0, 0, f) → f (-7) 2 = -3) ∧
  (∀ f : Word → Word → Word, divisionRow (.rem 0 0 0) = some (0, 0, 0, f) → f (-7) 2 = -1)

/-- Each one-source instruction writes the value of its rule and goes on: R85 (bfx), R86, R88 (movhi, two lanes). -/
def OneSourceInstructionsWriteTheirValue : Prop :=
  ∀ (i : Instr) (s s1 t : State) (d a : SReg) (n : Nat) (f : Word → Word) (x : Word),
    oneSourceRow i = some (d, a, n, f) → i.portBad = false → s.take a = some (x, s1) →
    s1.give d (f x) = some t → exec i s = .next (t.past n)

/-- clz and ctz count the zero bits above the highest and below the lowest one bit, 64 for 0; popc counts the one
bits (R82 Table 3). -/
def BitCountsAreTheCounts : Prop :=
  ∀ (s s1 : State) (d a : SReg) (x : Word), s.take a = some (x, s1) →
    ((Instr.clz d a).portBad = false → ∃ n ≤ 64, (∀ j < n, x.getLsbD (63 - j) = false) ∧ (n < 64 → x.getLsbD (63 - n) = true) ∧
      ∀ t, s1.give d (BitVec.ofNat 64 n) = some t → exec (.clz d a) s = .next (t.past 1)) ∧
    ((Instr.ctz d a).portBad = false → ∃ n ≤ 64, (∀ j < n, x.getLsbD j = false) ∧ (n < 64 → x.getLsbD n = true) ∧
      ∀ t, s1.give d (BitVec.ofNat 64 n) = some t → exec (.ctz d a) s = .next (t.past 1)) ∧
    ((Instr.popc d a).portBad = false →
      ∀ t, s1.give d (BitVec.ofNat 64 (Finset.univ.filter fun j : Fin 64 => x.getLsbD j.val = true).card) = some t →
        exec (.popc d a) s = .next (t.past 1))

/-- O2. The arithmetic of SEQ writes the value of its rule and goes on: two sources, one source, and the bit counts (R82, R84 to
R86, R88). -/
def Obligations.ArithmeticWritesItsValue : Prop :=
  TwoSourceInstructionsWriteTheirValue ∧ OneSourceInstructionsWriteTheirValue ∧ BitCountsAreTheCounts

/-- The condition of a code on two values (R81 Table 2). -/
def condTrue (cc : Cc) (a b : Word) : Prop :=
  match cc with
  | .eq => a = b
  | .ne => a ≠ b
  | .lt => a.toInt < b.toInt
  | .ge => a.toInt ≥ b.toInt
  | .ltu => a.toNat < b.toNat
  | .geu => a.toNat ≥ b.toNat

/-- cmp.cc and cmpi.cc write the truth of R81's condition to their predicate, where p0 discards it (R84, R87), and
sel chooses by its predicate, where p0 is true (R84). -/
def ComparesWriteTheirPredicateAndSelChooses : Prop :=
  (∀ (s s1 : State) (cc : Cc) (d : PReg) (a b : SReg) (x y : Word), (Instr.cmpCc cc d a b).portBad = false →
    s.take2 a b = some (x, y, s1) →
    ∃ r : Bool, (r = true ↔ condTrue cc x y) ∧
      exec (.cmpCc cc d a b) s = .next ((s1.withRegs fun g => if d = 0 then g else { g with p := g.p.set d.toNat r d.isLt }).past 1)) ∧
  (∀ (s s1 : State) (cc : Cc) (d : PReg) (a : SReg) (imm : BitVec 12) (x : Word), (Instr.cmpiCc cc d a imm).portBad = false →
    s.take a = some (x, s1) →
    ∃ r : Bool, (r = true ↔ condTrue cc x (BitVec.ofInt 64 imm.toInt)) ∧
      exec (.cmpiCc cc d a imm) s =
        .next ((s1.withRegs fun g => if d = 0 then g else { g with p := g.p.set d.toNat r d.isLt }).past 1)) ∧
  (∀ (s s1 t : State) (d : SReg) (p : PReg) (a b : SReg) (x y : Word), (Instr.sel d p a b).portBad = false →
    s.take2 a b = some (x, y, s1) →
    s1.give d (if p = 0 ∨ s.cur.regs.p.get p.toFin = true then x else y) = some t → exec (.sel d p a b) s = .next (t.past 1))

/-- The instructions without a scalar source that write s[d]: movi (R88), arg (R112), tid (R113), hstat (R96
Table 4); and nop, which only goes on (R71). -/
def MovesWriteTheirValue : Prop :=
  (∀ (s t : State) (d : SReg) (imm : BitVec 32), (Instr.movi d imm).portBad = false →
    s.give d (BitVec.ofInt 64 imm.toInt) = some t → exec (.movi d imm) s = .next (t.past 2)) ∧
  (∀ (s t : State) (d : SReg) (n : BitVec 2), (Instr.arg d n).portBad = false →
    s.give d (s.cur.pool.args.get n.toFin) = some t → exec (.arg d n) s = .next (t.past 1)) ∧
  (∀ (s t : State) (d : SReg) (n : BitVec 2) (core : Nat), (Instr.tid d n).portBad = false → s.cur.status = .running core →
    s.give d (BitVec.ofNat 64 (match n.toNat with
      | 0 => s.cur.pool.node.toNat
      | 1 => core
      | 2 => s.fnOf s.cur.pool.ctx
      | _ => s.cur.pool.tpl.toNat)) = some t → exec (.tid d n) s = .next (t.past 1)) ∧
  (∀ (s t : State) (d : SReg) (h : HReg), (Instr.hstat d h).portBad = false →
    s.give d (BitVec.ofNat 64 (match (s.cur.regs.h.get h.toFin).bind with
      | .invalid => 0
      | .pending => 1 * 2 ^ 24
      | .valid leaf => 2 * 2 ^ 24 + leaf.toNat % 2 ^ 24
      | .revoked => 3 * 2 ^ 24
      | .faulted c => c.toNat * 2 ^ 32 + 4 * 2 ^ 24)) = some t → exec (.hstat d h) s = .next (t.past 1)) ∧
  (∀ s : State, exec .nop s = .next (s.past 1))

/-- O3. Compares write their predicate, sel chooses by one, and the instructions without a scalar source write their value (R81,
R84, R87, R88, R96, R112, R113). -/
def Obligations.ComparesSelectAndMove : Prop :=
  ComparesWriteTheirPredicateAndSelChooses ∧ MovesWriteTheirValue

/-! ## Control transfers (R58, R89 to R92) -/

/-- The target line of br, call and loop: 32 times the signed offset from the transfer's own line (R58). -/
def lineTarget (line : Word) (off : Int) : Word := BitVec.ofInt 64 (line.toInt + 32 * off)

/-- No lane after the acting task's lane holds an instruction, as R58 asks after a control transfer. -/
def LastLane (s : State) : Prop := nextLane (s.cur.flow.lanes.getD 0 0) 8 (s.cur.flow.lane + 1) = none

/-- Control transfers: a taken one continues at lane 1 of its target line, another at lane 1 of the next line; call
writes s1 and jmp s[d] with the own line + 32, and loop decrements its count first (R58, R89 to R92). -/
def TakenTransfersGoToTheirTarget : Prop :=
  (∀ (s : State) (p : PReg) (n : Bool) (off : BitVec 20), LastLane s →
    exec (.br p n off) s = .next (s.goneTo
      (if s.cur.regs.rdP p = n then s.cur.flow.line + 32 else lineTarget s.cur.flow.line off.toInt))) ∧
  (∀ (s : State) (p : PReg) (n : Bool) (off : BitVec 20), LastLane s →
    exec (.call p n off) s =
      if s.cur.regs.rdP p = n then .next (s.goneTo (s.cur.flow.line + 32))
      else .next ((s.withRegs fun g => { g with s := g.s.set 1 (s.cur.flow.line + 32) }).goneTo
        (lineTarget s.cur.flow.line off.toInt))) ∧
  (∀ s : State, (s.cur.regs.s.get 1).toNat % 32 = 0 → exec .ret s = .next (s.goneTo (s.cur.regs.s.get 1))) ∧
  (∀ (s s1 t : State) (d a : SReg) (x : Word), (Instr.jmp d a).portBad = false → s.take a = some (x, s1) → x.toNat % 32 = 0 →
    s1.give d (s.cur.flow.line + 32) = some t → exec (.jmp d a) s = .next (t.goneTo x)) ∧
  (∀ (s : State) (a : SReg) (off : BitVec 18), a ≠ 0 → (Instr.loop a off).portBad = false → LastLane s →
    exec (.loop a off) s = .next ((s.withRegs fun g => { g with s := g.s.set a.toNat (g.s.get a.toFin - 1) a.isLt }).goneTo
      (if s.cur.regs.s.get a.toFin = 1 then s.cur.flow.line + 32 else lineTarget s.cur.flow.line off.toInt)))

/-- A precise fault of the acting task at an instruction: the fault its stop names (R64). -/
def atLane (s : State) (k : Stream) (code : Byte) (va : Word) : FaultInfo := { code, stream := k, seq := s.cur.num k, va }

/-- A misaligned target of ret or jmp raises ALIGN at the instruction, which writes nothing and transfers nowhere
(R91, R64); that FLTV names the lane being handled is the model's choice (log 53). -/
def MisalignedTransfersRaiseAlign : Prop :=
  (∀ s : State, s.Drained → (s.cur.regs.s.get 1).toNat % 32 ≠ 0 →
    exec .ret s = .next (takeFault (atLane s .seq 0x18 s.cur.nextPc) s)) ∧
  (∀ (s s1 : State) (d a : SReg) (x : Word), s.Drained → (Instr.jmp d a).portBad = false → s.take a = some (x, s1) →
    x.toNat % 32 ≠ 0 → exec (.jmp d a) s = .next (takeFault (atLane s .seq 0x18 s.cur.nextPc) s))

/-- O4. Control transfers go to their target, and a misaligned target raises ALIGN at the instruction (R58, R64, R89 to R92). A choice
of the model it rests on: log 53. -/
def Obligations.TransfersGoToTheirTarget : Prop :=
  TakenTransfersGoToTheirTarget ∧ MisalignedTransfersRaiseAlign

/-! ## Handles (R93 to R96, R415) -/

/-- A handle bound. -/
def withHandle (s : State) (h : HReg) (x : Handle) : State := s.withRegs fun g => { g with h := g.h.set h.toNat x h.isLt }

/-- xlt binds its handle to the VA, its intents and its tag: faulted with HBOUND for a VA whose bits [63:57] are
not all bit 56, valid on a hit in the core's cache, and otherwise pending with a walk requested; hinv makes it invalid
(R93, R94, R96). -/
def XltBindsItsHandle : Prop :=
  (∀ (s s1 : State) (h : HReg) (a : SReg) (tag : BitVec 8) (f w : Bool) (va : Word), (Instr.xlt h a tag f w).portBad = false →
    s.take a = some (va, s1) → (∃ j, j < 8 ∧ va.getLsbD (56 + j) ≠ va.getLsbD 56) →
    exec (.xlt h a tag f w) s = .next ((withHandle s1 h ⟨.faulted 0x14, va, w, f, tag⟩).past 1)) ∧
  (∀ (s s1 : State) (h : HReg) (a : SReg) (tag : BitVec 8) (f w : Bool) (va leaf : Word) (core : Nat),
    (Instr.xlt h a tag f w).portBad = false → s.take a = some (va, s1) → (∀ j < 8, va.getLsbD (56 + j) = va.getLsbD 56) →
    s.windowOf s.cur va = none → s.cur.status = .running core →
    (cachedLeaf s.coreTc core s.cur.pool.ctx va = some leaf ∨
      cachedLeaf s.coreTc core s.cur.pool.ctx va = none ∧ cachedLeaf s.tlb s.cur.pool.die.toNat s.cur.pool.ctx va = some leaf) →
    ∃ tc ftc, exec (.xlt h a tag f w) s =
      .next ((withHandle { s1 with coreTc := tc, fetchTc := ftc } h ⟨.valid leaf, va, w, f, tag⟩).past 1) ∧
      cachedLeaf tc core s.cur.pool.ctx va = some leaf ∧
      (f = true → (cachedLeaf ftc core s.cur.pool.ctx va).isSome = true) ∧ (f = false → ftc = s.fetchTc)) ∧
  (∀ (s s1 : State) (h : HReg) (a : SReg) (tag : BitVec 8) (f w : Bool) (va : Word) (core : Nat),
    (Instr.xlt h a tag f w).portBad = false → s.take a = some (va, s1) → (∀ j < 8, va.getLsbD (56 + j) = va.getLsbD 56) →
    s.cur.status = .running core →
    (s.windowOf s.cur va = none → cachedLeaf s.coreTc core s.cur.pool.ctx va = none →
      cachedLeaf s.tlb s.cur.pool.die.toNat s.cur.pool.ctx va = none →
      exec (.xlt h a tag f w) s =
        .next ((withHandle { s1 with walks := s.walks ++ [⟨s.cur.pool.ctx, va, core, w, f, 0, false⟩] } h ⟨.pending, va, w, f, tag⟩).past 1)) ∧
    (∀ l, s.windowOf s.cur va = some l →
      exec (.xlt h a tag f w) s =
        .next ((withHandle { s1 with walks := s.walks ++ [⟨s.cur.pool.ctx, va, core, w, f, l.serial, false⟩] } h ⟨.pending, va, w, f, tag⟩).past 1))) ∧
  (∀ (s : State) (h : HReg), exec (.hinv h) s =
    .next ((withHandle s h { s.cur.regs.h.get h.toFin with bind := .invalid }).past 1))

/-- A walk that finds a present page ends with every pending handle of the acting task on its 4 KiB valid, the page
accessed, and the walks of the page ended; handles that do not wait for it, and walks of other pages, stay (R93, R414, R415). -/
def WalkCompletesItsHandles : Prop :=
  ∀ (s : State) (n : Nat) (w : Walk) (leaf : Word) (pa : Nat), s.walks[n]? = some w → w.serial = 0 → s.inTransit w.ctx w.va = false →
    s.walking w = true → s.lookup w.ctx w.va = .ok (leaf, pa) → s.cur.pool.ctx = w.ctx → s.cur.pool.die.toNat = w.core / 48 →
    ∃ t leaf', exec (.walkComplete n) s = .next t ∧ leaf'.getLsbD 3 = true ∧ (∀ j, j ≠ 3 → j ≠ 4 → leaf'.getLsbD j = leaf.getLsbD j) ∧
      (∀ h : HReg, (s.cur.regs.h.get h.toFin).bind = .pending → (s.cur.regs.h.get h.toFin).base.toNat / 4096 = w.va.toNat / 4096 →
        s.windowOf s.cur (s.cur.regs.h.get h.toFin).base = none →
        t.cur.regs.h.get h.toFin = { s.cur.regs.h.get h.toFin with bind := .valid leaf' }) ∧
      (∀ h : HReg, s.awaitsWalk w s.cur (s.cur.regs.h.get h.toFin) = false →
        t.cur.regs.h.get h.toFin = s.cur.regs.h.get h.toFin) ∧
      (∀ x, x ∈ t.walks ↔ x ∈ s.walks ∧ s.walkKey x ≠ s.walkKey w)

/-- O5. xlt binds its handle, hinv unbinds it, and a walk makes the handles that wait for its page valid (R93, R94, R96, R414,
R415). Readings of the model it rests on: log 48. -/
def Obligations.HandlesBindAndWalksEnd : Prop :=
  XltBindsItsHandle ∧ WalkCompletesItsHandles

/-! ## Waits, marks, fences, semaphores (R97 to R104) -/

/-- An entry is a near-bank command. -/
def isNbx : Instr → Bool
  | .nbx .. => true
  | _ => false

/-- Every access on a path by what the acting task has dispatched has performed and landed: the queues and commands that may access on
that path are gone, but copy commands that have been checked make no demands of Badger any more, and nothing of an ended access on the
path is still to land (R99, R378; log 61). -/
def PathDone (s : State) (x : Path) : Prop :=
  (∀ y ∈ s.cur.adrift, y.1 ≠ x) ∧
  match x with
  | .ld => s.cur.queue .ldq = []
  | .st => s.cur.queue .stq = []
  | .mx => (∀ k ∈ ([.til, .ldq, .stq, .skq, .cpy] : List Stream), s.cur.queue k = []) ∧ (∀ c ∈ s.cur.vcq, c.checked = true) ∧
      ∀ e ∈ s.cur.queue .atm, isNbx e.ins = false
  | .sk => s.cur.queue .skq = []
  | .cp => s.cur.queue .cpy = [] ∧ ∀ c ∈ s.cur.vcq, c.complete = true
  | .lk => s.cur.queue .lnk = []
  | .at => s.cur.queue .atm = []
  | .nb => ∀ e ∈ s.cur.queue .atm, isNbx e.ins = false

/-- wait, xfence and fence go on when what they wait for has performed and are held otherwise; mark notes every
entry dispatched so far and goes on (R97 to R100). -/
def WaitsHoldUntilTheirWorkHasPerformed : Prop :=
  (∀ (s : State) (ld st cp ti : BitVec 6),
    let ok := (ld = 63 ∨ (s.cur.queue .ldq).length ≤ ld.toNat) ∧ (st = 63 ∨ (s.cur.queue .stq).length ≤ st.toNat) ∧
      (cp = 63 ∨ (s.cur.queue .cpy).length + (s.cur.vcq.filter (!·.complete)).length ≤ cp.toNat) ∧
      (ti = 63 ∨ (s.cur.queue .til).length ≤ ti.toNat)
    (ok → exec (.wait ld st cp ti) s = .next (s.past 1)) ∧ (¬ ok → exec (.wait ld st cp ti) s = .next s)) ∧
  (∀ (s : State) (x y : Path),
    (PathDone s x → exec (.xfence x y) s = .next (s.past 1)) ∧ (¬ PathDone s x → exec (.xfence x y) s = .next s)) ∧
  (∀ (s : State) (k : Kind) (sc : Scope),
    let ok := s.cur.queue .ldq = [] ∧ s.cur.queue .atm = [] ∧ (k = .acq ∨ s.cur.queue .stq = [])
    (ok → exec (.fence k sc) s = .next (s.past 1)) ∧ (¬ ok → exec (.fence k sc) s = .next s)) ∧
  (∀ s : State, exec .mark s = .next ({ s with cur := { s.cur with marked := s.cur.ords } }.past 1))

/-- A mark stands above every entry that stands in a queue as it is handled, and so do the entries that are dispatched after it, which
carry it; no LDQ or STQ entry that carries a mark begins while an LDQ or STQ entry below it stands in its queue (R98). -/
def MarkHoldsLaterAccesses : Prop :=
  (∀ s : State, (∀ k : Stream, ∀ x ∈ s.cur.queue k, x.ord < s.cur.ords) →
    ∃ t, exec .mark s = .next t ∧ t.cur.marked ≤ t.cur.ords ∧ ∀ k : Stream, ∀ x ∈ t.cur.queue k, x.ord < t.cur.marked) ∧
  ∀ (s : State) (e x : Entry) (k : Stream) (body : M Unit), (k = .ldq ∨ k = .stq) → x ∈ s.cur.queue k → (e.stream = .ldq ∨ e.stream = .stq) →
    e.under = false → x.ord < e.mark → runM (perform e body) s = .next s

/-- The semaphore of the acting task set. -/
def withSem (s : State) (sm : SemReg) (x : Lane) : State := s.withRegs fun g => { g with sm := g.sm.set sm.toNat x sm.isLt }

/-- sem.sig adds its k, saturating at 0xFFFF_FFFF, and sem.set sets bits [31:0] of its source (R103). -/
def SemaphoresCountSignals : Prop :=
  (∀ (s : State) (sm : SemReg) (k : BitVec 6), ∃ st, exec (.semSig sm k) s =
    .next (({ withSem s sm (BitVec.ofNat 32 (min ((s.cur.regs.sm.get sm.toFin).toNat + k.toNat) 0xFFFFFFFF)) with
      cur := { (withSem s sm (BitVec.ofNat 32 (min ((s.cur.regs.sm.get sm.toFin).toNat + k.toNat) 0xFFFFFFFF))).cur with setter := st } }).past 1)) ∧
  (∀ (s s1 : State) (sm : SemReg) (b : SReg) (x : Word), (Instr.semSet sm b).portBad = false → s.take b = some (x, s1) →
    ∃ st, exec (.semSet sm b) s =
      .next (({ withSem s1 sm (BitVec.ofNat 32 x.toNat) with cur := { (withSem s1 sm (BitVec.ofNat 32 x.toNat)).cur with setter := st } }).past 1))

/-- O6. wait, xfence and fence hold until their work has performed, a mark orders later accesses behind earlier ones (what an entry
carries as it is dispatched is O15's), and semaphores count signals (R97 to R100, R103). Readings of the model it rests on: log 61. -/
def Obligations.WaitsMarksAndSemaphores : Prop :=
  WaitsHoldUntilTheirWorkHasPerformed ∧ MarkHoldsLaterAccesses ∧ SemaphoresCountSignals

/-- The scratchpad word at an address (R101). -/
def scratchWord (s : State) (a : Word) : Word := BitVec.ofNat 64 (Mem.num s.cur.scratch a.toNat 8)

/-- The acting task with the scratchpad pages filled that an access of n bytes touches (R353). -/
def filledFor (s : State) (a : Word) (n : Nat) : State := { s with cur := s.cur.fillFor s.backing a n }

/-- The acting task with the timed wait of its sequencer replaced by one that has not ended. -/
def withTimed (s : State) (w : Option Timed) : State :=
  { s with cur := { s.cur with flow := { s.cur.flow with timed := w, ended := none } } }

/-- waita examines its word as it is handled, in pages that are filled by then: 1 when the condition holds, 0 when it does not and the
timeout is 0, and otherwise the wait is in progress with its timeout (R101, R353). -/
def WaitaExaminesItsWord : Prop :=
  ∀ (s s1 : State) (d a b : SReg) (cc : Cc) (T : BitVec 32) (addr want : Word),
    (Instr.waita d a b cc T).portBad = false → s.Untraced → s.cur.flow.timed = none → s.cur.flow.ended = none → s.take2 a b = some (addr, want, s1) →
    addr.toNat % 8 = 0 → 0x10000 ≤ addr.toNat → addr.toNat + 8 ≤ 0x10000 + 4096 * s.cur.pool.spp →
    ∃ setter, let u := filledFor { s1 with cur := { s1.cur with setter } } addr 8
      (condTrue cc (scratchWord u addr) want → ∀ t, u.give d 1 = some t → exec (.waita d a b cc T) s = .next (t.past 2)) ∧
      (¬ condTrue cc (scratchWord u addr) want → T = 0 → ∀ t, u.give d 0 = some t → exec (.waita d a b cc T) s = .next (t.past 2)) ∧
      (¬ condTrue cc (scratchWord u addr) want → T ≠ 0 → exec (.waita d a b cc T) s =
        .next (withTimed u (some (.word (if T = 0xFFFFFFFF then none else some T.toNat) (s.timeOf s.cur.pool.ctx) d addr cc want))))

/-- sem.wait examines its count as it is handled: it subtracts k and writes 1 when the count is at least k, writes 0
when it is not and the timeout is 0, and otherwise is in progress (R103). -/
def SemWaitExaminesItsCount : Prop :=
  ∀ (s : State) (d : SReg) (sm : SemReg) (k : BitVec 6) (T : BitVec 32),
    (Instr.semWait d sm k T).portBad = false → s.Untraced → s.cur.flow.timed = none → s.cur.flow.ended = none →
    (k.toNat ≤ (s.cur.regs.sm.get sm.toFin).toNat → ∀ t,
      (withSem s sm (s.cur.regs.sm.get sm.toFin - k.setWidth 32)).give d 1 = some t → exec (.semWait d sm k T) s = .next (t.past 2)) ∧
    ((s.cur.regs.sm.get sm.toFin).toNat < k.toNat → T = 0 → ∀ t, s.give d 0 = some t → exec (.semWait d sm k T) s = .next (t.past 2)) ∧
    ((s.cur.regs.sm.get sm.toFin).toNat < k.toNat → T ≠ 0 → exec (.semWait d sm k T) s =
      .next (withTimed s (some (.sem (if T = 0xFFFFFFFF then none else some T.toNat) (s.timeOf s.cur.pool.ctx) d sm k))))

/-- A timed wait in progress ends satisfied with 1 once its condition holds (a semaphore wait subtracts its k), and
with 0 once its timeout has run out while it does not hold (R101, R103). -/
def TimedWaitsEnd : Prop :=
  (∀ (s t : State) (core : Nat) (left : Option Nat) (began : Nat) (d : SReg) (addr want : Word) (cc : Cc),
    s.Untraced → s.cur.status = .running core → s.cur.flow.timed = some (.word left began d addr cc want) → s.cur.flow.ended = none →
    (condTrue cc (scratchWord s addr) want → s.give d 1 = some t → exec .waitaSatisfied s = .next ((withTimed t none).past 2)) ∧
    (¬ condTrue cc (scratchWord s addr) want → left = some 0 → s.give d 0 = some t →
      exec .waitaTimeout s = .next ((withTimed t none).past 2))) ∧
  (∀ (s t : State) (core : Nat) (left : Option Nat) (began : Nat) (d : SReg) (sm : SemReg) (k : BitVec 6),
    s.Untraced → s.cur.status = .running core → s.cur.flow.timed = some (.sem left began d sm k) → s.cur.flow.ended = none →
    (k.toNat ≤ (s.cur.regs.sm.get sm.toFin).toNat → (withSem s sm (s.cur.regs.sm.get sm.toFin - k.setWidth 32)).give d 1 = some t →
      exec .semWaitSatisfied s = .next ((withTimed t none).past 2)) ∧
    ((s.cur.regs.sm.get sm.toFin).toNat < k.toNat → left = some 0 → s.give d 0 = some t →
      exec .semWaitTimeout s = .next ((withTimed t none).past 2)))

/-- Every step examines the timed wait of a running task in each cycle that it takes: it is satisfied where its condition holds, times
out where its timeout passes first, and otherwise goes on; its timeout does not run while its context stands still (R101, R103, R106,
R448). -/
def TimedWaitsAreExaminedInEveryStep : Prop :=
  ∀ (s : State) (t : Task) (w : Timed) (k : Nat), s.Untraced → t.isRunning = true → t.flow.timed = some w → t.flow.ended = none → 0 < k →
    (w.holds t = true → ((s.examine k t).flow.ended.map (·.ok)) = some true) ∧
    (w.holds t = false → s.standsStill t.pool.ctx = true → w.left ≠ some 0 → s.examine k t = t) ∧
    (w.holds t = false → s.standsStill t.pool.ctx = false → ∀ l, w.left = some l → l < k →
      (s.examine k t).flow.ended = some ⟨false, s.timeOf t.pool.ctx + l, none⟩ ∧ (s.examine k t).regs = t.regs) ∧
    (w.holds t = false → (∀ l, w.left = some l → k ≤ l) → s.examine k t = t)

/-- O7. waita and sem.wait examine their condition as they are handled and in every step, and end satisfied or by their timeout (R101,
R103). -/
def Obligations.TimedWaitsExamineAndEnd : Prop :=
  WaitaExaminesItsWord ∧ SemWaitExaminesItsCount ∧ TimedWaitsEnd ∧ TimedWaitsAreExaminedInEveryStep

/-! ## Fetch copies, identity and special registers (R108, R112 to R117, R122 to R124) -/

/-- ifsync discards exactly this core's copies of lines that overlap the s[b] bytes at s[a], and every copy of the
core for a range above 2^20 bytes (R108). -/
def IfsyncDiscardsItsLines : Prop :=
  ∀ (s s1 : State) (a b : SReg) (lo n : Word) (core : Nat), (Instr.ifsync a b).portBad = false → s.take2 a b = some (lo, n, s1) →
    s.cur.status = .running core →
    ∃ l, exec (.ifsync a b) s = .next ({ s1 with lineCache := l }.past 1) ∧
      ∀ x, x ∈ l ↔ x ∈ s.lineCache ∧
        ¬ (x.core = core ∧ (2 ^ 20 < n.toNat ∨ (x.ctx = s.cur.pool.ctx ∧ 32 * x.va < lo.toNat + n.toNat ∧ lo.toNat < 32 * x.va + 32 ∧ 0 < n.toNat)))

/-- The contents of a system register (R114 Tables 7 and 8). -/
def sysRow (s : State) (core : Nat) : SysReg → Nat
  | .ctx => s.cur.pool.ctx * 2 ^ 32 + s.fnOf s.cur.pool.ctx
  | .rcbp => s.cur.pool.rcb.toNat
  | .task => s.cur.pool.origin.toNat * 2 ^ 48 + (if s.cur.pool.origin = 0 then s.cur.pool.queue.toNat else 0) * 2 ^ 42 +
      s.cur.pool.tpl.toNat * 2 ^ 32 + s.cur.pool.node.toNat
  | .core => core / 48 * 2 ^ 6 + core % 48 / 4 * 2 ^ 2 + core % 4
  | .fltc => s.cur.sys.fltc.toNat
  | .fltv => s.cur.sys.fltv.toNat
  | .fltq => s.cur.sys.fltq.toNat
  | .thkrec => s.cur.sys.thkrec.toNat
  | .scoff => (s.taskEff s.cur).scOff.toNat
  | .baseoff => (s.taskEff s.cur).baseOff.toNat
  | .pfd => s.cur.sys.pfd.toNat
  | .fpst => s.cur.sys.fpst.toNat
  | .rng => s.cur.sys.rng.toNat
  | .tmode => s.cur.sys.tmode.toNat
  | .cyc => s.cur.sys.cyc
  | .wdog => s.cur.sys.wdog

/-- The entries that R117 has rdsr, wrsr and rngseed wait for have performed. -/
def Quiet117 (s : State) : Prop :=
  s.cur.queue .vec = [] ∧ s.cur.queue .stq = [] ∧ s.cur.queue .til = [] ∧ s.cur.queue .skq = [] ∧ s.cur.queue .cpy = [] ∧
  ∀ c ∈ s.cur.vcq, c.complete = true

/-- rdsr writes s[d] with the register its selector names, after the entries of R117 for fpst and rng (R114,
R117). -/
def RdsrReadsTheNamedRegister : Prop :=
  ∀ (s t : State) (d : SReg) (r : SysReg) (core : Nat), (Instr.rdsr d r).portBad = false → s.cur.status = .running core →
    (r = .fpst ∨ r = .rng → Quiet117 s) → s.give d (BitVec.ofNat 64 (sysRow s core r)) = some t →
    exec (.rdsr d r) s = .next (t.past 1)

/-- wrsr writes pfd, fpst and rng; pfd and rngseed set the distance and the generator; a reserved bit raises
ILLEGAL_FIELD and writes nothing (R114, R117, R123, R124). -/
def SpecialRegistersAreWritten : Prop :=
  (∀ (s s1 : State) (a : SReg) (x : Word), (Instr.wrsr .pfd a).portBad = false → s.take a = some (x, s1) → x.toNat < 2 ^ 20 →
    x.toNat % 64 = 0 → exec (.wrsr .pfd a) s = .next ((s1.withSys fun y => { y with pfd := x }).past 1)) ∧
  (∀ (s s1 : State) (a : SReg) (x : Word), (Instr.wrsr .fpst a).portBad = false → Quiet117 s → s.take a = some (x, s1) →
    x.toNat < 32 → exec (.wrsr .fpst a) s = .next ((s1.withSys fun y => { y with fpst := BitVec.ofNat 5 x.toNat }).past 1)) ∧
  (∀ (s s1 : State) (a : SReg) (x : Word), (Instr.wrsr .rng a).portBad = false → Quiet117 s → s.take a = some (x, s1) →
    exec (.wrsr .rng a) s = .next ((s1.withSys fun y => { y with rng := x }).past 1)) ∧
  (∀ (s s1 : State) (a : SReg) (x : Word), (Instr.wrsr .fpst a).portBad = false → s.Drained → s.take a = some (x, s1) →
    32 ≤ x.toNat → exec (.wrsr .fpst a) s = .next (takeFault (atLane s .seq 0x03 s.cur.nextPc) s)) ∧
  (∀ (s s1 : State) (a : SReg) (x : Word), (Instr.pfd a).portBad = false → s.take a = some (x, s1) →
    exec (.pfd a) s = .next ((s1.withSys fun y => { y with pfd := BitVec.ofNat 64 (min x.toNat 1048512 / 64 * 64) }).past 1)) ∧
  (∀ (s s1 : State) (a : SReg) (x : Word), (Instr.rngseed a).portBad = false → Quiet117 s → s.take a = some (x, s1) →
    exec (.rngseed a) s = .next ((s1.withSys fun y => { y with rng := x }).past 1))

/-- rdtime writes the context's time: the time base less the cycles its context was halted (R122). -/
def RdtimeWritesContextTime : Prop :=
  ∀ (s t : State) (d : SReg) (c : Ctx), (Instr.rdtime d).portBad = false → s.Untraced → s.ctx? s.cur.pool.ctx = some c →
    s.give d (BitVec.ofNat 64 (s.now - c.haltCycles)) = some t → exec (.rdtime d) s = .next (t.past 1)

/-- O8. rdsr and rdtime read, wrsr, pfd and rngseed write the special registers, and ifsync discards this core's copies of its
lines (R108, R114, R117, R122 to R124). -/
def Obligations.SpecialRegistersAreReadAndWritten : Prop :=
  IfsyncDiscardsItsLines ∧ RdsrReadsTheNamedRegister ∧ SpecialRegistersAreWritten ∧ RdtimeWritesContextTime

/-! ## Making, handing over, ending and restarting tasks (R42, R44, R47, R53, R107, R110, R119 to R121, R281, R400, R430) -/

/-- No LDQ, STQ or ATM entry is left. -/
def AccessesPerformed (s : State) : Prop := s.cur.queue .ldq = [] ∧ s.cur.queue .stq = [] ∧ s.cur.queue .atm = []

/-- O9. spawn, after the accesses it releases, writes its status: 2 for an aborting chain, 3 for a spent budget, 1 for a full pool, or
where the queues and cursors need what is free, and 0 with the new task Ready on the spawner's die, with its four arguments, its RCB and
node 0xFFFF_FFFF (R110). Readings of the model it rests on: log 33. -/
def Obligations.SpawnPlacesATask : Prop :=
  ∀ (s s1 s2 s3 : State) (d a b x : SReg) (tpl : BitVec 10) (va vb vx entry trcb : Word) (spp : Nat),
    (Instr.spawn d a b x tpl).portBad = false → AccessesPerformed s →
    s.take a = some (va, s1) → s1.take b = some (vb, s2) → s2.take x = some (vx, s3) →
    s.template s.cur.pool.ctx s.cur.pool.ttbl tpl = some (entry, spp, true, trcb) →
    let n := s.cur.pool.ctx
    let rcb := if trcb = 0 then s.cur.pool.rcb else trcb
    let die := s.cur.pool.die.toNat
    (s.chainAborted n rcb = true → ∀ t, s3.give d 2 = some t → exec (.spawn d a b x tpl) s = .next (t.past 2)) ∧
    (s.chainAborted n rcb = false → (s.spent n rcb die).isSome = true → ∀ t, s3.give d 3 = some t →
      exec (.spawn d a b x tpl) s = .next (t.past 2)) ∧
    (s.chainAborted n rcb = false → s.spent n rcb die = none → (s.spawnRoom s.cur.pool.die = false ∨ s.freeIndex die = none) → ∀ t, s3.give d 1 = some t →
      exec (.spawn d a b x tpl) s = .next (t.past 2)) ∧
    (∀ k, s.chainAborted n rcb = false → s.spent n rcb die = none → s.spawnRoom s.cur.pool.die = true → s.freeIndex die = some k →
      ∀ t, s3.give d 0 = some t →
      ∃ u new, exec (.spawn d a b x tpl) s = .next u ∧ u.cur = (t.past 2).cur ∧ u.others = s.others ++ [new] ∧
        new.status = .ready ∧ new.pool.die = s.cur.pool.die ∧ new.pool.index = k ∧ new.pool.ctx = n ∧ new.pool.rcb = rcb ∧
        new.pool.tpl = tpl ∧ new.pool.entry = entry ∧ new.pool.spp = spp ∧ new.pool.node = 0xFFFFFFFF ∧ new.pool.origin = 2 ∧
        new.pool.dist = 0 ∧ new.pool.args.toList = [va, vb, vx, s.cur.pool.node.setWidth 64] ∧
        new.regs.s.get 2 = va ∧ new.regs.s.get 3 = 0x10000)

/-- What a cut leaves of the registers: only token and semaphore counts may change, which get back what unperformed entries and copy
commands had taken, and none does where nothing had been taken (R19, R50, R298). -/
def GivesBack (t : Task) (g : Regs) : Prop :=
  g.s = t.regs.s ∧ g.p = t.regs.p ∧ g.v = t.regs.v ∧ g.m = t.regs.m ∧ g.h = t.regs.h ∧ g.td = t.regs.td ∧ g.k = t.regs.k ∧
  g.port = t.regs.port ∧
  ((∀ k, ∀ e ∈ t.queue k, e.taken = false) → (∀ c ∈ t.vcq, c.complete = false → c.met = false) → g = t.regs)

/-- brk stops its task at a cut whose SEQ value follows it when a debugger is attached, once every unit stands at its point, with the
code in the stop record and its context halted, and otherwise raises BREAK (R120, R425, R428). -/
def BrkStopsOrRaisesBreak : Prop :=
  (∀ (s : State) (core : Nat) (c : Ctx) (code : BitVec 12), s.ctx? s.cur.pool.ctx = some c → c.attached = true → s.cur.status = .running core →
    s.cur.queue .seq = [] → s.cur.aborting = false →
    (s.cur.queuesAtPoint = true →
      ∃ t r, exec (.brk code) s = .next t ∧ t.cur.status = .suspended ∧ GivesBack s.cur t.cur.regs ∧ t.cur.flow.stop = some r ∧
        r.reason = 4 ∧ r.dcause = 2 ∧ r.dcode = 0x41 ∧ r.brk = code ∧ r.cut.head? = some (s.cur.num .seq + 1) ∧
        (t.ctx? s.cur.pool.ctx).map (·.halted) = some true) ∧
    (s.cur.queuesAtPoint = false →
      ∃ t h, exec (.brk code) s = .next t ∧ t.cur.status = .running core ∧ t.cur.num .seq = s.cur.num .seq + 1 ∧ t.cur.regs = s.cur.regs ∧
        t.cur.flow.halt = some h ∧ h.reason = 4 ∧ h.dcause = 2 ∧ h.brk = code ∧ (t.ctx? s.cur.pool.ctx).map (·.halted) = some true)) ∧
  (∀ (s : State) (c : Ctx) (code : BitVec 12), s.ctx? s.cur.pool.ctx = some c → c.attached = false → s.Drained →
    ∃ f, f.code = 0x41 ∧ f.stream = .seq ∧ f.seq = s.cur.num .seq ∧ exec (.brk code) s = .next (takeFault f s))

/-- resume raises PRIV in a function's context and writes nothing; in a privileged one the suspended task whose frame is at s[a]
becomes Ready in the resumed class, with its registers, queues and place, and the caller goes on (R44, R121, R430). Where no
suspended task has its frame there, nothing else happens, which is the model's choice (log 38). -/
def ResumeIsPrivileged : Prop :=
  (∀ (s : State) (c : Ctx) (a : SReg), s.ctx? s.cur.pool.ctx = some c → c.privileged = false → s.Drained →
    exec (.resume a) s = .next (takeFault (atLane s .seq 0x05 s.cur.nextPc) s)) ∧
  (∀ (s s1 : State) (c : Ctx) (a : SReg) (va leaf : Word) (pa core : Nat), s.ctx? s.cur.pool.ctx = some c → c.privileged = true →
    (Instr.resume a).portBad = false → s.take a = some (va, s1) → s.cur.status = .running core →
    s.lookup s.cur.pool.ctx va = .ok (leaf, pa) →
    (∀ u ∈ s.others, u.status = .suspended → u.flow.service = none → placeOf leaf va 0 = (.hbm, u.backing) →
      (∀ x ∈ s.others, x.status = .suspended → x.flow.service = none → x.backing = u.backing → x = u) → u.tid ≠ s.cur.tid →
      ∃ t v, exec (.resume a) s = .next t ∧ t.cur = (s1.past 1).cur ∧ v ∈ t.others ∧ v.pool = u.pool ∧ v.status = .ready ∧
        v.flow.ready = some s.now ∧ v.regs = u.regs ∧ v.sys = u.sys ∧ v.queues = u.queues ∧ v.nums = u.nums ∧ v.thunks = u.thunks ∧
        v.flow.line = u.flow.line ∧ v.flow.lane = u.flow.lane ∧ v.flow.lanes = u.flow.lanes) ∧
    ((∀ u ∈ s.others, u.status = .suspended → u.flow.service = none → placeOf leaf va 0 ≠ (.hbm, u.backing)) →
      exec (.resume a) s = .next (s1.past 1)))

/-- yield goes on when no task of its die is Ready; when Owl could place a Ready task of its priority on its core, that task is staged
there and the yielding one becomes Ready, once every unit stands at its point (R53, R107, R425). -/
def YieldHandsOverToAnEqual : Prop :=
  (∀ (s : State) (core : Nat), s.cur.status = .running core → (∀ u ∈ s.others, u.pool.die = s.cur.pool.die → u.status ≠ .ready) →
    exec .yield s = .next (s.past 1)) ∧
  (∀ (s : State) (core : Nat) (u : Task), s.cur.status = .running core → (s.past 1).yieldTo (s.past 1).cur core = some u →
    u ∈ s.others → (∀ x ∈ s.others, x.tid ≠ s.cur.tid ∧ (x.tid = u.tid → x = u)) →
    (s.cur.queuesAtPoint = false → exec .yield s = .next s) ∧
    (s.cur.queuesAtPoint = true →
      ∃ t v, exec .yield s = .next t ∧ t.cur.status = .ready ∧ GivesBack s.cur t.cur.regs ∧ t.cur.flow.line = (s.cur.flow.after 1).line ∧
        t.cur.flow.lane = (s.cur.flow.after 1).lane ∧ v ∈ t.others ∧ v.tid = u.tid ∧ v.status = .staged core ∧ v.regs = u.regs))

/-- O10. brk stops at a debugger or raises BREAK, resume is privileged and makes the stopped task Ready, and yield hands its core
to a Ready task of its priority (R44, R53, R107, R120, R121, R425, R428, R430). Readings of the model it rests on: log 31, 38. -/
def Obligations.TasksBreakResumeAndYield : Prop :=
  BrkStopsOrRaisesBreak ∧ ResumeIsPrivileged ∧ YieldHandsOverToAnEqual

/-- No sketch slot of the acting task is bound. -/
def Unbound (s : State) : Prop := ∀ i : Fin 8, s.cur.regs.k.get i = none

/-- A task that has nothing left to unbind, to be charged or to land, and that no debug stop awaits. -/
def Unburdened (s : State) : Prop := Unbound s ∧ s.cur.sys.uncharged = 0 ∧ s.cur.adrift = [] ∧ s.cur.flow.due = none

/-- done of a task without a node ends it: its pool entry is free and the other tasks stand as they did (R44, R47,
R111). -/
def DoneEndsATaskWithoutANode : Prop :=
  ∀ (s : State) (core : Nat), s.cur.status = .running core → s.cur.pool.origin ≠ 0 → s.cur.pool.origin ≠ 3 → s.cur.flow.finishing = none →
    s.Drained → Unbound s → s.cur.flow.due = none → (∀ u ∈ s.others, u.tid ≠ s.cur.tid) →
    ∃ t, exec .done s = .next t ∧ t.cur = {} ∧ t.others = s.others

/-- done of a fault handler whose record's DISP byte is 1 makes the faulting task Ready in the resumed class (R44,
R400). -/
def DoneOfAHandlerReadiesItsTask : Prop :=
  ∀ (s : State) (core : Nat) (u : Task) (r : StopRec), s.cur.status = .running core → s.cur.pool.origin = 3 →
    s.cur.flow.finishing = none → s.Drained → Unburdened s → (∀ v ∈ s.others, v.tid ≠ s.cur.tid) →
    s.cur.handles = some u.tid → s.others.find? (·.tid == u.tid) = some u → u.status = .suspended → u.flow.stop = some r →
    r.reason = 3 → s.cur.recordVa ≠ 0 → s.readPresent s.cur.pool.ctx (s.cur.recordVa + 2) 1 = some [1] →
    ∃ t v, exec .done s = .next t ∧ t.cur = {} ∧ v ∈ t.others ∧ v.tid = u.tid ∧ v.status = .ready ∧
      v.flow.ready = some s.now ∧ v.regs = u.regs

/-- A node record at a VA that stands in one writable page of this module's HBM, at the given byte. -/
def NodeAt (s : State) (leaf : Word) (at_ : Nat) : Prop :=
  s.cur.pool.nodeVa.toNat % 64 = 0 ∧ leafW leaf = true ∧ leafDlt leaf = false ∧ localHbm leaf = true ∧
  placeOf leaf s.cur.pool.nodeVa 0 = (.hbm, at_) ∧ ∀ off : Word, off.toNat < 64 → s.Maps s.cur.pool.ctx (s.cur.pool.nodeVa + off) leaf

/-- A context's walk of an address ends at the entry at pa, which holds a leaf, also once A or A and D are set there or the bytes from lo
on are written: its tables lie apart from those. -/
def Walks (s : State) (n : Nat) (va leaf : Word) (pa lo len : Nat) : Prop :=
  s.lookup n va = .ok (leaf, pa) ∧ BitVec.ofNat 64 (Mem.num s.hbm pa 8) = leaf ∧
  ∀ (c : Ctx) (m : Mem) (e : Word), s.ctx? n = some c → (e = leaf ∨ e = leaf ||| 8 ∨ e = leaf ||| 24) → BitVec.ofNat 64 (Mem.num m pa 8) = e →
    (∀ j, (j < lo ∨ lo + len ≤ j) → (j < pa ∨ pa + 8 ≤ j) → Mem.read m j = Mem.read s.hbm j) → walkTables m c.root va = .ok (e, pa)

/-- No translation of a context's address reads the bytes from lo on: the tables lie apart from them. -/
def TablesApart (s : State) (n lo len : Nat) (va : Word) : Prop :=
  ∀ (c : Ctx) (m : Mem), s.ctx? n = some c → (∀ j, j < lo ∨ lo + len ≤ j → Mem.read m j = Mem.read s.hbm j) →
    walkTables m c.root va = walkTables s.hbm c.root va

/-- done of a node writes INITDC back into its DC and discards its pending thunks before the first decrement is
issued (R42, R47). That its walks set A and D is the model's choice (log 53). -/
def DoneOfANodeRestoresItsCounter : Prop :=
  ∀ (s : State) (core : Nat) (leaf : Word) (a pa : Nat), s.MemoryWf → s.cur.status = .running core → s.cur.pool.origin = 0 →
    s.cur.pool.node ≠ 0xFFFFFFFF → s.cur.flow.finishing = none → s.Drained → Unburdened s → s.transit = [] → s.walks = [] → NodeAt s leaf a →
    0 < Mem.num s.hbm (a + 0x18) 4 → (pa + 8 ≤ a ∨ a + 64 ≤ pa) →
    (∀ off : Word, off.toNat < 64 → Walks s s.cur.pool.ctx (s.cur.pool.nodeVa + off) leaf pa (a + 8) 8) →
    ∃ t, exec .done s = .next t ∧ Mem.num t.hbm (a + 8) 8 = Mem.num s.hbm (a + 4) 4 ∧ t.cur.thunks = [] ∧
      t.cur.flow.finishing = some 0 ∧ t.cur.status = .running core ∧ BitVec.ofNat 64 (Mem.num t.hbm pa 8) = leaf ||| 24 ∧
      (∀ j, (j < a + 8 ∨ a + 16 ≤ j) → (j < pa ∨ pa + 8 ≤ j) → Mem.read t.hbm j = Mem.read s.hbm j)

/-- The next decrement of a done takes one from its successor's counter, once the entries of the pages that it walks have A and D set (R42,
R281). -/
def DecrementsOfDoneTakeOne : Prop :=
  ∀ (s : State) (core k idx v : Nat) (leaf leaf2 leaf3 list va : Word) (a b c : Nat), s.cur.status = .running core →
    s.MemoryWf → s.Clear → s.cur.flow.due = none → s.cur.pool.origin = 0 → s.cur.pool.node ≠ 0xFFFFFFFF → s.cur.flow.finishing = some k → NodeAt s leaf a →
    list = BitVec.ofNat 64 (Mem.num s.hbm (a + 0x10) 8) → k + 1 < Mem.num s.hbm (a + 0x18) 4 →
    s.Maps s.cur.pool.ctx (list + BitVec.ofNat 64 (4 * k)) leaf2 → placeOf leaf2 (list + BitVec.ofNat 64 (4 * k)) s.cur.cluster = (.hbm, b) →
    idx = Mem.num s.hbm b 4 →
    va = s.cur.pool.nodeVa - BitVec.ofNat 64 (64 * s.cur.pool.node.toNat) + BitVec.ofNat 64 (64 * idx) + 8 →
    s.Maps s.cur.pool.ctx va leaf3 → leafW leaf3 = true → leafDlt leaf3 = false → localHbm leaf3 = true →
    placeOf leaf3 va 0 = (.hbm, c) → (s.clqRoom (homeOf (leafMs leaf3) c)).isSome = true → Mem.num s.hbm c 8 = v + 2 →
    leaf.getLsbD 3 = true → leaf2.getLsbD 3 = true → leaf3.getLsbD 3 = true → leaf3.getLsbD 4 = true →
    (a + 64 ≤ c ∨ c + 8 ≤ a) → (∀ off : Word, off.toNat < 64 → TablesApart s s.cur.pool.ctx c 8 (s.cur.pool.nodeVa + off)) →
    ∃ t, exec .doneSuccessorDecrement s = .next t ∧ Mem.num t.hbm c 8 = v + 1 ∧ t.cur.flow.finishing = some (k + 1) ∧
      (∀ j, j < c ∨ c + 8 ≤ j → Mem.read t.hbm j = Mem.read s.hbm j) ∧ t.clq = s.clq

/-- O11. done ends a task without a node, makes a handled task Ready again, and for a node restores its counter and then takes
one from each successor's (R42, R44, R47, R111, R281, R400). Readings of the model it rests on: log 18, 53. -/
def Obligations.DoneEndsItsTask : Prop :=
  DoneEndsATaskWithoutANode ∧ DoneOfAHandlerReadiesItsTask ∧ DoneOfANodeRestoresItsCounter ∧ DecrementsOfDoneTakeOne

/-- What a trap leaves of its task: Ready in the resumed class past the trap, with the result in s[d] (R119). -/
def Served (s t u : State) : Prop :=
  t.cur.status = .ready ∧ t.cur.flow.ready = some s.now ∧ t.cur.regs = u.cur.regs ∧ t.cur.num .seq = s.cur.num .seq + 1 ∧
  t.cur.flow.line = (s.cur.flow.after 1).line ∧ t.cur.flow.lane = (s.cur.flow.after 1).lane

/-- As Served, but the shootdown of a page may have revoked handles of the task (R96). -/
def ServedAfterShootdown (s t u : State) : Prop :=
  t.cur.status = .ready ∧ t.cur.flow.ready = some s.now ∧ t.cur.regs = { u.cur.regs with h := t.cur.regs.h } ∧
  t.cur.num .seq = s.cur.num .seq + 1 ∧ t.cur.flow.line = (s.cur.flow.after 1).line ∧ t.cur.flow.lane = (s.cur.flow.after 1).lane

/-- Only the bytes of one table entry differ. -/
def EntryIs (s t : State) (at_ : Nat) (leaf : Word) : Prop :=
  BitVec.ofNat 64 (Mem.num t.hbm at_ 8) = leaf ∧ ∀ z, z < at_ ∨ at_ + 8 ≤ z → Mem.read t.hbm z = Mem.read s.hbm z

/-- The chip that holds the page of a leaf, none of host memory and cluster SRAM. -/
def chipOf (leaf : Word) : Option Nat :=
  match (frameOf leaf).1 with
  | .peer => some (leafPfn leaf / 2 ^ 30 % 2 ^ 10)
  | .hbm => some Config.chip.toNat
  | _ => none

/-- A handler calls a service with a sound argument block: the page of its VA is there. -/
def Calls (s s1 : State) (d a : SReg) (svc : BitVec 12) (va leaf : Word) (pa arg : Nat) : Prop :=
  (Instr.trap d a svc).portBad = false ∧ s.Drained ∧ s.Untraced ∧ s.MemoryWf ∧ s.cur.pool.origin = 3 ∧ s.cur.sys.uncharged = 0 ∧
  s.cur.adrift = [] ∧ s.cur.isRunning = true ∧ (∃ c, s.ctx? s.cur.pool.ctx = some c) ∧ (s1.give d 0).isSome = true ∧
  ∃ block bs, s.take a = some (block, s1) ∧ block.toNat % 8 = 0 ∧ s.readPresent s.cur.pool.ctx block 16 = some bs ∧
    va = BitVec.ofNat 64 (leNat (bs.take 8)) ∧ leNat (bs.drop 8) = arg ∧ s.lookup s.cur.pool.ctx va = .ok (leaf, pa)

/-- PIN of an unpinned local 2 MiB page sets PIN in its leaf, GRANT_RAP of a page with peer aperture sets RAP where the owner agrees, which
is a free value (log 2), and MIGRATE moves a page that no rule holds where it is: in the leaf AP and PFN change alone, and the page's bytes
stand at the new place; each waits while something holds the page's translation (R96, R401, R422 to R424). -/
def ServicesChangeLeaves : Prop :=
  (∀ (s s1 u : State) (d a : SReg) (va leaf : Word) (pa : Nat), Calls s s1 d a 3 va leaf pa 0 → leafSz leaf = 2 → leafAp leaf = 0 →
    leafPin leaf = false →
    (s.mayShoot s.cur.pool.ctx (pageOf leaf va) (2 ^ 21) = true → s1.give d 0 = some u →
      ∃ t, exec (.trap d a 3) s = .next t ∧ ServedAfterShootdown s t u ∧ EntryIs s t pa (leaf ||| 0x2000)) ∧
    (s.mayShoot s.cur.pool.ctx (pageOf leaf va) (2 ^ 21) = false →
      ∃ t, exec (.trap d a 3) s = .next t ∧ t.cur.status = .suspended ∧ t.cur.flow.service = some ⟨d, 3, va, 0, []⟩ ∧ t.hbm = s.hbm)) ∧
  (∀ (s s1 u : State) (d a : SReg) (va leaf : Word) (pa : Nat), Calls s s1 d a 4 va leaf pa 0 → leafAp leaf = 1 →
    s.mayShoot s.cur.pool.ctx (pageOf leaf va) (pageBytes (leafSz leaf)) = true →
    let agrees := (Config.freeWord s.free).getLsbD 0 = true
    (agrees → s1.give d 0 = some u → ∃ t, exec (.trap d a 4) s = .next t ∧ ServedAfterShootdown s t u ∧ EntryIs s t pa (leaf ||| 0x200)) ∧
    (¬ agrees → s1.give d 3 = some u → ∃ t, exec (.trap d a 4) s = .next t ∧ Served s t u ∧ t.hbm = s.hbm)) ∧
  (∀ (s s1 : State) (d a : SReg) (va leaf : Word) (pa : Nat) (chip : BitVec 16), Calls s s1 d a 2 va leaf pa chip.toNat →
    let target := if chip = 0xFFFF then Config.chip.toNat else chip.toNat % 2 ^ 10
    let places : Places := ((s.cur.pool.ctx, pageOf leaf va) :: (s.sharers leaf).map fun m => (m.ctx, m.va)).eraseDups
    (∀ u r, (((chip ≠ 0xFFFF ∧ 2 ^ 10 ≤ chip.toNat) ∨ chipOf leaf = none) ∧ r = 2) ∨
        ((chip = 0xFFFF ∨ chip.toNat < 2 ^ 10) ∧ chipOf leaf = some target ∧ r = 0) ∨
        ((chip = 0xFFFF ∨ chip.toNat < 2 ^ 10) ∧ chipOf leaf ≠ none ∧ chipOf leaf ≠ some target ∧
          (leafPin leaf = true ∨ s.isFixed places = true ∨ 2 ≤ s.movesAt places) ∧ r = 1) →
      s1.give d r = some u → ∃ t, exec (.trap d a 2) s = .next t ∧ Served s t u ∧ t.hbm = s.hbm ∧ t.peerMem = s.peerMem) ∧
    ((chip = 0xFFFF ∨ chip.toNat < 2 ^ 10) → chipOf leaf ≠ none → chipOf leaf ≠ some target → leafPin leaf = false →
      s.isFixed places = false → s.movesAt places < 2 → (∀ m ∈ s.sharers leaf, s.mayShoot m.ctx m.va (pageBytes (leafSz m.leaf)) = true) →
      (⟨s.cur.pool.ctx, pageOf leaf va, pa, leaf⟩ : Mapping) ∈ s.sharers leaf →
      (∀ x ∈ s.sharers leaf, ∀ y ∈ s.sharers leaf, x.entry = y.entry ∧ x.leaf = y.leaf ∨ x.entry + 8 ≤ y.entry ∨ y.entry + 8 ≤ x.entry) →
      ∃ t u, exec (.trap d a 2) s = .next t ∧
        ((s1.give d 3 = some u ∧ Served s t u ∧ t.hbm = s.hbm ∧ t.peerMem = s.peerMem) ∨
         (s1.give d 0 = some u ∧ ServedAfterShootdown s t u ∧
          let e : Word := BitVec.ofNat 64 (Mem.num t.hbm pa 8)
          leafAp e = (if target = Config.chip.toNat then 0 else 1) ∧ chipOf e = some target ∧ (∀ j, j < 7 → e.getLsbD j = leaf.getLsbD j) ∧
          (∀ j, 9 ≤ j → j < 24 → e.getLsbD j = leaf.getLsbD j) ∧
          ∀ j < pageBytes (leafSz leaf), Mem.read (t.memOf (frameOf e).1) ((frameOf e).2 + j) = Mem.read (s.memOf (frameOf leaf).1) ((frameOf leaf).2 + j)))))

/-- O12. Services of trap: only a fault handler may call them, and TRAP is raised for another task or number; MAP of a present
page answers 0 at once, MAP of a missing one suspends the task with a request posted, PIN answers 1 for a page that is no local
2 MiB page and 0 for a pinned one, a bad argument block answers 2, and PIN, GRANT_RAP and MIGRATE change the leaf that they are for
(R96, R119, R401, R422 to R424). Readings of the model it rests on: log 35, 36, 37. -/
def Obligations.TrapServicesAnswer : Prop :=
  ServicesChangeLeaves ∧
  (∀ (s : State) (d a : SReg) (svc : BitVec 12), (Instr.trap d a svc).portBad = false → s.Drained →
    (s.cur.pool.origin ≠ 3 ∨ svc.toNat = 0 ∨ 4 < svc.toNat) →
    ∃ f, f.code = 0x42 ∧ f.stream = .seq ∧ f.seq = s.cur.num .seq ∧ exec (.trap d a svc) s = .next (takeFault f s)) ∧
  (∀ (s s1 u : State) (d a : SReg) (svc : BitVec 12) (block va leaf : Word) (pa r : Nat) (bs : List Byte),
    (Instr.trap d a svc).portBad = false → s.Drained → s.Untraced → s.cur.pool.origin = 3 → s.take a = some (block, s1) →
    block.toNat % 8 = 0 → s.readPresent s.cur.pool.ctx block 16 = some bs → va = BitVec.ofNat 64 (leNat (bs.take 8)) →
    ((svc = 1 ∧ leNat (bs.drop 8) < 2 ∧ s.lookup s.cur.pool.ctx va = .ok (leaf, pa) ∧ r = 0) ∨
     (svc = 3 ∧ leNat (bs.drop 8) = 0 ∧ s.lookup s.cur.pool.ctx va = .ok (leaf, pa) ∧ (leafSz leaf ≠ 2 ∨ leafAp leaf ≠ 0) ∧ r = 1) ∨
     (svc = 3 ∧ leNat (bs.drop 8) = 0 ∧ s.lookup s.cur.pool.ctx va = .ok (leaf, pa) ∧ leafSz leaf = 2 ∧ leafAp leaf = 0 ∧
       leafPin leaf = true ∧ r = 0) ∨
     (svc = 4 ∧ leNat (bs.drop 8) = 0 ∧ s.lookup s.cur.pool.ctx va = .ok (leaf, pa) ∧ leafAp leaf ≠ 1 ∧ r = 2) ∨
     (svc = 1 ∧ 2 ≤ leNat (bs.drop 8) ∧ r = 2) ∨ ((svc = 3 ∨ svc = 4) ∧ leNat (bs.drop 8) ≠ 0 ∧ r = 2)) →
    s1.give d (BitVec.ofNat 64 r) = some u → ∃ t, exec (.trap d a svc) s = .next t ∧ Served s t u) ∧
  (∀ (s s1 u : State) (d a : SReg) (svc : BitVec 12) (block : Word), (Instr.trap d a svc).portBad = false → s.Drained → s.Untraced →
    s.cur.pool.origin = 3 → 1 ≤ svc.toNat → svc.toNat ≤ 4 → s.take a = some (block, s1) →
    (block.toNat % 8 ≠ 0 ∨ s.readPresent s.cur.pool.ctx block 16 = none) → s1.give d 2 = some u →
    ∃ t, exec (.trap d a svc) s = .next t ∧ Served s t u) ∧
  (∀ (s s1 u : State) (d a : SReg) (block va : Word) (c : Byte) (x : Ctx) (bs : List Byte), (Instr.trap d a 1).portBad = false →
    s.Drained → s.Untraced → s.cur.pool.origin = 3 → s.take a = some (block, s1) → block.toNat % 8 = 0 →
    s.readPresent s.cur.pool.ctx block 16 = some bs → va = BitVec.ofNat 64 (leNat (bs.take 8)) → leNat (bs.drop 8) < 2 →
    canonical va = true → s.lookup s.cur.pool.ctx va = .error c → s1.give d 0 = some u → s.ctx? s.cur.pool.ctx = some x →
    (x.prWrite - x.prRead).toNat < x.prSize → (s.fns.lookup x.fn.toNat).map (·.enabled) = some true →
    ∃ t y, exec (.trap d a 1) s = .next t ∧ t.cur.status = .suspended ∧ t.cur.regs = s1.cur.regs ∧
      t.cur.flow.service = some ⟨d, 1, va, leNat (bs.drop 8), []⟩ ∧ t.ctx? s.cur.pool.ctx = some y ∧
      (va &&& 0xFFFFFFFFFFFFF000) ∈ y.posted)

/-! ## The scheduler (R31, R32, R43 to R45, R323 to R327, R425) -/

/-- O13. Owl: the first Ready entry in key order that its budgets and a core admit is staged on the core R323 gives; with
no staged slot free, a staged task of lower priority gives way first, then a running one of lower priority is pre-empted,
and a running one of equal priority only after 2^24 cycles in its slot, for an entry that cannot be placed or given room otherwise (R323,
R326, R327). -/
def Obligations.OwlPlacesAndMakesRoom : Prop :=
  (∀ (s : State) (die : BitVec 2) (e : Task) (core : Nat), (s.readyOrder die).head? = some e → s.budgetOk e [] = true →
    s.coreFor e = some core → e ∈ s.others → (s.cur.status = .idle ∨ (s.cur.coreOf.isSome = true ∧ ∀ u ∈ s.others, u.tid ≠ s.cur.tid)) →
    (∀ u ∈ s.others, u.tid = e.tid → u = e) →
    ∃ t u, exec (.owlPlace die) s = .next t ∧ u ∈ t.others ∧ u.tid = e.tid ∧ u.status = .staged core ∧ u.regs = e.regs ∧
      core / 48 = die.toNat ∧ s.stagedOn core = none ∧ s.pagesOn core + e.pool.spp ≤ 64 ∧ t.cur = s.cur) ∧
  (∀ (s : State) (die : BitVec 2) (e : Task), s.wantsRoom die = some e → s.unstageable e ≠ [] →
    ∃ u ∈ s.unstageable e, (∀ v ∈ s.unstageable e, s.prioOf u ≤ s.prioOf v) ∧ s.prioOf u < s.prioOf e ∧
      exec (.owlUnstage die) s = .next (s.setTask { u with status := .ready })) ∧
  (∀ (s : State) (die : BitVec 2) (e : Task), s.wantsRoom die = some e → s.unstageable e = [] → s.preempting e = false →
    (∃ v ∈ s.victims e, s.prioOf v < s.prioOf e) →
    ∃ v ∈ s.victims e, s.prioOf v < s.prioOf e ∧ (∀ w ∈ s.victims e, s.prioOf v ≤ s.prioOf w) ∧
      exec (.owlPreempt die) s = .next (s.setTask { v with flow := { v.flow with preempt := some e.tid } })) ∧
  (∀ (s : State) (die : BitVec 2) (e : Task), (s.readyOrder die).head? = some e → ¬(s.budgetOk e [] = true ∧ (s.coreFor e).isSome = true) →
    (s.wantsRoom die = none ∨ (s.unstageable e = [] ∧ ∀ v ∈ s.victims e, s.prioOf e ≤ s.prioOf v)) → s.preempting e = false →
    (∃ v ∈ s.victims e, s.prioOf v = s.prioOf e ∧ 2 ^ 24 ≤ v.sys.slot) →
    ∃ v ∈ s.victims e, s.prioOf v = s.prioOf e ∧ 2 ^ 24 ≤ v.sys.slot ∧
      (∀ w ∈ s.victims e, s.prioOf w = s.prioOf e → w.sys.slot ≤ v.sys.slot) ∧
      exec (.equalPriorityTimeslice die) s = .next (s.setTask { v with flow := { v.flow with preempt := some e.tid } }))

/-- A staged task enters its core's empty running slot; once every unit stands at its point a pre-empted one stops at its cut and is Ready
in the resumed class, with its registers but for what the cut gives back and the numbers of its streams, and one that a debug stop waits
for is suspended with the stop's cause (R43, R44, R322, R425, R428, R447). -/
def TasksEnterAndLeaveTheirSlot : Prop :=
  (∀ (s : State) (core : Nat), s.cur.status = .staged core → s.runningOn core = none → s.cur.queue .lnk = [] →
    s.cur.flow.stop.bind StopRec.spill = none →
    ∃ t, exec (.stagedToRunning core) s = .next t ∧ t.cur.status = .running core ∧ t.cur.regs = s.cur.regs ∧
      t.cur.sys = s.cur.sys ∧ t.cur.queues = s.cur.queues ∧ t.cur.flow.line = s.cur.flow.line ∧ t.cur.flow.ranSince = s.now ∧
      t.others = s.others) ∧
  (∀ (s : State) (core tid : Nat), s.cur.status = .running core → s.cur.flow.preempt = some tid → s.cur.flow.halt = none →
    (s.cur.atPoint = true → s.cur.queuesAtPoint = true →
      ∃ t r, exec .preemptionCut s = .next t ∧ t.cur.status = .ready ∧ t.cur.flow.ready = some s.now ∧ GivesBack s.cur t.cur.regs ∧
        t.cur.nums = s.cur.nums ∧ t.cur.flow.stop = some r ∧ r.reason = 1 ∧ r.nextPc = s.cur.nextPc ∧
        r.cut = Stream.all.map s.cur.cutAt ∧ t.cur.sys.wdog = 0) ∧
    ((s.cur.atPoint = false ∨ s.cur.queuesAtPoint = false) → exec .preemptionCut s = .next s)) ∧
  (∀ (s : State) (core : Nat) (h : StopRec), s.cur.status = .running core → s.cur.flow.halt = some h → h.reason ≠ 6 →
    s.cur.atPoint = true → s.cur.queuesAtPoint = true →
    ∃ t r, exec .preemptionCut s = .next t ∧ t.cur.status = .suspended ∧ GivesBack s.cur t.cur.regs ∧ t.cur.nums = s.cur.nums ∧
      t.cur.flow.stop = some r ∧ r.reason = 4 ∧ r.dcause = h.dcause ∧ r.dindex = h.dindex ∧ r.dcode = h.dcode ∧ r.dslot = h.dslot ∧
      r.nextPc = s.cur.nextPc ∧ r.cut = Stream.all.map s.cur.cutAt ∧ t.cur.sys.wdog = s.cur.sys.wdog)

/-- O14. Cycles held in the slot are charged to CYCUSED of the RCB, and a budget that this reaches is noted; a spent budget writes a BUDGET
record, also once no task of it runs, and a count above WDOGI × 1,024 stops the task with WDOG (R31, R32). -/
def Obligations.SlotsAreCharged : Prop :=
  (∀ (s : State) (core : Nat) (rcb leaf : Word) (pa a : Nat), s.MemoryWf → s.cur.status = .running core → s.cur.pool.rcb = rcb → rcb ≠ 0 →
    rcb.toNat % 256 = 0 → s.ancestry s.cur.pool.ctx chainFuel rcb (s.poolImage s.cur.pool) = [rcb] →
    (∀ off : Word, off.toNat < 256 → s.lookup s.cur.pool.ctx (rcb + off) = .ok (leaf, pa)) → leafAp leaf = 0 → leafW leaf = true →
    placeOf leaf rcb 0 = (.hbm, a) →
    ∃ t, exec .cycusedUpdate s = .next t ∧ t.cur.sys.uncharged = 0 ∧
      (let old := Mem.num s.hbm (a + 0x60 + 8 * s.cur.pool.die.toNat) 8
       let b := (s.effOf s.cur.pool.ctx rcb (s.poolImage s.cur.pool)).cycBudget
       Mem.num t.hbm (a + 0x60 + 8 * s.cur.pool.die.toNat) 8 = (old + s.cur.sys.uncharged) % 2 ^ 64 ∧
         (old < b → b ≤ old + s.cur.sys.uncharged → (s.cur.pool.ctx, rcb, s.cur.pool.die.toNat, s.cur.pool.node) ∈ t.overBudget))) ∧
  (∀ (s : State) (core : Nat) (rcb : Word), s.cur.status = .running core → s.cur.sys.uncharged = 0 →
    s.spent s.cur.pool.ctx s.cur.pool.rcb s.cur.pool.die.toNat (s.poolImage s.cur.pool) = some rcb →
    ∃ bs l, bs.head? = some 0x61 ∧ (∀ x, x ∈ l ↔ x ∈ s.overBudget ∧ (x.1, x.2.1, x.2.2.1) ≠ (s.cur.pool.ctx, rcb, s.cur.pool.die.toNat)) ∧
      exec .budget s = .next (({ s with overBudget := l }.logFault s.cur.pool.ctx rcb bs).1.abortDomain s.cur.pool.ctx rcb)) ∧
  (∀ (s : State) (n : Nat) (rcb : Word) (die : Nat) (node : BitVec 32) (rest : List (Nat × Word × Nat × BitVec 32)),
    s.cur.isRunning = false → s.overBudget = (n, rcb, die, node) :: rest →
    ∃ bs l, bs.head? = some 0x61 ∧ (∀ x, x ∈ l ↔ x ∈ rest ∧ (x.1, x.2.1, x.2.2.1) ≠ (n, rcb, die)) ∧
      exec .budget s = .next (({ s with overBudget := l }.logFault n rcb bs).1.abortDomain n rcb)) ∧
  (∀ (s : State) (core : Nat), s.cur.status = .running core → s.cur.othersUnder .seq = false → (s.taskEff s.cur).wdogi ≠ 0 →
    (s.taskEff s.cur).wdogi * 1024 < s.cur.sys.wdog →
    ∃ bs r, bs.head? = some 0x60 ∧ r.reason = 6 ∧ r.dcode = 0x60 ∧
      exec .wdog s = .next (((s.suspend r).logTask s.cur bs).1.abortTask s.cur))

/-! ## Lines and dispatch (R49, R59 to R62, R70, R349, R353, R449, R458) -/

/-- The 32 bytes that a fetch of the acting task's line at an address of HBM may find: those that memory holds, or those of a copy of the
line that its core holds (R108, R109; log 57). -/
def LineFound (s : State) (a : Nat) (bs : List Byte) : Prop :=
  bs = Mem.readN s.hbm a 32 ∨ ∃ x ∈ s.lineCache, x.core = s.cur.coreOf.getD 0 ∧ x.ctx = s.cur.pool.ctx ∧
    x.va = s.cur.flow.line.toNat / 32 ∧ x.place = (0, a) ∧ bs = x.bytes

/-- Entering a line: a present executable page gives its eight lanes whole, the header decides whether the sequencer stands
at the first instruction or goes on to the next line, and a header that R61 forbids raises ILLEGAL_LINE (R59, R61,
R62, R109). Where its core holds a copy of the line, which bytes it finds is the model's choice (log 57). -/
def LinesAreEnteredThroughTheirHeader : Prop :=
  ∀ (s : State) (leaf : Word) (pa a : Nat), s.MemoryWf → s.cur.flow.entered = false → s.transit = [] → s.poison = [] → s.launches = [] →
    s.walks = [] → s.air = none → s.cur.queue .seq = [] → s.halfWritten .hbm a = false →
    s.lookup s.cur.pool.ctx s.cur.flow.line = .ok (leaf, pa) → leafX leaf = true → leafDlt leaf = false →
    placeOf leaf s.cur.flow.line s.cur.cluster = (.hbm, a) → (pa + 8 ≤ a ∨ a + 32 ≤ pa) →
    ∃ bs, LineFound s a bs ∧
    (headerOk ((lanesOf bs).headD 0) = true → ∃ t, exec .lineEntry s = .next t ∧ t.cur.regs = s.cur.regs ∧ t.cur.nums = s.cur.nums ∧
      (match nextLane ((lanesOf bs).headD 0) 8 1 with
        | none => t.cur.flow.line = s.cur.flow.line + 32 ∧ t.cur.flow.entered = false ∧ t.cur.flow.lane = 1
        | some l => t.cur.flow.entered = true ∧ t.cur.flow.lane = l ∧ t.cur.flow.line = s.cur.flow.line ∧ t.cur.flow.lanes = lanesOf bs)) ∧
    (headerOk ((lanesOf bs).headD 0) = false → s.Drained → exec .lineEntry s = .next (takeFault (atLane s .seq 0x01 s.cur.flow.line) s))

/-- Sources read in order, with the state after them. -/
def takes (s : State) : List SReg → Option (List Word × State)
  | [] => some ([], s)
  | r :: rest =>
    match s.take r with
    | none => none
    | some (x, s1) =>
      match takes s1 rest with
      | none => none
      | some (xs, s2) => some (x :: xs, s2)

/-- The entry that an instruction becomes at the tail of a queue: the queue's next number, the operands it has read, the last mark and the
prefetch distance; an afence reads no operand and holds the number of return-free entries dispatched since the one before it (R49, R60,
R98, R274). -/
def entryOf (s : State) (k : Stream) (i : Instr) (caps : List Word) (h : Option Handle) : Entry :=
  { stream := k, num := s.cur.num k, ins := i, caps := if i = .afence then [BitVec.ofNat 64 s.cur.freed] else caps, h, ord := s.cur.ords,
    mark := s.cur.marked, pfd := s.cur.sys.pfd.toNat }

/-- The entries that afence counts (R274). -/
def countsFree : Instr → Bool
  | .atomnr .. | .fatomnr .. | .vfaddnr .. => true
  | .nbx op _ _ => decide (op ≠ .sum)
  | _ => false

/-- The handle that an instruction names, if any, as an entry records it, once it passes the checks of R95: it is bound; its addresses lie
in its page, where the translation is there; an entry that writes needs write intent, and one of STQ but lcln and linv a page with W = 1. -/
def HandlePasses (s : State) (k : Stream) (i : Instr) (caps : List Word) (h : Option Handle) : Prop :=
  match Instr.handle i with
  | none => h = none
  | some hr => ∃ x, h = some x ∧ x = s.cur.regs.h.get hr.toFin ∧ (Instr.writes i k = true → x.write = true) ∧
      (x.bind = .pending ∨ (∃ c, c ≠ 0x14 ∧ x.bind = .faulted c) ∨
        ∃ leaf, x.bind = .valid leaf ∧ (entryOf s k i caps none).outside leaf x.base = none ∧
          (Instr.writes i k = true → k = .stq → leafW leaf = true))

/-- The fault that a handle raises as an entry would record it, with its code and address (R95). -/
def HandleFails (s : State) (k : Stream) (i : Instr) (caps : List Word) (x : Handle) (code : Byte) (va : Word) : Prop :=
  ((x.bind = .invalid ∨ x.bind = .revoked) ∧ code = 0x13 ∧ va = x.base) ∨ (x.bind = .faulted 0x14 ∧ code = 0x14 ∧ va = x.base) ∨
  (∃ leaf, x.bind = .valid leaf ∧ (entryOf s k i caps none).outside leaf x.base = some va ∧ code = 0x14) ∨
  (Instr.writes i k = true ∧ code = 0x11 ∧ va = x.base ∧
    ((x.write = false ∧ (x.bind = .pending ∨ ∃ c, c ≠ 0x14 ∧ x.bind = .faulted c)) ∨
     ∃ leaf, x.bind = .valid leaf ∧ (entryOf s k i caps none).outside leaf x.base = none ∧
       (x.write = false ∨ (k = .stq ∧ leafW leaf = false))))

/-- The fields of a link transfer fit: the reserved bits of its selector are 0, its channel is the context's, and it moves 1 to 2^30
bytes (R301, R302). -/
def TransferFits (c : Ctx) (caps : List Word) : Prop :=
  let sel := caps.getD 0 0
  (∀ j, (10 ≤ j ∧ j < 16) ∨ 24 ≤ j → sel.getLsbD j = false) ∧ c.chanFirst ≤ sel.toNat / 2 ^ 16 % 2 ^ 8 ∧
  sel.toNat / 2 ^ 16 % 2 ^ 8 < c.chanFirst + c.chanCount ∧ 1 ≤ (caps.getD 2 0).toNat ∧ (caps.getD 2 0).toNat ≤ 2 ^ 30

/-- The sequencer of a running task stands at an instruction of a queue. -/
def AtQueueLane (s : State) (i : Instr) (k : Stream) (c : Ctx) : Prop :=
  Instr.stream i = some k ∧ k ≠ .seq ∧ i.portBad = false ∧ s.cur.isRunning = true ∧ s.cur.flow.entered = true ∧ s.cur.flow.timed = none ∧
  s.cur.flow.finishing = none ∧ s.cur.laneEngine = k ∧ s.ctx? s.cur.pool.ctx = some c ∧ c.breaks = [] ∧
  decodeLane s.cur.flow.lanes s.cur.flow.lane = .ok i

/-- A queue instruction becomes the entry at the tail of its queue: it takes that queue's next
number and its scalar operands, records the translation of the handle that it names once its checks pass, and the sequencer goes on; with
its queue full, 16 copy commands open, or while a register that it names waits for a result in flight, it is held. A handle that fails a
check, and a transfer whose fields do not fit, raise their fault once the task has drained (R49, R60, R70, R80, R95, R274, R299, R301). -/
def DispatchAppendsAnEntry : Prop :=
  ∀ (s s1 : State) (i : Instr) (k : Stream) (caps : List Word) (c : Ctx), AtQueueLane s i k c →
    let open_ := (s.cur.queue .cpy).length + (s.cur.vcq.filter fun x => !x.complete).length
    let transfer := k = .lnk ∧ ∀ clr, i ≠ .lstat clr
    (s.cur.awaits i = true → exec .queueDispatch s = .next s) ∧
    (∀ h, s.cur.awaits i = false → takes s i.srcs = some (caps, s1) → (s.cur.queue k).length < k.depth → (k = .cpy → open_ < 16) →
      (transfer → TransferFits c caps) → HandlePasses s k i caps h →
      ∃ t, exec .queueDispatch s = .next t ∧ t.cur.queue k = s.cur.queue k ++ [entryOf s k i caps h] ∧ t.cur.num k = s.cur.num k + 1 ∧
        t.cur.regs = s1.cur.regs ∧ t.cur.flow = s.cur.flow.after (Instr.lanes i) ∧ t.cur.ords = s.cur.ords + 1 ∧
        t.cur.marked = s.cur.marked ∧ t.cur.freed = (if i = .afence then 0 else if countsFree i then s.cur.freed + 1 else s.cur.freed) ∧
        (∀ j, j ≠ k → t.cur.queue j = s.cur.queue j ∧ t.cur.num j = s.cur.num j)) ∧
    (takes s i.srcs = some (caps, s1) → (k.depth ≤ (s.cur.queue k).length ∨ (k = .cpy ∧ 16 ≤ open_)) → exec .queueDispatch s = .next s) ∧
    (s.cur.awaits i = false → takes s i.srcs = some (caps, s1) → s.Drained →
      (∀ hr code va, Instr.handle i = some hr → HandleFails s k i caps (s.cur.regs.h.get hr.toFin) code va →
        exec .queueDispatch s = .next (takeFault { atLane s k code va with tag := (s.cur.regs.h.get hr.toFin).tag } s)) ∧
      (transfer → ¬ TransferFits c caps → exec .queueDispatch s = .next (takeFault (atLane s k 0x03 s.cur.nextPc) s)))

/-- O15. A line is entered through its header, and a queue instruction becomes the entry at the tail of its queue with what its handle's
translation is then, or raises what R95 and R301 say; an afence holds the count of R274 (R49, R59 to R62, R70, R80, R95, R98, R109, R274).
That a fetch may find the bytes of an older copy only where its core holds one is the model's choice (log 57); what a result in flight
holds is log 8, FLTV of a handle's fault log 53, and the byte of an ldpf that HBOUND judges log 68. -/
def Obligations.LinesAndLanesAreHandled : Prop :=
  LinesAreEnteredThroughTheirHeader ∧ DispatchAppendsAnEntry

/-- A page of scratchpad that arrives has the bytes of its backing, and every other page stays (R353); a step that has ended stops its
task with DCAUSE 4 and its context halted (R449, R428); a held event is free once the log no longer holds it (R458). -/
def FillsStepsAndHeldEvents : Prop :=
  (∀ (s : State) (core : Nat) (p : BitVec 5), s.cur.status = .running core → p.toNat < s.cur.pool.spp →
    (s.cur.filled.getLsbD p.toNat = true → exec (.scratchpadPageFill p) s = .next s) ∧
    (s.cur.filled.getLsbD p.toNat = false → s.MemoryWf → ∃ filled scratch,
      exec (.scratchpadPageFill p) s = .next (s.withTask fun t => { t with filled, scratch }) ∧
      (∀ q : Nat, q < 32 → filled.getLsbD q = (s.cur.filled.getLsbD q || q == p.toNat)) ∧
      ∀ x, Mem.read scratch x = if 0x10000 + 4096 * p.toNat ≤ x ∧ x < 0x11000 + 4096 * p.toNat then Mem.read s.backing (s.cur.backing + x)
        else Mem.read s.cur.scratch x)) ∧
  (∀ (s : State) (core : Nat) (c : Ctx), s.cur.status = .running core → s.cur.flow.stepping = true → s.cur.flow.stepDone = true →
    s.ctx? s.cur.pool.ctx = some c → s.cur.queuesAtPoint = true → s.cur.aborting = false →
    ∃ t r, exec .stepEnd s = .next t ∧ t.cur.status = .suspended ∧ GivesBack s.cur t.cur.regs ∧ t.cur.flow.stop = some r ∧
      r.reason = 4 ∧ r.dcause = 4 ∧ r.nextPc = s.cur.nextPc ∧ (t.ctx? s.cur.pool.ctx).map (·.halted) = some true) ∧
  (∀ (s : State) (k : Stream), ∃ l, exec (.replayHoldRelease k) s = .next (s.withTask fun t => { t with held := l }) ∧
    ∀ x, x ∈ l ↔ x ∈ s.cur.held ∧ (x.1 ≠ k ∨ s.turnOf s.cur.pool.ctx x.2 = .hold))

/-- O16. A staged task enters its empty slot, a pre-empted one leaves it at its cut; a page fill brings the bytes of its backing, a step
ends in a debug stop, and a held event is let go by its log (R43, R44, R322, R353, R425, R428, R449, R458). -/
def Obligations.SlotsAreEnteredLeftAndStepped : Prop :=
  TasksEnterAndLeaveTheirSlot ∧ FillsStepsAndHeldEvents

/-! ## The vector queue (R198 to R212) -/

/-- A vector register written with 64 lanes. -/
def setV (d : VReg) (f : Fin 64 → Lane) (g : Regs) : Regs := { g with v := g.v.set d.toNat (Vector.ofFn f) d.isLt }

/-- Lane j of a vector register. -/
def laneIn (s : State) (a : VReg) (j : Fin 64) : Lane := (s.cur.regs.v.get a.toFin).get j

/-- A mask register written. -/
def setM (d : MReg) (x : Word) (g : Regs) : Regs := { g with m := g.m.set d.toNat x d.isLt }

/-- A mask register. -/
def maskIn (s : State) (a : MReg) : Word := s.cur.regs.m.get a.toFin

/-- Sticky flags raised (R141). -/
def raised (fl : Fl) (s : State) : State := s.withSys fun y => { y with fpst := y.fpst ||| fl }

/-- The flags some lane raises. -/
def FlagsOf (fl : Fl) (f : Fin 64 → Fl) : Prop := ∀ k, fl.getLsbD k = true ↔ ∃ j, (f j).getLsbD k = true

/-- What an integer form computes on a lane (R203). -/
def intLaneRow : Instr → Option (VReg × VReg × VReg × (Lane → Lane → Lane))
  | .iadd d a b _ => some (d, a, b, fun x y => BitVec.ofNat 32 (x.toNat + y.toNat))
  | .isub d a b _ => some (d, a, b, fun x y => BitVec.ofInt 32 (x.toInt - y.toInt))
  | .imul d a b _ => some (d, a, b, fun x y => BitVec.ofNat 32 (x.toNat * y.toNat))
  | .iand d a b _ => some (d, a, b, fun x y => x &&& y)
  | .ior d a b _ => some (d, a, b, fun x y => x ||| y)
  | .ixor d a b _ => some (d, a, b, fun x y => x ^^^ y)
  | .ishl d a b _ => some (d, a, b, fun x y => BitVec.ofNat 32 (x.toNat * 2 ^ (y.toNat % 32)))
  | .ishr d a b _ => some (d, a, b, fun x y => BitVec.ofNat 32 (x.toNat / 2 ^ (y.toNat % 32)))
  | .isra d a b _ => some (d, a, b, fun x y => BitVec.ofInt 32 (x.toInt / 2 ^ (y.toNat % 32)))
  | .imin d a b _ => some (d, a, b, fun x y => if x.toInt ≤ y.toInt then x else y)
  | .imax d a b _ => some (d, a, b, fun x y => if x.toInt ≤ y.toInt then y else x)
  | _ => none

/-- The condition of a code on two lanes (R202 Table 5, R203). -/
def laneTrue (cc : Cc) (a b : Lane) : Prop :=
  match cc with
  | .eq => a = b
  | .ne => a ≠ b
  | .lt => a.toInt < b.toInt
  | .ge => a.toInt ≥ b.toInt
  | .ltu => a.toNat < b.toNat
  | .geu => a.toNat ≥ b.toNat

/-- The integer forms compute each lane as a 32-bit value and raise no flag; icmp writes mask bit j with the truth
of its condition on lane j (R203). -/
def IntegerLanesAreExact : Prop :=
  (∀ (s : State) (e : Entry) (d a b : VReg) (f : Lane → Lane → Lane), s.Ready e → e.stream = .vec →
    intLaneRow e.ins = some (d, a, b, f) →
    exec e.ins s = .next ((s.withRegs (setV d fun j => f (laneIn s a j) (laneIn s b j))).left e)) ∧
  (∀ (s : State) (e : Entry) (cc : Cc) (d : MReg) (a b : VReg) (t : Tok), s.Ready e → e.stream = .vec → e.ins = .icmpCc cc d a b t →
    ∃ m : Word, (∀ j : Fin 64, m.getLsbD j = true ↔ laneTrue cc (laneIn s a j) (laneIn s b j)) ∧
      exec e.ins s = .next ((s.withRegs (setM d m)).left e))

/-- The exact result and its own flag of a floating form of two operands (R199, R200). -/
def floatRow2 : Instr → Option (VReg × VReg × VReg × (FV → FV → FV × Fl))
  | .fadd d a b _ => some (d, a, b, fun x y => x.add y)
  | .fsub d a b _ => some (d, a, b, fun x y => x.add y.negate)
  | .fmul d a b _ => some (d, a, b, fun x y => x.mul y)
  | .fmin d a b _ => some (d, a, b, fun x y =>
      (if x = .nan ∨ y = .nan then .nan else if x.lt y ∨ (y.lt x = false ∧ x.neg? = true) then x else y, 0))
  | .fmax d a b _ => some (d, a, b, fun x y =>
      (if x = .nan ∨ y = .nan then .nan else if y.lt x ∨ (x.lt y = false ∧ x.neg? = false) then x else y, 0))
  | _ => none

/-- The function of a floating form of one operand that is rounded (R201). -/
def floatRow1 : Instr → Option (VReg × VReg × (FV → FV × Fl))
  | .frcp d a _ => some (d, a, rcpV)
  | .frsq d a _ => some (d, a, rsqV)
  | .fsqrt d a _ => some (d, a, sqrtV)
  | .fexp2 d a _ => some (d, a, exp2V)
  | .flog2 d a _ => some (d, a, log2V)
  | _ => none

/-- A result rounded once, with its flags (R199). -/
def roundedOnce (r : FV × Fl) : Lane × Fl := ((toF32 r.1).1, r.2 ||| (toF32 r.1).2)

/-- The truth of a floating compare (R202). -/
def floatTrue (cc : FCc) (x y : FV) : Prop :=
  match cc with
  | .eq => x ≠ .nan ∧ y ≠ .nan ∧ x.lt y = false ∧ y.lt x = false
  | .ne => x = .nan ∨ y = .nan ∨ x.lt y = true ∨ y.lt x = true
  | .lt => x.lt y = true
  | .ge => x ≠ .nan ∧ y ≠ .nan ∧ x.lt y = false
  | .le => x ≠ .nan ∧ y ≠ .nan ∧ y.lt x = false
  | .gt => y.lt x = true
  | .un => x = .nan ∨ y = .nan

/-- O17. The floating forms round each lane's exact result once and raise the flags of every lane, fexp2 and flog2 from 256 and 200
fraction bits of it with the last kept sticky, which is the model's reading (log 51); fma tests 0 × ∞ first; fabs, fneg and fcmp raise none
(R199 to R202). -/
def Obligations.FloatLanesAreRoundedOnce : Prop :=
  (∀ (s : State) (e : Entry) (d a b : VReg) (f : FV → FV → FV × Fl), s.Ready e → e.stream = .vec →
    floatRow2 e.ins = some (d, a, b, f) →
    let r := fun j => roundedOnce (f (f32 (laneIn s a j)) (f32 (laneIn s b j)))
    ∃ fl, FlagsOf fl (fun j => (r j).2) ∧ exec e.ins s = .next ((raised fl (s.withRegs (setV d fun j => (r j).1))).left e)) ∧
  (∀ (s : State) (e : Entry) (d a : VReg) (f : FV → FV × Fl), s.Ready e → e.stream = .vec → floatRow1 e.ins = some (d, a, f) →
    let r := fun j => roundedOnce (f (f32 (laneIn s a j)))
    ∃ fl, FlagsOf fl (fun j => (r j).2) ∧ exec e.ins s = .next ((raised fl (s.withRegs (setV d fun j => (r j).1))).left e)) ∧
  (∀ (s : State) (e : Entry) (d a b c : VReg) (t : Tok), s.Ready e → e.stream = .vec → e.ins = .fma d a b c t →
    let r := fun j =>
      let p := (f32 (laneIn s a j)).mul (f32 (laneIn s b j))
      if p.2 = 0 then roundedOnce (p.1.add (f32 (laneIn s c j))) else ((0x7FC00000 : Lane), flInvalid)
    ∃ fl, FlagsOf fl (fun j => (r j).2) ∧ exec e.ins s = .next ((raised fl (s.withRegs (setV d fun j => (r j).1))).left e)) ∧
  (∀ (s : State) (e : Entry) (d a : VReg) (t : Tok), s.Ready e → e.stream = .vec →
    (e.ins = .fabs d a t → exec e.ins s = .next ((raised 0 (s.withRegs (setV d fun j =>
      if f32 (laneIn s a j) = .nan then 0x7FC00000 else BitVec.ofNat 32 ((laneIn s a j).toNat % 2 ^ 31)))).left e)) ∧
    (e.ins = .fneg d a t → exec e.ins s = .next ((raised 0 (s.withRegs (setV d fun j =>
      if f32 (laneIn s a j) = .nan then 0x7FC00000 else laneIn s a j + 0x80000000))).left e))) ∧
  (∀ (s : State) (e : Entry) (cc : FCc) (d : MReg) (a b : VReg) (t : Tok), s.Ready e → e.stream = .vec → e.ins = .fcmpCc cc d a b t →
    ∃ m : Word, (∀ j : Fin 64, m.getLsbD j = true ↔ floatTrue cc (f32 (laneIn s a j)) (f32 (laneIn s b j))) ∧
      exec e.ins s = .next ((s.withRegs (setM d m)).left e))

/-- The move and mask forms: vmov, vmovi, vsel, vperm, vlane, vbcast (which takes the oldest entry of s58), mand, mor,
mxor, mnot, mfirst, and mpop, which appends its count to s59 (R204, R212). -/
def LaneMovesAndMasks : Prop :=
  (∀ (s : State) (e : Entry) (t : Tok), s.Ready e → e.stream = .vec →
    (∀ d a, e.ins = .vmov d a t → exec e.ins s = .next ((s.withRegs (setV d (laneIn s a))).left e)) ∧
    (∀ d imm, e.ins = .vmovi d imm t → exec e.ins s = .next ((s.withRegs (setV d fun _ => imm)).left e)) ∧
    (∀ d a m, e.ins = .vsel d a m t →
      exec e.ins s = .next ((s.withRegs (setV d fun j => if (maskIn s m).getLsbD j then laneIn s a j else laneIn s d j)).left e)) ∧
    (∀ d a b, e.ins = .vperm d a b t →
      exec e.ins s = .next ((s.withRegs (setV d fun j => laneIn s a ⟨(laneIn s b j).toNat % 64, Nat.mod_lt _ (by decide)⟩)).left e)) ∧
    (∀ d, e.ins = .vlane d t → exec e.ins s = .next ((s.withRegs (setV d fun j => BitVec.ofNat 32 j)).left e)) ∧
    (∀ d x s1, e.ins = .vbcast d t → s.take 58 = some (x, s1) →
      exec e.ins s = .next ((s1.withRegs (setV d fun _ => BitVec.ofNat 32 x.toNat)).left e))) ∧
  (∀ (s : State) (e : Entry) (t : Tok), s.Ready e → e.stream = .vec →
    (∀ d a b, e.ins = .mand d a b t → exec e.ins s = .next ((s.withRegs (setM d (maskIn s a &&& maskIn s b))).left e)) ∧
    (∀ d a b, e.ins = .mor d a b t → exec e.ins s = .next ((s.withRegs (setM d (maskIn s a ||| maskIn s b))).left e)) ∧
    (∀ d a b, e.ins = .mxor d a b t → exec e.ins s = .next ((s.withRegs (setM d (maskIn s a ^^^ maskIn s b))).left e)) ∧
    (∀ d a, e.ins = .mnot d a t → exec e.ins s = .next ((s.withRegs (setM d (~~~ maskIn s a))).left e)) ∧
    (∀ d a, e.ins = .mfirst d a t → ∃ m : Word,
      (∀ j : Fin 64, m.getLsbD j = true ↔ (maskIn s a).getLsbD j = true ∧ ∀ k < j, (maskIn s a).getLsbD k = false) ∧
      exec e.ins s = .next ((s.withRegs (setM d m)).left e)) ∧
    (∀ a u, e.ins = .mpop a t → s.give 59 (BitVec.ofNat 64 (Finset.univ.filter fun j : Fin 64 => (maskIn s a).getLsbD j.val = true).card) = some u →
      exec e.ins s = .next (u.left e)))

/-- O18. The integer forms of VEC compute 32-bit lanes exactly, and the move and mask forms place lanes and bits (R203, R204,
R212). -/
def Obligations.LanesAreComputedAndMoved : Prop :=
  IntegerLanesAreExact ∧ LaneMovesAndMasks

/-- The generator's step (R139). -/
def genStep (x : Word) : Word := x * 0x5851F42D4C957F2D + 0x14057B7EF767814F

/-- The number of the n-th step from a state, counted from 0: bits [63:48] of the state after it (R139). -/
def genNumber (x : Word) (n : Nat) : Nat := (genStep^[n + 1] x).toNat / 2 ^ 48

/-- A converted element in its lane: the signed integer formats are sign-extended, the others zero-extended (R205). -/
def converted (dst : Fmt) (x : Nat) : Lane :=
  if dst = .int4 ∨ dst = .int8 ∨ dst = .int16 then (BitVec.ofNat dst.bits x).signExtend 32 else BitVec.ofNat 32 x

/-- The width of a packed element (R206). -/
def widthOf : PackW → Nat
  | .w16 => 16
  | .w8 => 8
  | .w4 => 4

/-- O19. cvt converts each active lane from its low bits, stepping the generator once for each under rs and keeping the inactive
lanes; pack and unpack place W-bit elements in order in the register (R139, R205, R206). What rs makes of a value just above the greatest
finite one is the model's choice (log 60). -/
def Obligations.LanesConvertAndPack : Prop :=
  (∀ (s : State) (e : Entry) (d a : VReg) (src dst : Fmt) (rm : Rm) (m : Option MReg) (t : Tok), s.Ready e → e.stream = .vec →
    e.ins = .cvt d a src dst rm m t →
    let active := fun j : Fin 64 => match m with | none => true | some k => (maskIn s k).getLsbD j
    let before := fun j : Fin 64 => (Finset.univ.filter fun i : Fin 64 => i < j ∧ active i = true).card
    let total := (Finset.univ.filter fun i : Fin 64 => active i = true).card
    let r := fun j => dst.enc rm (if rm = .rs then genNumber s.cur.sys.rng (before j) else 0)
      (src.dec ((laneIn s a j).toNat % 2 ^ src.bits))
    ∃ fl, FlagsOf fl (fun j => if active j then (r j).2 else 0) ∧
      exec e.ins s = .next ((raised fl ((s.withRegs (setV d fun j => if active j then converted dst (r j).1 else laneIn s d j)).withSys
        fun y => { y with rng := if rm = .rs then genStep^[total] y.rng else y.rng })).left e)) ∧
  (∀ (s : State) (e : Entry) (d a b : VReg) (w : PackW) (t : Tok), s.Ready e → e.stream = .vec → e.ins = .pack d a b w t →
    ∃ r : Fin 64 → Lane, exec e.ins s = .next ((s.withRegs (setV d r)).left e) ∧
      ∀ (j : Fin 64) (k : Fin 32), (r j).getLsbD k =
        (let i := (32 * j.val + k.val) / widthOf w
         if h : i < 64 then (laneIn s a ⟨i, h⟩).getLsbD ((32 * j.val + k.val) % widthOf w)
         else if h : i - 64 < 64 then (laneIn s b ⟨i - 64, h⟩).getLsbD ((32 * j.val + k.val) % widthOf w)
         else false)) ∧
  (∀ (s : State) (e : Entry) (d a : VReg) (p : BitVec 6) (w : PackW) (t : Tok), s.Ready e → e.stream = .vec →
    e.ins = .unpack d a p w t → (p.toNat + 1) * widthOf w ≤ 32 →
    ∃ r : Fin 64 → Lane, exec e.ins s = .next ((s.withRegs (setV d r)).left e) ∧
      ∀ (j : Fin 64) (k : Fin 32), (r j).getLsbD k = true ↔ k.val < widthOf w ∧
        ∃ h : (widthOf w * (64 * p.toNat + j) + k) / 32 < 64,
          (laneIn s a ⟨(widthOf w * (64 * p.toNat + j) + k) / 32, h⟩).getLsbD ((widthOf w * (64 * p.toNat + j) + k) % 32) = true)

/-- The operation of a reduction or scan on two lanes (R207 Table 6). -/
def redRow (op : RedOp) (x y : Lane) : Lane × Fl :=
  match op with
  | .fadd => roundedOnce ((f32 x).add (f32 y))
  | .fmax => roundedOnce ((f32 x).max (f32 y), 0)
  | .fmin => roundedOnce ((f32 x).min (f32 y), 0)
  | .iadd => (BitVec.ofNat 32 (x.toNat + y.toNat), 0)
  | .imax => (if x.toInt ≤ y.toInt then y else x, 0)
  | .imin => (if x.toInt ≤ y.toInt then x else y, 0)
  | .iand => (x &&& y, 0)
  | .ior => (x ||| y, 0)

/-- The identity of a reduction (R207 Table 6). -/
def redUnit : RedOp → Lane
  | .fadd => 0x80000000
  | .fmax => 0xFF800000
  | .fmin => 0x7F800000
  | .iadd => 0
  | .imax => 0x80000000
  | .imin => 0x7FFFFFFF
  | .iand => 0xFFFFFFFF
  | .ior => 0

/-- The fixed pairwise tree over 2^k lanes: its left half against its right half (R207). -/
def pairTree (f : Lane → Lane → Lane × Fl) : Nat → (Nat → Lane) → Lane × Fl
  | 0, t => (t 0, 0)
  | k + 1, t =>
    let l := pairTree f k t
    let r := pairTree f k fun j => t (j + 2 ^ k)
    ((f l.1 r.1).1, l.2 ||| r.2 ||| (f l.1 r.1).2)

/-- A lane numbered from 0, 0 beyond the last. -/
def laneNo (s : State) (a : VReg) (j : Nat) : Lane := if h : j < 64 then laneIn s a ⟨j, h⟩ else 0

/-- The value after n steps of an accumulation over the lanes after lane j, and the flags so far. -/
def accumulated (f : Lane → Lane → Lane × Fl) (t : Nat → Lane) (j : Nat) : Nat → Lane × Fl
  | 0 => (t j, 0)
  | n + 1 => ((f (accumulated f t j n).1 (t (j + n + 1))).1, (accumulated f t j n).2 ||| (f (accumulated f t j n).1 (t (j + n + 1))).2)

/-- O20. vred appends the root of its pairwise tree to s59, inactive lanes being the identity; vscan writes the prefixes
in ascending lane order; vsegsum writes each head lane with its segment's sum and the other lanes with 0; their fields are read
as the rules say (R207, R208, R211). -/
def Obligations.ReductionsFollowTheirOrder : Prop :=
  (∀ (s u : State) (e : Entry) (op : RedOp) (a : VReg) (m : Option MReg) (t : Tok), s.Ready e → e.stream = .vec → e.ins = .vred op a m t →
    let r := pairTree (redRow op) 6 fun j =>
      if (match m with | none => true | some k => (maskIn s k).getLsbD j) then laneNo s a j else redUnit op
    (raised r.2 s).give 59 (if op = .iadd ∨ op = .imax ∨ op = .imin then BitVec.ofInt 64 r.1.toInt else BitVec.ofNat 64 r.1.toNat) = some u →
    exec e.ins s = .next (u.left e)) ∧
  (∀ (s : State) (e : Entry) (op : RedOp) (d a : VReg) (t : Tok), s.Ready e → e.stream = .vec → e.ins = .vscan op d a t →
    exec e.ins s = .next ((raised (accumulated (redRow op) (laneNo s a) 0 63).2
      (s.withRegs (setV d fun j => (accumulated (redRow op) (laneNo s a) 0 j).1))).left e)) ∧
  (∀ (s : State) (e : Entry) (int : Bool) (d a : VReg) (m : MReg) (t : Tok), s.Ready e → e.stream = .vec → e.ins = .vsegsum int d a m t →
    let f := redRow (if int then .iadd else .fadd)
    let head := fun j : Nat => j = 0 ∨ (maskIn s m).getLsbD j = true
    let ends := fun j n : Nat => head j ∧ j + n < 64 ∧ (∀ k, 0 < k → k ≤ n → ¬ head (j + k)) ∧ (j + n + 1 = 64 ∨ head (j + n + 1))
    ∃ (r : Fin 64 → Lane) (fl : Fl), exec e.ins s = .next ((raised fl (s.withRegs (setV d r))).left e) ∧
      (∀ (j : Fin 64) (n : Nat), ends j n → r j = (accumulated f (laneNo s a) j n).1) ∧
      (∀ j : Fin 64, ¬ head j → r j = 0) ∧
      (∀ k, fl.getLsbD k = true ↔ ∃ j n, ends j n ∧ (accumulated f (laneNo s a) j n).2.getLsbD k = true)) ∧
  (∀ (op : Fin 8) (a : VReg) (m : Option MReg) (t : Tok),
    decode .vec [fq 0x30 ((m.getD 0).setWidth 6) (a.setWidth 6) (BitVec.ofNat 6 op) (if m.isSome then 1 else 0) t] =
      .ok (.vred ([RedOp.fadd, .fmax, .fmin, .iadd, .imax, .imin, .iand, .ior][op]) a m t)) ∧
  (∀ (op : Fin 8) (d a : VReg) (t : Tok), decode .vec [fq 0x31 (d.setWidth 6) (a.setWidth 6) (BitVec.ofNat 6 op) 0 t] =
    .ok (.vscan ([RedOp.fadd, .fmax, .fmin, .iadd, .imax, .imin, .iand, .ior][op]) d a t)) ∧
  (∀ (int : Bool) (d a : VReg) (m : MReg) (t : Tok),
    decode .vec [fq 0x34 (d.setWidth 6) (a.setWidth 6) (m.setWidth 6) (if int then 1 else 0) t] = .ok (.vsegsum int d a m t)) ∧
  (∀ l : Lane, fOp l = 0x30 → (8 ≤ (fB l).toNat ∨ 2 ≤ (fXq l).toNat ∨ 8 ≤ (fD l).toNat) → decode .vec [l] = .error .illegalField) ∧
  (∀ l : Lane, fOp l = 0x31 → (8 ≤ (fB l).toNat ∨ fXq l ≠ 0) → decode .vec [l] = .error .illegalField) ∧
  (∀ l : Lane, fOp l = 0x34 → 2 ≤ (fXq l).toNat → decode .vec [l] = .error .illegalField)

/-- One key stands strictly below another (R209). -/
def keyLess (k : SortKey) (x y : Lane) : Prop :=
  match k with
  | .u => x.toNat < y.toNat
  | .s => x.toInt < y.toInt
  | .f => f32 x ≠ .nan ∧ (f32 y = .nan ∨ (f32 x).lt (f32 y) = true)

/-- O21. vsort permutes keys and payload together into ascending key order, equal keys keeping their lane order; vuniq
marks the lanes that differ from the lane before and numbers the runs from 0; their fields are read as the rules say (R209,
R210). -/
def Obligations.SortsAreStableAndRunsAreNumbered : Prop :=
  (∀ (s : State) (e : Entry) (key : SortKey) (d a : VReg) (t : Tok), s.Ready e → e.stream = .vec → d ≠ a → e.ins = .vsort key d a t →
    ∃ p : Equiv.Perm (Fin 64),
      exec e.ins s = .next ((s.withRegs fun g => setV a (fun j => laneIn s a (p j)) (setV d (fun j => laneIn s d (p j)) g)).left e) ∧
      ∀ i j : Fin 64, i < j → ¬ keyLess key (laneIn s d (p j)) (laneIn s d (p i)) ∧
        (keyLess key (laneIn s d (p i)) (laneIn s d (p j)) ∨ p i < p j)) ∧
  (∀ (s : State) (e : Entry) (d : MReg) (a b : VReg) (t : Tok), s.Ready e → e.stream = .vec → e.ins = .vuniq d a b t →
    ∃ m : Word, (∀ j : Fin 64, m.getLsbD j = true ↔ j.val = 0 ∨ laneNo s b j ≠ laneNo s b (j - 1)) ∧
      exec e.ins s = .next ((s.withRegs fun g => setV a (fun j =>
        BitVec.ofNat 32 ((Finset.univ.filter fun i : Fin 64 => i ≤ j ∧ m.getLsbD i.val = true).card - 1)) (setM d m g)).left e)) ∧
  (∀ (k : Fin 3) (d a : VReg) (t : Tok), d ≠ a →
    decode .vec [fq 0x32 (d.setWidth 6) (a.setWidth 6) 0 (BitVec.ofNat 2 k) t] = .ok (.vsort ([SortKey.u, .s, .f][k]) d a t)) ∧
  (∀ (d : MReg) (a b : VReg) (t : Tok),
    decode .vec [fq 0x33 (d.setWidth 6) (a.setWidth 6) (b.setWidth 6) 0 t] = .ok (.vuniq d a b t)) ∧
  (∀ l : Lane, fOp l = 0x32 → (fXq l = 3 ∨ fB l ≠ 0 ∨ fD l = fA l) → decode .vec [l] = .error .illegalField) ∧
  (∀ l : Lane, fOp l = 0x33 → fXq l ≠ 0 → decode .vec [l] = .error .illegalField)

/-! ## The load and store queues (R182 to R197) -/

/-- The byte a page gives an address of the acting task. -/
def byteAt (s : State) (leaf va : Word) : Byte :=
  Mem.read (s.memOf (placeOf leaf va s.cur.cluster).1) (placeOf leaf va s.cur.cluster).2

/-- Bit k of the little-endian bit stream that begins at an address (R128). -/
def bitAt (s : State) (leaf start : Word) (k : Nat) : Bool := (byteAt s leaf (start + BitVec.ofNat 64 (k / 8))).getLsbD (k % 8)

/-- The w bits from bit p of the stream at an address are those of a number. -/
def HoldsBits (s : State) (leaf start : Word) (p w x : Nat) : Prop := x < 2 ^ w ∧ ∀ i < w, x.testBit i = bitAt s leaf start (p + i)

/-- The bytes an entry's access counts for its buffer tag on its die (R375, R376). -/
def counted (e : Entry) (n : Nat) (s : State) : State :=
  s.countBytes s.cur.pool.die.toNat ((e.h.map (·.tag.toNat)).getD 0) (s.fnOf s.cur.pool.ctx) n

/-- Nothing of the state but the memories, the caches' marks, the marks of poison and integrity and the note of what this step wrote
differs. -/
def OnlyMemory (s m : State) : Prop :=
  m = { s with hbm := m.hbm, csram := m.csram, peerMem := m.peerMem, hostMem := m.hostMem, dirty := m.dirty, rdc := m.rdc,
               poison := m.poison, badTags := m.badTags, wrote := m.wrote }

/-- Nothing of the state but the memories with their marks, and the translations that caches and access queues hold, differs. -/
def OnlyMemoryAndWalks (s m : State) : Prop :=
  m = { s with hbm := m.hbm, csram := m.csram, peerMem := m.peerMem, hostMem := m.hostMem, dirty := m.dirty, rdc := m.rdc,
               poison := m.poison, badTags := m.badTags, wrote := m.wrote, tlb := m.tlb, coreTc := m.coreTc, fetchTc := m.fetchTc,
               accessQs := m.accessQs }

/-- Where element j of a vector form lies: an address and a bit from it on; none for an inactive lane of a gather or
scatter form (R183). -/
def placeRow (s : State) (e : Entry) (base : Word) (w : Nat) (j : Fin 64) : Option (Word × Nat) :=
  let near (off : BitVec 32) := some (base + BitVec.ofInt 64 off.toInt, w * j.val)
  let strided (off : BitVec 32) := some (base + BitVec.ofInt 64 off.toInt + BitVec.ofNat 64 j.val * e.caps.getD 0 0, 0)
  let far (b : VReg) := if laneIn s b j = 0xFFFFFFFF then none else some (base + BitVec.ofNat 64 (laneIn s b j).toNat, 0)
  match e.ins with
  | .vld _ _ _ off _ | .vldr _ _ _ off _ | .vst _ _ _ _ off _ | .vstr _ _ _ off _ | .vfaddnr _ _ _ off _ => near off
  | .vlds _ _ _ off _ | .vsts _ _ _ _ off _ => strided off
  | .vldg _ _ b _ | .vsct _ _ b _ _ => far b
  | _ => none

/-- The lane takes part: its element is not shut out by the mask or by its offset (R183, R184). -/
def takesPart (s : State) (e : Entry) (base : Word) (w : Nat) (j : Fin 64) : Bool :=
  (placeRow s e base w j).isSome &&
  match e.ins with
  | .vld _ _ (some k) _ _ | .vldr _ _ (some k) _ _ | .vst _ _ _ (some k) _ _ | .vstr _ _ (some k) _ _ | .vfaddnr _ _ (some k) _ _ =>
    (maskIn s k).getLsbD j
  | _ => true

/-- The lanes that take part. -/
def partCount (s : State) (e : Entry) (base : Word) (w : Nat) (P : Fin 64 → Prop) [DecidablePred P] : Nat :=
  (Finset.univ.filter fun j : Fin 64 => takesPart s e base w j = true ∧ P j).card

/-- The bytes that hold one element. -/
def holder (w : Nat) : Nat := if w = 6 then 3 else (w + 7) / 8

/-- The unit an element of w bits is aligned to (R129). -/
def alignUnit (w : Nat) : Nat := if w = 6 then 3 else if w = 4 then 1 else w / 8

/-- Every element is aligned, and lies in the page of its handle. -/
def Placed (s : State) (e : Entry) (leaf base : Word) (w : Nat) : Prop :=
  ∀ (j : Fin 64) (va : Word) (p : Nat), placeRow s e base w j = some (va, p) → va.toNat % alignUnit w = 0 ∧
    (p = 0 → pageOf leaf base ≤ va.toNat ∧ va.toNat + holder w ≤ pageOf leaf base + pageBytes (leafSz leaf))

/-- The lane value of an element of an unscaled page (R132). -/
def laneFor (f : Fmt) (x : Nat) : Lane :=
  match f.int with
  | some (true, w) => (BitVec.ofNat w x).signExtend 32
  | some (false, _) => BitVec.ofNat 32 x
  | none => if f = .fp32 then BitVec.ofNat 32 x else (toF32 (f.dec x)).1

/-- The destination of a vector load through a handle, and whether it decodes (R186) or reads raw (R187). -/
def loadRow : Instr → Option (VReg × Bool)
  | .vld d _ _ _ _ => some (d, true)
  | .vlds d _ _ _ _ => some (d, true)
  | .vldg d _ _ _ => some (d, true)
  | .vldr d _ _ _ _ => some (d, false)
  | _ => none

/-- O22. Loads: lds extends its bytes into s56; the vector loads write each lane that takes part with the lane value of
its element and keep the others; vlbc writes one element, scaled by the page's scale where it has one, to every lane;
vlsp reads scratchpad; ldpf writes nothing, and the copies that it brings are of lines of its handle's page homed on other dies (R183
to R189). -/
def Obligations.LoadsReadTheirElements : Prop :=
  (∀ (s w : State) (e : Entry) (h : HReg) (u : Bool) (sz : Sz) (off : BitVec 32) (t : Tok) (leaf base va : Word) (n x : Nat),
    s.Ready e → e.stream = .ldq → e.ins = .lds h u sz off t → s.Serves e leaf base → va = base + BitVec.ofInt 64 off.toInt →
    n = 2 ^ sz.code.toNat → va.toNat % n = 0 → HoldsBits s leaf va 0 (8 * n) x →
    s.give 56 (if u then BitVec.ofNat 64 x else (BitVec.ofNat (8 * n) x).signExtend 64) = some w →
    exec e.ins s = .next ((counted e n w).left e)) ∧
  (∀ (s : State) (e : Entry) (d : VReg) (decoded : Bool) (leaf base : Word) (w : Nat), s.Ready e → e.stream = .ldq →
    loadRow e.ins = some (d, decoded) → s.Serves e leaf base → (decoded = true → leafBg leaf = 0) →
    w = (if decoded then (leafFormat leaf).bits else 32) → Placed s e leaf base w →
    ∃ r : Fin 64 → Lane, exec e.ins s = .next ((counted e ((w * partCount s e base w (fun _ => True) + 7) / 8) (s.withRegs (setV d r))).left e) ∧
      (∀ j, takesPart s e base w j = false → r j = laneIn s d j) ∧
      (∀ j va p x, takesPart s e base w j = true → placeRow s e base w j = some (va, p) → HoldsBits s leaf va p w x →
        r j = if decoded then laneFor (leafFormat leaf) x else BitVec.ofNat 32 x)) ∧
  (∀ (s : State) (e : Entry) (d : VReg) (h : HReg) (off : BitVec 32) (t : Tok) (leaf base va : Word) (x : Nat),
    s.Ready e → e.stream = .ldq → e.ins = .vlbc d h off t → s.Serves e leaf base → va = base + BitVec.ofInt 64 off.toInt →
    va.toNat % alignUnit (leafFormat leaf).bits = 0 → HoldsBits s leaf va 0 (leafFormat leaf).bits x →
    (leafBg leaf = 0 → exec e.ins s = .next
      ((counted e (((leafFormat leaf).bits + 7) / 8) (s.withRegs (setV d fun _ => laneFor (leafFormat leaf) x))).left e)) ∧
    (∀ (sa leaf2 : Word) (y : Nat), 1 ≤ leafBg leaf → leafBg leaf ≤ 3 → 4 ≤ (leafFmt leaf).toNat → (leafFmt leaf).toNat ≤ 12 →
      s.MemoryWf → s.launches = [] → sa.toNat % 4 = 0 →
      sa = (s.taskEff s.cur).scOff + BitVec.ofNat 64
        ((match (leafFormat leaf).bits with | 4 => 2 * va.toNat | 6 => 4 * va.toNat / 3 | _ => va.toNat) /
          (match leafBg leaf with | 1 => 32 | 2 => 128 | _ => 16384) * (if leafBg leaf = 1 then 1 else 4)) →
      s.Maps s.cur.pool.ctx sa leaf2 → leafAp leaf2 = 0 → leafDlt leaf2 = false →
      (∀ (pa : Nat) (l : Word), s.lookup s.cur.pool.ctx sa = .ok (l, pa) → ∀ k < (if leafBg leaf = 1 then 1 else 4),
        placeOf leaf2 (sa + BitVec.ofNat 64 k) s.cur.cluster ≠ (.hbm, pa)) →
      HoldsBits s leaf2 sa 0 (if leafBg leaf = 1 then 8 else 32) y →
      ∃ m : State, exec e.ins s = .next ((counted e (((leafFormat leaf).bits + 7) / 8) m).left e) ∧ m.cur = (s.withRegs
        (setV d fun _ => (toF32 (((leafFormat leaf).dec x).mul ((if leafBg leaf = 1 then Fmt.e8m0 else .fp32).dec y)).1).1)).cur)) ∧
  (∀ (s : State) (e : Entry) (d : VReg) (a : SReg) (t : Tok) (addr : Word), s.Ready e → e.stream = .ldq → e.ins = .vlsp d a t →
    e.caps = [addr] → addr.toNat % 4 = 0 → 0x10000 ≤ addr.toNat → addr.toNat + 256 ≤ 0x10000 + 4096 * s.cur.pool.spp →
    let u := filledFor s addr 256
    exec e.ins s = .next ((u.withRegs (setV d fun j => BitVec.ofNat 32 (Mem.num u.cur.scratch (addr.toNat + 4 * j.val) 4))).left e)) ∧
  (∀ (s : State) (e : Entry) (h : HReg) (b : SReg) (off : BitVec 32) (t : Tok) (x : Handle), s.Ready e → e.stream = .ldq →
    e.ins = .ldpf h b off t → e.h = some x → x.bind ≠ .pending →
    ∃ rdc, exec e.ins s = .next (({ s with rdc } : State).left e) ∧ (∀ c ∈ s.rdc, c.1 ≠ s.cur.pool.die.toNat → c ∈ rdc) ∧
      ∀ c ∈ rdc, c ∉ s.rdc → c.1 = s.cur.pool.die.toNat ∧ dieOf (64 * c.2) ≠ c.1 ∧
        ∀ leaf, x.bind = .valid leaf → ∃ (va : Word) (a : Nat), placeOf leaf va 0 = (.hbm, a) ∧ c.2 = a / 64 ∧
          pageOf leaf x.base ≤ va.toNat ∧ va.toNat < pageOf leaf x.base + pageBytes (leafSz leaf) ∧
          (x.base + BitVec.ofInt 64 off.toInt).toNat ≤ va.toNat ∧
          va.toNat < (x.base + BitVec.ofInt 64 off.toInt).toNat + (e.caps.getD 0 0).toNat)

/-- Bit i of lane j's element is bit k of the byte at a of a space. -/
def Covers (s : State) (e : Entry) (leaf base : Word) (w : Nat) (j : Fin 64) (i : Nat) (p : Space) (a k : Nat) : Prop :=
  i < w ∧ takesPart s e base w j = true ∧ ∃ va q, placeRow s e base w j = some (va, q) ∧
    placeOf leaf (va + BitVec.ofNat 64 ((q + i) / 8)) s.cur.cluster = (p, a) ∧ (q + i) % 8 = k

/-- The bits an encoding store writes for a lane of an unscaled page, with its flags (R191). -/
def storeBits (f : Fmt) (rm : Rm) (r : Nat) (x : Lane) : Nat × Fl :=
  if f = .fp32 ∨ f = .int32 then (x.toNat, 0) else
  match f.int with
  | some (true, w) => ((max (-2 ^ (w - 1)) (min (2 ^ (w - 1) - 1) x.toInt) % 2 ^ w).toNat, 0)
  | some (false, w) => ((max 0 (min (2 ^ w - 1) x.toInt)).toNat, 0)
  | none => f.enc rm r (f32 x)

/-- The source register of a vector store through a handle, and its mode where it encodes (R191, R192). -/
def storeRow : Instr → Option (VReg × Option Rm)
  | .vst d _ rm _ _ _ => some (d, some rm)
  | .vsts d _ _ rm _ _ => some (d, some rm)
  | .vsct d _ _ rm _ => some (d, some rm)
  | .vstr d _ _ _ _ => some (d, none)
  | _ => none

/-- Stores: sts takes its datum from s57 at the head of its queue, also where its store must then wait, and writes the low bytes of it;
the vector stores write each bit of an element that takes part with the element's encoding, the highest lane remaining where elements
meet, and leave every other bit of memory; under rs the generator steps once for each encoded element; vssp writes scratchpad; lcln cleans
its line and linv drops this die's copy (R183, R184, R188, R190 to R194). -/
def PlainStoresWriteTheirElements : Prop :=
  (∀ (s s1 : State) (e : Entry) (h : HReg) (sz : Sz) (off : BitVec 32) (t : Tok) (leaf base va x : Word) (n : Nat),
    s.MemoryWf → s.Ready e → e.stream = .stq → e.ins = .sts h sz off t → s.Serves e leaf base → va = base + BitVec.ofInt 64 off.toInt →
    n = 2 ^ sz.code.toNat → va.toNat % n = 0 → ((e.data = some x ∧ s1 = s) ∨ (e.data = none ∧ s.take 57 = some (x, s1))) →
    ∃ m, exec e.ins s = .next ((counted e n m).left e) ∧ OnlyMemory { s1 with act := some { e with data := some x } } m ∧
      (∀ k < n, byteAt m leaf (va + BitVec.ofNat 64 k) = x.extractLsb' (8 * k) 8) ∧
      (∀ p a, (∀ k < n, placeOf leaf (va + BitVec.ofNat 64 k) s.cur.cluster ≠ (p, a)) → Mem.read (m.memOf p) a = Mem.read (s.memOf p) a)) ∧
  (∀ (s s1 : State) (e : Entry) (rest : List Entry) (h : HReg) (sz : Sz) (off : BitVec 32) (t : Tok) (x : Word), e.ins = .sts h sz off t →
    e.stream = .stq → s.act = some e → s.cur.queue .stq = e :: rest → e.data = none → e.under = false → s.take 57 = some (x, s1) →
    let e1 := { e with data := some x }
    let u := ({ s1 with act := some e1 } : State).withTask fun t => t.setQueue .stq (e1 :: rest)
    u.mayBegin e1 = false → exec e.ins s = .next u) ∧
  (∀ (s : State) (e : Entry) (d : VReg) (rm : Option Rm) (leaf base : Word) (w : Nat), s.MemoryWf → s.Ready e → e.stream = .stq →
    storeRow e.ins = some (d, rm) → s.Serves e leaf base → (rm ≠ none → leafBg leaf = 0) →
    w = (if rm = none then 32 else (leafFormat leaf).bits) → Placed s e leaf base w →
    let f := leafFormat leaf
    let r := fun j => match rm with
      | none => ((laneIn s d j).toNat, (0 : Fl))
      | some mode => storeBits f mode (if mode = Rm.rs then genNumber s.cur.sys.rng (partCount s e base w (· < j)) else 0) (laneIn s d j)
    ∃ (m : State) (fl : Fl), FlagsOf fl (fun j => if takesPart s e base w j then (r j).2 else 0) ∧
      exec e.ins s = .next ((counted e ((w * partCount s e base w (fun _ => True) + 7) / 8) (raised fl (m.withSys fun y =>
        { y with rng := if rm = some .rs ∧ f ≠ .fp32 ∧ f.int = none then genStep^[partCount s e base w (fun _ => True)] y.rng else y.rng }))).left e) ∧
      OnlyMemory s m ∧
      (∀ j i p a k, Covers s e leaf base w j i p a k → (∀ j' i', j < j' → ¬ Covers s e leaf base w j' i' p a k) →
        (Mem.read (m.memOf p) a).getLsbD k = (r j).1.testBit i) ∧
      (∀ p a k, (∀ j i, ¬ Covers s e leaf base w j i p a k) → (Mem.read (m.memOf p) a).getLsbD k = (Mem.read (s.memOf p) a).getLsbD k)) ∧
  (∀ (s : State) (e : Entry) (d : VReg) (a : SReg) (t : Tok) (addr : Word), s.MemoryWf → s.Ready e → e.stream = .stq → e.ins = .vssp d a t →
    e.caps = [addr] → addr.toNat % 4 = 0 → 0x10000 ≤ addr.toNat → addr.toNat + 256 ≤ 0x10000 + 4096 * s.cur.pool.spp → s.cur.pool.spp ≤ 32 →
    let u := filledFor s addr 256
    ∃ written setter scratch, exec e.ins s = .next (({ u with cur := { u.cur with written, setter, scratch } } : State).left e) ∧
      (∀ (j : Fin 64) (k : Fin 4), Mem.read scratch (addr.toNat + 4 * j.val + k.val) = (laneIn s d j).extractLsb' (8 * k.val) 8) ∧
      (∀ x, x < addr.toNat ∨ addr.toNat + 256 ≤ x → Mem.read scratch x = Mem.read u.cur.scratch x)) ∧
  (∀ (s : State) (e : Entry) (h : HReg) (off : BitVec 32) (t : Tok) (leaf base : Word) (a : Nat), s.Ready e → e.stream = .stq →
    s.Serves e leaf base → placeOf leaf (base + BitVec.ofInt 64 off.toInt) 0 = (.hbm, a) →
    (e.ins = .lcln h off t → exec e.ins s = .next (({ s with dirty := s.dirty.filter fun l => l != a / 64 } : State).left e)) ∧
    (e.ins = .linv h off t → exec e.ins s = .next
      (({ s with rdc := s.rdc.filter fun c => c != (s.cur.pool.die.toNat, a / 64) } : State).left e)))

/-- The FP32 word at an address of a page. -/
def wordAt (s : State) (leaf va : Word) : Lane :=
  byteAt s leaf (va + 3) ++ byteAt s leaf (va + 2) ++ byteAt s leaf (va + 1) ++ byteAt s leaf va

/-- vfaddnr adds each lane that takes part to its word at the Mole, rounded once, raises no flag and leaves every
other byte (R195). -/
def VfaddnrAddsAtItsWords : Prop :=
  ∀ (s : State) (e : Entry) (d : VReg) (h : HReg) (mk : Option MReg) (off : BitVec 32) (t : Tok) (leaf base : Word), s.Ready e →
    e.stream = .stq → e.ins = .vfaddnr d h mk off t → s.Serves e leaf base → s.MemoryWf → s.cur.flow.due = none → leafFmt leaf = 0 → leafBg leaf = 0 →
    leafMs leaf = true → leafPfn leaf * 4096 < csramBase → Placed s e leaf base 32 →
    let at_ := fun j : Fin 64 => base + BitVec.ofInt 64 off.toInt + BitVec.ofNat 64 (4 * j.val)
    ∃ m, exec e.ins s = .next ((counted e (4 * partCount s e base 32 fun _ => True) m).left e) ∧ OnlyMemory s m ∧
      (∀ j, takesPart s e base 32 j = true →
        wordAt m leaf (at_ j) = (toF32 ((f32 (wordAt s leaf (at_ j))).add (f32 (laneIn s d j))).1).1) ∧
      (∀ p a, (∀ j i k, ¬ Covers s e leaf base 32 j i p a k) → Mem.read (m.memOf p) a = Mem.read (s.memOf p) a)

/-- O23. Stores write the elements of the lanes that take part and no other byte, and vfaddnr adds them at their words (R183, R184, R188,
R190 to R195). That a store to an integer page under rs does not step the generator is the model's reading (log 20), and what rs makes of a
value just above the greatest finite one its choice (log 60). -/
def Obligations.StoresWriteTheirElements : Prop :=
  PlainStoresWriteTheirElements ∧ VfaddnrAddsAtItsWords

/-! ## The tile queue (R147 to R179) -/

/-- The head entry of TIL may perform, no watch stop is due, nothing that has ended is still to land, and no request of TIL to Badger
waits. -/
def TilReady (s : State) (e : Entry) : Prop :=
  s.Ready e ∧ e.stream = .til ∧ s.cur.flow.due = none ∧ s.cur.adrift = [] ∧ Stream.til ∉ s.cur.wants

/-- A tile descriptor of the acting task. -/
def descIn (s : State) (d : TReg) : Desc := s.cur.regs.td.get d.toFin

/-- The state with a descriptor and the thunk table replaced. -/
def withDesc (s : State) (d : TReg) (x : Desc) (thunks : List Thunk) : State :=
  s.withTask fun t => { t with thunks, regs := { t.regs with td := t.regs.td.set d.toNat x d.isLt } }

/-- A field written, with STATE and THK zero; none for a value out of range (R148). -/
def fieldSet (x : Desc) (f : TField) (v : Word) : Option Desc :=
  match f with
  | .base => some { x with state := 0, thk := 0, base := v }
  | .rows => if 1 ≤ v.toNat ∧ v.toNat ≤ 16384 then some { x with state := 0, thk := 0, rows := BitVec.ofNat 16 v.toNat } else none
  | .cols => if 1 ≤ v.toNat ∧ v.toNat ≤ 16384 then some { x with state := 0, thk := 0, cols := BitVec.ofNat 16 v.toNat } else none
  | .pitch => if v.toNat < 2 ^ 32 then some { x with state := 0, thk := 0, pitch := BitVec.ofNat 32 v.toNat } else none

/-- The references that a thunk loses when one on thunk u is dropped and some thunks are freed: that one, and each that a freed thunk
held by name as a source or as its accumulation source (R152). -/
def dropsOf (ts : List Thunk) (u : BitVec 8) (freed : List (BitVec 8)) (x : Thunk) : Nat :=
  (if x.idx = u then 1 else 0) +
    ((ts.filter fun y => freed.contains y.idx).map fun y =>
      ((y.srcs ++ y.acc.toList).filter fun z => z.name == some x.idx).length).sum

/-- A thunk table after one reference on thunk u is dropped: the thunks that are complete and have no reference left, among those that
lose one, are freed, and every other thunk stays with the references that it keeps (R152). -/
def Dropped (ts : List Thunk) (u : BitVec 8) (ts' : List Thunk) : Prop :=
  ∃ freed : List (BitVec 8),
    ts' = ((ts.filter fun x => !freed.contains x.idx).map fun x => { x with refs := x.refs - dropsOf ts u freed x }) ∧
    ∀ x ∈ ts, x.idx ∈ freed ↔ 0 < dropsOf ts u freed x ∧ x.complete = true ∧ x.refs ≤ dropsOf ts u freed x

/-- The thunk table after a descriptor's name is removed: nothing changes where it has none, and otherwise the reference that it held
is dropped; a table has at most 256 thunks, each under an index of its own (R150, R152, R175). -/
def NameDropped (x : Desc) (ts ts' : List Thunk) : Prop :=
  (x.state = 0 → ts' = ts) ∧ (x.state ≠ 0 → ts.length ≤ 256 → (ts.map (·.idx)).Nodup → Dropped ts x.thk ts')

/-- tset writes one field and drops the descriptor's name, or raises TILE_SHAPE and keeps the descriptor; tclr clears
every field, tdrop the name alone; a thunk whose name is dropped has one reference less and is freed when it is complete and has none;
tmode sets the policies; tstat appends the word its selector names to s61 (R148, R149, R152, R175 to R177). -/
def DescriptorsAreSetAndRead : Prop :=
  (∀ (s : State) (e : Entry), TilReady s e →
    (∀ d f a v x, e.ins = .tset d f a → e.caps = [v] → fieldSet (descIn s d) f v = some x →
      ∃ ts, exec e.ins s = .next ((withDesc s d x ts).left e) ∧ NameDropped (descIn s d) s.cur.thunks ts) ∧
    (∀ d f a v, e.ins = .tset d f a → e.caps = [v] → fieldSet (descIn s d) f v = none →
      exec e.ins s = .next (takeFault { e.info with code := 0x2A } s)) ∧
    (∀ d, e.ins = .tclr d → ∃ ts, exec e.ins s = .next ((withDesc s d {} ts).left e) ∧ NameDropped (descIn s d) s.cur.thunks ts) ∧
    (∀ d, e.ins = .tdrop d → (descIn s d).state ≠ 0 → ∃ ts, exec e.ins s =
      .next ((withDesc s d { descIn s d with state := 0, thk := 0 } ts).left e) ∧ NameDropped (descIn s d) s.cur.thunks ts) ∧
    (∀ d, e.ins = .tdrop d → (descIn s d).state = 0 → exec e.ins s = .next (s.left e)) ∧
    (∀ ovf pol, e.ins = .tmode ovf pol → exec e.ins s =
      .next ((s.withSys fun y => { y with tmode := BitVec.ofNat 2 (pol.toNat * 2 + ovf.toNat) }).left e))) ∧
  (∀ (s u : State) (e : Entry) (a : TReg) (sel : BitVec 2), TilReady s e → e.ins = .tstat a sel → sel.toNat < 3 →
    let count (x : Desc) := (x.rows.toNat + 31) / 32 * ((x.cols.toNat + 31) / 32)
    let named := if (descIn s a).state = 0 then none else s.cur.thunks.find? fun k => k.idx == (descIn s a).thk
    s.give 61 (BitVec.ofNat 64 (match sel.toNat with
      | 0 => (match named with
          | none => 0
          | some k => ((List.range (count k.out)).filter k.done.testBit).length * 2 ^ 32 + count k.out * 2 ^ 16) +
          (descIn s a).state.toNat * 2 ^ 8 + (descIn s a).thk.toNat
      | 1 => (512 - (s.cur.thunks.map fun k => (count k.out + 511) / 512).sum) * 2 ^ 32 +
          (768 - (s.cur.thunks.map fun k => 1 + k.srcs.length + k.acc.toList.length).sum) * 2 ^ 16 + (256 - s.cur.thunks.length)
      | _ => (descIn s a).base.toNat)) = some u →
    exec e.ins s = .next (u.left e))

/-- A size within a limit (R154 Table 3). -/
def sizeOk (x : Desc) (limit : Nat) : Prop := 1 ≤ x.rows.toNat ∧ x.rows.toNat ≤ limit ∧ 1 ≤ x.cols.toNat ∧ x.cols.toNat ≤ limit

/-- A compute form: its output, its sources with their index maps (R155 Table 4), the accumulation bit, the scalar it
reads at dispatch, and the shapes of R154 Table 3 from the rows and columns of a descriptor. -/
def appendRow (i : Instr) (caps : List Word) (x : TReg → Desc) : Option (TReg × List (TReg × Nat) × Bool × BitVec 32 × Prop) :=
  let r (d : TReg) := (x d).rows.toNat
  let c (d : TReg) := (x d).cols.toNat
  let aux : BitVec 32 := BitVec.ofNat 32 (caps.headD 0).toNat
  let mm (d a b : TReg) (e : MmExt) : Prop :=
    let (m, k) := if e.ta then (c a, r a) else (r a, c a)
    let (k2, n) := if e.tb then (c b, r b) else (r b, c b)
    k = k2 ∧ r d = m ∧ c d = n
  let same (d a : TReg) : Prop := r d = r a ∧ c d = c a
  match i with
  | .tmma d a b e => some (d, [(a, 8), (b, 9)], e.acc, 0, mm d a b e)
  | .tmmtr d a b _ _ e => some (d, [(a, 8), (b, 9)], e.acc, aux, mm d a b e)
  | .tmmsp d a b md e => some (d, [(a, 8), (b, 9), (md, 15)], e.acc, 0,
      let (k, n) := if e.tb then (c b, r b) else (r b, c b)
      r d = r a ∧ 2 * c a = k ∧ k % 16 = 0 ∧ c d = n)
  | .tadd d a b => some (d, [(a, 0), (b, 0)], false, 0, same d a ∧ same d b)
  | .tmul d a b => some (d, [(a, 0), (b, 0)], false, 0, same d a ∧ same d b)
  | .tscal d a _ => some (d, [(a, 0)], false, aux, same d a)
  | .tmap _ d a => some (d, [(a, 0)], false, 0, same d a)
  | .tcpy d a => some (d, [(a, 0)], false, 0, same d a)
  | .tred _ cols d a => some (d, [(a, if cols then 7 else 6)], false, 0,
      if cols then r d = r a ∧ c d = 1 else r d = 1 ∧ c d = c a)
  | .tview k d a off => some (match k with
    | .ident => (d, [(a, 0)], false, 0, same d a)
    | .tr => (d, [(a, 1)], false, 0, r d = c a ∧ c d = r a)
    | .rows => (d, [(a, 2)], false, 0, c d = c a ∧ off.toNat + r d ≤ r a)
    | .cols => (d, [(a, 3)], false, 0, r d = r a ∧ off.toNat + c d ≤ c a)
    | .rbc => (d, [(a, 4)], false, 0, r a = 1 ∧ c d = c a)
    | .cbc => (d, [(a, 5)], false, 0, c a = 1 ∧ r d = r a))
  | _ => none

/-- The bytes of a source that R154 compares: its span, or for metadata its runs to the end of the index array (R157). -/
def sourceBytes (x : TReg → Desc) (srcs : List (TReg × Nat)) (d : TReg × Nat) : Nat × Nat :=
  if d.2 = 15 then
    ((x d.1).base.toNat, (x d.1).pitch.toNat +
      (x (srcs.headD (0, 0)).1).rows.toNat * ((x (srcs.headD (0, 0)).1).cols.toNat / 8) * 2)
  else ((x d.1).base.toNat, ((x d.1).rows.toNat - 1) * (x d.1).pitch.toNat + 4 * (x d.1).cols.toNat)

/-- A compute form with the shapes of Table 3 whose output and sources overlap no pending thunk's, and for which the
table has room, appends a thunk with its snapshots, takes each pending source by name, which gives that source's thunk one reference
more, drops the output's old name, and leaves its output pending under a free index; the other thunks, memory and the other registers
stay (R150, R152 to R163). -/
def ComputeFormsAppendThunks : Prop :=
  ∀ (s : State) (e : Entry) (d : TReg) (srcs : List (TReg × Nat)) (acc : Bool) (aux : BitVec 32) (shapes : Prop), TilReady s e →
    appendRow e.ins e.caps (descIn s) = some (d, srcs, acc, aux, shapes) → shapes → sizeOk (descIn s d) 4096 →
    (∀ x ∈ srcs, x.2 ≠ 15 → sizeOk (descIn s x.1) 16384) →
    (∀ u ∈ s.cur.thunks, u.complete = false → u.mustForce s.cur.thunks (sourceBytes (descIn s) srcs (d, 0))
      (if acc = true ∧ (descIn s d).state = 1 then some (descIn s d).thk else none)
      (srcs.map fun x => (sourceBytes (descIn s) srcs x, if (descIn s x.1).state = 1 then some (descIn s x.1).thk else none)) = false) →
    s.cur.thunks.length < 256 →
    (s.cur.thunks.map fun k => 1 + k.srcs.length + k.acc.toList.length).sum + 1 + srcs.length +
      (if acc = true ∧ (descIn s d).state = 1 then 1 else 0) ≤ 768 →
    (s.cur.thunks.map fun k => ((k.out.rows.toNat + 31) / 32 * ((k.out.cols.toNat + 31) / 32) + 511) / 512).sum +
      (((descIn s d).rows.toNat + 31) / 32 * (((descIn s d).cols.toNat + 31) / 32) + 511) / 512 ≤ 512 →
    ∃ (ts : List Thunk) (k : Thunk),
      exec e.ins s = .next ((withDesc s d { descIn s d with state := 1, thk := k.idx } (ts ++ [k])).left e) ∧
      (∀ u ∈ s.cur.thunks, u.idx ≠ k.idx) ∧ k.seq = e.num ∧ k.ord = e.ord ∧
      (∀ n ∈ k.units, n < 512 ∧ ∀ u ∈ s.cur.thunks, n ∉ u.units) ∧ k.ins = e.ins ∧ k.complete = false ∧ k.done = 0 ∧ k.refs = 1 ∧
      k.aux = aux ∧ k.out = descIn s d ∧
      k.srcs = (srcs.map fun x => { desc := descIn s x.1
                                    name := if (descIn s x.1).state = 1 then some (descIn s x.1).thk else none
                                    map := x.2 }) ∧
      k.acc = (if acc = true ∧ (descIn s d).state = 1 then some { desc := descIn s d, name := some (descIn s d).thk, map := 0 } else none) ∧
      NameDropped (descIn s d) (s.cur.thunks.map fun v => { v with refs := v.refs +
        ((k.srcs ++ k.acc.toList).filter fun z => z.name == some v.idx).length }) ts

/-- O24. The descriptor forms of TIL set and read their descriptor, and the compute forms append a thunk whose output their
descriptor names; references rise and fall with the names, and a thunk without any is freed once it is complete (R147 to R163, R175 to
R177). Readings of the model it rests on: log 12. -/
def Obligations.DescriptorsAndComputeForms : Prop :=
  DescriptorsAreSetAndRead ∧ ComputeFormsAppendThunks

/-- No access of the acting task has taken bytes early, and nothing that has ended is still to land (R389; log 61). -/
def LandsNow (s : State) : Prop :=
  (∀ k : Stream, ∀ x ∈ s.cur.queue k, x.reads = []) ∧ (∀ c ∈ s.cur.vcq, c.reads = []) ∧ s.cur.puts = none ∧ s.cur.adrift = []

/-- Badger serves the head of TIL, whose demand waits no longer (R168). -/
def servesTil (t : Task) : Task :=
  { t with badger := some .til, wants := if t.badger = none then t.wants.filter (fun k => k ≠ .til) else t.wants }

/-- A sub-tile of thunk k, named u, is done: its bit is set, and with the last bit the thunk is complete, every descriptor that names
it has STATE 2, its lane 3 signal is given, and it is freed when nothing names it (R151, R152, R159, R167). -/
def SubTileMarked (s t : State) (u : BitVec 8) (k : Thunk) (sr sc : Nat) : Prop :=
  let n := (k.out.rows.toNat + 31) / 32 * ((k.out.cols.toNat + 31) / 32)
  let done := k.done ||| 2 ^ (sr * ((k.out.cols.toNat + 31) / 32) + sc)
  ((∃ b < n, done.testBit b = false) →
    t.cur.thunks = (s.cur.thunks.map fun x => if x.idx = u then { x with done } else x) ∧ t.cur.regs = s.cur.regs) ∧
  ((∀ b < n, done.testBit b = true) →
    (∀ d : TReg, descIn t d = if (descIn s d).state = 1 ∧ (descIn s d).thk = u then { descIn s d with state := 2 } else descIn s d) ∧
    (∀ sm : SemReg, t.cur.regs.sm.get sm.toFin =
      if (Instr.mmExt? k.ins).bind (fun x => x.sig) = some sm then
        BitVec.ofNat 32 (min ((s.cur.regs.sm.get sm.toFin).toNat + 1) 0xFFFFFFFF) else s.cur.regs.sm.get sm.toFin) ∧
    (k.refs = 0 → ∀ x ∈ t.cur.thunks, x.idx ≠ u) ∧
    (k.refs ≠ 0 → { k with done, complete := true } ∈ t.cur.thunks))

/-- O25. A demand at the head of TIL: force, tst of one operand and tflush perform once nothing of their demand is left, a force
beyond its tile raises TILE_SHAPE; once the next sub-tile is computed and written, MATRIX_COMMAND_COMPLETE marks it done, unless Badger
serves another queue's demand, and with the last one makes the thunk complete, its descriptors STATE 2, gives its signal and frees it
when nothing names it (what is written is the next statement's); a lane 3 wait takes its semaphore once, unless a sem.wait in progress
takes it first (R104, R151, R152, R159, R164 to R169). Readings of the model it rests on: log 14. -/
def Obligations.DemandsComputeTheirSubTiles : Prop :=
  (∀ (s : State) (e : Entry), TilReady s e →
    (∀ d row0 rows col0 cols, e.ins = .force d row0 rows col0 cols → (descIn s d).state ≠ 1 → exec e.ins s = .next (s.left e)) ∧
    (∀ d row0 rows col0 cols, e.ins = .force d row0 rows col0 cols → (descIn s d).state = 1 →
      ((descIn s d).rows.toNat ≤ 32 * row0.toNat ∨ (descIn s d).cols.toNat ≤ 32 * col0.toNat) →
      exec e.ins s = .next (takeFault { e.info with code := 0x2A } s)) ∧
    (∀ d row0 rows col0 cols, e.ins = .force d row0 rows col0 cols → (descIn s d).state = 1 →
      32 * row0.toNat < (descIn s d).rows.toNat → 32 * col0.toNat < (descIn s d).cols.toNat →
      e.planLeft s.cur = [] → exec e.ins s = .next (s.left e)) ∧
    (∀ d, e.ins = .tst d d → (descIn s d).state ≠ 1 → exec e.ins s = .next (s.left e)) ∧
    (∀ d k, e.ins = .tst d d → (descIn s d).state = 1 → s.cur.thunks.find? (fun x => x.idx == (descIn s d).thk) = some k →
      planOf s.cur.thunks k.idx k.out.whole = [] → exec e.ins s = .next (s.left e)) ∧
    (e.ins = .tflush → (∀ u ∈ s.cur.thunks, u.complete = true) → exec e.ins s = .next (s.left e))) ∧
  (∀ (s s1 s2 : State) (core : Nat) (e : Entry) (rest : List Entry) (u : BitVec 8) (sr sc w : Nat) (more : List DemandOp) (k : Thunk)
      (ps : List Put) (f : FaultInfo),
    s.cur.status = .running core → s.cur.queue .til = e :: rest → e.stream = .til → s.cur.flow.due = none → s.air = none → LandsNow s →
    (s.cur.badger = none ∨ s.cur.badger = some .til) →
    e.planLeft s.cur = .compute u sr sc :: more → s.cur.thunks.find? (fun x => x.idx == u) = some k →
    (∀ x ∈ s.cur.thunks, x.idx = u → x = k) →
    f = { e.info with thk := BitVec.ofNat 64 (2 ^ 63 + sc % 128 * 2 ^ 47 + sr % 128 * 2 ^ 40 + k.idx.toNat * 2 ^ 32 + k.seq.toNat),
                      tag := 0, queue := some (core, 2, e.pfd) } →
    (subTilePuts f k (k.out.subRect sr sc)).run.run (s.withTask servesTil) = (.ok (w, ps), s1) →
    (writePuts f w ps).run.run s1 = (.ok ⟨⟩, s2) →
    s2.cur.thunks = s.cur.thunks → s2.cur.flow = s.cur.flow → s2.cur.queues = s.cur.queues → s2.cur.vcq = s.cur.vcq → s2.air = none →
    ∃ t, exec .matrixCommandComplete s = .next t ∧ t.hbm = s2.hbm ∧ t.cur.queues = s.cur.queues ∧ SubTileMarked s2 t u k sr sc) ∧
  (∀ (s : State) (core : Nat) (e : Entry) (rest : List Entry) (u : BitVec 8) (k : Thunk) (sm : SemReg), s.cur.status = .running core →
    s.Untraced → s.cur.queue .til = e :: rest → (∀ j : Stream, j ≠ .til → s.cur.queue j = []) → e.stream = .til → e.waited ≠ 0 →
    e.waitThk = some u → s.cur.thunks.find? (fun x => x.idx == u) = some k → (Instr.mmExt? k.ins).bind (fun x => x.wait) = some sm →
    s.cur.regs.sm.get sm.toFin ≠ 0 → s.cur.seqTakes sm = false →
    exec .thunkSemWait s = .next ((withSem s sm (s.cur.regs.sm.get sm.toFin - 1)).withTask fun t =>
      { t.setQueue .til ({ e with waited := 0, waitThk := none } :: rest) with
        thunks := s.cur.thunks.map fun x => if x.idx = u then { x with waitTaken := true } else x }))

/-- Element (i, j) of a tile: the address of its row and its first bit there (R128, R147). -/
def rowOf (d : Desc) (i : Nat) : Word := d.base + BitVec.ofNat 64 i * d.pitch.setWidth 64

/-- The address of the bytes that hold element (i, j). -/
def holderOf (d : Desc) (w i j : Nat) : Word := rowOf d i + BitVec.ofNat 64 (if w = 6 then j / 4 * 3 else w * j / 8)

/-- A tile whose elements of w bits lie aligned in unscaled pages of this module's HBM with one format, whose leaves are
marked accessed, and dirty too where the tile is written. -/
def TileOk (s : State) (d : Desc) (w : Nat) (f : Fmt) (L : Nat → Nat → Word) (write : Bool) : Prop :=
  ∀ i j, i < d.rows.toNat → j < d.cols.toNat →
    s.Maps s.cur.pool.ctx (holderOf d w i j) (L i j) ∧ localHbm (L i j) = true ∧ leafDlt (L i j) = false ∧ leafBg (L i j) = 0 ∧
    Fmt.ofCode (leafFmt (L i j)) = some f ∧ f.bits = w ∧ (L i j).getLsbD 3 = true ∧
    (write = true → leafW (L i j) = true ∧ (L i j).getLsbD 4 = true) ∧ (holderOf d w i j).toNat % alignUnit w = 0 ∧
    (holderOf d w i j).toNat % pageBytes (leafSz (L i j)) + holder w ≤ pageBytes (leafSz (L i j))

/-- Byte a of HBM, bit k, holds bit x of element (i, j). -/
def TileBit (s : State) (d : Desc) (w : Nat) (L : Nat → Nat → Word) (i j x a k : Nat) : Prop :=
  i < d.rows.toNat ∧ j < d.cols.toNat ∧ x < w ∧
  placeOf (L i j) (rowOf d i + BitVec.ofNat 64 ((w * j + x) / 8)) s.cur.cluster = (.hbm, a) ∧ k = (w * j + x) % 8

/-- A tile that can be written: no two elements share a bit, and no page table shares a byte with it. -/
def TileTarget (s : State) (d : Desc) (w : Nat) (f : Fmt) (L : Nat → Nat → Word) : Prop :=
  TileOk s d w f L true ∧
  (∀ i j b i' j' b' a k, TileBit s d w L i j b a k → TileBit s d w L i' j' b' a k → i = i' ∧ j = j' ∧ b = b') ∧
  (∀ (m : Mem) (c : Ctx) (va : Word), s.ctx? s.cur.pool.ctx = some c →
    (∀ a, (∀ i j b k, ¬ TileBit s d w L i j b a k) → Mem.read m a = Mem.read s.hbm a) →
    walkTables m c.root va = walkTables s.hbm c.root va)

/-- Every element of a tile holds its bits, and every other bit of HBM is as it was. -/
def TileWritten (s t : State) (d : Desc) (w : Nat) (L : Nat → Nat → Word) (v : Nat → Nat → Nat) : Prop :=
  (∀ i j, i < d.rows.toNat → j < d.cols.toNat → HoldsBits t (L i j) (rowOf d i) (w * j) w (v i j)) ∧
  (∀ a k, (∀ i j b, ¬ TileBit s d w L i j b a k) → (Mem.read t.hbm a).getLsbD k = (Mem.read s.hbm a).getLsbD k)

/-- The elements of a tile that is only read. -/
def TileHolds (s : State) (d : Desc) (w : Nat) (f : Fmt) (L : Nat → Nat → Word) (v : Nat → Nat → Nat) : Prop :=
  TileOk s d w f L false ∧ ∀ i j, i < d.rows.toNat → j < d.cols.toNat → HoldsBits s (L i j) (rowOf d i) (w * j) w (v i j)

/-- A leaf that maps an address maps every address of its page. -/
def PagesWhole (s : State) : Prop :=
  ∀ va va' leaf : Word, s.Maps s.cur.pool.ctx va leaf → pageOf leaf va' = pageOf leaf va → s.Maps s.cur.pool.ctx va' leaf

/-- A stream of pages walks without a change to memory: every page of the context is marked accessed, and dirty where it can be written,
and what the access queues hold is what its tables give (R414, R418). -/
def StreamsAreCurrent (s : State) : Prop :=
  PagesWhole s ∧
  (∀ va leaf, s.Maps s.cur.pool.ctx va leaf → leaf.getLsbD 3 = true ∧ (leafW leaf = true → leaf.getLsbD 4 = true)) ∧
  ∀ q ∈ s.accessQs, ∀ (c : Cached) (va : Word), (q.cur = some c ∨ q.next = some c) → c.covers s.cur.pool.ctx va = true →
    s.Maps s.cur.pool.ctx va c.leaf

/-- O26. tst of two operands with a source that is not pending writes every element of the destination with the encoding,
under rne, of its source element, and leaves every other bit of HBM (R165). -/
def Obligations.TstCopiesItsTile : Prop :=
  ∀ (s : State) (e : Entry) (x y : TReg) (wx wy : Nat) (fx fy : Fmt) (Lx Ly : Nat → Nat → Word) (v : Nat → Nat → Nat), TilReady s e →
    x ≠ y → e.ins = .tst x y → s.MemoryWf → s.Clear → StreamsAreCurrent s → s.launches = [] → (descIn s x).state = 0 →
    1 ≤ (descIn s x).rows.toNat → 1 ≤ (descIn s x).cols.toNat →
    (descIn s y).rows = (descIn s x).rows → (descIn s y).cols = (descIn s x).cols →
    ((sourceBytes (descIn s) [] (x, 0)).1 + (sourceBytes (descIn s) [] (x, 0)).2 ≤ (sourceBytes (descIn s) [] (y, 0)).1 ∨
      (sourceBytes (descIn s) [] (y, 0)).1 + (sourceBytes (descIn s) [] (y, 0)).2 ≤ (sourceBytes (descIn s) [] (x, 0)).1) →
    TileHolds s (descIn s x) wx fx Lx v → TileTarget s (descIn s y) wy fy Ly →
    (∀ i j b i' j' b' a k k', TileBit s (descIn s y) wy Ly i j b a k → ¬ TileBit s (descIn s x) wx Lx i' j' b' a k') →
    ∃ t, exec e.ins s = .next t ∧ t.cur.queue .til = (s.cur.queue .til).tail ∧ (∀ d, descIn t d = descIn s d) ∧
      TileWritten s t (descIn s y) wy Ly fun i j => (fy.enc .rne 0 (fx.dec (v i j))).1

/-- The exact value and flags that an element form gives an element from the exact values of its sources' elements, y being that of a
second source (R155, R160 Table 6). -/
def elementRow (i : Instr) (aux : BitVec 32) (x y : FV) : Option (FV × Fl) :=
  match i with
  | .tadd .. => some (x.add y)
  | .tmul .. => some (x.mul y)
  | .tscal .. => some (x.mul (f32 aux))
  | .tmap fn _ _ => some (match fn with
    | .relu => (if x = .nan then .nan else if (FV.fin false 0 1).lt x = true then x else .fin false 0 1, 0)
    | .neg => (x.negate, 0)
    | .abs => ((match x with | .nan => .nan | .inf _ => .inf false | .fin _ n d => .fin false n d), 0)
    | .sq => x.mul x
    | .cvt => (x, 0))
  | .tview .. => some (x, 0)
  | _ => none

/-- The element of a source that element (i, j) of an element form's output takes (R155 Table 4). -/
def sourceAt (ins : Instr) (i j : Nat) : Nat × Nat :=
  match ins with
  | .tview .tr _ _ _ => (j, i)
  | .tview .rows _ _ off => (i + off.toNat, j)
  | .tview .cols _ _ off => (i, j + off.toNat)
  | .tview .rbc _ _ _ => (0, j)
  | .tview .cbc _ _ _ => (i, 0)
  | _ => (i, j)

/-- A thunk holds what its instruction appended with it: the snapshots of its output and of its sources with their maps, its scalar, and
shapes that fit (R153 to R155, R160). -/
def HoldsItsForm (k : Thunk) (caps : List Word) (x : TReg → Desc) : Prop :=
  ∃ (d : TReg) (srcs : List (TReg × Nat)) (shapes : Prop), appendRow k.ins caps x = some (d, srcs, false, k.aux, shapes) ∧ shapes ∧
    k.out = x d ∧ (k.srcs.map fun z => (z.desc, z.map)) = srcs.map fun z => (x z.1, z.2)

/-- O60. MATRIX_COMMAND_COMPLETE computes and writes the next sub-tile of the demand at the head of TIL, for the element forms tadd, tmul,
tscal, tmap, tview and tcpy with unscaled tiles whose accesses meet no fault: each element of the sub-tile holds the encoding under rne of
the exact value of its form, tcpy's the bits of its source, every other bit of HBM and the other memories stay, FPST takes the flags of
these elements, and the sub-tile is marked done (R147, R151, R155, R160, R163, R167, R169). -/
def Obligations.ElementFormsComputeTheirSubTiles : Prop :=
  ∀ (s : State) (core : Nat) (e : Entry) (rest : List Entry) (u : BitVec 8) (sr sc : Nat) (more : List DemandOp) (k : Thunk)
    (caps : List Word) (x : TReg → Desc) (wa wb w : Nat) (fa fb f : Fmt) (La Lb L : Nat → Nat → Word) (a b v : Nat → Nat → Nat)
    (fl : Nat → Nat → Fl),
    s.cur.status = .running core → s.cur.queue .til = e :: rest → e.stream = .til → e.planLeft s.cur = .compute u sr sc :: more →
    (s.cur.badger = none ∨ s.cur.badger = some .til) → s.cur.flow.due = none → s.act = none → s.air = none →
    LandsNow s → s.cur.mx = none → s.MemoryWf → s.Unwatched → s.poison = [] → s.transit = [] → s.walks = [] → s.launches = [] →
    StreamsAreCurrent s → s.cur.thunks.find? (fun x => x.idx == u) = some k → (∀ x ∈ s.cur.thunks, x.idx = u → x = k) →
    sr < (k.out.rows.toNat + 31) / 32 → sc < (k.out.cols.toNat + 31) / 32 →
    k.done.testBit (sr * ((k.out.cols.toNat + 31) / 32) + sc) = false → HoldsItsForm k caps x →
    (∀ z ∈ k.srcs, 1 ≤ z.desc.rows.toNat ∧ 1 ≤ z.desc.cols.toNat) → (∀ z, k.srcs.head? = some z → TileHolds s z.desc wa fa La a) →
    (∀ z, (k.srcs.drop 1).head? = some z → TileHolds s z.desc wb fb Lb b) → TileTarget s k.out w f L →
    let inSub := fun i j => i < k.out.rows.toNat ∧ j < k.out.cols.toNat ∧ i / 32 = sr ∧ j / 32 = sc
    ((∃ d y, k.ins = .tcpy d y ∧ fa = f ∧ ∀ i j, v i j = a i j ∧ fl i j = 0) ∨
      ∀ i j, inSub i j → ∃ y g, elementRow k.ins k.aux (fa.dec (a (sourceAt k.ins i j).1 (sourceAt k.ins i j).2)) (fb.dec (b i j)) = some (y, g) ∧
        v i j = (f.enc .rne 0 y).1 ∧ fl i j = g ||| (f.enc .rne 0 y).2) →
    ∃ (t : State) (g : Fl), exec .matrixCommandComplete s = .next t ∧
      (∀ i j, inSub i j → HoldsBits t (L i j) (rowOf k.out i) (w * j) w (v i j)) ∧
      (∀ a c, (∀ i j b, inSub i j → ¬ TileBit s k.out w L i j b a c) → (Mem.read t.hbm a).getLsbD c = (Mem.read s.hbm a).getLsbD c) ∧
      t.csram = s.csram ∧ t.hostMem = s.hostMem ∧ t.peerMem = s.peerMem ∧ t.others = s.others ∧ t.cur.queues = s.cur.queues ∧
      t.cur.sys.fpst = s.cur.sys.fpst ||| g ∧ (∀ c, g.getLsbD c = true ↔ ∃ i j, inSub i j ∧ (fl i j).getLsbD c = true) ∧
      SubTileMarked s t u k sr sc

/-! ## The sketch queue (R222 to R243) -/

/-- The head entry of SKQ may perform, no watch stop is due, and nothing that has ended is still to land. -/
def SkqReady (s : State) (e : Entry) : Prop := s.Ready e ∧ e.stream = .skq ∧ s.cur.flow.due = none ∧ s.cur.adrift = []

/-- A sketch slot of the acting task. -/
def slotIn (s : State) (k : KReg) : Option Slot := s.cur.regs.k.get k.toFin

/-- A sketch slot replaced. -/
def withSlot (s : State) (k : KReg) (x : Option Slot) : State := s.withRegs fun g => { g with k := g.k.set k.toNat x k.isLt }

/-- The fields of a Sketch Control Block at an address of HBM (R222 Table 1). -/
def scbAt (s : State) (a : Nat) : Scb :=
  { uva := BitVec.ofNat 64 (Mem.num s.hbm a 8), vva := BitVec.ofNat 64 (Mem.num s.hbm (a + 8) 8), m := Mem.num s.hbm (a + 0x10) 4,
    n := Mem.num s.hbm (a + 0x14) 4, kcap := Mem.num s.hbm (a + 0x18) 2, rank := Mem.num s.hbm (a + 0x1A) 2,
    klim := Mem.num s.hbm (a + 0x1C) 2, sfl := BitVec.ofNat 16 (Mem.num s.hbm (a + 0x1E) 2),
    de := BitVec.ofNat 64 (Mem.num s.hbm (a + 0x20) 8), shrn := BitVec.ofNat 64 (Mem.num s.hbm (a + 0x28) 8),
    gen := BitVec.ofNat 64 (Mem.num s.hbm (a + 0x30) 8) }

/-- The width of a factor (R222: FF). -/
def factorBits (c : Scb) : Nat := if c.sfl.getLsbD 1 then 16 else 32

/-- The format of a factor. -/
def factorFmt (c : Scb) : Fmt := if c.sfl.getLsbD 1 then .bf16 else .fp32

/-- The bytes from one column to the next (R222). -/
def columnStep (c : Scb) (rows : Nat) : Nat := (rows * factorBits c + 511) / 512 * 64

/-- The rows of a side: U, or V where the flag is set. -/
def sideRows (c : Scb) (v : Bool) : Nat := if v then c.n else c.m

/-- The address of column j of a side. -/
def columnVa (c : Scb) (v : Bool) (j : Nat) : Word :=
  (if v then c.vva else c.uva) + BitVec.ofNat 64 (j * columnStep c (sideRows c v))

/-- The limits R223 sets on the fields, with LOCK and the reserved bytes 0. -/
def ScbFits (s : State) (a : Nat) : Prop :=
  let c := scbAt s a
  1 ≤ c.m ∧ c.m ≤ 32768 ∧ 1 ≤ c.n ∧ c.n ≤ 32768 ∧ 2 ≤ c.kcap ∧ c.kcap ≤ 256 ∧ c.rank ≤ c.kcap ∧ 1 ≤ c.klim ∧ c.klim < c.kcap ∧
  c.sfl.toNat < 16 ∧ c.sfl.getLsbD 2 = false ∧ c.uva.toNat % 64 = 0 ∧ c.vva.toNat % 64 = 0 ∧
  ∀ off, 0x38 ≤ off → off < 0x80 → Mem.read s.hbm (a + off) = 0

/-- A run of bytes of one page of this module's HBM that may be written, its leaf marked accessed and dirty. -/
def WritableRun (s : State) (va leaf : Word) (a n : Nat) : Prop :=
  s.Maps s.cur.pool.ctx va leaf ∧ leafW leaf = true ∧ leafDlt leaf = false ∧ localHbm leaf = true ∧ leaf.getLsbD 3 = true ∧
  leaf.getLsbD 4 = true ∧ placeOf leaf va s.cur.cluster = (.hbm, a) ∧
  va.toNat % pageBytes (leafSz leaf) + n ≤ pageBytes (leafSz leaf)

/-- The factors of a side in memory: factor i of column j, in the page L gives it. -/
def FactorsOk (s : State) (c : Scb) (L : Bool → Nat → Nat → Word) (write : Bool) : Prop :=
  ∀ v j i, j < c.rank → i < sideRows c v →
    s.Maps s.cur.pool.ctx (columnVa c v j + BitVec.ofNat 64 (i * (factorBits c / 8))) (L v j i) ∧ localHbm (L v j i) = true ∧
    leafDlt (L v j i) = false ∧ (L v j i).getLsbD 3 = true ∧ (write = true → leafW (L v j i) = true ∧ (L v j i).getLsbD 4 = true)

/-- A column's factors: as many as its side has rows. -/
def Columns (c : Scb) (l : List (List Lane)) (rows n : Nat) : Prop :=
  l.length = n ∧ ∀ col ∈ l, col.length = rows ∧ ∀ x ∈ col, x.toNat < 2 ^ factorBits c

/-- Byte a of HBM holds a byte of a factor. -/
def FactorByte (s : State) (c : Scb) (L : Bool → Nat → Nat → Word) (v : Bool) (j i b a : Nat) : Prop :=
  j < c.rank ∧ i < sideRows c v ∧ b < factorBits c / 8 ∧
  placeOf (L v j i) (columnVa c v j + BitVec.ofNat 64 (i * (factorBits c / 8) + b)) s.cur.cluster = (.hbm, a)

/-- Translation stays as it is whatever stands in some bytes of HBM. -/
def TranslationApart (s : State) (F : Nat → Prop) : Prop :=
  ∀ (m : Mem) (c : Ctx) (va : Word), s.ctx? s.cur.pool.ctx = some c → (∀ a, ¬ F a → Mem.read m a = Mem.read s.hbm a) →
    walkTables m c.root va = walkTables s.hbm c.root va

/-- O27. Slots: skbind reads the control block and the factors, writes LOCK and takes a working store; skinit clears rank,
energy and count; sksave writes the factors and bytes 0x18 to 0x37 with the next generation; skunbind writes LOCK 0, frees the
slot and returns the store; skde and skrank append to s61; a slot that is not bound raises SK_STATE (R222 to R229, R236 to
R238). -/
def Obligations.SlotsBindSaveAndUnbind : Prop :=
  (∀ (s : State) (e : Entry) (k : KReg) (r : SReg) (va leaf : Word) (a place core : Nat) (c : Ctx) (L : Bool → Nat → Nat → Word),
    SkqReady s e → e.ins = .skbind k r → e.caps = [va] → s.MemoryWf → PagesWhole s → s.Clear → s.launches = [] → s.cur.status = .running core →
    va.toNat % 128 = 0 → slotIn s k = none → WritableRun s va leaf a 128 → ScbFits s a → s.ctx? s.cur.pool.ctx = some c →
    s.sketchPlace s.cur.pool.ctx s.cur.pool.die.toNat
      ((columnStep (scbAt s a) (scbAt s a).m + columnStep (scbAt s a) (scbAt s a).n) * (scbAt s a).kcap) = some place →
    FactorsOk s (scbAt s a) L false → TranslationApart s (fun z => a + 0x38 ≤ z ∧ z < a + 0x40) →
    (∀ v j i b z, FactorByte s (scbAt s a) L v j i b z → z < a + 0x38 ∨ a + 0x40 ≤ z) →
    ∃ t x y, exec e.ins s = .next t ∧ slotIn t k = some x ∧ x.scb = scbAt s a ∧ x.va = va ∧ x.opened = 0 ∧ x.store = place ∧
      Columns x.scb x.u x.scb.m x.scb.rank ∧ Columns x.scb x.v x.scb.n x.scb.rank ∧
      (∀ v j i z, j < x.scb.rank → i < sideRows x.scb v →
        HoldsBits s (L v j i) (columnVa x.scb v j) (factorBits x.scb * i) (factorBits x.scb) z →
        (((if v then x.v else x.u).getD j []).getD i 0).toNat = z) ∧
      Mem.num t.hbm (a + 0x38) 8 = 2 ^ 63 + k.toNat * 2 ^ 48 + core * 2 ^ 40 + s.cur.pool.ctx % 2 ^ 32 ∧
      (∀ b, b < a + 0x38 ∨ a + 0x40 ≤ b → Mem.read t.hbm b = Mem.read s.hbm b) ∧ (∀ j, j ≠ k → slotIn t j = slotIn s j) ∧
      t.ctx? s.cur.pool.ctx = some y ∧
      y.skUsed = (s.cur.pool.die.toNat, place, (columnStep x.scb x.scb.m + columnStep x.scb x.scb.n) * x.scb.kcap) :: c.skUsed) ∧
  (∀ (s : State) (e : Entry) (k : KReg) (x : Slot), SkqReady s e → e.ins = .skinit k → slotIn s k = some x → x.opened = 0 →
    exec e.ins s = .next ((withSlot s k (some { x with scb := { x.scb with rank := 0, de := 0, shrn := 0 }, u := [], v := [] })).left e)) ∧
  (∀ (s : State) (e : Entry) (k : KReg) (x : Slot) (leaf : Word) (a : Nat) (L : Bool → Nat → Nat → Word), SkqReady s e →
    e.ins = .sksave k → s.MemoryWf → PagesWhole s → s.Clear → s.launches = [] → slotIn s k = some x → x.opened = 0 →
    Columns x.scb x.u x.scb.m x.scb.rank → Columns x.scb x.v x.scb.n x.scb.rank → x.scb.kcap < 2 ^ 16 → x.scb.rank < 2 ^ 16 →
    x.scb.klim < 2 ^ 16 → x.scb.uva.toNat % 64 = 0 → x.scb.vva.toNat % 64 = 0 → WritableRun s (x.va + 0x18) leaf a 0x20 →
    FactorsOk s x.scb L true →
    (∀ v j i b v' j' i' b' z, FactorByte s x.scb L v j i b z → FactorByte s x.scb L v' j' i' b' z → v = v' ∧ j = j' ∧ i = i' ∧ b = b') →
    (∀ v j i b z, FactorByte s x.scb L v j i b z → z < a ∨ a + 0x20 ≤ z) →
    TranslationApart s (fun z => (a ≤ z ∧ z < a + 0x20) ∨ ∃ v j i b, FactorByte s x.scb L v j i b z) →
    ∃ t, exec e.ins s = .next t ∧ slotIn t k = some { x with scb := { x.scb with gen := x.scb.gen + 1 } } ∧
      Mem.num t.hbm a 2 = x.scb.kcap ∧ Mem.num t.hbm (a + 2) 2 = x.scb.rank ∧ Mem.num t.hbm (a + 4) 2 = x.scb.klim ∧
      Mem.num t.hbm (a + 6) 2 = x.scb.sfl.toNat ∧ Mem.num t.hbm (a + 8) 8 = x.scb.de.toNat ∧
      Mem.num t.hbm (a + 0x10) 8 = x.scb.shrn.toNat ∧ Mem.num t.hbm (a + 0x18) 8 = (x.scb.gen + 1).toNat ∧
      (∀ v j i b z, FactorByte s x.scb L v j i b z →
        Mem.read t.hbm z = (((if v then x.v else x.u).getD j []).getD i 0).extractLsb' (8 * b) 8) ∧
      (∀ z, (z < a ∨ a + 0x20 ≤ z) → (∀ v j i b, ¬ FactorByte s x.scb L v j i b z) → Mem.read t.hbm z = Mem.read s.hbm z)) ∧
  (∀ (s : State) (e : Entry) (k : KReg) (x : Slot) (c : Ctx) (leaf : Word) (a : Nat), SkqReady s e → e.ins = .skunbind k → s.MemoryWf →
    s.Clear → s.launches = [] → slotIn s k = some x → WritableRun s (x.va + 0x38) leaf a 8 → s.ctx? s.cur.pool.ctx = some c →
    ∃ t y, exec e.ins s = .next t ∧ slotIn t k = none ∧ Mem.num t.hbm a 8 = 0 ∧
      (∀ z, z < a ∨ a + 8 ≤ z → Mem.read t.hbm z = Mem.read s.hbm z) ∧ t.ctx? s.cur.pool.ctx = some y ∧
      y.skUsed = c.skUsed.filter fun u => !(u.1 == s.cur.pool.die.toNat && u.2.1 == x.store)) ∧
  (∀ (s u : State) (e : Entry) (k : KReg) (x : Slot), SkqReady s e → slotIn s k = some x →
    (e.ins = .skde k → s.give 61 x.scb.de = some u → exec e.ins s = .next (u.left e)) ∧
    (e.ins = .skrank k → s.give 61 (BitVec.ofNat 64 x.scb.rank) = some u → exec e.ins s = .next (u.left e))) ∧
  (∀ (s : State) (e : Entry) (k : KReg) (r : SReg), SkqReady s e → slotIn s k = none →
    (e.ins = .skinit k ∨ e.ins = .sksave k ∨ e.ins = .skunbind k ∨ e.ins = .skde k ∨ e.ins = .skrank k ∨ e.ins = .skshr k r) →
    ∃ f, f.code = 0x31 ∧ f.stream = .skq ∧ f.seq = e.num ∧ exec e.ins s = .next (takeFault f s))

/-- A factor's value. -/
def factorValue (c : Scb) (x : Lane) : FV := (factorFmt c).dec x.toNat

/-- A finite value. -/
def finite (x : FV) : Prop := ∃ g n d, x = .fin g n d

/-- A value rounded to FP32. -/
def rounded32 (x : FV) : FV := f32 (toF32 x).1

/-- The sum of two values. -/
def plus (x y : FV) : FV := (x.add y).1
/-- The product of two values. -/
def times (x y : FV) : FV := (x.mul y).1

/-- A value rounded to FP64 (R240). -/
def rounded64 (x : FV) : FV := specFp64.dec (specFp64.enc .rne 0 x).1

/-- dot(x, y) (R240). -/
def dotOf (x y : List FV) : FV := ((dot x y).run 0).1

/-- The i-th kept singular value from the sorted ones, by MODE (R242). -/
def keptSigma (fd : Bool) (sig : Nat → FV) (t i : Nat) : FV :=
  if fd then rounded32 (sqrtV (rounded64 ((plus (times (sig i) (sig i)) (times (sig t) (sig t)).negate).max (.fin false 0 1)))).1 else sig i

/-- The energy that a shrink of rank r to t drops, from the sorted singular values and what the passes dropped (R242). -/
def energyDropped (fd : Bool) (sig : Nat → FV) (r t : Nat) (before : FV) : FV :=
  let kept := if fd then (List.range t).foldl (fun d i => rounded64 (plus d (rounded64
    (plus (times (sig i) (sig i)) (times (keptSigma fd sig t i) (keptSigma fd sig t i)).negate)))) before else before
  (List.range (r - t)).foldl (fun d i => rounded64 (plus d (times (sig (t + i)) (sig (t + i))))) kept

/-- The values that a shrink to t < r of finite factors leaves: Q, T and the energy of its two passes and the rotations W that diagonalise
C are those of R240 and R241; the indices are sorted by σ in descending order, equal ones in ascending order; U′ and V′ are encoded from
Q, P, W and σ′, under RS with the generator's numbers from rng on, column by column; and DE gains what was dropped (R240 to R242). Where
no singular value is a NaN. -/
def ShrunkValues (x y : Slot) (t : Nat) (rng : Word) : Prop :=
  let r := x.scb.rank
  let fd := x.scb.sfl.getLsbD 0
  let rs := x.scb.sfl.getLsbD 3
  let cols := fun l : List (List Lane) => l.map fun c => c.map fun z => factorValue x.scb z
  let enc := fun n v => (factorFmt x.scb).enc (if rs then .rs else .rne) (if rs then genNumber rng n else 0) v
  let part := fun (m : List (List FV)) i j => (m.getD i []).getD j (FV.fin false 0 1)
  let across := fun (m : List (List FV)) j => (List.range r).map fun l => part m l j
  ∃ (xu xv tu1 tv1 qu qv tu2 tv2 c w : List (List FV)) (d1 d2 : FV) (g1 g2 g3 : Fl) (sig : Nat → FV) (order : List Nat),
    (shrinkPass (cols x.u) (cols x.v) (.fin false 0 1)).run 0 = ((xu, xv, tu1, tv1, d1), g1) ∧
    (shrinkPass xu xv d1).run 0 = ((qu, qv, tu2, tv2, d2), g2) ∧
    (let ru := fun i j => dotOf (tu2.getD i []) (across tu1 j)
     let rv := fun i j => dotOf (tv2.getD i []) (across tv1 j)
     let c0 := (List.range r).map fun j => (List.range r).map fun i => dotOf ((List.range r).map (ru i)) ((List.range r).map (rv j))
     let one := (List.range r).map fun j => (List.range r).map fun i => if i = j then FV.one else FV.fin false 0 1
     let pairs := (List.range r).flatMap fun p => (List.range (r - 1 - p)).map fun q => (p, p + 1 + q)
     (jacobi pairs 8 c0 one).run 0 = ((c, w), g3)) ∧
    (∀ j < r, sig j = rounded32 (sqrtV (dotOf (c.getD j []) (c.getD j []))).1) ∧
    ((∀ j < r, sig j ≠ .nan) →
      order.Perm (List.range r) ∧
      (∀ i j, i < j → j < r → (sig (order.getD j 0)).lt (sig (order.getD i 0)) = true ∨
        ((sig (order.getD i 0)).lt (sig (order.getD j 0)) = false ∧ order.getD i 0 < order.getD j 0)) ∧
      (let sorted := fun i => sig (order.getD i 0)
       let p := fun j => (c.getD j []).map fun z => if (sig j).isZero then FV.fin false 0 1 else rounded32 (z.div (sig j)).1
       (∀ i < t, ∀ e < x.scb.m, (y.u.getD i []).getD e 0 = BitVec.ofNat 32 (enc (i * x.scb.m + e)
          (rounded32 (times (dotOf (across qu e) (p (order.getD i 0))) (keptSigma fd sorted t i)))).1) ∧
       (∀ i < t, ∀ e < x.scb.n, (y.v.getD i []).getD e 0 = BitVec.ofNat 32 (enc (t * x.scb.m + i * x.scb.n + e)
          (dotOf (across qv e) (w.getD (order.getD i 0) []))).1) ∧
       y.scb.de = BitVec.ofNat 64 (specFp64.enc .rne 0 (plus (specFp64.dec x.scb.de.toNat) (energyDropped fd sorted r t d2))).1))

/-- What a shrink to a target leaves of a slot, the generator being at rng: the rank, one more shrink, the values and the energy, and the
other fields; a factor that is no finite number leaves rank 0 and a NaN energy (R240 to R243). -/
def ShrunkTo (x y : Slot) (n : Nat) (rng : Word) : Prop :=
  y.va = x.va ∧ y.opened = x.opened ∧ y.store = x.store ∧ y.scb.shrn = x.scb.shrn + 1 ∧ y.scb.gen = x.scb.gen ∧
  y.scb.m = x.scb.m ∧ y.scb.n = x.scb.n ∧ y.scb.kcap = x.scb.kcap ∧ y.scb.klim = x.scb.klim ∧ y.scb.sfl = x.scb.sfl ∧
  ((∀ col ∈ x.u ++ x.v, ∀ z ∈ col, finite (factorValue x.scb z)) → y.scb.rank = n ∧ y.u.length = n ∧ y.v.length = n ∧
    (1 ≤ x.scb.m → 1 ≤ x.scb.n → Columns x.scb x.u x.scb.m x.scb.rank → Columns x.scb x.v x.scb.n x.scb.rank →
      ShrunkValues x y n rng)) ∧
  ((∃ col ∈ x.u ++ x.v, ∃ z ∈ col, ¬ finite (factorValue x.scb z)) →
    y.scb.rank = 0 ∧ y.scb.de = 0x7FF8000000000000 ∧ y.u = [] ∧ y.v = [])

/-- The FP64 bits of the sum of two energies (R233). -/
def energySum (x y : Word) : Word :=
  BitVec.ofNat 64 (specFp64.enc .rne 0 ((specFp64.dec x.toNat).add (specFp64.dec y.toNat)).1).1

/-- The columns a tile gives, each element encoded as a factor; first is the number of generator steps before them (R230). -/
def tileFactors (s : State) (c : Scb) (f : Fmt) (v : Nat → Nat → Nat) (rows n first : Nat) : List (List Lane) :=
  (List.range n).map fun j => (List.range rows).map fun i => BitVec.ofNat 32
    ((factorFmt c).enc (if c.sfl.getLsbD 3 then .rs else .rne)
      (if c.sfl.getLsbD 3 then genNumber s.cur.sys.rng (first + j * rows + i) else 0) (f.dec (v i j))).1

/-- O28. Ranks: skapp in its three parts appends the encoded columns of its tiles, skmrg those of its other slot with the sum of the
energies, and each shrinks to the limit above it; skshr shrinks to its target below the rank and otherwise has no effect; a shrink leaves
the encoded values and the energy of R242, from the passes and rotations of R240 and R241 (R230 to R233, R240 to R243). Readings of the
model it rests on: log 24; what rs makes of a value just above the greatest finite one is its choice (log 60). -/
def Obligations.SlotsAppendMergeAndShrink : Prop :=
  (∀ (s : State) (e : Entry) (part : Part) (k : KReg) (p q : TReg) (x : Slot) (wp wq n : Nat) (fp fq : Fmt) (Lp Lq : Nat → Nat → Word)
      (vp vq : Nat → Nat → Nat), SkqReady s e → e.ins = .skapp part k p q → s.MemoryWf → s.Clear → s.launches = [] →
    slotIn s k = some x → n = (descIn s p).cols.toNat → n = (descIn s q).cols.toNat → 1 ≤ n →
    1 ≤ (descIn s p).rows.toNat → 1 ≤ (descIn s q).rows.toNat → TileHolds s (descIn s p) wp fp Lp vp → TileHolds s (descIn s q) wq fq Lq vq →
    let eu := tileFactors s x.scb fp vp (descIn s p).rows.toNat n 0
    let ev := tileFactors s x.scb fq vq (descIn s q).rows.toNat n (n * (descIn s p).rows.toNat)
    (part = .first → x.opened = 0 → (descIn s p).rows.toNat < x.scb.m → (descIn s q).rows.toNat < x.scb.n → x.scb.rank + n ≤ x.scb.kcap →
      ∃ t, exec e.ins s = .next t ∧ slotIn t k = some { x with opened := n, u := x.u ++ eu, v := x.v ++ ev }) ∧
    (∀ (u v : List (List Lane)),
      ((part = .whole ∧ x.opened = 0 ∧ (descIn s p).rows.toNat = x.scb.m ∧ (descIn s q).rows.toNat = x.scb.n ∧
          x.scb.rank + n ≤ x.scb.kcap ∧ u = x.u ++ eu ∧ v = x.v ++ ev) ∨
       (part = .last ∧ x.opened = n ∧ x.u.length = x.scb.rank + n ∧ x.v.length = x.scb.rank + n ∧
          (∀ col, x.u.getLast? = some col → col.length + (descIn s p).rows.toNat = x.scb.m) ∧
          (∀ col, x.v.getLast? = some col → col.length + (descIn s q).rows.toNat = x.scb.n) ∧
          u = x.u.take x.scb.rank ++ (List.range n).map (fun j => x.u.getD (x.scb.rank + j) [] ++ eu.getD j []) ∧
          v = x.v.take x.scb.rank ++ (List.range n).map (fun j => x.v.getD (x.scb.rank + j) [] ++ ev.getD j []))) →
      let y := { x with scb := { x.scb with rank := x.scb.rank + n }, opened := 0, u, v }
      ∃ t z, exec e.ins s = .next t ∧ slotIn t k = some z ∧ (y.scb.rank ≤ y.scb.klim → z = y) ∧
        (y.scb.klim < y.scb.rank → ShrunkTo y z y.scb.klim
          (genStep^[if x.scb.sfl.getLsbD 3 then n * ((descIn s p).rows.toNat + (descIn s q).rows.toNat) else 0] s.cur.sys.rng)))) ∧
  (∀ (s : State) (e : Entry) (d a : KReg) (x y : Slot), SkqReady s e → e.ins = .skmrg d a → slotIn s d = some x → slotIn s a = some y →
    (y.opened ≠ 0 → x.opened = 0 → ∃ f, f.code = 0x31 ∧ f.seq = e.num ∧ exec e.ins s = .next (takeFault f s)) ∧
    (x.opened = 0 → y.opened = 0 → x.scb.m = y.scb.m → x.scb.n = y.scb.n → factorFmt x.scb = factorFmt y.scb →
    (x.scb.rank + y.scb.rank ≤ x.scb.kcap →
      let w := { x with scb := { x.scb with rank := x.scb.rank + y.scb.rank, de := energySum x.scb.de y.scb.de },
                        u := x.u ++ y.u, v := x.v ++ y.v }
      ∃ t z, exec e.ins s = .next t ∧ slotIn t d = some z ∧ (a ≠ d → slotIn t a = some y) ∧ (w.scb.rank ≤ w.scb.klim → z = w) ∧
        (w.scb.klim < w.scb.rank → ShrunkTo w z w.scb.klim s.cur.sys.rng)) ∧
    (x.scb.kcap < x.scb.rank + y.scb.rank → ∃ f, f.code = 0x30 ∧ f.seq = e.num ∧ exec e.ins s = .next (takeFault f s)))) ∧
  (∀ (s : State) (e : Entry) (k : KReg) (r : SReg) (x : Slot) (n : Word), SkqReady s e → e.ins = .skshr k r → e.caps = [n] →
    slotIn s k = some x → x.opened = 0 →
    (x.scb.rank ≤ n.toNat → exec e.ins s = .next (s.left e)) ∧
    (n.toNat < x.scb.rank → ∃ t z, exec e.ins s = .next t ∧ slotIn t k = some z ∧ ShrunkTo x z n.toNat s.cur.sys.rng))

/-- The accumulator of an element of skapply after some groups of sixteen terms α·u·v (R235, R143). -/
def applied (alpha : FV) (u v : Nat → FV) (r : Nat) (acc : FV) : Nat → FV
  | 0 => acc
  | g + 1 => (groupSum (applied alpha u v r acc g) ((List.range (min 16 (r - 16 * g))).map fun l =>
      ((alpha.mul (u (16 * g + l))).1.mul (v (16 * g + l))).map id
        fun fl => (alpha.mul (u (16 * g + l))).2 ||| fl)).1

/-- O29. skrd writes the factor rows it names to its tile and has no effect at rank 0; skapply adds α·U·Vᵀ in groups of sixteen
to its window, and has no effect at rank 0 or on a window without elements (R234, R235). Readings of the model it rests on: log 24. -/
def Obligations.SlotsAreReadOutAndApplied : Prop :=
  (∀ (s : State) (e : Entry) (v : Bool) (k : KReg) (d : TReg) (b : SReg) (x : Slot), SkqReady s e → e.ins = .skrd v k d b →
    slotIn s k = some x → x.opened = 0 → x.scb.rank = 0 → exec e.ins s = .next (s.left e)) ∧
  (∀ (s : State) (e : Entry) (v : Bool) (k : KReg) (d : TReg) (b : SReg) (x : Slot) (first : Word) (w : Nat) (f : Fmt)
      (L : Nat → Nat → Word), SkqReady s e → e.ins = .skrd v k d b → e.caps = [first] → s.MemoryWf → s.Clear → s.launches = [] →
    slotIn s k = some x → x.opened = 0 → x.scb.rank ≠ 0 → (descIn s d).rows ≠ 0 → (descIn s d).cols ≠ 0 →
    first.toNat + (descIn s d).rows.toNat ≤ sideRows x.scb v → (descIn s d).cols.toNat ≤ x.scb.rank → TileTarget s (descIn s d) w f L →
    Columns x.scb (if v then x.v else x.u) (sideRows x.scb v) x.scb.rank →
    ∃ t, exec e.ins s = .next t ∧ (∀ j, slotIn t j = slotIn s j) ∧ TileWritten s t (descIn s d) w L fun i j =>
      (f.enc .rne 0 (factorValue x.scb (((if v then x.v else x.u).getD j []).getD (first.toNat + i) 0))).1) ∧
  (∀ (s : State) (e : Entry) (k : KReg) (d : TReg) (b : SReg) (alpha : BitVec 32) (x : Slot) (at_ : Word) (w ru rv : Nat) (f : Fmt)
      (L : Nat → Nat → Word) (old : Nat → Nat → Nat), SkqReady s e → e.ins = .skapply k d b alpha → e.caps = [at_] → s.MemoryWf → s.Clear →
    s.launches = [] → slotIn s k = some x → x.opened = 0 → ru = at_.toNat % 2 ^ 32 → rv = at_.toNat / 2 ^ 32 →
    (descIn s d).rows.toNat ≤ 1024 → (descIn s d).cols.toNat ≤ 1024 → ru + (descIn s d).rows.toNat ≤ x.scb.m → rv + (descIn s d).cols.toNat ≤ x.scb.n →
    Columns x.scb x.u x.scb.m x.scb.rank → Columns x.scb x.v x.scb.n x.scb.rank →
    (x.scb.rank = 0 ∨ (descIn s d).rows = 0 ∨ (descIn s d).cols = 0 → exec e.ins s = .next (s.left e)) ∧
    (x.scb.rank ≠ 0 → (descIn s d).rows ≠ 0 → (descIn s d).cols ≠ 0 → TileTarget s (descIn s d) w f L → TileHolds s (descIn s d) w f L old →
      ∃ t, exec e.ins s = .next t ∧ (∀ j, slotIn t j = slotIn s j) ∧ TileWritten s t (descIn s d) w L fun i j =>
        (f.enc .rne 0 (applied (f32 alpha) (fun l => factorValue x.scb ((x.u.getD l []).getD (ru + i) 0))
          (fun l => factorValue x.scb ((x.v.getD l []).getD (rv + j) 0)) x.scb.rank (f.dec (old i j)) ((x.scb.rank + 15) / 16))).1))

/-! ## The atomic queue (R265 to R287) -/

/-- The head entry of ATM may perform and no watch stop is due. -/
def AtmReady (s : State) (e : Entry) : Prop := s.Ready e ∧ e.stream = .atm ∧ s.cur.flow.due = none

/-- A number of w bits read as a signed one. -/
def signedNat (w x : Nat) : Int := (BitVec.ofNat w x).toInt

/-- The new value of an integer atomic (R269). -/
def atomicValue (op : AtomOp) (w x y : Nat) : Nat :=
  match op with
  | .add => (x + y) % 2 ^ w
  | .and => (BitVec.ofNat w x &&& BitVec.ofNat w y).toNat
  | .or => (BitVec.ofNat w x ||| BitVec.ofNat w y).toNat
  | .xor => (BitVec.ofNat w x ^^^ BitVec.ofNat w y).toNat
  | .min => if signedNat w x ≤ signedNat w y then x else y
  | .max => if signedNat w x ≤ signedNat w y then y else x
  | .minu => min x y
  | .maxu => max x y
  | .swap => y

/-- The new value of a floating atomic (R270). -/
def floatAtomicValue (op : FatomOp) (x y : Nat) : Nat :=
  let half (a b : Nat) : Nat := (Fmt.bf16.enc .rne 0 ((Fmt.bf16.dec a).add (Fmt.bf16.dec b)).1).1
  match op with
  | .fadd32 => (redRow .fadd (BitVec.ofNat 32 x) (BitVec.ofNat 32 y)).1.toNat
  | .fmin32 => (redRow .fmin (BitVec.ofNat 32 x) (BitVec.ofNat 32 y)).1.toNat
  | .fmax32 => (redRow .fmax (BitVec.ofNat 32 x) (BitVec.ofNat 32 y)).1.toNat
  | .faddbf2 => half (x % 2 ^ 16) (y % 2 ^ 16) + half (x / 2 ^ 16) (y / 2 ^ 16) * 2 ^ 16

/-- An atomic at its home: whether it returns, its width in bits, its offset, and what it leaves in the word, from the old
word and its captured operands (R269 to R271). -/
def atomicRow : Instr → Option (Bool × Nat × BitVec 19 × (Nat → List Word → Nat))
  | .atom op dbl _ _ _ off => some (true, if dbl then 64 else 32, off,
      fun x c => atomicValue op (if dbl then 64 else 32) x ((c.headD 0).toNat % 2 ^ (if dbl then 64 else 32)))
  | .atomnr op dbl _ _ _ off => some (false, if dbl then 64 else 32, off,
      fun x c => atomicValue op (if dbl then 64 else 32) x ((c.headD 0).toNat % 2 ^ (if dbl then 64 else 32)))
  | .fatom op _ _ _ off => some (true, 32, off, fun x c => floatAtomicValue op x ((c.headD 0).toNat % 2 ^ 32))
  | .fatomnr op _ _ _ off => some (false, 32, off, fun x c => floatAtomicValue op x ((c.headD 0).toNat % 2 ^ 32))
  | .cas dbl _ _ _ _ off => some (true, if dbl then 64 else 32, off, fun x c =>
      if x = (c.headD 0).toNat % 2 ^ (if dbl then 64 else 32) then (c.getD 1 0).toNat % 2 ^ (if dbl then 64 else 32) else x)
  | _ => none

/-- O30. atom, atomnr, fatom, fatomnr and cas replace the word at their home with the value of their operation, the returning
ones append the old word to s60, and every other byte of memory stays; a misaligned target raises ALIGN; afence appends, once the
return-free operations before it have performed, the number that it has held since its dispatch, which is that of O15 (R266, R269 to R271,
R274). Readings of the model it rests on: log 13. -/
def Obligations.AtomicsReplaceTheirWord : Prop :=
  (∀ (s s1 : State) (e : Entry) (leaf base va : Word) (returning : Bool) (w old : Nat) (off : BitVec 19) (f : Nat → List Word → Nat),
    AtmReady s e → s.MemoryWf → atomicRow e.ins = some (returning, w, off, f) → s.Serves e leaf base →
    va = base + BitVec.ofInt 64 off.toInt → va.toNat % (w / 8) = 0 → HoldsBits s leaf va 0 w old →
    (if returning then s.give 60 (BitVec.ofNat 64 old) else some s) = some s1 →
    ∃ m, exec e.ins s = .next ((counted e (w / 8) m).left e) ∧ OnlyMemory s1 m ∧ HoldsBits m leaf va 0 w (f old e.caps) ∧
      ∀ p a, (∀ k < w / 8, placeOf leaf (va + BitVec.ofNat 64 k) s.cur.cluster ≠ (p, a)) → Mem.read (m.memOf p) a = Mem.read (s.memOf p) a) ∧
  (∀ (s : State) (e : Entry) (leaf base va : Word) (returning : Bool) (w : Nat) (off : BitVec 19) (f : Nat → List Word → Nat),
    AtmReady s e → atomicRow e.ins = some (returning, w, off, f) → s.Serves e leaf base →
    va = base + BitVec.ofInt 64 off.toInt → va.toNat % (w / 8) ≠ 0 →
    exec e.ins s = .next (takeFault { e.info with code := 0x18, va } s)) ∧
  (∀ (s u : State) (e : Entry) (n : Word), AtmReady s e → e.ins = .afence → e.caps = [n] → s.Untraced →
    (∀ x ∈ s.cur.queue .stq, e.ord ≤ x.ord ∨ ∀ d h m off t, x.ins ≠ .vfaddnr d h m off t) →
    s.give 60 n = some u → exec e.ins s = .next (u.left e))

/-- The condition of a continuation atomic (R276). -/
def condKeeps (c : KCond) (x y : Nat) : Prop :=
  match c with
  | .eq => x = y
  | .ne => x ≠ y
  | .ltu => x < y
  | .geu => y ≤ x

/-- A continuation atomic: its width, its lane 2 and 3, and what it leaves in the word (R276). -/
def continuationRow : Instr → Option (Nat × KExt × (Nat → List Word → Nat))
  | .atomk op dbl _ _ _ k => some (if dbl then 64 else 32, k,
      fun x c => atomicValue op (if dbl then 64 else 32) x ((c.getD 1 0).toNat % 2 ^ (if dbl then 64 else 32)))
  | .cask dbl _ _ _ k => some (if dbl then 64 else 32, k, fun x c =>
      if x = (c.headD 0).toNat % 2 ^ (if dbl then 64 else 32) then (c.getD 1 0).toNat % 2 ^ (if dbl then 64 else 32) else x)
  | _ => none

/-- Two results given to s60 in order. -/
def give2 (s : State) (x y : Word) : Option State := (s.give 60 x).bind fun s1 => s1.give 60 y

/-- The home agent of an address of HBM (R347, R457). -/
def homeAgent (leaf : Word) (pa : Nat) : Nat := homeOf (leafMs leaf) pa

/-- A slot of a home's launch queue that none of the state's uses. -/
def FreeSlot (s : State) (c : ClqSlot) : Prop := c.slot < 32 ∧ ∀ x ∈ s.clq, x.home = c.home → x.slot ≠ c.slot

/-- The state with slots added to the launch queues. -/
def withClq (m : State) (l : List ClqSlot) : State := { m with clq := m.clq ++ l }

/-- O31. atomk and cask perform at the home, append a status and the old word, and launch their template when the condition
holds; with the home's launch queue or the pool of its die full they append 2 and 0 and change nothing. dcdec takes one from its
counter and launches the node of a live launch when it reaches 0; a counter of 0 aborts with DC_UNDER, and the entry is gone (R276,
R281, R321, R483). Readings of the model it rests on: log 11. -/
def Obligations.ContinuationsLaunchAtTheirHome : Prop :=
  (∀ (s : State) (e : Entry) (leaf base va : Word) (w pa old : Nat) (k : KExt) (f : Nat → List Word → Nat), AtmReady s e →
    s.MemoryWf → continuationRow e.ins = some (w, k, f) → s.Serves e leaf base → leafPfn leaf * 4096 < csramBase →
    va = base + BitVec.ofInt 64 (k.off8.toInt * (w / 8 : Nat)) → va.toNat % (w / 8) = 0 → placeOf leaf va s.cur.cluster = (.hbm, pa) →
    old = Mem.num s.hbm pa (w / 8) →
    (∀ s2 : State, (s.clqRoom (homeAgent leaf pa)).isSome = true → condKeeps k.cond old ((e.caps.headD 0).toNat % 2 ^ w) →
      give2 s 0 (BitVec.ofNat 64 old) = some s2 →
      ∃ m c, exec e.ins s = .next ((counted e (w / 8) (withClq m [c])).left e) ∧ OnlyMemory s2 m ∧
        Mem.num m.hbm pa (w / 8) = f old e.caps ∧ (∀ a, a < pa ∨ pa + w / 8 ≤ a → Mem.read m.hbm a = Mem.read s.hbm a) ∧
        FreeSlot s c ∧ c.home = homeAgent leaf pa ∧ c.ctx = s.cur.pool.ctx ∧ c.tpl = some k.tpl ∧ c.old = BitVec.ofNat 64 old ∧
        c.va = va ∧ c.user = k.user ∧ c.issuerNode = s.cur.pool.node ∧ c.issuerRcb = s.cur.pool.rcb ∧ c.die.toNat = dieOf pa) ∧
    (∀ s2 : State, (s.clqRoom (homeAgent leaf pa)).isSome = true → ¬ condKeeps k.cond old ((e.caps.headD 0).toNat % 2 ^ w) →
      give2 s 1 (BitVec.ofNat 64 old) = some s2 →
      ∃ m, exec e.ins s = .next ((counted e (w / 8) m).left e) ∧ OnlyMemory s2 m ∧
        Mem.num m.hbm pa (w / 8) = f old e.caps ∧ (∀ a, a < pa ∨ pa + w / 8 ≤ a → Mem.read m.hbm a = Mem.read s.hbm a)) ∧
    (∀ s2 : State, s.clqRoom (homeAgent leaf pa) = none → give2 s 2 0 = some s2 → exec e.ins s = .next (s2.left e))) ∧
  (∀ (s : State) (e : Entry) (h : HReg) (off : BitVec 19) (leaf base va : Word) (pa old : Nat), AtmReady s e → s.MemoryWf →
    e.ins = .dcdec h off → s.Serves e leaf base → leafPfn leaf * 4096 < csramBase → va = base + BitVec.ofInt 64 off.toInt →
    va.toNat % 64 = 8 → placeOf leaf va s.cur.cluster = (.hbm, pa) → old = Mem.num s.hbm pa 8 →
    (∀ s2 : State, (s.clqRoom (homeAgent leaf pa)).isSome = true → 1 ≤ old →
      give2 s (if old = 1 then 0 else 1) (BitVec.ofNat 64 old) = some s2 →
      ∃ m l, exec e.ins s = .next ((counted e 8 (withClq m l)).left e) ∧ OnlyMemory s2 m ∧ Mem.num m.hbm pa 8 = old - 1 ∧
        (∀ a, a < pa ∨ pa + 8 ≤ a → Mem.read m.hbm a = Mem.read s.hbm a) ∧ (2 ≤ old ∨ s.nodeAt s.cur.pool.ctx va = none → l = []) ∧
        (∀ q i, old = 1 → s.nodeAt s.cur.pool.ctx va = some (q, i) → ∃ c, l = [c] ∧ FreeSlot s c ∧ c.home = homeAgent leaf pa ∧
          c.tpl = none ∧ c.serial = q.serial ∧ c.user = BitVec.ofNat 32 i ∧ c.ctx = s.cur.pool.ctx)) ∧
    (∀ s2 : State, s.clqRoom (homeAgent leaf pa) = none → give2 s 2 0 = some s2 → exec e.ins s = .next (s2.left e)) ∧
    ((s.clqRoom (homeAgent leaf pa)).isSome = true → old = 0 →
      ∃ bs, bs.head? = some 0x38 ∧
        let u := s.withTask fun t => t.setQueue .atm (t.queue .atm).tail
        exec e.ins s = .next ((u.logTask s.cur bs).1.abortTask s.cur)))

/-- A sound queue header at an address of HBM: CAP, HEAD and TAIL, with its ring inside the page (R282). -/
def QueueAt (s : State) (leaf va : Word) (a cap head tail : Nat) : Prop :=
  Mem.num s.hbm a 4 = cap ∧ Mem.num s.hbm (a + 8) 8 = head ∧ Mem.num s.hbm (a + 16) 8 = tail ∧ (∃ p ≤ 24, cap = 2 ^ p) ∧
  (∀ i, (4 ≤ i ∧ i < 8) ∨ (24 ≤ i ∧ i < 64) → Mem.read s.hbm (a + i) = 0) ∧ tail ≤ head + cap ∧
  va.toNat % pageBytes (leafSz leaf) + 64 + 8 * cap ≤ pageBytes (leafSz leaf)

/-- O32. qpush writes its word in the slot of TAIL and then TAIL + 1, or answers 1 on a full queue; qpop answers the word in the
slot of HEAD and writes HEAD + 1, or 1 and 0 on an empty one; nothing else of memory changes; a header that is not sound raises
Q_OVF (R282, R283). Readings of the model it rests on: log 13; that TAIL - HEAD is taken in whole numbers, so that a TAIL below HEAD is no
fault, and that a CAP above 2^24 is one, are its choices (log 66). -/
def Obligations.QueuesPushAndPop : Prop :=
  (∀ (s s2 : State) (e : Entry) (h : HReg) (b : SReg) (o : AtOrd) (off : BitVec 19) (leaf base va x : Word) (a cap head tail : Nat),
    AtmReady s e → s.MemoryWf → e.ins = .qpush h b o off → e.caps = [x] → s.Serves e leaf base → leafPfn leaf * 4096 < csramBase →
    va = base + BitVec.ofInt 64 off.toInt → va.toNat % 64 = 0 → placeOf leaf va s.cur.cluster = (.hbm, a) →
    QueueAt s leaf va a cap head tail →
    (tail = head + cap → s.give 60 1 = some s2 → exec e.ins s = .next (s2.left e)) ∧
    (tail < head + cap → s.give 60 0 = some s2 →
      ∃ m, exec e.ins s = .next ((counted e 8 m).left e) ∧ OnlyMemory s2 m ∧
        Mem.num m.hbm (a + 64 + 8 * (tail % cap)) 8 = x.toNat ∧ Mem.num m.hbm (a + 16) 8 = (tail + 1) % 2 ^ 64 ∧
        ∀ z, (z < a + 16 ∨ a + 24 ≤ z) → (z < a + 64 + 8 * (tail % cap) ∨ a + 72 + 8 * (tail % cap) ≤ z) →
          Mem.read m.hbm z = Mem.read s.hbm z)) ∧
  (∀ (s s2 : State) (e : Entry) (h : HReg) (o : AtOrd) (off : BitVec 19) (leaf base va : Word) (a cap head tail : Nat),
    AtmReady s e → s.MemoryWf → e.ins = .qpop h o off → s.Serves e leaf base → leafPfn leaf * 4096 < csramBase →
    va = base + BitVec.ofInt 64 off.toInt → va.toNat % 64 = 0 → placeOf leaf va s.cur.cluster = (.hbm, a) →
    QueueAt s leaf va a cap head tail →
    (tail = head → give2 s 1 0 = some s2 → exec e.ins s = .next (s2.left e)) ∧
    (tail ≠ head → give2 s 0 (BitVec.ofNat 64 (Mem.num s.hbm (a + 64 + 8 * (head % cap)) 8)) = some s2 →
      ∃ m, exec e.ins s = .next ((counted e 8 m).left e) ∧ OnlyMemory s2 m ∧ Mem.num m.hbm (a + 8) 8 = (head + 1) % 2 ^ 64 ∧
        ∀ z, z < a + 8 ∨ a + 16 ≤ z → Mem.read m.hbm z = Mem.read s.hbm z)) ∧
  (∀ (s : State) (e : Entry) (h : HReg) (b : SReg) (o : AtOrd) (off : BitVec 19) (leaf base va : Word) (a : Nat), AtmReady s e →
    (e.ins = .qpush h b o off ∨ e.ins = .qpop h o off) → s.Serves e leaf base → leafPfn leaf * 4096 < csramBase →
    va = base + BitVec.ofInt 64 off.toInt → va.toNat % 64 = 0 → placeOf leaf va s.cur.cluster = (.hbm, a) →
    (¬ ∃ cap head tail, QueueAt s leaf va a cap head tail) → exec e.ins s = .next (takeFault { e.info with code := 0x3A, va } s))

/-- The new Y, M and V of a near-bank command from its parameters and the old Y, X, M and V (R286). -/
def nearBank (op : NbOp) (p : Nat → FV) (y x m v : FV) : FV × FV × FV :=
  match op with
  | .axpy => (rounded32 (plus y (times (p 0) x)), m, v)
  | .scale => (rounded32 (times (p 0) y), m, v)
  | .sum => (y, m, v)
  | .adamw =>
    let m' := rounded32 (plus (times (p 1) m) (times (rounded32 (plus .one (p 1).negate)) x))
    let v' := rounded32 (plus (times (p 2) v) (times (times (rounded32 (plus .one (p 2).negate)) x) x))
    let u := rounded32 ((rounded32 (times m' (p 5))).div
      (rounded32 (plus (rounded32 (sqrtV (rounded32 (times v' (p 6)))).1) (p 3)))).1
    (rounded32 (plus y (rounded32 (times (p 0) (rounded32 (plus u (rounded32 (times (p 4) y)))))).negate), m', v')

/-- The place in HBM of element i of an operand on a bank-striped page (R285, R368). -/
def nearElem (leaf va : Word) (i : Nat) : Nat :=
  let l := va.toNat % 2 ^ 21 + 4 * i
  leafPfn leaf * 4096 + l / 2 ^ 8 % 2 ^ 8 * 2 ^ 13 + l / 2 ^ 16 * 2 ^ 8 + l % 2 ^ 8

/-- The bits of element i. -/
def nearBits (s : State) (leaf va : Word) (i : Nat) : Lane := BitVec.ofNat 32 (Mem.num s.hbm (nearElem leaf va i) 4)

/-- The value of element i. -/
def nearWord (s : State) (leaf va : Word) (i : Nat) : FV := f32 (nearBits s leaf va i)

/-- An operand of a near-bank command: its page and its range (R285). -/
def NearOperand (s : State) (leaf va : Word) (n : Nat) (write : Bool) : Prop :=
  va.toNat % 4 = 0 ∧ va.toNat % 2 ^ 21 + 4 * n ≤ 2 ^ 21 ∧ s.Maps s.cur.pool.ctx va leaf ∧ leafSz leaf = 2 ∧ leafCc leaf = true ∧
  leafPin leaf = true ∧ localHbm leaf = true ∧ leafFmt leaf = 0 ∧ leafBg leaf = 0 ∧ leaf.getLsbD 3 = true ∧
  (write = true → leafW leaf = true ∧ leaf.getLsbD 4 = true)

/-- The groups of sixteen of SUM, from the left (R286). -/
def nearSum (x : Nat → FV) (n : Nat) : Nat → FV
  | 0 => .fin true 0 1
  | g + 1 => rounded32 ((List.range (min 16 (n - 16 * g))).foldl (fun acc l => plus acc (x (16 * g + l))) (nearSum x n g))

/-- O33. nbx reads its block from scratchpad; axpy, scale and adamw write each element of their operands with the rounded
results of R286 and leave every other byte of HBM; sum appends its result to s60; the bytes count on tag 0 (R284 to R287).
Readings of the model it rests on: log 16. -/
def Obligations.NearBankCommandsCompute : Prop :=
  ∀ (s : State) (e : Entry) (op : NbOp) (b : SReg) (o : AtOrd) (a : Word) (n : Nat) (ly lx lm lv : Word), AtmReady s e →
    e.ins = .nbx op b o → e.caps = [a] → s.MemoryWf → s.Clear → s.launches = [] → a.toNat % 128 = 0 → 0x10000 ≤ a.toNat →
    a.toNat + 128 ≤ 0x10000 + 4096 * s.cur.pool.spp →
    let t0 := filledFor s a 128
    n = Mem.num t0.cur.scratch (a.toNat + 0x20) 4 → n ≠ 0 →
    let w := fun off => BitVec.ofNat 64 (Mem.num t0.cur.scratch (a.toNat + off) 8)
    let p := fun i => f32 (BitVec.ofNat 32 (Mem.num t0.cur.scratch (a.toNat + 0x28 + 4 * i) 4))
    let used := match op with | .axpy => 1 | .scale => 1 | .sum => 0 | .adamw => 7
    let operands : List (Word × Word × Bool) := match op with
      | .axpy => [(w 0, ly, true), (w 8, lx, false)]
      | .scale => [(w 0, ly, true)]
      | .sum => [(w 0, ly, false)]
      | .adamw => [(w 0, ly, true), (w 8, lx, false), (w 16, lm, true), (w 24, lv, true)]
    Mem.num t0.cur.scratch (a.toNat + 0x24) 4 = 0 → (∀ i, 0x48 ≤ i → i < 0x80 → Mem.read t0.cur.scratch (a.toNat + i) = 0) →
    (∀ i, used ≤ i → i < 8 → Mem.num t0.cur.scratch (a.toNat + 0x28 + 4 * i) 4 = 0) →
    (op ≠ .adamw → w 16 = 0 ∧ w 24 = 0) → (op = .scale ∨ op = .sum → w 8 = 0) →
    (∀ x ∈ operands, NearOperand s x.2.1 x.1 n x.2.2 ∧ dieOf (leafPfn x.2.1 * 4096) = dieOf (leafPfn ly * 4096)) →
    (op = .sum → leafW ly = true) →
    (∀ x ∈ operands, ∀ y ∈ operands, x ≠ y → (x.1 = y.1 ∧ (x.2.2 = false ∨ y.2.2 = false)) ∨
      ((x.1.toNat + 4 * n ≤ y.1.toNat ∨ y.1.toNat + 4 * n ≤ x.1.toNat) ∧ ∀ i < n, ∀ j < n,
        nearElem x.2.1 x.1 i + 4 ≤ nearElem y.2.1 y.1 j ∨ nearElem y.2.1 y.1 j + 4 ≤ nearElem x.2.1 x.1 i)) →
    (op ≠ .sum → ∃ m, exec e.ins s =
          .next ((m.countBytes s.cur.pool.die.toNat 0 (s.fnOf s.cur.pool.ctx) (4 * n * operands.length)).left e) ∧ OnlyMemoryAndWalks t0 m ∧
        (∀ i < n, let r := nearBank op p (nearWord s ly (w 0) i) (nearWord s lx (w 8) i) (nearWord s lm (w 16) i) (nearWord s lv (w 24) i)
          nearBits m ly (w 0) i = (toF32 r.1).1 ∧ (op = .adamw → nearBits m lm (w 16) i = (toF32 r.2.1).1 ∧ nearBits m lv (w 24) i = (toF32 r.2.2).1)) ∧
        (∀ z, (∀ x ∈ operands, x.2.2 = true → ∀ i < n, z < nearElem x.2.1 x.1 i ∨ nearElem x.2.1 x.1 i + 4 ≤ z) →
          Mem.read m.hbm z = Mem.read s.hbm z)) ∧
    (op = .sum → ∀ u, t0.give 60 (BitVec.ofNat 64 (toF32 (nearSum (nearWord s ly (w 0)) n ((n + 15) / 16))).1.toNat) = some u →
        ∃ m, exec e.ins s =
          .next ((m.countBytes s.cur.pool.die.toNat 0 (s.fnOf s.cur.pool.ctx) (4 * n)).left e) ∧ OnlyMemoryAndWalks u m ∧
          ∀ z, Mem.read m.hbm z = Mem.read s.hbm z)

/-! ## The copy queue (R288 to R300, R374) -/

/-- The head entry of CPY performs. -/
def CpyReady (s : State) (e : Entry) : Prop := s.act = some e ∧ s.air = none ∧ (s.cur.queue .cpy).head? = some e ∧ s.MemoryWf

/-- An aligned run of the task's scratchpad. -/
def InScratch (s : State) (a : Word) (n align : Nat) : Prop :=
  a.toNat % align = 0 ∧ 0x10000 ≤ a.toNat ∧ a.toNat + n ≤ 0x10000 + 4096 * s.cur.pool.spp

/-- The acting entry of CPY has entered the virtual copy queue with its command. -/
def enqueued (s : State) (e : Entry) (bytes : List Byte) : State :=
  s.withTask fun t => { t.setQueue .cpy (t.queue .cpy).tail with
    cpTail := e.num + 1, vcq := t.vcq ++ [{ num := e.num, ord := e.ord, pfd := e.pfd, bytes }] }

/-- The slot of a command's number is free: no command sixteen numbers before it, or more, is still to complete (R374). -/
def SlotFree (s : State) (num : BitVec 32) : Prop := ∀ k ∈ s.cur.vcq, k.complete = false → (num - k.num).toNat < 16

/-- Each command of the virtual copy queue has a number of its own. -/
def CopiesApart (s : State) : Prop := (s.cur.vcq.map fun k => k.num).Nodup

/-- The state with a command changed. -/
def withCopy (s : State) (num : BitVec 32) (f : CopySlot → CopySlot) : State :=
  s.withTask fun t => { t with vcq := t.vcq.map fun k => if k.num = num then f k else k }

/-- The command that an engine of the acting task's cluster takes next, not yet looked at; it is the task's turn (R289, R374). -/
def NextForEngine (s : State) (engine : Bool) (k : CopySlot) : Prop :=
  s.engineFree engine = true ∧ s.copyTurn = true ∧ CopiesApart s ∧ s.Clear ∧ s.cur.flow.due = none ∧
  (s.cur.vcq.find? fun x => x.engine.isNone && !x.complete) = some k ∧ k.paused = false ∧ k.checked = false ∧ k.met = false

/-- The semaphores that a command waits on are there for it (R104, R298). -/
def WaitsMet (s : State) (c : CopyCmd) : Prop :=
  ∀ i : SemReg, c.waitm.getLsbD i.toNat = true →
    s.cur.regs.sm.get i.toFin ≠ 0 ∧ s.cur.seqTakes i = false ∧ s.cur.tilTakes i = false

/-- A command is handed out: it runs on its engine, its semaphores are taken, and the generator has taken its steps. -/
def HandedOut (s t : State) (core : Nat) (engine : Bool) (k : CopySlot) : Prop :=
  let c := copyCmd k.bytes
  let steps := if c.type = 3 ∧ c.rm % 4 = 2 then c.n.foldl (· * ·) 1 else 0
  ∃ x, x ∈ t.cur.vcq ∧ x.num = k.num ∧ x.bytes = k.bytes ∧ x.engine = some engine ∧
    x.checked = true ∧ x.complete = k.complete ∧ x.units = k.units ∧
    t.served.lookup s.cur.cluster = some (core % 4) ∧ x.rng = s.cur.sys.rng ∧ t.cur.sys.rng = genStep^[steps] s.cur.sys.rng ∧
    (∀ i : SemReg, t.cur.regs.sm.get i.toFin =
      if c.waitm.getLsbD i.toNat then s.cur.regs.sm.get i.toFin - 1 else s.cur.regs.sm.get i.toFin)

/-- The address of byte i of the row (i1, i2, i3) of a side (R291). -/
def copyVa (base : Word) (st : List Word) (i1 i2 i3 i : Nat) : Word :=
  base + BitVec.ofNat 64 i1 * st.getD 0 0 + BitVec.ofNat 64 i2 * st.getD 1 0 + BitVec.ofNat 64 i3 * st.getD 2 0 + BitVec.ofNat 64 i

/-- The same address as a whole number, as spans are taken (R290). -/
def copyInt (base : Word) (st : List Word) (i1 i2 i3 i : Nat) : Int :=
  base.toNat + i1 * (st.getD 0 0).toInt + i2 * (st.getD 1 0).toInt + i3 * (st.getD 2 0).toInt + i

/-- The indices of a command. -/
def InExtents (c : CopyCmd) (i1 i2 i3 i : Nat) : Prop := i < c.n.getD 0 1 ∧ i1 < c.n.getD 1 1 ∧ i2 < c.n.getD 2 1 ∧ i3 < c.n.getD 3 1

/-- A byte of this module's HBM at an address, its leaf accessed, and writable and dirty where it is written. -/
def ByteOf (s : State) (L : Word → Word) (va : Word) (write : Bool) (a : Nat) : Prop :=
  s.Maps s.cur.pool.ctx va (L va) ∧ localHbm (L va) = true ∧ leafDlt (L va) = false ∧ (L va).getLsbD 3 = true ∧
  (write = true → leafW (L va) = true ∧ (L va).getLsbD 4 = true) ∧ placeOf (L va) va s.cur.cluster = (.hbm, a)

/-- The fields of a COPY or a FILL that pass (R289 Table 8, R290). -/
def MoveFieldsPass (c : CopyCmd) : Prop :=
  (c.type = 1 ∨ c.type = 4) ∧ c.cfl < 2 ∧ c.rm = 0 ∧ (∀ x ∈ c.n, 1 ≤ x) ∧ c.p1 = 0 ∧ (c.type = 1 → c.p0 = 0) ∧ (c.type = 4 → c.src = 0) ∧
  (c.cfl % 2 = 1 → c.cwval ≠ c.errval)

/-- A field of a command breaks a rule that needs no page (R289 Table 8, R290, R294). -/
def FieldsFail (c : CopyCmd) : Prop :=
  c.type = 0 ∨ 8 < c.type ∨ 2 ≤ c.cfl ∨ 3 ≤ c.rm ∨ (c.rm ≠ 0 ∧ c.type ≠ 3) ∨ (∃ x ∈ c.n, x = 0) ∨
  ((c.type = 2 ∨ c.type = 5) ∧ (c.n.getD 2 1 ≠ 1 ∨ c.n.getD 3 1 ≠ 1 ∨ ∃ i, 1 ≤ i ∧ i < 3 ∧ (c.s.getD i 0 ≠ 0 ∨ c.d.getD i 0 ≠ 0))) ∨
  (6 ≤ c.type ∧ (c.n.getD 2 1 ≠ 1 ∨ c.n.getD 3 1 ≠ 1 ∨ ∃ i < 3, c.s.getD i 0 ≠ 0 ∨ c.d.getD i 0 ≠ 0)) ∨
  ((c.type ≤ 3 ∨ c.type = 8) ∧ c.p0 ≠ 0) ∨ (c.type ≠ 5 ∧ c.p1 ≠ 0) ∨ (c.type = 6 ∧ 2 ≤ c.p0.toNat) ∨ (c.type = 4 ∧ c.src ≠ 0) ∨
  (c.cfl % 2 = 1 ∧ c.cwval = c.errval) ∨ (6 ≤ c.type ∧ c.n.getD 0 1 % 4096 ≠ 0) ∨
  (c.type = 6 ∧ (c.src.toNat % 4096 ≠ 0 ∨ c.dst.toNat % 4096 ≠ 0))

/-- Which commands pass, and which do not: a COPY or FILL with good fields, spans apart, a completion word in the task's pages and every
byte in a page that may be read or written is handed out; a field that breaks a rule raises ILLEGAL_FIELD, and so do the spans of a COPY
that meet; a bad completion word raises ALIGN or HBOUND (R289, R290, R298). -/
def ChecksPassOrRaise : Prop :=
  ∀ (s : State) (core : Nat) (engine : Bool) (k : CopySlot) (c : CopyCmd) (Ls Ld : Word → Word), s.act = none → s.air = none →
    s.cur.status = .running core → NextForEngine s engine k → s.MemoryWf → StreamsAreCurrent s → s.launches = [] → c = copyCmd k.bytes →
    let f : FaultInfo := { code := 3, stream := .cpy, seq := k.num, tag := c.btag,
                           queue := some (192 + 2 * s.cur.cluster + (if engine then 1 else 0), 0, k.pfd) }
    let spansApart :=
      (∀ i1 i2 i3 i j1 j2 j3 j, InExtents c i1 i2 i3 i → InExtents c j1 j2 j3 j → copyInt c.src c.s i1 i2 i3 i < copyInt c.dst c.d j1 j2 j3 j) ∨
      (∀ i1 i2 i3 i j1 j2 j3 j, InExtents c i1 i2 i3 i → InExtents c j1 j2 j3 j → copyInt c.dst c.d j1 j2 j3 j < copyInt c.src c.s i1 i2 i3 i)
    (FieldsFail c → exec (.copyHandout engine) s = .next (takeFault f s)) ∧
    (MoveFieldsPass c → c.type = 1 → ¬ spansApart → exec (.copyHandout engine) s = .next (takeFault f s)) ∧
    (MoveFieldsPass c → (c.type = 1 → spansApart) → c.cfl = 1 →
      (c.cwsp.toNat % 8 ≠ 0 → exec (.copyHandout engine) s = .next (takeFault { f with code := 0x18, va := c.cwsp } s)) ∧
      (c.cwsp.toNat % 8 = 0 → (c.cwsp.toNat < 0x10000 ∨ 0x10000 + 4096 * s.cur.pool.spp < c.cwsp.toNat + 8) →
        exec (.copyHandout engine) s = .next (takeFault { f with code := 0x14, va := c.cwsp } s))) ∧
    (MoveFieldsPass c → (c.type = 1 → spansApart) → (c.cfl = 1 → InScratch s c.cwsp 8 8) →
      (∀ i1 i2 i3 i, InExtents c i1 i2 i3 i → ∃ a, ByteOf s Ld (copyVa c.dst c.d i1 i2 i3 i) true a) →
      (c.type = 1 → ∀ i1 i2 i3 i, InExtents c i1 i2 i3 i → ∃ a, ByteOf s Ls (copyVa c.src c.s i1 i2 i3 i) false a) → WaitsMet s c →
      ∃ t, exec (.copyHandout engine) s = .next t ∧ HandedOut s t core engine k ∧ ∀ z, Mem.read t.hbm z = Mem.read s.hbm z)

/-- O34. cpy takes its 128 bytes and cpyi a COPY in one dimension into the virtual copy queue; cqstat writes its status word once every
earlier command was handed out; a command whose checks pass takes its semaphores and steps and goes to a free engine, a paused one goes
on; a COPY or FILL with good fields, ranges and pages passes, and bad fields, meeting spans and a bad completion word raise their faults
(R288 to R290, R293, R298, R300, R374). Readings of the model it rests on: log 27. -/
def Obligations.CopiesAreQueuedAndHandedOut : Prop :=
  (∀ (s : State) (e : Entry) (r : SReg) (a : Word), CpyReady s e → e.ins = .cpy r → e.caps = [a] → InScratch s a 128 128 →
    SlotFree s e.num → let u := filledFor s a 128
    exec e.ins s = .next (enqueued u e (Mem.readN u.cur.scratch a.toNat 128))) ∧
  (∀ (s : State) (e : Entry) (rd ra rb : SReg) (d a b : Word) (tag : BitVec 8) (sig : Option SemReg), CpyReady s e →
    e.ins = .cpyi rd ra rb tag sig → e.caps = [d, a, b] → SlotFree s e.num →
    ∃ bs, exec e.ins s = .next (enqueued s e bs) ∧ bs.length = 128 ∧ (copyCmd bs).type = 1 ∧ (copyCmd bs).cfl = 0 ∧
      (copyCmd bs).btag = tag ∧ (copyCmd bs).rm = 0 ∧ (copyCmd bs).waitm = 0 ∧
      (copyCmd bs).sigm = (match sig with | some m => BitVec.ofNat 32 (2 ^ m.toNat) | none => 0) ∧ (copyCmd bs).src = a ∧
      (copyCmd bs).dst = d ∧ (b.toNat < 2 ^ 32 → (copyCmd bs).n = [b.toNat, 1, 1, 1]) ∧ (copyCmd bs).s = [0, 0, 0] ∧ (copyCmd bs).d = [0, 0, 0]) ∧
  (∀ (s : State) (e : Entry) (r : SReg) (a : Word), CpyReady s e → e.ins = .cqstat r → e.caps = [a] → InScratch s a 8 8 →
    (∀ k ∈ s.cur.vcq, k.engine ≠ none ∨ k.paused = true ∨ k.complete = true) →
    let running := s.cur.vcq.filter fun k => (k.engine.isSome || k.paused) && !k.complete
    ∃ t, exec e.ins s = .next t ∧ t.cur.queue .cpy = (s.cur.queue .cpy).tail ∧ t.cur.vcq = s.cur.vcq ∧ t.cur.regs = s.cur.regs ∧
      Mem.num t.cur.scratch (a.toNat + 4) 4 = (((s.cur.vcq.find? fun k => !k.complete).map fun k => k.num).getD e.num).toNat ∧
      Mem.num t.cur.scratch (a.toNat + 2) 2 = running.length % 2 ^ 8 ∧
      Mem.num t.cur.scratch a.toNat 2 = ((running.head?.map fun k => k.units).getD 0) % 2 ^ 16 ∧
      ∀ z, z < a.toNat ∨ a.toNat + 8 ≤ z → Mem.read t.cur.scratch z = Mem.read (filledFor s a 8).cur.scratch z) ∧
  (∀ (s : State) (core : Nat) (engine : Bool) (k : CopySlot), s.cur.status = .running core → s.engineFree engine = true →
    s.copyTurn = true → CopiesApart s → s.cur.flow.due = none → (s.cur.vcq.find? fun x => x.engine.isNone && !x.complete) = some k → k.paused = true →
    exec (.copyHandout engine) s =
      .next (withCopy s k.num fun x => { x with engine := some engine, run := none, paused := false }).serveCore) ∧
  (∀ (s s1 : State) (core : Nat) (engine : Bool) (k : CopySlot) (runs : List (Nat × Nat)), s.cur.status = .running core →
    NextForEngine s engine k → (copyCheck k engine).run.run s = (.ok runs, s1) → OnlyMemoryAndWalks s s1 → WaitsMet s (copyCmd k.bytes) →
    ∃ t, exec (.copyHandout engine) s = .next t ∧ HandedOut s t core engine k ∧ ∀ z, Mem.read t.hbm z = Mem.read s1.hbm z) ∧
  ChecksPassOrRaise

/-- What a completed command leaves: its completion word, its signals, and its slot complete or retired (R298, R374). -/
def CopyEnded (s t : State) (k : CopySlot) : Prop :=
  let c := copyCmd k.bytes
  (∀ x ∈ t.cur.vcq, x.num = k.num → x.complete = true ∧ x.engine = none) ∧
  (c.cfl % 2 = 1 → Mem.num t.cur.scratch c.cwsp.toNat 8 = (if k.err then c.errval else c.cwval).toNat) ∧
  (c.cfl % 2 = 0 → t.cur.scratch = s.cur.scratch) ∧
  (∀ z, z < c.cwsp.toNat ∨ c.cwsp.toNat + 8 ≤ z → Mem.read t.cur.scratch z = Mem.read s.cur.scratch z) ∧
  (∀ i : SemReg, t.cur.regs.sm.get i.toFin = if c.sigm.getLsbD i.toNat
    then BitVec.ofNat 32 (min ((s.cur.regs.sm.get i.toFin).toNat + 1) 0xFFFFFFFF) else s.cur.regs.sm.get i.toFin)

/-- The payload of a command has not been computed ahead of its landing, and no stop of the task is coming (R300, R389). -/
def NothingLanded (s : State) (k : CopySlot) : Prop := k.landing = none ∧ k.moved = false ∧ s.cur.holding = false

/-- An engine runs a command of the acting task, none of whose payload has moved. -/
def EngineRuns (s : State) (engine : Bool) (k : CopySlot) : Prop :=
  s.act = none ∧ s.air = none ∧ (∃ core, s.cur.status = .running core) ∧ CopiesApart s ∧ s.MemoryWf ∧ StreamsAreCurrent s ∧ s.Clear ∧
  s.launches = [] ∧ s.cur.flow.due = none ∧ (s.cur.vcq.find? fun y => y.engine == some engine && !y.complete) = some k ∧
  NothingLanded s k ∧ k.units = 0 ∧ k.err = false

/-- COPY_COMPLETE writes the bits of B, leaves every other bit of HBM, and ends the command, with ERRVAL as its word where it met an error;
the memory holds v after it. -/
def PayloadIs (s : State) (engine : Bool) (k : CopySlot) (err : Bool) (B : Nat → Nat → Prop) (v : State → Prop) : Prop :=
  ∃ t, exec (.copyComplete engine) s = .next t ∧ CopyEnded s t { k with err } ∧ v t ∧
    ∀ a b, ¬ B a b → (Mem.read t.hbm a).getLsbD b = (Mem.read s.hbm a).getLsbD b

/-- GATHER-ROWS: row r of the destination receives the source row that the word at P0 + 4r names, and a row whose index is P1 or more, or
0xFFFFFFFF, stays (R292). -/
def GatheredRowsAreWritten : Prop :=
  ∀ (s : State) (engine : Bool) (k : CopySlot) (c : CopyCmd) (Li Ls Ld : Word → Word) (at_ : Nat → Nat) (idx : Nat → Nat) (src dst : Nat → Nat → Nat),
    EngineRuns s engine k → c = copyCmd k.bytes → c.type = 5 → c.p0.toNat % 4 = 0 →
    (∀ r < c.n.getD 1 1, ∀ j < 4, ByteOf s Li (c.p0 + BitVec.ofNat 64 (4 * r + j)) false (at_ r + j)) →
    (∀ r, idx r = Mem.num s.hbm (at_ r) 4) →
    let taken := fun r i => r < c.n.getD 1 1 ∧ i < c.n.getD 0 1 ∧ idx r < c.p1.toNat ∧ idx r ≠ 0xFFFFFFFF
    (∀ r i, taken r i → ByteOf s Ls (copyVa c.src c.s (idx r) 0 0 i) false (src r i) ∧ ByteOf s Ld (copyVa c.dst c.d r 0 0 i) true (dst r i)) →
    (∀ r i r' i', taken r i → taken r' i' → (dst r i = dst r' i' → r = r' ∧ i = i') ∧ src r i ≠ dst r' i') →
    (∀ r j r' i', r < c.n.getD 1 1 → j < 4 → taken r' i' → at_ r + j ≠ dst r' i') →
    TranslationApart s (fun z => ∃ r i, taken r i ∧ z = dst r i) →
    PayloadIs s engine k false (fun a _ => ∃ r i, taken r i ∧ a = dst r i) fun t =>
      ∀ r i, taken r i → Mem.read t.hbm (dst r i) = Mem.read s.hbm (src r i)

/-- A byte of a bank-striped page, at the address of its logical byte (R289 Table 8, R294, R368). -/
def StripedByte (s : State) (L : Word → Word) (va : Word) (write : Bool) (a : Nat) : Prop :=
  let l := va.toNat % 2 ^ 21
  s.Maps s.cur.pool.ctx va (L va) ∧ localHbm (L va) = true ∧ leafDlt (L va) = false ∧ leafSz (L va) = 2 ∧ leafCc (L va) = true ∧
  leafPin (L va) = true ∧ (L va).getLsbD 3 = true ∧ (write = true → leafW (L va) = true ∧ (L va).getLsbD 4 = true) ∧
  a = leafPfn (L va) * 4096 + l / 2 ^ 8 % 2 ^ 8 * 2 ^ 13 + l / 2 ^ 16 * 2 ^ 8 + l % 2 ^ 8

/-- RELAYOUT-BANK: each byte of the linear range and its byte of the striped layout, in the direction of P0 (R294, R368). -/
def BankLayoutIsMoved : Prop :=
  ∀ (s : State) (engine : Bool) (k : CopySlot) (c : CopyCmd) (Ls Ld : Word → Word) (src dst : Nat → Nat), EngineRuns s engine k →
    c = copyCmd k.bytes → c.type = 6 → c.p0.toNat < 2 → c.n.getD 0 1 % 4096 = 0 → c.src.toNat % 4096 = 0 → c.dst.toNat % 4096 = 0 →
    let n := c.n.getD 0 1
    (∀ i < n, let sv := c.src + BitVec.ofNat 64 i
      let dv := c.dst + BitVec.ofNat 64 i
      if c.p0 = 0 then ByteOf s Ls sv false (src i) ∧ StripedByte s Ld dv true (dst i)
      else StripedByte s Ls sv false (src i) ∧ ByteOf s Ld dv true (dst i)) →
    (∀ i < n, ∀ j < n, (dst i = dst j → i = j) ∧ src i ≠ dst j) → TranslationApart s (fun z => ∃ i < n, z = dst i) →
    PayloadIs s engine k false (fun a _ => ∃ i < n, a = dst i) fun t => ∀ i < n, Mem.read t.hbm (dst i) = Mem.read s.hbm (src i)

/-- The address of the bytes that hold element i of a row of elements of w bits. -/
def elemVa (w : Nat) (row : Word) (i : Nat) : Word := row + BitVec.ofNat 64 (if w = 6 then i / 4 * 3 else w * i / 8)

/-- Element i of a row lies, aligned and whole, in a page of this module's HBM with a format and a block geometry, its leaf accessed, and
writable and dirty where it is written. -/
def ElemOf (s : State) (L : Word → Word) (f : Fmt) (bg : Nat) (row : Word) (i : Nat) (write : Bool) : Prop :=
  let va := elemVa f.bits row i
  s.Maps s.cur.pool.ctx va (L va) ∧ localHbm (L va) = true ∧ leafDlt (L va) = false ∧ leafBg (L va) = bg ∧
  (bg ≠ 0 → 4 ≤ (leafFmt (L va)).toNat ∧ (leafFmt (L va)).toNat ≤ 12) ∧
  Fmt.ofCode (leafFmt (L va)) = some f ∧ (L va).getLsbD 3 = true ∧ (write = true → leafW (L va) = true ∧ (L va).getLsbD 4 = true) ∧
  va.toNat % alignUnit f.bits = 0 ∧ va.toNat % pageBytes (leafSz (L va)) + holder f.bits ≤ pageBytes (leafSz (L va))

/-- Bit x of element i of a row is bit b of the byte at a of HBM. -/
def ElemBit (s : State) (L : Word → Word) (w : Nat) (row : Word) (i x a b : Nat) : Prop :=
  x < w ∧ placeOf (L (elemVa w row i)) (row + BitVec.ofNat 64 ((w * i + x) / 8)) s.cur.cluster = (.hbm, a) ∧ b = (w * i + x) % 8

/-- Element i of a row holds a number. -/
def ElemHolds (s : State) (L : Word → Word) (w : Nat) (row : Word) (i x : Nat) : Prop := HoldsBits s (L (elemVa w row i)) row (w * i) w x

/-- The address of the scale of a tile of 16,384 elements, from the address of its first element (R130, R131). -/
def tileScale (s : State) (w : Nat) (va : Word) : Word :=
  (s.taskEff s.cur).scOff + BitVec.ofNat 64 ((match w with | 4 => 2 * va.toNat | 6 => 4 * va.toNat / 3 | _ => va.toNat) / 16384 * 4)

/-- TRANSPOSE: element (j, i) of the destination receives the bits of element (i, j) of the source, and with BG 3 the scale of each tile
goes to that of its transposed tile (R145, R146, R297). -/
def TransposesMoveElements : Prop :=
  ∀ (s : State) (engine : Bool) (k : CopySlot) (c : CopyCmd) (f : Fmt) (bg : Nat) (Ls Ld Lt Lu : Word → Word) (v : Nat → Nat → Nat)
      (from_ to_ : Nat → Nat → Nat → Nat), EngineRuns s engine k → c = copyCmd k.bytes → c.type = 2 →
    let cols := c.n.getD 0 1
    let rows := c.n.getD 1 1
    let w := f.bits
    let srcRow := fun i => copyVa c.src c.s i 0 0 0
    let dstRow := fun j => copyVa c.dst c.d j 0 0 0
    let moved := fun i j => i < rows ∧ j < cols
    let tile := fun i j r => bg = 3 ∧ i < rows / 128 ∧ j < cols / 128 ∧ r < 4
    1 ≤ rows → 1 ≤ cols → (bg = 0 ∨ bg = 3) →
    (∀ i j, moved i j → ElemOf s Ls f bg (srcRow i) j false ∧ ElemHolds s Ls w (srcRow i) j (v i j) ∧ ElemOf s Ld f bg (dstRow j) i true) →
    (∀ i j r, tile i j r →
      ByteOf s Lt (tileScale s w (elemVa w (srcRow (128 * i)) (128 * j)) + BitVec.ofNat 64 r) false (from_ i j r) ∧
      ByteOf s Lu (tileScale s w (elemVa w (dstRow (128 * j)) (128 * i)) + BitVec.ofNat 64 r) true (to_ i j r)) →
    let B := fun a b => (∃ i j x, moved i j ∧ ElemBit s Ld w (dstRow j) i x a b) ∨ ∃ i j r, tile i j r ∧ a = to_ i j r ∧ b < 8
    (∀ i j x i' j' x' a b, moved i j → moved i' j' → ElemBit s Ld w (dstRow j) i x a b → ElemBit s Ld w (dstRow j') i' x' a b →
      i = i' ∧ j = j' ∧ x = x') →
    (∀ i j r i' j' r', tile i j r → tile i' j' r' → to_ i j r = to_ i' j' r' → i = i' ∧ j = j' ∧ r = r') →
    (∀ i j x a b, moved i j → ElemBit s Ls w (srcRow i) j x a b → ¬ B a b) → (∀ i j r b, tile i j r → ¬ B (from_ i j r) b) →
    (∀ i j r i' j' x b, tile i j r → moved i' j' → ¬ ElemBit s Ld w (dstRow j') i' x (to_ i j r) b) →
    TranslationApart s (fun a => ∃ b, B a b) →
    PayloadIs s engine k false B fun t =>
      (∀ i j, moved i j → ElemHolds t Ld w (dstRow j) i (v i j)) ∧
      ∀ i j r, tile i j r → Mem.read t.hbm (to_ i j r) = Mem.read s.hbm (from_ i j r)

/-- CONVERT between unscaled pages: each element receives enc(dec(x, FS), FD, RM), with the number of its step of the command's block
under rs, and FPST takes the flags (R142, R293). -/
def ConversionsEncodeElements : Prop :=
  ∀ (s : State) (engine : Bool) (k : CopySlot) (c : CopyCmd) (fs fd : Fmt) (mode : Rm) (Ls Ld : Word → Word) (v : Nat → Nat → Nat → Nat → Nat),
    EngineRuns s engine k → c = copyCmd k.bytes → c.type = 3 → (∀ x ∈ c.n, 1 ≤ x) →
    ((c.rm = 0 ∧ mode = .rne) ∨ (c.rm = 1 ∧ mode = .rz) ∨ (c.rm = 2 ∧ mode = .rs)) →
    let srcRow := fun i1 i2 i3 => copyVa c.src c.s i1 i2 i3 0
    let dstRow := fun i1 i2 i3 => copyVa c.dst c.d i1 i2 i3 0
    (∀ i1 i2 i3 i, InExtents c i1 i2 i3 i → ElemOf s Ls fs 0 (srcRow i1 i2 i3) i false ∧
      ElemHolds s Ls fs.bits (srcRow i1 i2 i3) i (v i1 i2 i3 i) ∧ ElemOf s Ld fd 0 (dstRow i1 i2 i3) i true) →
    let B := fun a b => ∃ i1 i2 i3 i x, InExtents c i1 i2 i3 i ∧ ElemBit s Ld fd.bits (dstRow i1 i2 i3) i x a b
    (∀ i1 i2 i3 i x j1 j2 j3 j y a b, InExtents c i1 i2 i3 i → InExtents c j1 j2 j3 j →
      ElemBit s Ld fd.bits (dstRow i1 i2 i3) i x a b → ElemBit s Ld fd.bits (dstRow j1 j2 j3) j y a b →
      i1 = j1 ∧ i2 = j2 ∧ i3 = j3 ∧ i = j ∧ x = y) →
    (∀ i1 i2 i3 i x a b, InExtents c i1 i2 i3 i → ElemBit s Ls fs.bits (srcRow i1 i2 i3) i x a b → ¬ B a b) →
    TranslationApart s (fun a => ∃ b, B a b) →
    let step := fun i1 i2 i3 i => ((i3 * c.n.getD 2 1 + i2) * c.n.getD 1 1 + i1) * c.n.getD 0 1 + i
    let r := fun i1 i2 i3 i => fd.enc mode (if mode = .rs then genNumber k.rng (step i1 i2 i3 i) else 0) (fs.dec (v i1 i2 i3 i))
    PayloadIs s engine k false B fun t =>
      (∀ i1 i2 i3 i, InExtents c i1 i2 i3 i → ElemHolds t Ld fd.bits (dstRow i1 i2 i3) i (r i1 i2 i3 i).1) ∧
      ∀ b, t.cur.sys.fpst.getLsbD b = true ↔ s.cur.sys.fpst.getLsbD b = true ∨ k.flags.getLsbD b = true ∨
        ∃ i1 i2 i3 i, InExtents c i1 i2 i3 i ∧ (r i1 i2 i3 i).2.getLsbD b = true

/-- The nonzero groups of eight of a block of 4,096 bytes (R295). -/
def blockGroups (d : Nat → Byte) : List Nat := (List.range 512).filter fun g => (List.range 8).any fun j => d (8 * g + j) != 0

/-- The stored size of a block (R295). -/
def blockSize (groups : Nat) : Nat := 128 + 64 * ((groups + 7) / 8)

/-- Byte j of a stored block: the header with G and the CRC, the table, the nonzero groups in ascending order and zeros (R295). -/
def blockByte (d : Nat → Byte) (j : Nat) : Byte :=
  if j < 2 then BitVec.ofNat 8 ((blockGroups d).length / 256 ^ j)
  else if 4 ≤ j ∧ j < 8 then BitVec.ofNat 8 (crc32c ((List.range 4096).map d) / 256 ^ (j - 4))
  else if j < 64 then 0
  else if j < 128 then BitVec.ofNat 8 (((List.range 8).map fun b => if 8 * (j - 64) + b ∈ blockGroups d then 2 ^ b else 0).sum)
  else match (blockGroups d)[(j - 128) / 8]? with
    | some g => d (8 * g + (j - 128) % 8)
    | none => 0

/-- COMPRESS outside delta pages: block b is stored at the next 64-byte boundary after the one before, from DST on, and its size at P0 + 4b
(R295). -/
def BlocksAreCompressed : Prop :=
  ∀ (s : State) (engine : Bool) (k : CopySlot) (c : CopyCmd) (Ls Ld Lt : Word → Word) (src dst size : Nat → Nat → Nat) (pos : Nat → Nat),
    EngineRuns s engine k → c = copyCmd k.bytes → c.type = 7 → k.pos = c.dst → 1 ≤ c.n.getD 0 1 → c.n.getD 0 1 % 4096 = 0 →
    let n := c.n.getD 0 1 / 4096
    let d := fun b i => Mem.read s.hbm (src b i)
    let len := fun b => blockSize (blockGroups (d b)).length
    (∀ b < n, ∀ i < 4096, ByteOf s Ls (c.src + BitVec.ofNat 64 (4096 * b + i)) false (src b i)) →
    pos 0 = c.dst.toNat → (∀ b, pos (b + 1) = (pos b + len b + 63) / 64 * 64) →
    (∀ b < n, ∀ j < len b, ByteOf s Ld (BitVec.ofNat 64 (pos b + j)) true (dst b j)) →
    (∀ b < n, ∀ j < 4, ByteOf s Lt (c.p0 + BitVec.ofNat 64 (4 * b + j)) true (size b j)) →
    let B := fun a => (∃ b < n, ∃ j < len b, a = dst b j) ∨ ∃ b < n, ∃ j < 4, a = size b j
    (∀ b < n, ∀ b' < n, (∀ j < len b, ∀ j' < len b', dst b j = dst b' j' → b = b' ∧ j = j') ∧
      (∀ j < 4, ∀ j' < 4, size b j = size b' j' → b = b' ∧ j = j') ∧ ∀ j < len b, ∀ j' < 4, dst b j ≠ size b' j') →
    (∀ b < n, ∀ i < 4096, ¬ B (src b i)) → TranslationApart s B →
    PayloadIs s engine k false (fun a _ => B a) fun t =>
      (∀ b < n, ∀ j < len b, Mem.read t.hbm (dst b j) = blockByte (d b) j) ∧
      ∀ b < n, ∀ j < 4, Mem.read t.hbm (size b j) = BitVec.ofNat 8 (len b / 256 ^ j)

/-- COMPRESS to delta pages: the frame of each page receives the stored block of the XOR of its source with its base page (R295, R370). -/
def DeltasAreCompressed : Prop :=
  ∀ (s : State) (engine : Bool) (k : CopySlot) (c : CopyCmd) (Ls Lb : Word → Word) (L : Nat → Word) (src base : Nat → Nat → Nat),
    EngineRuns s engine k → c = copyCmd k.bytes → c.type = 7 → c.p0 = 0 → 1 ≤ c.n.getD 0 1 → c.n.getD 0 1 % 4096 = 0 → c.dst.toNat % 4096 = 0 →
    let n := c.n.getD 0 1 / 4096
    let va := fun b => c.dst + BitVec.ofNat 64 (4096 * b)
    let d := fun b i => Mem.read s.hbm (src b i) ^^^ Mem.read s.hbm (base b i)
    let len := fun b => blockSize (blockGroups (d b)).length
    (∀ b < n, s.Maps s.cur.pool.ctx (va b) (L b) ∧ localHbm (L b) = true ∧ leafDlt (L b) = true ∧ leafW (L b) = true ∧
      (L b).getLsbD 3 = true ∧ (L b).getLsbD 4 = true) →
    (∀ b < n, ∀ i < 4096, ByteOf s Ls (c.src + BitVec.ofNat 64 (4096 * b + i)) false (src b i) ∧
      ByteOf s Lb (va b + (s.taskEff s.cur).baseOff + BitVec.ofNat 64 i) false (base b i)) →
    let dst := fun b j => leafPfn (L b) * 4096 + j
    let B := fun a => ∃ b < n, ∃ j < len b, a = dst b j
    (∀ b < n, ∀ b' < n, ∀ j < len b, ∀ j' < len b', dst b j = dst b' j' → b = b' ∧ j = j') →
    (∀ b < n, ∀ i < 4096, ¬ B (src b i) ∧ ¬ B (base b i)) → TranslationApart s B →
    PayloadIs s engine k false (fun a _ => B a) fun t => ∀ b < n, ∀ j < len b, Mem.read t.hbm (dst b j) = blockByte (d b) j

/-- Group g is in the table of a stored block. -/
def tableHas (x : Nat → Byte) (g : Nat) : Bool := (x (64 + g / 8)).getLsbD (g % 8)

/-- The 4,096 bytes that a stored block stands for (R296). -/
def spreadByte (x : Nat → Byte) (i : Nat) : Byte :=
  if tableHas x (i / 8) then x (128 + 8 * ((List.range (i / 8)).filter (tableHas x)).length + i % 8) else 0

/-- G of a stored block. -/
def blockG (x : Nat → Byte) : Nat := (x 0).toNat + 256 * (x 1).toNat

/-- A stored block whose G is the number of ones of its table and whose CRC matches (R296). -/
def blockGood (x : Nat → Byte) : Prop :=
  blockG x = ((List.range 512).filter (tableHas x)).length ∧
  (x 4).toNat + 256 * (x 5).toNat + 65536 * (x 6).toNat + 16777216 * (x 7).toNat = crc32c ((List.range 4096).map (spreadByte x))

/-- DECOMPRESS: stored blocks in sequence from SRC give their bytes; one that does not check gives zeros and ERRVAL (R296). -/
def BlocksAreDecompressed : Prop :=
  ∀ (s : State) (engine err : Bool) (k : CopySlot) (c : CopyCmd) (Ls Ld : Word → Word) (src dst pos : Nat → Nat → Nat),
    EngineRuns s engine k → c = copyCmd k.bytes → c.type = 8 → k.pos = c.src → 1 ≤ c.n.getD 0 1 → c.n.getD 0 1 % 4096 = 0 →
    let n := c.n.getD 0 1 / 4096
    let x := fun b j => Mem.read s.hbm (src b j)
    let len := fun b => blockSize (blockG (x b))
    (∀ b < n, ∀ j < len b, ByteOf s Ls (c.src + BitVec.ofNat 64 (pos b j)) false (src b j)) →
    (∀ j, pos 0 j = j) → (∀ b j, pos (b + 1) j = pos b (len b) + j) →
    (∀ b < n, ∀ i < 4096, ByteOf s Ld (c.dst + BitVec.ofNat 64 (4096 * b + i)) true (dst b i)) →
    let B := fun a => ∃ b < n, ∃ i < 4096, a = dst b i
    (∀ b < n, ∀ b' < n, ∀ i < 4096, ∀ i' < 4096, dst b i = dst b' i' → b = b' ∧ i = i') →
    (∀ b < n, ∀ j < len b, ¬ B (src b j)) → TranslationApart s B → (err = true ↔ ∃ b < n, ¬ blockGood (x b)) →
    PayloadIs s engine k err (fun a _ => B a) fun t => ∀ b < n, ∀ i < 4096,
      (blockGood (x b) → Mem.read t.hbm (dst b i) = spreadByte (x b) i) ∧ (¬ blockGood (x b) → Mem.read t.hbm (dst b i) = 0)

/-- O35. COPY_COMPLETE: every command whose payload performs to its end writes its completion word and gives its signals; the
payload of COPY leaves each destination byte with its source byte, that of FILL with its byte of the pattern, those of GATHER-ROWS,
RELAYOUT-BANK, TRANSPOSE, CONVERT, COMPRESS and DECOMPRESS write the bits that their rules give, and no other bit
of HBM changes (R289, R291 to R298). Readings of the model it rests on: logs 25 and 60. -/
def Obligations.CopiesMoveTheirBytesAndComplete : Prop :=
  (∀ (s s1 s2 : State) (core : Nat) (engine : Bool) (k x : CopySlot) (parts : List CopyPart), s.cur.status = .running core →
    CopiesApart s → s.MemoryWf → s.cur.flow.due = none →
    (s.cur.vcq.find? fun y => y.engine == some engine && !y.complete) = some k → NothingLanded s k →
    (copyParts k engine).run.run s = (.ok parts, s1) → (runParts k.num k.units none 0 parts).run.run s1 = (.ok true, s2) →
    s2.cur.flow.due = none → s2.air = none → CopiesApart s2 → s2.MemoryWf → x ∈ s2.cur.vcq → x.num = k.num → x.bytes = k.bytes →
    ∃ t, exec (.copyComplete engine) s = .next t ∧ t.hbm = s2.hbm ∧ CopyEnded s2 t x ∧
      t.cur.sys.fpst = s2.cur.sys.fpst ||| x.flags) ∧
  (∀ (s : State) (core : Nat) (engine : Bool) (k : CopySlot) (c : CopyCmd) (Ls Ld : Word → Word) (src dst : Nat → Nat → Nat → Nat → Nat),
    s.act = none → s.cur.status = .running core → CopiesApart s → s.MemoryWf → StreamsAreCurrent s → s.Clear → s.launches = [] → s.cur.flow.due = none →
    (s.cur.vcq.find? fun y => y.engine == some engine && !y.complete) = some k → NothingLanded s k → s.air = none → k.units = 0 → k.err = false →
    c = copyCmd k.bytes → (c.type = 1 ∨ c.type = 4) →
    (∀ i1 i2 i3 i, InExtents c i1 i2 i3 i → ByteOf s Ld (copyVa c.dst c.d i1 i2 i3 i) true (dst i1 i2 i3 i)) →
    (c.type = 1 → ∀ i1 i2 i3 i, InExtents c i1 i2 i3 i → ByteOf s Ls (copyVa c.src c.s i1 i2 i3 i) false (src i1 i2 i3 i)) →
    (∀ i1 i2 i3 i j1 j2 j3 j, InExtents c i1 i2 i3 i → InExtents c j1 j2 j3 j → dst i1 i2 i3 i = dst j1 j2 j3 j →
      i1 = j1 ∧ i2 = j2 ∧ i3 = j3 ∧ i = j) →
    (c.type = 1 → ∀ i1 i2 i3 i j1 j2 j3 j, InExtents c i1 i2 i3 i → InExtents c j1 j2 j3 j → src i1 i2 i3 i ≠ dst j1 j2 j3 j) →
    TranslationApart s (fun z => ∃ i1 i2 i3 i, InExtents c i1 i2 i3 i ∧ z = dst i1 i2 i3 i) →
    ∃ t, exec (.copyComplete engine) s = .next t ∧ CopyEnded s t k ∧
      (∀ i1 i2 i3 i, InExtents c i1 i2 i3 i → Mem.read t.hbm (dst i1 i2 i3 i) =
        if c.type = 1 then Mem.read s.hbm (src i1 i2 i3 i) else c.p0.extractLsb' (8 * (i % 8)) 8) ∧
      (∀ z, (∀ i1 i2 i3 i, InExtents c i1 i2 i3 i → z ≠ dst i1 i2 i3 i) → Mem.read t.hbm z = Mem.read s.hbm z)) ∧
  GatheredRowsAreWritten ∧ BankLayoutIsMoved ∧ TransposesMoveElements ∧ ConversionsEncodeElements ∧ BlocksAreCompressed ∧ DeltasAreCompressed ∧
  BlocksAreDecompressed

/-! ## The link queue (R301 to R306, R475) -/

/-- The acting entry heads the link queue; its task runs. -/
def LnkHead (s : State) (e : Entry) : Prop := s.act = some e ∧ s.air = none ∧ e.stream = .lnk ∧ (s.cur.queue .lnk).head? = some e ∧
  e.landing = none ∧ s.MemoryWf ∧ ∀ x ∈ (s.cur.queue .lnk).tail, x.num ≠ e.num

/-- The acting entry stands in the link queue, at its head or behind it, under a number of its own. -/
def LnkEntry (s : State) (e : Entry) : Prop := s.act = some e ∧ s.air = none ∧ e.stream = .lnk ∧ e ∈ s.cur.queue .lnk ∧ s.MemoryWf ∧
  ∀ x ∈ s.cur.queue .lnk, x.num = e.num → x = e

/-- A transfer: its partner, whether it sends, and its tag (R301). -/
def transferRow : Instr → Option (Bool × BitVec 8)
  | .lsend _ _ _ _ tag => some (true, tag)
  | .lrecv _ _ _ _ tag => some (false, tag)
  | .lradd _ _ _ _ tag _ => some (false, tag)
  | _ => none

/-- The result nibble of a transfer that ends: 0 OK, 1 LOST, 2 SIZE (R304). -/
def resultOf (e : Entry) : Nat := if e.lk.lost then 1 else if e.lk.partner = some (e.caps.getD 2 0).toNat then 0 else 2

/-- CMASK after an entry: an lradd with result OK sets its bit (R304). -/
def cmaskOf (s : State) (e : Entry) : BitVec 16 :=
  match e.ins with
  | .lradd _ _ _ _ _ i => if resultOf e = 0 then s.cur.sys.cmask ||| BitVec.ofNat 16 (2 ^ i.toNat) else s.cur.sys.cmask
  | _ => s.cur.sys.cmask

/-- The status word of an entry (R304); that it counts the begun entries behind the head is the model's choice (log 64). -/
def statusOf (s : State) (e : Entry) (result : Nat) : Word :=
  BitVec.ofNat 64 (e.num.toNat * 2 ^ 32 + result * 2 ^ 28 + ((s.cur.queue .lnk).tail.filter fun x => x.begun).length % 2 ^ 8 * 2 ^ 16 +
    (cmaskOf s e).toNat)

/-- The leaves that a begun transfer recorded: each stands for every address of its page. -/
def LeavesWhole (e : Entry) : Prop :=
  ∀ va va' leaf : Word, e.linkLeaf va = some leaf → pageOf leaf va' = pageOf leaf va → e.linkLeaf va' = some leaf

/-- A byte of a transfer's range as it recorded it: a leaf to a page of this module's HBM that is no delta page, and its place (R426). -/
def LinkByte (s : State) (e : Entry) (L : Word → Word) (off a : Nat) : Prop :=
  let va := e.caps.getD 1 0 + BitVec.ofNat 64 off
  e.linkLeaf va = some (L va) ∧ localHbm (L va) = true ∧ leafDlt (L va) = false ∧ placeOf (L va) va s.cur.cluster = (.hbm, a)

/-- A transfer begins, at the head of its queue or behind it: it takes the next pair of its channel and direction and records the leaf
of every byte of its range; no byte of HBM changes and nothing is sent yet (R302, R304, R426). -/
def TransfersBegin : Prop :=
  ∀ (s : State) (e : Entry) (send : Bool) (tag : BitVec 8) (peer chan n : Nat) (va : Word) (c : Ctx) (L : Word → Word) (at_ : Nat → Nat),
    LnkEntry s e → transferRow e.ins = some (send, tag) → e.begun = false → PagesWhole s → s.Clear → s.launches = [] →
    peer = (e.caps.getD 0 0).toNat % 2 ^ 10 → chan = (e.caps.getD 0 0).toNat / 2 ^ 16 % 2 ^ 8 → va = e.caps.getD 1 0 →
    n = (e.caps.getD 2 0).toNat → 1 ≤ n → n ≤ 2 ^ 30 → s.isLost peer chan = false →
    (∀ a, e.caps[3]? = some a → InScratch s a 8 8) → s.ctx? s.cur.pool.ctx = some c → c.number = s.cur.pool.ctx →
    (∀ i < n, ByteOf s L (va + BitVec.ofNat 64 i) (!send) (at_ i)) →
    (∀ d a b cw t i, e.ins = .lradd d a b cw t i → ∀ j < n, let l := L (va + BitVec.ofNat 64 j)
      leafBg l = 0 ∧ (leafFmt l = 0 ∨ leafFmt l = 2) ∧ va.toNat % ((leafFormat l).bits / 8) = 0 ∧ n % ((leafFormat l).bits / 8) = 0) →
    let key := (peer * 256 + chan) * 2 + if send then 1 else 0
    let pair := (c.issued.lookup key).getD 0
    ∃ t y x, exec e.ins s = .next t ∧ t.cur.queue .lnk = ((s.cur.queue .lnk).map fun z => if z.num = e.num then x else z) ∧
      x = { e with begun := true, lk := { e.lk with pair, leaves := x.lk.leaves } } ∧ (∀ i < n, LinkByte s x L i (at_ i)) ∧
      t.ctx? s.cur.pool.ctx = some y ∧ y.issued.lookup key = some (pair + 1) ∧ t.cur.regs = s.cur.regs ∧
      (∀ z, Mem.read t.hbm z = Mem.read s.hbm z) ∧ t.sent = s.sent

/-- News that the partner of the oldest pair whose partner was not known has begun with a byte count: the entry learns it, and a send
sends the bytes that both act on in flits of 256, numbered in order, on the route that the peer and the channel choose (R302, R303, R475,
R476); which port that is is the model's free value (log 63). -/
def PairsMeet : Prop :=
  ∀ (s : State) (peer chan count : Nat) (send : Bool) (t : Task) (e : Entry) (L : Word → Word) (at_ : Nat → Nat),
    firstPair ((s.openLinks send peer chan).filter (·.2.lk.partner.isNone)) = some (t, e) → (s.focus t.tid).cur = t →
    BitVec.ofNat 10 peer ≠ Config.chip → count ≠ 0 → s.act = none → s.air = none → (s.focus t.tid).Clear → s.badTags = [] → LeavesWhole e →
    let share := min count (e.caps.getD 2 0).toNat
    (send = true → ∀ i < share, LinkByte (s.focus t.tid) e L i (at_ i)) →
    ∃ u, linkNews peer chan send count s = .next u ∧
      u.cur.queue .lnk = (t.queue .lnk).map (fun x =>
        if x.num = e.num then { x with lk := { x.lk with partner := some count } } else x) ∧
      (∀ z, Mem.read u.hbm z = Mem.read s.hbm z) ∧ (send = false → u.sent = s.sent) ∧
      (send = true → ∃ l : List (List Byte), u.sent = s.sent ++ (List.range l.length).map (fun k =>
          Sent.flit peer chan e.lk.pair (l.getD k []) false (s.portOf t.pool.die.toNat peer chan) k) ∧ l.length = (share + 255) / 256 ∧ (∀ k < l.length, (l.getD k []).length = min 256 (share - 256 * k)) ∧
        ∀ i < share, l.flatten.getD i 0 = Mem.read s.hbm (at_ i))

/-- The head of the link queue performs once its pair is done: its status word goes to s62 and to its completion word, an lradd with
result OK sets its CMASK bit; one whose partner is lost has result LOST, leaves CMASK and memory as they are, and a LINK_LOST record
goes to its RCB's log; lstat appends its word, clearing CMASK where CLR is set (R304, R305, R433). -/
def TransfersPerform : Prop :=
  (∀ (s : State) (e : Entry) (send : Bool) (tag : BitVec 8), LnkHead s e → transferRow e.ins = some (send, tag) → e.begun = true →
    e.lk.lost = false → (∃ p, e.lk.partner = some p ∧ min p (e.caps.getD 2 0).toNat ≤ e.lk.bytes) →
    (s.cur.regs.port.get 6).length < 16 →
    ∃ t, exec e.ins s = .next t ∧ t.cur.queue .lnk = (s.cur.queue .lnk).tail ∧ t.cur.sys.cmask = cmaskOf s e ∧
      t.cur.regs.port.get 6 = s.cur.regs.port.get 6 ++ [⟨statusOf s e (resultOf e), false⟩] ∧
      (∀ a, e.caps[3]? = some a → Mem.num t.cur.scratch a.toNat 8 = (statusOf s e (resultOf e)).toNat) ∧ t.hbm = s.hbm) ∧
  (∀ (s : State) (e : Entry) (send : Bool) (tag : BitVec 8), LnkHead s e → transferRow e.ins = some (send, tag) → e.begun = true →
    e.lk.lost = true → (s.cur.regs.port.get 6).length < 16 →
    ∃ t bs, exec e.ins s = .next t ∧ t.cur.queue .lnk = (s.cur.queue .lnk).tail ∧ t.cur.sys.cmask = s.cur.sys.cmask ∧
      t.cur.regs.port.get 6 = s.cur.regs.port.get 6 ++ [⟨statusOf s e 1, false⟩] ∧
      (∀ a, e.caps[3]? = some a → Mem.num t.cur.scratch a.toNat 8 = (statusOf s e 1).toNat) ∧
      bs.length = 64 ∧ bs.head? = some 0x53 ∧ leNat ((bs.drop 4).take 4) = (e.peer + e.chan * 2 ^ 16) % 2 ^ 32 ∧
      leNat ((bs.drop 8).take 8) = e.num.toNat ∧ leNat ((bs.drop 0x10).take 8) = e.lk.bytes % 2 ^ 64 ∧
      leNat ((bs.drop 0x18).take 8) = s.cur.pool.rcb.toNat ∧ t.hbm = (s.logTask s.cur bs).1.hbm) ∧
  (∀ (s : State) (e : Entry) (clr : Bool), LnkHead s e → e.ins = .lstat clr → e.caps = [] → (s.cur.regs.port.get 6).length < 16 →
    ∃ t, exec e.ins s = .next t ∧ t.cur.queue .lnk = (s.cur.queue .lnk).tail ∧
      t.cur.sys.cmask = (if clr then 0 else s.cur.sys.cmask) ∧
      t.cur.regs.port.get 6 = s.cur.regs.port.get 6 ++ [⟨statusOf s e 0, false⟩] ∧ t.hbm = s.hbm)

/-- O36. A transfer begins as the next pair of its channel and direction, also behind the head, and records its translations; it meets
its partner, when a send sends the bytes that both act on; once its pair is done, or its partner is lost, it performs with its status
words (R301 to R305, R426, R433, R475, R476). Readings of the model it rests on: log 28, 29, 63, 64. -/
def Obligations.TransfersBeginAndPerform : Prop :=
  TransfersBegin ∧ PairsMeet ∧ TransfersPerform

/-- The state with an entry of the acting task's link queue changed. -/
def withLink (t : Task) (num : BitVec 32) (f : Entry → Entry) : Task :=
  t.setQueue .lnk ((t.queue .lnk).map fun e => if e.num = num then f e else e)

/-- A flit lands at the oldest open receive of its channel through the translations recorded as it began, written by lrecv and added
by lradd, once no earlier lradd has to add there first (R303, R304, R426). -/
def FlitsLand : Prop :=
  ∀ (s : State) (peer : BitVec 10) (chan : BitVec 8) (count : Nat) (payload : List Byte) (bad : Bool) (t : Task) (e : Entry)
      (L : Word → Word) (at_ : Nat → Nat) (f : Fmt), firstPair (s.openLinks false peer.toNat chan.toNat) = some (t, e) →
    (s.focus t.tid).cur = t → (s.focus t.tid).Clear → s.act = none → s.air = none → s.MemoryWf → t.flow.due = none → LeavesWhole e →
    (e.lk.partner = none ∨ e.lk.idle < 2 ^ 24) → 1 ≤ count → payload.length = min 256 (min count (e.caps.getD 2 0).toNat - e.lk.bytes) →
    (e.lk.partner = none ∨ e.lk.partner = some count) → s.loopOk e count payload bad = true →
    (t.addsBefore e e.lk.bytes payload.length = true → exec (.linkFlitReceive peer chan count payload bad) s = .next s) ∧
    (t.addsBefore e e.lk.bytes payload.length = false →
    (∀ i < payload.length, LinkByte (s.focus t.tid) e L (e.lk.bytes + i) (at_ i)) →
    (∀ i < payload.length, ∀ j < payload.length, at_ i = at_ j → i = j) →
    ∃ u, exec (.linkFlitReceive peer chan count payload bad) s = .next u ∧
      u.cur.queue .lnk = (t.queue .lnk).map (fun x =>
        if x.num = e.num then { x with lk := { x.lk with partner := some count, bytes := e.lk.bytes + payload.length, idle := 0 } }
        else if peer = Config.chip ∧ x.begun = true ∧ Instr.isSend x.ins = true ∧ x.peer = peer.toNat ∧ x.chan = chan.toNat ∧
          x.lk.pair = e.lk.pair then { x with lk := { x.lk with idle := 0 } } else x) ∧
      (∀ z, (∀ i < payload.length, z ≠ at_ i) → Mem.read u.hbm z = Mem.read s.hbm z) ∧
      ((∀ d a b cw tag i, e.ins ≠ .lradd d a b cw tag i) → ∀ i < payload.length, Mem.read u.hbm (at_ i) = payload.getD i 0) ∧
      ((∃ d a b cw tag i, e.ins = .lradd d a b cw tag i) → (f = .fp32 ∨ f = .bf16) →
        (∀ i < payload.length, Fmt.ofCode (leafFmt (L (e.caps.getD 1 0 + BitVec.ofNat 64 (e.lk.bytes + i)))) = some f) →
        (e.caps.getD 1 0).toNat % (f.bits / 8) = 0 → e.lk.bytes % (f.bits / 8) = 0 →
        ∀ q, (q + 1) * (f.bits / 8) ≤ payload.length → ∀ b < f.bits / 8,
          Mem.read u.hbm (at_ (q * (f.bits / 8) + b)) = (BitVec.ofNat 32 (f.enc .rne 0
            ((f.dec (leNat ((List.range (f.bits / 8)).map fun k => Mem.read s.hbm (at_ (q * (f.bits / 8) + k))))).add
              (f.dec (leNat ((payload.drop (q * (f.bits / 8))).take (f.bits / 8))))).1).1).extractLsb' (8 * b) 8))

/-- A flit of a channel was accepted: no retries of the channel's port have failed in a row, and those of the other ports stay (R475,
R476; log 63). -/
def PortHeard (s : State) (die peer chan : Nat) (r : Vector Nat 24) : Prop :=
  ∀ j : Fin 24, r.get j = if s.portOf die peer chan = some j.val then 0 else s.retries.get j

/-- The acceptance of a send's last flit ends its pair; a send that did not know its partner meets it first. News without a count, from
a chip that is another, shows that the receiver of the oldest pair that has met takes flits (R303, R305, R475). -/
def SendsAreAccepted : Prop :=
  (∀ (s m : State) (peer : BitVec 10) (chan : BitVec 8) (count : Nat) (t : Task) (e : Entry),
    firstPair (s.openLinks true peer.toNat chan.toNat) = some (t, e) → (s.focus t.tid).cur = t → count ≠ 0 → s.loopAccepted e = true →
    (e.lk.partner = none ∨ e.lk.idle < 2 ^ 24) →
    (e.lk.partner = some count ∧ m = s.focus t.tid ∨
      e.lk.partner = none ∧ (linkMeet e count).run.run (s.focus t.tid) = (.ok (), m)) →
    (∀ x ∈ m.cur.queue .lnk, x.num = e.num → x.lk.partner = some count ∧ x.lkCount = e.lkCount) →
    ∃ r, PortHeard m t.pool.die.toNat e.peer e.chan r ∧ exec (.linkSendAccepted peer chan count) s = .next { m with
      retries := r
      cur := withLink m.cur e.num fun x => { x with lk := { x.lk with bytes := min count e.lkCount } } }) ∧
  (∀ (s : State) (peer chan : Nat) (t : Task) (e : Entry),
    firstPair ((s.openLinks true peer chan).filter (·.2.lk.partner.isSome)) = some (t, e) → (s.focus t.tid).cur = t →
    BitVec.ofNat 10 peer ≠ Config.chip → e.lk.idle < 2 ^ 24 →
    ∃ r, PortHeard s t.pool.die.toNat e.peer e.chan r ∧ linkNews peer chan true 0 s = .next { s.focus t.tid with
      retries := r
      cur := withLink t e.num fun x => { x with lk := { x.lk with idle := 0 } } })

/-- O37. Link events: a flit lands at the oldest open receive of its channel; the acceptance of a send's last flit ends its pair; a peer
out of reach or a silent channel loses its open pairs and is marked lost until the peer is in reach again; a failed flit is sent
again, and the sixteenth failure in a row takes its port down, when a peer that no port of the die reaches any longer is out of reach
(R303 to R305, R475). Readings of the model it rests on: log 28, 30, 63. -/
def Obligations.LinkEventsMoveAndLosePairs : Prop :=
  FlitsLand ∧ SendsAreAccepted ∧
  (∀ (s : State) (peer : BitVec 10), ∃ t, exec (.linkPeerUnreachable peer) s = .next t ∧ (peer.toNat, wholePeer) ∈ t.lost ∧
    (∀ x ∈ s.lost, x ∈ t.lost) ∧ t.others.length = s.others.length ∧
    t.cur.queue .lnk = (s.cur.queue .lnk).map fun e =>
      if e.begun = true ∧ e.peer = peer.toNat ∧ e.linkDone = false then { e with lk := { e.lk with lost := true } } else e) ∧
  (∀ (s : State) (peer : BitVec 10) (chan : BitVec 8) (x : Task × Entry),
    (x ∈ s.openLinks true peer.toNat chan.toNat ∨ x ∈ s.openLinks false peer.toNat chan.toNat) → 2 ^ 24 ≤ x.2.lk.idle →
    x.2.lk.partner.isSome = true →
    ∃ t, exec (.linkFlitTimeout peer chan) s = .next t ∧ (peer.toNat, chan.toNat) ∈ t.lost ∧ (∀ y ∈ s.lost, y ∈ t.lost) ∧
      t.cur.queue .lnk = (s.cur.queue .lnk).map fun e =>
        if e.begun = true ∧ e.peer = peer.toNat ∧ e.chan = chan.toNat ∧ e.linkDone = false then { e with lk := { e.lk with lost := true } }
        else e) ∧
  (∀ (s : State) (peer : BitVec 10), exec (.linkPeerReachable peer) s =
    .next { s with lost := s.lost.filter fun x => x.1 != peer.toNat }) ∧
  (∀ (s : State) (port : BitVec 5) (h : port.toNat < 24),
    let n := s.retries.get ⟨port.toNat, h⟩ + 1
    let cut := fun p : Nat => p < 1024 ∧ Config.reaches port.toNat p = true ∧
      ∀ j, j / 6 = port.toNat / 6 → j ≠ port.toNat → Config.reaches j p = true → s.portDown.getLsbD j = true
    (n < 16 → exec (.flitCrcRetry port) s = .next { s with retries := s.retries.set port.toNat n h }) ∧
    (16 ≤ n → ∃ t, exec (.flitCrcRetry port) s = .next t ∧ t.retries = s.retries.set port.toNat n h ∧
      (∀ j : Fin 24, t.portDown.getLsbD j = (s.portDown.getLsbD j || decide (j.val = port.toNat))) ∧ t.hbm = s.hbm ∧
      (s.portDown.getLsbD port.toNat = false → ∀ p, cut p → (p, wholePeer) ∈ t.lost) ∧
      ((s.portDown.getLsbD port.toNat = true ∨ ∀ p, ¬ cut p) → t.cur = s.cur ∧ t.lost = s.lost)))

/-! ## Launches (R34, R38 to R41, R46, R277 to R280, R308 to R315, R321, R358) -/

/-- A context's translation stays as it is whatever stands in some bytes of HBM. -/
def TablesKeep (s : State) (n : Nat) (F : Nat → Prop) : Prop :=
  ∀ (m : Mem) (c : Ctx) (va : Word), s.ctx? n = some c → (∀ a, ¬ F a → Mem.read m a = Mem.read s.hbm a) →
    walkTables m c.root va = walkTables s.hbm c.root va

/-- A run of a context's addresses that lies in one writable page of this module's HBM, at the given byte. -/
def RunAt (s : State) (n : Nat) (va leaf : Word) (at_ len : Nat) : Prop :=
  localHbm leaf = true ∧ leafW leaf = true ∧ leafDlt leaf = false ∧ placeOf leaf va 0 = (.hbm, at_) ∧
  va.toNat % pageBytes (leafSz leaf) + len ≤ pageBytes (leafSz leaf) ∧ ∀ off : Word, off.toNat < len → s.Maps n (va + off) leaf

/-- The launch that its number names, and no other. -/
def TheLaunch (s : State) (l : Launch) : Prop := l ∈ s.launches ∧ ∀ m ∈ s.launches, m.serial = l.serial → m = l

/-- A launch in order of acceptance: it is one of the list, and what stands before it does not satisfy P. -/
def FirstLaunch (s : State) (P : Launch → Prop) (before after : List Launch) (l : Launch) : Prop :=
  s.launches = before ++ l :: after ∧ P l ∧ (∀ m ∈ before, ¬ P m) ∧ ∀ m ∈ before ++ after, m.serial ≠ l.serial

/-- A launch waits at a launch queue of a function (R39). -/
def WaitsAt (s : State) (ctx : Nat) (queue : BitVec 6) (l : Launch) : Prop :=
  l.accepted = false ∧ l.queue = queue ∧ s.fnOf l.ctx = s.fnOf ctx

/-- Unit u of every cluster's SRAM is held by no accepted launch (R358). -/
def UnitFree (s : State) (u : Nat) : Prop := u < 64 ∧ ∀ m ∈ s.launches, m.accepted = true → u ∉ m.csUnits

/-- O38. Launches: the next of a queue is accepted once the one before has retired, or with OVERLAP once it was accepted, and
its cluster SRAM is free, which is then its own and zero; it waits otherwise, and is dropped into an aborted chain. It retires
when every node is done, writing DONEVAL, or once its aborted domain is down, writing nothing; an aborting RCB whose LIVE is 0
becomes aborted (R34, R38, R39, R358). Readings of the model it rests on: log 34. -/
def Obligations.LaunchesAreAcceptedAndRetired : Prop :=
  (∀ (s : State) (ctx : Nat) (queue : BitVec 6) (l : Launch) (before after : List Launch) (free : List Nat),
    FirstLaunch s (WaitsAt s ctx queue) before after l → (∀ u, u ∈ free ↔ UnitFree s u) → free.Nodup →
    (l.overlap = false → (∃ m ∈ s.launches, m.serial = l.prev) → exec (.launchAccept ctx queue) s = .next s) ∧
    ((l.overlap = true ∨ ∀ m ∈ s.launches, m.serial ≠ l.prev) →
      (s.chainAborted l.ctx l.lrcb = true → exec (.launchAccept ctx queue) s = .next { s with launches := before ++ after }) ∧
      (s.chainAborted l.ctx l.lrcb = false → free.length < l.csSz → exec (.launchAccept ctx queue) s = .next s) ∧
      (s.chainAborted l.ctx l.lrcb = false → l.csSz ≤ free.length → s.MemoryWf →
        ∃ t x, exec (.launchAccept ctx queue) s = .next t ∧ t.launches = before ++ after ++ [x] ∧
          { x with accepted := false, csUnits := l.csUnits, lttbl := l.lttbl, image := l.image } = l ∧ x.accepted = true ∧ x.csUnits.length = l.csSz ∧
          x.csUnits.Nodup ∧ (∀ u ∈ x.csUnits, UnitFree s u) ∧ (l.lttbl ≠ 0 → x.lttbl = l.lttbl) ∧
          (l.lttbl = 0 → s.rcbChain l.ctx chainFuel l.lrcb ≠ [] → x.lttbl = (effective (s.rcbChain l.ctx chainFuel l.lrcb)).ttbl) ∧
          (∀ cluster u off, u ∈ x.csUnits → off < 65536 → Mem.read t.csram (cluster * 2 ^ 22 + u * 65536 + off) = 0) ∧
          (∀ cluster u off, u < 64 → u ∉ x.csUnits → off < 65536 →
            Mem.read t.csram (cluster * 2 ^ 22 + u * 65536 + off) = Mem.read s.csram (cluster * 2 ^ 22 + u * 65536 + off)) ∧
          t.hbm = s.hbm ∧ t.cur = s.cur ∧ t.others = s.others))) ∧
  (∀ (s : State) (l : Launch), TheLaunch s l → l.accepted = true → s.chainAborted l.ctx l.lrcb l.image = false → l.dead = false →
    ((∃ d, l.passed.get d = false) ∨ (∃ x ∈ l.nodes, x.done = false) → exec (.launchRetire l.serial) s = .next s) ∧
    ((∀ d, l.passed.get d = true) → (∀ x ∈ l.nodes, x.done = true) → s.walksFull 0 = false →
      (l.doneVa = 0 → exec (.launchRetire l.serial) s = .next { s with launches := s.launches.filter (·.serial != l.serial) }) ∧
      (∀ leaf at_, s.MemoryWf → l.doneVa ≠ 0 → RunAt s l.ctx l.doneVa leaf at_ 8 → leaf.getLsbD 3 = true → leaf.getLsbD 4 = true →
        ∃ t, exec (.launchRetire l.serial) s = .next t ∧ Mem.num t.hbm at_ 8 = l.doneVal.toNat ∧
          (∀ z, z < at_ ∨ at_ + 8 ≤ z → Mem.read t.hbm z = Mem.read s.hbm z) ∧
          t.launches = s.launches.filter (·.serial != l.serial) ∧ t.cur = s.cur ∧ t.others = s.others))) ∧
  (∀ (s : State) (l : Launch), TheLaunch s l → l.accepted = true → s.chainAborted l.ctx l.lrcb l.image = true →
    exec (.launchRetire l.serial) s =
      if s.chainDown l.ctx l.lrcb l.image = true ∧ ∀ t ∈ s.tasks, ¬(t.pool.origin = 0 ∧ t.pool.ctx = l.ctx ∧ t.pool.serial = l.serial)
      then .next { s with launches := s.launches.filter (·.serial != l.serial) } else .next s) ∧
  (∀ (s : State) (ctx : Nat) (rcb leaf : Word) (a : Nat), s.MemoryWf → rcb ≠ 0 → RunAt s ctx rcb leaf a 256 →
    Mem.num s.hbm (a + 0x0B) 1 % 4 = 1 →
    (Mem.num s.hbm (a + 0x50) 4 ≠ 0 → exec (.abortComplete ctx rcb) s = .next s) ∧
    (Mem.num s.hbm (a + 0x50) 4 = 0 → TablesKeep s ctx (fun z => z = a + 0x0B) →
      ∃ t, exec (.abortComplete ctx rcb) s = .next t ∧ Mem.read t.hbm (a + 0x0B) = 2 ∧
        (∀ z, z ≠ a + 0x0B → Mem.read t.hbm z = Mem.read s.hbm z) ∧ (∀ l ∈ t.launches, l ∈ s.launches) ∧
        (∀ l ∈ s.launches, l.accepted = false ∨ l.ctx ≠ ctx → l ∈ t.launches) ∧
        (∀ l ∈ s.launches, l.accepted = true → l.ctx = ctx → l.lrcb = rcb →
          (∀ u ∈ s.tasks, ¬(u.pool.origin = 0 ∧ u.pool.ctx = ctx ∧ u.pool.serial = l.serial)) → l ∉ t.launches) ∧
        t.cur = s.cur ∧ t.others = s.others))

/-- The die of a present local page, for a VA that is not 0 and lies outside the launch's window (R310, R360). -/
def LocalDie (s : State) (l : Launch) (va : Word) (d : Nat) : Prop :=
  va ≠ 0 ∧ l.inWindow va = false ∧ ∃ leaf pa, s.Maps l.ctx va leaf ∧ localHbm leaf = true ∧ placeOf leaf va 0 = (.hbm, pa) ∧ d = pa / 2 ^ 37

/-- The owner of node i of a launch as R310's rules in order give it. -/
def OwnerIs (s : State) (l : Launch) (i : Nat) (bs : List Byte) (d : Nat) : Prop :=
  let wrva := BitVec.ofNat 64 (leNat ((bs.drop 0x30).take 8))
  let rdva := BitVec.ofNat 64 (leNat ((bs.drop 0x38).take 8))
  let rdhome := leNat ((bs.drop 2).take 2) % 2 = 1
  LocalDie s l wrva d ∨ ((∀ x, ¬ LocalDie s l wrva x) ∧ rdhome ∧ LocalDie s l rdva d) ∨
  ((∀ x, ¬ LocalDie s l wrva x) ∧ ¬(rdhome ∧ ∃ x, LocalDie s l rdva x) ∧ d = i % 4)

/-- The successors of a node, from the bytes of its list. -/
def succOf (list : List Byte) (j : Nat) : Nat := leNat ((list.drop (4 * j)).take 4)

/-- The records and the successor lists of a launch's nodes as memory holds them (R41, R313). -/
def GraphIs (s : State) (l : Launch) (R S : Nat → List Byte) : Prop :=
  ∀ i < l.nodeCnt, s.passRead l.ctx (l.nodeTbl + BitVec.ofNat 64 (64 * i)) 64 = .ok (R i) ∧
    s.passRead l.ctx (BitVec.ofNat 64 (leNat (((R i).drop 0x10).take 8))) (4 * leNat (((R i).drop 0x18).take 4)) = .ok (S i)

/-- The number of a node's successors. -/
def succN (r : List Byte) : Nat := leNat ((r.drop 0x18).take 4)

/-- A node record breaks R40: a reserved bit, or a successor that is no node. -/
def NodeBad (l : Launch) (r list : List Byte) : Prop :=
  2 ^ 10 ≤ leNat (r.take 2) ∨ 2 ≤ leNat ((r.drop 2).take 2) ∨ ∃ j < succN r, l.nodeCnt ≤ succOf list j

/-- Every page of a context is marked accessed, and dirty where it can be written, so that a walk changes no byte (R414). -/
def MarkedPages (s : State) (n : Nat) : Prop :=
  ∀ va leaf, s.Maps n va leaf → leaf.getLsbD 3 = true ∧ (leafW leaf = true → leaf.getLsbD 4 = true)

/-- A die's pass of a launch may run. -/
def PassOpen (s : State) (die : BitVec 2) (l : Launch) : Prop :=
  TheLaunch s l ∧ l.accepted = true ∧ l.dead = false ∧ l.passed.get die.toFin = false ∧
  s.chainAborted l.ctx l.lrcb l.image = false ∧ s.walksFull die.toNat = false

/-- The DIST word of every node of a launch lies in pages that are there and can be written (R312, R313). -/
def DistWritable (s : State) (l : Launch) : Prop :=
  ∀ i < l.nodeCnt, ∃ cs, s.ctxChunks l.ctx (l.nodeTbl + BitVec.ofNat 64 (64 * i) + 0x1C) 4 = .ok cs ∧ ∀ c ∈ cs, leafW c.leaf = true

/-- O39. The pass of a die works out each node's distance to sink and its owner, writes DIST into the records of the die's own
nodes and puts those with INITDC 0 in its cursor in ascending order; a cycle, a successor out of range or a reserved field ends
the launch with no node in any cursor, and a page that is missing makes the pass wait (R40, R309, R310, R312 to R314). Readings
of the model it rests on: log 1, 32. -/
def Obligations.PassesOrderTheirNodes : Prop :=
  (∀ (s : State) (die : BitVec 2) (l : Launch) (R S : Nat → List Byte) (dist owner at_ : Nat → Nat) (L : Nat → Word), s.MemoryWf →
    PassOpen s die l → MarkedPages s l.ctx → l.nodes = [] → l.nodeCnt ≤ 2 ^ 24 → GraphIs s l R S → (∀ i < l.nodeCnt, ¬ NodeBad l (R i) (S i)) →
    (∀ i < l.nodeCnt, dist i = if succN (R i) = 0 then 0 else 1 + (Finset.range (succN (R i))).sup fun j => dist (succOf (S i) j)) →
    (∀ i < l.nodeCnt, owner i < 4 ∧ OwnerIs s l i (R i) (owner i)) →
    DistWritable s l →
    (∀ i < l.nodeCnt, owner i = die.toNat → RunAt s l.ctx (l.nodeTbl + BitVec.ofNat 64 (64 * i) + 0x1C) (L i) (at_ i) 4) →
    (∀ i < l.nodeCnt, ∀ j < l.nodeCnt, owner i = die.toNat → owner j = die.toNat → i ≠ j → at_ i + 4 ≤ at_ j ∨ at_ j + 4 ≤ at_ i) →
    TablesKeep s l.ctx (fun z => ∃ i < l.nodeCnt, owner i = die.toNat ∧ at_ i ≤ z ∧ z < at_ i + 4) →
    ∃ t x, exec (.distributionPass die l.serial) s = .next t ∧ t.launches = s.launches.map (fun m => if m.serial = l.serial then x else m) ∧
      { x with nodes := l.nodes, passed := l.passed, cursor := l.cursor, page := l.page } = l ∧ x.page = none ∧
      x.passed = l.passed.set die.toNat true die.isLt ∧
      x.cursor = l.cursor.set die.toNat ((List.range l.nodeCnt).filter fun i =>
        owner i = die.toNat ∧ leNat (((R i).drop 4).take 4) = 0) die.isLt ∧
      x.nodes.length = l.nodeCnt ∧
      (∀ i < l.nodeCnt, ∃ y, x.nodes[i]? = some y ∧ y.dist = dist i ∧ y.owner.toNat = owner i ∧ y.tpl.toNat = leNat ((R i).take 2) ∧
        y.arg0.toNat = leNat (((R i).drop 0x20).take 8) ∧ y.arg1.toNat = leNat (((R i).drop 0x28).take 8) ∧ y.done = false) ∧
      (∀ i < l.nodeCnt, owner i = die.toNat → Mem.num t.hbm (at_ i) 4 = owner i * 2 ^ 24 + dist i) ∧
      (∀ z, (∀ i < l.nodeCnt, owner i = die.toNat → z < at_ i ∨ at_ i + 4 ≤ z) → Mem.read t.hbm z = Mem.read s.hbm z) ∧
      t.cur = s.cur ∧ t.others = s.others) ∧
  (∀ (s : State) (die : BitVec 2) (l : Launch) (R S : Nat → List Byte), PassOpen s die l → l.nodes = [] → GraphIs s l R S →
    ((∃ i < l.nodeCnt, NodeBad l (R i) (S i)) ∨
      ∃ c : Nat → Nat, ∀ k, c k < l.nodeCnt ∧ ∃ j < succN (R (c k)), c (k + 1) = succOf (S (c k)) j) →
    ∃ t x bs, exec (.distributionPass die l.serial) s = .next t ∧ bs.head? = some 0x03 ∧
      t = ((s.logFault l.ctx l.lrcb bs l.image).1.modLaunch l.serial fun y =>
        { y with dead := true, cursor := .replicate 4 [] }).abortDomain l.ctx l.lrcb l.image ∧
      x ∈ t.launches ∧ x.serial = l.serial ∧ x.dead = true ∧ ∀ d, x.cursor.get d = []) ∧
  (∀ (s : State) (die : BitVec 2) (l : Launch), PassOpen s die l → l.nodes = [] → 0 < l.nodeCnt → s.lookup l.ctx l.nodeTbl = .error 0x10 →
    s.inWindows l.ctx l.nodeTbl = false →
    exec (.distributionPass die l.serial) s =
      .next ((s.postPage l.ctx l.nodeTbl false).modLaunch l.serial fun y => { y with page := some (l.nodeTbl, false) }))

/-- A launch has a node in a die's cursor and may still run it. -/
def HasNext (s : State) (die : BitVec 2) (l : Launch) : Prop :=
  l.accepted = true ∧ l.dead = false ∧ s.chainAborted l.ctx l.lrcb l.image = false ∧ l.cursor.get die.toFin ≠ []

/-- A task as it enters a die's pool: Ready, with its place, its template's entry and its arguments, in the state R45
gives it. -/
def Entered (s : State) (new : Task) (die : BitVec 2) (index ctx : Nat) (tpl : BitVec 10) (entry : Word) (spp : Nat) (rcb : Word)
    (args : List Word) : Prop :=
  new.status = .ready ∧ new.pool.die = die ∧ new.pool.index = index ∧ new.pool.ctx = ctx ∧ new.pool.tpl = tpl ∧
  new.pool.entry = entry ∧ new.pool.spp = spp ∧ new.pool.rcb = rcb ∧ new.pool.args.toList = args ∧ new.pool.entered = s.now ∧
  new.flow.line = entry ∧ new.flow.lane = 1 ∧ new.flow.entered = false ∧
  (∀ r : SReg, new.regs.s.get r.toFin = if r = 2 then args.getD 0 0 else if r = 3 then 0x10000 else 0) ∧
  new.regs = { ({} : Regs) with s := new.regs.s } ∧ new.sys = {} ∧ (∀ k : Stream, new.queue k = [] ∧ new.num k = 0)

/-- A slot is the oldest of its home's queue. -/
def OldestSlot (s : State) (home : Nat) (c : ClqSlot) : Prop :=
  c.home = home ∧ ∃ before after, s.clq = before ++ c :: after ∧ ∀ x ∈ before, x.home ≠ home

/-- The continuation launch queues without a slot. -/
def withoutSlot (s : State) (c : ClqSlot) : List ClqSlot := s.clq.filter fun x => !(x.home == c.home && x.slot == c.slot)

/-- The oldest launch with a node in a die's cursor enters it into the die's pool once the continuation launch queues have the entries
that are theirs; a node charged to an aborting RCB is discarded, and an invalid template writes K_LAUNCH and aborts (R34, R46, R314,
R321). -/
def CursorsEnterTheirNodes : Prop :=
  ∀ (s : State) (die : BitVec 2) (l : Launch) (before after : List Launch) (i : Nat) (rest : List Nat) (x : Node),
    FirstLaunch s (HasNext s die) before after l → l.cursor.get die.toFin = i :: rest → l.nodes[i]? = some x → x.owner = die →
    let taken := fun (m : Launch) => if m.serial = l.serial then { m with cursor := m.cursor.set die.toNat rest die.isLt } else m
    (s.freeIndex die.toNat = none ∨ s.freeEntries die ≤ s.drainsFirst die → exec (.cursorEnqueue die) s = .next s) ∧
    (∀ k entry spp trcb valid, s.freeIndex die.toNat = some k → s.drainsFirst die < s.freeEntries die →
      s.template l.ctx l.lttbl x.tpl = some (entry, spp, valid, trcb) →
      let rcb := if trcb = 0 then l.lrcb else trcb
      (valid = true → s.chainAborted l.ctx rcb l.image = true → exec (.cursorEnqueue die) s = .next { s with launches := s.launches.map taken }) ∧
      (valid = true → s.chainAborted l.ctx rcb l.image = false →
        ∃ t new, exec (.cursorEnqueue die) s = .next t ∧ t.cur = s.cur ∧ t.others = s.others ++ [new] ∧ t.launches = s.launches.map taken ∧
          Entered s new die k l.ctx x.tpl entry spp rcb [x.arg0, x.arg1, l.nodeTbl + BitVec.ofNat 64 (64 * i), BitVec.ofNat 64 i] ∧
          new.pool.origin = 0 ∧ new.pool.queue = l.queue ∧ new.pool.serial = l.serial ∧ new.pool.dist = x.dist ∧
          new.pool.node = BitVec.ofNat 32 i ∧ new.pool.nodeVa = l.nodeTbl + BitVec.ofNat 64 (64 * i)) ∧
      (valid = false →
        ∃ bs t, bs.head? = some 0x39 ∧ exec (.cursorEnqueue die) s = .next t ∧
          t = ((s.logFault l.ctx l.lrcb bs l.image).1.abortDomain l.ctx l.lrcb l.image).modLaunch l.serial fun m =>
            { m with cursor := m.cursor.set die.toNat rest die.isLt }))

/-- A home's oldest slot that holds a continuation enters its task into the pool of its die with the arguments and identity of R277, or
ends in K_LAUNCH (R277, R279, R280). -/
def ContinuationsEnter : Prop :=
  ∀ (s : State) (home : Nat) (c : ClqSlot) (tpl : BitVec 10), s.Untraced → OldestSlot s home c → c.tpl = some tpl →
    (s.freeIndex c.die.toNat = none → exec (.clqDrain home) s = .next s) ∧
    (∀ k entry spp trcb, s.freeIndex c.die.toNat = some k → s.template c.ctx c.ttbl tpl = some (entry, spp, true, trcb) →
      let rcb := if trcb = 0 then c.issuerRcb else trcb
      s.chainAborted c.ctx rcb = false → s.spent c.ctx rcb c.die.toNat = none →
      ∃ t new, exec (.clqDrain home) s = .next t ∧ t.cur = s.cur ∧ t.others = s.others ++ [new] ∧ t.clq = withoutSlot s c ∧
        Entered s new c.die k c.ctx tpl entry spp rcb [c.old, c.va, BitVec.ofNat 64 c.user.toNat, BitVec.ofNat 64 c.issuerNode.toNat] ∧
        new.pool.origin = 1 ∧ new.pool.node = 0xFFFFFFFF ∧ new.pool.dist = 0) ∧
    (∀ k entry spp trcb valid, s.freeIndex c.die.toNat = some k → s.template c.ctx c.ttbl tpl = some (entry, spp, valid, trcb) →
      let rcb := if trcb = 0 then c.issuerRcb else trcb
      (valid = false ∨ s.chainAborted c.ctx rcb = true ∨ (s.spent c.ctx rcb c.die.toNat).isSome = true) →
      ∃ bs, bs.head? = some 0x39 ∧ exec (.clqDrain home) s =
        .next (({ (s.logFault c.ctx c.issuerRcb bs).1 with clq := withoutSlot s c } : State).abortDomain c.ctx c.issuerRcb))

/-- A home's oldest slot that holds a node enters it into its owner's pool once the passes of the home's die and of the owner's die have
ended; a node charged to an aborting RCB is discarded (R34, R279, R280, R312, R314, R315). -/
def DecrementedNodesEnter : Prop :=
  ∀ (s : State) (home : Nat) (c : ClqSlot) (l : Launch) (x : Node), s.Untraced → OldestSlot s home c → c.tpl = none → TheLaunch s l →
    c.serial = l.serial → l.accepted = true → l.dead = false → s.chainAborted l.ctx l.lrcb l.image = false → home < 256 →
    l.nodes[c.user.toNat]? = some x →
    let passed := l.passed.get (BitVec.ofNat 2 (home / 64)).toFin = true ∧ l.passed.get x.owner.toFin = true
    (¬ passed → exec (.clqDrain home) s = .next s) ∧
    (passed → s.freeIndex x.owner.toNat = none → exec (.clqDrain home) s = .next s) ∧
    (∀ k entry spp trcb, passed → s.freeIndex x.owner.toNat = some k → s.template l.ctx l.lttbl x.tpl = some (entry, spp, true, trcb) →
      let rcb := if trcb = 0 then l.lrcb else trcb
      (s.chainAborted l.ctx rcb l.image = true → exec (.clqDrain home) s = .next { s with clq := withoutSlot s c }) ∧
      (s.chainAborted l.ctx rcb l.image = false →
        ∃ t new, exec (.clqDrain home) s = .next t ∧ t.cur = s.cur ∧ t.others = s.others ++ [new] ∧ t.clq = withoutSlot s c ∧
          Entered s new x.owner k l.ctx x.tpl entry spp rcb
            [x.arg0, x.arg1, l.nodeTbl + BitVec.ofNat 64 (64 * c.user.toNat), BitVec.ofNat 64 c.user.toNat] ∧
          new.pool.origin = 0 ∧ new.pool.node = c.user ∧ new.pool.dist = x.dist))

/-- O40. Nodes of the cursors, continuations and decremented nodes enter the pools that are theirs, in the order of R321, with the
arguments and identity of R277 and R46, or end as R34, R46 and R279 say (R34, R46, R277, R279, R280, R314, R315, R321). Readings of the
model it rests on: log 33. -/
def Obligations.NodesAndContinuationsEnterPools : Prop :=
  CursorsEnterTheirNodes ∧ ContinuationsEnter ∧ DecrementedNodesEnter

/-! ## Accesses from outside and answers to accesses that leave the module (R360, R391, R395, R401, R413, R422, R427, R434) -/

/-- An entry of a queue of the acting task has an answer. -/
def answered (s : State) (k : Stream) (before : List Entry) (e : Entry) (rest : List Entry) (ans : Answer) : Task :=
  s.cur.setQueue k (before ++ { e with answer := ans } :: rest)

/-- An entry waits for the answer of its home in an aperture: it names a page there, has been sent and has no answer. -/
def Waits (e : Entry) (ap : Nat) : Prop :=
  e.taken = true ∧ e.answer = .none ∧ ∃ h leaf, e.h = some h ∧ h.bind = .valid leaf ∧ leafAp leaf = ap

/-- The oldest entry of a queue that waits for the answer of its home in an aperture, at the head or behind it (R19, R272). -/
def AwaitsHome (s : State) (k : Stream) (before : List Entry) (e : Entry) (rest : List Entry) (h : Handle) (leaf : Word) (ap : Nat) : Prop :=
  s.cur.queue k = before ++ e :: rest ∧ (∀ x ∈ before, ¬ Waits x ap) ∧ e.taken = true ∧ e.answer = .none ∧ e.h = some h ∧
  h.bind = .valid leaf ∧ leafAp leaf = ap

/-- O41. A posted host write leaves its bytes in a writable local page and is lost where a byte has none; a host read sends the
bytes of a local page and nothing where one has none; an access that was sent to an aperture gets the answer of its home: data,
poisoned data for an error or a timeout (a posted write is lost), or a refusal; the accesses without a handle get it otherwise (R391,
R395, R413, R427). Readings of the model it rests on: log 22, 42. -/
def Obligations.OutsideAccessesAreAnswered : Prop :=
  (∀ (s : State) (ctx : Nat) (va leaf : Word) (a : Nat) (bytes : List Byte), s.MemoryWf → s.Unwatched → RunAt s ctx va leaf a bytes.length →
    ∃ t, exec (.hostWrite ctx va bytes) s = .next t ∧ (∀ j < bytes.length, Mem.read t.hbm (a + j) = bytes.getD j 0) ∧
      (∀ z, z < a ∨ a + bytes.length ≤ z → Mem.read t.hbm z = Mem.read s.hbm z) ∧ t.cur = s.cur ∧ t.others = s.others) ∧
  (∀ (s : State) (ctx : Nat) (va : Word) (bytes : List Byte) (j : Nat), j < bytes.length →
    ((∃ c, s.lookup ctx (va + BitVec.ofNat 64 j) = .error c) ∨ ∃ leaf, s.lookup ctx (va + BitVec.ofNat 64 j) = .ok leaf ∧
      (leafW leaf.1 = false ∨ localHbm leaf.1 = false ∨ leafDlt leaf.1 = true)) →
    exec (.hostWrite ctx va bytes) s = .next s) ∧
  (∀ (s : State) (ctx : Nat) (va leaf : Word) (a n : Nat), s.poison = [] → s.badTags = [] → localHbm leaf = true → leafDlt leaf = false →
    placeOf leaf va 0 = (.hbm, a) → va.toNat % pageBytes (leafSz leaf) + n ≤ pageBytes (leafSz leaf) → s.Maps ctx va leaf →
    exec (.hostRead ctx va n) s = .next { s with sent := s.sent ++ [.hostRead ((List.range n).map fun j => Mem.read s.hbm (a + j)) false] }) ∧
  (∀ (s : State) (ctx : Nat) (va : Word) (n j : Nat), j < n →
    ((∃ c, s.lookup ctx (va + BitVec.ofNat 64 j) = .error c) ∨ ∃ leaf, s.lookup ctx (va + BitVec.ofNat 64 j) = .ok leaf ∧ localHbm leaf.1 = false) →
    exec (.hostRead ctx va n) s = .next { s with sent := s.sent ++ [.hostRead [] false] }) ∧
  (∀ (s : State) (k : Stream) (before : List Entry) (e : Entry) (rest : List Entry) (h : Handle) (leaf : Word),
    AwaitsHome s k before e rest h leaf 2 →
    let failed : Answer := if Instr.writes e.ins e.stream = true then .lost else .poisoned
    exec (.hostCompletionTimeout k) s = .next { s with cur := answered s k before e rest failed } ∧
    (∀ bs, exec (.rootComplexCompletion k bs true) s = .next { s with cur := answered s k before e rest failed }) ∧
    (∀ bs va a, s.MemoryWf → e.runs leaf h.base = [(va, bs.length)] → placeOf leaf va 0 = (.host, a) →
      ∃ m, exec (.rootComplexCompletion k bs false) s = .next { s with hostMem := m, cur := answered s k before e rest .done } ∧
        (∀ j < bs.length, Mem.read m (a + j) = bs.getD j 0) ∧
        ∀ z, z < a ∨ a + bs.length ≤ z → Mem.read m z = Mem.read s.hostMem z)) ∧
  (∀ (s : State) (k : Stream) (before : List Entry) (e : Entry) (rest : List Entry) (h : Handle) (leaf : Word),
    AwaitsHome s k before e rest h leaf 1 →
    (∀ bs bad, exec (.peerHomeAnswer k bs true bad) s = .next { s with cur := answered s k before e rest .refused }) ∧
    (∀ bs, exec (.peerHomeAnswer k bs false true) s = .next { s with cur := answered s k before e rest .poisoned }) ∧
    (∀ bs va a, s.MemoryWf → e.runs leaf h.base = [(va, bs.length)] → placeOf leaf va 0 = (.peer, a) →
      ∃ m, exec (.peerHomeAnswer k bs false false) s = .next { s with peerMem := m, cur := answered s k before e rest .done } ∧
        (∀ j < bs.length, Mem.read m (a + j) = bs.getD j 0) ∧
        ∀ z, z < a ∨ a + bs.length ≤ z → Mem.read m z = Mem.read s.peerMem z)) ∧
  (∀ (s : State) (k : Stream), (∀ e ∈ s.cur.queue k, ¬ Waits e 2) →
    (∀ bs, exec (.rootComplexCompletion k bs false) s = .next s) ∧
    (∀ e rest, s.cur.queue k = e :: rest → (k ≠ .cpy ∨ s.cur.oldestCopy = none) →
      exec (.hostCompletionTimeout k) s = .next { s with cur := s.cur.setQueue k ({ e with away := (2, .poisoned) } :: rest) }) ∧
    (∀ c, k = .cpy → s.cur.oldestCopy = some c →
      exec (.hostCompletionTimeout k) s = .next (withCopy s c.num fun x => { x with away := (2, .poisoned) })))

/-- Some context's page of this module's HBM holds n bytes at an address. -/
def MappedHere (s : State) (pa n : Nat) : Prop :=
  ∃ m ∈ s.mappings, localHbm m.leaf = true ∧ leafPfn m.leaf * 4096 ≤ pa ∧ pa + n ≤ leafPfn m.leaf * 4096 + pageBytes (leafSz m.leaf)

/-- A word access of a peer: its size and the number it leaves (R263 to R272). -/
def peerRow : PeerOp → Option (Nat × (Nat → Nat))
  | .atom o dbl x => some (if dbl then 8 else 4, fun old => atomicValue o (if dbl then 64 else 32) old (x.toNat % 2 ^ (if dbl then 64 else 32)))
  | .cas dbl c new => some (if dbl then 8 else 4, fun old =>
      if old = c.toNat % 2 ^ (if dbl then 64 else 32) then new.toNat % 2 ^ (if dbl then 64 else 32) else old)
  | .fatom o x => some (4, fun old => floatAtomicValue o old x.toNat)
  | _ => none

/-- What this chip answers to a peer. -/
def answers (s : State) (bs : List Byte) (refused poisoned : Bool) : State :=
  { s with sent := s.sent ++ [.peer bs refused poisoned] }

/-- O42. A peer's access to bytes that a context maps performs at its home and answers with the old bytes; one to other bytes,
or a misaligned atomic, is refused; poisoned bytes answer poisoned. Requests of another chip's Pliron hold a page in transit
unless it is pinned or the move bound holds it, shoot it down once nothing running holds it, send its bytes, land them in a free
frame, permit, refuse, or give its mappings a new frame (R360, R395, R401, R413, R422, R423). Readings of the model it rests on: log 37. -/
def Obligations.PeersAccessAndMovePages : Prop :=
  (∀ (s : State) (chip : BitVec 10) (port : BitVec 5) (pa : Nat) (op : PeerOp), ¬ MappedHere s pa (PeerOp.size op) →
    exec (.peerAccessArrival chip port pa op) s = .next (answers s [] true false)) ∧
  (∀ (s : State) (chip : BitVec 10) (port : BitVec 5) (pa n : Nat), MappedHere s pa n → s.poison = [] →
    exec (.peerAccessArrival chip port pa (.load n)) s =
      .next (answers s ((List.range n).map fun j => Mem.read s.hbm (pa + j)) false false)) ∧
  (∀ (s : State) (chip : BitVec 10) (port : BitVec 5) (pa : Nat) (bs : List Byte) (op : PeerOp), MappedHere s pa bs.length → s.MemoryWf →
    op = .store bs ∨ (s.Unwatched ∧ ∃ path src, op = .engineStore path src bs) →
    ∃ t, exec (.peerAccessArrival chip port pa op) s = .next t ∧ t.sent = s.sent ++ [.peer [] false false] ∧ t.cur = s.cur ∧
      (∀ j < bs.length, Mem.read t.hbm (pa + j) = bs.getD j 0) ∧
      ∀ z, z < pa ∨ pa + bs.length ≤ z → Mem.read t.hbm z = Mem.read s.hbm z) ∧
  (∀ (s : State) (chip : BitVec 10) (port : BitVec 5) (pa n : Nat) (op : PeerOp) (f : Nat → Nat), peerRow op = some (n, f) →
    MappedHere s pa n → s.MemoryWf → s.Unwatched →
    (pa % n ≠ 0 → exec (.peerAccessArrival chip port pa op) s = .next (answers s [] true false)) ∧
    (pa % n = 0 → pa / 64 ∈ s.poison → exec (.peerAccessArrival chip port pa op) s = .next (answers s [] false true)) ∧
    (pa % n = 0 → pa / 64 ∉ s.poison →
      ∃ t, exec (.peerAccessArrival chip port pa op) s = .next t ∧ Mem.num t.hbm pa n = f (Mem.num s.hbm pa n) ∧
        t.sent = s.sent ++ [.peer ((List.range n).map fun j => Mem.read s.hbm (pa + j)) false false] ∧ t.cur = s.cur ∧
        ∀ z, z < pa ∨ pa + n ≤ z → Mem.read t.hbm z = Mem.read s.hbm z)) ∧
  (∀ (s : State) (chip : BitVec 10) (port : BitVec 5) (pa : Nat) (lanes : List (Option Lane)), MappedHere s pa (4 * lanes.length) →
    s.MemoryWf → s.Unwatched → s.poison = [] →
    ∃ t, exec (.peerAccessArrival chip port pa (.vfadd lanes)) s = .next t ∧ t.sent = s.sent ++ [.peer [] false false] ∧ t.cur = s.cur ∧
      (∀ j x, lanes[j]? = some (some x) → Mem.num t.hbm (pa + 4 * j) 4 =
        (toF32 ((f32 (BitVec.ofNat 32 (Mem.num s.hbm (pa + 4 * j) 4))).add (f32 x)).1).1.toNat) ∧
      (∀ j, lanes[j]? = some none → Mem.num t.hbm (pa + 4 * j) 4 = Mem.num s.hbm (pa + 4 * j) 4) ∧
      ∀ z, z < pa ∨ pa + 4 * lanes.length ≤ z → Mem.read t.hbm z = Mem.read s.hbm z) ∧
  (∀ (s : State) (chip : BitVec 10) (pa size : Nat),
    let ms := s.pageMappings chip pa size
    let said := fun (m : State) (d : Bool) => ({ m with sent := m.sent ++ [.serviceDone d] } : State)
    let free := fun (l : List (Nat × Nat × Nat)) => l.filter fun r => !(ms.any fun m => m.ctx == r.1 && m.va == r.2.1)
    ((∃ m ∈ ms, leafPin m.leaf = true) ∨ s.isFixed (placesOf ms) = true →
      exec (.peerServiceRequest chip pa size .transit) s = .next (said s false)) ∧
    ((∀ m ∈ ms, leafPin m.leaf = false) → s.isFixed (placesOf ms) = false → exec (.peerServiceRequest chip pa size .transit) s =
      .next (said { s with transit := ms.map (fun m => (m.ctx, m.va, pageBytes (leafSz m.leaf))) ++ s.transit } true)) ∧
    (s.poison = [] → s.badTags = [] → exec (.peerServiceRequest chip pa size .copyOut) s =
      .next { s with sent := s.sent ++ [.page ((List.range size).map fun j => Mem.read s.hbm (pa + j)) [] []] }) ∧
    (∀ bytes poison tags, (bytes.length ≠ size ∨ s.frameFree pa size = false) →
      exec (.peerServiceRequest chip pa size (.copyIn bytes poison tags)) s = .next (said s false)) ∧
    (∀ bytes poison tags, s.MemoryWf → bytes.length = size → s.frameFree pa size = true →
      ∃ t, exec (.peerServiceRequest chip pa size (.copyIn bytes poison tags)) s = .next t ∧ t.sent = s.sent ++ [.serviceDone true] ∧
        (∀ j < size, Mem.read t.hbm (pa + j) = bytes.getD j 0) ∧ (∀ x ∈ poison, x + pa / 64 ∈ t.poison) ∧
        (∀ x ∈ tags, x + pa / 256 ∈ t.badTags) ∧ ∀ z, z < pa ∨ pa + size ≤ z → Mem.read t.hbm z = Mem.read s.hbm z) ∧
    exec (.peerServiceRequest chip pa size .grantRap) s = .next (said s (!ms.isEmpty)) ∧
    exec (.peerServiceRequest chip pa size .refuse) s = .next (said { s with transit := free s.transit } false) ∧
    ((∃ m ∈ ms, s.mayShoot m.ctx m.va (pageBytes (leafSz m.leaf)) = false) →
      exec (.peerServiceRequest chip pa size .shootdown) s = .next s) ∧
    ((∀ m ∈ ms, s.mayShoot m.ctx m.va (pageBytes (leafSz m.leaf)) = true) →
      ∃ t, exec (.peerServiceRequest chip pa size .shootdown) s = .next t ∧ t.sent = s.sent ++ [.serviceDone true] ∧ t.hbm = s.hbm ∧
        (∀ m ∈ ms, ∀ c ∈ t.tlb ++ t.coreTc ++ t.fetchTc, c.ctx = m.ctx → pageMeets m.va (pageBytes (leafSz m.leaf)) c.page c.leaf = false) ∧
        (∀ m ∈ ms, s.cur.pool.ctx = m.ctx → ∀ (h : HReg) (leaf : Word), (s.cur.regs.h.get h.toFin).bind = .valid leaf →
          pageMeets m.va (pageBytes (leafSz m.leaf)) (s.cur.regs.h.get h.toFin).base leaf = true →
          (t.cur.regs.h.get h.toFin).bind = .revoked)) ∧
    (∀ leaf : Word, s.MemoryWf → (∀ m ∈ ms, leafOk (levelOf (leafSz m.leaf)) (retarget m.leaf (leafAp leaf) (leafPfn leaf)) = true) →
      (∀ m ∈ ms, s.mayShoot m.ctx m.va (pageBytes (leafSz m.leaf)) = true) →
      (∀ x ∈ ms, ∀ y ∈ ms, x.entry = y.entry ∧ x.leaf = y.leaf ∨ x.entry + 8 ≤ y.entry ∨ y.entry + 8 ≤ x.entry) →
      ∃ t, exec (.peerServiceRequest chip pa size (.install leaf)) s = .next t ∧ t.sent = s.sent ++ [.serviceDone true] ∧
        t.transit = free s.transit ∧
        (∀ m ∈ ms, let e : Word := BitVec.ofNat 64 (Mem.num t.hbm m.entry 8)
          leafPfn e = leafPfn leaf ∧ leafAp e = leafAp leaf ∧ (∀ j, j < 7 → e.getLsbD j = m.leaf.getLsbD j) ∧
          ∀ j, 9 ≤ j → j < 24 → e.getLsbD j = m.leaf.getLsbD j) ∧
        ∀ z, (∀ m ∈ ms, z < m.entry ∨ m.entry + 8 ≤ z) → Mem.read t.hbm z = Mem.read s.hbm z))

/-! ## Errors, cooling, reset and configuration (R329, R330, R434, R436, R461 to R464, R468, R471, R477, R478) -/

/-- O43. An uncorrectable error poisons its line and no byte changes; a parity error or a broken pool entry writes UE_STATE and
aborts the domain of its task, an unreadable entry every domain with an entry in that die's pool (R329, R330, R434, R436).
Readings of the model it rests on: log 17. -/
def Obligations.ErrorsPoisonOrAbort : Prop :=
  (∀ (s : State) (line : Nat), ∃ p, exec (.lineUncorrectableError line) s = .next { s with poison := p } ∧ ∀ x, x ∈ p ↔ x ∈ s.poison ∨ x = line) ∧
  (∀ (s : State) (pa : Nat), ∃ p, exec (.dcWordUe pa) s = .next { s with poison := p } ∧ ∀ x, x ∈ p ↔ x ∈ s.poison ∨ x = pa / 64) ∧
  (∀ (s : State) (t : Task), s.tasks.find? (·.tid == t.tid) = some t → ∃ bs, bs.head? = some 0x51 ∧
    exec (.parityError t.tid) s = .next ((s.logFault t.pool.ctx t.pool.rcb bs).1.abortDomain t.pool.ctx t.pool.rcb) ∧
    exec (.poolEntryUe t.tid true) s = .next ((s.logFault t.pool.ctx t.pool.rcb bs).1.abortDomain t.pool.ctx t.pool.rcb)) ∧
  (∀ (s : State) (t : Task), s.tasks.find? (·.tid == t.tid) = some t →
    ∃ (l : List (Nat × Word)) (bs : Nat → Word → State → List Byte), l.Nodup ∧ (∀ n r m, (bs n r m).head? = some 0x51) ∧
      (∀ x, x ∈ l ↔ ∃ u ∈ s.tasks, u.pool.die = t.pool.die ∧ x = (u.pool.ctx, u.pool.rcb)) ∧
      exec (.poolEntryUe t.tid false) s =
        .next (l.foldl (fun m x => (m.logFault x.1 x.2 (bs x.1 x.2 m)).1.abortDomain x.1 x.2) s))

/-- No context of a function, nor anything of one, is left; its ring pointers are 0 and no completion is held (R471). -/
def FunctionCleared (s t : State) (fn : Nat) : Prop :=
  (∀ c ∈ t.ctxs, c.fn.toNat ≠ fn) ∧
  (∀ c ∈ s.ctxs, c.fn.toNat = fn → (∀ u ∈ t.tasks, u.pool.ctx ≠ c.number) ∧ (∀ l ∈ t.launches, l.ctx ≠ c.number) ∧
    (∀ x ∈ t.clq, x.ctx ≠ c.number) ∧ (∀ x ∈ t.tlb ++ t.coreTc ++ t.fetchTc, x.ctx ≠ c.number)) ∧
  (∀ c ∈ s.ctxs, c.fn.toNat ≠ fn → ∃ y ∈ t.ctxs, y.number = c.number ∧ y.fn = c.fn ∧ y.root = c.root) ∧
  (let r := t.fnRegs fn
   r.cqTail = 0 ∧ r.cmdHead = 0 ∧ r.cpHead = 0 ∧ r.cplTail = 0 ∧ r.held = none ∧ r.cmdBase = (s.fnRegs fn).cmdBase ∧
     r.cplBase = (s.fnRegs fn).cplBase ∧ r.ctrl = (s.fnRegs fn).ctrl)

/-- Every running task of a context stands with its queues at their pre-emption points, so that an abort discards it at once (R425,
R432). -/
def AtPoints (s : State) (n : Nat) : Prop := ∀ u ∈ s.tasks, u.pool.ctx = n → u.isRunning = true → u.queuesAtPoint = true

/-- Every context of a function has its running tasks at their points. -/
def FunctionAtPoints (s : State) (fn : Nat) : Prop := ∀ c ∈ s.ctxs, c.fn.toNat = fn → AtPoints s c.number

/-- Every task has a handle of its own. -/
def TasksApart (s : State) : Prop := (s.tasks.map fun t => t.tid).Nodup

/-- Every context has a number of its own. -/
def ContextsApart (s : State) : Prop := (s.ctxs.map fun c => c.number).Nodup

/-- O44. Power-on and PERST# run the reset sequence: nothing created is left and every memory of the module reads 0, while the host's and
the peers' memories stand as they were, and the module is ready when all stacks train; a function-level reset destroys its function's
contexts once their tasks have stopped; a die above 110 °C stops every context until reset; a throttle holds for whole cycles, which pass
at the end of the step (R471, R477, R478). Readings of the model it rests on: log 43, 44; that a function-level reset acts at once on
tasks at their points and goes on in later steps for the others is its choice (log 41), and so is the number that the first context gets
(log 46). -/
def Obligations.ResetsClearWhatTheyCover : Prop :=
  (∀ (s : State) (i : Instr), i = .powerOn ∨ i = .perstAssert → ∃ t, exec i s = .next t ∧ t.ctxs = [] ∧ t.launches = [] ∧ t.clq = [] ∧
    t.tasks = [] ∧ t.waiting = [] ∧ t.hbm = [] ∧ t.csram = [] ∧ t.poison = [] ∧ t.counters = [] ∧ t.lost = [] ∧ t.tlb = [] ∧
    t.nextCtx = 1 ∧ t.thermal = false ∧ t.now = 0 ∧ (t.isReady = true ↔ t.trained = 0xFF) ∧ t.resetting = !t.isReady ∧
    t.hostMem = s.hostMem ∧ t.peerMem = s.peerMem ∧ (∀ fn, (t.fnRegs fn).enabled = decide (fn = 0)) ∧ ∀ fn, (t.fnRegs fn).ctrl = 0) ∧
  (∀ (s : State) (fn : BitVec 11), s.serving = false → exec (.functionLevelReset fn) s = .next s) ∧
  (∀ (s : State) (fn : BitVec 11), s.serving = true → ContextsApart s →
    (FunctionAtPoints s fn.toNat →
      ∃ t, exec (.functionLevelReset fn) s = .next t ∧ FunctionCleared s t fn.toNat ∧ t.sent = s.sent ∧ fn.toNat ∉ t.flrs) ∧
    (TasksApart s → (∃ c ∈ s.ctxs, c.fn.toNat = fn.toNat ∧ ∃ u ∈ s.tasks, u.pool.ctx = c.number ∧ u.isRunning = true ∧
        u.queuesAtPoint = false ∧ u.flow.page = none) →
      ∃ t, exec (.functionLevelReset fn) s = .next t ∧ fn.toNat ∈ t.flrs ∧ t.ctxs.map (·.number) = s.ctxs.map (·.number))) ∧
  (∀ (s : State) (die : BitVec 2) (temp : BitVec 8), ContextsApart s → (∀ c ∈ s.ctxs, c.fn.toNat ∈ s.fns.map (·.1)) →
    (∀ c ∈ s.ctxs, AtPoints s c.number) →
    ∃ t, exec (.thermalTrip die temp) s = .next t ∧ (∀ d : Fin 4, t.dieTemp.extractLsb' (8 * d.val) 8 =
        if d.val = die.toNat then temp else s.dieTemp.extractLsb' (8 * d.val) 8) ∧
      (temp.toNat ≤ 110 → t = { s with dieTemp := t.dieTemp }) ∧
      (110 < temp.toNat → t.thermal = true ∧ t.isReady = false ∧ t.resetting = true ∧ t.ctxs = [] ∧
        ∀ c ∈ s.ctxs, ∀ u ∈ t.tasks, u.pool.ctx ≠ c.number)) ∧
  (∀ (s : State) (cycles : Nat), exec (.throttleHold cycles) s =
    .next { s with throttle := true, throttled := s.throttled + cycles, hold := s.hold + cycles }) ∧
  (∀ s : State, s.passTime.hold = 0 ∧ s.passTime.now = s.now + s.cycles + s.hold ∧ 0 < s.cycles ∧ s.passTime.cur.regs = s.cur.regs ∧
    s.passTime.hbm = s.hbm)

/-- A doorbell register of a function changed. -/
def withFn (s : State) (fn : BitVec 11) (f : FnRegs → FnRegs) : State :=
  { s with fns := s.fns.map fun x => if x.1 = fn.toNat then (fn.toNat, f x.2) else x }

/-- The doorbell page of a function: the registers a write changes (R464 Table 8). -/
def doorbellRow (r : FnRegs) : Instr → Option (BitVec 11 × (FnRegs → FnRegs))
  | .cqtailDoorbell fn v => some (fn, fun x => { x with cqTail := v })
  | .ctrlWrite fn v => some (fn, fun x =>
      if 8 ≤ v.toNat then x
      else if v.getLsbD 0 = true ∧ r.ctrl.getLsbD 0 = false then
        { x with ctrl := v, cqTail := 0, cmdHead := 0, cpHead := 0, cplTail := 0, held := none }
      else { x with ctrl := v })
  | .doorbellRegisterWrite fn off v => some (fn, fun x =>
      let sizeOk := ∃ k ∈ Finset.range 9, v.toNat = 2 ^ (k + 4)
      if r.ctrl.getLsbD 0 = true then x
      else if off = 0x000 ∧ v.toNat % 4096 = 0 then { x with cmdBase := v }
      else if off = 0x008 ∧ sizeOk then { x with cmdSize := BitVec.ofNat 32 v.toNat }
      else if off = 0x018 ∧ v.toNat % 4096 = 0 then { x with cplBase := v }
      else if off = 0x020 ∧ sizeOk then { x with cplSize := BitVec.ofNat 32 v.toNat }
      else x)
  | _ => none

/-- O45. Doorbell writes of an enabled function change their register, and nothing while the module does not serve: CTRL starts
the rings at 0, bases and sizes change only while the rings are off, CPHEAD and PRDB free entries and let what waits for them be
written; a configuration request before step 7 is retried, and one that sets NumVFs enables those functions (R461, R464, R468,
R477). Readings of the model it rests on: log 43. -/
def Obligations.DoorbellsChangeTheirRegister : Prop :=
  (∀ (s : State) (i : Instr) (fn : BitVec 11) (f : FnRegs → FnRegs), doorbellRow (s.fnRegs fn.toNat) i = some (fn, f) →
    exec i s = .next (if s.serving = true ∧ (s.fnRegs fn.toNat).enabled = true then withFn s fn f else s)) ∧
  (∀ (s : State) (fn : BitVec 11) (v : BitVec 32) (w : Word), s.serving = false ∨ (s.fnRegs fn.toNat).enabled = false →
    exec (.cpheadWrite fn v) s = .next s ∧ exec (.prdbWrite fn w) s = .next s) ∧
  (∀ (s : State) (fn : BitVec 11) (v : BitVec 32), s.serving = true → (s.fnRegs fn.toNat).enabled = true →
    ((s.fnRegs fn.toNat).held = none → exec (.cpheadWrite fn v) s = .next (withFn s fn fun r => { r with cpHead := v })) ∧
    (∀ tag st res, (s.fnRegs fn.toNat).held = some (tag, st, res) →
      exec (.cpheadWrite fn v) s = .next ((withFn s fn fun r => { r with cpHead := v }).complete? fn.toNat tag st res))) ∧
  (∀ (s : State) (fn : BitVec 11) (v : Word) (k : Ctx), s.serving = true → (s.fnRegs fn.toNat).enabled = true →
    s.ctx? (v.toNat / 2 ^ 32) = some k → k.fn = fn →
    ∃ t y, exec (.prdbWrite fn v) s = .next t ∧ t.ctx? (v.toNat / 2 ^ 32) = some y ∧ y.prRead = BitVec.ofNat 32 v.toNat ∧
      (∀ u ∈ s.tasks, u.pool.ctx = k.number → ∀ x, u.flow.page = some x →
        (x.va &&& 0xFFFFFFFFFFFFF000) ∈ y.posted ∨ y.prSize ≤ (y.prWrite - y.prRead).toNat) ∧
      (∀ p ∈ k.posted, p ∈ y.posted) ∧ t.hbm = s.hbm ∧ t.cur = s.cur ∧ t.others = s.others) ∧
  (∀ (s : State) (fn : BitVec 11) (v : Word), (∀ k, s.ctx? (v.toNat / 2 ^ 32) = some k → k.fn ≠ fn) → exec (.prdbWrite fn v) s = .next s) ∧
  (∀ (s : State) (fn : BitVec 11) (w : Bool) (n : BitVec 16),
    (s.serving = false → exec (.configurationRequest fn w n) s = .next { s with sent := s.sent ++ [.configRetry] }) ∧
    (s.serving = true → ∃ t, exec (.configurationRequest fn w n) s = .next t ∧ t.sent = s.sent ++ [.configDone] ∧ t.ctxs = s.ctxs ∧
      (w = true → fn = 0 → n.toNat ≤ 1024 → ∀ j ≤ 1024, (t.fnRegs j).enabled = true ↔ j ≤ n.toNat ∧ (j ≠ 0 ∨ (s.fns.lookup 0).isSome = true)) ∧
      (¬(w = true ∧ fn = 0 ∧ n.toNat ≤ 1024) → t.fns = s.fns)))

/-! ## Commands of Pliron (R348, R412, R413, R439, R447 to R458, R463 to R473) -/

/-- The command entry of a command, and whether it names a context. -/
def cmdIn : Instr → Option (Cmd × Bool)
  | .createContext c .. | .resetFunction c _ => some (c, false)
  | .destroyContext c | .map c .. | .unmap c .. | .pin c _ | .registerTemplate c _ | .launch c .. | .abortRcb c _ => some (c, true)
  | .readFaultLog c .. | .buffersRead c .. | .buffersReadClear c .. | .buffersClear c .. | .buffersProgram c .. | .attest c => some (c, true)
  | .traceSet c .. | .traceRead c | .traceSettail c _ => some (c, true)
  | .debugAttach c | .debugDetach c | .debugHalt c | .debugResume c | .debugStep c _ => some (c, true)
  | _ => none

/-- A command may be executed (R464). -/
def CommandDue (s : State) (c : Cmd) : Prop := s.commandWaits c.fn.toNat = true

/-- A command may be executed and names a context of its function. -/
def CommandOn (s : State) (c : Cmd) (k : Ctx) : Prop := CommandDue s c ∧ s.ctx? c.ctx.toNat = some k ∧ k.fn = c.fn

/-- O46. A command is executed only while its function's rings run and no completion is held; one that names no context of its
function completes with BAD_CONTEXT. Each completes with its TAG, status, PHASE and result at CPLTAIL, and is held while the
completion ring is full (R461, R463, R464). -/
def Obligations.CommandsCompleteInTheirRing : Prop :=
  (∀ (s : State) (i : Instr) (c : Cmd) (x : Bool), cmdIn i = some (c, x) →
    (¬ CommandDue s c → exec i s = .next s) ∧
    (x = true → CommandDue s c → (∀ k, s.ctx? c.ctx.toNat = some k → k.fn ≠ c.fn) → exec i s = .next (s.reply c 2 0))) ∧
  (∀ (s : State) (c : Cmd), CommandDue s c ↔ s.isReady = true ∧ s.resetting = false ∧ s.thermal = false ∧
    (let r := s.fnRegs c.fn.toNat
     r.enabled = true ∧ r.ctrl.getLsbD 0 = true ∧ r.cmdHead ≠ r.cqTail ∧ r.held = none)) ∧
  (∀ (s : State) (c : Cmd) (st : BitVec 16) (res : Word) (r : FnRegs), s.MemoryWf → s.fns.lookup c.fn.toNat = some r →
    (r.cplSize.toNat ≤ (r.cplTail - r.cpHead).toNat → s.reply c st res =
      withFn s c.fn fun x => { x with cmdHead := x.cmdHead + 1, held := some (c.tag, st, res) }) ∧
    (∀ a, (r.cplTail - r.cpHead).toNat < r.cplSize.toNat →
      a = (r.cplBase + BitVec.ofNat 64 (16 * (r.cplTail.toNat % r.cplSize.toNat))).toNat →
      let t := s.reply c st res
      Mem.num t.hostMem a 4 = c.tag.toNat ∧ Mem.num t.hostMem (a + 4) 2 = st.toNat ∧
      Mem.num t.hostMem (a + 6) 2 = (r.cplTail.toNat / r.cplSize.toNat + 1) % 2 ∧ Mem.num t.hostMem (a + 8) 8 = res.toNat ∧
      (∀ z, z < a ∨ a + 16 ≤ z → Mem.read t.hostMem z = Mem.read s.hostMem z) ∧
      t.sent = (if r.ctrl.getLsbD 1 then s.sent ++ [.msix c.fn.toNat 0] else s.sent) ∧
      t.fns = (withFn s c.fn fun x => { x with cmdHead := x.cmdHead + 1, cplTail := x.cplTail + 1, held := none }).fns ∧
      t.hbm = s.hbm ∧ t.ctxs = s.ctxs ∧ t.cur = s.cur ∧ t.others = s.others))

/-- The arguments of CREATE_CONTEXT are in range (R467 Table 9). -/
def CreateArgs (mib : BitVec 32) (spill : BitVec 16) (first count : BitVec 8) (base : Word) (size : BitVec 32) : Prop :=
  mib.toNat ≤ 4096 ∧ spill.toNat ≤ 256 ∧ first.toNat + count.toNat ≤ 256 ∧ base.toNat % 4096 = 0 ∧
  ∃ k, 4 ≤ k ∧ k ≤ 12 ∧ size.toNat = 2 ^ k

/-- A channel of the run belongs to a context. -/
def ChannelTaken (s : State) (first count : BitVec 8) : Prop :=
  ∃ k ∈ s.ctxs, ∃ x, first.toNat ≤ x ∧ x < first.toNat + count.toNat ∧ k.chanFirst ≤ x ∧ x < k.chanFirst + k.chanCount

/-- A context as CREATE_CONTEXT makes it (R466): its number, function, reserves, channels and ring; the VA of its root RCB is the
model's choice (log 9). -/
def Created (s : State) (c : Cmd) (mib : BitVec 32) (spill : BitVec 16) (first count : BitVec 8) (base : Word) (size : BitVec 32) (y : Ctx) :
    Prop :=
  y.number = s.nextCtx ∧ y.fn = c.fn ∧ y.privileged = false ∧ y.skBytes = mib.toNat * 2 ^ 20 ∧ y.spillUnits = spill.toNat ∧
  y.chanFirst = first.toNat ∧ y.chanCount = count.toNat ∧ y.prBase = base.toNat ∧ y.prSize = size.toNat ∧ y.prRead = 0 ∧ y.prWrite = 0 ∧
  y.attached = false ∧ y.halted = false ∧ y.trace = none ∧ y.rootRcb = ((0 : BitVec 8) ++ Config.rootRcbPage s.nextCtx) ++ (0 : BitVec 16) ∧
  (y.reserves.map (·.2)).sum = 4 * (mib.toNat * 2 ^ 20 + spill.toNat * 65536) ∧
  ∀ r ∈ y.reserves, r.1 % 2 ^ 37 + r.2 ≤ backingBase

/-- O47. CREATE_CONTEXT answers BAD_ARG for an argument out of range and NO_RESOURCE for a taken channel, or a short reserve, and
otherwise makes a context with its reserves below the task backing and writes its root RCB's VA to HBUF; DESTROY_CONTEXT and
RESET_FUNCTION leave nothing of what they destroy, once the tasks have stopped (R348, R466, R471). The model's choices: the root RCB's VA
(log 9), a context's number (log 46), the place of RESET_FUNCTION's completion for its own function, and completion in the step in which no
running task is left (log 41). -/
def Obligations.ContextsAreCreatedAndDestroyed : Prop :=
  (∀ (s : State) (c : Cmd) (mib : BitVec 32) (spill : BitVec 16) (first count : BitVec 8) (base : Word) (size : BitVec 32), CommandDue s c →
    let made := exec (.createContext c mib spill first count base size) s
    (¬ CreateArgs mib spill first count base size → made = .next (s.reply c 1 0)) ∧
    (CreateArgs mib spill first count base size → ChannelTaken s first count → made = .next (s.reply c 3 0)) ∧
    (CreateArgs mib spill first count base size → ¬ ChannelTaken s first count → (∀ k ∈ s.ctxs, k.number < s.nextCtx) → s.MemoryWf →
      (made = .next (s.reply c 3 0) ∨
        ∃ (m : State) (y : Ctx), made = .next ((m.hostPut c.hbuf (leBytes 8 y.rootRcb.toNat)).reply c 0 (BitVec.ofNat 64 (s.nextCtx * 2 ^ 32))) ∧
          m.ctxs = s.ctxs ++ [y] ∧ Created s c mib spill first count base size y ∧ m.nextCtx = s.nextCtx + 1 ∧
          m.hostMem = s.hostMem ∧ m.cur = s.cur ∧ m.others = s.others) ∧
      (s.ctxs = [] → made ≠ .next (s.reply c 3 0)))) ∧
  (∀ (s : State) (c : Cmd) (k : Ctx), CommandOn s c k → ContextsApart s → AtPoints s k.number →
    ∃ m : State, exec (.destroyContext c) s = .next (m.reply c 0 0) ∧ m.ctxs.map (·.number) = (s.ctxs.map (·.number)).filter (· != k.number) ∧
      (∀ u ∈ m.tasks, u.pool.ctx ≠ k.number) ∧ (∀ l ∈ m.launches, l.ctx ≠ k.number) ∧ (∀ x ∈ m.clq, x.ctx ≠ k.number) ∧
      (∀ x ∈ m.waiting, x.pool.ctx ≠ k.number) ∧ (∀ x ∈ m.walks, x.ctx ≠ k.number) ∧
      (∀ x ∈ m.tlb ++ m.coreTc ++ m.fetchTc, x.ctx ≠ k.number) ∧ m.fns = s.fns) ∧
  (∀ (s : State) (c : Cmd) (fn : BitVec 16), CommandDue s c →
    (1024 < fn.toNat → exec (.resetFunction c fn) s = .next (s.reply c 1 0)) ∧
    (fn.toNat ≤ 1024 → c.fn ≠ 0 → fn.toNat ≠ c.fn.toNat → exec (.resetFunction c fn) s = .next (s.reply c 2 0)) ∧
    (fn.toNat ≤ 1024 → c.fn = 0 → fn.toNat ≠ 0 → ContextsApart s → FunctionAtPoints s fn.toNat →
      ∃ m : State, exec (.resetFunction c fn) s = .next (m.reply c 0 0) ∧ FunctionCleared s m fn.toNat ∧ m.sent = s.sent) ∧
    (fn.toNat = c.fn.toNat → ContextsApart s → fn.toNat ≤ 1024 → FunctionAtPoints s fn.toNat →
      ∃ m : State, exec (.resetFunction c fn) s = .next (m.complete? fn.toNat c.tag 0 0) ∧ FunctionCleared s m fn.toNat ∧ m.sent = s.sent))

/-- The place of a VA's entry at a level below a table, through valid pointers to tables, and the places of those pointers
(R410, R411). -/
def entryAt (hbm : Mem) (va target : Nat) : Nat → Nat → Option (Nat × List Nat)
  | 0, table => some (table + 8 * (va / 2 ^ (12 + 9 * target) % 512), [])
  | up + 1, table =>
    let at_ := table + 8 * (va / 2 ^ (12 + 9 * (target + up + 1)) % 512)
    if Mem.num hbm at_ 8 % 2 ^ 24 = 1 then (entryAt hbm va target up (Mem.num hbm at_ 8 / 2 ^ 24 * 4096)).map fun r => (r.1, at_ :: r.2)
    else none

/-- The level of a leaf of a size code (R411). -/
def leafLevel (sz : Nat) : Nat := if sz ≤ 1 then 0 else sz - 1

/-- The HBM range that a MAP of a leaf may change: its entry, or the group of 16 that a level-0 leaf stands in (R412). -/
def mapSpan (leaf : Word) (at_ : Nat) : Nat × Nat := if leafSz leaf ≤ 1 then (at_ / 128 * 128, 128) else (at_, 8)

/-- MAP accepts a leaf for a VA (R413, R467). -/
def LeafFits (va leaf : Word) : Prop := canonical va = true ∧ leafV leaf = true ∧ leafOk (leafLevel (leafSz leaf)) leaf = true

/-- A frame of local HBM lies in a task-backing region or in a reserve (R348). -/
def FrameRefused (s : State) (leaf : Word) : Prop :=
  let pa := leafPfn leaf * 4096
  let n := if leafDlt leaf then 8192 else pageBytes (leafSz leaf)
  leafAp leaf = 0 ∧ pa < 2 ^ 39 ∧ (backingBase < pa % 2 ^ 37 + n ∨ ∃ k ∈ s.ctxs, ∃ u ∈ k.reserves, pa < u.1 + u.2 ∧ u.1 < pa + n)

/-- O48. MAP writes its leaf, which the VA translates to from then on, answers the tasks that wait for the page, and changes no
byte of HBM outside the leaf's entry or group where its tables stand; it refuses what R413 and R348 refuse. UNMAP clears V and
the translations of the mapped pages; PIN sets PIN of a local 2 MiB page. Each waits while something running holds a translation
it would change (R348, R413, R417, R420, R424, R467). Readings of the model it rests on: log 35, 36. -/
def Obligations.PagesAreMappedUnmappedAndPinned : Prop :=
  (∀ (s : State) (c : Cmd) (k : Ctx) (va leaf : Word), CommandOn s c k →
    (¬ LeafFits va leaf → exec (.map c va leaf) s = .next (s.reply c 1 0)) ∧
    (LeafFits va leaf → FrameRefused s leaf → exec (.map c va leaf) s = .next (s.reply c 8 0)) ∧
    (LeafFits va leaf → ¬ FrameRefused s leaf →
      let r := s.mapRange k.number va leaf
      (s.mayShoot k.number r.1 r.2 true = false → exec (.map c va leaf) s = .next s) ∧
      (s.mayShoot k.number r.1 r.2 true = true → s.mapLeaf k.number va leaf = none → exec (.map c va leaf) s = .next (s.reply c 3 0)) ∧
      (∀ at_ ups, s.mayShoot k.number r.1 r.2 true = true → s.MemoryWf → k.root % 4096 = 0 →
        entryAt s.hbm va.toNat (leafLevel (leafSz leaf)) (4 - leafLevel (leafSz leaf)) k.root = some (at_, ups) →
        (∀ u ∈ ups, u / 4096 ≠ at_ / 4096) →
        ∃ (m : State) (p : Nat), exec (.map c va leaf) s = .next (m.reply c 0 0) ∧ m.lookup k.number va = .ok (leaf, p) ∧
          (∀ z, z < (mapSpan leaf at_).1 ∨ (mapSpan leaf at_).1 + (mapSpan leaf at_).2 ≤ z → Mem.read m.hbm z = Mem.read s.hbm z) ∧
          (∀ x ∈ m.tlb ++ m.coreTc ++ m.fetchTc, x.ctx = k.number → pageMeets r.1 r.2 x.page x.leaf = false) ∧
          (∀ u ∈ s.others, u.pool.ctx = k.number → u.status = .suspended →
            (∃ f, u.flow.page = some f ∧ pageOf leaf va ≤ f.va.toNat ∧ f.va.toNat < pageOf leaf va + pageBytes (leafSz leaf)) →
            ∃ v ∈ m.others, v.pool = u.pool ∧ v.status = .ready ∧ v.flow.page = none ∧ v.flow.ready = some s.now)))) ∧
  (∀ (s : State) (c : Cmd) (k : Ctx) (va : Word) (count : BitVec 32), CommandOn s c k →
    ((count = 0 ∨ 2 ^ 20 < count.toNat ∨ ∃ e, s.lookup k.number va = .error e) → exec (.unmap c va count) s = .next (s.reply c 1 0)) ∧
    (count ≠ 0 → count.toNat ≤ 2 ^ 20 → (∃ leaf, s.Maps k.number va leaf) →
      let pages := s.unmapRun k.number count.toNat va.toNat
      ((∃ p ∈ pages, s.mayShoot k.number p.1 p.2.1 = false) → exec (.unmap c va count) s = .next s) ∧
      ((∀ p ∈ pages, s.mayShoot k.number p.1 p.2.1 = true) → s.MemoryWf → k.root % 4096 = 0 →
        ∃ m : State, exec (.unmap c va count) s = .next (m.reply c 0 0) ∧
          (∀ p ∈ pages, Mem.num m.hbm p.2.2 8 = Mem.num s.hbm p.2.2 8 / 2 * 2 ∧
            ∀ x ∈ m.tlb ++ m.coreTc ++ m.fetchTc, x.ctx = k.number → pageMeets p.1 p.2.1 x.page x.leaf = false) ∧
          (∀ z, (∀ p ∈ pages, z ≠ p.2.2) → Mem.read m.hbm z = Mem.read s.hbm z) ∧
          (∀ leaf pa, s.lookup k.number va = .ok (leaf, pa) → leafSz leaf ≠ 1 → m.lookup k.number va = .error 0x10)))) ∧
  (∀ (s : State) (c : Cmd) (k : Ctx) (va : Word), CommandOn s c k →
    ((∃ e, s.lookup k.number va = .error e) → exec (.pin c va) s = .next (s.reply c 1 2)) ∧
    (∀ leaf at_, s.lookup k.number va = .ok (leaf, at_) →
      (leafSz leaf ≠ 2 ∨ leafAp leaf ≠ 0 → exec (.pin c va) s = .next (s.reply c 1 1)) ∧
      (leafSz leaf = 2 → leafAp leaf = 0 → leafPin leaf = true → exec (.pin c va) s = .next (s.reply c 0 0)) ∧
      (leafSz leaf = 2 → leafAp leaf = 0 → leafPin leaf = false → s.mayShoot k.number (pageOf leaf va) (2 ^ 21) = false →
        exec (.pin c va) s = .next s) ∧
      (leafSz leaf = 2 → leafAp leaf = 0 → leafPin leaf = false → s.mayShoot k.number (pageOf leaf va) (2 ^ 21) = true → s.MemoryWf →
        ∃ m : State, exec (.pin c va) s = .next (m.reply c 0 0) ∧ BitVec.ofNat 64 (Mem.num m.hbm at_ 8) = leaf ||| 0x2000 ∧
          ∀ z, z < at_ ∨ at_ + 8 ≤ z → Mem.read m.hbm z = Mem.read s.hbm z)))

/-- The edges of a registration record (R469 Table 10). -/
def recordEdge (s : State) (a : Nat) (j : Nat) : Nat × Nat :=
  (Mem.read s.hostMem (a + 0x18 + 2 * j + 1) |>.toNat, Mem.read s.hostMem (a + 0x18 + 2 * j) |>.toNat)

/-- O49. REGISTER_TEMPLATE writes its entry with VALID and SEMOK for edges without a cycle, and with VALID = 0 and SEMGRAPH for a cycle;
for ENTRY 0 it withdraws with VALID = 0; LAUNCH queues the launch its packet describes, or answers BAD_ARG or BAD_RCB; ABORT_RCB leaves no
task of the fault domain once each stands at its points; READ_FAULT_LOG copies the records from FLOGTAIL up and advances it (R28, R33 to
R37, R51, R466, R467, R469). Readings of the model it rests on: log 21, 40, 59. -/
def Obligations.TemplatesLaunchesAndLogs : Prop :=
  (∀ (s : State) (c : Cmd) (k : Ctx) (ttbl leaf eleaf : Word) (h a index count spp : Nat) (entry trcb va : Word), CommandOn s c k → s.MemoryWf →
    h = c.hbuf.toNat → h + 24 + 2 * count < 2 ^ 64 → index = Mem.num s.hostMem h 2 → count = Mem.num s.hostMem (h + 2) 2 →
    spp = Mem.num s.hostMem (h + 4) 1 → entry = BitVec.ofNat 64 (Mem.num s.hostMem (h + 8) 8) →
    trcb = BitVec.ofNat 64 (Mem.num s.hostMem (h + 16) 8) → va = ttbl + BitVec.ofNat 64 (32 * index) →
    (ttbl.toNat % 32 ≠ 0 ∨ 1024 ≤ index ∨ 1024 < count ∨ spp = 0 ∨ 32 < spp ∨ Mem.num s.hostMem (h + 5) 3 ≠ 0 ∨
        (∃ j < count, 32 ≤ (recordEdge s h j).1 ∨ 32 ≤ (recordEdge s h j).2) →
      exec (.registerTemplate c ttbl) s = .next (s.reply c 1 0)) ∧
    (ttbl.toNat % 32 = 0 → index < 1024 → count ≤ 1024 → 1 ≤ spp → spp ≤ 32 → Mem.num s.hostMem (h + 5) 3 = 0 →
      (∀ j < count, (recordEdge s h j).1 < 32 ∧ (recordEdge s h j).2 < 32) → RunAt s k.number va leaf a 32 →
      (entry ≠ 0 → (entry.toNat % 32 ≠ 0 ∨ (∃ e, s.lookup k.number entry = .error e) ∨ (s.Maps k.number entry eleaf ∧ leafX eleaf = false)) →
        exec (.registerTemplate c ttbl) s = .next (s.reply c 1 0)) ∧
      (∀ st valid, (entry = 0 ∨ (entry.toNat % 32 = 0 ∧ s.Maps k.number entry eleaf ∧ leafX eleaf = true)) →
        TablesKeep s k.number (fun z => a ≤ z ∧ z < a + 32) →
        ((st = 0 ∧ (valid = true ↔ entry ≠ 0) ∧ ∃ rank : Nat → Nat, ∀ j < count, rank (recordEdge s h j).1 < rank (recordEdge s h j).2) ∨
         (st = 5 ∧ valid = false ∧ ∃ p : Nat → Nat, ∀ n, ∃ j < count, recordEdge s h j = (p n, p (n + 1)))) →
        ∃ m : State, exec (.registerTemplate c ttbl) s = .next (m.reply c st 0) ∧ Mem.num m.hbm a 8 = entry.toNat ∧
          Mem.num m.hbm (a + 8) 2 = spp ∧ Mem.num m.hbm (a + 0x0A) 2 = (if valid then 3 else 0) ∧ Mem.num m.hbm (a + 0x10) 8 = trcb.toNat ∧
          (∀ z, z < a ∨ a + 32 ≤ z → Mem.read m.hbm z = Mem.read s.hbm z) ∧ m.cur = s.cur ∧ m.others = s.others))) ∧
  (∀ (s : State) (c : Cmd) (k : Ctx) (q csz cfmt : BitVec 8) (packet csva leaf : Word) (a : Nat), CommandOn s c k →
    let due := exec (.launch c q packet csva csz cfmt) s
    let num := fun off n => Mem.num s.hbm (a + off) n
    (64 ≤ q.toNat ∨ packet.toNat % 128 ≠ 0 ∨ csva.toNat % 65536 ≠ 0 ∨ 64 < csz.toNat ∨ (csz = 0 ∧ csva ≠ 0) ∨ 128 ≤ cfmt.toNat →
      due = .next (s.reply c 1 0)) ∧
    (q.toNat < 64 → packet.toNat % 128 = 0 → csva.toNat % 65536 = 0 → csz.toNat ≤ 64 → (csz = 0 → csva = 0) → cfmt.toNat < 128 →
      s.Maps k.number packet leaf → placeOf leaf packet 0 = (.hbm, a) →
      let fits := num 8 4 ≠ 0 ∧ num 8 4 ≤ 2 ^ 24 ∧ num 0x0C 4 ≤ 1 ∧ num 0 8 % 64 = 0 ∧ num 0x20 8 % 8 = 0 ∧ num 0x30 80 = 0
      let lrcb := BitVec.ofNat 64 (num 0x10 8)
      (¬ fits → due = .next (s.reply c 1 0)) ∧
      (fits → s.launchChain k.number chainFuel [] lrcb = none → due = .next (s.reply c 4 0)) ∧
      (∀ chain, fits → s.launchChain k.number chainFuel [] lrcb = some chain → chainClean chain = false → due = .next (s.reply c 4 0)) ∧
      (∀ chain, fits → s.launchChain k.number chainFuel [] lrcb = some chain → chainClean chain = true →
        ∃ (m : State) (l : Launch), due = .next (m.reply c 0 0) ∧ m.launches = s.launches ++ [l] ∧ l.serial = s.nextSerial ∧
          m.nextSerial = s.nextSerial + 1 ∧ l.ctx = k.number ∧ l.queue.toNat = q.toNat ∧ l.nodeTbl.toNat = num 0 8 ∧ l.nodeCnt = num 8 4 ∧
          (l.overlap = true ↔ num 0x0C 4 = 1) ∧ l.lrcb = lrcb ∧ l.lttbl.toNat = num 0x18 8 ∧ l.doneVa.toNat = num 0x20 8 ∧
          l.doneVal.toNat = num 0x28 8 ∧ l.csVa = csva ∧ l.csSz = csz.toNat ∧ l.csFmt = cfmt ∧ l.accepted = false ∧ l.dead = false ∧
          l.nodes = [] ∧ (∀ d, l.passed.get d = false ∧ l.cursor.get d = []) ∧
          l.prev = (s.lastLaunch.lookup (s.fnOf k.number * 64 + q.toNat)).getD 0 ∧
          m.lastLaunch.lookup (s.fnOf k.number * 64 + q.toNat) = some s.nextSerial ∧ m.hbm = s.hbm ∧ m.cur = s.cur ∧ m.others = s.others))) ∧
  (∀ (s : State) (c : Cmd) (k : Ctx) (rcb : Word), CommandOn s c k →
    (rcb.toNat % 256 ≠ 0 ∨ s.writableVia k.number rcb 256 = false → exec (.abortRcb c rcb) s = .next (s.reply c 1 0)) ∧
    (rcb.toNat % 256 = 0 → s.writableVia k.number rcb 256 = true → (∀ u ∈ s.cur :: s.others, u.flow.page = none ∧ u.flow.service = none) →
      (∀ l ∈ s.launches, l.page = none) → AtPoints s k.number →
      ∃ m : State, exec (.abortRcb c rcb) s = .next (m.reply c 0 0) ∧ m.ctxs.map (·.number) = s.ctxs.map (·.number) ∧
        (∀ u ∈ m.tasks, u.pool.ctx = k.number → s.below k.number (s.domainOf k.number rcb) u.pool.rcb (s.poolImage u.pool) = false) ∧
        m.launches = s.launches)) ∧
  (∀ (s : State) (c : Cmd) (k : Ctx) (rcb leaf leaf2 : Word) (max : BitVec 32) (a b n : Nat) (e : Eff), CommandOn s c k → s.MemoryWf →
    (max = 0 ∨ 65536 < max.toNat ∨ s.readVia k.number rcb 256 = none → exec (.readFaultLog c rcb max) s = .next (s.reply c 1 0)) ∧
    (max ≠ 0 → max.toNat ≤ 65536 → s.readVia k.number rcb 256 ≠ none → e = s.effOf k.number rcb → RunAt s k.number e.flogRcb leaf a 256 →
      1 ≤ e.flogN → RunAt s k.number e.flogVa leaf2 b (64 * e.flogN) →
      let tail := Mem.num s.hbm (a + 0x30) 4
      n = min max.toNat (min ((Mem.num s.hbm (a + 0x2C) 4 + 2 ^ 32 - tail) % 2 ^ 32) e.flogN) → c.hbuf.toNat + 64 * n < 2 ^ 64 →
      ∃ m : State, exec (.readFaultLog c rcb max) s =
          .next (m.reply c 0 (BitVec.ofNat 64 (Mem.num s.hbm (a + 0x34) 4 * 2 ^ 32 + n))) ∧
        (∀ j < n, ∀ i < 64, Mem.read m.hostMem (c.hbuf.toNat + 64 * j + i) = Mem.read s.hbm (b + 64 * ((tail + j) % e.flogN) + i)) ∧
        (∀ z, z < c.hbuf.toNat ∨ c.hbuf.toNat + 64 * n ≤ z → Mem.read m.hostMem z = Mem.read s.hostMem z) ∧
        Mem.num m.hbm (a + 0x30) 4 = (tail + n) % 2 ^ 32 ∧
        (∀ z, z < a + 0x30 ∨ a + 0x34 ≤ z → Mem.read m.hbm z = Mem.read s.hbm z) ∧ m.cur = s.cur ∧ m.others = s.others))

/-- An operation of READ_BUFFER_COUNTERS (R455): its run of tags, whether it reads, and what it leaves. -/
def counterRow : Instr → Option (Cmd × BitVec 8 × BitVec 16 × BitVec 16 × Bool × (Counter → Counter))
  | .buffersRead c die first count => some (c, die, first, count, true, fun x => x)
  | .buffersReadClear c die first count => some (c, die, first, count, true, fun x => { ctl := x.ctl })
  | .buffersClear c die first count => some (c, die, first, count, false, fun x => { ctl := x.ctl })
  | .buffersProgram c die first count ctl => if ctl.toNat < 2 ^ 13 then some (c, die, first, count, false, fun x => { x with ctl }) else none
  | _ => none

/-- Bytes of the report at an address of host memory. -/
def HostBytes (m : State) (a : Nat) (bs : List Byte) : Prop := ∀ j < bs.length, Mem.read m.hostMem (a + j) = bs.getD j 0

/-- A nonce or digest as the report holds it: n bytes. -/
def bytesOf (n : Nat) (bs : List Byte) : List Byte := (List.range n).map fun j => bs.getD j 0

/-- O50. The operations on the counters of a run of tags read 32 bytes for each into HBUF, clear, or set the control word, and leave
every other tag's; ATTEST writes a report over its nonce: digests, function, contexts, debugger, the digest of the registration
records, the modulus, and a signature of the key over it (R455, R467, R473). The signature's salt and the key's primes are free values
(log 2). -/
def Obligations.CountersAndReportsAreRead : Prop :=
  (∀ (s : State) (i : Instr) (c : Cmd) (k : Ctx) (die : BitVec 8) (first count : BitVec 16) (reads : Bool) (g : Counter → Counter),
    counterRow i = some (c, die, first, count, reads, g) → CommandOn s c k → s.MemoryWf →
    let ok := die.toNat < 4 ∧ first.toNat < 256 ∧ count ≠ 0 ∧ first.toNat + count.toNat ≤ 256
    (¬ ok → exec i s = .next (s.reply c 1 0)) ∧
    (ok → ∃ m : State, exec i s = .next (m.reply c 0 0) ∧
      (∀ d t, m.counter d t = if d = die.toNat ∧ first.toNat ≤ t ∧ t < first.toNat + count.toNat then g (s.counter d t) else s.counter d t) ∧
      (∀ j < count.toNat, reads = true → let x := s.counter die.toNat (first.toNat + j)
        let a := c.hbuf.toNat + 32 * j
        Mem.num m.hostMem a 8 = (if x.bytesOvf then 2 ^ 63 else 0) + x.bytes.toNat ∧
        Mem.num m.hostMem (a + 8) 8 = (if x.stallsOvf then 2 ^ 63 else 0) + x.stalls.toNat ∧
        Mem.num m.hostMem (a + 16) 8 = x.ctl.toNat ∧ Mem.num m.hostMem (a + 24) 8 = 0) ∧
      (∀ z, reads = false ∨ z < c.hbuf.toNat ∨ c.hbuf.toNat + 32 * count.toNat ≤ z → Mem.read m.hostMem z = Mem.read s.hostMem z) ∧
      m.hbm = s.hbm ∧ m.cur = s.cur ∧ m.others = s.others ∧ m.ctxs = s.ctxs)) ∧
  (∀ (s : State) (c : Cmd) (k : Ctx) (die : BitVec 8) (first count : BitVec 16) (ctl : Word), CommandOn s c k → 2 ^ 13 ≤ ctl.toNat →
    exec (.buffersProgram c die first count ctl) s = .next (s.reply c 1 0)) ∧
  (∀ (s : State) (c : Cmd) (k : Ctx), CommandOn s c k → s.MemoryWf →
    let h := c.hbuf.toNat
    let mine := s.ctxs.filter fun x => x.fn == c.fn
    let report := bytesOf 32 ((List.range 32).map fun j => Mem.read s.hostMem (h + j)) ++ bytesOf 32 Config.romDigest ++
      bytesOf 32 Config.fuseDigest ++ leBytes 2 c.fn.toNat ++ leBytes 2 mine.length ++ leBytes 4 (if mine.any (·.attached) then 1 else 0) ++
      bytesOf 32 (sha256 (mine.flatMap fun x => x.records.flatMap (·.2))) ++ List.replicate 120 0 ++ beBytes 384 (Config.primeP * Config.primeQ)
    ∃ (m : State) (salt : List Byte), exec (.attest c) s = .next (m.reply c 0 0) ∧ salt.length = 32 ∧
      HostBytes m h (report ++ rsaSign report salt) ∧
      (∀ z, z < h ∨ h + 1024 ≤ z → Mem.read m.hostMem z = Mem.read s.hostMem z) ∧ m.ctxs = s.ctxs ∧ m.hbm = s.hbm ∧ m.cur = s.cur)

/-- The ring of a context's trace. -/
def traceOf (m : State) (k : Ctx) : Option Trace := (m.ctx? k.number).bind (·.trace)

/-- O51. TRACE_CONTROL: SET of a ring in writable local pages starts it with its counts at 0, READ writes TRHEAD, TRTAIL and TRLOST
to HBUF, 0 without a ring, and SETTAIL sets TRTAIL (R452, R458, R467). -/
def Obligations.TraceRingsAreControlled : Prop :=
  (∀ (s : State) (c : Cmd) (k : Ctx) (mask : BitVec 8) (n : BitVec 32) (base : Word) (wthresh logN : BitVec 32) (logVa : Word), CommandOn s c k →
    let due := exec (.traceSet c mask n base wthresh logN logVa) s
    let good := mask.toNat < 16 ∧ (∃ e, 6 ≤ e ∧ e ≤ 16 ∧ n.toNat = 2 ^ e) ∧ base.toNat % 4096 = 0 ∧
      s.ringOk k.number base (64 * n.toNat) = true ∧ (mask.getLsbD 3 = true → s.present k.number logVa (64 * logN.toNat) = true)
    (¬ good → due = .next (s.reply c 1 0)) ∧
    (good → ∃ (m : State) (r : Trace), due = .next (m.reply c 0 0) ∧ traceOf m k = some r ∧ r.base = base ∧ r.n = n.toNat ∧
      r.mask.toNat = mask.toNat ∧ r.wthresh = wthresh.toNat ∧ r.logN = logN.toNat ∧ r.logVa = logVa ∧ r.head = 0 ∧ r.tail = 0 ∧ r.lost = 0 ∧
      r.used = [] ∧ r.index = [] ∧ m.hbm = s.hbm ∧ m.hostMem = s.hostMem ∧ m.cur.regs = s.cur.regs)) ∧
  (∀ (s : State) (c : Cmd) (k : Ctx), CommandOn s c k → s.MemoryWf →
    ∃ m : State, exec (.traceRead c) s = .next (m.reply c 0 0) ∧
      (let a := c.hbuf.toNat
       Mem.num m.hostMem a 4 = ((k.trace.map fun r => r.head.toNat).getD 0) ∧ Mem.num m.hostMem (a + 4) 4 = ((k.trace.map fun r => r.tail.toNat).getD 0) ∧
         Mem.num m.hostMem (a + 8) 4 = ((k.trace.map fun r => r.lost).getD 0) % 2 ^ 32 ∧ Mem.num m.hostMem (a + 12) 4 = 0 ∧
         ∀ z, z < a ∨ a + 16 ≤ z → Mem.read m.hostMem z = Mem.read s.hostMem z) ∧ m.ctxs = s.ctxs ∧ m.hbm = s.hbm ∧ m.cur = s.cur) ∧
  (∀ (s : State) (c : Cmd) (k : Ctx) (tail : BitVec 32), CommandOn s c k →
    (k.trace = none → exec (.traceSettail c tail) s = .next (s.reply c 1 0)) ∧
    (∀ r, k.trace = some r → ∃ m : State, exec (.traceSettail c tail) s = .next (m.reply c 0 0) ∧ traceOf m k = some { r with tail } ∧
      m.hbm = s.hbm ∧ m.cur = s.cur ∧ m.others = s.others))

/-- A watchpoint descriptor that R439 accepts: the reserved bits 0, the VA 16-byte aligned and canonical, and some byte selected when
it is enabled. -/
def WatchFits (d : BitVec 128) : Prop :=
  (∀ j, (9 ≤ j ∧ j < 35) ∨ (40 ≤ j ∧ j < 48) ∨ (64 ≤ j ∧ j < 68) → d.getLsbD j = false) ∧ canonical (d.extractLsb' 64 64) = true ∧
  (d.getLsbD 38 = true → ∃ j, 48 ≤ j ∧ j < 64 ∧ d.getLsbD j = true)

/-- A line-breakpoint descriptor that R450 accepts: the reserved bits 0, the VA that of a line and canonical, and some lane selected
when it is enabled. -/
def BreakFits (d : BitVec 128) : Prop :=
  (∀ j, j < 32 ∨ (40 ≤ j ∧ j < 64) ∨ (64 ≤ j ∧ j < 69) → d.getLsbD j = false) ∧ canonical (d.extractLsb' 64 64) = true ∧
  (d.getLsbD 39 = true → ∃ j, 32 ≤ j ∧ j < 39 ∧ d.getLsbD j = true)

/-- Descriptor j of an ATTACH, as HBUF holds it. -/
def descriptorAt (s : State) (c : Cmd) (j : Nat) : BitVec 128 := BitVec.ofNat 128 (Mem.num s.hostMem (c.hbuf.toNat + 16 * j) 16)

/-- A debug stop holds a task. -/
def DebugHeld (t : Task) : Prop := t.status = .suspended ∧ t.flow.stop.map (·.reason) = some 4

/-- O52. DEBUG_ATTACH: ATTACH takes the descriptors of HBUF once R439 and R450 accept them; without a debugger every other operation is
refused; HALT stops the context's tasks in slots, each at a cut, and then lists the stopped ones; RESUME and DETACH make them Ready; STEP
lets the named one alone run until it has handled one instruction, and completes then (R439, R447, R449, R450, R467). Readings of the
model it rests on: log 41. -/
def Obligations.DebuggersAttachHaltAndStep : Prop :=
  (∀ (s : State) (c : Cmd) (k : Ctx), CommandOn s c k →
    (k.attached = true → exec (.debugAttach c) s = .next (s.reply c 8 0)) ∧
    (k.attached = false → (∃ j < 8, ¬ WatchFits (descriptorAt s c j)) → exec (.debugAttach c) s = .next (s.reply c 6 0)) ∧
    (k.attached = false → (∀ j < 8, WatchFits (descriptorAt s c j)) → (∃ j < 4, ¬ BreakFits (descriptorAt s c (8 + j))) →
      exec (.debugAttach c) s = .next (s.reply c 7 0)) ∧
    (k.attached = false → (∀ j < 8, WatchFits (descriptorAt s c j)) → (∀ j < 4, BreakFits (descriptorAt s c (8 + j))) →
      ∃ (m : State) (y : Ctx), exec (.debugAttach c) s = .next (m.reply c 0 0) ∧ m.ctx? k.number = some y ∧ y.attached = true ∧
        y.watch = (List.range 8).map (descriptorAt s c) ∧ y.breaks = (List.range 4).map (fun j => descriptorAt s c (8 + j)) ∧
        { y with attached := k.attached, watch := k.watch, breaks := k.breaks, watchPa := k.watchPa } = k ∧ m.hbm = s.hbm ∧ m.cur = s.cur)) ∧
  (∀ (s : State) (c : Cmd) (k : Ctx) (h : BitVec 32), CommandOn s c k → k.attached = false →
    exec (.debugDetach c) s = .next (s.reply c 8 0) ∧ exec (.debugHalt c) s = .next (s.reply c 8 0) ∧
    exec (.debugResume c) s = .next (s.reply c 8 0) ∧ exec (.debugStep c h) s = .next (s.reply c 8 0)) ∧
  (∀ (s : State) (c : Cmd) (k : Ctx), CommandOn s c k → k.attached = true →
    (∃ u ∈ s.tasks, u.pool.ctx = k.number ∧ u.isRunning = true ∧ u.atCut = false) →
    ∃ (t : State) (y : Ctx), exec (.debugHalt c) s = .next t ∧ t.ctx? k.number = some y ∧ y.halted = true ∧ t.fns = s.fns) ∧
  (∀ (s : State) (c : Cmd) (k : Ctx), CommandOn s c k → k.attached = true → s.MemoryWf →
    (∀ u ∈ s.tasks, u.pool.ctx = k.number → u.atCut = true) →
    ∃ (m : State) (y : Ctx) (l : List Task), exec (.debugHalt c) s = .next (m.reply c 0 (BitVec.ofNat 64 l.length)) ∧
      m.ctx? k.number = some y ∧ y.halted = true ∧ (∀ u ∈ m.tasks, u.pool.ctx = k.number → u.coreOf = none) ∧
      (∀ u, u ∈ l ↔ u ∈ m.tasks ∧ u.pool.ctx = k.number ∧ DebugHeld u) ∧ l.Pairwise (fun x y => x.tid ≤ y.tid) ∧
      (∀ u ∈ s.tasks, u.pool.ctx = k.number → u.coreOf.isSome = true → ∃ v ∈ l, v.tid = u.tid ∧ v.regs = u.regs ∧ v.nums = u.nums) ∧
      (∀ j u, l[j]? = some u → Mem.num m.hostMem (c.hbuf.toNat + 16 * j) 8 = u.register.toNat ∧
        Mem.num m.hostMem (c.hbuf.toNat + 16 * j + 8) 4 = u.tid % 2 ^ 32 ∧ Mem.num m.hostMem (c.hbuf.toNat + 16 * j + 12) 4 = 0)) ∧
  (∀ (s : State) (c : Cmd) (k : Ctx) (i : Instr), CommandOn s c k → k.attached = true →
    (i = .debugResume c ∨ (i = .debugDetach c ∧ k.halted = true)) →
    ∃ (m : State) (y : Ctx), exec i s = .next (m.reply c 0 0) ∧ m.ctx? k.number = some y ∧ y.halted = false ∧ y.stepTask = none ∧
      (i = .debugDetach c → y.attached = false ∧ y.watch = [] ∧ y.breaks = []) ∧ (i = .debugResume c → y.attached = true) ∧
      (∀ u ∈ s.others, u.pool.ctx = k.number → DebugHeld u → ∃ v ∈ m.others, v.pool = u.pool ∧ v.status = .ready ∧ v.regs = u.regs ∧
        v.queues = u.queues ∧ v.flow.ready = some s.now ∧ v.flow.stepping = false) ∧ m.hbm = s.hbm) ∧
  (∀ (s : State) (c : Cmd) (k : Ctx), CommandOn s c k → k.attached = true → k.halted = false →
    ∃ (m : State) (y : Ctx), exec (.debugDetach c) s = .next (m.reply c 0 0) ∧ m.ctx? k.number = some y ∧ y.attached = false ∧
      y.watch = [] ∧ y.breaks = [] ∧ m.cur.regs = s.cur.regs ∧ m.cur.status = s.cur.status ∧ m.hbm = s.hbm) ∧
  (∀ (s : State) (c : Cmd) (k : Ctx) (h : BitVec 32), CommandOn s c k → k.attached = true →
    (k.stepTask = none → (∀ u ∈ s.tasks, u.tid = h.toNat → ¬(u.pool.ctx = k.number ∧ DebugHeld u)) →
      exec (.debugStep c h) s = .next (s.reply c 1 0)) ∧
    (∀ u, k.stepTask = none → u ∈ s.others → u.tid = h.toNat → u.pool.ctx = k.number → DebugHeld u →
      (∀ x ∈ s.others, x.tid = u.tid → x = u) → (s.cur.status = .idle ∨ s.cur.tid ≠ u.tid) →
      ∃ t y v, exec (.debugStep c h) s = .next t ∧ t.ctx? k.number = some y ∧ y.stepTask = some u.tid ∧ v ∈ t.others ∧ v.tid = u.tid ∧
        v.status = .ready ∧ v.flow.stepping = true ∧ v.regs = u.regs ∧ t.hostMem = s.hostMem ∧ t.fns = s.fns) ∧
    (∀ tid, k.stepTask = some tid → (∃ u ∈ s.tasks, u.tid = tid ∧ u.flow.stepping = true) → exec (.debugStep c h) s = .next s) ∧
    (∀ tid, k.stepTask = some tid → (∀ u ∈ s.tasks, u.tid = tid → u.flow.stepping = false) →
      ∃ (m : State) (y : Ctx), exec (.debugStep c h) s = .next (m.reply c 0 0) ∧ m.ctx? k.number = some y ∧ y.stepTask = none ∧
        m.cur = s.cur ∧ m.others = s.others))

/-! ## Faults (R63, R64, R396 to R399, R420, R428, R432) -/

/-- The number in n bytes of a record from an offset on. -/
def recNum (bs : List Byte) (off n : Nat) : Nat := leNat ((bs.drop off).take n)

/-- A fault record of an instruction or an entry (R399 Table 3). -/
def RecordOf (s : State) (f : FaultInfo) (bs : List Byte) : Prop :=
  bs.length = 64 ∧ recNum bs 0 1 = f.code.toNat ∧ recNum bs 1 1 = f.stream.code.toNat ∧ recNum bs 2 1 = 0 ∧ recNum bs 3 1 = f.tag.toNat ∧
  recNum bs 4 4 = f.seq.toNat ∧ recNum bs 8 8 = f.va.toNat ∧ recNum bs 0x10 8 = f.thk.toNat ∧ recNum bs 0x18 8 = s.cur.pool.rcb.toNat ∧
  recNum bs 0x20 4 = s.cur.pool.node.toNat ∧ recNum bs 0x24 2 = s.cur.pool.tpl.toNat ∧ recNum bs 0x26 1 = s.cur.pool.die.toNat ∧
  recNum bs 0x38 8 = s.timeOf s.cur.pool.ctx % 2 ^ 64

/-- The classes that go to a handler: RAP_DENIED, NB_CROSS, NB_ATTR, ALIAS, SK_CAP, SK_STATE (R432 Table 11). -/
def handlerClass (code : Byte) : Prop := code ∈ ([0x16, 0x20, 0x21, 0x28, 0x30, 0x31] : List Byte)

/-- The stop record of a task that a fault stops (R428 Table 9). -/
def FaultStop (s : State) (f : FaultInfo) (reason : Nat) (r : StopRec) : Prop :=
  r.reason = reason ∧ r.cut = Stream.all.map s.cur.cutAt ∧ r.nextPc = s.cur.nextPc ∧ (reason ≠ 0 → r.dcode = f.code)

/-- O53. Taking a fault stops the task at a cut, once what other queues have begun has performed. A missing page suspends it with a page
request posted, and a matrix command in progress saves its accumulators in a free spill unit, or waits for one; a class of the
handler's, with a handler in effect and the task no handler itself, writes its record and starts the handler with it; every
other class writes its record and aborts the fault domain (R397 to R399, R420, R421, R428, R432, R468). Readings of the model it rests
on: log 23, 39. -/
def Obligations.FaultsStopTheirTask : Prop :=
  (∀ (s : State) (f : FaultInfo), s.cur.othersUnder f.stream = true → takeFault f s = s) ∧
  (∀ (s : State) (f : FaultInfo), s.cur.othersUnder f.stream = false → f.code ≠ 0x10 →
    (¬ handlerClass f.code ∨ (s.taskEff s.cur).fhTpl = 0x3FF ∨ s.cur.pool.origin = 3) →
    ∃ r bs, FaultStop s f 6 r ∧ RecordOf s f bs ∧
      takeFault f s = ((s.suspend r).logFault s.cur.pool.ctx s.cur.pool.rcb bs).1.abortDomain s.cur.pool.ctx s.cur.pool.rcb) ∧
  (∀ (s : State) (f : FaultInfo), s.cur.othersUnder f.stream = false → handlerClass f.code → (s.taskEff s.cur).fhTpl ≠ 0x3FF → s.cur.pool.origin ≠ 3 →
    (s.cur.status ≠ .idle) →
    ∃ r bs, FaultStop s f 3 r ∧ RecordOf s f bs ∧
      ∀ (m : State) (va : Option Word) (k : Nat) (entry trcb : Word) (spp : Nat),
        (s.suspend r).logFault s.cur.pool.ctx s.cur.pool.rcb bs = (m, va) → s.freeIndex s.cur.pool.die.toNat = some k →
        (let e := m.taskEff s.cur
         m.template s.cur.pool.ctx e.fhTtbl e.fhTpl = some (entry, spp, true, trcb) →
         ∃ new : Task, (takeFault f s).others = s.others ++ [new] ∧ (takeFault f s).cur = s.cur.stopped r ∧ new.status = .ready ∧
           new.pool.die = s.cur.pool.die ∧ new.pool.index = k ∧ new.pool.ctx = s.cur.pool.ctx ∧ new.pool.origin = 3 ∧ new.pool.entry = entry ∧
           new.pool.rcb = (if trcb = 0 then s.cur.pool.rcb else trcb) ∧ new.pool.tpl = e.fhTpl ∧
           new.pool.args.toList = [va.getD 0, s.cur.pool.rcb, BitVec.ofNat 64 f.code.toNat, BitVec.ofNat 64 s.cur.pool.node.toNat] ∧
           new.sys.fltc = f.code ∧ new.sys.fltv = f.va ∧
           new.sys.fltq = BitVec.ofNat 64 (f.stream.code.toNat * 2 ^ 32 + f.seq.toNat) ∧ new.sys.thkrec = f.thk ∧
           new.handles = some s.cur.tid)) ∧
  (∀ (s : State) (f : FaultInfo) (c : Ctx), s.cur.othersUnder f.stream = false → f.code = 0x10 →
    s.inWindows s.cur.pool.ctx f.va = false → (f.mx = none ∨ s.cur.mx = none) → s.MemoryWf →
    s.ctx? s.cur.pool.ctx = some c → (f.va &&& 0xFFFFFFFFFFFFF000) ∉ c.posted → (c.prWrite - c.prRead).toNat < c.prSize →
    ∃ r y, FaultStop s f 0 r ∧ (takeFault f s).cur.status = .suspended ∧ (takeFault f s).cur.flow.stop = some r ∧
      (takeFault f s).cur.flow.page = some f ∧ (takeFault f s).cur.regs = s.cur.regs ∧ (takeFault f s).cur.nums = s.cur.nums ∧
      (takeFault f s).ctx? s.cur.pool.ctx = some y ∧ y.posted = (f.va &&& 0xFFFFFFFFFFFFF000) :: c.posted ∧ y.prWrite = c.prWrite + 1 ∧
      (let a := c.prBase + 32 * (c.prWrite.toNat % c.prSize)
       Mem.num (takeFault f s).hostMem a 8 = s.cur.pool.ctx % 2 ^ 64 ∧ Mem.num (takeFault f s).hostMem (a + 8) 8 = f.va.toNat ∧
         (Mem.read (takeFault f s).hostMem (a + 16)).getLsbD 0 = f.write)) ∧
  (∀ (s : State) (f : FaultInfo) (c : Ctx) (p : Nat) (k : MatrixCmd), s.cur.othersUnder f.stream = false → f.code = 0x10 →
    s.inWindows s.cur.pool.ctx f.va = false → f.mx = some p → s.cur.mx = some k → s.ctx? s.cur.pool.ctx = some c →
    (s.freeSpill s.cur.pool.ctx s.cur.pool.die.toNat = none →
      (takeFault f s).cur.status = s.cur.status ∧ (takeFault f s).cur.mx = some k ∧ (takeFault f s).cur.flow.page = some f) ∧
    (∀ u, s.freeSpill s.cur.pool.ctx s.cur.pool.die.toNat = some u →
      ∃ r y, (takeFault f s).cur.status = .suspended ∧ (takeFault f s).cur.mx = none ∧ (takeFault f s).cur.flow.stop = some r ∧
        r.mx = BitVec.ofNat 64 (2 ^ 63 + u * 2 ^ 32 + p) ∧ (takeFault f s).ctx? s.cur.pool.ctx = some y ∧
        ((s.cur.pool.die.toNat, u), k) ∈ y.spilled ∧ (s.cur.pool.die.toNat, u) ∈ y.spillUsed))

/-- O54. An instruction that names a port against its direction, or s63, raises PORT_BAD at its lane and does nothing else; a lane that no
decoder accepts raises the fault of its first failing check against its engine (R63, R64). -/
def Obligations.IllegalLanesRaiseTheirFault : Prop :=
  (∀ (s : State) (i : Instr), Instr.stream i = some .seq → i.portBad = true → (∀ a, i ≠ .resume a) → s.Drained →
    exec i s = .next (takeFault (atLane s .seq 0x04 s.cur.nextPc) s)) ∧
  (∀ (s : State) (i : Instr) (k : Stream), Instr.stream i = some k → k ≠ .seq → i.portBad = true → s.Drained → s.act = none → (k = .cpy → s.cur.vcq = []) →
    exec i s = .next (takeFault (atLane s k 0x04 s.cur.nextPc) s)) ∧
  (∀ (s : State) (core : Nat) (e : DecodeFault), s.cur.status = .running core → s.cur.flow.entered = true → s.cur.flow.timed = none →
    s.cur.flow.finishing = none → s.cur.laneEngine ≠ .seq → s.breakAt = none → s.Drained →
    decodeLane s.cur.flow.lanes s.cur.flow.lane = .error e →
    exec .queueDispatch s = .next (takeFault (atLane s s.cur.laneEngine
      (match e with | .illegalLine => 0x01 | .illegalOp => 0x02 | .illegalField => 0x03) s.cur.nextPc) s))

/-! ## Decoding, a step, and what every step keeps (R54 to R67, R477; log 1) -/

/-- O55. Decoding and encoding agree: every well-formed instruction with lanes is read back from them with every operand, and the lanes of
an instruction that is read are the only ones it has: a reserved bit or an undefined code is refused (R57, R63, R66). -/
def Obligations.DecodingAndEncodingAgree : Prop :=
  (∀ (i : Instr) (k : Stream) (ws : List Lane), i.fieldsWf = true → encode i = some (k, ws) → decode k ws = .ok i) ∧
  (∀ (i : Instr) (k : Stream) (ws : List Lane), decode k ws = .ok i → encode i = some (k, ws) ∧ i.fieldsWf = true ∧ Instr.stream i = some k)

/-- The bits of a lane of format RRR, RRI, Q, FB or RL (R65 Table 3). -/
def bitsRRR (op d a b x : Nat) : Lane := BitVec.ofNat 32 (op * 2 ^ 24 + d * 2 ^ 18 + a * 2 ^ 12 + b * 2 ^ 6 + x)

/-- O56. Words as the spec's encodings give them, one or more of each engine (R56, R65, R71 to R80). -/
def Obligations.WordsOfTheSpecDecode : Prop :=
  decode .seq [bitsRRR 0x01 5 6 7 0] = .ok (.add 5 6 7) ∧
  decode .seq [BitVec.ofNat 32 (0x20 * 2 ^ 24 + 3 * 2 ^ 18 + 2 * 2 ^ 12 + 0xFFF)] = .ok (.addi 3 2 (-1)) ∧
  decode .seq [bitsRRR 0x28 4 0 0 0, 0x80000000] = .ok (.movi 4 0x80000000) ∧
  decode .seq [BitVec.ofNat 32 (0x30 * 2 ^ 24 + 5 * 2 ^ 21 + 1 * 2 ^ 20 + 0xFFFFE)] = .ok (.br 5 true (-2)) ∧
  decode .seq [BitVec.ofNat 32 (0x34 * 2 ^ 24 + 9 * 2 ^ 18 + 0x3FFFF)] = .ok (.loop 9 (-1)) ∧
  decode .ldq [bitsRRR 0x02 7 3 0 0, 0x100] = .ok (.vld 7 3 none 0x100 0) ∧
  decode .stq [bitsRRR 0x01 0 3 0 0x30, 8] = .ok (.sts 3 .b8 8 0) ∧
  decode .vec [bitsRRR 0x01 1 2 3 0x0A] = .ok (.fadd 1 2 3 0xA) ∧
  decode .til [bitsRRR 0x02 9 0 0 0] = .ok (.tclr 9) ∧
  decode .skq [bitsRRR 0x01 2 40 0 0] = .ok (.skbind 2 40) ∧
  decode .cpy [bitsRRR 0x01 0 33 0 0] = .ok (.cpy 33) ∧
  decode .lnk [bitsRRR 0x04 0 0 0 1] = .ok (.lstat true) ∧
  decode .atm [bitsRRR 0x08 0 0 0 0] = .ok .afence ∧
  decode .seq [bitsRRR 0x01 5 6 7 1] = .error .illegalField ∧ decode .vec [bitsRRR 0x0F 0 0 0 0] = .error .illegalOp ∧
  decode .seq [bitsRRR 0x28 4 0 0 0] = .error .illegalLine

/-- The state from which a scheduled move starts: its place in the schedule is taken and no entry acts. -/
def started (s : State) (rest : List Move) : State :=
  { s with sched := rest, throttle := false, act := none, air := none, wrote := [] }

/-- The sequencer of a running task may go on: no page fault, stop or step end is due, and nothing it began is unfinished. -/
def SequencerGoes (s : State) (rest : List Move) : Prop :=
  s.sched = .sequencer s.cur.tid :: rest ∧ s.cur.isRunning = true ∧ s.cur.flow.page = none ∧ s.cur.frozen = false ∧
  (s.cur.flow.stepping && s.cur.flow.stepDone) = false ∧ s.cur.flow.due = none ∧ s.cur.flow.finishing = none ∧ s.cur.flow.timed = none

/-- O57. A step of a task's sequencer runs the instruction its lanes decode to once the results it needs are there, or enters the next
line, and a step of a queue runs the entry at its head, on the state without that move; what follows is that held instructions and
results in flight are noted, RCB fields that the L9 alone writes are spoiled where the step wrote them, waiting handlers enter their
pools, waits in progress are tested and time passes. Who moves is the model's choice (log 1); what a result in flight holds is log 8. -/
def Obligations.AStepRunsTheDecodedInstruction : Prop :=
  (∀ (s : State) (rest : List Move) (i : Instr), SequencerGoes s rest → s.cur.flow.entered = true → s.breakAt = none →
    decodeLane s.cur.flow.lanes s.cur.flow.lane = .ok i →
    (s.cur.awaits i = false → step s =
      mapNext (fun u => (started s rest).settle (noteHeld s.cur (noteResult s.cur i u))) (exec i (started s rest))) ∧
    (s.cur.awaits i = true → step s = .next ((started s rest).settle (noteHeld s.cur (started s rest))))) ∧
  (∀ (s : State) (rest : List Move) (k : Stream) (e : Entry), s.sched = .queue s.cur.tid k :: rest →
    s.cur.isRunning = true → s.cur.flow.page = none → s.cur.flow.due = none → s.cur.heldLnk = [] → k ≠ .lnk →
    (s.cur.queue k).head? = some e → s.cur.goesOn k e = true → s.cur.endsPuts k = false →
    step s = mapNext (started s rest).settle (exec e.ins { started s rest with act := some e })) ∧
  (∀ (s : State) (rest : List Move), SequencerGoes s rest → s.cur.flow.entered = false → s.cur.holding = false →
    step s = mapNext (fun u => (started s rest).settle (noteHeld s.cur u)) (exec .lineEntry (started s rest)))

/-- O58. After reset every byte of HBM and cluster SRAM reads 0 and no line is poisoned, nothing is created, no task stands anywhere, every
counter is 0 with control word 1, the module serves with function 0 alone enabled and its rings off, and every memory is in canonical form
(R350, R455, R477). What the memories outside the module hold is the model's choice (log 5). -/
def Obligations.ResetLeavesAnEmptyMachine : Prop :=
  (∀ a, Mem.read State.reset.hbm a = 0 ∧ Mem.read State.reset.csram a = 0) ∧ State.reset.poison = [] ∧ State.reset.badTags = [] ∧
  State.reset.ctxs = [] ∧ State.reset.launches = [] ∧ State.reset.clq = [] ∧ State.reset.tasks = [] ∧ State.reset.walks = [] ∧
  State.reset.accessQs = [] ∧ State.reset.tlb = [] ∧ State.reset.coreTc = [] ∧ State.reset.fetchTc = [] ∧ State.reset.lineCache = [] ∧
  (∀ die tag, State.reset.counter die tag = { bytes := 0, bytesOvf := false, stalls := 0, stallsOvf := false, ctl := 1 }) ∧
  State.reset.serving = true ∧ (∀ fn, (State.reset.fnRegs fn).enabled = decide (fn = 0) ∧ (State.reset.fnRegs fn).ctrl = 0) ∧ State.reset.MemoryWf

/-- O59. Every step keeps every memory in its canonical form: HBM, cluster SRAM, the task backing, the memories outside, and the
scratchpad of every task. -/
def Obligations.StepsKeepMemoryCanonical : Prop :=
  ∀ s t : State, s.MemoryWf → step s = .next t → t.MemoryWf
end

