-- ==== Sys2Proof/Laws/Memory.lean ====
section
/-! SUPPORT. The memories: every operation keeps the canonical form, and a read gives what was last written. -/

namespace Sys2Proof.Machine

/-! ## The canonical form -/

theorem wfFrom_mono {lo lo' : Nat} (h : lo ≤ lo') : ∀ {m : Mem}, Memory.wfFrom lo' m = true → Memory.wfFrom lo m = true
  | [], _ => rfl
  | (k, b) :: r, hm => by
    simp only [Memory.wfFrom, Bool.and_eq_true, decide_eq_true_eq] at hm ⊢
    exact ⟨⟨h.trans hm.1.1, hm.1.2⟩, hm.2⟩

/-- A byte below the bound of a canonical memory reads as unlisted. -/
theorem read_below {lo a : Nat} (h : a < lo) : ∀ {m : Mem}, Memory.wfFrom lo m = true → Mem.read m a = unlisted
  | [], _ => rfl
  | (k, b) :: r, hm => by
    simp only [Memory.wfFrom, Bool.and_eq_true, decide_eq_true_eq] at hm
    have hk : a < k := h.trans_le hm.1.1
    simp [Mem.read, hk.ne, hk]

/-- A write of one byte keeps the canonical form above a bound that the address meets. -/
theorem wfFrom_write {lo a : Nat} (b : Byte) (h : lo ≤ a) : ∀ {m : Mem}, Memory.wfFrom lo m = true →
    Memory.wfFrom lo (Mem.write m a b) = true
  | [], _ => by
    by_cases hb : b = unlisted <;> simp [Mem.write, Memory.wfFrom, hb, h]
  | (k, c) :: r, hm => by
    simp only [Memory.wfFrom, Bool.and_eq_true, decide_eq_true_eq] at hm
    obtain ⟨⟨hk, hc⟩, hr⟩ := hm
    by_cases h1 : a = k
    · subst h1
      by_cases hb : b = unlisted
      · simpa [Mem.write, hb] using wfFrom_mono (hk.trans (Nat.le_succ _)) hr
      · simp [Mem.write, hb, Memory.wfFrom, hk, hr]
    · by_cases h2 : a < k
      · by_cases hb : b = unlisted
        · simp [Mem.write, h1, h2, hb, Memory.wfFrom, hk, hc, hr]
        · simp [Mem.write, h1, h2, hb, Memory.wfFrom, h, hc, hr, Nat.succ_le_of_lt h2]
      · have hka : k + 1 ≤ a := by omega
        simp [Mem.write, h1, h2, Memory.wfFrom, hk, hc, wfFrom_write b hka hr]

/-- A write of one byte keeps the canonical form. -/
theorem wf_write (m : Mem) (a : Nat) (b : Byte) (h : Memory.wf m = true) : Memory.wf (Mem.write m a b) = true :=
  wfFrom_write b (Nat.zero_le a) h

/-- A write of bytes keeps the canonical form. -/
theorem wf_writeN : ∀ (bs : List Byte) (m : Mem) (a : Nat), Memory.wf m = true → Memory.wf (Mem.writeN m a bs) = true
  | [], _, _, h => h
  | b :: r, m, a, h => wf_writeN r _ _ (wf_write m a b h)

/-- A write of a number keeps the canonical form. -/
theorem wf_setNum (m : Mem) (a n x : Nat) (h : Memory.wf m = true) : Memory.wf (Mem.setNum m a n x) = true :=
  wf_writeN _ _ _ h

/-- Cells taken away leave the canonical form. -/
theorem wfFrom_filter (p : Host.Cell → Bool) : ∀ {m : Mem} {lo : Nat}, Memory.wfFrom lo m = true → Memory.wfFrom lo (m.filter p) = true
  | [], _, _ => rfl
  | (k, b) :: r, lo, hm => by
    simp only [Memory.wfFrom, Bool.and_eq_true, decide_eq_true_eq] at hm
    by_cases hp : p (k, b) = true
    · simp [List.filter, hp, Memory.wfFrom, hm.1.1, hm.1.2, wfFrom_filter p hm.2]
    · simpa [List.filter, hp] using wfFrom_mono (hm.1.1.trans (Nat.le_succ _)) (wfFrom_filter p hm.2)

/-- Clearing a range keeps the canonical form. -/
theorem wf_clear (m : Mem) (lo hi : Nat) (h : Memory.wf m = true) : Memory.wf (Mem.clear m lo hi) = true := wfFrom_filter _ h

/-! ## Reading what was written -/

theorem read_write_from {lo a : Nat} (x : Nat) (b : Byte) (h : lo ≤ a) : ∀ {m : Mem}, Memory.wfFrom lo m = true →
    Mem.read (Mem.write m a b) x = if x = a then b else Mem.read m x
  | [], _ => by
    by_cases hb : b = unlisted <;> by_cases hx : x = a <;> simp [Mem.write, Mem.read, hb, hx]
  | (k, c) :: r, hm => by
    simp only [Memory.wfFrom, Bool.and_eq_true, decide_eq_true_eq] at hm
    obtain ⟨⟨hk, hc⟩, hr⟩ := hm
    by_cases h1 : a = k
    · subst h1
      by_cases hb : b = unlisted
      · by_cases hx : x = a
        · subst hx
          simpa [Mem.write, hb] using read_below (Nat.lt_succ_self _) hr
        · by_cases hlt : x < a
          · simp [Mem.write, hb, hx, Mem.read, hlt, read_below (hlt.trans (Nat.lt_succ_self _)) hr]
          · simp [Mem.write, hb, hx, Mem.read, hlt]
      · by_cases hx : x = a <;> simp [Mem.write, hb, hx, Mem.read]
    · by_cases h2 : a < k
      · have hka : k ≠ a := fun e => h1 e.symm
        by_cases hb : b = unlisted
        · by_cases hx : x = a
          · simp [Mem.write, h1, h2, hb, hx, Mem.read]
          · simp [Mem.write, h1, h2, hb, hx]
        · by_cases hx : x = a
          · simp [Mem.write, h1, h2, hb, hx, Mem.read]
          · by_cases hlt : x < a
            · have hxk : x < k := hlt.trans h2
              simp [Mem.write, h1, h2, hb, hx, Mem.read, hlt, hxk, hxk.ne]
            · simp [Mem.write, h1, h2, hb, hx, Mem.read, hlt]
      · have hka : k + 1 ≤ a := by omega
        by_cases hxk : x = k
        · have hxa : ¬ x = a := by omega
          simp [Mem.write, h1, h2, Mem.read, hxk, show ¬ k = a by omega]
        · by_cases hlt : x < k
          · simp [Mem.write, h1, h2, Mem.read, hxk, hlt, show ¬ x = a by omega]
          · simp [Mem.write, h1, h2, Mem.read, hxk, hlt, read_write_from x b hka hr]

/-- A read after a write of one byte. -/
theorem read_write (m : Mem) (a x : Nat) (b : Byte) (h : Memory.wf m = true) :
    Mem.read (Mem.write m a b) x = if x = a then b else Mem.read m x := read_write_from x b (Nat.zero_le a) h

/-- A read after a write of bytes: the byte written there, or the old one. -/
theorem read_writeN : ∀ (bs : List Byte) (m : Mem) (a x : Nat), Memory.wf m = true →
    Mem.read (Mem.writeN m a bs) x = if a ≤ x ∧ x < a + bs.length then bs.getD (x - a) 0 else Mem.read m x
  | [], m, a, x, _ => by simp [Mem.writeN, show ¬(a ≤ x ∧ x < a) by omega]
  | b :: r, m, a, x, h => by
    rw [Mem.writeN, read_writeN r _ _ _ (wf_write m a b h), read_write m a x b h]
    by_cases hx : x = a
    · subst hx
      simp
    · by_cases hin : a + 1 ≤ x ∧ x < a + 1 + r.length
      · have e : x - a = x - (a + 1) + 1 := by omega
        have h2 : a ≤ x ∧ x < a + (b :: r).length := by simp only [List.length_cons]; omega
        rw [if_pos hin, if_pos h2, e]
        rfl
      · have h2 : ¬(a ≤ x ∧ x < a + (b :: r).length) := by simp only [List.length_cons]; omega
        rw [if_neg hin, if_neg hx, if_neg h2]

/-- Two canonical memories that read alike are equal. -/
theorem mem_ext : ∀ {lo : Nat} {m m' : Mem}, Memory.wfFrom lo m = true → Memory.wfFrom lo m' = true →
    (∀ a, Mem.read m a = Mem.read m' a) → m = m'
  | _, [], [], _, _, _ => rfl
  | _, [], (k, b) :: r, _, h', e => by
    simp only [Memory.wfFrom, Bool.and_eq_true, bne_iff_ne] at h'
    exact absurd (e k) (by simpa [Mem.read, eq_comm] using h'.1.2)
  | _, (k, b) :: r, [], h, _, e => by
    simp only [Memory.wfFrom, Bool.and_eq_true, bne_iff_ne] at h
    exact absurd (e k) (by simpa [Mem.read] using h.1.2)
  | _, (k, b) :: r, (k', b') :: r', h, h', e => by
    simp only [Memory.wfFrom, Bool.and_eq_true, decide_eq_true_eq, bne_iff_ne] at h h'
    have hk : k = k' := by
      rcases Nat.lt_trichotomy k k' with hlt | heq | hgt
      · exact absurd (e k) (by simpa [Mem.read, hlt.ne, hlt] using h.1.2)
      · exact heq
      · exact absurd (e k') (by simpa [Mem.read, hgt.ne, hgt, eq_comm] using h'.1.2)
    subst hk
    have hb : b = b' := by simpa [Mem.read] using e k
    subst hb
    have hr : r = r' := mem_ext h.2 h'.2 fun a => by
      by_cases ha : a < k + 1
      · rw [read_below ha h.2, read_below ha h'.2]
      · have := e a
        simpa [Mem.read, show ¬ a = k by omega, show ¬ a < k by omega] using this
    rw [hr]

end Sys2Proof.Machine
end

