-- ==== Sys2Proof/Laws/Canonical.lean ====
section
/-! SUPPORT. The shared operations on State keep every memory in its canonical form. -/

namespace Sys2Proof.Machine

/-- The memories outside a task are canonical. -/
def State.SpacesWf (s : State) : Prop :=
  Memory.wf s.hbm = true ∧ Memory.wf s.csram = true ∧ Memory.wf s.hostMem = true ∧ Memory.wf s.peerMem = true ∧
  Memory.wf s.backing = true

theorem memoryWf_iff (s : State) :
    s.MemoryWf ↔ s.SpacesWf ∧ Memory.wf s.cur.scratch = true ∧ ∀ t ∈ s.others, Memory.wf t.scratch = true := by
  simp only [State.MemoryWf, State.SpacesWf, and_assoc]

theorem reset_spacesWf : State.reset.SpacesWf := ⟨rfl, rfl, rfl, rfl, rfl⟩

theorem hbmWrite_spacesWf (s : State) (a : Nat) (bs : List Byte) (h : s.SpacesWf) : (s.hbmWrite a bs).SpacesWf := by
  unfold State.hbmWrite
  split
  · exact h
  · exact ⟨wf_writeN _ _ _ h.1, h.2⟩

theorem hbmWrite_cur (s : State) (a : Nat) (bs : List Byte) : (s.hbmWrite a bs).cur = s.cur := by
  unfold State.hbmWrite
  split <;> rfl

theorem hbmWrite_others (s : State) (a : Nat) (bs : List Byte) : (s.hbmWrite a bs).others = s.others := by
  unfold State.hbmWrite
  split <;> rfl

theorem moleWrite_spacesWf (s : State) (a : Nat) (bs : List Byte) (h : s.SpacesWf) : (s.moleWrite a bs).SpacesWf :=
  hbmWrite_spacesWf s a bs h

theorem touch_spacesWf (s : State) (leaf : Word) (a : Nat) (w : Bool) (h : s.SpacesWf) : (s.touch leaf a w).SpacesWf :=
  ⟨wf_setNum _ _ _ _ h.1, h.2⟩

theorem cleanLines_spacesWf (s : State) (p : Space) (a n : Nat) (h : s.SpacesWf) : (s.cleanLines p a n).SpacesWf := by
  unfold State.cleanLines
  split <;> exact h

theorem retag_spacesWf (s : State) (a n : Nat) (h : s.SpacesWf) : (s.retag a n).SpacesWf := by
  unfold State.retag
  split <;> exact h

theorem retag_tasks (s : State) (a n : Nat) : (s.retag a n).cur = s.cur ∧ (s.retag a n).others = s.others := by
  unfold State.retag
  split <;> exact ⟨rfl, rfl⟩

theorem cleanLines_tasks (s : State) (p : Space) (a n : Nat) :
    (s.cleanLines p a n).cur = s.cur ∧ (s.cleanLines p a n).others = s.others := by
  unfold State.cleanLines
  split <;> exact ⟨rfl, rfl⟩

theorem put_spacesWf (s : State) (p : Space) (a : Nat) (bs : List Byte) (h : s.SpacesWf) : (s.put p a bs).SpacesWf := by
  obtain ⟨h1, h2, h3, h4, h5⟩ := cleanLines_spacesWf s p a bs.length h
  cases p with
  | hbm => exact hbmWrite_spacesWf s a bs h
  | csram => exact ⟨h1, wf_writeN _ _ _ h.2.1, h3, h4, h5⟩
  | peer =>
    obtain ⟨g1, g2, g3, g4, g5⟩ := retag_spacesWf _ a bs.length (cleanLines_spacesWf s .peer a bs.length h)
    exact ⟨g1, g2, g3, wf_writeN _ _ _ h.2.2.2.1, g5⟩
  | host => exact ⟨h1, h2, wf_writeN _ _ _ h.2.2.1, h4, h5⟩

theorem put_cur (s : State) (p : Space) (a : Nat) (bs : List Byte) : (s.put p a bs).cur = s.cur := by
  cases p with
  | hbm => exact hbmWrite_cur s a bs
  | csram => exact (cleanLines_tasks s ..).1
  | peer => exact (retag_tasks ..).1.trans (cleanLines_tasks s ..).1
  | host => exact (cleanLines_tasks s ..).1

theorem put_others (s : State) (p : Space) (a : Nat) (bs : List Byte) : (s.put p a bs).others = s.others := by
  cases p with
  | hbm => exact hbmWrite_others s a bs
  | csram => exact (cleanLines_tasks s ..).2
  | peer => exact (retag_tasks ..).2.trans (cleanLines_tasks s ..).2
  | host => exact (cleanLines_tasks s ..).2

/-- What a write through memory alone keeps: the canonical form, the acting task and the others. -/
def OnlySpaces (s t : State) : Prop := (s.SpacesWf → t.SpacesWf) ∧ t.cur = s.cur ∧ t.others = s.others

theorem OnlySpaces.rfl {s : State} : OnlySpaces s s := ⟨id, Eq.refl _, Eq.refl _⟩

theorem OnlySpaces.trans {s t u : State} (h : OnlySpaces s t) (h' : OnlySpaces t u) : OnlySpaces s u :=
  ⟨h'.1 ∘ h.1, h'.2.1.trans h.2.1, h'.2.2.trans h.2.2⟩

theorem OnlySpaces.memoryWf {s t : State} (h : OnlySpaces s t) (hs : s.MemoryWf) : t.MemoryWf := by
  rw [memoryWf_iff] at hs ⊢
  exact ⟨h.1 hs.1, h.2.1 ▸ hs.2.1, h.2.2 ▸ hs.2.2⟩

theorem put_onlySpaces (s : State) (p : Space) (a : Nat) (bs : List Byte) : OnlySpaces s (s.put p a bs) :=
  ⟨put_spacesWf s p a bs, put_cur s p a bs, put_others s p a bs⟩

theorem writeChunks_onlySpaces : ∀ (cs : List Chunk) (s : State) (bs : List Byte), OnlySpaces s (s.writeChunks cs bs)
  | [], _, _ => OnlySpaces.rfl
  | _ :: r, s, _ => (put_onlySpaces s ..).trans (writeChunks_onlySpaces r _ _)

theorem writeVia_onlySpaces (s : State) (n : Nat) (va : Word) (bs : List Byte) : OnlySpaces s (s.writeVia n va bs) := by
  unfold State.writeVia
  split
  · exact writeChunks_onlySpaces ..
  · exact OnlySpaces.rfl

theorem setRcb_onlySpaces (s : State) (n : Nat) (rcb : Word) (off len x : Nat) : OnlySpaces s (s.setRcb n rcb off len x) :=
  writeVia_onlySpaces ..

/-- A fold of steps each of which writes through memory alone. -/
theorem foldl_onlySpaces {α : Type} {f : State → α → State} (h : ∀ s x, OnlySpaces s (f s x)) :
    ∀ (l : List α) (s : State), OnlySpaces s (l.foldl f s)
  | [], _ => OnlySpaces.rfl
  | x :: r, s => (h s x).trans (foldl_onlySpaces h r _)

theorem live_onlySpaces (s : State) (n : Nat) (rcb : Word) (up : Bool) (im : Option Image) : OnlySpaces s (s.live n rcb up im) := by
  unfold State.live
  generalize s.ancestry n chainFuel rcb im = l
  exact foldl_onlySpaces (fun _ _ => setRcb_onlySpaces ..) l s

theorem chargeOne_onlySpaces (s : State) (n die cycles : Nat) (node : BitVec 32) (im : Option Image) (rcb : Word) :
    OnlySpaces s (s.chargeOne n die cycles node im rcb) := by
  unfold State.chargeOne
  extract_lets old b s'
  have h : OnlySpaces s s' := setRcb_onlySpaces ..
  split
  · exact ⟨h.1, h.2.1, h.2.2⟩
  · exact h

theorem charge_onlySpaces (s : State) (p : PoolEntry) (cycles : Nat) : OnlySpaces s (s.charge p cycles) := by
  unfold State.charge
  generalize s.poolImage p = im
  dsimp only
  generalize s.ancestry p.ctx chainFuel p.rcb im = l
  split
  · exact OnlySpaces.rfl
  · exact foldl_onlySpaces (fun _ _ => chargeOne_onlySpaces ..) l s

theorem ite_fst_onlySpaces {β : Type} {s : State} {c : Prop} [Decidable c] {x y : State × β} (hx : OnlySpaces s x.1)
    (hy : OnlySpaces s y.1) : OnlySpaces s (if c then x else y).1 := by
  split
  · exact hx
  · exact hy

theorem logFault_onlySpaces (s : State) (n : Nat) (rcb : Word) (bs : List Byte) (im : Option Image) : OnlySpaces s (s.logFault n rcb bs im).1 :=
  ite_fst_onlySpaces ((writeVia_onlySpaces ..).trans (setRcb_onlySpaces ..)) (setRcb_onlySpaces ..)

end Sys2Proof.Machine
end

