-- ==== Sys2Proof/Laws/Landing.lean ====
section
/-! SUPPORT. What writing and landing of an access can do to the machine (R389): they keep the canonical form, a write of an access that lands
later leaves memory, and one granule that lands is one patch of what was to land. -/

namespace Sys2Proof.Machine

theorem bytesAt_grounded {s : State} (h : s.air = none) (p : Space) (a n : Nat) : s.bytesAt p a n = Mem.readN (s.memOf p) a n := by
  simp only [State.bytesAt, h]

theorem noteWrite_onlySpaces (s : State) (p : Space) (a n : Nat) : OnlySpaces s (s.noteWrite p a n) := by
  unfold State.noteWrite
  split <;> exact ⟨id, rfl, rfl⟩

/-- A write of an access keeps the canonical form and the tasks; one that is to land later changes no memory. -/
theorem write_onlySpaces (s : State) (p : Space) (a : Nat) (bs masks : List Byte) : OnlySpaces s (s.write p a bs masks) := by
  unfold State.write
  split
  · exact (put_onlySpaces ..).trans (noteWrite_onlySpaces ..)
  · exact ⟨id, rfl, rfl⟩

theorem write_aloft {s : State} {ps : List Patch} (h : s.air = some ps) (p : Space) (a : Nat) (bs masks : List Byte) :
    s.write p a bs masks = { s with air := some (patchBytes ps p.code a (bs.zip masks)) } := by
  simp only [State.write, h]

theorem scratchPut_wf (t : Task) (a : Nat) (bs : List Byte) (h : Memory.wf t.scratch = true) : Memory.wf (t.scratchPut a bs).scratch = true := by
  by_cases e : bs.isEmpty
  · simp only [Task.scratchPut, e, if_true, h]
  · simp only [Task.scratchPut, e, Bool.false_eq_true, if_false, wf_writeN _ _ _ h]

theorem scratchWrite_scratch (s : State) (time kind : Nat) (src : Word) (a : Nat) (bs : List Byte) :
    (s.scratchWrite time kind src a bs).cur.scratch = (s.cur.scratchPut a bs).scratch := by
  unfold State.scratchWrite
  generalize s.cur.scratchPut a bs = t
  dsimp only
  split
  · split <;> rfl
  · rfl

theorem scratchWrite_backing (s : State) (time kind : Nat) (src : Word) (a : Nat) (bs : List Byte)
    (h : Memory.wf s.backing = true) : Memory.wf (s.scratchWrite time kind src a bs).backing = true := by
  unfold State.scratchWrite
  generalize s.cur.scratchPut a bs = t
  dsimp only
  split
  · exact h
  · exact wf_writeN _ _ _ h

/-- A write of the scratchpad keeps the canonical form of it and of the backing. -/
theorem scratchWrite_memoryWf (s : State) (time kind : Nat) (src : Word) (a : Nat) (bs : List Byte) (h : s.MemoryWf) :
    (s.scratchWrite time kind src a bs).MemoryWf := by
  obtain ⟨h1, h2, h3, h4, h5, h6, h7⟩ := h
  have hb := scratchWrite_backing s time kind src a bs h5
  have hs : Memory.wf (s.scratchWrite time kind src a bs).cur.scratch = true := by
    rw [scratchWrite_scratch]
    exact scratchPut_wf s.cur a bs h6
  have ho : (s.scratchWrite time kind src a bs).hbm = s.hbm ∧ (s.scratchWrite time kind src a bs).csram = s.csram ∧
      (s.scratchWrite time kind src a bs).hostMem = s.hostMem ∧ (s.scratchWrite time kind src a bs).peerMem = s.peerMem ∧
      (s.scratchWrite time kind src a bs).others = s.others := by
    unfold State.scratchWrite
    generalize s.cur.scratchPut a bs = t
    generalize s.cur.filled.getLsbD ((a - 0x10000) / 4096) = c
    exact ⟨rfl, rfl, rfl, rfl, rfl⟩
  obtain ⟨e1, e2, e3, e4, e5⟩ := ho
  generalize s.scratchWrite time kind src a bs = t at *
  exact ⟨e1 ▸ h1, e2 ▸ h2, e3 ▸ h3, e4 ▸ h4, hb, hs, e5 ▸ h7⟩

/-- Writing one byte of a landing granule. -/
theorem landPatch_memoryWf (s : State) (x : LandSrc) (p : Patch) (h : s.MemoryWf) : (s.landPatch x p).MemoryWf := by
  unfold State.landPatch
  generalize p.places = l
  induction l generalizing s with
  | nil => exact h
  | cons i r ih =>
    refine ih _ ?_
    dsimp only
    split
    · exact scratchWrite_memoryWf _ _ _ _ _ _ h
    · exact ((put_onlySpaces ..).trans (noteWrite_onlySpaces ..)).memoryWf h

theorem cleaned_onlySpaces (s : State) (l : Landing) : OnlySpaces s (s.cleaned l) := by
  unfold State.cleaned
  split
  · exact OnlySpaces.rfl
  · exact ⟨id, rfl, rfl⟩

theorem landRest_memoryWf (s : State) (x : LandSrc) (l : Landing) (h : s.MemoryWf) : (s.landRest x l).MemoryWf := by
  unfold State.landRest
  refine (cleaned_onlySpaces _ l).memoryWf ?_
  generalize l.todo = ps
  induction ps generalizing s with
  | nil => exact h
  | cons p r ih => exact ih _ (landPatch_memoryWf _ _ _ h)

/-- A granule that lands is one patch of those still to land, which is not held back for others; it is then no longer to land. -/
theorem landOne_cases {s s' : State} {x : LandSrc} {l l' : Landing} {g : Granule} (h : s.landOne x l g = some (s', l')) :
    ∃ p, l.todo.find? (·.on g) = some p ∧ s' = s.landPatch x p ∧ l' = l.drop g ∧
      (g ∈ l.held → ∀ q ∈ l.todo, (q.space, q.granule) ∈ l.held) := by
  unfold State.landOne Landing.ready at h
  split at h
  · simp at h
  · rename_i hr
    obtain ⟨p, hp, he⟩ := Option.map_eq_some_iff.mp h
    refine ⟨p, hp, (Prod.mk.inj he).1.symm, (Prod.mk.inj he).2.symm, fun hg q hq => ?_⟩
    simp only [Bool.and_eq_true, List.contains_iff_mem, List.any_eq_true, Bool.not_eq_true', not_and, not_exists] at hr
    simpa using hr hg q hq

theorem landOne_memoryWf {s s' : State} {x : LandSrc} {l l' : Landing} {g : Granule} (h : s.landOne x l g = some (s', l'))
    (hs : s.MemoryWf) : s'.MemoryWf := by
  obtain ⟨p, -, rfl, -, -⟩ := landOne_cases h
  exact landPatch_memoryWf s x p hs

theorem drop_todo (l : Landing) (g : Granule) : ∀ p ∈ (l.drop g).todo, p.on g = false := by
  intro p hp
  simpa using (List.mem_filter.mp hp).2

end Sys2Proof.Machine
end

