-- ==== Sys2Proof/Laws/PerInstr.lean ====
section
/-! SUPPORT. What the encoder makes of each instruction: the lanes of its own engine, as many as its opcode takes. -/

namespace Sys2Proof.Laws

theorem fOp_rrr (op : BitVec 8) (d a b x : BitVec 6) : fOp (rrr op d a b x) = op := by
  apply BitVec.eq_of_getLsbD_eq
  intro i hi
  simp only [fOp, rrr, BitVec.getLsbD_extractLsb', BitVec.getLsbD_append]
  rcases i with _ | _ | _ | _ | _ | _ | _ | _ | i
  all_goals first | omega | simp

theorem fOp_rri (op : BitVec 8) (d a : BitVec 6) (imm : BitVec 12) : fOp (rri op d a imm) = op := by
  apply BitVec.eq_of_getLsbD_eq
  intro i hi
  simp only [fOp, rri, BitVec.getLsbD_extractLsb', BitVec.getLsbD_append]
  rcases i with _ | _ | _ | _ | _ | _ | _ | _ | i
  all_goals first | omega | simp

theorem fOp_fq (op : BitVec 8) (d a b : BitVec 6) (x : BitVec 2) (t : Tok) : fOp (fq op d a b x t) = op := by
  apply BitVec.eq_of_getLsbD_eq
  intro i hi
  simp only [fOp, fq, BitVec.getLsbD_extractLsb', BitVec.getLsbD_append]
  rcases i with _ | _ | _ | _ | _ | _ | _ | _ | i
  all_goals first | omega | simp

theorem fOp_fb (op : BitVec 8) (p : PReg) (n : Bool) (off : BitVec 20) : fOp (fb op p n off) = op := by
  apply BitVec.eq_of_getLsbD_eq
  intro i hi
  simp only [fOp, fb, BitVec.getLsbD_extractLsb', BitVec.getLsbD_append]
  rcases i with _ | _ | _ | _ | _ | _ | _ | _ | i
  all_goals first | omega | simp

theorem fOp_rl (op : BitVec 8) (a : BitVec 6) (off : BitVec 18) : fOp (rl op a off) = op := by
  apply BitVec.eq_of_getLsbD_eq
  intro i hi
  simp only [fOp, rl, BitVec.getLsbD_extractLsb', BitVec.getLsbD_append]
  rcases i with _ | _ | _ | _ | _ | _ | _ | _ | i
  all_goals first | omega | simp

namespace Encodes

/-- The lanes an instruction encodes to stand in its own stream and are as many as its opcode says (R56, R71 to R74). -/
def Statement (i : Instr) : Prop :=
  ∀ (k : Stream) (ws : List Lane), encode i = some (k, ws) →
    Instr.stream i = some k ∧ ∃ l rest, ws = l :: rest ∧ laneCount k (fOp l) = some ws.length

theorem of {i : Instr} {k : Stream} {l : Lane} {rest : List Lane} {op : BitVec 8} (he : encode i = some (k, l :: rest))
    (hs : Instr.stream i = some k) (ho : fOp l = op) (hc : laneCount k op = some (rest.length + 1)) : Statement i := by
  intro k' ws h
  rw [he] at h
  cases h
  exact ⟨hs, l, rest, rfl, ho.symm ▸ hc⟩

theorem of_none {i : Instr} (he : encode i = none) : Statement i := by
  intro k ws h
  rw [he] at h
  cases h

theorem lineEntry : Statement .lineEntry := of_none rfl
theorem queueDispatch : Statement .queueDispatch := of_none rfl
theorem nop : Statement .nop := of rfl rfl (fOp_rrr ..) rfl
theorem add (d a b : SReg) : Statement (.add d a b) := of rfl rfl (fOp_rrr ..) rfl
theorem sub (d a b : SReg) : Statement (.sub d a b) := of rfl rfl (fOp_rrr ..) rfl
theorem mul (d a b : SReg) : Statement (.mul d a b) := of rfl rfl (fOp_rrr ..) rfl
theorem mulh (d a b : SReg) : Statement (.mulh d a b) := of rfl rfl (fOp_rrr ..) rfl
theorem mulhu (d a b : SReg) : Statement (.mulhu d a b) := of rfl rfl (fOp_rrr ..) rfl
theorem div (d a b : SReg) : Statement (.div d a b) := of rfl rfl (fOp_rrr ..) rfl
theorem divu (d a b : SReg) : Statement (.divu d a b) := of rfl rfl (fOp_rrr ..) rfl
theorem rem (d a b : SReg) : Statement (.rem d a b) := of rfl rfl (fOp_rrr ..) rfl
theorem remu (d a b : SReg) : Statement (.remu d a b) := of rfl rfl (fOp_rrr ..) rfl
theorem and (d a b : SReg) : Statement (.and d a b) := of rfl rfl (fOp_rrr ..) rfl
theorem or (d a b : SReg) : Statement (.or d a b) := of rfl rfl (fOp_rrr ..) rfl
theorem xor (d a b : SReg) : Statement (.xor d a b) := of rfl rfl (fOp_rrr ..) rfl
theorem andn (d a b : SReg) : Statement (.andn d a b) := of rfl rfl (fOp_rrr ..) rfl
theorem shl (d a b : SReg) : Statement (.shl d a b) := of rfl rfl (fOp_rrr ..) rfl
theorem shr (d a b : SReg) : Statement (.shr d a b) := of rfl rfl (fOp_rrr ..) rfl
theorem sra (d a b : SReg) : Statement (.sra d a b) := of rfl rfl (fOp_rrr ..) rfl
theorem min (d a b : SReg) : Statement (.min d a b) := of rfl rfl (fOp_rrr ..) rfl
theorem max (d a b : SReg) : Statement (.max d a b) := of rfl rfl (fOp_rrr ..) rfl
theorem minu (d a b : SReg) : Statement (.minu d a b) := of rfl rfl (fOp_rrr ..) rfl
theorem maxu (d a b : SReg) : Statement (.maxu d a b) := of rfl rfl (fOp_rrr ..) rfl
theorem clz (d a : SReg) : Statement (.clz d a) := of rfl rfl (fOp_rrr ..) rfl
theorem ctz (d a : SReg) : Statement (.ctz d a) := of rfl rfl (fOp_rrr ..) rfl
theorem popc (d a : SReg) : Statement (.popc d a) := of rfl rfl (fOp_rrr ..) rfl
theorem cmpCc (cc : Cc) (d : PReg) (a b : SReg) : Statement (.cmpCc cc d a b) := of rfl rfl (fOp_rrr ..) rfl
theorem sel (d : SReg) (p : PReg) (a b : SReg) : Statement (.sel d p a b) := of rfl rfl (fOp_rrr ..) rfl
theorem lea (d a b : SReg) (k : BitVec 3) : Statement (.lea d a b k) := of rfl rfl (fOp_rrr ..) rfl
theorem bfx (d a : SReg) (pos len : BitVec 6) : Statement (.bfx d a pos len) := of rfl rfl (fOp_rrr ..) rfl
theorem bfi (d a : SReg) (pos len : BitVec 6) : Statement (.bfi d a pos len) := of rfl rfl (fOp_rrr ..) rfl
theorem addi (d a : SReg) (imm : BitVec 12) : Statement (.addi d a imm) := of rfl rfl (fOp_rri ..) rfl
theorem andi (d a : SReg) (imm : BitVec 12) : Statement (.andi d a imm) := of rfl rfl (fOp_rri ..) rfl
theorem ori (d a : SReg) (imm : BitVec 12) : Statement (.ori d a imm) := of rfl rfl (fOp_rri ..) rfl
theorem xori (d a : SReg) (imm : BitVec 12) : Statement (.xori d a imm) := of rfl rfl (fOp_rri ..) rfl
theorem shli (d a : SReg) (k : BitVec 6) : Statement (.shli d a k) := of rfl rfl (fOp_rrr ..) rfl
theorem shri (d a : SReg) (k : BitVec 6) : Statement (.shri d a k) := of rfl rfl (fOp_rrr ..) rfl
theorem srai (d a : SReg) (k : BitVec 6) : Statement (.srai d a k) := of rfl rfl (fOp_rrr ..) rfl
theorem cmpiCc (cc : Cc) (d : PReg) (a : SReg) (imm : BitVec 12) : Statement (.cmpiCc cc d a imm) := of rfl rfl (fOp_rri ..) rfl
theorem movi (d : SReg) (imm : BitVec 32) : Statement (.movi d imm) := of rfl rfl (fOp_rri ..) rfl
theorem movhi (d : SReg) (imm : BitVec 32) : Statement (.movhi d imm) := of rfl rfl (fOp_rri ..) rfl
theorem br (p : PReg) (n : Bool) (off : BitVec 20) : Statement (.br p n off) := of rfl rfl (fOp_fb ..) rfl
theorem call (p : PReg) (n : Bool) (off : BitVec 20) : Statement (.call p n off) := of rfl rfl (fOp_fb ..) rfl
theorem ret : Statement .ret := of rfl rfl (fOp_rrr ..) rfl
theorem jmp (d a : SReg) : Statement (.jmp d a) := of rfl rfl (fOp_rrr ..) rfl
theorem loop (a : SReg) (off : BitVec 18) : Statement (.loop a off) := of rfl rfl (fOp_rl ..) rfl
theorem xlt (h : HReg) (a : SReg) (tag : BitVec 8) (fetch write : Bool) : Statement (.xlt h a tag fetch write) := of rfl rfl (fOp_rri ..) rfl
theorem hinv (h : HReg) : Statement (.hinv h) := of rfl rfl (fOp_rrr ..) rfl
theorem hstat (d : SReg) (h : HReg) : Statement (.hstat d h) := of rfl rfl (fOp_rrr ..) rfl
theorem wait (ld st cp ti : BitVec 6) : Statement (.wait ld st cp ti) := of rfl rfl (fOp_rrr ..) rfl
theorem mark : Statement .mark := of rfl rfl (fOp_rrr ..) rfl
theorem xfence (x y : Path) : Statement (.xfence x y) := of rfl rfl (fOp_rri ..) rfl
theorem fence (kind : Kind) (scope : Scope) : Statement (.fence kind scope) := of rfl rfl (fOp_rri ..) rfl
theorem waita (d a b : SReg) (cc : Cc) (timeout : BitVec 32) : Statement (.waita d a b cc timeout) := of rfl rfl (fOp_rrr ..) rfl
theorem waitaSatisfied : Statement .waitaSatisfied := of_none rfl
theorem waitaTimeout : Statement .waitaTimeout := of_none rfl
theorem semSig (sm : SemReg) (k : BitVec 6) : Statement (.semSig sm k) := of rfl rfl (fOp_rrr ..) rfl
theorem semWait (d : SReg) (sm : SemReg) (k : BitVec 6) (timeout : BitVec 32) : Statement (.semWait d sm k timeout) := of rfl rfl (fOp_rrr ..) rfl
theorem semWaitSatisfied : Statement .semWaitSatisfied := of_none rfl
theorem semWaitTimeout : Statement .semWaitTimeout := of_none rfl
theorem semSet (sm : SemReg) (b : SReg) : Statement (.semSet sm b) := of rfl rfl (fOp_rrr ..) rfl
theorem yield : Statement .yield := of rfl rfl (fOp_rrr ..) rfl
theorem ifsync (a b : SReg) : Statement (.ifsync a b) := of rfl rfl (fOp_rrr ..) rfl
theorem spawn (d a b x : SReg) (tpl : BitVec 10) : Statement (.spawn d a b x tpl) := of rfl rfl (fOp_rrr ..) rfl
theorem done : Statement .done := of rfl rfl (fOp_rrr ..) rfl
theorem doneSuccessorDecrement : Statement .doneSuccessorDecrement := of_none rfl
theorem arg (d : SReg) (i : BitVec 2) : Statement (.arg d i) := of rfl rfl (fOp_rri ..) rfl
theorem tid (d : SReg) (sel : BitVec 2) : Statement (.tid d sel) := of rfl rfl (fOp_rrr ..) rfl
theorem rdsr (d : SReg) (r : SysReg) : Statement (.rdsr d r) := of rfl rfl (fOp_rri ..) rfl
theorem wrsr (r : SysReg) (a : SReg) : Statement (.wrsr r a) := of rfl rfl (fOp_rri ..) rfl
theorem trap (d a : SReg) (svc : BitVec 12) : Statement (.trap d a svc) := of rfl rfl (fOp_rri ..) rfl
theorem brk (code : BitVec 12) : Statement (.brk code) := of rfl rfl (fOp_rri ..) rfl
theorem resume (a : SReg) : Statement (.resume a) := of rfl rfl (fOp_rrr ..) rfl
theorem rdtime (d : SReg) : Statement (.rdtime d) := of rfl rfl (fOp_rrr ..) rfl
theorem pfd (a : SReg) : Statement (.pfd a) := of rfl rfl (fOp_rrr ..) rfl
theorem rngseed (a : SReg) : Statement (.rngseed a) := of rfl rfl (fOp_rrr ..) rfl
theorem lds (h : HReg) (u : Bool) (sz : Sz) (off : BitVec 32) (t : Tok) : Statement (.lds h u sz off t) := of rfl rfl (fOp_fq ..) rfl
theorem vld (d : VReg) (h : HReg) (m : Option MReg) (off : BitVec 32) (t : Tok) : Statement (.vld d h m off t) := of rfl rfl (fOp_fq ..) rfl
theorem vldr (d : VReg) (h : HReg) (m : Option MReg) (off : BitVec 32) (t : Tok) : Statement (.vldr d h m off t) := of rfl rfl (fOp_fq ..) rfl
theorem vlds (d : VReg) (h : HReg) (b : SReg) (off : BitVec 32) (t : Tok) : Statement (.vlds d h b off t) := of rfl rfl (fOp_fq ..) rfl
theorem vldg (d : VReg) (h : HReg) (b : VReg) (t : Tok) : Statement (.vldg d h b t) := of rfl rfl (fOp_fq ..) rfl
theorem vlsp (d : VReg) (a : SReg) (t : Tok) : Statement (.vlsp d a t) := of rfl rfl (fOp_fq ..) rfl
theorem vlbc (d : VReg) (h : HReg) (off : BitVec 32) (t : Tok) : Statement (.vlbc d h off t) := of rfl rfl (fOp_fq ..) rfl
theorem ldpf (h : HReg) (b : SReg) (off : BitVec 32) (t : Tok) : Statement (.ldpf h b off t) := of rfl rfl (fOp_fq ..) rfl
theorem sts (h : HReg) (sz : Sz) (off : BitVec 32) (t : Tok) : Statement (.sts h sz off t) := of rfl rfl (fOp_fq ..) rfl
theorem vst (d : VReg) (h : HReg) (rm : Rm) (m : Option MReg) (off : BitVec 32) (t : Tok) :
    Statement (.vst d h rm m off t) := of rfl rfl (fOp_fq ..) rfl
theorem vstr (d : VReg) (h : HReg) (m : Option MReg) (off : BitVec 32) (t : Tok) : Statement (.vstr d h m off t) := of rfl rfl (fOp_fq ..) rfl
theorem vsts (d : VReg) (h : HReg) (b : SReg) (rm : Rm) (off : BitVec 32) (t : Tok) : Statement (.vsts d h b rm off t) := of rfl rfl (fOp_fq ..) rfl
theorem vsct (d : VReg) (h : HReg) (b : VReg) (rm : Rm) (t : Tok) : Statement (.vsct d h b rm t) := of rfl rfl (fOp_fq ..) rfl
theorem vssp (d : VReg) (a : SReg) (t : Tok) : Statement (.vssp d a t) := of rfl rfl (fOp_fq ..) rfl
theorem lcln (h : HReg) (off : BitVec 32) (t : Tok) : Statement (.lcln h off t) := of rfl rfl (fOp_fq ..) rfl
theorem linv (h : HReg) (off : BitVec 32) (t : Tok) : Statement (.linv h off t) := of rfl rfl (fOp_fq ..) rfl
theorem vfaddnr (d : VReg) (h : HReg) (m : Option MReg) (off : BitVec 32) (t : Tok) : Statement (.vfaddnr d h m off t) := of rfl rfl (fOp_fq ..) rfl
theorem fadd (d a b : VReg) (t : Tok) : Statement (.fadd d a b t) := of rfl rfl (fOp_fq ..) rfl
theorem fsub (d a b : VReg) (t : Tok) : Statement (.fsub d a b t) := of rfl rfl (fOp_fq ..) rfl
theorem fmul (d a b : VReg) (t : Tok) : Statement (.fmul d a b t) := of rfl rfl (fOp_fq ..) rfl
theorem fma (d a b c : VReg) (t : Tok) : Statement (.fma d a b c t) := of rfl rfl (fOp_fq ..) rfl
theorem fmin (d a b : VReg) (t : Tok) : Statement (.fmin d a b t) := of rfl rfl (fOp_fq ..) rfl
theorem fmax (d a b : VReg) (t : Tok) : Statement (.fmax d a b t) := of rfl rfl (fOp_fq ..) rfl
theorem fabs (d a : VReg) (t : Tok) : Statement (.fabs d a t) := of rfl rfl (fOp_fq ..) rfl
theorem fneg (d a : VReg) (t : Tok) : Statement (.fneg d a t) := of rfl rfl (fOp_fq ..) rfl
theorem frcp (d a : VReg) (t : Tok) : Statement (.frcp d a t) := of rfl rfl (fOp_fq ..) rfl
theorem frsq (d a : VReg) (t : Tok) : Statement (.frsq d a t) := of rfl rfl (fOp_fq ..) rfl
theorem fsqrt (d a : VReg) (t : Tok) : Statement (.fsqrt d a t) := of rfl rfl (fOp_fq ..) rfl
theorem fexp2 (d a : VReg) (t : Tok) : Statement (.fexp2 d a t) := of rfl rfl (fOp_fq ..) rfl
theorem flog2 (d a : VReg) (t : Tok) : Statement (.flog2 d a t) := of rfl rfl (fOp_fq ..) rfl
theorem fcmpCc (cc : FCc) (d : MReg) (a b : VReg) (t : Tok) : Statement (.fcmpCc cc d a b t) := of rfl rfl (fOp_fq ..) rfl
theorem iadd (d a b : VReg) (t : Tok) : Statement (.iadd d a b t) := of rfl rfl (fOp_fq ..) rfl
theorem isub (d a b : VReg) (t : Tok) : Statement (.isub d a b t) := of rfl rfl (fOp_fq ..) rfl
theorem imul (d a b : VReg) (t : Tok) : Statement (.imul d a b t) := of rfl rfl (fOp_fq ..) rfl
theorem iand (d a b : VReg) (t : Tok) : Statement (.iand d a b t) := of rfl rfl (fOp_fq ..) rfl
theorem ior (d a b : VReg) (t : Tok) : Statement (.ior d a b t) := of rfl rfl (fOp_fq ..) rfl
theorem ixor (d a b : VReg) (t : Tok) : Statement (.ixor d a b t) := of rfl rfl (fOp_fq ..) rfl
theorem ishl (d a b : VReg) (t : Tok) : Statement (.ishl d a b t) := of rfl rfl (fOp_fq ..) rfl
theorem ishr (d a b : VReg) (t : Tok) : Statement (.ishr d a b t) := of rfl rfl (fOp_fq ..) rfl
theorem isra (d a b : VReg) (t : Tok) : Statement (.isra d a b t) := of rfl rfl (fOp_fq ..) rfl
theorem imin (d a b : VReg) (t : Tok) : Statement (.imin d a b t) := of rfl rfl (fOp_fq ..) rfl
theorem imax (d a b : VReg) (t : Tok) : Statement (.imax d a b t) := of rfl rfl (fOp_fq ..) rfl
theorem icmpCc (cc : Cc) (d : MReg) (a b : VReg) (t : Tok) : Statement (.icmpCc cc d a b t) := of rfl rfl (fOp_fq ..) rfl
theorem vmov (d a : VReg) (t : Tok) : Statement (.vmov d a t) := of rfl rfl (fOp_fq ..) rfl
theorem vmovi (d : VReg) (imm : BitVec 32) (t : Tok) : Statement (.vmovi d imm t) := of rfl rfl (fOp_fq ..) rfl
theorem vsel (d a : VReg) (m : MReg) (t : Tok) : Statement (.vsel d a m t) := of rfl rfl (fOp_fq ..) rfl
theorem vperm (d a b : VReg) (t : Tok) : Statement (.vperm d a b t) := of rfl rfl (fOp_fq ..) rfl
theorem vbcast (d : VReg) (t : Tok) : Statement (.vbcast d t) := of rfl rfl (fOp_fq ..) rfl
theorem vlane (d : VReg) (t : Tok) : Statement (.vlane d t) := of rfl rfl (fOp_fq ..) rfl
theorem cvt (d a : VReg) (src dst : Fmt) (rm : Rm) (m : Option MReg) (t : Tok) : Statement (.cvt d a src dst rm m t) := of rfl rfl (fOp_fq ..) rfl
theorem pack (d a b : VReg) (w : PackW) (t : Tok) : Statement (.pack d a b w t) := of rfl rfl (fOp_fq ..) rfl
theorem unpack (d a : VReg) (part : BitVec 6) (w : PackW) (t : Tok) : Statement (.unpack d a part w t) := of rfl rfl (fOp_fq ..) rfl
theorem vred (op : RedOp) (a : VReg) (m : Option MReg) (t : Tok) : Statement (.vred op a m t) := of rfl rfl (fOp_fq ..) rfl
theorem vscan (op : RedOp) (d a : VReg) (t : Tok) : Statement (.vscan op d a t) := of rfl rfl (fOp_fq ..) rfl
theorem vsort (key : SortKey) (d a : VReg) (t : Tok) : Statement (.vsort key d a t) := of rfl rfl (fOp_fq ..) rfl
theorem vuniq (d : MReg) (a b : VReg) (t : Tok) : Statement (.vuniq d a b t) := of rfl rfl (fOp_fq ..) rfl
theorem vsegsum (int : Bool) (d a : VReg) (m : MReg) (t : Tok) : Statement (.vsegsum int d a m t) := of rfl rfl (fOp_fq ..) rfl
theorem mand (d a b : MReg) (t : Tok) : Statement (.mand d a b t) := of rfl rfl (fOp_fq ..) rfl
theorem mor (d a b : MReg) (t : Tok) : Statement (.mor d a b t) := of rfl rfl (fOp_fq ..) rfl
theorem mxor (d a b : MReg) (t : Tok) : Statement (.mxor d a b t) := of rfl rfl (fOp_fq ..) rfl
theorem mnot (d a : MReg) (t : Tok) : Statement (.mnot d a t) := of rfl rfl (fOp_fq ..) rfl
theorem mpop (a : MReg) (t : Tok) : Statement (.mpop a t) := of rfl rfl (fOp_fq ..) rfl
theorem mfirst (d a : MReg) (t : Tok) : Statement (.mfirst d a t) := of rfl rfl (fOp_fq ..) rfl
theorem tset (d : TReg) (f : TField) (a : SReg) : Statement (.tset d f a) := of rfl rfl (fOp_rrr ..) rfl
theorem tclr (d : TReg) : Statement (.tclr d) := of rfl rfl (fOp_rrr ..) rfl
theorem tmma (d a b : TReg) (e : MmExt) : Statement (.tmma d a b e) := of rfl rfl (fOp_rrr ..) rfl
theorem tmmsp (d a b md : TReg) (e : MmExt) : Statement (.tmmsp d a b md e) := of rfl rfl (fOp_rrr ..) rfl
theorem tmmtr (d a b : TReg) (doff : BitVec 16) (fill : SReg) (e : MmExt) : Statement (.tmmtr d a b doff fill e) := of rfl rfl (fOp_rrr ..) rfl
theorem tadd (d a b : TReg) : Statement (.tadd d a b) := of rfl rfl (fOp_rrr ..) rfl
theorem tmul (d a b : TReg) : Statement (.tmul d a b) := of rfl rfl (fOp_rrr ..) rfl
theorem tscal (d a : TReg) (b : SReg) : Statement (.tscal d a b) := of rfl rfl (fOp_rrr ..) rfl
theorem tmap (fn : MapFn) (d a : TReg) : Statement (.tmap fn d a) := of rfl rfl (fOp_rrr ..) rfl
theorem tred (op : TRedOp) (cols : Bool) (d a : TReg) : Statement (.tred op cols d a) := of rfl rfl (fOp_rrr ..) rfl
theorem tview (k : ViewKind) (d a : TReg) (off : BitVec 14) : Statement (.tview k d a off) := of rfl rfl (fOp_rrr ..) rfl
theorem tcpy (d a : TReg) : Statement (.tcpy d a) := of rfl rfl (fOp_rrr ..) rfl
theorem force (d : TReg) (row0 : BitVec 7) (rows : BitVec 8) (col0 : BitVec 7) (cols : BitVec 8) :
    Statement (.force d row0 rows col0 cols) := of rfl rfl (fOp_rrr ..) rfl
theorem tst (s d : TReg) : Statement (.tst s d) := of rfl rfl (fOp_rrr ..) rfl
theorem tdrop (d : TReg) : Statement (.tdrop d) := of rfl rfl (fOp_rrr ..) rfl
theorem tflush : Statement .tflush := of rfl rfl (fOp_rrr ..) rfl
theorem tstat (a : TReg) (sel : BitVec 2) : Statement (.tstat a sel) := of rfl rfl (fOp_rrr ..) rfl
theorem tmode (ovf aliasPol : Bool) : Statement (.tmode ovf aliasPol) := of rfl rfl (fOp_rrr ..) rfl
theorem thunkSemWait : Statement .thunkSemWait := of_none rfl
theorem matrixCommandComplete : Statement .matrixCommandComplete := of_none rfl
theorem skbind (k : KReg) (a : SReg) : Statement (.skbind k a) := of rfl rfl (fOp_rrr ..) rfl
theorem skinit (k : KReg) : Statement (.skinit k) := of rfl rfl (fOp_rrr ..) rfl
theorem skapp (part : Part) (k : KReg) (a b : TReg) : Statement (.skapp part k a b) := of rfl rfl (fOp_rrr ..) rfl
theorem skshr (k : KReg) (a : SReg) : Statement (.skshr k a) := of rfl rfl (fOp_rrr ..) rfl
theorem skmrg (d a : KReg) : Statement (.skmrg d a) := of rfl rfl (fOp_rrr ..) rfl
theorem skrd (v : Bool) (k : KReg) (a : TReg) (b : SReg) : Statement (.skrd v k a b) := of rfl rfl (fOp_rrr ..) rfl
theorem skapply (k : KReg) (a : TReg) (b : SReg) (alpha : BitVec 32) : Statement (.skapply k a b alpha) := of rfl rfl (fOp_rrr ..) rfl
theorem skde (k : KReg) : Statement (.skde k) := of rfl rfl (fOp_rrr ..) rfl
theorem skrank (k : KReg) : Statement (.skrank k) := of rfl rfl (fOp_rrr ..) rfl
theorem sksave (k : KReg) : Statement (.sksave k) := of rfl rfl (fOp_rrr ..) rfl
theorem skunbind (k : KReg) : Statement (.skunbind k) := of rfl rfl (fOp_rrr ..) rfl
theorem cpy (a : SReg) : Statement (.cpy a) := of rfl rfl (fOp_rrr ..) rfl
theorem cpyi (d a b : SReg) (tag : BitVec 8) (sig : Option SemReg) : Statement (.cpyi d a b tag sig) := of rfl rfl (fOp_rrr ..) rfl
theorem cqstat (a : SReg) : Statement (.cqstat a) := of rfl rfl (fOp_rrr ..) rfl
theorem copyHandout (engine : Bool) : Statement (.copyHandout engine) := of_none rfl
theorem copyComplete (engine : Bool) : Statement (.copyComplete engine) := of_none rfl
theorem lsend (d a b : SReg) (cw : Option SReg) (tag : BitVec 8) : Statement (.lsend d a b cw tag) := of rfl rfl (fOp_rrr ..) rfl
theorem lrecv (d a b : SReg) (cw : Option SReg) (tag : BitVec 8) : Statement (.lrecv d a b cw tag) := of rfl rfl (fOp_rrr ..) rfl
theorem lradd (d a b : SReg) (cw : Option SReg) (tag : BitVec 8) (cidx : BitVec 4) :
    Statement (.lradd d a b cw tag cidx) := of rfl rfl (fOp_rrr ..) rfl
theorem lstat (clr : Bool) : Statement (.lstat clr) := of rfl rfl (fOp_rrr ..) rfl
theorem linkFlitReceive (peer : BitVec 10) (chan : BitVec 8) (senderCount : Nat) (payload : List Byte) (poisoned : Bool) :
    Statement (.linkFlitReceive peer chan senderCount payload poisoned) := of_none rfl
theorem flitCrcRetry (port : BitVec 5) : Statement (.flitCrcRetry port) := of_none rfl
theorem linkPeerUnreachable (peer : BitVec 10) : Statement (.linkPeerUnreachable peer) := of_none rfl
theorem linkFlitTimeout (peer : BitVec 10) (chan : BitVec 8) : Statement (.linkFlitTimeout peer chan) := of_none rfl
theorem linkPeerReachable (peer : BitVec 10) : Statement (.linkPeerReachable peer) := of_none rfl
theorem atom (op : AtomOp) (dbl : Bool) (h : HReg) (b : SReg) (o : AtOrd) (off : BitVec 19) :
    Statement (.atom op dbl h b o off) := of rfl rfl (fOp_rrr ..) rfl
theorem atomnr (op : AtomOp) (dbl : Bool) (h : HReg) (b : SReg) (o : AtOrd) (off : BitVec 19) :
    Statement (.atomnr op dbl h b o off) := of rfl rfl (fOp_rrr ..) rfl
theorem fatom (op : FatomOp) (h : HReg) (b : SReg) (o : AtOrd) (off : BitVec 19) : Statement (.fatom op h b o off) := of rfl rfl (fOp_rrr ..) rfl
theorem fatomnr (op : FatomOp) (h : HReg) (b : SReg) (o : AtOrd) (off : BitVec 19) : Statement (.fatomnr op h b o off) := of rfl rfl (fOp_rrr ..) rfl
theorem cas (dbl : Bool) (h : HReg) (b d : SReg) (o : AtOrd) (off : BitVec 19) : Statement (.cas dbl h b d o off) := of rfl rfl (fOp_rrr ..) rfl
theorem atomk (op : AtomOp) (dbl : Bool) (h : HReg) (b d : SReg) (e : KExt) : Statement (.atomk op dbl h b d e) := of rfl rfl (fOp_rrr ..) rfl
theorem cask (dbl : Bool) (h : HReg) (b d : SReg) (e : KExt) : Statement (.cask dbl h b d e) := of rfl rfl (fOp_rrr ..) rfl
theorem afence : Statement .afence := of rfl rfl (fOp_rrr ..) rfl
theorem qpush (h : HReg) (b : SReg) (o : AtOrd) (off : BitVec 19) : Statement (.qpush h b o off) := of rfl rfl (fOp_rrr ..) rfl
theorem qpop (h : HReg) (o : AtOrd) (off : BitVec 19) : Statement (.qpop h o off) := of rfl rfl (fOp_rrr ..) rfl
theorem dcdec (h : HReg) (off : BitVec 19) : Statement (.dcdec h off) := of rfl rfl (fOp_rrr ..) rfl
theorem nbx (op : NbOp) (a : SReg) (o : AtOrd) : Statement (.nbx op a o) := of rfl rfl (fOp_rrr ..) rfl
theorem walkComplete (n : Nat) : Statement (.walkComplete n) := of_none rfl
theorem scratchpadPageFill (page : BitVec 5) : Statement (.scratchpadPageFill page) := of_none rfl
theorem stagedToRunning (core : Nat) : Statement (.stagedToRunning core) := of_none rfl
theorem owlPlace (die : BitVec 2) : Statement (.owlPlace die) := of_none rfl
theorem owlUnstage (die : BitVec 2) : Statement (.owlUnstage die) := of_none rfl
theorem owlPreempt (die : BitVec 2) : Statement (.owlPreempt die) := of_none rfl
theorem equalPriorityTimeslice (die : BitVec 2) : Statement (.equalPriorityTimeslice die) := of_none rfl
theorem preemptionCut : Statement .preemptionCut := of_none rfl
theorem cycusedUpdate : Statement .cycusedUpdate := of_none rfl
theorem budget : Statement .budget := of_none rfl
theorem wdog : Statement .wdog := of_none rfl
theorem abortComplete (ctx : Nat) (rcb : Word) : Statement (.abortComplete ctx rcb) := of_none rfl
theorem launchAccept (ctx : Nat) (queue : BitVec 6) : Statement (.launchAccept ctx queue) := of_none rfl
theorem distributionPass (die : BitVec 2) (serial : Nat) : Statement (.distributionPass die serial) := of_none rfl
theorem cursorEnqueue (die : BitVec 2) : Statement (.cursorEnqueue die) := of_none rfl
theorem clqDrain (home : Nat) : Statement (.clqDrain home) := of_none rfl
theorem replayHoldRelease (stream : Stream) : Statement (.replayHoldRelease stream) := of_none rfl
theorem launchRetire (serial : Nat) : Statement (.launchRetire serial) := of_none rfl
theorem peerAccessArrival (chip : BitVec 10) (port : BitVec 5) (pa : Nat) (op : PeerOp) :
    Statement (.peerAccessArrival chip port pa op) := of_none rfl
theorem hostWrite (ctx : Nat) (va : Word) (bytes : List Byte) : Statement (.hostWrite ctx va bytes) := of_none rfl
theorem hostRead (ctx : Nat) (va : Word) (n : Nat) : Statement (.hostRead ctx va n) := of_none rfl
theorem hostCompletionTimeout (stream : Stream) : Statement (.hostCompletionTimeout stream) := of_none rfl
theorem lineUncorrectableError (line : Nat) : Statement (.lineUncorrectableError line) := of_none rfl
theorem poolEntryUe (handle : Nat) (readable : Bool) : Statement (.poolEntryUe handle readable) := of_none rfl
theorem dcWordUe (pa : Nat) : Statement (.dcWordUe pa) := of_none rfl
theorem parityError (handle : Nat) : Statement (.parityError handle) := of_none rfl
theorem powerOn : Statement .powerOn := of_none rfl
theorem perstAssert : Statement .perstAssert := of_none rfl
theorem functionLevelReset (fn : BitVec 11) : Statement (.functionLevelReset fn) := of_none rfl
theorem thermalTrip (die : BitVec 2) (temp : Byte) : Statement (.thermalTrip die temp) := of_none rfl
theorem throttleHold (cycles : Nat) : Statement (.throttleHold cycles) := of_none rfl
theorem stepEnd : Statement .stepEnd := of_none rfl
theorem cqtailDoorbell (fn : BitVec 11) (v : BitVec 32) : Statement (.cqtailDoorbell fn v) := of_none rfl
theorem cpheadWrite (fn : BitVec 11) (v : BitVec 32) : Statement (.cpheadWrite fn v) := of_none rfl
theorem ctrlWrite (fn : BitVec 11) (v : BitVec 32) : Statement (.ctrlWrite fn v) := of_none rfl
theorem prdbWrite (fn : BitVec 11) (v : Word) : Statement (.prdbWrite fn v) := of_none rfl
theorem doorbellRegisterWrite (fn : BitVec 11) (off : BitVec 12) (v : Word) : Statement (.doorbellRegisterWrite fn off v) := of_none rfl
theorem createContext (c : Cmd) (mib : BitVec 32) (spill : BitVec 16) (chanFirst chanCount : BitVec 8) (prBase : Word) (prSize : BitVec 32) :
    Statement (.createContext c mib spill chanFirst chanCount prBase prSize) := of_none rfl
theorem destroyContext (c : Cmd) : Statement (.destroyContext c) := of_none rfl
theorem map (c : Cmd) (va leaf : Word) : Statement (.map c va leaf) := of_none rfl
theorem unmap (c : Cmd) (va : Word) (count : BitVec 32) : Statement (.unmap c va count) := of_none rfl
theorem pin (c : Cmd) (va : Word) : Statement (.pin c va) := of_none rfl
theorem registerTemplate (c : Cmd) (ttbl : Word) : Statement (.registerTemplate c ttbl) := of_none rfl
theorem launch (c : Cmd) (queue : BitVec 8) (packet csva : Word) (cssz csfmt : BitVec 8) :
    Statement (.launch c queue packet csva cssz csfmt) := of_none rfl
theorem abortRcb (c : Cmd) (rcb : Word) : Statement (.abortRcb c rcb) := of_none rfl
theorem readFaultLog (c : Cmd) (rcb : Word) (max : BitVec 32) : Statement (.readFaultLog c rcb max) := of_none rfl
theorem buffersRead (c : Cmd) (die : BitVec 8) (first count : BitVec 16) : Statement (.buffersRead c die first count) := of_none rfl
theorem buffersReadClear (c : Cmd) (die : BitVec 8) (first count : BitVec 16) : Statement (.buffersReadClear c die first count) := of_none rfl
theorem buffersClear (c : Cmd) (die : BitVec 8) (first count : BitVec 16) : Statement (.buffersClear c die first count) := of_none rfl
theorem buffersProgram (c : Cmd) (die : BitVec 8) (first count : BitVec 16) (ctl : Word) :
    Statement (.buffersProgram c die first count ctl) := of_none rfl
theorem attest (c : Cmd) : Statement (.attest c) := of_none rfl
theorem resetFunction (c : Cmd) (fn : BitVec 16) : Statement (.resetFunction c fn) := of_none rfl
theorem traceSet (c : Cmd) (mask : BitVec 8) (n : BitVec 32) (base : Word) (wthresh logN : BitVec 32) (logVa : Word) :
    Statement (.traceSet c mask n base wthresh logN logVa) := of_none rfl
theorem traceRead (c : Cmd) : Statement (.traceRead c) := of_none rfl
theorem traceSettail (c : Cmd) (tail : BitVec 32) : Statement (.traceSettail c tail) := of_none rfl
theorem debugAttach (c : Cmd) : Statement (.debugAttach c) := of_none rfl
theorem debugDetach (c : Cmd) : Statement (.debugDetach c) := of_none rfl
theorem debugHalt (c : Cmd) : Statement (.debugHalt c) := of_none rfl
theorem debugResume (c : Cmd) : Statement (.debugResume c) := of_none rfl
theorem debugStep (c : Cmd) (handle : BitVec 32) : Statement (.debugStep c handle) := of_none rfl
theorem rootComplexCompletion (stream : Stream) (bytes : List Byte) (error : Bool) :
    Statement (.rootComplexCompletion stream bytes error) := of_none rfl
theorem peerHomeAnswer (stream : Stream) (bytes : List Byte) (refused poisoned : Bool) :
    Statement (.peerHomeAnswer stream bytes refused poisoned) := of_none rfl
theorem linkSendAccepted (peer : BitVec 10) (chan : BitVec 8) (recvCount : Nat) : Statement (.linkSendAccepted peer chan recvCount) := of_none rfl
theorem peerServiceRequest (chip : BitVec 10) (pa : Nat) (size : Nat) (svc : PeerSvc) :
    Statement (.peerServiceRequest chip pa size svc) := of_none rfl
theorem configurationRequest (fn : BitVec 11) (write : Bool) (numVfs : BitVec 16) : Statement (.configurationRequest fn write numVfs) := of_none rfl

end Encodes

end Sys2Proof.Laws
end

