-- ==== Sys2Proof/Laws/State.lean ====
section
/-! SUPPORT. One lemma per field per named update of the state, of a task and of its registers. -/

namespace Sys2Proof.Machine


/-! ### State.withRegs -/

@[simp] theorem State.withRegs_now (s : State) (f : Regs → Regs) : (s.withRegs f).now = s.now := rfl
@[simp] theorem State.withRegs_isReady (s : State) (f : Regs → Regs) : (s.withRegs f).isReady = s.isReady := rfl
@[simp] theorem State.withRegs_resetting (s : State) (f : Regs → Regs) : (s.withRegs f).resetting = s.resetting := rfl
@[simp] theorem State.withRegs_thermal (s : State) (f : Regs → Regs) : (s.withRegs f).thermal = s.thermal := rfl
@[simp] theorem State.withRegs_throttle (s : State) (f : Regs → Regs) : (s.withRegs f).throttle = s.throttle := rfl
@[simp] theorem State.withRegs_throttled (s : State) (f : Regs → Regs) : (s.withRegs f).throttled = s.throttled := rfl
@[simp] theorem State.withRegs_portDown (s : State) (f : Regs → Regs) : (s.withRegs f).portDown = s.portDown := rfl
@[simp] theorem State.withRegs_retries (s : State) (f : Regs → Regs) : (s.withRegs f).retries = s.retries := rfl
@[simp] theorem State.withRegs_trained (s : State) (f : Regs → Regs) : (s.withRegs f).trained = s.trained := rfl
@[simp] theorem State.withRegs_dieTemp (s : State) (f : Regs → Regs) : (s.withRegs f).dieTemp = s.dieTemp := rfl
@[simp] theorem State.withRegs_power (s : State) (f : Regs → Regs) : (s.withRegs f).power = s.power := rfl
@[simp] theorem State.withRegs_hold (s : State) (f : Regs → Regs) : (s.withRegs f).hold = s.hold := rfl
@[simp] theorem State.withRegs_hbm (s : State) (f : Regs → Regs) : (s.withRegs f).hbm = s.hbm := rfl
@[simp] theorem State.withRegs_csram (s : State) (f : Regs → Regs) : (s.withRegs f).csram = s.csram := rfl
@[simp] theorem State.withRegs_backing (s : State) (f : Regs → Regs) : (s.withRegs f).backing = s.backing := rfl
@[simp] theorem State.withRegs_hostMem (s : State) (f : Regs → Regs) : (s.withRegs f).hostMem = s.hostMem := rfl
@[simp] theorem State.withRegs_peerMem (s : State) (f : Regs → Regs) : (s.withRegs f).peerMem = s.peerMem := rfl
@[simp] theorem State.withRegs_dirty (s : State) (f : Regs → Regs) : (s.withRegs f).dirty = s.dirty := rfl
@[simp] theorem State.withRegs_rdc (s : State) (f : Regs → Regs) : (s.withRegs f).rdc = s.rdc := rfl
@[simp] theorem State.withRegs_poison (s : State) (f : Regs → Regs) : (s.withRegs f).poison = s.poison := rfl
@[simp] theorem State.withRegs_badTags (s : State) (f : Regs → Regs) : (s.withRegs f).badTags = s.badTags := rfl
@[simp] theorem State.withRegs_tlb (s : State) (f : Regs → Regs) : (s.withRegs f).tlb = s.tlb := rfl
@[simp] theorem State.withRegs_coreTc (s : State) (f : Regs → Regs) : (s.withRegs f).coreTc = s.coreTc := rfl
@[simp] theorem State.withRegs_fetchTc (s : State) (f : Regs → Regs) : (s.withRegs f).fetchTc = s.fetchTc := rfl
@[simp] theorem State.withRegs_lineCache (s : State) (f : Regs → Regs) : (s.withRegs f).lineCache = s.lineCache := rfl
@[simp] theorem State.withRegs_walks (s : State) (f : Regs → Regs) : (s.withRegs f).walks = s.walks := rfl
@[simp] theorem State.withRegs_accessQs (s : State) (f : Regs → Regs) : (s.withRegs f).accessQs = s.accessQs := rfl
@[simp] theorem State.withRegs_transit (s : State) (f : Regs → Regs) : (s.withRegs f).transit = s.transit := rfl
@[simp] theorem State.withRegs_counters (s : State) (f : Regs → Regs) : (s.withRegs f).counters = s.counters := rfl
@[simp] theorem State.withRegs_quiet (s : State) (f : Regs → Regs) : (s.withRegs f).quiet = s.quiet := rfl
@[simp] theorem State.withRegs_ctxs (s : State) (f : Regs → Regs) : (s.withRegs f).ctxs = s.ctxs := rfl
@[simp] theorem State.withRegs_nextCtx (s : State) (f : Regs → Regs) : (s.withRegs f).nextCtx = s.nextCtx := rfl
@[simp] theorem State.withRegs_launches (s : State) (f : Regs → Regs) : (s.withRegs f).launches = s.launches := rfl
@[simp] theorem State.withRegs_nextSerial (s : State) (f : Regs → Regs) : (s.withRegs f).nextSerial = s.nextSerial := rfl
@[simp] theorem State.withRegs_clq (s : State) (f : Regs → Regs) : (s.withRegs f).clq = s.clq := rfl
@[simp] theorem State.withRegs_waiting (s : State) (f : Regs → Regs) : (s.withRegs f).waiting = s.waiting := rfl
@[simp] theorem State.withRegs_heldFlits (s : State) (f : Regs → Regs) : (s.withRegs f).heldFlits = s.heldFlits := rfl
@[simp] theorem State.withRegs_lastLaunch (s : State) (f : Regs → Regs) : (s.withRegs f).lastLaunch = s.lastLaunch := rfl
@[simp] theorem State.withRegs_coreResv (s : State) (f : Regs → Regs) : (s.withRegs f).coreResv = s.coreResv := rfl
@[simp] theorem State.withRegs_overBudget (s : State) (f : Regs → Regs) : (s.withRegs f).overBudget = s.overBudget := rfl
@[simp] theorem State.withRegs_served (s : State) (f : Regs → Regs) : (s.withRegs f).served = s.served := rfl
@[simp] theorem State.withRegs_others (s : State) (f : Regs → Regs) : (s.withRegs f).others = s.others := rfl
@[simp] theorem State.withRegs_flrs (s : State) (f : Regs → Regs) : (s.withRegs f).flrs = s.flrs := rfl
@[simp] theorem State.withRegs_fns (s : State) (f : Regs → Regs) : (s.withRegs f).fns = s.fns := rfl
@[simp] theorem State.withRegs_lost (s : State) (f : Regs → Regs) : (s.withRegs f).lost = s.lost := rfl
@[simp] theorem State.withRegs_act (s : State) (f : Regs → Regs) : (s.withRegs f).act = s.act := rfl
@[simp] theorem State.withRegs_air (s : State) (f : Regs → Regs) : (s.withRegs f).air = s.air := rfl
@[simp] theorem State.withRegs_wrote (s : State) (f : Regs → Regs) : (s.withRegs f).wrote = s.wrote := rfl
@[simp] theorem State.withRegs_sent (s : State) (f : Regs → Regs) : (s.withRegs f).sent = s.sent := rfl
@[simp] theorem State.withRegs_sched (s : State) (f : Regs → Regs) : (s.withRegs f).sched = s.sched := rfl
@[simp] theorem State.withRegs_turn (s : State) (f : Regs → Regs) : (s.withRegs f).turn = s.turn := rfl
@[simp] theorem State.withRegs_free (s : State) (f : Regs → Regs) : (s.withRegs f).free = s.free := rfl
@[simp] theorem State.withRegs_cur_status (s : State) (f : Regs → Regs) : (s.withRegs f).cur.status = s.cur.status := rfl
@[simp] theorem State.withRegs_cur_pool (s : State) (f : Regs → Regs) : (s.withRegs f).cur.pool = s.cur.pool := rfl
@[simp] theorem State.withRegs_cur_regs (s : State) (f : Regs → Regs) : (s.withRegs f).cur.regs = f s.cur.regs := rfl
@[simp] theorem State.withRegs_cur_sys (s : State) (f : Regs → Regs) : (s.withRegs f).cur.sys = s.cur.sys := rfl
@[simp] theorem State.withRegs_cur_flow (s : State) (f : Regs → Regs) : (s.withRegs f).cur.flow = s.cur.flow := rfl
@[simp] theorem State.withRegs_cur_nums (s : State) (f : Regs → Regs) : (s.withRegs f).cur.nums = s.cur.nums := rfl
@[simp] theorem State.withRegs_cur_queues (s : State) (f : Regs → Regs) : (s.withRegs f).cur.queues = s.cur.queues := rfl
@[simp] theorem State.withRegs_cur_ords (s : State) (f : Regs → Regs) : (s.withRegs f).cur.ords = s.cur.ords := rfl
@[simp] theorem State.withRegs_cur_marked (s : State) (f : Regs → Regs) : (s.withRegs f).cur.marked = s.cur.marked := rfl
@[simp] theorem State.withRegs_cur_freed (s : State) (f : Regs → Regs) : (s.withRegs f).cur.freed = s.cur.freed := rfl
@[simp] theorem State.withRegs_cur_thunks (s : State) (f : Regs → Regs) : (s.withRegs f).cur.thunks = s.cur.thunks := rfl
@[simp] theorem State.withRegs_cur_ifq (s : State) (f : Regs → Regs) : (s.withRegs f).cur.ifq = s.cur.ifq := rfl
@[simp] theorem State.withRegs_cur_mx (s : State) (f : Regs → Regs) : (s.withRegs f).cur.mx = s.cur.mx := rfl
@[simp] theorem State.withRegs_cur_puts (s : State) (f : Regs → Regs) : (s.withRegs f).cur.puts = s.cur.puts := rfl
@[simp] theorem State.withRegs_cur_adrift (s : State) (f : Regs → Regs) : (s.withRegs f).cur.adrift = s.cur.adrift := rfl
@[simp] theorem State.withRegs_cur_badger (s : State) (f : Regs → Regs) : (s.withRegs f).cur.badger = s.cur.badger := rfl
@[simp] theorem State.withRegs_cur_wants (s : State) (f : Regs → Regs) : (s.withRegs f).cur.wants = s.cur.wants := rfl
@[simp] theorem State.withRegs_cur_scratch (s : State) (f : Regs → Regs) : (s.withRegs f).cur.scratch = s.cur.scratch := rfl
@[simp] theorem State.withRegs_cur_filled (s : State) (f : Regs → Regs) : (s.withRegs f).cur.filled = s.cur.filled := rfl
@[simp] theorem State.withRegs_cur_written (s : State) (f : Regs → Regs) : (s.withRegs f).cur.written = s.cur.written := rfl
@[simp] theorem State.withRegs_cur_home (s : State) (f : Regs → Regs) : (s.withRegs f).cur.home = s.cur.home := rfl
@[simp] theorem State.withRegs_cur_vcq (s : State) (f : Regs → Regs) : (s.withRegs f).cur.vcq = s.cur.vcq := rfl
@[simp] theorem State.withRegs_cur_cpTail (s : State) (f : Regs → Regs) : (s.withRegs f).cur.cpTail = s.cur.cpTail := rfl
@[simp] theorem State.withRegs_cur_heldLnk (s : State) (f : Regs → Regs) : (s.withRegs f).cur.heldLnk = s.cur.heldLnk := rfl
@[simp] theorem State.withRegs_cur_held (s : State) (f : Regs → Regs) : (s.withRegs f).cur.held = s.cur.held := rfl
@[simp] theorem State.withRegs_cur_handles (s : State) (f : Regs → Regs) : (s.withRegs f).cur.handles = s.cur.handles := rfl
@[simp] theorem State.withRegs_cur_recordVa (s : State) (f : Regs → Regs) : (s.withRegs f).cur.recordVa = s.cur.recordVa := rfl
@[simp] theorem State.withRegs_cur_setter (s : State) (f : Regs → Regs) : (s.withRegs f).cur.setter = s.cur.setter := rfl

/-! ### State.withSys -/

@[simp] theorem State.withSys_now (s : State) (f : Special → Special) : (s.withSys f).now = s.now := rfl
@[simp] theorem State.withSys_isReady (s : State) (f : Special → Special) : (s.withSys f).isReady = s.isReady := rfl
@[simp] theorem State.withSys_resetting (s : State) (f : Special → Special) : (s.withSys f).resetting = s.resetting := rfl
@[simp] theorem State.withSys_thermal (s : State) (f : Special → Special) : (s.withSys f).thermal = s.thermal := rfl
@[simp] theorem State.withSys_throttle (s : State) (f : Special → Special) : (s.withSys f).throttle = s.throttle := rfl
@[simp] theorem State.withSys_throttled (s : State) (f : Special → Special) : (s.withSys f).throttled = s.throttled := rfl
@[simp] theorem State.withSys_portDown (s : State) (f : Special → Special) : (s.withSys f).portDown = s.portDown := rfl
@[simp] theorem State.withSys_retries (s : State) (f : Special → Special) : (s.withSys f).retries = s.retries := rfl
@[simp] theorem State.withSys_trained (s : State) (f : Special → Special) : (s.withSys f).trained = s.trained := rfl
@[simp] theorem State.withSys_dieTemp (s : State) (f : Special → Special) : (s.withSys f).dieTemp = s.dieTemp := rfl
@[simp] theorem State.withSys_power (s : State) (f : Special → Special) : (s.withSys f).power = s.power := rfl
@[simp] theorem State.withSys_hold (s : State) (f : Special → Special) : (s.withSys f).hold = s.hold := rfl
@[simp] theorem State.withSys_hbm (s : State) (f : Special → Special) : (s.withSys f).hbm = s.hbm := rfl
@[simp] theorem State.withSys_csram (s : State) (f : Special → Special) : (s.withSys f).csram = s.csram := rfl
@[simp] theorem State.withSys_backing (s : State) (f : Special → Special) : (s.withSys f).backing = s.backing := rfl
@[simp] theorem State.withSys_hostMem (s : State) (f : Special → Special) : (s.withSys f).hostMem = s.hostMem := rfl
@[simp] theorem State.withSys_peerMem (s : State) (f : Special → Special) : (s.withSys f).peerMem = s.peerMem := rfl
@[simp] theorem State.withSys_dirty (s : State) (f : Special → Special) : (s.withSys f).dirty = s.dirty := rfl
@[simp] theorem State.withSys_rdc (s : State) (f : Special → Special) : (s.withSys f).rdc = s.rdc := rfl
@[simp] theorem State.withSys_poison (s : State) (f : Special → Special) : (s.withSys f).poison = s.poison := rfl
@[simp] theorem State.withSys_badTags (s : State) (f : Special → Special) : (s.withSys f).badTags = s.badTags := rfl
@[simp] theorem State.withSys_tlb (s : State) (f : Special → Special) : (s.withSys f).tlb = s.tlb := rfl
@[simp] theorem State.withSys_coreTc (s : State) (f : Special → Special) : (s.withSys f).coreTc = s.coreTc := rfl
@[simp] theorem State.withSys_fetchTc (s : State) (f : Special → Special) : (s.withSys f).fetchTc = s.fetchTc := rfl
@[simp] theorem State.withSys_lineCache (s : State) (f : Special → Special) : (s.withSys f).lineCache = s.lineCache := rfl
@[simp] theorem State.withSys_walks (s : State) (f : Special → Special) : (s.withSys f).walks = s.walks := rfl
@[simp] theorem State.withSys_accessQs (s : State) (f : Special → Special) : (s.withSys f).accessQs = s.accessQs := rfl
@[simp] theorem State.withSys_transit (s : State) (f : Special → Special) : (s.withSys f).transit = s.transit := rfl
@[simp] theorem State.withSys_counters (s : State) (f : Special → Special) : (s.withSys f).counters = s.counters := rfl
@[simp] theorem State.withSys_quiet (s : State) (f : Special → Special) : (s.withSys f).quiet = s.quiet := rfl
@[simp] theorem State.withSys_ctxs (s : State) (f : Special → Special) : (s.withSys f).ctxs = s.ctxs := rfl
@[simp] theorem State.withSys_nextCtx (s : State) (f : Special → Special) : (s.withSys f).nextCtx = s.nextCtx := rfl
@[simp] theorem State.withSys_launches (s : State) (f : Special → Special) : (s.withSys f).launches = s.launches := rfl
@[simp] theorem State.withSys_nextSerial (s : State) (f : Special → Special) : (s.withSys f).nextSerial = s.nextSerial := rfl
@[simp] theorem State.withSys_clq (s : State) (f : Special → Special) : (s.withSys f).clq = s.clq := rfl
@[simp] theorem State.withSys_waiting (s : State) (f : Special → Special) : (s.withSys f).waiting = s.waiting := rfl
@[simp] theorem State.withSys_heldFlits (s : State) (f : Special → Special) : (s.withSys f).heldFlits = s.heldFlits := rfl
@[simp] theorem State.withSys_lastLaunch (s : State) (f : Special → Special) : (s.withSys f).lastLaunch = s.lastLaunch := rfl
@[simp] theorem State.withSys_coreResv (s : State) (f : Special → Special) : (s.withSys f).coreResv = s.coreResv := rfl
@[simp] theorem State.withSys_overBudget (s : State) (f : Special → Special) : (s.withSys f).overBudget = s.overBudget := rfl
@[simp] theorem State.withSys_served (s : State) (f : Special → Special) : (s.withSys f).served = s.served := rfl
@[simp] theorem State.withSys_others (s : State) (f : Special → Special) : (s.withSys f).others = s.others := rfl
@[simp] theorem State.withSys_flrs (s : State) (f : Special → Special) : (s.withSys f).flrs = s.flrs := rfl
@[simp] theorem State.withSys_fns (s : State) (f : Special → Special) : (s.withSys f).fns = s.fns := rfl
@[simp] theorem State.withSys_lost (s : State) (f : Special → Special) : (s.withSys f).lost = s.lost := rfl
@[simp] theorem State.withSys_act (s : State) (f : Special → Special) : (s.withSys f).act = s.act := rfl
@[simp] theorem State.withSys_air (s : State) (f : Special → Special) : (s.withSys f).air = s.air := rfl
@[simp] theorem State.withSys_wrote (s : State) (f : Special → Special) : (s.withSys f).wrote = s.wrote := rfl
@[simp] theorem State.withSys_sent (s : State) (f : Special → Special) : (s.withSys f).sent = s.sent := rfl
@[simp] theorem State.withSys_sched (s : State) (f : Special → Special) : (s.withSys f).sched = s.sched := rfl
@[simp] theorem State.withSys_turn (s : State) (f : Special → Special) : (s.withSys f).turn = s.turn := rfl
@[simp] theorem State.withSys_free (s : State) (f : Special → Special) : (s.withSys f).free = s.free := rfl
@[simp] theorem State.withSys_cur_status (s : State) (f : Special → Special) : (s.withSys f).cur.status = s.cur.status := rfl
@[simp] theorem State.withSys_cur_pool (s : State) (f : Special → Special) : (s.withSys f).cur.pool = s.cur.pool := rfl
@[simp] theorem State.withSys_cur_regs (s : State) (f : Special → Special) : (s.withSys f).cur.regs = s.cur.regs := rfl
@[simp] theorem State.withSys_cur_sys (s : State) (f : Special → Special) : (s.withSys f).cur.sys = f s.cur.sys := rfl
@[simp] theorem State.withSys_cur_flow (s : State) (f : Special → Special) : (s.withSys f).cur.flow = s.cur.flow := rfl
@[simp] theorem State.withSys_cur_nums (s : State) (f : Special → Special) : (s.withSys f).cur.nums = s.cur.nums := rfl
@[simp] theorem State.withSys_cur_queues (s : State) (f : Special → Special) : (s.withSys f).cur.queues = s.cur.queues := rfl
@[simp] theorem State.withSys_cur_ords (s : State) (f : Special → Special) : (s.withSys f).cur.ords = s.cur.ords := rfl
@[simp] theorem State.withSys_cur_marked (s : State) (f : Special → Special) : (s.withSys f).cur.marked = s.cur.marked := rfl
@[simp] theorem State.withSys_cur_freed (s : State) (f : Special → Special) : (s.withSys f).cur.freed = s.cur.freed := rfl
@[simp] theorem State.withSys_cur_thunks (s : State) (f : Special → Special) : (s.withSys f).cur.thunks = s.cur.thunks := rfl
@[simp] theorem State.withSys_cur_ifq (s : State) (f : Special → Special) : (s.withSys f).cur.ifq = s.cur.ifq := rfl
@[simp] theorem State.withSys_cur_mx (s : State) (f : Special → Special) : (s.withSys f).cur.mx = s.cur.mx := rfl
@[simp] theorem State.withSys_cur_puts (s : State) (f : Special → Special) : (s.withSys f).cur.puts = s.cur.puts := rfl
@[simp] theorem State.withSys_cur_adrift (s : State) (f : Special → Special) : (s.withSys f).cur.adrift = s.cur.adrift := rfl
@[simp] theorem State.withSys_cur_badger (s : State) (f : Special → Special) : (s.withSys f).cur.badger = s.cur.badger := rfl
@[simp] theorem State.withSys_cur_wants (s : State) (f : Special → Special) : (s.withSys f).cur.wants = s.cur.wants := rfl
@[simp] theorem State.withSys_cur_scratch (s : State) (f : Special → Special) : (s.withSys f).cur.scratch = s.cur.scratch := rfl
@[simp] theorem State.withSys_cur_filled (s : State) (f : Special → Special) : (s.withSys f).cur.filled = s.cur.filled := rfl
@[simp] theorem State.withSys_cur_written (s : State) (f : Special → Special) : (s.withSys f).cur.written = s.cur.written := rfl
@[simp] theorem State.withSys_cur_home (s : State) (f : Special → Special) : (s.withSys f).cur.home = s.cur.home := rfl
@[simp] theorem State.withSys_cur_vcq (s : State) (f : Special → Special) : (s.withSys f).cur.vcq = s.cur.vcq := rfl
@[simp] theorem State.withSys_cur_cpTail (s : State) (f : Special → Special) : (s.withSys f).cur.cpTail = s.cur.cpTail := rfl
@[simp] theorem State.withSys_cur_heldLnk (s : State) (f : Special → Special) : (s.withSys f).cur.heldLnk = s.cur.heldLnk := rfl
@[simp] theorem State.withSys_cur_held (s : State) (f : Special → Special) : (s.withSys f).cur.held = s.cur.held := rfl
@[simp] theorem State.withSys_cur_handles (s : State) (f : Special → Special) : (s.withSys f).cur.handles = s.cur.handles := rfl
@[simp] theorem State.withSys_cur_recordVa (s : State) (f : Special → Special) : (s.withSys f).cur.recordVa = s.cur.recordVa := rfl
@[simp] theorem State.withSys_cur_setter (s : State) (f : Special → Special) : (s.withSys f).cur.setter = s.cur.setter := rfl

/-! ### State.past -/

@[simp] theorem State.past_now (s : State) (n : Nat) : (s.past n).now = s.now := rfl
@[simp] theorem State.past_isReady (s : State) (n : Nat) : (s.past n).isReady = s.isReady := rfl
@[simp] theorem State.past_resetting (s : State) (n : Nat) : (s.past n).resetting = s.resetting := rfl
@[simp] theorem State.past_thermal (s : State) (n : Nat) : (s.past n).thermal = s.thermal := rfl
@[simp] theorem State.past_throttle (s : State) (n : Nat) : (s.past n).throttle = s.throttle := rfl
@[simp] theorem State.past_throttled (s : State) (n : Nat) : (s.past n).throttled = s.throttled := rfl
@[simp] theorem State.past_portDown (s : State) (n : Nat) : (s.past n).portDown = s.portDown := rfl
@[simp] theorem State.past_retries (s : State) (n : Nat) : (s.past n).retries = s.retries := rfl
@[simp] theorem State.past_trained (s : State) (n : Nat) : (s.past n).trained = s.trained := rfl
@[simp] theorem State.past_dieTemp (s : State) (n : Nat) : (s.past n).dieTemp = s.dieTemp := rfl
@[simp] theorem State.past_power (s : State) (n : Nat) : (s.past n).power = s.power := rfl
@[simp] theorem State.past_hold (s : State) (n : Nat) : (s.past n).hold = s.hold := rfl
@[simp] theorem State.past_hbm (s : State) (n : Nat) : (s.past n).hbm = s.hbm := rfl
@[simp] theorem State.past_csram (s : State) (n : Nat) : (s.past n).csram = s.csram := rfl
@[simp] theorem State.past_backing (s : State) (n : Nat) : (s.past n).backing = s.backing := rfl
@[simp] theorem State.past_hostMem (s : State) (n : Nat) : (s.past n).hostMem = s.hostMem := rfl
@[simp] theorem State.past_peerMem (s : State) (n : Nat) : (s.past n).peerMem = s.peerMem := rfl
@[simp] theorem State.past_dirty (s : State) (n : Nat) : (s.past n).dirty = s.dirty := rfl
@[simp] theorem State.past_rdc (s : State) (n : Nat) : (s.past n).rdc = s.rdc := rfl
@[simp] theorem State.past_poison (s : State) (n : Nat) : (s.past n).poison = s.poison := rfl
@[simp] theorem State.past_badTags (s : State) (n : Nat) : (s.past n).badTags = s.badTags := rfl
@[simp] theorem State.past_tlb (s : State) (n : Nat) : (s.past n).tlb = s.tlb := rfl
@[simp] theorem State.past_coreTc (s : State) (n : Nat) : (s.past n).coreTc = s.coreTc := rfl
@[simp] theorem State.past_fetchTc (s : State) (n : Nat) : (s.past n).fetchTc = s.fetchTc := rfl
@[simp] theorem State.past_lineCache (s : State) (n : Nat) : (s.past n).lineCache = s.lineCache := rfl
@[simp] theorem State.past_walks (s : State) (n : Nat) : (s.past n).walks = s.walks := rfl
@[simp] theorem State.past_accessQs (s : State) (n : Nat) : (s.past n).accessQs = s.accessQs := rfl
@[simp] theorem State.past_transit (s : State) (n : Nat) : (s.past n).transit = s.transit := rfl
@[simp] theorem State.past_counters (s : State) (n : Nat) : (s.past n).counters = s.counters := rfl
@[simp] theorem State.past_quiet (s : State) (n : Nat) : (s.past n).quiet = s.quiet := rfl
@[simp] theorem State.past_ctxs (s : State) (n : Nat) : (s.past n).ctxs = s.ctxs := rfl
@[simp] theorem State.past_nextCtx (s : State) (n : Nat) : (s.past n).nextCtx = s.nextCtx := rfl
@[simp] theorem State.past_launches (s : State) (n : Nat) : (s.past n).launches = s.launches := rfl
@[simp] theorem State.past_nextSerial (s : State) (n : Nat) : (s.past n).nextSerial = s.nextSerial := rfl
@[simp] theorem State.past_clq (s : State) (n : Nat) : (s.past n).clq = s.clq := rfl
@[simp] theorem State.past_waiting (s : State) (n : Nat) : (s.past n).waiting = s.waiting := rfl
@[simp] theorem State.past_heldFlits (s : State) (n : Nat) : (s.past n).heldFlits = s.heldFlits := rfl
@[simp] theorem State.past_lastLaunch (s : State) (n : Nat) : (s.past n).lastLaunch = s.lastLaunch := rfl
@[simp] theorem State.past_coreResv (s : State) (n : Nat) : (s.past n).coreResv = s.coreResv := rfl
@[simp] theorem State.past_overBudget (s : State) (n : Nat) : (s.past n).overBudget = s.overBudget := rfl
@[simp] theorem State.past_served (s : State) (n : Nat) : (s.past n).served = s.served := rfl
@[simp] theorem State.past_others (s : State) (n : Nat) : (s.past n).others = s.others := rfl
@[simp] theorem State.past_flrs (s : State) (n : Nat) : (s.past n).flrs = s.flrs := rfl
@[simp] theorem State.past_fns (s : State) (n : Nat) : (s.past n).fns = s.fns := rfl
@[simp] theorem State.past_lost (s : State) (n : Nat) : (s.past n).lost = s.lost := rfl
@[simp] theorem State.past_act (s : State) (n : Nat) : (s.past n).act = s.act := rfl
@[simp] theorem State.past_air (s : State) (n : Nat) : (s.past n).air = s.air := rfl
@[simp] theorem State.past_wrote (s : State) (n : Nat) : (s.past n).wrote = s.wrote := rfl
@[simp] theorem State.past_sent (s : State) (n : Nat) : (s.past n).sent = s.sent := rfl
@[simp] theorem State.past_sched (s : State) (n : Nat) : (s.past n).sched = s.sched := rfl
@[simp] theorem State.past_turn (s : State) (n : Nat) : (s.past n).turn = s.turn := rfl
@[simp] theorem State.past_free (s : State) (n : Nat) : (s.past n).free = s.free := rfl
@[simp] theorem State.past_cur_status (s : State) (n : Nat) : (s.past n).cur.status = s.cur.status := rfl
@[simp] theorem State.past_cur_pool (s : State) (n : Nat) : (s.past n).cur.pool = s.cur.pool := rfl
@[simp] theorem State.past_cur_regs (s : State) (n : Nat) : (s.past n).cur.regs = s.cur.regs := rfl
@[simp] theorem State.past_cur_sys (s : State) (n : Nat) : (s.past n).cur.sys = s.cur.sys := rfl
@[simp] theorem State.past_cur_flow (s : State) (n : Nat) : (s.past n).cur.flow = s.cur.flow.after n := rfl
@[simp] theorem State.past_cur_nums (s : State) (n : Nat) : (s.past n).cur.nums = s.cur.nums.set Stream.seq.ix (s.cur.num .seq + 1) Stream.seq.ix.isLt := rfl
@[simp] theorem State.past_cur_queues (s : State) (n : Nat) : (s.past n).cur.queues = s.cur.queues := rfl
@[simp] theorem State.past_cur_ords (s : State) (n : Nat) : (s.past n).cur.ords = s.cur.ords := rfl
@[simp] theorem State.past_cur_marked (s : State) (n : Nat) : (s.past n).cur.marked = s.cur.marked := rfl
@[simp] theorem State.past_cur_freed (s : State) (n : Nat) : (s.past n).cur.freed = s.cur.freed := rfl
@[simp] theorem State.past_cur_thunks (s : State) (n : Nat) : (s.past n).cur.thunks = s.cur.thunks := rfl
@[simp] theorem State.past_cur_ifq (s : State) (n : Nat) : (s.past n).cur.ifq = s.cur.ifq := rfl
@[simp] theorem State.past_cur_mx (s : State) (n : Nat) : (s.past n).cur.mx = s.cur.mx := rfl
@[simp] theorem State.past_cur_puts (s : State) (n : Nat) : (s.past n).cur.puts = s.cur.puts := rfl
@[simp] theorem State.past_cur_adrift (s : State) (n : Nat) : (s.past n).cur.adrift = s.cur.adrift := rfl
@[simp] theorem State.past_cur_badger (s : State) (n : Nat) : (s.past n).cur.badger = s.cur.badger := rfl
@[simp] theorem State.past_cur_wants (s : State) (n : Nat) : (s.past n).cur.wants = s.cur.wants := rfl
@[simp] theorem State.past_cur_scratch (s : State) (n : Nat) : (s.past n).cur.scratch = s.cur.scratch := rfl
@[simp] theorem State.past_cur_filled (s : State) (n : Nat) : (s.past n).cur.filled = s.cur.filled := rfl
@[simp] theorem State.past_cur_written (s : State) (n : Nat) : (s.past n).cur.written = s.cur.written := rfl
@[simp] theorem State.past_cur_home (s : State) (n : Nat) : (s.past n).cur.home = s.cur.home := rfl
@[simp] theorem State.past_cur_vcq (s : State) (n : Nat) : (s.past n).cur.vcq = s.cur.vcq := rfl
@[simp] theorem State.past_cur_cpTail (s : State) (n : Nat) : (s.past n).cur.cpTail = s.cur.cpTail := rfl
@[simp] theorem State.past_cur_heldLnk (s : State) (n : Nat) : (s.past n).cur.heldLnk = s.cur.heldLnk := rfl
@[simp] theorem State.past_cur_held (s : State) (n : Nat) : (s.past n).cur.held = s.cur.held := rfl
@[simp] theorem State.past_cur_handles (s : State) (n : Nat) : (s.past n).cur.handles = s.cur.handles := rfl
@[simp] theorem State.past_cur_recordVa (s : State) (n : Nat) : (s.past n).cur.recordVa = s.cur.recordVa := rfl
@[simp] theorem State.past_cur_setter (s : State) (n : Nat) : (s.past n).cur.setter = s.cur.setter := rfl

/-! ### State.goneTo -/

@[simp] theorem State.goneTo_now (s : State) (a : Word) : (s.goneTo a).now = s.now := rfl
@[simp] theorem State.goneTo_isReady (s : State) (a : Word) : (s.goneTo a).isReady = s.isReady := rfl
@[simp] theorem State.goneTo_resetting (s : State) (a : Word) : (s.goneTo a).resetting = s.resetting := rfl
@[simp] theorem State.goneTo_thermal (s : State) (a : Word) : (s.goneTo a).thermal = s.thermal := rfl
@[simp] theorem State.goneTo_throttle (s : State) (a : Word) : (s.goneTo a).throttle = s.throttle := rfl
@[simp] theorem State.goneTo_throttled (s : State) (a : Word) : (s.goneTo a).throttled = s.throttled := rfl
@[simp] theorem State.goneTo_portDown (s : State) (a : Word) : (s.goneTo a).portDown = s.portDown := rfl
@[simp] theorem State.goneTo_retries (s : State) (a : Word) : (s.goneTo a).retries = s.retries := rfl
@[simp] theorem State.goneTo_trained (s : State) (a : Word) : (s.goneTo a).trained = s.trained := rfl
@[simp] theorem State.goneTo_dieTemp (s : State) (a : Word) : (s.goneTo a).dieTemp = s.dieTemp := rfl
@[simp] theorem State.goneTo_power (s : State) (a : Word) : (s.goneTo a).power = s.power := rfl
@[simp] theorem State.goneTo_hold (s : State) (a : Word) : (s.goneTo a).hold = s.hold := rfl
@[simp] theorem State.goneTo_hbm (s : State) (a : Word) : (s.goneTo a).hbm = s.hbm := rfl
@[simp] theorem State.goneTo_csram (s : State) (a : Word) : (s.goneTo a).csram = s.csram := rfl
@[simp] theorem State.goneTo_backing (s : State) (a : Word) : (s.goneTo a).backing = s.backing := rfl
@[simp] theorem State.goneTo_hostMem (s : State) (a : Word) : (s.goneTo a).hostMem = s.hostMem := rfl
@[simp] theorem State.goneTo_peerMem (s : State) (a : Word) : (s.goneTo a).peerMem = s.peerMem := rfl
@[simp] theorem State.goneTo_dirty (s : State) (a : Word) : (s.goneTo a).dirty = s.dirty := rfl
@[simp] theorem State.goneTo_rdc (s : State) (a : Word) : (s.goneTo a).rdc = s.rdc := rfl
@[simp] theorem State.goneTo_poison (s : State) (a : Word) : (s.goneTo a).poison = s.poison := rfl
@[simp] theorem State.goneTo_badTags (s : State) (a : Word) : (s.goneTo a).badTags = s.badTags := rfl
@[simp] theorem State.goneTo_tlb (s : State) (a : Word) : (s.goneTo a).tlb = s.tlb := rfl
@[simp] theorem State.goneTo_coreTc (s : State) (a : Word) : (s.goneTo a).coreTc = s.coreTc := rfl
@[simp] theorem State.goneTo_fetchTc (s : State) (a : Word) : (s.goneTo a).fetchTc = s.fetchTc := rfl
@[simp] theorem State.goneTo_lineCache (s : State) (a : Word) : (s.goneTo a).lineCache = s.lineCache := rfl
@[simp] theorem State.goneTo_walks (s : State) (a : Word) : (s.goneTo a).walks = s.walks := rfl
@[simp] theorem State.goneTo_accessQs (s : State) (a : Word) : (s.goneTo a).accessQs = s.accessQs := rfl
@[simp] theorem State.goneTo_transit (s : State) (a : Word) : (s.goneTo a).transit = s.transit := rfl
@[simp] theorem State.goneTo_counters (s : State) (a : Word) : (s.goneTo a).counters = s.counters := rfl
@[simp] theorem State.goneTo_quiet (s : State) (a : Word) : (s.goneTo a).quiet = s.quiet := rfl
@[simp] theorem State.goneTo_ctxs (s : State) (a : Word) : (s.goneTo a).ctxs = s.ctxs := rfl
@[simp] theorem State.goneTo_nextCtx (s : State) (a : Word) : (s.goneTo a).nextCtx = s.nextCtx := rfl
@[simp] theorem State.goneTo_launches (s : State) (a : Word) : (s.goneTo a).launches = s.launches := rfl
@[simp] theorem State.goneTo_nextSerial (s : State) (a : Word) : (s.goneTo a).nextSerial = s.nextSerial := rfl
@[simp] theorem State.goneTo_clq (s : State) (a : Word) : (s.goneTo a).clq = s.clq := rfl
@[simp] theorem State.goneTo_waiting (s : State) (a : Word) : (s.goneTo a).waiting = s.waiting := rfl
@[simp] theorem State.goneTo_heldFlits (s : State) (a : Word) : (s.goneTo a).heldFlits = s.heldFlits := rfl
@[simp] theorem State.goneTo_lastLaunch (s : State) (a : Word) : (s.goneTo a).lastLaunch = s.lastLaunch := rfl
@[simp] theorem State.goneTo_coreResv (s : State) (a : Word) : (s.goneTo a).coreResv = s.coreResv := rfl
@[simp] theorem State.goneTo_overBudget (s : State) (a : Word) : (s.goneTo a).overBudget = s.overBudget := rfl
@[simp] theorem State.goneTo_served (s : State) (a : Word) : (s.goneTo a).served = s.served := rfl
@[simp] theorem State.goneTo_others (s : State) (a : Word) : (s.goneTo a).others = s.others := rfl
@[simp] theorem State.goneTo_flrs (s : State) (a : Word) : (s.goneTo a).flrs = s.flrs := rfl
@[simp] theorem State.goneTo_fns (s : State) (a : Word) : (s.goneTo a).fns = s.fns := rfl
@[simp] theorem State.goneTo_lost (s : State) (a : Word) : (s.goneTo a).lost = s.lost := rfl
@[simp] theorem State.goneTo_act (s : State) (a : Word) : (s.goneTo a).act = s.act := rfl
@[simp] theorem State.goneTo_air (s : State) (a : Word) : (s.goneTo a).air = s.air := rfl
@[simp] theorem State.goneTo_wrote (s : State) (a : Word) : (s.goneTo a).wrote = s.wrote := rfl
@[simp] theorem State.goneTo_sent (s : State) (a : Word) : (s.goneTo a).sent = s.sent := rfl
@[simp] theorem State.goneTo_sched (s : State) (a : Word) : (s.goneTo a).sched = s.sched := rfl
@[simp] theorem State.goneTo_turn (s : State) (a : Word) : (s.goneTo a).turn = s.turn := rfl
@[simp] theorem State.goneTo_free (s : State) (a : Word) : (s.goneTo a).free = s.free := rfl
@[simp] theorem State.goneTo_cur_status (s : State) (a : Word) : (s.goneTo a).cur.status = s.cur.status := rfl
@[simp] theorem State.goneTo_cur_pool (s : State) (a : Word) : (s.goneTo a).cur.pool = s.cur.pool := rfl
@[simp] theorem State.goneTo_cur_regs (s : State) (a : Word) : (s.goneTo a).cur.regs = s.cur.regs := rfl
@[simp] theorem State.goneTo_cur_sys (s : State) (a : Word) : (s.goneTo a).cur.sys = s.cur.sys := rfl
@[simp] theorem State.goneTo_cur_flow (s : State) (a : Word) : (s.goneTo a).cur.flow = s.cur.flow.to a := rfl
@[simp] theorem State.goneTo_cur_nums (s : State) (a : Word) : (s.goneTo a).cur.nums = s.cur.nums.set Stream.seq.ix (s.cur.num .seq + 1) Stream.seq.ix.isLt := rfl
@[simp] theorem State.goneTo_cur_queues (s : State) (a : Word) : (s.goneTo a).cur.queues = s.cur.queues := rfl
@[simp] theorem State.goneTo_cur_ords (s : State) (a : Word) : (s.goneTo a).cur.ords = s.cur.ords := rfl
@[simp] theorem State.goneTo_cur_marked (s : State) (a : Word) : (s.goneTo a).cur.marked = s.cur.marked := rfl
@[simp] theorem State.goneTo_cur_freed (s : State) (a : Word) : (s.goneTo a).cur.freed = s.cur.freed := rfl
@[simp] theorem State.goneTo_cur_thunks (s : State) (a : Word) : (s.goneTo a).cur.thunks = s.cur.thunks := rfl
@[simp] theorem State.goneTo_cur_ifq (s : State) (a : Word) : (s.goneTo a).cur.ifq = s.cur.ifq := rfl
@[simp] theorem State.goneTo_cur_mx (s : State) (a : Word) : (s.goneTo a).cur.mx = s.cur.mx := rfl
@[simp] theorem State.goneTo_cur_puts (s : State) (a : Word) : (s.goneTo a).cur.puts = s.cur.puts := rfl
@[simp] theorem State.goneTo_cur_adrift (s : State) (a : Word) : (s.goneTo a).cur.adrift = s.cur.adrift := rfl
@[simp] theorem State.goneTo_cur_badger (s : State) (a : Word) : (s.goneTo a).cur.badger = s.cur.badger := rfl
@[simp] theorem State.goneTo_cur_wants (s : State) (a : Word) : (s.goneTo a).cur.wants = s.cur.wants := rfl
@[simp] theorem State.goneTo_cur_scratch (s : State) (a : Word) : (s.goneTo a).cur.scratch = s.cur.scratch := rfl
@[simp] theorem State.goneTo_cur_filled (s : State) (a : Word) : (s.goneTo a).cur.filled = s.cur.filled := rfl
@[simp] theorem State.goneTo_cur_written (s : State) (a : Word) : (s.goneTo a).cur.written = s.cur.written := rfl
@[simp] theorem State.goneTo_cur_home (s : State) (a : Word) : (s.goneTo a).cur.home = s.cur.home := rfl
@[simp] theorem State.goneTo_cur_vcq (s : State) (a : Word) : (s.goneTo a).cur.vcq = s.cur.vcq := rfl
@[simp] theorem State.goneTo_cur_cpTail (s : State) (a : Word) : (s.goneTo a).cur.cpTail = s.cur.cpTail := rfl
@[simp] theorem State.goneTo_cur_heldLnk (s : State) (a : Word) : (s.goneTo a).cur.heldLnk = s.cur.heldLnk := rfl
@[simp] theorem State.goneTo_cur_held (s : State) (a : Word) : (s.goneTo a).cur.held = s.cur.held := rfl
@[simp] theorem State.goneTo_cur_handles (s : State) (a : Word) : (s.goneTo a).cur.handles = s.cur.handles := rfl
@[simp] theorem State.goneTo_cur_recordVa (s : State) (a : Word) : (s.goneTo a).cur.recordVa = s.cur.recordVa := rfl
@[simp] theorem State.goneTo_cur_setter (s : State) (a : Word) : (s.goneTo a).cur.setter = s.cur.setter := rfl

/-! ### State.withTask -/

@[simp] theorem State.withTask_now (s : State) (f : Task → Task) : (s.withTask f).now = s.now := rfl
@[simp] theorem State.withTask_isReady (s : State) (f : Task → Task) : (s.withTask f).isReady = s.isReady := rfl
@[simp] theorem State.withTask_resetting (s : State) (f : Task → Task) : (s.withTask f).resetting = s.resetting := rfl
@[simp] theorem State.withTask_thermal (s : State) (f : Task → Task) : (s.withTask f).thermal = s.thermal := rfl
@[simp] theorem State.withTask_throttle (s : State) (f : Task → Task) : (s.withTask f).throttle = s.throttle := rfl
@[simp] theorem State.withTask_throttled (s : State) (f : Task → Task) : (s.withTask f).throttled = s.throttled := rfl
@[simp] theorem State.withTask_portDown (s : State) (f : Task → Task) : (s.withTask f).portDown = s.portDown := rfl
@[simp] theorem State.withTask_retries (s : State) (f : Task → Task) : (s.withTask f).retries = s.retries := rfl
@[simp] theorem State.withTask_trained (s : State) (f : Task → Task) : (s.withTask f).trained = s.trained := rfl
@[simp] theorem State.withTask_dieTemp (s : State) (f : Task → Task) : (s.withTask f).dieTemp = s.dieTemp := rfl
@[simp] theorem State.withTask_power (s : State) (f : Task → Task) : (s.withTask f).power = s.power := rfl
@[simp] theorem State.withTask_hold (s : State) (f : Task → Task) : (s.withTask f).hold = s.hold := rfl
@[simp] theorem State.withTask_hbm (s : State) (f : Task → Task) : (s.withTask f).hbm = s.hbm := rfl
@[simp] theorem State.withTask_csram (s : State) (f : Task → Task) : (s.withTask f).csram = s.csram := rfl
@[simp] theorem State.withTask_backing (s : State) (f : Task → Task) : (s.withTask f).backing = s.backing := rfl
@[simp] theorem State.withTask_hostMem (s : State) (f : Task → Task) : (s.withTask f).hostMem = s.hostMem := rfl
@[simp] theorem State.withTask_peerMem (s : State) (f : Task → Task) : (s.withTask f).peerMem = s.peerMem := rfl
@[simp] theorem State.withTask_dirty (s : State) (f : Task → Task) : (s.withTask f).dirty = s.dirty := rfl
@[simp] theorem State.withTask_rdc (s : State) (f : Task → Task) : (s.withTask f).rdc = s.rdc := rfl
@[simp] theorem State.withTask_poison (s : State) (f : Task → Task) : (s.withTask f).poison = s.poison := rfl
@[simp] theorem State.withTask_badTags (s : State) (f : Task → Task) : (s.withTask f).badTags = s.badTags := rfl
@[simp] theorem State.withTask_tlb (s : State) (f : Task → Task) : (s.withTask f).tlb = s.tlb := rfl
@[simp] theorem State.withTask_coreTc (s : State) (f : Task → Task) : (s.withTask f).coreTc = s.coreTc := rfl
@[simp] theorem State.withTask_fetchTc (s : State) (f : Task → Task) : (s.withTask f).fetchTc = s.fetchTc := rfl
@[simp] theorem State.withTask_lineCache (s : State) (f : Task → Task) : (s.withTask f).lineCache = s.lineCache := rfl
@[simp] theorem State.withTask_walks (s : State) (f : Task → Task) : (s.withTask f).walks = s.walks := rfl
@[simp] theorem State.withTask_accessQs (s : State) (f : Task → Task) : (s.withTask f).accessQs = s.accessQs := rfl
@[simp] theorem State.withTask_transit (s : State) (f : Task → Task) : (s.withTask f).transit = s.transit := rfl
@[simp] theorem State.withTask_counters (s : State) (f : Task → Task) : (s.withTask f).counters = s.counters := rfl
@[simp] theorem State.withTask_quiet (s : State) (f : Task → Task) : (s.withTask f).quiet = s.quiet := rfl
@[simp] theorem State.withTask_ctxs (s : State) (f : Task → Task) : (s.withTask f).ctxs = s.ctxs := rfl
@[simp] theorem State.withTask_nextCtx (s : State) (f : Task → Task) : (s.withTask f).nextCtx = s.nextCtx := rfl
@[simp] theorem State.withTask_launches (s : State) (f : Task → Task) : (s.withTask f).launches = s.launches := rfl
@[simp] theorem State.withTask_nextSerial (s : State) (f : Task → Task) : (s.withTask f).nextSerial = s.nextSerial := rfl
@[simp] theorem State.withTask_clq (s : State) (f : Task → Task) : (s.withTask f).clq = s.clq := rfl
@[simp] theorem State.withTask_waiting (s : State) (f : Task → Task) : (s.withTask f).waiting = s.waiting := rfl
@[simp] theorem State.withTask_heldFlits (s : State) (f : Task → Task) : (s.withTask f).heldFlits = s.heldFlits := rfl
@[simp] theorem State.withTask_lastLaunch (s : State) (f : Task → Task) : (s.withTask f).lastLaunch = s.lastLaunch := rfl
@[simp] theorem State.withTask_coreResv (s : State) (f : Task → Task) : (s.withTask f).coreResv = s.coreResv := rfl
@[simp] theorem State.withTask_overBudget (s : State) (f : Task → Task) : (s.withTask f).overBudget = s.overBudget := rfl
@[simp] theorem State.withTask_served (s : State) (f : Task → Task) : (s.withTask f).served = s.served := rfl
@[simp] theorem State.withTask_cur (s : State) (f : Task → Task) : (s.withTask f).cur = f s.cur := rfl
@[simp] theorem State.withTask_others (s : State) (f : Task → Task) : (s.withTask f).others = s.others := rfl
@[simp] theorem State.withTask_flrs (s : State) (f : Task → Task) : (s.withTask f).flrs = s.flrs := rfl
@[simp] theorem State.withTask_fns (s : State) (f : Task → Task) : (s.withTask f).fns = s.fns := rfl
@[simp] theorem State.withTask_lost (s : State) (f : Task → Task) : (s.withTask f).lost = s.lost := rfl
@[simp] theorem State.withTask_act (s : State) (f : Task → Task) : (s.withTask f).act = s.act := rfl
@[simp] theorem State.withTask_air (s : State) (f : Task → Task) : (s.withTask f).air = s.air := rfl
@[simp] theorem State.withTask_wrote (s : State) (f : Task → Task) : (s.withTask f).wrote = s.wrote := rfl
@[simp] theorem State.withTask_sent (s : State) (f : Task → Task) : (s.withTask f).sent = s.sent := rfl
@[simp] theorem State.withTask_sched (s : State) (f : Task → Task) : (s.withTask f).sched = s.sched := rfl
@[simp] theorem State.withTask_turn (s : State) (f : Task → Task) : (s.withTask f).turn = s.turn := rfl
@[simp] theorem State.withTask_free (s : State) (f : Task → Task) : (s.withTask f).free = s.free := rfl

/-! ### Task.bump and Task.setQueue -/

@[simp] theorem Task.bump_status (t : Task) (k : Stream) : (t.bump k).status = t.status := rfl
@[simp] theorem Task.setQueue_status (t : Task) (k : Stream) (q : List Entry) : (t.setQueue k q).status = t.status := rfl
@[simp] theorem Task.bump_pool (t : Task) (k : Stream) : (t.bump k).pool = t.pool := rfl
@[simp] theorem Task.setQueue_pool (t : Task) (k : Stream) (q : List Entry) : (t.setQueue k q).pool = t.pool := rfl
@[simp] theorem Task.bump_regs (t : Task) (k : Stream) : (t.bump k).regs = t.regs := rfl
@[simp] theorem Task.setQueue_regs (t : Task) (k : Stream) (q : List Entry) : (t.setQueue k q).regs = t.regs := rfl
@[simp] theorem Task.bump_sys (t : Task) (k : Stream) : (t.bump k).sys = t.sys := rfl
@[simp] theorem Task.setQueue_sys (t : Task) (k : Stream) (q : List Entry) : (t.setQueue k q).sys = t.sys := rfl
@[simp] theorem Task.bump_flow (t : Task) (k : Stream) : (t.bump k).flow = t.flow := rfl
@[simp] theorem Task.setQueue_flow (t : Task) (k : Stream) (q : List Entry) : (t.setQueue k q).flow = t.flow := rfl
@[simp] theorem Task.setQueue_nums (t : Task) (k : Stream) (q : List Entry) : (t.setQueue k q).nums = t.nums := rfl
@[simp] theorem Task.bump_queues (t : Task) (k : Stream) : (t.bump k).queues = t.queues := rfl
@[simp] theorem Task.bump_ords (t : Task) (k : Stream) : (t.bump k).ords = t.ords := rfl
@[simp] theorem Task.setQueue_ords (t : Task) (k : Stream) (q : List Entry) : (t.setQueue k q).ords = t.ords := rfl
@[simp] theorem Task.bump_marked (t : Task) (k : Stream) : (t.bump k).marked = t.marked := rfl
@[simp] theorem Task.setQueue_marked (t : Task) (k : Stream) (q : List Entry) : (t.setQueue k q).marked = t.marked := rfl
@[simp] theorem Task.bump_freed (t : Task) (k : Stream) : (t.bump k).freed = t.freed := rfl
@[simp] theorem Task.setQueue_freed (t : Task) (k : Stream) (q : List Entry) : (t.setQueue k q).freed = t.freed := rfl
@[simp] theorem Task.bump_thunks (t : Task) (k : Stream) : (t.bump k).thunks = t.thunks := rfl
@[simp] theorem Task.setQueue_thunks (t : Task) (k : Stream) (q : List Entry) : (t.setQueue k q).thunks = t.thunks := rfl
@[simp] theorem Task.bump_ifq (t : Task) (k : Stream) : (t.bump k).ifq = t.ifq := rfl
@[simp] theorem Task.setQueue_ifq (t : Task) (k : Stream) (q : List Entry) : (t.setQueue k q).ifq = t.ifq := rfl
@[simp] theorem Task.bump_mx (t : Task) (k : Stream) : (t.bump k).mx = t.mx := rfl
@[simp] theorem Task.bump_puts (t : Task) (k : Stream) : (t.bump k).puts = t.puts := rfl
@[simp] theorem Task.bump_adrift (t : Task) (k : Stream) : (t.bump k).adrift = t.adrift := rfl
@[simp] theorem Task.setQueue_mx (t : Task) (k : Stream) (q : List Entry) : (t.setQueue k q).mx = t.mx := rfl
@[simp] theorem Task.setQueue_puts (t : Task) (k : Stream) (q : List Entry) : (t.setQueue k q).puts = t.puts := rfl
@[simp] theorem Task.setQueue_adrift (t : Task) (k : Stream) (q : List Entry) : (t.setQueue k q).adrift = t.adrift := rfl
@[simp] theorem Task.bump_badger (t : Task) (k : Stream) : (t.bump k).badger = t.badger := rfl
@[simp] theorem Task.bump_wants (t : Task) (k : Stream) : (t.bump k).wants = t.wants := rfl
@[simp] theorem Task.setQueue_badger (t : Task) (k : Stream) (q : List Entry) : (t.setQueue k q).badger = t.badger := rfl
@[simp] theorem Task.setQueue_wants (t : Task) (k : Stream) (q : List Entry) : (t.setQueue k q).wants = t.wants := rfl
@[simp] theorem Task.bump_scratch (t : Task) (k : Stream) : (t.bump k).scratch = t.scratch := rfl
@[simp] theorem Task.setQueue_scratch (t : Task) (k : Stream) (q : List Entry) : (t.setQueue k q).scratch = t.scratch := rfl
@[simp] theorem Task.bump_filled (t : Task) (k : Stream) : (t.bump k).filled = t.filled := rfl
@[simp] theorem Task.setQueue_filled (t : Task) (k : Stream) (q : List Entry) : (t.setQueue k q).filled = t.filled := rfl
@[simp] theorem Task.bump_written (t : Task) (k : Stream) : (t.bump k).written = t.written := rfl
@[simp] theorem Task.setQueue_written (t : Task) (k : Stream) (q : List Entry) : (t.setQueue k q).written = t.written := rfl
@[simp] theorem Task.bump_home (t : Task) (k : Stream) : (t.bump k).home = t.home := rfl
@[simp] theorem Task.setQueue_home (t : Task) (k : Stream) (q : List Entry) : (t.setQueue k q).home = t.home := rfl
@[simp] theorem Task.bump_vcq (t : Task) (k : Stream) : (t.bump k).vcq = t.vcq := rfl
@[simp] theorem Task.bump_cpTail (t : Task) (k : Stream) : (t.bump k).cpTail = t.cpTail := rfl
@[simp] theorem Task.setQueue_vcq (t : Task) (k : Stream) (q : List Entry) : (t.setQueue k q).vcq = t.vcq := rfl
@[simp] theorem Task.setQueue_cpTail (t : Task) (k : Stream) (q : List Entry) : (t.setQueue k q).cpTail = t.cpTail := rfl
@[simp] theorem Task.bump_heldLnk (t : Task) (k : Stream) : (t.bump k).heldLnk = t.heldLnk := rfl
@[simp] theorem Task.setQueue_heldLnk (t : Task) (k : Stream) (q : List Entry) : (t.setQueue k q).heldLnk = t.heldLnk := rfl
@[simp] theorem Task.bump_held (t : Task) (k : Stream) : (t.bump k).held = t.held := rfl
@[simp] theorem Task.setQueue_held (t : Task) (k : Stream) (q : List Entry) : (t.setQueue k q).held = t.held := rfl
@[simp] theorem Task.bump_handles (t : Task) (k : Stream) : (t.bump k).handles = t.handles := rfl
@[simp] theorem Task.setQueue_handles (t : Task) (k : Stream) (q : List Entry) : (t.setQueue k q).handles = t.handles := rfl
@[simp] theorem Task.bump_recordVa (t : Task) (k : Stream) : (t.bump k).recordVa = t.recordVa := rfl
@[simp] theorem Task.setQueue_recordVa (t : Task) (k : Stream) (q : List Entry) : (t.setQueue k q).recordVa = t.recordVa := rfl
@[simp] theorem Task.bump_setter (t : Task) (k : Stream) : (t.bump k).setter = t.setter := rfl
@[simp] theorem Task.setQueue_setter (t : Task) (k : Stream) (q : List Entry) : (t.setQueue k q).setter = t.setter := rfl

/-! ### State.modCtx -/

@[simp] theorem State.modCtx_now (s : State) (n : Nat) (f : Ctx → Ctx) : (s.modCtx n f).now = s.now := rfl
@[simp] theorem State.modCtx_isReady (s : State) (n : Nat) (f : Ctx → Ctx) : (s.modCtx n f).isReady = s.isReady := rfl
@[simp] theorem State.modCtx_resetting (s : State) (n : Nat) (f : Ctx → Ctx) : (s.modCtx n f).resetting = s.resetting := rfl
@[simp] theorem State.modCtx_thermal (s : State) (n : Nat) (f : Ctx → Ctx) : (s.modCtx n f).thermal = s.thermal := rfl
@[simp] theorem State.modCtx_throttle (s : State) (n : Nat) (f : Ctx → Ctx) : (s.modCtx n f).throttle = s.throttle := rfl
@[simp] theorem State.modCtx_throttled (s : State) (n : Nat) (f : Ctx → Ctx) : (s.modCtx n f).throttled = s.throttled := rfl
@[simp] theorem State.modCtx_portDown (s : State) (n : Nat) (f : Ctx → Ctx) : (s.modCtx n f).portDown = s.portDown := rfl
@[simp] theorem State.modCtx_retries (s : State) (n : Nat) (f : Ctx → Ctx) : (s.modCtx n f).retries = s.retries := rfl
@[simp] theorem State.modCtx_trained (s : State) (n : Nat) (f : Ctx → Ctx) : (s.modCtx n f).trained = s.trained := rfl
@[simp] theorem State.modCtx_dieTemp (s : State) (n : Nat) (f : Ctx → Ctx) : (s.modCtx n f).dieTemp = s.dieTemp := rfl
@[simp] theorem State.modCtx_power (s : State) (n : Nat) (f : Ctx → Ctx) : (s.modCtx n f).power = s.power := rfl
@[simp] theorem State.modCtx_hold (s : State) (n : Nat) (f : Ctx → Ctx) : (s.modCtx n f).hold = s.hold := rfl
@[simp] theorem State.modCtx_hbm (s : State) (n : Nat) (f : Ctx → Ctx) : (s.modCtx n f).hbm = s.hbm := rfl
@[simp] theorem State.modCtx_csram (s : State) (n : Nat) (f : Ctx → Ctx) : (s.modCtx n f).csram = s.csram := rfl
@[simp] theorem State.modCtx_backing (s : State) (n : Nat) (f : Ctx → Ctx) : (s.modCtx n f).backing = s.backing := rfl
@[simp] theorem State.modCtx_hostMem (s : State) (n : Nat) (f : Ctx → Ctx) : (s.modCtx n f).hostMem = s.hostMem := rfl
@[simp] theorem State.modCtx_peerMem (s : State) (n : Nat) (f : Ctx → Ctx) : (s.modCtx n f).peerMem = s.peerMem := rfl
@[simp] theorem State.modCtx_dirty (s : State) (n : Nat) (f : Ctx → Ctx) : (s.modCtx n f).dirty = s.dirty := rfl
@[simp] theorem State.modCtx_rdc (s : State) (n : Nat) (f : Ctx → Ctx) : (s.modCtx n f).rdc = s.rdc := rfl
@[simp] theorem State.modCtx_poison (s : State) (n : Nat) (f : Ctx → Ctx) : (s.modCtx n f).poison = s.poison := rfl
@[simp] theorem State.modCtx_badTags (s : State) (n : Nat) (f : Ctx → Ctx) : (s.modCtx n f).badTags = s.badTags := rfl
@[simp] theorem State.modCtx_tlb (s : State) (n : Nat) (f : Ctx → Ctx) : (s.modCtx n f).tlb = s.tlb := rfl
@[simp] theorem State.modCtx_coreTc (s : State) (n : Nat) (f : Ctx → Ctx) : (s.modCtx n f).coreTc = s.coreTc := rfl
@[simp] theorem State.modCtx_fetchTc (s : State) (n : Nat) (f : Ctx → Ctx) : (s.modCtx n f).fetchTc = s.fetchTc := rfl
@[simp] theorem State.modCtx_lineCache (s : State) (n : Nat) (f : Ctx → Ctx) : (s.modCtx n f).lineCache = s.lineCache := rfl
@[simp] theorem State.modCtx_walks (s : State) (n : Nat) (f : Ctx → Ctx) : (s.modCtx n f).walks = s.walks := rfl
@[simp] theorem State.modCtx_accessQs (s : State) (n : Nat) (f : Ctx → Ctx) : (s.modCtx n f).accessQs = s.accessQs := rfl
@[simp] theorem State.modCtx_transit (s : State) (n : Nat) (f : Ctx → Ctx) : (s.modCtx n f).transit = s.transit := rfl
@[simp] theorem State.modCtx_counters (s : State) (n : Nat) (f : Ctx → Ctx) : (s.modCtx n f).counters = s.counters := rfl
@[simp] theorem State.modCtx_quiet (s : State) (n : Nat) (f : Ctx → Ctx) : (s.modCtx n f).quiet = s.quiet := rfl
@[simp] theorem State.modCtx_ctxs (s : State) (n : Nat) (f : Ctx → Ctx) : (s.modCtx n f).ctxs = s.ctxs.map fun c => if c.number = n then f c else c := rfl
@[simp] theorem State.modCtx_nextCtx (s : State) (n : Nat) (f : Ctx → Ctx) : (s.modCtx n f).nextCtx = s.nextCtx := rfl
@[simp] theorem State.modCtx_launches (s : State) (n : Nat) (f : Ctx → Ctx) : (s.modCtx n f).launches = s.launches := rfl
@[simp] theorem State.modCtx_nextSerial (s : State) (n : Nat) (f : Ctx → Ctx) : (s.modCtx n f).nextSerial = s.nextSerial := rfl
@[simp] theorem State.modCtx_clq (s : State) (n : Nat) (f : Ctx → Ctx) : (s.modCtx n f).clq = s.clq := rfl
@[simp] theorem State.modCtx_waiting (s : State) (n : Nat) (f : Ctx → Ctx) : (s.modCtx n f).waiting = s.waiting := rfl
@[simp] theorem State.modCtx_heldFlits (s : State) (n : Nat) (f : Ctx → Ctx) : (s.modCtx n f).heldFlits = s.heldFlits := rfl
@[simp] theorem State.modCtx_lastLaunch (s : State) (n : Nat) (f : Ctx → Ctx) : (s.modCtx n f).lastLaunch = s.lastLaunch := rfl
@[simp] theorem State.modCtx_coreResv (s : State) (n : Nat) (f : Ctx → Ctx) : (s.modCtx n f).coreResv = s.coreResv := rfl
@[simp] theorem State.modCtx_overBudget (s : State) (n : Nat) (f : Ctx → Ctx) : (s.modCtx n f).overBudget = s.overBudget := rfl
@[simp] theorem State.modCtx_served (s : State) (n : Nat) (f : Ctx → Ctx) : (s.modCtx n f).served = s.served := rfl
@[simp] theorem State.modCtx_cur (s : State) (n : Nat) (f : Ctx → Ctx) : (s.modCtx n f).cur = s.cur := rfl
@[simp] theorem State.modCtx_others (s : State) (n : Nat) (f : Ctx → Ctx) : (s.modCtx n f).others = s.others := rfl
@[simp] theorem State.modCtx_flrs (s : State) (n : Nat) (f : Ctx → Ctx) : (s.modCtx n f).flrs = s.flrs := rfl
@[simp] theorem State.modCtx_fns (s : State) (n : Nat) (f : Ctx → Ctx) : (s.modCtx n f).fns = s.fns := rfl
@[simp] theorem State.modCtx_lost (s : State) (n : Nat) (f : Ctx → Ctx) : (s.modCtx n f).lost = s.lost := rfl
@[simp] theorem State.modCtx_act (s : State) (n : Nat) (f : Ctx → Ctx) : (s.modCtx n f).act = s.act := rfl
@[simp] theorem State.modCtx_air (s : State) (n : Nat) (f : Ctx → Ctx) : (s.modCtx n f).air = s.air := rfl
@[simp] theorem State.modCtx_wrote (s : State) (n : Nat) (f : Ctx → Ctx) : (s.modCtx n f).wrote = s.wrote := rfl
@[simp] theorem State.modCtx_sent (s : State) (n : Nat) (f : Ctx → Ctx) : (s.modCtx n f).sent = s.sent := rfl
@[simp] theorem State.modCtx_sched (s : State) (n : Nat) (f : Ctx → Ctx) : (s.modCtx n f).sched = s.sched := rfl
@[simp] theorem State.modCtx_turn (s : State) (n : Nat) (f : Ctx → Ctx) : (s.modCtx n f).turn = s.turn := rfl
@[simp] theorem State.modCtx_free (s : State) (n : Nat) (f : Ctx → Ctx) : (s.modCtx n f).free = s.free := rfl

/-! ### Register writes -/

@[simp] theorem Regs.wrV_s (g : Regs) (r : VReg) (x : Vector Lane 64) : (g.wrV r x).s = g.s := rfl
@[simp] theorem Regs.wrV_p (g : Regs) (r : VReg) (x : Vector Lane 64) : (g.wrV r x).p = g.p := rfl
@[simp] theorem Regs.wrV_v (g : Regs) (r : VReg) (x : Vector Lane 64) : (g.wrV r x).v = g.v.set r.toNat x r.isLt := rfl
@[simp] theorem Regs.wrV_m (g : Regs) (r : VReg) (x : Vector Lane 64) : (g.wrV r x).m = g.m := rfl
@[simp] theorem Regs.wrV_sm (g : Regs) (r : VReg) (x : Vector Lane 64) : (g.wrV r x).sm = g.sm := rfl
@[simp] theorem Regs.wrV_h (g : Regs) (r : VReg) (x : Vector Lane 64) : (g.wrV r x).h = g.h := rfl
@[simp] theorem Regs.wrV_td (g : Regs) (r : VReg) (x : Vector Lane 64) : (g.wrV r x).td = g.td := rfl
@[simp] theorem Regs.wrV_k (g : Regs) (r : VReg) (x : Vector Lane 64) : (g.wrV r x).k = g.k := rfl
@[simp] theorem Regs.wrV_port (g : Regs) (r : VReg) (x : Vector Lane 64) : (g.wrV r x).port = g.port := rfl
@[simp] theorem Regs.wrV_tok (g : Regs) (r : VReg) (x : Vector Lane 64) : (g.wrV r x).tok = g.tok := rfl
@[simp] theorem Regs.wrM_s (g : Regs) (r : MReg) (x : Word) : (g.wrM r x).s = g.s := rfl
@[simp] theorem Regs.wrM_p (g : Regs) (r : MReg) (x : Word) : (g.wrM r x).p = g.p := rfl
@[simp] theorem Regs.wrM_v (g : Regs) (r : MReg) (x : Word) : (g.wrM r x).v = g.v := rfl
@[simp] theorem Regs.wrM_m (g : Regs) (r : MReg) (x : Word) : (g.wrM r x).m = g.m.set r.toNat x r.isLt := rfl
@[simp] theorem Regs.wrM_sm (g : Regs) (r : MReg) (x : Word) : (g.wrM r x).sm = g.sm := rfl
@[simp] theorem Regs.wrM_h (g : Regs) (r : MReg) (x : Word) : (g.wrM r x).h = g.h := rfl
@[simp] theorem Regs.wrM_td (g : Regs) (r : MReg) (x : Word) : (g.wrM r x).td = g.td := rfl
@[simp] theorem Regs.wrM_k (g : Regs) (r : MReg) (x : Word) : (g.wrM r x).k = g.k := rfl
@[simp] theorem Regs.wrM_port (g : Regs) (r : MReg) (x : Word) : (g.wrM r x).port = g.port := rfl
@[simp] theorem Regs.wrM_tok (g : Regs) (r : MReg) (x : Word) : (g.wrM r x).tok = g.tok := rfl
@[simp] theorem Regs.wrSem_s (g : Regs) (r : SemReg) (x : Lane) : (g.wrSem r x).s = g.s := rfl
@[simp] theorem Regs.wrSem_p (g : Regs) (r : SemReg) (x : Lane) : (g.wrSem r x).p = g.p := rfl
@[simp] theorem Regs.wrSem_v (g : Regs) (r : SemReg) (x : Lane) : (g.wrSem r x).v = g.v := rfl
@[simp] theorem Regs.wrSem_m (g : Regs) (r : SemReg) (x : Lane) : (g.wrSem r x).m = g.m := rfl
@[simp] theorem Regs.wrSem_sm (g : Regs) (r : SemReg) (x : Lane) : (g.wrSem r x).sm = g.sm.set r.toNat x r.isLt := rfl
@[simp] theorem Regs.wrSem_h (g : Regs) (r : SemReg) (x : Lane) : (g.wrSem r x).h = g.h := rfl
@[simp] theorem Regs.wrSem_td (g : Regs) (r : SemReg) (x : Lane) : (g.wrSem r x).td = g.td := rfl
@[simp] theorem Regs.wrSem_k (g : Regs) (r : SemReg) (x : Lane) : (g.wrSem r x).k = g.k := rfl
@[simp] theorem Regs.wrSem_port (g : Regs) (r : SemReg) (x : Lane) : (g.wrSem r x).port = g.port := rfl
@[simp] theorem Regs.wrSem_tok (g : Regs) (r : SemReg) (x : Lane) : (g.wrSem r x).tok = g.tok := rfl
@[simp] theorem Regs.wrH_s (g : Regs) (r : HReg) (x : Handle) : (g.wrH r x).s = g.s := rfl
@[simp] theorem Regs.wrH_p (g : Regs) (r : HReg) (x : Handle) : (g.wrH r x).p = g.p := rfl
@[simp] theorem Regs.wrH_v (g : Regs) (r : HReg) (x : Handle) : (g.wrH r x).v = g.v := rfl
@[simp] theorem Regs.wrH_m (g : Regs) (r : HReg) (x : Handle) : (g.wrH r x).m = g.m := rfl
@[simp] theorem Regs.wrH_sm (g : Regs) (r : HReg) (x : Handle) : (g.wrH r x).sm = g.sm := rfl
@[simp] theorem Regs.wrH_h (g : Regs) (r : HReg) (x : Handle) : (g.wrH r x).h = g.h.set r.toNat x r.isLt := rfl
@[simp] theorem Regs.wrH_td (g : Regs) (r : HReg) (x : Handle) : (g.wrH r x).td = g.td := rfl
@[simp] theorem Regs.wrH_k (g : Regs) (r : HReg) (x : Handle) : (g.wrH r x).k = g.k := rfl
@[simp] theorem Regs.wrH_port (g : Regs) (r : HReg) (x : Handle) : (g.wrH r x).port = g.port := rfl
@[simp] theorem Regs.wrH_tok (g : Regs) (r : HReg) (x : Handle) : (g.wrH r x).tok = g.tok := rfl
@[simp] theorem Regs.wrT_s (g : Regs) (r : TReg) (x : Desc) : (g.wrT r x).s = g.s := rfl
@[simp] theorem Regs.wrT_p (g : Regs) (r : TReg) (x : Desc) : (g.wrT r x).p = g.p := rfl
@[simp] theorem Regs.wrT_v (g : Regs) (r : TReg) (x : Desc) : (g.wrT r x).v = g.v := rfl
@[simp] theorem Regs.wrT_m (g : Regs) (r : TReg) (x : Desc) : (g.wrT r x).m = g.m := rfl
@[simp] theorem Regs.wrT_sm (g : Regs) (r : TReg) (x : Desc) : (g.wrT r x).sm = g.sm := rfl
@[simp] theorem Regs.wrT_h (g : Regs) (r : TReg) (x : Desc) : (g.wrT r x).h = g.h := rfl
@[simp] theorem Regs.wrT_td (g : Regs) (r : TReg) (x : Desc) : (g.wrT r x).td = g.td.set r.toNat x r.isLt := rfl
@[simp] theorem Regs.wrT_k (g : Regs) (r : TReg) (x : Desc) : (g.wrT r x).k = g.k := rfl
@[simp] theorem Regs.wrT_port (g : Regs) (r : TReg) (x : Desc) : (g.wrT r x).port = g.port := rfl
@[simp] theorem Regs.wrT_tok (g : Regs) (r : TReg) (x : Desc) : (g.wrT r x).tok = g.tok := rfl
@[simp] theorem Regs.wrK_s (g : Regs) (r : KReg) (x : Option Slot) : (g.wrK r x).s = g.s := rfl
@[simp] theorem Regs.wrK_p (g : Regs) (r : KReg) (x : Option Slot) : (g.wrK r x).p = g.p := rfl
@[simp] theorem Regs.wrK_v (g : Regs) (r : KReg) (x : Option Slot) : (g.wrK r x).v = g.v := rfl
@[simp] theorem Regs.wrK_m (g : Regs) (r : KReg) (x : Option Slot) : (g.wrK r x).m = g.m := rfl
@[simp] theorem Regs.wrK_sm (g : Regs) (r : KReg) (x : Option Slot) : (g.wrK r x).sm = g.sm := rfl
@[simp] theorem Regs.wrK_h (g : Regs) (r : KReg) (x : Option Slot) : (g.wrK r x).h = g.h := rfl
@[simp] theorem Regs.wrK_td (g : Regs) (r : KReg) (x : Option Slot) : (g.wrK r x).td = g.td := rfl
@[simp] theorem Regs.wrK_k (g : Regs) (r : KReg) (x : Option Slot) : (g.wrK r x).k = g.k.set r.toNat x r.isLt := rfl
@[simp] theorem Regs.wrK_port (g : Regs) (r : KReg) (x : Option Slot) : (g.wrK r x).port = g.port := rfl
@[simp] theorem Regs.wrK_tok (g : Regs) (r : KReg) (x : Option Slot) : (g.wrK r x).tok = g.tok := rfl
@[simp] theorem Regs.wrPort_s (g : Regs) (r : BitVec 3) (x : List PortWord) : (g.wrPort r x).s = g.s := rfl
@[simp] theorem Regs.wrPort_p (g : Regs) (r : BitVec 3) (x : List PortWord) : (g.wrPort r x).p = g.p := rfl
@[simp] theorem Regs.wrPort_v (g : Regs) (r : BitVec 3) (x : List PortWord) : (g.wrPort r x).v = g.v := rfl
@[simp] theorem Regs.wrPort_m (g : Regs) (r : BitVec 3) (x : List PortWord) : (g.wrPort r x).m = g.m := rfl
@[simp] theorem Regs.wrPort_sm (g : Regs) (r : BitVec 3) (x : List PortWord) : (g.wrPort r x).sm = g.sm := rfl
@[simp] theorem Regs.wrPort_h (g : Regs) (r : BitVec 3) (x : List PortWord) : (g.wrPort r x).h = g.h := rfl
@[simp] theorem Regs.wrPort_td (g : Regs) (r : BitVec 3) (x : List PortWord) : (g.wrPort r x).td = g.td := rfl
@[simp] theorem Regs.wrPort_k (g : Regs) (r : BitVec 3) (x : List PortWord) : (g.wrPort r x).k = g.k := rfl
@[simp] theorem Regs.wrPort_port (g : Regs) (r : BitVec 3) (x : List PortWord) : (g.wrPort r x).port = g.port.set r.toNat x r.isLt := rfl
@[simp] theorem Regs.wrPort_tok (g : Regs) (r : BitVec 3) (x : List PortWord) : (g.wrPort r x).tok = g.tok := rfl
@[simp] theorem Regs.wr_p (g : Regs) (r : SReg) (x : Word) : (g.wr r x).p = g.p := by unfold Regs.wr; split <;> rfl
@[simp] theorem Regs.wr_v (g : Regs) (r : SReg) (x : Word) : (g.wr r x).v = g.v := by unfold Regs.wr; split <;> rfl
@[simp] theorem Regs.wr_m (g : Regs) (r : SReg) (x : Word) : (g.wr r x).m = g.m := by unfold Regs.wr; split <;> rfl
@[simp] theorem Regs.wr_sm (g : Regs) (r : SReg) (x : Word) : (g.wr r x).sm = g.sm := by unfold Regs.wr; split <;> rfl
@[simp] theorem Regs.wr_h (g : Regs) (r : SReg) (x : Word) : (g.wr r x).h = g.h := by unfold Regs.wr; split <;> rfl
@[simp] theorem Regs.wr_td (g : Regs) (r : SReg) (x : Word) : (g.wr r x).td = g.td := by unfold Regs.wr; split <;> rfl
@[simp] theorem Regs.wr_k (g : Regs) (r : SReg) (x : Word) : (g.wr r x).k = g.k := by unfold Regs.wr; split <;> rfl
@[simp] theorem Regs.wr_port (g : Regs) (r : SReg) (x : Word) : (g.wr r x).port = g.port := by unfold Regs.wr; split <;> rfl
@[simp] theorem Regs.wr_tok (g : Regs) (r : SReg) (x : Word) : (g.wr r x).tok = g.tok := by unfold Regs.wr; split <;> rfl
@[simp] theorem Regs.wrP_s (g : Regs) (r : PReg) (x : Bool) : (g.wrP r x).s = g.s := by unfold Regs.wrP; split <;> rfl
@[simp] theorem Regs.wrP_v (g : Regs) (r : PReg) (x : Bool) : (g.wrP r x).v = g.v := by unfold Regs.wrP; split <;> rfl
@[simp] theorem Regs.wrP_m (g : Regs) (r : PReg) (x : Bool) : (g.wrP r x).m = g.m := by unfold Regs.wrP; split <;> rfl
@[simp] theorem Regs.wrP_sm (g : Regs) (r : PReg) (x : Bool) : (g.wrP r x).sm = g.sm := by unfold Regs.wrP; split <;> rfl
@[simp] theorem Regs.wrP_h (g : Regs) (r : PReg) (x : Bool) : (g.wrP r x).h = g.h := by unfold Regs.wrP; split <;> rfl
@[simp] theorem Regs.wrP_td (g : Regs) (r : PReg) (x : Bool) : (g.wrP r x).td = g.td := by unfold Regs.wrP; split <;> rfl
@[simp] theorem Regs.wrP_k (g : Regs) (r : PReg) (x : Bool) : (g.wrP r x).k = g.k := by unfold Regs.wrP; split <;> rfl
@[simp] theorem Regs.wrP_port (g : Regs) (r : PReg) (x : Bool) : (g.wrP r x).port = g.port := by unfold Regs.wrP; split <;> rfl
@[simp] theorem Regs.wrP_tok (g : Regs) (r : PReg) (x : Bool) : (g.wrP r x).tok = g.tok := by unfold Regs.wrP; split <;> rfl
@[simp] theorem Regs.giveTok_s (g : Regs) (i : Fin 6) : (g.giveTok i).s = g.s := rfl
@[simp] theorem Regs.giveTok_p (g : Regs) (i : Fin 6) : (g.giveTok i).p = g.p := rfl
@[simp] theorem Regs.giveTok_v (g : Regs) (i : Fin 6) : (g.giveTok i).v = g.v := rfl
@[simp] theorem Regs.giveTok_m (g : Regs) (i : Fin 6) : (g.giveTok i).m = g.m := rfl
@[simp] theorem Regs.giveTok_sm (g : Regs) (i : Fin 6) : (g.giveTok i).sm = g.sm := rfl
@[simp] theorem Regs.giveTok_h (g : Regs) (i : Fin 6) : (g.giveTok i).h = g.h := rfl
@[simp] theorem Regs.giveTok_td (g : Regs) (i : Fin 6) : (g.giveTok i).td = g.td := rfl
@[simp] theorem Regs.giveTok_k (g : Regs) (i : Fin 6) : (g.giveTok i).k = g.k := rfl
@[simp] theorem Regs.giveTok_port (g : Regs) (i : Fin 6) : (g.giveTok i).port = g.port := rfl
@[simp] theorem Regs.takeTok_s (g : Regs) (i : Fin 6) : (g.takeTok i).s = g.s := rfl
@[simp] theorem Regs.takeTok_p (g : Regs) (i : Fin 6) : (g.takeTok i).p = g.p := rfl
@[simp] theorem Regs.takeTok_v (g : Regs) (i : Fin 6) : (g.takeTok i).v = g.v := rfl
@[simp] theorem Regs.takeTok_m (g : Regs) (i : Fin 6) : (g.takeTok i).m = g.m := rfl
@[simp] theorem Regs.takeTok_sm (g : Regs) (i : Fin 6) : (g.takeTok i).sm = g.sm := rfl
@[simp] theorem Regs.takeTok_h (g : Regs) (i : Fin 6) : (g.takeTok i).h = g.h := rfl
@[simp] theorem Regs.takeTok_td (g : Regs) (i : Fin 6) : (g.takeTok i).td = g.td := rfl
@[simp] theorem Regs.takeTok_k (g : Regs) (i : Fin 6) : (g.takeTok i).k = g.k := rfl
@[simp] theorem Regs.takeTok_port (g : Regs) (i : Fin 6) : (g.takeTok i).port = g.port := rfl

end Sys2Proof.Machine
end

