-- ==== Sys2Proof/Laws/Run.lean ====
section
/-! SUPPORT. How an operation of the step monad runs: its answer and its state, one lemma per combinator and per named
operation. -/

namespace Sys2Proof.Machine

/-- The answer of an operation and the state it leaves. -/
def ans {α : Type} (m : M α) (s : State) : Except Stop α × State := m.run.run s

theorem runM_ans (m : M Unit) (s : State) :
    runM m s = match ans m s with
      | (.ok _, s') => .next s'
      | (.error .stall, _) => .next s
      | (.error .pause, s') => .next s'
      | (.error (.walk w), _) => .next { s with walks := s.walks ++ [w] }
      | (.error (.fault f keep), s') => .next (takeFault f (if keep then s' else s))
      | (.error (.machine f), _) => .fault f := by
  unfold runM ans
  rfl

@[simp] theorem ans_pure {α : Type} (a : α) (s : State) : ans (pure a) s = (.ok a, s) := rfl

theorem ans_bind {α β : Type} (m : M α) (f : α → M β) (s : State) :
    ans (m >>= f) s = match ans m s with
      | (.ok a, s') => ans (f a) s'
      | (.error e, s') => (.error e, s') := by
  simp only [ans, bind, ExceptT.bind, ExceptT.mk, ExceptT.run, StateT.run, StateT.bind]
  generalize hx : m s = x
  obtain ⟨x, s'⟩ := x
  cases x <;> rfl

theorem ans_bind_ok {α β : Type} {m : M α} {f : α → M β} {s s' : State} {a : α} (h : ans m s = (.ok a, s')) :
    ans (m >>= f) s = ans (f a) s' := by rw [ans_bind, h]

theorem ans_bind_error {α β : Type} {m : M α} {f : α → M β} {s s' : State} {e : Stop} (h : ans m s = (.error e, s')) :
    ans (m >>= f) s = (.error e, s') := by rw [ans_bind, h]

@[simp] theorem ans_throw {α : Type} (e : Stop) (s : State) : ans (throw e : M α) s = (.error e, s) := rfl
@[simp] theorem ans_stall {α : Type} (s : State) : ans (stall : M α) s = (.error .stall, s) := rfl
@[simp] theorem ans_pause {α : Type} (s : State) : ans (pause : M α) s = (.error .pause, s) := rfl
@[simp] theorem ans_get (s : State) : ans (get : M State) s = (.ok s, s) := rfl
@[simp] theorem ans_set (s t : State) : ans (set t : M PUnit) s = (.ok ⟨⟩, t) := rfl
@[simp] theorem ans_modify (f : State → State) (s : State) : ans (modify f : M PUnit) s = (.ok ⟨⟩, f s) := rfl
@[simp] theorem ans_theTask (s : State) : ans theTask s = (.ok s.cur, s) := rfl
@[simp] theorem ans_theRegs (s : State) : ans theRegs s = (.ok s.cur.regs, s) := rfl
@[simp] theorem ans_modTask (f : Task → Task) (s : State) : ans (modTask f) s = (.ok ⟨⟩, s.withTask f) := rfl
@[simp] theorem ans_modRegs (f : Regs → Regs) (s : State) :
    ans (modRegs f) s = (.ok ⟨⟩, s.withRegs f) := rfl
@[simp] theorem ans_modSys (f : Special → Special) (s : State) :
    ans (modSys f) s = (.ok ⟨⟩, s.withSys f) := rfl
@[simp] theorem ans_laneVa (s : State) : ans laneVa s = (.ok s.cur.nextPc, s) := rfl
@[simp] theorem ans_theEff (s : State) : ans theEff s = (.ok (s.taskEff s.cur), s) := rfl
@[simp] theorem ans_freeValue (s : State) :
    ans freeValue s = (.ok (Config.freeWord s.free), { s with free := s.free + 1 }) := rfl
@[simp] theorem ans_handled (n : Nat) (s : State) :
    ans (handled n) s = (.ok ⟨⟩, s.past n) := rfl
@[simp] theorem ans_transferTo (a : Word) (s : State) :
    ans (transferTo a) s = (.ok ⟨⟩, s.goneTo a) := rfl
theorem ans_ite {α : Type} (c : Prop) [Decidable c] (x y : M α) (s : State) :
    ans (if c then x else y) s = if c then ans x s else ans y s := by split <;> rfl

@[simp] theorem ans_map {α β : Type} (f : α → β) (m : M α) (s : State) :
    ans (f <$> m) s = match ans m s with
      | (.ok a, s') => (.ok (f a), s')
      | (.error e, s') => (.error e, s') := by
  rw [map_eq_pure_bind, ans_bind]
  rfl

/-- An operation that answers ok goes on from what it leaves. -/
theorem runM_ok {m : M Unit} {s s' : State} (h : ans m s = (.ok ⟨⟩, s')) : runM m s = .next s' := by
  rw [runM_ans, h]

/-- An operation that waits changes nothing. -/
theorem runM_stall {m : M Unit} {s s' : State} (h : ans m s = (.error .stall, s')) : runM m s = .next s := by
  rw [runM_ans, h]

/-- An operation that faults leaves the state in which its fault is taken. -/
theorem runM_fault {m : M Unit} {s s' : State} {f : FaultInfo} {keep : Bool} (h : ans m s = (.error (.fault f keep), s')) :
    runM m s = .next (takeFault f (if keep then s' else s)) := by
  rw [runM_ans, h]

end Sys2Proof.Machine
end

