-- ==== Sys2Proof/Laws/Seq.lean ====
section
/-! SUPPORT. The shared operations of the sequencer: what a source read, a result write and an instruction of the
sequencer do, each said once. -/

namespace Sys2Proof.Machine

theorem ans_readS {s s1 : State} {r : SReg} {x : Word} (h : s.take r = some (x, s1)) : ans (readS r) s = (.ok x, s1) := by
  unfold State.take at h
  unfold readS
  split at h
  · rename_i hp
    rw [if_pos hp, popPort, ans_bind, ans_theRegs]
    dsimp only
    split at h
    · cases h
    · rename_i y rest hq
      try rw [hq]
      try dsimp only
      split at h
      · cases h
      · rename_i hy
        simp only [Bool.not_eq_true] at hy
        cases h
        simp [hy, State.withRegs]
  · rename_i hp
    rw [if_neg hp]
    cases h
    simp

theorem ans_writeS {s t : State} {r : SReg} {x : Word} (h : s.give r x = some t) : ans (writeS r x) s = (.ok ⟨⟩, t) := by
  unfold State.give at h
  unfold writeS
  split at h
  · rename_i hp
    split at h
    · rename_i hl
      cases h
      have hn : ¬ portDepth ≤ (s.cur.regs.rdPort (portIx r)).length := by unfold portDepth; omega
      simp [hp, pushPort, ans_bind, hn, State.withRegs]
    · cases h
  · rename_i hp
    cases h
    simp [hp, State.withRegs]

theorem ans_take2 {s s1 : State} {a b : SReg} {x y : Word} (h : s.take2 a b = some (x, y, s1)) :
    ∃ s0, ans (readS a) s = (.ok x, s0) ∧ ans (readS b) s0 = (.ok y, s1) := by
  unfold State.take2 at h
  split at h
  · cases h
  · rename_i x' s0 h0
    split at h
    · cases h
    · rename_i y' s2 h1
      cases h
      exact ⟨s0, ans_readS h0, ans_readS h1⟩

theorem ans_portCheck {i : Instr} (k : Stream) (h : i.portBad = false) (s : State) :
    ans (portCheck k i) s = (.ok ⟨⟩, s) := by simp [portCheck, h]

/-- An instruction of the sequencer whose effect goes through is handled. -/
theorem seqOp_ok {i : Instr} {n : Nat} {body : M Unit} {s t : State} (hp : i.portBad = false)
    (h : ans body s = (.ok ⟨⟩, t)) : seqOp i n body s = .next (t.past n) := by
  refine runM_ok ?_
  rw [ans_bind_ok (ans_portCheck _ hp s), ans_bind_ok h, ans_handled]

/-- A control transfer whose effect goes through. -/
theorem transferOp_ok {i : Instr} {body : M Unit} {s t : State} (hp : i.portBad = false)
    (h : ans body s = (.ok ⟨⟩, t)) : transferOp i body s = .next t := by
  refine runM_ok ?_
  rw [ans_bind_ok (ans_portCheck _ hp s), h]

/-- What a fault raised at an instruction does: it waits until the task has drained. -/
theorem ans_raiseAt {α : Type} (k : Stream) (code : Byte) (va : Word) (s : State) :
    ans (raiseAt k code va : M α) s =
      if s.cur.drained then (.error (.fault { code, stream := k, seq := s.cur.num k, va } false), s)
      else (.error .stall, s) := by
  unfold raiseAt raiseTag
  rw [ans_bind_ok (ans_theTask s)]
  cases s.cur.drained <;> simp [ans_bind]

theorem Task.drained_of {s : State} (h : s.Drained) : s.cur.drained = true := by
  simp only [Task.drained, Bool.and_eq_true, List.all_eq_true]
  refine ⟨fun q hq => ?_, h.2⟩
  obtain ⟨i, hi, rfl⟩ := List.getElem_of_mem hq
  have hk : ∃ k : Stream, k.ix.val = i := by
    have : i < 9 := by simpa using hi
    interval_cases i
    · exact ⟨.seq, rfl⟩
    · exact ⟨.ldq, rfl⟩
    · exact ⟨.stq, rfl⟩
    · exact ⟨.vec, rfl⟩
    · exact ⟨.til, rfl⟩
    · exact ⟨.skq, rfl⟩
    · exact ⟨.cpy, rfl⟩
    · exact ⟨.lnk, rfl⟩
    · exact ⟨.atm, rfl⟩
  obtain ⟨k, rfl⟩ := hk
  have := h.1 k
  simp only [Task.queue, Vector.get] at this
  simpa [List.isEmpty_iff] using this

theorem take_frame {s s1 : State} {r : SReg} {x : Word} (h : s.take r = some (x, s1)) : ∃ f, s1 = s.withRegs f := by
  unfold State.take at h
  split at h
  · split at h
    · cases h
    · split at h
      · cases h
      · cases h
        exact ⟨_, rfl⟩
  · cases h
    exact ⟨id, rfl⟩

theorem give_frame {s t : State} {r : SReg} {x : Word} (h : s.give r x = some t) : ∃ f, t = s.withRegs f := by
  unfold State.give at h
  split at h
  · split at h
    · cases h
      exact ⟨_, rfl⟩
    · cases h
  · cases h
    exact ⟨_, rfl⟩

theorem take2_frame {s s1 : State} {a b : SReg} {x y : Word} (h : s.take2 a b = some (x, y, s1)) : ∃ f, s1 = s.withRegs f := by
  unfold State.take2 at h
  split at h
  · cases h
  · rename_i h0
    split at h
    · cases h
    · rename_i h1
      cases h
      obtain ⟨f, rfl⟩ := take_frame h0
      obtain ⟨g, rfl⟩ := take_frame h1
      exact ⟨fun r => g (f r), rfl⟩

/-- An instruction of the sequencer whose effect waits is held. -/
theorem seqOp_stall {i : Instr} {n : Nat} {body : M Unit} {s t : State} (hp : i.portBad = false)
    (h : ans body s = (.error .stall, t)) : seqOp i n body s = .next s := by
  refine runM_stall (s' := t) ?_
  rw [ans_bind_ok (ans_portCheck _ hp s), ans_bind_error h]

theorem rrrOp_ok {i : Instr} {d a b : SReg} {f : Word → Word → Word} {s s1 t : State} {x y : Word} (hp : i.portBad = false)
    (h : s.take2 a b = some (x, y, s1)) (hg : s1.give d (f x y) = some t) : rrrOp i d a b f s = .next (t.past 1) := by
  obtain ⟨s0, ha, hb⟩ := ans_take2 h
  refine seqOp_ok hp ?_
  rw [ans_bind_ok ha, ans_bind_ok hb, ans_writeS hg]

theorem rrOp_ok {i : Instr} {d a : SReg} {f : Word → Word} {s s1 t : State} {x : Word} (hp : i.portBad = false)
    (h : s.take a = some (x, s1)) (hg : s1.give d (f x) = some t) : rrOp i d a f s = .next (t.past 1) := by
  refine seqOp_ok hp ?_
  rw [ans_bind_ok (ans_readS h), ans_writeS hg]

end Sys2Proof.Machine
end

