-- ==== Sys2Proof/Laws/Trace.lean ====
section
/-! SUPPORT. Without a trace ring, a log or a watchpoint nothing is recorded, held or stopped. -/

namespace Sys2Proof.Machine

theorem State.Untraced.trace {s : State} (h : s.Untraced) (n : Nat) : (s.ctx? n).bind (·.trace) = none := by
  unfold State.ctx?
  cases hc : s.ctxs.find? (·.number == n) with
  | none => rfl
  | some c => exact h.1 c (List.mem_of_find?_eq_some hc)

theorem turnOf_untraced {s : State} (n : Nat) (e : Event) (h : (s.ctx? n).bind (·.trace) = none) : s.turnOf n e = .free := by
  unfold State.turnOf
  rw [h]

theorem recordEvent_untraced {s : State} (n : Nat) (e : Event) (h : (s.ctx? n).bind (·.trace) = none) : s.recordEvent n e = s := by
  unfold State.recordEvent
  rw [h]

theorem occur_untraced {s : State} (n : Nat) (e : Event) (h : (s.ctx? n).bind (·.trace) = none) : s.occur n e = some s := by
  unfold State.occur
  rw [turnOf_untraced n e h]
  exact congrArg some (recordEvent_untraced n e h)

theorem ans_happen {s : State} (n : Nat) (e : Event) (h : (s.ctx? n).bind (·.trace) = none) (hh : s.cur.held = []) :
    ans (happen n e) s = (.ok ⟨⟩, s) := by
  have hold : s.cur.holds e = false := by simp [Task.holds, hh]
  unfold happen
  rw [ans_bind_ok (ans_get s)]
  dsimp only
  rw [hold, if_neg (by simp), occur_untraced n e h]
  rfl

theorem forced_untraced {s : State} (n : Nat) (e : Event) (h : (s.ctx? n).bind (·.trace) = none) : s.forced n e = none := by
  unfold State.forced
  rw [turnOf_untraced n e h]

theorem trace_untraced {s : State} (n cls : Nat) (bs : List Byte) (h : (s.ctx? n).bind (·.trace) = none) :
    s.trace n cls bs = (s, none) := by
  unfold State.trace
  rw [h]

theorem waitRec_untraced {s : State} {t : Task} (h : (s.ctx? t.pool.ctx).bind (·.trace) = none) (wkind outcome flag : Nat)
    (waiter addr : Word) (began ended : Nat) (by_ : Option (Nat × Word)) (always : Bool) :
    s.waitRec t wkind outcome flag waiter addr began ended by_ always = s := by
  unfold State.waitRec
  rw [h]
  rfl

@[simp] theorem ans_waitRecord {s : State} (h : (s.ctx? s.cur.pool.ctx).bind (·.trace) = none) (wkind outcome flag : Nat)
    (waiter addr : Word) (began : Nat) (setKey : Option Nat) :
    ans (waitRecord wkind outcome flag waiter addr began setKey) s = (.ok ⟨⟩, s) := by
  simp [waitRecord, waitRec_untraced h]

theorem matches_unwatched {s : State} (h : s.Unwatched) (path : Nat) (kind : AKind) (runs : List (Nat × Nat)) :
    s.matches path kind runs = [] := by
  unfold State.matches
  split
  · rfl
  · refine List.flatMap_eq_nil_iff.2 fun c hc => ?_
    rw [h c hc]
    rfl

theorem watch_unwatched {s : State} (h : s.Unwatched) (precise : Bool) (path : Nat) (kind : AKind) (src : Source)
    (runs : List (Nat × Nat)) (skid : Nat → Nat) : s.watch precise path kind src runs skid = (s, none) := by
  unfold State.watch
  rw [matches_unwatched h]
  rfl

theorem ans_watchEntry {s : State} (h : s.Unwatched) (e : Entry) (path : Nat) (kind : AKind) (runs : List (Nat × Nat)) :
    ans (watchEntry e path kind runs) s = (.ok ⟨⟩, s) := by
  unfold watchEntry
  cases e.pass <;> simp [ans_bind, watch_unwatched h]

theorem ans_watchHome {s : State} (h : s.Unwatched) (path : Nat) (kind : AKind) (src : Source) (runs : List (Nat × Nat))
    (skid : Nat → Nat) : ans (watchHome path kind src runs skid) s = (.ok ⟨⟩, s) := by
  simp [watchHome, ans_bind, watch_unwatched h]

end Sys2Proof.Machine
end

