-- ==== Sys2Proof/Laws/Writes.lean ====
section
/-! SUPPORT. A write to memory, an RCB field, a fault record: each changes the memories, their dirty, remote, poison and
integrity lists, and nothing else. -/

namespace Sys2Proof.Machine

/-- Two states that differ at most in the memories and what is kept of their lines. -/
def State.SameButMemory (s t : State) : Prop :=
  t = { s with hbm := t.hbm, csram := t.csram, hostMem := t.hostMem, peerMem := t.peerMem, dirty := t.dirty, rdc := t.rdc,
               poison := t.poison, badTags := t.badTags }

theorem State.SameButMemory.refl (s : State) : s.SameButMemory s := rfl

theorem State.SameButMemory.trans {a b c : State} (h : a.SameButMemory b) (g : b.SameButMemory c) : a.SameButMemory c := by
  unfold State.SameButMemory at *
  rw [g]
  conv_lhs => rw [h]


theorem State.SameButMemory.hold {s t : State} (h : s.SameButMemory t) : t.hold = s.hold := by rw [h]
theorem State.SameButMemory.heldFlits {s t : State} (h : s.SameButMemory t) : t.heldFlits = s.heldFlits := by rw [h]
theorem State.SameButMemory.air {s t : State} (h : s.SameButMemory t) : t.air = s.air := by rw [h]
theorem State.SameButMemory.wrote {s t : State} (h : s.SameButMemory t) : t.wrote = s.wrote := by rw [h]
theorem State.SameButMemory.now {s t : State} (h : s.SameButMemory t) : t.now = s.now := by rw [h]
theorem State.SameButMemory.isReady {s t : State} (h : s.SameButMemory t) : t.isReady = s.isReady := by rw [h]
theorem State.SameButMemory.resetting {s t : State} (h : s.SameButMemory t) : t.resetting = s.resetting := by rw [h]
theorem State.SameButMemory.thermal {s t : State} (h : s.SameButMemory t) : t.thermal = s.thermal := by rw [h]
theorem State.SameButMemory.throttle {s t : State} (h : s.SameButMemory t) : t.throttle = s.throttle := by rw [h]
theorem State.SameButMemory.throttled {s t : State} (h : s.SameButMemory t) : t.throttled = s.throttled := by rw [h]
theorem State.SameButMemory.portDown {s t : State} (h : s.SameButMemory t) : t.portDown = s.portDown := by rw [h]
theorem State.SameButMemory.retries {s t : State} (h : s.SameButMemory t) : t.retries = s.retries := by rw [h]
theorem State.SameButMemory.trained {s t : State} (h : s.SameButMemory t) : t.trained = s.trained := by rw [h]
theorem State.SameButMemory.dieTemp {s t : State} (h : s.SameButMemory t) : t.dieTemp = s.dieTemp := by rw [h]
theorem State.SameButMemory.power {s t : State} (h : s.SameButMemory t) : t.power = s.power := by rw [h]
theorem State.SameButMemory.backing {s t : State} (h : s.SameButMemory t) : t.backing = s.backing := by rw [h]
theorem State.SameButMemory.tlb {s t : State} (h : s.SameButMemory t) : t.tlb = s.tlb := by rw [h]
theorem State.SameButMemory.coreTc {s t : State} (h : s.SameButMemory t) : t.coreTc = s.coreTc := by rw [h]
theorem State.SameButMemory.fetchTc {s t : State} (h : s.SameButMemory t) : t.fetchTc = s.fetchTc := by rw [h]
theorem State.SameButMemory.lineCache {s t : State} (h : s.SameButMemory t) : t.lineCache = s.lineCache := by rw [h]
theorem State.SameButMemory.walks {s t : State} (h : s.SameButMemory t) : t.walks = s.walks := by rw [h]
theorem State.SameButMemory.accessQs {s t : State} (h : s.SameButMemory t) : t.accessQs = s.accessQs := by rw [h]
theorem State.SameButMemory.transit {s t : State} (h : s.SameButMemory t) : t.transit = s.transit := by rw [h]
theorem State.SameButMemory.counters {s t : State} (h : s.SameButMemory t) : t.counters = s.counters := by rw [h]
theorem State.SameButMemory.quiet {s t : State} (h : s.SameButMemory t) : t.quiet = s.quiet := by rw [h]
theorem State.SameButMemory.ctxs {s t : State} (h : s.SameButMemory t) : t.ctxs = s.ctxs := by rw [h]
theorem State.SameButMemory.nextCtx {s t : State} (h : s.SameButMemory t) : t.nextCtx = s.nextCtx := by rw [h]
theorem State.SameButMemory.launches {s t : State} (h : s.SameButMemory t) : t.launches = s.launches := by rw [h]
theorem State.SameButMemory.nextSerial {s t : State} (h : s.SameButMemory t) : t.nextSerial = s.nextSerial := by rw [h]
theorem State.SameButMemory.clq {s t : State} (h : s.SameButMemory t) : t.clq = s.clq := by rw [h]
theorem State.SameButMemory.waiting {s t : State} (h : s.SameButMemory t) : t.waiting = s.waiting := by rw [h]
theorem State.SameButMemory.lastLaunch {s t : State} (h : s.SameButMemory t) : t.lastLaunch = s.lastLaunch := by rw [h]
theorem State.SameButMemory.coreResv {s t : State} (h : s.SameButMemory t) : t.coreResv = s.coreResv := by rw [h]
theorem State.SameButMemory.overBudget {s t : State} (h : s.SameButMemory t) : t.overBudget = s.overBudget := by rw [h]
theorem State.SameButMemory.served {s t : State} (h : s.SameButMemory t) : t.served = s.served := by rw [h]
theorem State.SameButMemory.cur {s t : State} (h : s.SameButMemory t) : t.cur = s.cur := by rw [h]
theorem State.SameButMemory.others {s t : State} (h : s.SameButMemory t) : t.others = s.others := by rw [h]
theorem State.SameButMemory.flrs {s t : State} (h : s.SameButMemory t) : t.flrs = s.flrs := by rw [h]
theorem State.SameButMemory.fns {s t : State} (h : s.SameButMemory t) : t.fns = s.fns := by rw [h]
theorem State.SameButMemory.lost {s t : State} (h : s.SameButMemory t) : t.lost = s.lost := by rw [h]
theorem State.SameButMemory.act {s t : State} (h : s.SameButMemory t) : t.act = s.act := by rw [h]
theorem State.SameButMemory.sent {s t : State} (h : s.SameButMemory t) : t.sent = s.sent := by rw [h]
theorem State.SameButMemory.sched {s t : State} (h : s.SameButMemory t) : t.sched = s.sched := by rw [h]
theorem State.SameButMemory.turn {s t : State} (h : s.SameButMemory t) : t.turn = s.turn := by rw [h]
theorem State.SameButMemory.free {s t : State} (h : s.SameButMemory t) : t.free = s.free := by rw [h]

theorem hbmWrite_same (s : State) (a : Nat) (bs : List Byte) : s.SameButMemory (s.hbmWrite a bs) := by
  unfold State.hbmWrite
  split <;> rfl

theorem put_same (s : State) (p : Space) (a : Nat) (bs : List Byte) : s.SameButMemory (s.put p a bs) := by
  cases p
  · exact hbmWrite_same s a bs
  · simp only [State.put, State.cleanLines]
    split <;> rfl
  · simp only [State.put, State.cleanLines, State.retag]
    split <;> split <;> rfl
  · simp only [State.put, State.cleanLines]
    split <;> rfl

theorem writeChunks_same (cs : List Chunk) : ∀ (s : State) (bs : List Byte), s.SameButMemory (s.writeChunks cs bs) := by
  induction cs with
  | nil => exact fun s _ => .refl s
  | cons c r ih => exact fun s bs => (put_same s _ _ _).trans (ih _ _)

theorem writeVia_same (s : State) (n : Nat) (va : Word) (bs : List Byte) : s.SameButMemory (s.writeVia n va bs) := by
  unfold State.writeVia
  split
  · exact writeChunks_same _ _ _
  · exact .refl s

theorem setRcb_same (s : State) (n : Nat) (rcb : Word) (off len x : Nat) : s.SameButMemory (s.setRcb n rcb off len x) :=
  writeVia_same ..

/-- A fold of updates that keep everything but memory keeps everything but memory. -/
theorem foldl_same {α : Type} (f : State → α → State) (h : ∀ (s : State) (a : α), s.SameButMemory (f s a)) (l : List α) :
    ∀ s : State, s.SameButMemory (l.foldl f s) := by
  induction l with
  | nil => exact fun s => .refl s
  | cons a r ih => exact fun s => (h s a).trans (ih _)

theorem live_same (s : State) (n : Nat) (rcb : Word) (up : Bool) (im : Option Image) : s.SameButMemory (s.live n rcb up im) :=
  foldl_same _ (fun _ _ => setRcb_same ..) _ s

/-- Two states that differ at most in the memories, what is kept of their lines, and the budgets noted as reached. -/
def State.SameButCharge (s t : State) : Prop := { s with overBudget := t.overBudget }.SameButMemory t

theorem State.SameButCharge.trans {a b c : State} (h : a.SameButCharge b) (g : b.SameButCharge c) : a.SameButCharge c := by
  unfold State.SameButCharge State.SameButMemory at *
  rw [g, h]

theorem chargeOne_same (s : State) (n die cycles : Nat) (node : BitVec 32) (im : Option Image) (rcb : Word) :
    s.SameButCharge (s.chargeOne n die cycles node im rcb) := by
  unfold State.chargeOne
  extract_lets old b s'
  have h : s.SameButMemory s' := setRcb_same ..
  unfold State.SameButCharge State.SameButMemory at *
  split <;> rw [h]

/-- A charge changes memory, and notes the budgets that it reaches. -/
theorem charge_same (s : State) (p : PoolEntry) (cycles : Nat) : s.SameButCharge (s.charge p cycles) := by
  unfold State.charge
  generalize s.poolImage p = im
  dsimp only
  generalize s.ancestry p.ctx chainFuel p.rcb im = l
  split
  · exact .refl s
  · induction l generalizing s with
    | nil => exact .refl s
    | cons r l ih => exact (chargeOne_same ..).trans (ih _)

theorem logFault_same (s : State) (n : Nat) (rcb : Word) (bs : List Byte) (im : Option Image) : s.SameButMemory (s.logFault n rcb bs im).1 := by
  unfold State.logFault
  extract_lets e head tail va lost
  refine iteInduction (motive := fun x : State × Option Word => s.SameButMemory x.1) (fun _ => ?_) (fun _ => ?_)
  · exact (writeVia_same ..).trans (setRcb_same ..)
  · generalize min (lost + 1) 0xFFFFFFFF = x
    exact setRcb_same ..

theorem touch_same (s : State) (leaf : Word) (a : Nat) (w : Bool) : s.SameButMemory (s.touch leaf a w) := rfl

end Sys2Proof.Machine
end

