-- ==== Sys2Proof/Laws/Queue.lean ====
section
/-! SUPPORT. What the performing of an entry does, said once. -/

namespace Sys2Proof.Machine

/-- The tokens of an entry are all there, and no wait for one is to be recorded: nothing happens. -/
theorem ans_awaitTokens {s : State} {e : Entry} {waits : List (Fin 6)} (h : ∀ i ∈ waits, s.cur.regs.tok.get i ≠ 0)
    (ht : e.tokWaits = [] ∨ s.Untraced) : ans (awaitTokens e waits) s = (.ok ⟨⟩, s) := by
  have here : ∀ i ∈ waits, (s.cur.regs.tok.get i != 0) = true := fun i hi => by simpa using h i hi
  have fresh : waits.filter (fun i => !(s.cur.regs.tok.get i != 0) && !(e.tokWaits.any (·.fifo == i))) = [] :=
    List.filter_eq_nil_iff.2 fun i hi => by simp [here i hi]
  have quiet : (((s.ctx? s.cur.pool.ctx).bind (·.trace)).isSome &&
      !(e.tokWaits.filter fun w => s.cur.regs.tok.get w.fifo != 0).isEmpty) = false := by
    rcases ht with ht | ht
    · simp [ht]
    · simp [ht.trace]
  have all : (waits.all fun i => s.cur.regs.tok.get i != 0) = true := List.all_eq_true.2 here
  unfold awaitTokens
  rw [ans_bind_ok (ans_get s)]
  simp [quiet, fresh, all]

/-- An entry that may begin and whose effect goes through leaves its queue. -/
theorem ans_awaitBegin {s : State} {e : Entry} (h : s.Ready e) : ans (awaitBegin e) s = (.ok ⟨⟩, s) := by
  obtain ⟨-, -, -, -, ⟨hu, -, -⟩, hm, ht, hw, hr⟩ := h
  unfold awaitBegin
  rw [hu, if_pos (by rfl), ans_bind_ok (ans_get s), hm, if_neg (by simp), ans_bind_ok (ans_awaitTokens hw ht),
    ans_bind_ok (ans_theTask s), hr, if_neg (by simp)]
  rfl

theorem ans_perform {s t : State} {e : Entry} {body : M Unit} (h : s.Ready e) (hb : ans body s = (.ok ⟨⟩, t)) (ha : t.air = none) :
    ans (perform e body) s = (.ok ⟨⟩, t.left e) := by
  have hu := h.2.2.2.2.1.1
  simp only [Entry.under, Entry.acted, Bool.or_eq_false_iff] at hu
  have hl : e.landing = none := by simpa using hu.2.1.1
  unfold perform
  rw [hl]
  dsimp only
  rw [ans_bind_ok (ans_awaitBegin h), ans_bind_ok hb, hu.1, if_pos (by rfl)]
  unfold takeTokens
  rw [ans_bind_ok (ans_modRegs ..), ans_bind_ok (ans_get _)]
  have hn : (t.withRegs fun g => (waitFifos e.stream (Instr.tokens e.ins)).foldl Regs.takeTok g).air = none := ha
  rw [hn]
  rfl

theorem queued_ok {k : Stream} {i : Instr} {n : Nat} {body : Entry → M Unit} {s t : State} {e : Entry} (h : s.Ready e)
    (hb : ans (body e) s = (.ok ⟨⟩, t)) (ha : t.air = none) : queued k i n body s = .next (t.left e) := by
  unfold queued
  rw [h.1]
  exact runM_ok (ans_perform h hb ha)

theorem ans_pushPort {s : State} {r : SReg} {x : PortWord} (h : (s.cur.regs.rdPort (portIx r)).length < 16) :
    ans (pushPort r x) s = (.ok ⟨⟩, s.withRegs fun g => g.wrPort (portIx r) (g.rdPort (portIx r) ++ [x])) := by
  have hn : ¬ portDepth ≤ (s.cur.regs.rdPort (portIx r)).length := by unfold portDepth; omega
  simp [pushPort, ans_bind, hn, State.withRegs]

end Sys2Proof.Machine
end

