-- ==== Sys2Proof/Tests/Slice0.lean ====
section
/-! SUPPORT. Tests: words of the spec and their instructions, ill-formed terms that are refused, worked examples of the rules,
and a witness for each statement: a theorem that applies it at a concrete state and gives every hypothesis. -/

namespace Sys2Proof.Tests

open Sys2Proof.Machine

set_option Elab.async false

/-! ## Small states -/

/-- A task that runs on core 0 of a machine with one context, whose first 2 MiB of addresses are one page. -/
def w : State := State.reset.withRunner

/-- The machine with one scalar register set. -/
def wr (r : SReg) (x : Word) : State := w.withRegs fun g => g.wr r x

/-- The machine with two scalar registers set. -/
def wr2 (r : SReg) (x : Word) (q : SReg) (y : Word) : State := w.withRegs fun g => (g.wr r x).wr q y

/-! ## Witnesses of the statements: what the witness theorems share -/

theorem drained_w : w.Drained := ⟨fun k => by cases k <;> rfl, fun _ h => nomatch h⟩

theorem drained_withRegs (f : Regs → Regs) : (w.withRegs f).Drained := ⟨fun k => by cases k <;> rfl, fun _ h => nomatch h⟩

theorem untraced_w : w.Untraced := ⟨by decide, rfl⟩

theorem untraced_withRegs (f : Regs → Regs) : (w.withRegs f).Untraced := untraced_w

theorem drained_of {s : State} (hq : s.cur.queues = .replicate 9 []) (hv : s.cur.vcq = []) : s.Drained :=
  ⟨fun k => by unfold Task.queue; rw [hq]; cases k <;> rfl, fun c hc => by rw [hv] at hc; nomatch hc⟩

theorem untraced_of {s : State} (hc : s.ctxs.all (fun c => c.trace.isNone) = true) (hh : s.cur.held.isEmpty = true) : s.Untraced :=
  ⟨fun c h => by have := List.all_eq_true.1 hc c h; simpa using this, List.isEmpty_iff.1 hh⟩

theorem unwatched_of {s : State} (hc : s.ctxs.all (fun c => c.watch.isEmpty) = true) : s.Unwatched :=
  fun c h => List.isEmpty_iff.1 (List.all_eq_true.1 hc c h)

theorem clear_of {s : State} (ht : s.ctxs.all (fun c => c.trace.isNone) = true) (hh : s.cur.held.isEmpty = true)
    (hw : s.ctxs.all (fun c => c.watch.isEmpty) = true)
    (hk : s.cur.thunks = [] ∧ s.cur.puts = none ∧ s.cur.adrift = [] ∧ s.poison = [] ∧ s.transit = [] ∧ s.walks = []) : s.Clear :=
  ⟨unwatched_of hw, untraced_of ht hh, hk⟩

/-- An entry of a stream that has captured some scalars and recorded a handle. -/
def entry (k : Stream) (i : Instr) (caps : List Word := []) (h : Option Handle := none) : Entry := { stream := k, ins := i, caps, h }

/-- The state with one entry in a queue. -/
def queuing (s : State) (e : Entry) : State := s.withTask fun t => t.setQueue e.stream [e]

/-- The state with one entry in a queue, which acts. -/
def acting (s : State) (e : Entry) : State := { queuing s e with act := some e }

/-- The state with numbers written to HBM: address, bytes, value. -/
def mem (s : State) (xs : List (Nat × Nat × Nat)) : State := { s with hbm := xs.foldl (fun m x => Mem.setNum m x.1 x.2.1 x.2.2) s.hbm }

theorem wf_sets : ∀ (xs : List (Nat × Nat × Nat)) (m : Mem), Memory.wf m = true →
    Memory.wf (xs.foldl (fun m x => Mem.setNum m x.1 x.2.1 x.2.2) m) = true
  | [], _, h => h
  | _ :: r, _, h => wf_sets r _ (wf_setNum _ _ _ _ h)

theorem leBytes_length : ∀ n x : Nat, (leBytes n x).length = n
  | 0, _ => rfl
  | n + 1, x => by simp [leBytes, leBytes_length n]

/-- Numbers written above the tables of w leave the tables. -/
theorem tables_sets : ∀ (xs : List (Nat × Nat × Nat)) (m : Mem), Memory.wf m = true → xs.all (fun x => decide (0x5000 ≤ x.1)) = true →
    ∀ j < 0x5000, Mem.read (xs.foldl (fun m x => Mem.setNum m x.1 x.2.1 x.2.2) m) j = Mem.read m j
  | [], _, _, _, _, _ => rfl
  | x :: r, m, h, hx, j, hj => by
    simp only [List.all_cons, Bool.and_eq_true, decide_eq_true_eq] at hx
    rw [List.foldl_cons, tables_sets r _ (wf_setNum _ _ _ _ h) hx.2 j hj, Mem.setNum, read_writeN _ _ _ _ h,
      if_neg (by omega)]

theorem num_congr {m m' : Mem} {a n : Nat} (h : ∀ j, a ≤ j → j < a + n → Mem.read m j = Mem.read m' j) : Mem.num m a n = Mem.num m' a n := by
  unfold Mem.num Mem.readN
  congr 1
  apply List.map_congr_left
  intro i hi
  exact h _ (Nat.le_add_right _ _) (by have := List.mem_range.1 hi; omega)

theorem w_table4 : Mem.num w.hbm 0x1000 8 = 2 * 2 ^ 24 + 1 := by decide
theorem w_table3 : Mem.num w.hbm 0x2000 8 = 3 * 2 ^ 24 + 1 := by decide
theorem w_table2 : Mem.num w.hbm 0x3000 8 = 4 * 2 ^ 24 + 1 := by decide
theorem w_table1 : Mem.num w.hbm 0x4000 8 = 512 * 2 ^ 24 + 0x47 := by decide

/-- A memory with the tables of w, whose one leaf is L. -/
def Tabled (l : Word) (m : Mem) : Prop :=
  (leafV l = true ∧ leafSz l = 2 ∧ leafOk 1 l = true) ∧ Mem.num m 0x4000 8 = l.toNat ∧
  (∀ j, 0x1000 ≤ j → j < 0x4000 → Mem.read m j = Mem.read w.hbm j) ∧ ∀ j, 0x4008 ≤ j → j < 0x5000 → Mem.read m j = Mem.read w.hbm j

/-- Every address below 2 MiB lies in the page of the leaf. -/
theorem walk_low {l : Word} {m : Mem} (h : Tabled l m) {va : Word} (hv : va.toNat < 2 ^ 21) :
    walkTables m 0x1000 va = .ok (l, 0x4000) := by
  obtain ⟨⟨hl1, hl2, hl3⟩, n1, h, -⟩ := h
  have hc : canonical va = true := by
    have : va.extractLsb' 56 8 = 0 := by
      apply BitVec.eq_of_toNat_eq
      simp only [BitVec.extractLsb'_toNat, Nat.shiftRight_eq_div_pow]
      rw [Nat.div_eq_of_lt (by omega)]
      rfl
    simp [canonical, this]
  have e4 : va.toNat / 2 ^ (12 + 9 * (3 + 1)) % 512 = 0 := by omega
  have e3 : va.toNat / 2 ^ (12 + 9 * (2 + 1)) % 512 = 0 := by omega
  have e2 : va.toNat / 2 ^ (12 + 9 * (1 + 1)) % 512 = 0 := by omega
  have e1 : va.toNat / 2 ^ (12 + 9 * (0 + 1)) % 512 = 0 := by omega
  have n4 : Mem.num m 0x1000 8 = 2 * 2 ^ 24 + 1 := (num_congr fun j a b => h j (by omega) (by omega)).trans w_table4
  have n3 : Mem.num m 0x2000 8 = 3 * 2 ^ 24 + 1 := (num_congr fun j a b => h j (by omega) (by omega)).trans w_table3
  have n2 : Mem.num m 0x3000 8 = 4 * 2 ^ 24 + 1 := (num_congr fun j a b => h j (by omega) (by omega)).trans w_table2
  have s1 : walkFrom m va.toNat 1 0x4000 = .ok (l, 0x4000) := by
    rw [walkFrom, e1, n1, BitVec.ofNat_toNat, BitVec.setWidth_eq, if_neg (by simp [hl1]), if_pos (.inl ⟨rfl, hl2⟩), if_pos hl3]
  have s2 : walkFrom m va.toNat 2 0x3000 = .ok (l, 0x4000) := by
    rw [walkFrom, e2, n2, if_neg (by decide), if_neg (by decide), if_neg (by decide)]
    exact s1
  have s3 : walkFrom m va.toNat 3 0x2000 = .ok (l, 0x4000) := by
    rw [walkFrom, e3, n3, if_neg (by decide), if_neg (by decide), if_neg (by decide)]
    exact s2
  have s4 : walkFrom m va.toNat 4 0x1000 = .ok (l, 0x4000) := by
    rw [walkFrom, e4, n4, if_neg (by decide), if_neg (by decide), if_neg (by decide)]
    exact s3
  rw [walkTables, if_pos hc, s4]

theorem num_zero {m : Mem} {a n : Nat} (h : ∀ c ∈ m, c.1 < a ∨ a + n ≤ c.1) : Mem.num m a n = 0 := by
  have r : ∀ (m : Mem) (x : Nat), (∀ c ∈ m, c.1 ≠ x) → Mem.read m x = 0 := by
    intro m
    induction m with
    | nil => exact fun _ _ => rfl
    | cons c t ih =>
      intro x hx
      rw [Mem.read, if_neg fun e => hx c List.mem_cons_self e.symm]
      split
      · rfl
      · exact ih x fun d hd => hx d (List.mem_cons_of_mem _ hd)
  have z : ∀ l : List Byte, (∀ x ∈ l, x = 0) → leNat l = 0 := by
    intro l
    induction l with
    | nil => exact fun _ => rfl
    | cons b t ih =>
      intro hl
      simp [leNat, hl b List.mem_cons_self, ih fun x hx => hl x (List.mem_cons_of_mem _ hx)]
  refine z _ fun x hx => ?_
  obtain ⟨i, hi, rfl⟩ := List.mem_map.1 hx
  have hi := List.mem_range.1 hi
  exact r m _ fun c hc e => by have := h c hc; omega

theorem w_cells : ∀ c ∈ w.hbm, (0x1000 ≤ c.1 ∧ c.1 < 0x1008) ∨ (0x2000 ≤ c.1 ∧ c.1 < 0x2008) ∨ (0x3000 ≤ c.1 ∧ c.1 < 0x3008) ∨
    (0x4000 ≤ c.1 ∧ c.1 < 0x4008) ∨ 0x5000 ≤ c.1 := by decide +kernel

theorem w_zeros (i : Nat) (hi : i < 512) (hz : i ≠ 0) : Mem.num w.hbm (0x1000 + i * 8) 8 = 0 ∧ Mem.num w.hbm (0x2000 + i * 8) 8 = 0 ∧
    Mem.num w.hbm (0x3000 + i * 8) 8 = 0 ∧ Mem.num w.hbm (0x4000 + i * 8) 8 = 0 := by
  refine ⟨num_zero ?_, num_zero ?_, num_zero ?_, num_zero ?_⟩ <;> intro c hc <;> have := w_cells c hc <;> omega

/-- One level of a walk that reads equal tables, of which only the first entry is there. -/
theorem walk_level {m m' : Mem} {va level table next : Nat} (h : ∀ i < 512, Mem.num m (table + i * 8) 8 = Mem.num m' (table + i * 8) 8)
    (hz : ∀ i < 512, i ≠ 0 → Mem.num m' (table + i * 8) 8 = 0)
    (hn : Mem.num m' table 8 = next * 2 ^ 24 + 1) (hp : leafPfn (BitVec.ofNat 64 (next * 2 ^ 24 + 1)) * 4096 = next * 4096)
    (hr : walkFrom m va level (next * 4096) = walkFrom m' va level (next * 4096)) :
    walkFrom m va (level + 1) table = walkFrom m' va (level + 1) table := by
  rw [walkFrom, walkFrom, h _ (Nat.mod_lt _ (by decide))]
  by_cases hi : va / 2 ^ (12 + 9 * (level + 1)) % 512 = 0
  · rw [hi, Nat.zero_mul, Nat.add_zero, hn, hp, hr]
  · rw [hz _ (Nat.mod_lt _ (by decide)) hi, if_pos (by decide), if_pos (by decide)]

/-- The last level of a walk. -/
theorem walk_leaf {l : Word} {m : Mem} (h : Tabled l m) (va : Nat) :
    walkFrom m va 1 0x4000 = if va / 2 ^ (12 + 9 * (0 + 1)) % 512 = 0 then .ok (l, 0x4000) else .error fcNp := by
  obtain ⟨⟨hl1, hl2, hl3⟩, n1, -, k⟩ := h
  rw [walkFrom]
  by_cases hi : va / 2 ^ (12 + 9 * (0 + 1)) % 512 = 0
  · rw [if_pos hi, hi, Nat.zero_mul, Nat.add_zero, n1, BitVec.ofNat_toNat, BitVec.setWidth_eq, if_neg (by simp [hl1]),
      if_pos (.inl ⟨rfl, hl2⟩), if_pos hl3]
  · have hlt := Nat.mod_lt (va / 2 ^ (12 + 9 * (0 + 1))) (show 0 < 512 by decide)
    rw [if_neg hi, (num_congr fun j p q => k j (by omega) (by omega)).trans (w_zeros _ hlt hi).2.2.2, if_pos (by decide)]

/-- Two memories with the same tables translate alike. -/
theorem walk_congr {l : Word} {m m' : Mem} (h : Tabled l m) (h' : Tabled l m') (va : Word) : walkTables m 0x1000 va = walkTables m' 0x1000 va := by
  have leaf : walkFrom m va.toNat 1 0x4000 = walkFrom m' va.toNat 1 0x4000 := (walk_leaf h _).trans (walk_leaf h' _).symm
  obtain ⟨-, -, h, -⟩ := h
  obtain ⟨-, -, h', -⟩ := h'
  have low : ∀ a, 0x1000 ≤ a → a + 8 ≤ 0x4000 → Mem.num m a 8 = Mem.num w.hbm a 8 ∧ Mem.num m' a 8 = Mem.num w.hbm a 8 :=
    fun a x y => ⟨num_congr fun j p q => h j (by omega) (by omega), num_congr fun j p q => h' j (by omega) (by omega)⟩
  have s2 : walkFrom m va.toNat 2 0x3000 = walkFrom m' va.toNat 2 0x3000 :=
    walk_level (next := 4) (fun i hi => ((low _ (by omega) (by omega)).1).trans ((low _ (by omega) (by omega)).2).symm)
      (fun i hi hz => ((low _ (by omega) (by omega)).2).trans (w_zeros i hi hz).2.2.1) ((low _ (by omega) (by omega)).2.trans w_table2)
      (by decide) leaf
  have s3 : walkFrom m va.toNat 3 0x2000 = walkFrom m' va.toNat 3 0x2000 :=
    walk_level (next := 3) (fun i hi => ((low _ (by omega) (by omega)).1).trans ((low _ (by omega) (by omega)).2).symm)
      (fun i hi hz => ((low _ (by omega) (by omega)).2).trans (w_zeros i hi hz).2.1) ((low _ (by omega) (by omega)).2.trans w_table3)
      (by decide) s2
  have s4 : walkFrom m va.toNat 4 0x1000 = walkFrom m' va.toNat 4 0x1000 :=
    walk_level (next := 2) (fun i hi => ((low _ (by omega) (by omega)).1).trans ((low _ (by omega) (by omega)).2).symm)
      (fun i hi hz => ((low _ (by omega) (by omega)).2).trans (w_zeros i hi hz).1) ((low _ (by omega) (by omega)).2.trans w_table4)
      (by decide) s3
  rw [walkTables, walkTables, s4]

/-- A state in which context 1 has the tables of w with a leaf. -/
def PagedBy (l : Word) (s : State) : Prop := (∃ c, s.ctx? 1 = some c ∧ c.root = 0x1000) ∧ Memory.wf s.hbm = true ∧ Tabled l s.hbm

/-- The leaf is that of w. -/
abbrev Paged (s : State) : Prop := PagedBy fetchLeaf s

theorem PagedBy.lookup {l : Word} {s : State} (h : PagedBy l s) {va : Word} (hv : va.toNat < 2 ^ 21) : s.lookup 1 va = .ok (l, 0x4000) := by
  obtain ⟨⟨c, hc, hr⟩, -, ht⟩ := h
  simp only [State.lookup, hc, hr, walk_low ht hv]

theorem PagedBy.maps {l : Word} {s : State} (h : PagedBy l s) {va : Word} (hv : va.toNat < 2 ^ 21) : s.Maps 1 va l := ⟨_, h.lookup hv⟩

theorem paged_w : Paged w :=
  ⟨⟨_, rfl, rfl⟩, by decide, ⟨by decide, by decide, by decide⟩, w_table1, fun _ _ _ => rfl, fun _ _ _ => rfl⟩

theorem Tabled.agree {l : Word} {m m' : Mem} (h : Tabled l m) (e : ∀ j, 0x1000 ≤ j → j < 0x5000 → Mem.read m' j = Mem.read m j) : Tabled l m' :=
  ⟨h.1, (num_congr fun j a b => e j (by omega) (by omega)).trans h.2.1, fun j a b => (e j a (by omega)).trans (h.2.2.1 j a b),
    fun j a b => (e j (by omega) b).trans (h.2.2.2 j a b)⟩

theorem PagedBy.mem {l : Word} {s : State} (h : PagedBy l s) (xs : List (Nat × Nat × Nat)) (hx : xs.all (fun x => decide (0x5000 ≤ x.1)) = true) :
    PagedBy l (mem s xs) :=
  ⟨h.1, wf_sets xs _ h.2.1, h.2.2.agree fun j _ b => tables_sets xs _ h.2.1 hx j b⟩

/-- Bytes from 0x5000 on are apart from the translation of every address. -/
theorem PagedBy.apart {l : Word} {s : State} (h : PagedBy l s) {lo len : Nat} (hl : 0x5000 ≤ lo) {va : Word} : TablesApart s 1 lo len va := by
  intro c m hc hm
  obtain ⟨⟨c', hc', hr⟩, -, ht⟩ := h
  cases hc.symm.trans hc'
  rw [hr]
  exact walk_congr (ht.agree fun j a b => hm j (.inl (by omega))) ht va

theorem mem_add {va off : Word} {a n : Nat} (ha : va.toNat + n ≤ a) (ho : off.toNat < n) (hb : a ≤ 2 ^ 21) : (va + off).toNat < 2 ^ 21 := by
  rw [BitVec.toNat_add]; omega

theorem memoryWf_mem {s : State} (h : s.MemoryWf) (xs : List (Nat × Nat × Nat)) : (mem s xs).MemoryWf :=
  ⟨wf_sets xs _ h.1, h.2⟩

theorem memoryWf_w : w.MemoryWf := ⟨by decide, rfl, rfl, rfl, rfl, rfl, fun _ h => nomatch h⟩

theorem clear_w : w.Clear := ⟨by unfold State.Unwatched; decide, untraced_w, rfl, rfl, rfl, rfl, rfl, rfl⟩

theorem witness_div (h : Obligations.DivisionsFollowTheirPseudocode) : ∃ t, exec (.div 5 6 7) (wr2 6 9 7 2) = .next t :=
  ⟨_, h.1 (.div 5 6 7) (wr2 6 9 7 2) _ _ 5 6 7 _ _ _ rfl rfl rfl rfl⟩
theorem witness_divExample (h : Obligations.DivisionsFollowTheirPseudocode) : ∃ f : Word → Word → Word, f (-7) 2 = -3 :=
  ⟨_, h.2.1 _ rfl⟩
theorem witness_twoSource (h : TwoSourceInstructionsWriteTheirValue) : ∃ t, exec (.add 5 6 7) (wr2 6 9 7 2) = .next t :=
  ⟨_, h (.add 5 6 7) _ _ _ 5 6 7 _ _ _ rfl rfl rfl rfl⟩
/-- A port as the source, which gives its entry up, and s0 as the destination, which discards. -/
theorem witness_portSource (h : TwoSourceInstructionsWriteTheirValue) :
    ∃ t, exec (.add 0 56 56) (w.withRegs fun g => g.wrPort 0 [⟨1, false⟩, ⟨2, false⟩]) = .next t :=
  ⟨_, h (.add 0 56 56) _ _ _ 0 56 56 _ _ _ rfl rfl rfl rfl⟩
theorem witness_oneSource (h : OneSourceInstructionsWriteTheirValue) : ∃ t, exec (.addi 5 6 0xFFF) (wr 6 9) = .next t :=
  ⟨_, h (.addi 5 6 0xFFF) _ _ _ 5 6 1 _ _ rfl rfl rfl rfl⟩
theorem witness_bitCounts (h : BitCountsAreTheCounts) : ∃ t, exec (.popc 5 6) (wr 6 9) = .next t :=
  ⟨_, (h (wr 6 9) _ 5 6 _ rfl).2.2 rfl _ rfl⟩

theorem witness_cmp (h : ComparesWriteTheirPredicateAndSelChooses) : ∃ t, exec (.cmpCc .lt 1 6 7) (wr2 6 9 7 2) = .next t :=
  let ⟨_, _, e⟩ := h.1 (wr2 6 9 7 2) _ .lt 1 6 7 _ _ rfl rfl
  ⟨_, e⟩
theorem witness_cmpi (h : ComparesWriteTheirPredicateAndSelChooses) : ∃ t, exec (.cmpiCc .geu 0 6 3) (wr 6 9) = .next t :=
  let ⟨_, _, e⟩ := h.2.1 (wr 6 9) _ .geu 0 6 3 _ rfl rfl
  ⟨_, e⟩
theorem witness_sel (h : ComparesWriteTheirPredicateAndSelChooses) : ∃ t, exec (.sel 5 1 6 7) (wr2 6 9 7 2) = .next t :=
  ⟨_, h.2.2 (wr2 6 9 7 2) _ _ 5 1 6 7 _ _ rfl rfl rfl⟩
theorem witness_movi (h : MovesWriteTheirValue) : ∃ t, exec (.movi 5 0x80000000) w = .next t := ⟨_, h.1 w _ 5 0x80000000 rfl rfl⟩
theorem witness_arg (h : MovesWriteTheirValue) : ∃ t, exec (.arg 5 3) w = .next t := ⟨_, h.2.1 w _ 5 3 rfl rfl⟩
theorem witness_tid (h : MovesWriteTheirValue) : ∃ t, exec (.tid 5 1) w = .next t := ⟨_, h.2.2.1 w _ 5 1 0 rfl rfl rfl⟩
theorem witness_hstat (h : MovesWriteTheirValue) : ∃ t, exec (.hstat 5 31) w = .next t := ⟨_, h.2.2.2.1 w _ 5 31 rfl rfl⟩

theorem witness_br (h : TakenTransfersGoToTheirTarget) : ∃ t, exec (.br 1 true 0x80000) w = .next t := ⟨_, h.1 w 1 true 0x80000 rfl⟩
theorem witness_call (h : TakenTransfersGoToTheirTarget) :
    ∃ t, exec (.call 0 false 0x7FFFF) w = .next t := ⟨_, (h.2.1 w 0 false 0x7FFFF rfl).trans (if_neg (by decide))⟩
theorem witness_ret (h : TakenTransfersGoToTheirTarget) : ∃ t, exec .ret (wr 1 0x40) = .next t := ⟨_, h.2.2.1 (wr 1 0x40) rfl⟩
theorem witness_jmp (h : TakenTransfersGoToTheirTarget) : ∃ t, exec (.jmp 5 6) (wr 6 0x40) = .next t :=
  ⟨_, h.2.2.2.1 (wr 6 0x40) _ _ 5 6 _ rfl rfl rfl rfl⟩
theorem witness_loop (h : TakenTransfersGoToTheirTarget) : ∃ t, exec (.loop 6 0x20000) (wr 6 1) = .next t :=
  ⟨_, h.2.2.2.2 (wr 6 1) 6 0x20000 (by decide) rfl rfl⟩
theorem witness_retAlign (h : MisalignedTransfersRaiseAlign) : ∃ t, exec .ret (wr 1 0x41) = .next t :=
  ⟨_, h.1 (wr 1 0x41) (drained_withRegs _) (by decide)⟩
theorem witness_jmpAlign (h : MisalignedTransfersRaiseAlign) : ∃ t, exec (.jmp 5 6) (wr 6 0x5F) = .next t :=
  ⟨_, h.2 (wr 6 0x5F) _ 5 6 _ (drained_withRegs _) rfl rfl (by decide)⟩

theorem witness_xltBound (h : XltBindsItsHandle) : ∃ t, exec (.xlt 3 6 5 false true) (wr 6 (1 <<< 63)) = .next t :=
  ⟨_, h.1 (wr 6 (1 <<< 63)) _ 3 6 5 false true _ rfl rfl ⟨7, by decide, by decide⟩⟩
/-- The machine whose core 0 and its fetch cache know the page of w. -/
def wCached (x : Word) : State := { wr 6 x with coreTc := [⟨0, 1, 0, fetchLeaf⟩] }
theorem witness_xltHit (h : XltBindsItsHandle) : ∃ t, exec (.xlt 3 6 5 true true) (wCached 0x1FFFFF) = .next t :=
  let ⟨_, _, e, _⟩ := h.2.1 (wCached 0x1FFFFF) _ 3 6 5 true true _ _ 0 rfl rfl (by decide) rfl rfl (.inl rfl)
  ⟨_, e⟩
/-- A core's miss that hits in its die's TLB. -/
theorem witness_xltDie (h : XltBindsItsHandle) : ∃ t, exec (.xlt 3 6 5 false true) { wr 6 0x1FFFFF with tlb := [⟨0, 1, 0, fetchLeaf⟩] } = .next t :=
  let ⟨_, _, e, _⟩ := h.2.1 { wr 6 0x1FFFFF with tlb := [⟨0, 1, 0, fetchLeaf⟩] } _ 3 6 5 false true _ _ 0 rfl rfl (by decide) rfl rfl
    (.inr ⟨rfl, rfl⟩)
  ⟨_, e⟩
theorem witness_xltMiss (h : XltBindsItsHandle) : ∃ t, exec (.xlt 3 6 5 false true) (wCached 0x200000) = .next t :=
  ⟨_, (h.2.2.1 (wCached 0x200000) _ 3 6 5 false true _ 0 rfl rfl (by decide) rfl).1 rfl rfl rfl⟩
/-- A node of a launch with a window of cluster SRAM at 0x40000. -/
def wWindow : State :=
  { wr 6 0x40000 with
    launches := [{ serial := 0, ctx := 1, queue := 0, nodeTbl := 0, nodeCnt := 1, overlap := false, lrcb := 0, lttbl := 0, doneVa := 0, doneVal := 0, accepted := true,
                   csVa := 0x40000, csSz := 65536 }]
    cur := { (wr 6 0x40000).cur with pool := { w.cur.pool with origin := 0, serial := 0 } } }
theorem witness_xltWindow (h : XltBindsItsHandle) : ∃ t, exec (.xlt 3 6 5 false true) wWindow = .next t :=
  ⟨_, (h.2.2.1 wWindow _ 3 6 5 false true _ 0 rfl rfl (by decide) rfl).2 _ (List.find?_cons_of_pos (by decide))⟩
theorem witness_walk (h : WalkCompletesItsHandles) :
    ∃ t, exec (.walkComplete 0) { w with walks := [⟨1, 0x20040, 0, false, false, 0, false⟩] } = .next t :=
  let ⟨_, _, e, _⟩ := h { w with walks := [⟨1, 0x20040, 0, false, false, 0, false⟩] } 0 _ fetchLeaf 0x4000 rfl rfl rfl rfl (by decide +kernel) rfl rfl
  ⟨_, e⟩

/-- A load that waits in LDQ. -/
def ldWaits : State := queuing w (entry .ldq (.vld 1 0 none 0 0))
theorem witness_wait (h : WaitsHoldUntilTheirWorkHasPerformed) : exec (.wait 0 0 0 0) w = .next (w.past 1) :=
  (h.1 w 0 0 0 0).1 (by decide)
theorem witness_waitHeld (h : WaitsHoldUntilTheirWorkHasPerformed) : exec (.wait 0 63 63 63) ldWaits = .next ldWaits :=
  (h.1 ldWaits 0 63 63 63).2 (by decide)
theorem witness_xfence (h : WaitsHoldUntilTheirWorkHasPerformed) : exec (.xfence .ld .st) w = .next (w.past 1) :=
  (h.2.1 w .ld .st).1 ⟨fun _ h => (nomatch h), rfl⟩
theorem witness_xfenceHeld (h : WaitsHoldUntilTheirWorkHasPerformed) : exec (.xfence .ld .st) ldWaits = .next ldWaits :=
  (h.2.1 ldWaits .ld .st).2 fun e => nomatch e.2
/-- A path on which a copy command that has ended is still to land. -/
theorem witness_xfenceAdrift (h : WaitsHoldUntilTheirWorkHasPerformed) :
    exec (.xfence .cp .ld) (w.withTask fun t => { t with adrift := [(.cp, {})] }) = .next (w.withTask fun t => { t with adrift := [(.cp, {})] }) :=
  (h.2.1 (w.withTask fun t => { t with adrift := [(.cp, {})] }) .cp .ld).2 fun e => e.1 (.cp, {}) (List.mem_singleton.2 rfl) rfl
theorem witness_fence (h : WaitsHoldUntilTheirWorkHasPerformed) : exec (.fence .acq .dev) w = .next (w.past 1) :=
  (h.2.2.1 w .acq .dev).1 (by decide)
theorem witness_fenceHeld (h : WaitsHoldUntilTheirWorkHasPerformed) : exec (.fence .rel .dev) ldWaits = .next ldWaits :=
  (h.2.2.1 ldWaits .rel .dev).2 (by decide)
theorem witness_mark (h : MarkHoldsLaterAccesses) :
    runM (perform { entry .stq (.sts 0 .b8 0 0) with ord := 2, mark := 2 } (pure ())) ldWaits = .next ldWaits :=
  h.2 ldWaits _ (entry .ldq (.vld 1 0 none 0 0)) .ldq _ (.inl rfl) (List.mem_singleton.2 rfl) (.inr rfl) rfl (by decide)
theorem witness_markAbove (h : MarkHoldsLaterAccesses) : ∃ t, exec .mark (ldWaits.withTask fun t => { t with ords := 4 }) = .next t :=
  let ⟨_, e, _⟩ := h.1 (ldWaits.withTask fun t => { t with ords := 4 }) (by intro k; cases k <;> decide)
  ⟨_, e⟩
theorem witness_semSet (h : SemaphoresCountSignals) : ∃ t, exec (.semSet 3 6) (wr 6 9) = .next t :=
  let ⟨_, e⟩ := h.2 (wr 6 9) _ 3 6 _ rfl rfl
  ⟨_, e⟩

theorem give_reg (s : State) (r : SReg) (x : Word) (h : isPort r = false) : s.give r x = some (s.withRegs fun g => g.wr r x) := by
  simp [State.give, h]
theorem fillPage_setter (t : Task) (st : List (Nat × Nat × Word × Nat)) (b : Mem) (p : Nat) :
    ({ t with setter := st } : Task).fillPage b p = { t.fillPage b p with setter := st } := by
  unfold Task.fillPage
  split <;> rfl
theorem fillPages_setter (t : Task) (st : List (Nat × Nat × Word × Nat)) (b : Mem) (p q : Nat) :
    (({ t with setter := st } : Task).fillPage b p).fillPage b q = { (t.fillPage b p).fillPage b q with setter := st } :=
  (congrArg (Task.fillPage b · q) (fillPage_setter t st b p)).trans (fillPage_setter _ st b q)
theorem fillFor_pages (t : Task) (b : Mem) (a : Word) (n : Nat) :
    t.fillFor b a n = (t.fillPage b ((a.toNat - 0x10000) / 4096)).fillPage b ((a.toNat + n - 1 - 0x10000) / 4096) := rfl
theorem filled_cur (s : State) (a : Word) (n : Nat) : (filledFor s a n).cur = s.cur.fillFor s.backing a n := by
  unfold filledFor
  rfl
theorem scratch_setter (t : Task) (st : List (Nat × Nat × Word × Nat)) : ({ t with setter := st } : Task).scratch = t.scratch := rfl
/-- The word in a page that is filled stands apart from who set it. -/
theorem word_setter (s : State) (st : List (Nat × Nat × Word × Nat)) (a : Word) :
    scratchWord (filledFor { s with cur := { s.cur with setter := st } } a 8) a = scratchWord (filledFor s a 8) a := by
  have e : ({ s.cur with setter := st } : Task).fillFor s.backing a 8 = { s.cur.fillFor s.backing a 8 with setter := st } :=
    (fillFor_pages _ _ _ _).trans ((fillPages_setter _ _ _ _ _).trans
      (congrArg (fun x : Task => ({ x with setter := st } : Task)) (fillFor_pages s.cur s.backing a 8).symm))
  unfold scratchWord
  rw [filled_cur, filled_cur, (congrArg Task.scratch e).trans (scratch_setter _ _)]
theorem witness_waita (h : WaitaExaminesItsWord) : ∃ t, exec (.waita 5 6 7 .eq 0) (wr2 6 0x10FF8 7 0) = .next t :=
  let ⟨_, e⟩ := h (wr2 6 0x10FF8 7 0) _ 5 6 7 .eq 0 _ _ rfl (untraced_withRegs _) rfl rfl rfl (by decide) (by decide) (by decide)
  ⟨_, e.1 (show _ = _ by rw [word_setter]; decide +kernel) _ (give_reg _ _ _ rfl)⟩
theorem witness_waitaLate (h : WaitaExaminesItsWord) : ∃ t, exec (.waita 5 6 7 .eq 0) (wr2 6 0x10000 7 1) = .next t :=
  let ⟨_, e⟩ := h (wr2 6 0x10000 7 1) _ 5 6 7 .eq 0 _ _ rfl (untraced_withRegs _) rfl rfl rfl (by decide) (by decide) (by decide)
  ⟨_, e.2.1 (show ¬ _ = _ by rw [word_setter]; decide) rfl _ (give_reg _ _ _ rfl)⟩
theorem witness_waitaWaits (h : WaitaExaminesItsWord) : ∃ t, exec (.waita 5 6 7 .eq 9) (wr2 6 0x10000 7 1) = .next t :=
  let ⟨_, e⟩ := h (wr2 6 0x10000 7 1) _ 5 6 7 .eq 9 _ _ rfl (untraced_withRegs _) rfl rfl rfl (by decide) (by decide) (by decide)
  ⟨_, e.2.2 (show ¬ _ = _ by rw [word_setter]; decide) (by decide)⟩
theorem witness_semWait (h : SemWaitExaminesItsCount) :
    ∃ t, exec (.semWait 5 3 2 0) (w.withRegs fun g => g.wrSem 3 2) = .next t :=
  ⟨_, (h (w.withRegs fun g => g.wrSem 3 2) 5 3 2 0 rfl (untraced_withRegs _) rfl rfl).1 (by decide) _ rfl⟩
theorem witness_semWaitLate (h : SemWaitExaminesItsCount) : ∃ t, exec (.semWait 5 3 2 0) w = .next t :=
  ⟨_, (h w 5 3 2 0 rfl untraced_w rfl rfl).2.1 (by decide) rfl _ rfl⟩
theorem witness_semWaitWaits (h : SemWaitExaminesItsCount) : ∃ t, exec (.semWait 5 3 2 0xFFFFFFFF) w = .next t :=
  ⟨_, (h w 5 3 2 0xFFFFFFFF rfl untraced_w rfl rfl).2.2 (by decide) (by decide)⟩
/-- A timed wait in progress. -/
def timing (t : Timed) : State := withTimed w (some t)
theorem untraced_timing (t : Timed) : (timing t).Untraced := untraced_w
theorem witness_waitaSatisfied (h : TimedWaitsEnd) : ∃ t, exec .waitaSatisfied (timing (.word none 0 5 0x10000 .eq 0)) = .next t :=
  ⟨_, (h.1 (timing (.word none 0 5 0x10000 .eq 0)) _ 0 none 0 5 0x10000 0 .eq (untraced_timing _) rfl rfl rfl).1 rfl rfl⟩
theorem witness_waitaTimeout (h : TimedWaitsEnd) : ∃ t, exec .waitaTimeout (timing (.word (some 0) 0 5 0x10000 .ne 0)) = .next t :=
  ⟨_, (h.1 (timing (.word (some 0) 0 5 0x10000 .ne 0)) _ 0 (some 0) 0 5 0x10000 0 .ne (untraced_timing _) rfl rfl rfl).2
    (show ¬ (_ ≠ _) by decide) rfl rfl⟩
theorem witness_semWaitSatisfied (h : TimedWaitsEnd) :
    ∃ t, exec .semWaitSatisfied ((timing (.sem none 0 5 3 2)).withRegs fun g => g.wrSem 3 2) = .next t :=
  ⟨_, (h.2 ((timing (.sem none 0 5 3 2)).withRegs fun g => g.wrSem 3 2) _ 0 none 0 5 3 2 untraced_w rfl rfl rfl).1 (by decide) rfl⟩
theorem witness_semWaitTimeout (h : TimedWaitsEnd) : ∃ t, exec .semWaitTimeout (timing (.sem (some 0) 0 5 3 2)) = .next t :=
  ⟨_, (h.2 (timing (.sem (some 0) 0 5 3 2)) _ 0 (some 0) 0 5 3 2 (untraced_timing _) rfl rfl rfl).2 (by decide) rfl rfl⟩

theorem witness_examineHolds (h : TimedWaitsAreExaminedInEveryStep) :
    (((timing (.word none 0 5 0x10000 .eq 0)).examine 1 (timing (.word none 0 5 0x10000 .eq 0)).cur).flow.ended.map (·.ok)) = some true :=
  (h (timing (.word none 0 5 0x10000 .eq 0)) _ _ 1 (untraced_timing _) rfl rfl rfl (by decide)).1 rfl
theorem witness_examineEnds (h : TimedWaitsAreExaminedInEveryStep) :
    ((timing (.sem (some 4) 0 5 3 2)).examine 5 (timing (.sem (some 4) 0 5 3 2)).cur).regs = w.cur.regs :=
  ((h (timing (.sem (some 4) 0 5 3 2)) (timing (.sem (some 4) 0 5 3 2)).cur _ 5 (untraced_timing _) rfl rfl rfl (by decide)).2.2.1 rfl
    (by decide) 4 rfl (by decide)).2
theorem witness_examineGoesOn (h : TimedWaitsAreExaminedInEveryStep) :
    (timing (.sem (some 5) 0 5 3 2)).examine 5 (timing (.sem (some 5) 0 5 3 2)).cur = (timing (.sem (some 5) 0 5 3 2)).cur :=
  (h (timing (.sem (some 5) 0 5 3 2)) (timing (.sem (some 5) 0 5 3 2)).cur _ 5 (untraced_timing _) rfl rfl rfl (by decide)).2.2.2 rfl
    fun l hl => by cases hl; decide
/-- A timed wait whose context is halted, while another task of it stands at its debug stop. -/
def timingHalted (t : Timed) : State :=
  { timing t with
    ctxs := [{ fetchCtx 1 with halted := true }]
    others := [{ fetchTask 1 7 with status := .suspended, flow := { line := 0x40, stop := some { reason := 4 } } }] }
theorem witness_examineStands (h : TimedWaitsAreExaminedInEveryStep) :
    (timingHalted (.sem (some 3) 0 5 3 2)).examine 5 (timing (.sem (some 3) 0 5 3 2)).cur = (timing (.sem (some 3) 0 5 3 2)).cur :=
  (h (timingHalted (.sem (some 3) 0 5 3 2)) (timing (.sem (some 3) 0 5 3 2)).cur _ 5 (untraced_of rfl rfl) rfl rfl rfl (by decide)).2.1 rfl (by decide) (by decide)

theorem witness_ifsync (h : IfsyncDiscardsItsLines) : ∃ t, exec (.ifsync 6 7) (wr2 6 0x20000 7 0x100001) = .next t :=
  let ⟨_, e, _⟩ := h (wr2 6 0x20000 7 0x100001) _ 6 7 _ _ 0 rfl rfl rfl
  ⟨_, e⟩
theorem quiet_withRegs (f : Regs → Regs) : Quiet117 (w.withRegs f) := ⟨rfl, rfl, rfl, rfl, rfl, fun _ h => nomatch h⟩
theorem witness_rdsr (h : RdsrReadsTheNamedRegister) : ∃ t, exec (.rdsr 5 .rcbp) w = .next t :=
  ⟨_, h w _ 5 .rcbp 0 rfl rfl (fun _ => quiet_withRegs id) rfl⟩
theorem witness_wrsrPfd (h : SpecialRegistersAreWritten) : ∃ t, exec (.wrsr .pfd 6) (wr 6 1048512) = .next t :=
  ⟨_, h.1 (wr 6 1048512) _ 6 _ rfl rfl (by decide) rfl⟩
theorem witness_wrsrFpst (h : SpecialRegistersAreWritten) : ∃ t, exec (.wrsr .fpst 6) (wr 6 31) = .next t :=
  ⟨_, h.2.1 (wr 6 31) _ 6 _ rfl (quiet_withRegs _) rfl (by decide)⟩
theorem witness_wrsrRng (h : SpecialRegistersAreWritten) : ∃ t, exec (.wrsr .rng 6) (wr 6 31) = .next t :=
  ⟨_, h.2.2.1 (wr 6 31) _ 6 _ rfl (quiet_withRegs _) rfl⟩
theorem witness_wrsrReserved (h : SpecialRegistersAreWritten) : ∃ t, exec (.wrsr .fpst 6) (wr 6 32) = .next t :=
  ⟨_, h.2.2.2.1 (wr 6 32) _ 6 _ rfl (drained_withRegs _) rfl (by decide)⟩
theorem witness_pfd (h : SpecialRegistersAreWritten) : ∃ t, exec (.pfd 6) (wr 6 (-1)) = .next t :=
  ⟨_, h.2.2.2.2.1 (wr 6 (-1)) _ 6 _ rfl rfl⟩
theorem witness_rngseed (h : SpecialRegistersAreWritten) : ∃ t, exec (.rngseed 6) (wr 6 9) = .next t :=
  ⟨_, h.2.2.2.2.2 (wr 6 9) _ 6 _ rfl (quiet_withRegs _) rfl⟩
theorem witness_rdtime (h : RdtimeWritesContextTime) : ∃ t, exec (.rdtime 5) w = .next t :=
  ⟨_, h w _ 5 _ rfl untraced_w rfl rfl⟩

/-- The acting task's template table lies at 0x30000 and holds template 3, valid. -/
def wTpl (xs : List (Nat × Nat × Nat) := []) : State :=
  mem (w.withTask fun t => { t with pool := { t.pool with ttbl := 0x30000 } })
    ([(0x230060, 8, 0x20000), (0x230068, 1, 1), (0x23006A, 2, 1)] ++ xs)
theorem witness_spawnAborting (h : Obligations.SpawnPlacesATask) : ∃ t, exec (.spawn 5 6 7 8 3) (wTpl [(0x21000B, 1, 1)]) = .next t :=
  ⟨_, (h (wTpl [(0x21000B, 1, 1)]) _ _ _ 5 6 7 8 3 _ _ _ 0x20000 0 1 rfl ⟨rfl, rfl, rfl⟩ rfl rfl rfl (by decide +kernel)).1
    (by decide +kernel) _ rfl⟩
theorem witness_spawnSpent (h : Obligations.SpawnPlacesATask) :
    ∃ t, exec (.spawn 5 6 7 8 3) (wTpl [(0x210010, 8, 5), (0x210060, 8, 5)]) = .next t :=
  ⟨_, (h (wTpl [(0x210010, 8, 5), (0x210060, 8, 5)]) _ _ _ 5 6 7 8 3 _ _ _ 0x20000 0 1 rfl ⟨rfl, rfl, rfl⟩ rfl rfl rfl
    (by decide +kernel)).2.1 (by decide +kernel) (by decide +kernel) _ rfl⟩
theorem witness_spawn (h : Obligations.SpawnPlacesATask) : ∃ t, exec (.spawn 5 6 7 8 3) wTpl = .next t :=
  let ⟨_, _, e, _⟩ := (h wTpl _ _ _ 5 6 7 8 3 _ _ _ 0x20000 0 1 rfl ⟨rfl, rfl, rfl⟩ rfl rfl rfl (by decide +kernel)).2.2.2 1
    (by decide +kernel) (by decide +kernel) (by decide +kernel) (by decide +kernel) _ rfl
  ⟨_, e⟩
/-- The pool of die 0 is full. -/
def wFull : State := { wTpl with others := (List.range 4096).map fun i => { status := .ready, pool := { index := i } } }
theorem full_of (s : State) (l : List Task) (hs : s.cur.status ≠ .idle) (hl : ∀ i < 4096, ∃ t ∈ l, t.pool.die.toNat = 0 ∧ t.pool.index = i) :
    { s with others := l }.freeIndex 0 = none := by
  unfold State.freeIndex
  rw [List.find?_eq_none]
  intro i _ hi
  simp only [Bool.and_eq_true, decide_eq_true_eq, Bool.not_eq_eq_eq_not, Bool.not_true, List.contains_eq_mem,
    decide_eq_false_iff_not] at hi
  obtain ⟨t, ht, hd, rfl⟩ := hl i hi.1
  refine hi.2 (List.mem_map.2 ⟨t, List.mem_filter.2 ⟨?_, beq_iff_eq.2 hd⟩, rfl⟩)
  rw [State.tasks, if_neg hs]
  exact List.mem_cons_of_mem _ ht
theorem all_of (n : Nat) : ∀ i < n, ∃ t ∈ (List.range n).map fun i => ({ status := .ready, pool := { index := i } } : Task),
    t.pool.die.toNat = 0 ∧ t.pool.index = i :=
  fun i hi => ⟨_, List.mem_map.2 ⟨i, List.mem_range.2 hi, rfl⟩, rfl, rfl⟩
theorem wFull_full : wFull.freeIndex 0 = none := by
  rw [wFull]
  exact full_of _ _ (by decide) (all_of 4096)
theorem witness_spawnFull (h : Obligations.SpawnPlacesATask) : ∃ t, exec (.spawn 5 6 7 8 3) wFull = .next t :=
  ⟨_, (h wFull _ _ _ 5 6 7 8 3 _ _ _ 0x20000 0 1 rfl ⟨rfl, rfl, rfl⟩ rfl rfl rfl (by decide +kernel)).2.2.1
    (by decide +kernel) (by decide +kernel) (.inr wFull_full) _ rfl⟩

theorem wFull_room : wFull.spawnRoom wFull.cur.pool.die = false := by decide +kernel
theorem witness_spawnNoRoom (h : Obligations.SpawnPlacesATask) : ∃ t, exec (.spawn 5 6 7 8 3) wFull = .next t :=
  ⟨_, (h wFull _ _ _ 5 6 7 8 3 _ _ _ 0x20000 0 1 rfl ⟨rfl, rfl, rfl⟩ rfl rfl rfl (by decide +kernel)).2.2.1
    (by decide +kernel) (by decide +kernel) (.inl wFull_room) _ rfl⟩

/-- The context of w changed. -/
def wCtx (f : Ctx → Ctx) : State := { w with ctxs := [f (fetchCtx 1)] }
theorem drained_ctx (f : Ctx → Ctx) : (wCtx f).Drained := drained_w
theorem witness_brkStop (h : BrkStopsOrRaisesBreak) : ∃ t, exec (.brk 0xFFF) (wCtx fun c => { c with attached := true }) = .next t :=
  let ⟨_, _, e, _⟩ := (h.1 (wCtx fun c => { c with attached := true }) 0 _ 0xFFF rfl rfl rfl rfl rfl).1 rfl
  ⟨_, e⟩
/-- An entry that has begun and not performed. -/
def wBegun : State :=
  { (wCtx fun c => { c with attached := true }) with cur := w.cur.setQueue .atm [{ entry .atm .afence with taken := true }] }
theorem witness_brkWaits (h : BrkStopsOrRaisesBreak) : ∃ t, exec (.brk 0xFFF) wBegun = .next t :=
  let ⟨_, _, e, _⟩ := (h.1 wBegun 0 _ 0xFFF rfl rfl rfl rfl rfl).2 rfl
  ⟨_, e⟩
theorem witness_brkRaise (h : BrkStopsOrRaisesBreak) : ∃ t, exec (.brk 0) w = .next t :=
  let ⟨_, _, _, _, e⟩ := h.2 w _ 0 rfl rfl drained_w
  ⟨_, e⟩
theorem witness_resumePriv (h : ResumeIsPrivileged) : ∃ t, exec (.resume 6) w = .next t := ⟨_, h.1 w _ 6 rfl rfl drained_w⟩
/-- A suspended task of another context. -/
def sleeper : Task := { fetchTask 1 7 with status := .suspended, flow := { line := 0x40, stop := some {} } }
/-- A privileged context with a page that holds the backing of task 7. -/
def wPriv : State :=
  mem { wCtx (fun c => { c with privileged := true }) with
        others := [sleeper], cur := { w.cur with regs := w.cur.regs.wr 6 (BitVec.ofNat 64 (sleeper.backing % 2 ^ 21)) } }
    [(0x4000, 8, sleeper.backing / 2 ^ 21 * 2 ^ 33 + 0x47)]
theorem witness_resume (h : ResumeIsPrivileged) : ∃ t, exec (.resume 6) wPriv = .next t :=
  let ⟨_, _, e, _⟩ := (h.2 wPriv _ _ 6 _ (BitVec.ofNat 64 (sleeper.backing / 2 ^ 21 * 2 ^ 33 + 0x47)) 0x4000 0 rfl rfl rfl rfl rfl
    (by decide +kernel)).1 sleeper (by decide) rfl rfl (by decide +kernel) (fun _ h _ _ _ => List.mem_singleton.1 h) (by decide)
  ⟨_, e⟩
/-- A page that holds no task's backing. -/
def wPrivNone : State :=
  { wCtx (fun c => { c with privileged := true }) with cur := { w.cur with regs := w.cur.regs.wr 6 0x40000 } }
theorem witness_resumeNone (h : ResumeIsPrivileged) : ∃ t, exec (.resume 6) wPrivNone = .next t :=
  ⟨_, (h.2 wPrivNone _ _ 6 _ fetchLeaf 0x4000 0 rfl rfl rfl rfl rfl (by decide +kernel)).2 (fun _ h => nomatch h)⟩
theorem witness_yieldAlone (h : YieldHandsOverToAnEqual) : ∃ t, exec .yield w = .next t :=
  ⟨_, h.1 w 0 rfl (fun _ h => nomatch h)⟩
/-- A Ready task of the die of w, index 7. -/
def readyTask : Task := { fetchTask 1 7 with status := .ready }
theorem witness_yield (h : YieldHandsOverToAnEqual) : ∃ t, exec .yield { w with others := [readyTask] } = .next t :=
  let ⟨_, _, e, _⟩ := (h.2 { w with others := [readyTask] } 0 readyTask rfl (by decide +kernel) (by decide) (by decide)).2 rfl
  ⟨_, e⟩
/-- The machine of wBegun with a Ready task. -/
def wBegunBoth : State := { w with cur := wBegun.cur, others := [readyTask] }
theorem witness_yieldWaits (h : YieldHandsOverToAnEqual) : exec .yield wBegunBoth = .next wBegunBoth :=
  (h.2 wBegunBoth 0 readyTask rfl (by decide +kernel) (by decide) (by decide)).1 rfl

/-- A task of an origin, with a node. -/
def wNode (o : BitVec 2) (n : BitVec 32) (va : Word) : State :=
  w.withTask fun t => { t with pool := { t.pool with origin := o, node := n, nodeVa := va } }
theorem drained_node (o : BitVec 2) (n : BitVec 32) (va : Word) : (wNode o n va).Drained := drained_w
theorem unbound_of {s : State} (h : s.cur.regs.k = .replicate 8 none) : Unbound s := fun i => by rw [h]; revert i; decide
theorem witness_done (h : DoneEndsATaskWithoutANode) : ∃ t, exec .done (wNode 2 0xFFFFFFFF 0) = .next t :=
  let ⟨_, e, _⟩ := h (wNode 2 0xFFFFFFFF 0) 0 rfl (by decide) (by decide) rfl (drained_node _ _ _) (unbound_of rfl) rfl (fun _ h => nomatch h)
  ⟨_, e⟩
/-- The faulting task of a handler. -/
def faulted : Task := { sleeper with flow := { line := 0x40, stop := some { reason := 3 } } }
/-- A handler whose record at 0x30000 says that its task goes on. -/
def wHandler : State :=
  mem { wNode 3 0xFFFFFFFF 0 with
        others := [faulted], cur := { (wNode 3 0xFFFFFFFF 0).cur with handles := some faulted.tid, recordVa := 0x30000 } } [(0x230002, 1, 1)]
theorem witness_doneHandler (h : DoneOfAHandlerReadiesItsTask) : ∃ t, exec .done wHandler = .next t :=
  let ⟨_, _, e, _⟩ := h wHandler 0 faulted { reason := 3 } rfl rfl rfl (drained_of rfl rfl) ⟨unbound_of rfl, rfl, rfl, rfl⟩
    (by decide +kernel) rfl (by decide +kernel) rfl rfl rfl (by decide +kernel) (by decide +kernel)
  ⟨_, e⟩

/-- The leaf of w, marked accessed and dirty. -/
def usedLeaf : Word := fetchLeaf ||| 0x18
/-- The machine with another leaf for its page. -/
def wl (l : Word) : State := { w with hbm := Mem.setNum w.hbm 0x4000 8 l.toNat }
theorem memoryWf_wl (l : Word) : (wl l).MemoryWf := ⟨wf_setNum _ _ _ _ memoryWf_w.1, rfl, rfl, rfl, rfl, rfl, fun _ h => nomatch h⟩
theorem paged_wl (l : Word) (h : leafV l = true ∧ leafSz l = 2 ∧ leafOk 1 l = true) (hn : Mem.num (wl l).hbm 0x4000 8 = l.toNat) : PagedBy l (wl l) := by
  have r : ∀ j, (j < 0x4000 ∨ 0x4008 ≤ j) → Mem.read (wl l).hbm j = Mem.read w.hbm j := fun j hj => by
    unfold wl Mem.setNum
    rw [read_writeN _ _ _ _ memoryWf_w.1, leBytes_length, if_neg (by omega)]
  exact ⟨⟨_, rfl, rfl⟩, (memoryWf_wl l).1, h, hn, fun j _ b => r j (.inl b), fun j a _ => r j (.inr a)⟩
/-- The machine whose one page is marked accessed and dirty. -/
def wd : State := wl usedLeaf
theorem memoryWf_wd : wd.MemoryWf := memoryWf_wl _
theorem paged_wd : PagedBy usedLeaf wd := paged_wl _ ⟨by decide, by decide, by decide⟩ (by decide +kernel)
theorem leNat_lt : ∀ l : List Byte, leNat l < 256 ^ l.length
  | [] => by decide
  | b :: r => by have := leNat_lt r; have := b.isLt; rw [leNat, List.length_cons, pow_succ]; omega
theorem num_ofNat {m : Mem} {a : Nat} {e : Word} (h : BitVec.ofNat 64 (Mem.num m a 8) = e) : Mem.num m a 8 = e.toNat := by
  have : Mem.num m a 8 < 256 ^ 8 := by simpa [Mem.num, Mem.readN] using leNat_lt (Mem.readN m a 8)
  rw [← h, BitVec.toNat_ofNat, Nat.mod_eq_of_lt (by simpa using this)]
/-- A walk of w is the same once A or A and D are set in its leaf. -/
theorem Paged.walks {s : State} (h : Paged s) {lo len : Nat} (hl : 0x5000 ≤ lo) {va : Word} (hv : va.toNat < 2 ^ 21) :
    Walks s 1 va fetchLeaf 0x4000 lo len := by
  refine ⟨h.lookup hv, by rw [h.2.2.2.1]; rfl, fun c m e hc he hn hm => ?_⟩
  obtain ⟨⟨c', hc', hr⟩, -, ht⟩ := h
  cases hc.symm.trans hc'
  rw [hr]
  refine walk_low ⟨?_, num_ofNat hn, fun j a b => (hm j (.inl (by omega)) (.inl (by omega))).trans (ht.2.2.1 j a b),
    fun j a b => (hm j (.inl (by omega)) (.inr (by omega))).trans (ht.2.2.2 j a b)⟩ hv
  obtain rfl | rfl | rfl := he <;> exact ⟨by decide, by decide, by decide⟩

/-- A node whose record lies at 0x30000, with INITDC 3 and two successors listed at 0x30100, the first of index 1. -/
def graphCells : List (Nat × Nat × Nat) := [(0x230004, 4, 3), (0x230010, 8, 0x30100), (0x230018, 4, 2), (0x230100, 4, 1), (0x230048, 8, 2)]
def wGraph : State := mem (wNode 0 0 0x30000) graphCells
theorem paged_graph : Paged wGraph := PagedBy.mem (s := wNode 0 0 0x30000) paged_w _ rfl
theorem graph_node (off : Word) (ho : off.toNat < 64) : ((0x30000 : Word) + off).toNat < 2 ^ 21 :=
  mem_add (n := 64) (a := 0x30000 + 64) (le_of_eq rfl) ho (by decide)
theorem nodeAt_graph : NodeAt wGraph fetchLeaf 0x230000 :=
  ⟨by decide +kernel, by decide +kernel, by decide +kernel, by decide +kernel, by decide +kernel, fun off ho => paged_graph.maps (graph_node off ho)⟩
theorem memoryWf_graph : wGraph.MemoryWf := memoryWf_mem (s := wNode 0 0 0x30000) memoryWf_w _
theorem witness_doneNode (h : DoneOfANodeRestoresItsCounter) : ∃ t, exec .done wGraph = .next t :=
  let ⟨_, e, _⟩ := h wGraph 0 fetchLeaf 0x230000 0x4000 memoryWf_graph rfl rfl (by decide) rfl (drained_of rfl rfl) ⟨unbound_of rfl, rfl, rfl, rfl⟩ rfl rfl
    nodeAt_graph (by decide +kernel) (.inl (by decide)) (fun off ho => paged_graph.walks (by decide) (graph_node off ho))
  ⟨_, e⟩
/-- The node of wGraph counts its successors down. -/
def counting : State := { wd with cur := { (wNode 0 0 0x30000).cur with flow := { w.cur.flow with finishing := some 0 } } }
def wCounting : State := mem counting graphCells
theorem paged_counting : PagedBy usedLeaf wCounting := PagedBy.mem (s := counting) paged_wd _ rfl
theorem memoryWf_counting : wCounting.MemoryWf := memoryWf_mem (s := counting) memoryWf_wd _
theorem nodeAt_counting : NodeAt wCounting usedLeaf 0x230000 :=
  ⟨by decide +kernel, by decide +kernel, by decide +kernel, by decide +kernel, by decide +kernel, fun off ho => paged_counting.maps (graph_node off ho)⟩
theorem witness_doneDecrement (h : DecrementsOfDoneTakeOne) : ∃ t, exec .doneSuccessorDecrement wCounting = .next t :=
  let ⟨_, e, _⟩ := h wCounting 0 0 1 0 usedLeaf usedLeaf usedLeaf 0x30100 0x30048 0x230000 0x230100 0x230048 rfl
    memoryWf_counting (clear_of rfl rfl rfl ⟨rfl, rfl, rfl, rfl, rfl, rfl⟩) rfl rfl (by decide) rfl nodeAt_counting (by decide +kernel) (by decide +kernel)
    (paged_counting.maps (by decide)) (by decide +kernel) (by decide +kernel) (by decide +kernel) (paged_counting.maps (by decide))
    (by decide +kernel) (by decide +kernel) (by decide +kernel) (by decide +kernel) (by decide +kernel) (by decide +kernel)
    (by decide) (by decide) (by decide) (by decide) (.inl (by decide)) (fun _ _ => paged_counting.apart (by decide))
  ⟨_, e⟩

theorem witness_trapRaises (h : Obligations.TrapServicesAnswer) : ∃ t, exec (.trap 5 6 1) w = .next t :=
  let ⟨_, _, _, _, e⟩ := h.2.1 w 5 6 1 rfl drained_w (.inl (by decide))
  ⟨_, e⟩
/-- A handler with the argument block of a service at 0x30000. -/
def wService (va arg : Nat) (o : List Task := []) : State :=
  mem { wNode 3 0xFFFFFFFF 0 with others := o, cur := { (wNode 3 0xFFFFFFFF 0).cur with regs := w.cur.regs.wr 6 0x30000 } } [(0x230000, 8, va), (0x230008, 8, arg)]
theorem witness_trapMap (h : Obligations.TrapServicesAnswer) : ∃ t, exec (.trap 5 6 1) (wService 0x40000 1) = .next t :=
  let ⟨_, e, _⟩ := h.2.2.1 (wService 0x40000 1) _ _ 5 6 1 0x30000 0x40000 fetchLeaf 0x4000 0 (leBytes 8 0x40000 ++ leBytes 8 1) rfl
    (drained_of rfl rfl) (untraced_of rfl rfl) rfl rfl (by decide +kernel) (by decide +kernel) (by decide +kernel) (.inl ⟨rfl, by decide, by decide +kernel, rfl⟩) rfl
  ⟨_, e⟩
theorem witness_trapBadArg (h : Obligations.TrapServicesAnswer) : ∃ t, exec (.trap 5 6 4) (wService 0x40000 1) = .next t :=
  let ⟨_, e, _⟩ := h.2.2.1 (wService 0x40000 1) _ _ 5 6 4 0x30000 0x40000 fetchLeaf 0x4000 2 (leBytes 8 0x40000 ++ leBytes 8 1) rfl
    (drained_of rfl rfl) (untraced_of rfl rfl) rfl rfl (by decide +kernel) (by decide +kernel) (by decide +kernel)
    (.inr (.inr (.inr (.inr (.inr ⟨.inr rfl, by decide, rfl⟩))))) rfl
  ⟨_, e⟩
theorem witness_trapBadBlock (h : Obligations.TrapServicesAnswer) :
    ∃ t, exec (.trap 5 6 4) { wNode 3 0xFFFFFFFF 0 with cur := { (wNode 3 0xFFFFFFFF 0).cur with regs := w.cur.regs.wr 6 0x30004 } } = .next t :=
  let ⟨_, e, _⟩ := h.2.2.2.1 { wNode 3 0xFFFFFFFF 0 with cur := { (wNode 3 0xFFFFFFFF 0).cur with regs := w.cur.regs.wr 6 0x30004 } } _ _ 5 6 4 0x30004
    rfl (drained_of rfl rfl) (untraced_of rfl rfl) rfl (by decide) (by decide) rfl (.inl (by decide)) rfl
  ⟨_, e⟩
theorem witness_trapMapWaits (h : Obligations.TrapServicesAnswer) : ∃ t, exec (.trap 5 6 1) (wService 0x200000 0) = .next t :=
  let ⟨_, _, e, _⟩ := h.2.2.2.2 (wService 0x200000 0) _ _ 5 6 0x30000 0x200000 0x10 _ (leBytes 8 0x200000 ++ leBytes 8 0) rfl
    (drained_of rfl rfl) (untraced_of rfl rfl) rfl rfl (by decide +kernel) (by decide +kernel) (by decide +kernel) (by decide +kernel) (by decide +kernel) (by decide +kernel) rfl rfl (by decide +kernel)
    (by decide +kernel)
  ⟨_, e⟩

/-- A handler calls a service for a page at 0x200000, beside other tasks. -/
def wLeafService (l : Word) (arg : Nat) (o : List Task := []) : State :=
  mem (wService 0x200000 arg o) [(0x4008, 8, l.toNat)]
/-- The leaf of a page of chip 5. -/
def peerLeaf : Word := 0x01400000000000C7
theorem calls_of (l : Word) (svc : BitVec 12) (arg : Nat) (o : List Task) (ho : ∀ t ∈ o, Memory.wf t.scratch = true)
    (hr : (wLeafService l arg o).readPresent 1 0x30000 16 = some (leBytes 8 0x200000 ++ leBytes 8 arg))
    (hn : leNat ((leBytes 8 0x200000 ++ leBytes 8 arg).drop 8) = arg)
    (hl : (wLeafService l arg o).lookup 1 0x200000 = .ok (l, 0x4008)) :
    Calls (wLeafService l arg o) (wLeafService l arg o) 5 6 svc 0x200000 l 0x4008 arg := by
  have wf : (wLeafService l arg o).MemoryWf := memoryWf_mem (memoryWf_mem (s := { wNode 3 0xFFFFFFFF 0 with
      others := o, cur := { (wNode 3 0xFFFFFFFF 0).cur with regs := w.cur.regs.wr 6 0x30000 } })
    ⟨memoryWf_w.1, rfl, rfl, rfl, rfl, rfl, ho⟩ _) _
  have tk : (wLeafService l arg o).take 6 = some (0x30000, wLeafService l arg o) := rfl
  have gv : ((wLeafService l arg o).give 5 0).isSome = true := rfl
  have bk : (0x30000 : Word).toNat % 8 = 0 := by decide
  have vb : (0x200000 : Word) = BitVec.ofNat 64 (leNat ((leBytes 8 0x200000 ++ leBytes 8 arg).take 8)) := by
    rw [List.take_left' (leBytes_length 8 _)]
    decide
  exact ⟨rfl, drained_of rfl rfl, untraced_of rfl rfl, wf, rfl, rfl, rfl, rfl, ⟨_, rfl⟩, gv, 0x30000, _, tk, bk, hr, vb, hn, hl⟩
theorem calls_peer (svc : BitVec 12) : Calls (wLeafService peerLeaf 0) (wLeafService peerLeaf 0) 5 6 svc 0x200000 peerLeaf 0x4008 0 :=
  calls_of peerLeaf svc 0 [] (fun _ h => nomatch h) (by decide +kernel) (by decide +kernel) (by decide +kernel)
theorem witness_pin (h : Obligations.TrapServicesAnswer) : ∃ t, exec (.trap 5 6 3) (wLeafService fetchLeaf 0) = .next t :=
  let ⟨_, e, _⟩ := (h.1.1 (wLeafService fetchLeaf 0) _ _ 5 6 0x200000 fetchLeaf 0x4008
    (calls_of fetchLeaf 3 0 [] (fun _ h => nomatch h) (by decide +kernel) (by decide +kernel) (by decide +kernel)) (by decide) (by decide) (by decide)).1
    (by decide +kernel) rfl
  ⟨_, e⟩
/-- A task whose entry holds the page of the service. -/
def holder7 : Task := (fetchTask 1 7).setQueue .ldq [entry .ldq (.vld 1 0 none 0 0) [] (some ⟨.valid fetchLeaf, 0x200000, false, false, 0⟩)]
theorem witness_pinWaits (h : Obligations.TrapServicesAnswer) : ∃ t, exec (.trap 5 6 3) (wLeafService fetchLeaf 0 [holder7]) = .next t :=
  let ⟨_, e, _⟩ := (h.1.1 (wLeafService fetchLeaf 0 [holder7]) _ (wLeafService fetchLeaf 0 [holder7]) 5 6 0x200000 fetchLeaf 0x4008
    (calls_of fetchLeaf 3 0 [holder7] (by simp [holder7, fetchTask, Task.setQueue]; decide) (by decide +kernel) (by decide +kernel) (by decide +kernel)) (by decide) (by decide) (by decide)).2
    (by decide +kernel)
  ⟨_, e⟩
theorem witness_grantRap (h : Obligations.TrapServicesAnswer) : ∃ t, exec (.trap 5 6 4) (wLeafService peerLeaf 0) = .next t := by
  have c := h.1.2.1 (wLeafService peerLeaf 0) _ ((wLeafService peerLeaf 0).withRegs fun g => g.wr 5 0) 5 6 0x200000 peerLeaf 0x4008
    (calls_peer 4) (by decide) (by decide +kernel)
  have d := h.1.2.1 (wLeafService peerLeaf 0) _ ((wLeafService peerLeaf 0).withRegs fun g => g.wr 5 3) 5 6 0x200000 peerLeaf 0x4008
    (calls_peer 4) (by decide) (by decide +kernel)
  by_cases a : (Config.freeWord (wLeafService peerLeaf 0).free).getLsbD 0 = true
  · exact let ⟨_, e, _⟩ := c.1 a rfl; ⟨_, e⟩
  · exact let ⟨_, e, _⟩ := d.2 a rfl; ⟨_, e⟩
/-- A handler asks for a page of chip 5 on another chip. -/
theorem witness_migrateBad (h : Obligations.TrapServicesAnswer) : ∃ t, exec (.trap 5 6 2) (wLeafService peerLeaf 0x400) = .next t :=
  let ⟨_, e, _⟩ := (h.1.2.2 (wLeafService peerLeaf 0x400) _ 5 6 0x200000 peerLeaf 0x4008 0x400
    (calls_of peerLeaf 2 0x400 [] (fun _ h => nomatch h) (by decide +kernel) (by decide +kernel) (by decide +kernel))).1 _ 2
    (.inl ⟨.inl (by decide), rfl⟩) rfl
  ⟨_, e⟩
theorem witness_migrateThere (h : Obligations.TrapServicesAnswer) : ∃ t, exec (.trap 5 6 2) (wLeafService peerLeaf 5) = .next t :=
  let ⟨_, e, _⟩ := (h.1.2.2 (wLeafService peerLeaf 5) _ 5 6 0x200000 peerLeaf 0x4008 5
    (calls_of peerLeaf 2 5 [] (fun _ h => nomatch h) (by decide +kernel) (by decide +kernel) (by decide +kernel))).1 _ 0
    (.inr (.inl ⟨.inr (by decide), by decide +kernel, rfl⟩)) rfl
  ⟨_, e⟩
theorem witness_migratePinned (h : Obligations.TrapServicesAnswer) :
    ∃ t, exec (.trap 5 6 2) (wLeafService (peerLeaf ||| 0x2000) 6) = .next t :=
  let ⟨_, e, _⟩ := (h.1.2.2 (wLeafService (peerLeaf ||| 0x2000) 6) _ 5 6 0x200000 (peerLeaf ||| 0x2000) 0x4008 6
    (calls_of (peerLeaf ||| 0x2000) 2 6 [] (fun _ h => nomatch h) (by decide +kernel) (by decide +kernel) (by decide +kernel))).1 _ 1
    (.inr (.inr ⟨.inr (by decide), by decide +kernel, by decide +kernel, .inl (by decide), rfl⟩)) rfl
  ⟨_, e⟩
theorem witness_migrate (h : Obligations.TrapServicesAnswer) : ∃ t, exec (.trap 5 6 2) (wLeafService peerLeaf 6) = .next t :=
  let ⟨_, _, e, _⟩ := (h.1.2.2 (wLeafService peerLeaf 6) _ 5 6 0x200000 peerLeaf 0x4008 6
    (calls_of peerLeaf 2 6 [] (fun _ h => nomatch h) (by decide +kernel) (by decide +kernel) (by decide +kernel))).2 (.inr (by decide))
    (by decide +kernel) (by decide +kernel) (by decide) (by decide +kernel) (by decide +kernel) (by decide +kernel) (by decide +kernel)
    (by decide +kernel)
  ⟨_, e⟩

theorem witness_owlPlace (h : Obligations.OwlPlacesAndMakesRoom) : ∃ t, exec (.owlPlace 0) { w with others := [readyTask] } = .next t :=
  let ⟨_, _, e, _⟩ := h.1 { w with others := [readyTask] } 0 readyTask 1 (by decide +kernel) (by decide +kernel) (by decide +kernel) (by decide)
    (.inr (by decide)) (by decide)
  ⟨_, e⟩

/-- A Ready task of priority 5, behind 48 staged tasks of a second RCB and the running task of a third. -/
def hopeful : Task := { readyTask with pool := { readyTask.pool with rcb := 0x10100 } }

def crowd (own staged : Word) : State :=
  mem { w with
        cur := { w.cur with pool := { w.cur.pool with rcb := own }, sys := { w.cur.sys with slot := 2 ^ 24 } }
        others := hopeful :: (List.range 48).map fun i =>
          { fetchTask 1 (i + 8) with status := .staged i, pool := { (fetchTask 1 (i + 8)).pool with rcb := staged } } }
    [(0x21000A, 1, 3), (0x21000C, 2, 100), (0x210100, 8, 0x10000), (0x210108, 2, 3), (0x21010A, 1, 5), (0x21010C, 2, 100)]
theorem witness_owlUnstage (h : Obligations.OwlPlacesAndMakesRoom) : ∃ t, exec (.owlUnstage 0) (crowd 0x10000 0x10000) = .next t :=
  let ⟨_, _, _, _, e⟩ := h.2.1 (crowd 0x10000 0x10000) 0 hopeful (by decide +kernel) (by decide +kernel)
  ⟨_, e⟩
theorem witness_owlPreempt (h : Obligations.OwlPlacesAndMakesRoom) : ∃ t, exec (.owlPreempt 0) (crowd 0x10000 0x10100) = .next t :=
  let ⟨_, _, _, _, e⟩ := h.2.2.1 (crowd 0x10000 0x10100) 0 hopeful (by decide +kernel) (by decide +kernel) (by decide +kernel)
    (by decide +kernel)
  ⟨_, e⟩
theorem witness_timeslice (h : Obligations.OwlPlacesAndMakesRoom) : ∃ t, exec (.equalPriorityTimeslice 0) (crowd 0x10100 0x10100) = .next t :=
  let ⟨_, _, _, _, _, e⟩ := h.2.2.2 (crowd 0x10100 0x10100) 0 hopeful (by decide +kernel) (by decide +kernel) (.inr (by decide +kernel)) (by decide +kernel)
    (by decide +kernel)
  ⟨_, e⟩

theorem witness_stagedToRunning (h : TasksEnterAndLeaveTheirSlot) :
    ∃ t, exec (.stagedToRunning 0) (w.withTask fun t => { t with status := .staged 0 }) = .next t :=
  let ⟨_, e, _⟩ := h.1 (w.withTask fun t => { t with status := .staged 0 }) 0 rfl rfl rfl rfl
  ⟨_, e⟩
/-- The task of w, about to stop. -/
def wStopping (f : Flow → Flow) : State := w.withTask fun t => { t with flow := f t.flow }
theorem witness_preemptionCut (h : TasksEnterAndLeaveTheirSlot) :
    ∃ t, exec .preemptionCut (wStopping fun x => { x with preempt := some 7 }) = .next t :=
  let ⟨_, _, e, _⟩ := (h.2.1 (wStopping fun x => { x with preempt := some 7 }) 0 7 rfl rfl rfl).1 rfl rfl
  ⟨_, e⟩
theorem witness_preemptionWaits (h : TasksEnterAndLeaveTheirSlot) :
    exec .preemptionCut (wStopping fun x => { x with preempt := some 7, entered := true }) =
      .next (wStopping fun x => { x with preempt := some 7, entered := true }) :=
  (h.2.1 (wStopping fun x => { x with preempt := some 7, entered := true }) 0 7 rfl rfl rfl).2 (.inl rfl)
theorem witness_debugCut (h : TasksEnterAndLeaveTheirSlot) :
    ∃ t, exec .preemptionCut (wStopping fun x => { x with halt := some { reason := 4, dcause := 7 } }) = .next t :=
  let ⟨_, _, e, _⟩ := h.2.2 (wStopping fun x => { x with halt := some { reason := 4, dcause := 7 } }) 0 _ rfl rfl (by decide) rfl rfl
  ⟨_, e⟩

/-- The task of w with cycles to charge and a watchdog count. -/
def wCycles (k n : Nat) (xs : List (Nat × Nat × Nat)) : State :=
  mem (w.withSys fun y => { y with uncharged := k, wdog := n }) xs
theorem paged_cycles (k n : Nat) : Paged (wCycles k n []) := paged_w
theorem witness_charge (h : Obligations.SlotsAreCharged) : ∃ t, exec .cycusedUpdate (wCycles 7 0 []) = .next t :=
  let ⟨_, e, _⟩ := h.1 (wCycles 7 0 []) 0 0x10000 fetchLeaf 0x4000 0x210000 memoryWf_w rfl rfl (by decide) (by decide) (by decide +kernel)
    (fun off ho => (paged_cycles 7 0).lookup (mem_add (n := 256) (a := 0x10000 + 256) (le_of_eq rfl) ho (by decide)))
    (by decide) (by decide) (by decide)
  ⟨_, e⟩
theorem witness_budget (h : Obligations.SlotsAreCharged) : ∃ t, exec .budget (wCycles 0 0 [(0x210010, 8, 5), (0x210060, 8, 5)]) = .next t :=
  let ⟨_, _, _, _, e⟩ := h.2.1 (wCycles 0 0 [(0x210010, 8, 5), (0x210060, 8, 5)]) 0 0x10000 rfl rfl (by decide +kernel)
  ⟨_, e⟩
/-- A budget spent by a task that runs no longer. -/
def wOver : State := { w with cur := { w.cur with status := .ready }, overBudget := [(1, 0x10000, 0, 5)] }
theorem witness_budgetLeft (h : Obligations.SlotsAreCharged) : ∃ t, exec .budget wOver = .next t :=
  let ⟨_, _, _, _, e⟩ := h.2.2.1 wOver 1 0x10000 0 5 [] rfl rfl
  ⟨_, e⟩
theorem witness_wdog (h : Obligations.SlotsAreCharged) : ∃ t, exec .wdog (wCycles 0 1025 [(0x210018, 4, 1)]) = .next t :=
  let ⟨_, _, _, _, _, e⟩ := h.2.2.2 (wCycles 0 1025 [(0x210018, 4, 1)]) 0 rfl rfl (by decide +kernel) (by decide +kernel)
  ⟨_, e⟩

theorem witness_lineEntry (h : LinesAreEnteredThroughTheirHeader) : ∃ t, exec .lineEntry (mem w [(0x220000, 4, 0x10)]) = .next t :=
  let ⟨_, f, c, _⟩ := h (mem w [(0x220000, 4, 0x10)]) fetchLeaf 0x4000 0x220000 (memoryWf_mem memoryWf_w _) rfl rfl rfl rfl rfl rfl rfl rfl
    ((paged_w.mem _ rfl).lookup (by decide)) rfl rfl (by decide) (.inl (by decide))
  have e := f.resolve_right fun ⟨_, x, _⟩ => nomatch x
  let ⟨_, e, _⟩ := c (by rw [e]; decide +kernel)
  ⟨_, e⟩
theorem witness_lineIllegal (h : LinesAreEnteredThroughTheirHeader) : ∃ t, exec .lineEntry (mem w [(0x220000, 4, 0xE)]) = .next t :=
  let ⟨_, f, _, c⟩ := h (mem w [(0x220000, 4, 0xE)]) fetchLeaf 0x4000 0x220000 (memoryWf_mem memoryWf_w _) rfl rfl rfl rfl rfl rfl rfl rfl
    ((paged_w.mem _ rfl).lookup (by decide)) rfl rfl (by decide) (.inl (by decide))
  have e := f.resolve_right fun ⟨_, x, _⟩ => nomatch x
  ⟨_, c (by rw [e]; decide +kernel) (drained_of rfl rfl)⟩
/-- The core of w holds a copy of its line. -/
theorem witness_lineOlder (h : LinesAreEnteredThroughTheirHeader) :
    ∃ bs, LineFound { w with lineCache := [⟨0, 1, 0x1000, (0, 0x220000), List.replicate 32 0⟩] } 0x220000 bs :=
  let ⟨_, f, _⟩ := h { w with lineCache := [⟨0, 1, 0x1000, (0, 0x220000), List.replicate 32 0⟩] } fetchLeaf 0x4000 0x220000 memoryWf_w rfl rfl rfl rfl
    rfl rfl rfl rfl (paged_w.lookup (by decide)) rfl rfl (by decide) (.inl (by decide))
  ⟨_, f⟩
/-- The sequencer stands at an instruction whose lane 1 is given, of an engine. -/
def wLane (k : Stream) (n x : Nat) (s : State := w) : State :=
  s.withTask fun t => { t with flow := { t.flow with entered := true, lanes := tableLine k n x } }
theorem atLane_of {s : State} {i : Instr} {k : Stream} (h : Instr.stream i = some k ∧ k ≠ .seq ∧ i.portBad = false) (hr : s.cur.isRunning = true)
    (hf : (s.cur.flow.entered, s.cur.flow.timed, s.cur.flow.finishing) = (true, none, none)) (he : s.cur.laneEngine = k)
    (hc : s.ctx? s.cur.pool.ctx = some (fetchCtx 1)) (hd : decodeLane s.cur.flow.lanes s.cur.flow.lane = .ok i) : AtQueueLane s i k (fetchCtx 1) := by
  simp only [Prod.mk.injEq] at hf
  exact ⟨h.1, h.2.1, h.2.2, hr, hf.1, hf.2.1, hf.2.2, he, hc, rfl, hd⟩
theorem at_vbcast (s : State) (hs : s = w ∨ s = w.withTask fun t => t.setQueue .vec (List.replicate 64 (entry .vec (.vbcast 1 0)))) :
    AtQueueLane (wLane .vec 1 0x24040000 s) (.vbcast 1 0) .vec (fetchCtx 1) := by
  obtain rfl | rfl := hs <;> exact atLane_of ⟨rfl, by decide, by decide⟩ rfl rfl rfl rfl (by decide +kernel)
theorem witness_dispatch (h : DispatchAppendsAnEntry) : ∃ t, exec .queueDispatch (wLane .vec 1 0x24040000) = .next t :=
  let ⟨_, e, _⟩ := (h (wLane .vec 1 0x24040000) _ (.vbcast 1 0) .vec [] _ (at_vbcast w (.inl rfl))).2.1 none rfl rfl (by decide) (fun e => nomatch e)
    (fun e => nomatch e.1) rfl
  ⟨_, e⟩
/-- The sequencer stands at skshr, whose source waits for a result in flight. -/
def wAwaiting : State := wLane .skq 1 0x04046000 (w.withTask fun t => { t with ifq := [⟨0, 6, 5, 2⟩] })
theorem at_skshr : AtQueueLane wAwaiting (.skshr 1 6) .skq (fetchCtx 1) :=
  atLane_of ⟨rfl, by decide, by decide⟩ rfl rfl rfl rfl (by decide +kernel)
theorem witness_dispatchAwaits (h : DispatchAppendsAnEntry) : exec .queueDispatch wAwaiting = .next wAwaiting :=
  (h wAwaiting wAwaiting (.skshr 1 6) .skq [] _ at_skshr).1 rfl
theorem witness_dispatchFull (h : DispatchAppendsAnEntry) :
    ∃ s : State, exec .queueDispatch s = .next s :=
  let s := wLane .vec 1 0x24040000 (w.withTask fun t => t.setQueue .vec (List.replicate 64 (entry .vec (.vbcast 1 0))))
  ⟨s, (h s _ (.vbcast 1 0) .vec [] _ (at_vbcast _ (.inr rfl))).2.2.1 rfl (.inl (by decide +kernel))⟩
/-- The sequencer stands at an instruction of an engine, with registers and the task changed. -/
def wAt (i : Instr) (f : Regs → Regs := id) (g : Task → Task := id) : State :=
  match encode i with
  | none => w
  | some (k, ls) => ((w.withRegs f).withTask g).withTask fun t =>
      { t with flow := { t.flow with
          entered := true
          lanes := BitVec.ofNat 32 (k.nibble.toNat + if ls.length = 1 then 0 else 0xE0) :: ls ++ List.replicate (7 - ls.length) 0 } }
/-- Register h3 holds a handle. -/
def h3 (x : Handle) (g : Regs) : Regs := { g with h := g.h.set 3 x }
theorem witness_dispatchPending (h : DispatchAppendsAnEntry) :
    ∃ t, exec .queueDispatch (wAt (.sts 3 .b8 0 0) (h3 ⟨.pending, 0x20000, true, false, 0⟩)) = .next t :=
  let ⟨_, e, _⟩ := (h (wAt (.sts 3 .b8 0 0) (h3 ⟨.pending, 0x20000, true, false, 0⟩)) _ (.sts 3 .b8 0 0) .stq [] _
    (atLane_of ⟨rfl, by decide, by decide⟩ rfl rfl rfl rfl (by decide +kernel))).2.1 _ (by decide +kernel) rfl (by decide) (fun e => nomatch e)
    (fun e => nomatch e.1) ⟨_, rfl, rfl, fun _ => rfl, .inl rfl⟩
  ⟨_, e⟩
theorem witness_dispatchHandle (h : DispatchAppendsAnEntry) :
    ∃ t, exec .queueDispatch (wAt (.sts 3 .b8 0 0) (h3 ⟨.valid usedLeaf, 0x20000, true, false, 0⟩)) = .next t :=
  let ⟨_, e, _⟩ := (h (wAt (.sts 3 .b8 0 0) (h3 ⟨.valid usedLeaf, 0x20000, true, false, 0⟩)) _ (.sts 3 .b8 0 0) .stq [] _
    (atLane_of ⟨rfl, by decide, by decide⟩ rfl rfl rfl rfl (by decide +kernel))).2.1 _ (by decide +kernel) rfl (by decide) (fun e => nomatch e)
    (fun e => nomatch e.1) ⟨_, rfl, rfl, fun _ => rfl, .inr (.inr ⟨_, rfl, by decide +kernel, fun _ _ => by decide⟩)⟩
  ⟨_, e⟩
theorem witness_dispatchRevoked (h : DispatchAppendsAnEntry) :
    ∃ t, exec .queueDispatch (wAt (.sts 3 .b8 0 0) (h3 ⟨.revoked, 0x20000, true, false, 0⟩)) = .next t :=
  ⟨_, ((h (wAt (.sts 3 .b8 0 0) (h3 ⟨.revoked, 0x20000, true, false, 0⟩)) _ (.sts 3 .b8 0 0) .stq [] _
    (atLane_of ⟨rfl, by decide, by decide⟩ rfl rfl rfl rfl (by decide +kernel))).2.2.2 (by decide +kernel) rfl (drained_of rfl rfl)).1 3 _ _ rfl
    (.inl ⟨.inr rfl, rfl, rfl⟩)⟩
theorem witness_dispatchBound (h : DispatchAppendsAnEntry) :
    ∃ t, exec .queueDispatch (wAt (.sts 3 .b8 0 0) (h3 ⟨.faulted 0x14, 0x20000, true, false, 0⟩)) = .next t :=
  ⟨_, ((h (wAt (.sts 3 .b8 0 0) (h3 ⟨.faulted 0x14, 0x20000, true, false, 0⟩)) _ (.sts 3 .b8 0 0) .stq [] _
    (atLane_of ⟨rfl, by decide, by decide⟩ rfl rfl rfl rfl (by decide +kernel))).2.2.2 (by decide +kernel) rfl (drained_of rfl rfl)).1 3 _ _ rfl
    (.inr (.inl ⟨rfl, rfl, rfl⟩))⟩
/-- An offset that leaves the page of the handle. -/
theorem witness_dispatchOutside (h : DispatchAppendsAnEntry) :
    ∃ t, exec .queueDispatch (wAt (.sts 3 .b8 0x1E0000 0) (h3 ⟨.valid usedLeaf, 0x20000, true, false, 0⟩)) = .next t :=
  ⟨_, ((h (wAt (.sts 3 .b8 0x1E0000 0) (h3 ⟨.valid usedLeaf, 0x20000, true, false, 0⟩)) _ (.sts 3 .b8 0x1E0000 0) .stq [] _
    (atLane_of ⟨rfl, by decide, by decide⟩ rfl rfl rfl rfl (by decide +kernel))).2.2.2 (by decide +kernel) rfl (drained_of rfl rfl)).1 3 0x14 0x200000 rfl
    (.inr (.inr (.inl ⟨_, rfl, by decide +kernel, rfl⟩)))⟩
theorem witness_dispatchReadOnly (h : DispatchAppendsAnEntry) :
    ∃ t, exec .queueDispatch (wAt (.sts 3 .b8 0 0) (h3 ⟨.valid usedLeaf, 0x20000, false, false, 0⟩)) = .next t :=
  ⟨_, ((h (wAt (.sts 3 .b8 0 0) (h3 ⟨.valid usedLeaf, 0x20000, false, false, 0⟩)) _ (.sts 3 .b8 0 0) .stq [] _
    (atLane_of ⟨rfl, by decide, by decide⟩ rfl rfl rfl rfl (by decide +kernel))).2.2.2 (by decide +kernel) rfl (drained_of rfl rfl)).1 3 0x11 _ rfl
    (.inr (.inr (.inr ⟨by decide, rfl, rfl, .inr ⟨_, rfl, by decide +kernel, .inl rfl⟩⟩)))⟩
theorem witness_dispatchAfence (h : DispatchAppendsAnEntry) : ∃ t, exec .queueDispatch (wAt .afence id fun t => { t with freed := 3 }) = .next t :=
  let ⟨_, e, _⟩ := (h (wAt .afence id fun t => { t with freed := 3 }) _ .afence .atm [] _
    (atLane_of ⟨rfl, by decide, by decide⟩ rfl rfl rfl rfl (by decide +kernel))).2.1 none (by decide +kernel) rfl (by decide) (fun e => nomatch e)
    (fun e => nomatch e.1) rfl
  ⟨_, e⟩
theorem witness_dispatchCpy (h : DispatchAppendsAnEntry) : ∃ t, exec .queueDispatch (wAt (.cpy 6)) = .next t :=
  let ⟨_, e, _⟩ := (h (wAt (.cpy 6)) _ (.cpy 6) .cpy _ _
    (atLane_of ⟨rfl, by decide, by decide⟩ rfl rfl rfl rfl (by decide +kernel))).2.1 none (by decide +kernel) rfl (by decide) (fun _ => by decide +kernel)
    (fun e => nomatch e.1) rfl
  ⟨_, e⟩
/-- Sixteen copy commands are open. -/
def sixteen (t : Task) : Task := { t with vcq := (List.range 16).map fun i => { num := BitVec.ofNat 32 i, ord := i, pfd := 0, bytes := [] } }
theorem witness_dispatchCpyFull (h : DispatchAppendsAnEntry) : ∃ s : State, exec .queueDispatch s = .next s :=
  ⟨wAt (.cpy 6) id sixteen, (h (wAt (.cpy 6) id sixteen) _ (.cpy 6) .cpy _ _
    (atLane_of ⟨rfl, by decide, by decide⟩ rfl rfl rfl rfl (by decide +kernel))).2.2.1 rfl (.inr ⟨rfl, by decide +kernel⟩)⟩
/-- A transfer of 64 bytes on channel 8; w's context has no channel. -/
def sends (first count : Nat) : State :=
  { wAt (.lsend 5 6 7 none 9) (fun g => (g.wr 5 0x80001).wr 7 64) with ctxs := [{ fetchCtx 1 with chanFirst := first, chanCount := count }] }
theorem at_sends (first count : Nat) :
    AtQueueLane (sends first count) (.lsend 5 6 7 none 9) .lnk { fetchCtx 1 with chanFirst := first, chanCount := count } :=
  ⟨rfl, by decide, by decide, rfl, rfl, rfl, rfl, (by decide +kernel : (sends 0 0).cur.laneEngine = .lnk), rfl, rfl,
    (by decide +kernel : decodeLane (sends 0 0).cur.flow.lanes (sends 0 0).cur.flow.lane = .ok (.lsend 5 6 7 none 9))⟩
theorem fits_sends : TransferFits { fetchCtx 1 with chanFirst := 8, chanCount := 2 } [0x80001, 0, 64] := by
  refine ⟨fun j hj => ?_, by decide +kernel, by decide +kernel, by decide +kernel, by decide +kernel⟩
  by_cases h : j < 64
  · have : ∀ j : Fin 64, (10 ≤ j.val ∧ j.val < 16) ∨ 24 ≤ j.val → (0x80001 : Word).getLsbD j.val = false := by decide
    exact this ⟨j, h⟩ hj
  · exact BitVec.getLsbD_of_ge _ _ (by omega)
theorem witness_dispatchTransfer (h : DispatchAppendsAnEntry) : ∃ t, exec .queueDispatch (sends 8 2) = .next t :=
  let ⟨_, e, _⟩ := (h (sends 8 2) _ _ _ [0x80001, 0, 64] _ (at_sends 8 2)).2.1 none (by decide +kernel) rfl (by decide) (fun e => nomatch e)
    (fun _ => fits_sends) rfl
  ⟨_, e⟩
theorem witness_dispatchTransferBad (h : DispatchAppendsAnEntry) : ∃ t, exec .queueDispatch (sends 0 0) = .next t :=
  ⟨_, ((h (sends 0 0) _ _ _ [0x80001, 0, 64] _ (at_sends 0 0)).2.2.2 (by decide +kernel) rfl (drained_of rfl rfl)).2
    ⟨rfl, fun _ e => nomatch e⟩ fun f => absurd f.2.2.1 (by decide +kernel)⟩
theorem witness_filled (h : FillsStepsAndHeldEvents) : exec (.scratchpadPageFill 0) w = .next w := (h.1 w 0 0 rfl (by decide)).1 rfl
theorem witness_fill (h : FillsStepsAndHeldEvents) : ∃ t, exec (.scratchpadPageFill 0) (w.withTask fun t => { t with filled := 0 }) = .next t :=
  let ⟨_, _, e, _⟩ := (h.1 (w.withTask fun t => { t with filled := 0 }) 0 0 rfl (by decide)).2 rfl memoryWf_w
  ⟨_, e⟩
theorem witness_stepEnd (h : FillsStepsAndHeldEvents) :
    ∃ t, exec .stepEnd (w.withTask fun t => { t with flow := { t.flow with stepping := true, stepDone := true } }) = .next t :=
  let ⟨_, _, e, _⟩ := h.2.1 (w.withTask fun t => { t with flow := { t.flow with stepping := true, stepDone := true } }) 0 _ rfl rfl rfl rfl rfl rfl
  ⟨_, e⟩
theorem witness_replayRelease (h : FillsStepsAndHeldEvents) :
    ∃ t, exec (.replayHoldRelease .atm) (w.withTask fun t => { t with held := [(.atm, ⟨1, 0, 0, 0, 0, 0, 0⟩)] }) = .next t :=
  let ⟨_, e, _⟩ := h.2.2 (w.withTask fun t => { t with held := [(.atm, ⟨1, 0, 0, 0, 0, 0, 0⟩)] }) .atm
  ⟨_, e⟩

/-- An entry of VEC acts on the machine with some registers changed. -/
def vec (i : Instr) (f : Regs → Regs := id) : State := acting (w.withRegs f) (entry .vec i)
theorem ready_of {s : State} {e : Entry} (ha : s.act = some e) (hq : (s.cur.queue e.stream).head? = some e) (hb : s.mayBegin e = true)
    (hw : (e.under, e.reads, e.answer, e.tokWaits, s.air) = (false, [], .none, [], none)) (ht : waitFifos e.stream (Instr.tokens e.ins) = [])
    (hg : s.cur.noRoom e = false) (hl : (s.cur.queue .ldq).all (fun x => x.reads.isEmpty) = true := by decide) : s.Ready e := by
  simp only [Prod.mk.injEq] at hw
  exact ⟨ha, hw.2.2.2.2, fun x hx => List.isEmpty_iff.1 (List.all_eq_true.1 hl x hx), hq, ⟨hw.1, hw.2.1, hw.2.2.1⟩, hb, .inl hw.2.2.2.1,
    fun _ h => (List.not_mem_nil (ht ▸ h)).elim, hg⟩
theorem witness_float2 (h : Obligations.FloatLanesAreRoundedOnce) : ∃ t, exec (.fadd 1 2 3 0) (vec (.fadd 1 2 3 0)) = .next t :=
  let ⟨_, _, e⟩ := h.1 (vec (.fadd 1 2 3 0)) (entry .vec (.fadd 1 2 3 0)) 1 2 3 _ (ready_of rfl rfl rfl rfl rfl rfl) rfl rfl
  ⟨_, e⟩
/-- An entry that waits for a token of its left neighbour and gives one to its right neighbour. -/
theorem witness_tokens (h : IntegerLanesAreExact) :
    ∃ t, exec (.iadd 1 2 3 0xF) (vec (.iadd 1 2 3 0xF) fun g => { g with tok := .replicate 6 1 }) = .next t :=
  ⟨_, h.1 (vec (.iadd 1 2 3 0xF) fun g => { g with tok := .replicate 6 1 }) (entry .vec (.iadd 1 2 3 0xF)) 1 2 3 _
    ⟨rfl, rfl, (fun _ h => nomatch h), rfl, ⟨rfl, rfl, rfl⟩, rfl, .inl rfl, by decide, by decide⟩ rfl rfl⟩
theorem witness_float1 (h : Obligations.FloatLanesAreRoundedOnce) : ∃ t, exec (.frcp 1 2 0) (vec (.frcp 1 2 0)) = .next t :=
  let ⟨_, _, e⟩ := h.2.1 (vec (.frcp 1 2 0)) (entry .vec (.frcp 1 2 0)) 1 2 _ (ready_of rfl rfl rfl rfl rfl rfl) rfl rfl
  ⟨_, e⟩
theorem witness_fma (h : Obligations.FloatLanesAreRoundedOnce) : ∃ t, exec (.fma 1 2 3 4 0) (vec (.fma 1 2 3 4 0)) = .next t :=
  let ⟨_, _, e⟩ := h.2.2.1 (vec (.fma 1 2 3 4 0)) (entry .vec (.fma 1 2 3 4 0)) 1 2 3 4 0 (ready_of rfl rfl rfl rfl rfl rfl) rfl rfl
  ⟨_, e⟩
theorem witness_fabs (h : Obligations.FloatLanesAreRoundedOnce) : ∃ t, exec (.fabs 1 2 0) (vec (.fabs 1 2 0)) = .next t :=
  ⟨_, (h.2.2.2.1 (vec (.fabs 1 2 0)) (entry .vec (.fabs 1 2 0)) 1 2 0 (ready_of rfl rfl rfl rfl rfl rfl) rfl).1 rfl⟩
theorem witness_fneg (h : Obligations.FloatLanesAreRoundedOnce) : ∃ t, exec (.fneg 1 2 0) (vec (.fneg 1 2 0)) = .next t :=
  ⟨_, (h.2.2.2.1 (vec (.fneg 1 2 0)) (entry .vec (.fneg 1 2 0)) 1 2 0 (ready_of rfl rfl rfl rfl rfl rfl) rfl).2 rfl⟩
theorem witness_fcmp (h : Obligations.FloatLanesAreRoundedOnce) : ∃ t, exec (.fcmpCc .un 1 2 3 0) (vec (.fcmpCc .un 1 2 3 0)) = .next t :=
  let ⟨_, _, e⟩ := h.2.2.2.2 (vec (.fcmpCc .un 1 2 3 0)) (entry .vec (.fcmpCc .un 1 2 3 0)) .un 1 2 3 0 (ready_of rfl rfl rfl rfl rfl rfl) rfl rfl
  ⟨_, e⟩
theorem witness_icmp (h : IntegerLanesAreExact) : ∃ t, exec (.icmpCc .ltu 1 2 3 0) (vec (.icmpCc .ltu 1 2 3 0)) = .next t :=
  let ⟨_, _, e⟩ := h.2 (vec (.icmpCc .ltu 1 2 3 0)) (entry .vec (.icmpCc .ltu 1 2 3 0)) .ltu 1 2 3 0 (ready_of rfl rfl rfl rfl rfl rfl) rfl rfl
  ⟨_, e⟩
theorem witness_vmov (h : LaneMovesAndMasks) : ∃ t, exec (.vmov 1 2 0) (vec (.vmov 1 2 0)) = .next t :=
  ⟨_, (h.1 (vec (.vmov 1 2 0)) (entry .vec (.vmov 1 2 0)) 0 (ready_of rfl rfl rfl rfl rfl rfl) rfl).1 1 2 rfl⟩
theorem witness_vbcast (h : LaneMovesAndMasks) :
    ∃ t, exec (.vbcast 1 0) (vec (.vbcast 1 0) fun g => g.wrPort 2 [⟨7, false⟩]) = .next t :=
  ⟨_, (h.1 (vec (.vbcast 1 0) fun g => g.wrPort 2 [⟨7, false⟩]) (entry .vec (.vbcast 1 0)) 0 (ready_of rfl rfl rfl rfl rfl rfl) rfl).2.2.2.2.2
    1 _ _ rfl rfl⟩
theorem witness_mpop (h : LaneMovesAndMasks) : ∃ t, exec (.mpop 1 0) (vec (.mpop 1 0)) = .next t :=
  ⟨_, (h.2 (vec (.mpop 1 0)) (entry .vec (.mpop 1 0)) 0 (ready_of rfl rfl rfl rfl rfl rfl) rfl).2.2.2.2.2 1 _ rfl rfl⟩
theorem witness_cvt (h : Obligations.LanesConvertAndPack) :
    ∃ t, exec (.cvt 1 2 .fp32 .bf16 .rs (some 3) 0) (vec (.cvt 1 2 .fp32 .bf16 .rs (some 3) 0)) = .next t :=
  let ⟨_, _, e⟩ := h.1 (vec (.cvt 1 2 .fp32 .bf16 .rs (some 3) 0)) (entry .vec (.cvt 1 2 .fp32 .bf16 .rs (some 3) 0)) 1 2 .fp32 .bf16 .rs (some 3) 0
    (ready_of rfl rfl rfl rfl rfl rfl) rfl rfl
  ⟨_, e⟩
theorem witness_pack (h : Obligations.LanesConvertAndPack) : ∃ t, exec (.pack 1 2 3 .w4 0) (vec (.pack 1 2 3 .w4 0)) = .next t :=
  let ⟨_, e, _⟩ := h.2.1 (vec (.pack 1 2 3 .w4 0)) (entry .vec (.pack 1 2 3 .w4 0)) 1 2 3 .w4 0 (ready_of rfl rfl rfl rfl rfl rfl) rfl rfl
  ⟨_, e⟩
theorem witness_unpack (h : Obligations.LanesConvertAndPack) : ∃ t, exec (.unpack 1 2 7 .w4 0) (vec (.unpack 1 2 7 .w4 0)) = .next t :=
  let ⟨_, e, _⟩ := h.2.2 (vec (.unpack 1 2 7 .w4 0)) (entry .vec (.unpack 1 2 7 .w4 0)) 1 2 7 .w4 0 (ready_of rfl rfl rfl rfl rfl rfl) rfl rfl
    (by decide)
  ⟨_, e⟩
theorem witness_vred (h : Obligations.ReductionsFollowTheirOrder) : ∃ t, exec (.vred .imax 2 (some 1) 0) (vec (.vred .imax 2 (some 1) 0)) = .next t :=
  ⟨_, h.1 (vec (.vred .imax 2 (some 1) 0)) _ (entry .vec (.vred .imax 2 (some 1) 0)) .imax 2 (some 1) 0 (ready_of rfl rfl rfl rfl rfl rfl) rfl rfl rfl⟩
theorem witness_vscan (h : Obligations.ReductionsFollowTheirOrder) : ∃ t, exec (.vscan .fadd 1 2 0) (vec (.vscan .fadd 1 2 0)) = .next t :=
  ⟨_, h.2.1 (vec (.vscan .fadd 1 2 0)) (entry .vec (.vscan .fadd 1 2 0)) .fadd 1 2 0 (ready_of rfl rfl rfl rfl rfl rfl) rfl rfl⟩
theorem witness_vsegsum (h : Obligations.ReductionsFollowTheirOrder) : ∃ t, exec (.vsegsum true 1 2 3 0) (vec (.vsegsum true 1 2 3 0)) = .next t :=
  let ⟨_, _, e, _⟩ := h.2.2.1 (vec (.vsegsum true 1 2 3 0)) (entry .vec (.vsegsum true 1 2 3 0)) true 1 2 3 0 (ready_of rfl rfl rfl rfl rfl rfl) rfl rfl
  ⟨_, e⟩
theorem witness_vredRefused (h : Obligations.ReductionsFollowTheirOrder) : decode .vec [fq 0x30 0 2 8 0 0] = .error .illegalField :=
  h.2.2.2.2.2.2.1 _ (by decide) (.inl (by decide))
theorem witness_vsort (h : Obligations.SortsAreStableAndRunsAreNumbered) : ∃ t, exec (.vsort .f 1 2 0) (vec (.vsort .f 1 2 0)) = .next t :=
  let ⟨_, e, _⟩ := h.1 (vec (.vsort .f 1 2 0)) (entry .vec (.vsort .f 1 2 0)) .f 1 2 0 (ready_of rfl rfl rfl rfl rfl rfl) rfl (by decide) rfl
  ⟨_, e⟩
theorem witness_vuniq (h : Obligations.SortsAreStableAndRunsAreNumbered) : ∃ t, exec (.vuniq 1 2 3 0) (vec (.vuniq 1 2 3 0)) = .next t :=
  let ⟨_, _, e⟩ := h.2.1 (vec (.vuniq 1 2 3 0)) (entry .vec (.vuniq 1 2 3 0)) 1 2 3 0 (ready_of rfl rfl rfl rfl rfl rfl) rfl rfl
  ⟨_, e⟩
theorem witness_vsortRefused (h : Obligations.SortsAreStableAndRunsAreNumbered) : decode .vec [fq 0x32 5 5 0 2 0] = .error .illegalField :=
  h.2.2.2.2.1 _ (by decide) (.inr (.inr (by decide)))

/-- A handle with a valid translation. -/
def hd (base : Word) (leaf : Word := fetchLeaf) : Handle := { bind := .valid leaf, base, write := true }
/-- An entry with a handle acts on the machine with some memory. -/
def hact (k : Stream) (i : Instr) (xs : List (Nat × Nat × Nat)) (caps : List Word := []) (h : Handle := hd 0x30000) : State :=
  acting (mem w xs) (entry k i caps (some h))
theorem serves_of {s : State} {e : Entry} {leaf base : Word} (hc : s.Clear) (he : e.h = some (hd base leaf)) (ho : e.outside leaf base = none)
    (hw : leafW leaf = true) (ha : leafAp leaf = 0) (hd : leafDlt leaf = false) : s.Serves e leaf base :=
  ⟨hc, ⟨_, he, rfl, rfl, fun _ => rfl⟩, ho, fun _ => hw, ha, hd⟩
theorem clear_hact (k : Stream) (i : Instr) (xs : List (Nat × Nat × Nat)) (caps : List Word) (h : Handle) : (hact k i xs caps h).Clear :=
  clear_of rfl rfl rfl ⟨rfl, rfl, rfl, rfl, rfl, rfl⟩
theorem memoryWf_hact (k : Stream) (i : Instr) (xs : List (Nat × Nat × Nat)) (caps : List Word) (h : Handle) : (hact k i xs caps h).MemoryWf :=
  memoryWf_mem memoryWf_w xs
theorem paged_hact (k : Stream) (i : Instr) (xs : List (Nat × Nat × Nat)) (caps : List Word) (h : Handle)
    (hx : xs.all (fun x => decide (0x5000 ≤ x.1)) = true) : Paged (hact k i xs caps h) := paged_w.mem xs hx
theorem placed_of {s : State} {e : Entry} {leaf base : Word} {n : Nat}
    (h : ∀ j : Fin 64, (match placeRow s e base n j with
      | none => true
      | some (va, p) => decide (va.toNat % alignUnit n = 0 ∧
          (p = 0 → pageOf leaf base ≤ va.toNat ∧ va.toNat + holder n ≤ pageOf leaf base + pageBytes (leafSz leaf)))) = true) :
    Placed s e leaf base n := by
  intro j va p hp
  have := h j
  rw [hp] at this
  exact of_decide_eq_true this

/-- lds of the last bytes of the page, sign-extended. -/
theorem witness_lds (h : Obligations.LoadsReadTheirElements) :
    ∃ t, exec (.lds 3 false .b2 0x1CFFFE 0) (hact .ldq (.lds 3 false .b2 0x1CFFFE 0) [(0x3FFFFE, 2, 0x8000)]) = .next t :=
  ⟨_, h.1 (hact .ldq (.lds 3 false .b2 0x1CFFFE 0) [(0x3FFFFE, 2, 0x8000)]) _
    (entry .ldq (.lds 3 false .b2 0x1CFFFE 0) [] (some (hd 0x30000))) 3 false .b2 0x1CFFFE 0 fetchLeaf 0x30000 0x1FFFFE 2 0x8000
    (ready_of rfl rfl (by decide +kernel) rfl rfl rfl) rfl rfl (serves_of (clear_hact ..) rfl (by decide +kernel) rfl rfl rfl) (by decide +kernel) rfl
    (by decide +kernel) ⟨by decide, by decide +kernel⟩ rfl⟩
theorem witness_vld (h : Obligations.LoadsReadTheirElements) :
    ∃ t, exec (.vld 1 3 (some 2) 0 0) (hact .ldq (.vld 1 3 (some 2) 0 0) []) = .next t :=
  let ⟨_, e, _⟩ := h.2.1 (hact .ldq (.vld 1 3 (some 2) 0 0) []) (entry .ldq (.vld 1 3 (some 2) 0 0) [] (some (hd 0x30000))) 1 true fetchLeaf 0x30000 32
    (ready_of rfl rfl (by decide +kernel) rfl rfl rfl) rfl rfl (serves_of (clear_hact ..) rfl (by decide +kernel) rfl rfl rfl) (fun _ => rfl)
    (by decide) (placed_of (by decide +kernel))
  ⟨_, e⟩
theorem witness_vldr (h : Obligations.LoadsReadTheirElements) :
    ∃ t, exec (.vldr 1 3 none 0x1CFF00 0) (hact .ldq (.vldr 1 3 none 0x1CFF00 0) []) = .next t :=
  let ⟨_, e, _⟩ := h.2.1 (hact .ldq (.vldr 1 3 none 0x1CFF00 0) []) (entry .ldq (.vldr 1 3 none 0x1CFF00 0) [] (some (hd 0x30000))) 1 false fetchLeaf
    0x30000 32 (ready_of rfl rfl (by decide +kernel) rfl rfl rfl) rfl rfl (serves_of (clear_hact ..) rfl (by decide +kernel) rfl rfl rfl) (fun h => nomatch h)
    rfl (placed_of (by decide +kernel))
  ⟨_, e⟩
theorem witness_vlds (h : Obligations.LoadsReadTheirElements) :
    ∃ t, exec (.vlds 1 3 6 0 0) (hact .ldq (.vlds 1 3 6 0 0) [] [256]) = .next t :=
  let ⟨_, e, _⟩ := h.2.1 (hact .ldq (.vlds 1 3 6 0 0) [] [256]) (entry .ldq (.vlds 1 3 6 0 0) [256] (some (hd 0x30000))) 1 true fetchLeaf 0x30000 32
    (ready_of rfl rfl (by decide +kernel) rfl rfl rfl) rfl rfl (serves_of (clear_hact ..) rfl (by decide +kernel) rfl rfl rfl) (fun _ => rfl)
    (by decide) (placed_of (by decide +kernel))
  ⟨_, e⟩
theorem witness_vldg (h : Obligations.LoadsReadTheirElements) :
    ∃ t, exec (.vldg 1 3 2 0) (hact .ldq (.vldg 1 3 2 0) []) = .next t :=
  let ⟨_, e, _⟩ := h.2.1 (hact .ldq (.vldg 1 3 2 0) []) (entry .ldq (.vldg 1 3 2 0) [] (some (hd 0x30000))) 1 true fetchLeaf 0x30000 32
    (ready_of rfl rfl (by decide +kernel) rfl rfl rfl) rfl rfl (serves_of (clear_hact ..) rfl (by decide +kernel) rfl rfl rfl) (fun _ => rfl)
    (by decide) (placed_of (by decide +kernel))
  ⟨_, e⟩
/-- A leaf with 8-bit elements and a scale for each 32 of them. -/
def scaledLeaf : Word := BitVec.ofNat 64 (512 * 2 ^ 24 + 2 ^ 20 + 4 * 2 ^ 16 + 0x47)
theorem witness_vlbc (h : Obligations.LoadsReadTheirElements) :
    ∃ t, exec (.vlbc 1 3 4 0) (hact .ldq (.vlbc 1 3 4 0) [(0x230004, 4, 9)]) = .next t :=
  ⟨_, (h.2.2.1 (hact .ldq (.vlbc 1 3 4 0) [(0x230004, 4, 9)]) (entry .ldq (.vlbc 1 3 4 0) [] (some (hd 0x30000))) 1 3 4 0 fetchLeaf 0x30000 0x30004 9
    (ready_of rfl rfl (by decide +kernel) rfl rfl rfl) rfl rfl (serves_of (clear_hact ..) rfl (by decide +kernel) rfl rfl rfl) (by decide +kernel)
    (by decide) ⟨by decide, by decide +kernel⟩).1 rfl⟩
theorem witness_vlbcScaled (h : Obligations.LoadsReadTheirElements) :
    ∃ t, exec (.vlbc 1 3 0 0) (hact .ldq (.vlbc 1 3 0 0) [(0x201800, 4, 0x7F7F7F7F), (0x230000, 1, 9)] [] (hd 0x30000 scaledLeaf)) = .next t :=
  let s := hact .ldq (.vlbc 1 3 0 0) [(0x201800, 4, 0x7F7F7F7F), (0x230000, 1, 9)] [] (hd 0x30000 scaledLeaf)
  have p : Paged s := paged_hact _ _ _ _ _ rfl
  let ⟨_, e, _⟩ := (h.2.2.1 s (entry .ldq (.vlbc 1 3 0 0) [] (some (hd 0x30000 scaledLeaf))) 1 3 0 0 scaledLeaf 0x30000 0x30000 9
    (ready_of rfl rfl (by decide +kernel) rfl rfl rfl) rfl rfl (serves_of (clear_hact ..) rfl (by decide +kernel) rfl rfl rfl) (by decide +kernel)
    (by decide) ⟨by decide, by decide +kernel⟩).2 0x1800 fetchLeaf 0x7F (by decide) (by decide) (by decide) (by decide) (memoryWf_hact ..) rfl
    (by decide) (by decide +kernel) (p.maps (by decide)) rfl rfl
    (fun pa l hl k hk => by
      cases (p.lookup (va := 0x1800) (by decide)).symm.trans hl
      revert k; decide +kernel)
    ⟨by decide, by decide +kernel⟩
  ⟨_, e⟩
theorem witness_vlsp (h : Obligations.LoadsReadTheirElements) :
    ∃ t, exec (.vlsp 1 6 0) (acting w (entry .ldq (.vlsp 1 6 0) [0x10F00])) = .next t :=
  ⟨_, h.2.2.2.1 (acting w (entry .ldq (.vlsp 1 6 0) [0x10F00])) (entry .ldq (.vlsp 1 6 0) [0x10F00]) 1 6 0 0x10F00
    (ready_of rfl rfl (by decide +kernel) rfl rfl rfl) rfl rfl rfl (by decide) (by decide) (by decide)⟩
theorem witness_ldpf (h : Obligations.LoadsReadTheirElements) :
    ∃ t, exec (.ldpf 3 6 0 0) (hact .ldq (.ldpf 3 6 0 0) [] [2]) = .next t :=
  let ⟨_, e, _⟩ := h.2.2.2.2 (hact .ldq (.ldpf 3 6 0 0) [] [2]) (entry .ldq (.ldpf 3 6 0 0) [2] (some (hd 0x30000))) 3 6 0 0 (hd 0x30000)
    (ready_of rfl rfl (by decide +kernel) rfl rfl rfl) rfl rfl rfl (by decide)
  ⟨_, e⟩

/-- The store data of a store: an entry of s57. -/
def hact57 (i : Instr) : State := acting (mem (w.withRegs fun g => g.wrPort 1 [⟨7, false⟩]) []) (entry .stq i [] (some (hd 0x30000)))
theorem witness_sts (h : PlainStoresWriteTheirElements) :
    ∃ t, exec (.sts 3 .b8 0x1CFFF8 0) (hact57 (.sts 3 .b8 0x1CFFF8 0)) = .next t :=
  let ⟨_, e, _⟩ := h.1 (hact57 (.sts 3 .b8 0x1CFFF8 0)) _ (entry .stq (.sts 3 .b8 0x1CFFF8 0) [] (some (hd 0x30000))) 3 .b8 0x1CFFF8 0 fetchLeaf
    0x30000 0x1FFFF8 7 8 (memoryWf_mem (s := w.withRegs _) memoryWf_w _) (ready_of rfl rfl (by decide +kernel) rfl rfl rfl) rfl rfl
    (serves_of (clear_of rfl rfl rfl ⟨rfl, rfl, rfl, rfl, rfl, rfl⟩) rfl (by decide +kernel) rfl rfl rfl) (by decide +kernel) rfl (by decide +kernel) (.inr ⟨rfl, rfl⟩)
  ⟨_, e⟩
/-- A store that holds its datum already. -/
def stHeld : Entry := { entry .stq (.sts 3 .b8 0x1CFFF8 0) [] (some (hd 0x30000)) with data := some 7 }
theorem witness_stsHeld (h : PlainStoresWriteTheirElements) : ∃ t, exec (.sts 3 .b8 0x1CFFF8 0) (acting w stHeld) = .next t :=
  let ⟨_, e, _⟩ := h.1 (acting w stHeld) _ stHeld 3 .b8 0x1CFFF8 0 fetchLeaf
    0x30000 0x1FFFF8 7 8 memoryWf_w (ready_of rfl rfl (by decide +kernel) rfl rfl rfl) rfl rfl
    (serves_of (clear_of rfl rfl rfl ⟨rfl, rfl, rfl, rfl, rfl, rfl⟩) rfl (by decide +kernel) rfl rfl rfl) (by decide +kernel) rfl (by decide +kernel) (.inl ⟨rfl, rfl⟩)
  ⟨_, e⟩
/-- A store behind a mark, which a load dispatched before it holds back, with its datum in s57. -/
def stMarked : Entry := { entry .stq (.sts 3 .b8 0x1CFFF8 0) [] (some (hd 0x30000)) with ord := 2, mark := 2 }
def stWaits : State :=
  { (w.withRegs fun g => g.wrPort 1 [⟨7, false⟩]).withTask fun t =>
      (t.setQueue .stq [stMarked]).setQueue .ldq [entry .ldq (.vld 1 0 none 0 0)] with act := some stMarked }
theorem witness_stsTakes (h : PlainStoresWriteTheirElements) : ∃ t, exec (.sts 3 .b8 0x1CFFF8 0) stWaits = .next t :=
  ⟨_, h.2.1 stWaits _ stMarked [] 3 .b8 0x1CFFF8 0 7 rfl rfl rfl rfl rfl rfl rfl (by decide +kernel)⟩
theorem witness_vst (h : PlainStoresWriteTheirElements) :
    ∃ t, exec (.vst 1 3 .rs none 0 0) (hact .stq (.vst 1 3 .rs none 0 0) []) = .next t :=
  let ⟨_, _, _, e, _⟩ := h.2.2.1 (hact .stq (.vst 1 3 .rs none 0 0) []) (entry .stq (.vst 1 3 .rs none 0 0) [] (some (hd 0x30000))) 1 (some .rs) fetchLeaf
    0x30000 32 (memoryWf_hact ..) (ready_of rfl rfl (by decide +kernel) rfl rfl rfl) rfl rfl
    (serves_of (clear_hact ..) rfl (by decide +kernel) rfl rfl rfl) (fun _ => rfl) (by decide) (placed_of (by decide +kernel))
  ⟨_, e⟩
theorem witness_vstr (h : PlainStoresWriteTheirElements) :
    ∃ t, exec (.vstr 1 3 (some 2) 0 0) (hact .stq (.vstr 1 3 (some 2) 0 0) []) = .next t :=
  let ⟨_, _, _, e, _⟩ := h.2.2.1 (hact .stq (.vstr 1 3 (some 2) 0 0) []) (entry .stq (.vstr 1 3 (some 2) 0 0) [] (some (hd 0x30000))) 1 none fetchLeaf
    0x30000 32 (memoryWf_hact ..) (ready_of rfl rfl (by decide +kernel) rfl rfl rfl) rfl rfl
    (serves_of (clear_hact ..) rfl (by decide +kernel) rfl rfl rfl) (fun h => absurd rfl h) rfl (placed_of (by decide +kernel))
  ⟨_, e⟩
theorem witness_vsct (h : PlainStoresWriteTheirElements) :
    ∃ t, exec (.vsct 1 3 2 .rne 0) (hact .stq (.vsct 1 3 2 .rne 0) []) = .next t :=
  let ⟨_, _, _, e, _⟩ := h.2.2.1 (hact .stq (.vsct 1 3 2 .rne 0) []) (entry .stq (.vsct 1 3 2 .rne 0) [] (some (hd 0x30000))) 1 (some .rne) fetchLeaf
    0x30000 32 (memoryWf_hact ..) (ready_of rfl rfl (by decide +kernel) rfl rfl rfl) rfl rfl
    (serves_of (clear_hact ..) rfl (by decide +kernel) rfl rfl rfl) (fun _ => rfl) (by decide) (placed_of (by decide +kernel))
  ⟨_, e⟩
theorem witness_vssp (h : PlainStoresWriteTheirElements) :
    ∃ t, exec (.vssp 1 6 0) (acting w (entry .stq (.vssp 1 6 0) [0x10000])) = .next t :=
  let ⟨_, _, _, e, _⟩ := h.2.2.2.1 (acting w (entry .stq (.vssp 1 6 0) [0x10000])) (entry .stq (.vssp 1 6 0) [0x10000]) 1 6 0 0x10000
    memoryWf_w (ready_of rfl rfl (by decide +kernel) rfl rfl rfl) rfl rfl rfl (by decide) (by decide) (by decide) (by decide)
  ⟨_, e⟩
theorem witness_lcln (h : PlainStoresWriteTheirElements) : ∃ t, exec (.lcln 3 0x40 0) (hact .stq (.lcln 3 0x40 0) []) = .next t :=
  ⟨_, (h.2.2.2.2 (hact .stq (.lcln 3 0x40 0) []) (entry .stq (.lcln 3 0x40 0) [] (some (hd 0x30000))) 3 0x40 0 fetchLeaf 0x30000 0x230040
    (ready_of rfl rfl (by decide +kernel) rfl rfl rfl) rfl (serves_of (clear_hact ..) rfl (by decide +kernel) rfl rfl rfl) (by decide +kernel)).1 rfl⟩
theorem witness_linv (h : PlainStoresWriteTheirElements) : ∃ t, exec (.linv 3 0x40 0) (hact .stq (.linv 3 0x40 0) []) = .next t :=
  ⟨_, (h.2.2.2.2 (hact .stq (.linv 3 0x40 0) []) (entry .stq (.linv 3 0x40 0) [] (some (hd 0x30000))) 3 0x40 0 fetchLeaf 0x30000 0x230040
    (ready_of rfl rfl (by decide +kernel) rfl rfl rfl) rfl (serves_of (clear_hact ..) rfl (by decide +kernel) rfl rfl rfl) (by decide +kernel)).2 rfl⟩
/-- A leaf whose accesses its Mole serves. -/
def moleLeaf : Word := BitVec.ofNat 64 (512 * 2 ^ 24 + 2 ^ 10 + 0x47)
theorem witness_vfaddnr (h : VfaddnrAddsAtItsWords) :
    ∃ t, exec (.vfaddnr 1 3 none 0 0) (hact .stq (.vfaddnr 1 3 none 0 0) [] [] (hd 0x30000 moleLeaf)) = .next t :=
  let ⟨_, e, _⟩ := h (hact .stq (.vfaddnr 1 3 none 0 0) [] [] (hd 0x30000 moleLeaf)) (entry .stq (.vfaddnr 1 3 none 0 0) [] (some (hd 0x30000 moleLeaf)))
    1 3 none 0 0 moleLeaf 0x30000 (ready_of rfl rfl (by decide +kernel) rfl rfl rfl) rfl rfl
    (serves_of (clear_hact ..) rfl (by decide +kernel) rfl rfl rfl) (memoryWf_hact ..) rfl (by decide) (by decide) (by decide) (by decide)
    (placed_of (by decide +kernel))
  ⟨_, e⟩

/-- An entry of TIL acts on the machine with some registers changed. -/
def til (i : Instr) (f : Regs → Regs := id) (caps : List Word := []) : State := acting (w.withRegs f) (entry .til i caps)
theorem tilReady (i : Instr) (f : Regs → Regs) (caps : List Word)
    (hb : (til i f caps).mayBegin (entry .til i caps) = true) (ht : waitFifos .til (Instr.tokens i) = [])
    (hg : (til i f caps).cur.noRoom (entry .til i caps) = false) :
    TilReady (til i f caps) (entry .til i caps) := ⟨ready_of rfl rfl hb rfl ht hg rfl, rfl, rfl, rfl, fun h => nomatch h⟩
/-- A descriptor of FP32 elements at line 0x20000. -/
def tile (r c : BitVec 16) (base : Word := 0x20000) : Desc := { rows := r, cols := c, pitch := c.setWidth 32 * 4, base }
/-- Some descriptors set. -/
def setD (xs : List (TReg × Desc)) (g : Regs) : Regs := xs.foldl (fun g x => g.wrT x.1 x.2) g
/-- Lane 3 of a matrix form that accumulates. -/
def mmAcc : MmExt := { acc := true, ta := false, tb := false, wait := none, sig := none }
theorem witness_tset (h : DescriptorsAreSetAndRead) : ∃ t, exec (.tset 1 .rows 6) (til (.tset 1 .rows 6) id [16384]) = .next t :=
  let ⟨_, e, _⟩ := (h.1 (til (.tset 1 .rows 6) id [16384]) _ (tilReady _ id _ rfl rfl rfl)).1 1 .rows 6 16384 (tile 16384 0 0 |> fun x => { x with pitch := 0 }) rfl rfl (by decide)
  ⟨_, e⟩
theorem witness_tsetShape (h : DescriptorsAreSetAndRead) : ∃ t, exec (.tset 1 .rows 6) (til (.tset 1 .rows 6) id [16385]) = .next t :=
  ⟨_, (h.1 (til (.tset 1 .rows 6) id [16385]) _ (tilReady _ id _ rfl rfl rfl)).2.1 1 .rows 6 16385 rfl rfl (by decide)⟩
theorem witness_tclr (h : DescriptorsAreSetAndRead) : ∃ t, exec (.tclr 1) (til (.tclr 1)) = .next t :=
  let ⟨_, e, _⟩ := (h.1 (til (.tclr 1)) _ (tilReady _ id _ rfl rfl rfl)).2.2.1 1 rfl
  ⟨_, e⟩
theorem witness_tdrop (h : DescriptorsAreSetAndRead) :
    ∃ t, exec (.tdrop 1) (til (.tdrop 1) (setD [(1, { tile 1 1 with state := 1, thk := 5 })])) = .next t :=
  let ⟨_, e, _⟩ := (h.1 (til (.tdrop 1) (setD [(1, { tile 1 1 with state := 1, thk := 5 })])) _ (tilReady _ _ _ rfl rfl rfl)).2.2.2.1 1 rfl (by decide)
  ⟨_, e⟩
theorem witness_tmode (h : DescriptorsAreSetAndRead) : ∃ t, exec (.tmode true false) (til (.tmode true false)) = .next t :=
  ⟨_, (h.1 (til (.tmode true false)) _ (tilReady _ id _ rfl rfl rfl)).2.2.2.2.2 true false rfl⟩
theorem witness_tstat (h : DescriptorsAreSetAndRead) : ∃ t, exec (.tstat 1 0) (til (.tstat 1 0)) = .next t :=
  ⟨_, h.2 (til (.tstat 1 0)) _ _ 1 0 (tilReady _ id _ rfl rfl rfl) rfl (by decide) rfl⟩
theorem witness_tmma (h : ComputeFormsAppendThunks) :
    ∃ t, exec (.tmma 1 2 3 mmAcc) (til (.tmma 1 2 3 mmAcc)
      (setD [(1, tile 2 3), (2, tile 2 4 0x30000), (3, tile 4 3 0x40000)])) = .next t :=
  let s := til (.tmma 1 2 3 mmAcc) (setD [(1, tile 2 3), (2, tile 2 4 0x30000), (3, tile 4 3 0x40000)])
  let ⟨_, _, e, _⟩ := h s _ 1 _ _ _ _ (tilReady _ _ _ rfl rfl rfl) rfl (by decide) (by unfold sizeOk; decide) (by unfold sizeOk; decide)
    (fun _ h => nomatch h) (by decide) (by decide) (by decide)
  ⟨_, e⟩

theorem ok_of {ε α σ : Type} (x : Except ε α × σ) (h : x.1.toOption.isSome = true) : ∃ a, x.1.toOption = some a ∧ x = (.ok a, x.2) := by
  obtain ⟨x, y⟩ := x
  cases x with
  | error _ => exact nomatch h
  | ok a => exact ⟨a, rfl, rfl⟩
theorem witness_force (h : Obligations.DemandsComputeTheirSubTiles) : ∃ t, exec (.force 1 0 1 0 1) (til (.force 1 0 1 0 1)) = .next t :=
  ⟨_, (h.1 (til (.force 1 0 1 0 1)) _ (tilReady _ id _ rfl rfl rfl)).1 1 0 1 0 1 rfl (by decide)⟩
theorem witness_forceShape (h : Obligations.DemandsComputeTheirSubTiles) :
    ∃ t, exec (.force 1 2 1 0 1) (til (.force 1 2 1 0 1) (setD [(1, { tile 64 1 with state := 1 })])) = .next t :=
  ⟨_, (h.1 (til (.force 1 2 1 0 1) (setD [(1, { tile 64 1 with state := 1 })])) _ (tilReady _ _ _ rfl rfl rfl)).2.1 1 2 1 0 1 rfl (by decide) (by decide)⟩
theorem witness_forceDone (h : Obligations.DemandsComputeTheirSubTiles) :
    ∃ t, exec (.force 1 0 1 0 1) (til (.force 1 0 1 0 1) (setD [(1, { tile 64 1 with state := 1 })])) = .next t :=
  ⟨_, (h.1 (til (.force 1 0 1 0 1) (setD [(1, { tile 64 1 with state := 1 })])) _ (tilReady _ _ _ rfl rfl rfl)).2.2.1 1 0 1 0 1 rfl (by decide)
    (by decide) (by decide) (by decide)⟩
theorem witness_tstOne (h : Obligations.DemandsComputeTheirSubTiles) : ∃ t, exec (.tst 1 1) (til (.tst 1 1)) = .next t :=
  ⟨_, (h.1 (til (.tst 1 1)) _ (tilReady _ id _ rfl rfl rfl)).2.2.2.1 1 rfl (by decide)⟩
/-- A thunk that copies one element. -/
def copyThunk : Thunk := { idx := 0, seq := 1, ins := .tcpy 1 2, out := tile 1 1, srcs := [{ desc := tile 1 1 0x30000 }] }
/-- A state with one thunk, whose descriptor names it, and an entry of TIL. -/
def thunked (k : Thunk) (i : Instr) : State :=
  acting ((w.withRegs (setD [(1, { tile 1 1 with state := 1 })])).withTask fun t => { t with thunks := [k] }) (entry .til i)
theorem witness_tstDone (h : Obligations.DemandsComputeTheirSubTiles) :
    ∃ t, exec (.tst 1 1) (thunked { copyThunk with done := 1 } (.tst 1 1)) = .next t :=
  ⟨_, (h.1 (thunked { copyThunk with done := 1 } (.tst 1 1)) (entry .til (.tst 1 1)) ⟨ready_of rfl rfl rfl rfl rfl rfl, rfl, rfl, rfl, by decide⟩).2.2.2.2.1
    1 { copyThunk with done := 1 } rfl (by decide) (by decide) (by decide +kernel)⟩
theorem witness_tflush (h : Obligations.DemandsComputeTheirSubTiles) : ∃ t, exec .tflush (til .tflush) = .next t :=
  ⟨_, (h.1 (til .tflush) _ (tilReady _ id _ rfl rfl rfl)).2.2.2.2.2 rfl (fun _ h => nomatch h)⟩
/-- The fault record of the thunk's sub-tile. -/
def subInfo : FaultInfo := { (entry .til (.tst 1 1)).info with thk := BitVec.ofNat 64 (2 ^ 63 + 1), tag := 0, queue := some (0, 2, 0) }
/-- The thunk's demand is served. -/
def served : State := (thunked copyThunk (.tst 1 1)).withTask servesTil
theorem landsNow_thunked : LandsNow (thunked copyThunk (.tst 1 1)) := ⟨by intro k; cases k <;> decide, fun _ h => (nomatch h), rfl, rfl⟩
theorem witness_matrix (h : Obligations.DemandsComputeTheirSubTiles) :
    ∃ t, exec .matrixCommandComplete (thunked copyThunk (.tst 1 1)) = .next t := by
  obtain ⟨⟨n, ps⟩, hv, e1⟩ := ok_of ((subTilePuts subInfo copyThunk (copyThunk.out.subRect 0 0)).run.run served)
    (by decide +kernel)
  obtain ⟨rfl, rfl⟩ := Prod.mk.inj (Option.some.inj (hv.symm.trans (show _ = some (32, [⟨fetchLeaf ||| 0x18, ⟨0x20000, 0⟩, 0⟩]) by decide +kernel)))
  obtain ⟨⟨⟩, -, e2⟩ := ok_of ((writePuts subInfo 32 [⟨fetchLeaf ||| 0x18, ⟨0x20000, 0⟩, 0⟩]).run.run
    ((subTilePuts subInfo copyThunk (copyThunk.out.subRect 0 0)).run.run served).2) (by decide +kernel)
  obtain ⟨t, e, -⟩ := h.2.1 (thunked copyThunk (.tst 1 1)) _ _ 0 (entry .til (.tst 1 1)) [] 0 0 0 32 [] copyThunk
    [⟨fetchLeaf ||| 0x18, ⟨0x20000, 0⟩, 0⟩] subInfo rfl rfl rfl rfl rfl landsNow_thunked (.inl rfl)
    (by decide +kernel) rfl (fun _ h _ => List.mem_singleton.1 h) rfl e1 e2 (by decide +kernel) (by decide +kernel) (by decide +kernel) (by decide +kernel)
    (by decide +kernel)
  exact ⟨t, e⟩
/-- A matrix thunk that waits for a semaphore. -/
def waitThunk : Thunk := { copyThunk with ins := .tmma 1 2 3 { mmAcc with wait := some 3 } }
/-- A demand that waits for it. -/
def thunkWaits : State :=
  queuing ((w.withRegs fun g => { g with sm := g.sm.set 3 1 }).withTask fun t => { t with thunks := [waitThunk] })
    { entry .til (.tst 1 1) with waited := 1, waitThk := some 0 }
theorem witness_thunkWait (h : Obligations.DemandsComputeTheirSubTiles) : ∃ t, exec .thunkSemWait thunkWaits = .next t :=
  ⟨_, h.2.2 thunkWaits 0 _ [] 0 waitThunk 3 rfl (untraced_of rfl rfl) rfl (by intro j; cases j <;> first | exact fun h => absurd rfl h | exact fun _ => rfl)
    rfl (by decide) rfl rfl rfl (by decide) rfl⟩

theorem oneTile {s : State} {d : TReg} {base : Word} (hp : PagedBy usedLeaf s) (hc : s.cur.pool.ctx = 1) (hd : descIn s d = tile 1 1 base)
    (wr : Bool) (hv : (holderOf (tile 1 1 base) 32 0 0).toNat < 2 ^ 21)
    (ha : (holderOf (tile 1 1 base) 32 0 0).toNat % alignUnit 32 = 0 ∧
      (holderOf (tile 1 1 base) 32 0 0).toNat % pageBytes (leafSz usedLeaf) + holder 32 ≤ pageBytes (leafSz usedLeaf)) :
    TileOk s (descIn s d) 32 .fp32 (fun _ _ => usedLeaf) wr := by
  rw [hd]
  intro i j hi hj
  obtain rfl : i = 0 := Nat.lt_one_iff.1 hi
  obtain rfl : j = 0 := Nat.lt_one_iff.1 hj
  exact ⟨hc ▸ hp.maps hv, by decide, by decide, by decide, by decide, rfl, by decide, fun _ => ⟨by decide, by decide⟩, ha.1, ha.2⟩
theorem holds_one {s : State} {d : TReg} {base : Word} (hp : PagedBy usedLeaf s) (hc : s.cur.pool.ctx = 1) (hd : descIn s d = tile 1 1 base)
    (hv : (holderOf (tile 1 1 base) 32 0 0).toNat < 2 ^ 21)
    (ha : (holderOf (tile 1 1 base) 32 0 0).toNat % alignUnit 32 = 0 ∧
      (holderOf (tile 1 1 base) 32 0 0).toNat % pageBytes (leafSz usedLeaf) + holder 32 ≤ pageBytes (leafSz usedLeaf)) {x : Nat}
    (hx : HoldsBits s usedLeaf (rowOf (tile 1 1 base) 0) 0 32 x) :
    TileHolds s (descIn s d) 32 .fp32 (fun _ _ => usedLeaf) (fun _ _ => x) := by
  refine ⟨oneTile hp hc hd false hv ha, ?_⟩
  rw [hd]
  intro i j hi hj
  obtain rfl : i = 0 := Nat.lt_one_iff.1 hi
  obtain rfl : j = 0 := Nat.lt_one_iff.1 hj
  exact hx
theorem bit_one {s : State} {d : TReg} {base : Word} {a0 : Nat} (hd : descIn s d = tile 1 1 base)
    (hb : ∀ b < 32, placeOf usedLeaf (rowOf (tile 1 1 base) 0 + BitVec.ofNat 64 ((32 * 0 + b) / 8)) s.cur.cluster = (.hbm, a0 + b / 8))
    {i j b a k : Nat} (h : TileBit s (descIn s d) 32 (fun _ _ => usedLeaf) i j b a k) : i = 0 ∧ j = 0 ∧ b < 32 ∧ a = a0 + b / 8 ∧ k = b % 8 := by
  rw [hd] at h
  obtain ⟨hi, hj, hx, hq, hk⟩ := h
  obtain rfl : i = 0 := Nat.lt_one_iff.1 hi
  obtain rfl : j = 0 := Nat.lt_one_iff.1 hj
  rw [hb b hx] at hq
  exact ⟨rfl, rfl, hx, (Prod.mk.inj hq).2.symm, by omega⟩
theorem target_one {s : State} {d : TReg} {base : Word} {a0 : Nat} (hp : PagedBy usedLeaf s) (hc : s.cur.pool.ctx = 1) (hd : descIn s d = tile 1 1 base)
    (hv : (holderOf (tile 1 1 base) 32 0 0).toNat < 2 ^ 21)
    (ha : (holderOf (tile 1 1 base) 32 0 0).toNat % alignUnit 32 = 0 ∧
      (holderOf (tile 1 1 base) 32 0 0).toNat % pageBytes (leafSz usedLeaf) + holder 32 ≤ pageBytes (leafSz usedLeaf))
    (hb : ∀ b < 32, placeOf usedLeaf (rowOf (tile 1 1 base) 0 + BitVec.ofNat 64 ((32 * 0 + b) / 8)) s.cur.cluster = (.hbm, a0 + b / 8)) (h0 : 0x5000 ≤ a0) :
    TileTarget s (descIn s d) 32 .fp32 (fun _ _ => usedLeaf) := by
  refine ⟨oneTile hp hc hd true hv ha, fun i j b i' j' b' a k x y => ?_, fun m c va hx hm => ?_⟩
  · have := bit_one hd hb x; have := bit_one hd hb y; omega
  · obtain ⟨⟨c', hc', hr⟩, -, ht⟩ := hp
    rw [hc] at hx
    cases hx.symm.trans hc'
    rw [hr]
    exact walk_congr (ht.agree fun j p q => hm j fun i' j' b k x => by have := bit_one hd hb x; omega) ht va
theorem walk_step {m : Mem} {va level table next : Nat} {r : Word × Nat} (hz : ∀ i < 512, i ≠ 0 → Mem.num m (table + i * 8) 8 = 0)
    (hn : Mem.num m table 8 = next * 2 ^ 24 + 1) (hp : leafPfn (BitVec.ofNat 64 (next * 2 ^ 24 + 1)) * 4096 = next * 4096)
    (hb : ¬ (leafSz (BitVec.ofNat 64 (next * 2 ^ 24 + 1)) = 2 ∨ leafSz (BitVec.ofNat 64 (next * 2 ^ 24 + 1)) = 3))
    (h : walkFrom m va (level + 1) table = .ok r) : va / 2 ^ (12 + 9 * (level + 1)) % 512 = 0 ∧ walkFrom m va level (next * 4096) = .ok r := by
  rw [walkFrom] at h
  by_cases hi : va / 2 ^ (12 + 9 * (level + 1)) % 512 = 0
  · rw [hi, Nat.zero_mul, Nat.add_zero, hn, hp] at h
    split at h
    · exact nomatch h
    · rw [if_neg (by omega)] at h
      split at h
      · exact nomatch h
      · exact ⟨hi, h⟩
  · rw [hz _ (Nat.mod_lt _ (by decide)) hi, if_pos (by decide)] at h
    exact nomatch h
/-- Only the addresses below 2 MiB are mapped. -/
theorem walk_only {l : Word} {m : Mem} (t : Tabled l m) {va : Word} {r : Word × Nat} (h : walkTables m 0x1000 va = .ok r) :
    va.toNat < 2 ^ 21 ∧ r = (l, 0x4000) := by
  obtain ⟨-, -, k, -⟩ := id t
  have low : ∀ a, 0x1000 ≤ a → a + 8 ≤ 0x4000 → Mem.num m a 8 = Mem.num w.hbm a 8 := fun a x y => num_congr fun j p q => k j (by omega) (by omega)
  rw [walkTables] at h
  by_cases hc : canonical va = true
  · rw [if_pos hc] at h
    obtain ⟨i4, h⟩ := walk_step (next := 2) (fun i hi hz => (low _ (by omega) (by omega)).trans (w_zeros i hi hz).1)
      ((low _ (by omega) (by omega)).trans w_table4) (by decide) (by decide) h
    obtain ⟨i3, h⟩ := walk_step (next := 3) (fun i hi hz => (low _ (by omega) (by omega)).trans (w_zeros i hi hz).2.1)
      ((low _ (by omega) (by omega)).trans w_table3) (by decide) (by decide) h
    obtain ⟨i2, h⟩ := walk_step (next := 4) (fun i hi hz => (low _ (by omega) (by omega)).trans (w_zeros i hi hz).2.2.1)
      ((low _ (by omega) (by omega)).trans w_table2) (by decide) (by decide) h
    rw [walk_leaf t] at h
    split at h
    · rename_i i1
      refine ⟨?_, (Except.ok.inj h).symm⟩
      have hv := va.isLt
      have c : va.toNat / 2 ^ 56 % 2 ^ 8 = 0 ∨ va.toNat / 2 ^ 56 % 2 ^ 8 = 255 := by
        simp only [canonical, Bool.or_eq_true, beq_iff_eq] at hc
        refine hc.imp (fun e => ?_) (fun e => ?_) <;>
        · have := congrArg BitVec.toNat e
          simpa [BitVec.extractLsb'_toNat, Nat.shiftRight_eq_div_pow] using this
      omega
    · exact nomatch h
  · rw [if_neg hc] at h
    exact nomatch h
theorem pagesWhole_of {l : Word} {s : State} (h : PagedBy l s) (hc : s.cur.pool.ctx = 1) : PagesWhole s := by
  intro va va' leaf hm hp
  rw [hc] at hm ⊢
  obtain ⟨pa, hl⟩ := hm
  obtain ⟨⟨c, hc', hr⟩, -, ht⟩ := id h
  simp only [State.lookup, hc', hr] at hl
  obtain ⟨hv, he⟩ := walk_only ht hl
  obtain ⟨rfl, -⟩ := Prod.mk.inj he
  refine h.maps ?_
  have hz := ht.1.2.1
  simp only [pageOf, hz, pageBytes] at hp
  omega
theorem current_of {l : Word} {s : State} (h : PagedBy l s) (hc : s.cur.pool.ctx = 1) (hq : s.accessQs = [])
    (hl : l.getLsbD 3 = true ∧ l.getLsbD 4 = true := by decide) : StreamsAreCurrent s := by
  refine ⟨pagesWhole_of h hc, fun va leaf hm => ?_, fun q hm => by rw [hq] at hm; nomatch hm⟩
  rw [hc] at hm
  obtain ⟨pa, hw⟩ := hm
  obtain ⟨⟨c, hc', hr⟩, -, ht⟩ := id h
  simp only [State.lookup, hc', hr] at hw
  obtain ⟨rfl, -⟩ := Prod.mk.inj (walk_only ht hw).2
  exact ⟨hl.1, fun _ => hl.2⟩
/-- A 1×1 tile at 0x20000 and one at 0x30000, and an entry of TIL. -/
def tiles : State := acting (wd.withRegs (setD [(1, tile 1 1), (2, tile 1 1 0x30000)])) (entry .til (.tst 2 1))
theorem paged_tiles : PagedBy usedLeaf tiles := paged_wd
theorem witness_tst (h : Obligations.TstCopiesItsTile) : ∃ t, exec (.tst 2 1) tiles = .next t :=
  let ⟨_, e, _⟩ := h tiles (entry .til (.tst 2 1)) 2 1 32 32 .fp32 .fp32 (fun _ _ => usedLeaf) (fun _ _ => usedLeaf) (fun _ _ => 0)
    ⟨ready_of rfl rfl rfl rfl rfl rfl, rfl, rfl, rfl, by decide⟩ (by decide) rfl memoryWf_wd (clear_of rfl rfl rfl ⟨rfl, rfl, rfl, rfl, rfl, rfl⟩) (current_of paged_tiles rfl rfl) rfl rfl (by decide) (by decide) rfl rfl
    (.inr (by decide +kernel)) (holds_one paged_tiles rfl rfl (by decide) (by decide) ⟨by decide, by decide +kernel⟩)
    (target_one paged_tiles rfl rfl (by decide) (by decide) (a0 := 0x220000) (by decide +kernel) (by decide))
    (by intro i j b i' j' b' a k k' x y
        have := bit_one (s := tiles) (d := 1) (base := 0x20000) (a0 := 0x220000) rfl (by decide +kernel) x
        have := bit_one (s := tiles) (d := 2) (base := 0x30000) (a0 := 0x230000) rfl (by decide +kernel) y
        omega)
  ⟨_, e⟩

/-- A thunk of an element form with one source, whose sub-tile a tst demands. -/
def formed (i : Instr) : State :=
  queuing ((wd.withRegs (setD [(1, { tile 1 1 with state := 1 }), (2, tile 1 1 0x30000), (3, tile 1 1)])).withTask fun t =>
    { t with thunks := [{ copyThunk with ins := i }] }) (entry .til (.tst 1 1))
theorem paged_formed (i : Instr) : PagedBy usedLeaf (formed i) := paged_wd
theorem formHolds (i : Instr) (hi : i = .tcpy 1 2 ∨ i = .tmap .relu 1 2) :
    HoldsItsForm { copyThunk with ins := i } [] fun t => if t = 2 then tile 1 1 0x30000 else tile 1 1 := by
  obtain rfl | rfl := hi <;> exact ⟨1, [(2, 0)], _, rfl, ⟨rfl, rfl⟩, rfl, rfl⟩
theorem witness_element (h : Obligations.ElementFormsComputeTheirSubTiles) (i : Instr) (hi : i = .tcpy 1 2 ∨ i = .tmap .relu 1 2) :
    ∃ t, exec .matrixCommandComplete (formed i) = .next t := by
  have c := h (formed i) 0 (entry .til (.tst 1 1)) [] 0 0 0 [] { copyThunk with ins := i } []
    (fun t => if t = 2 then tile 1 1 0x30000 else tile 1 1) 32 32 32 .fp32 .fp32 .fp32 (fun _ _ => usedLeaf) (fun _ _ => usedLeaf)
    (fun _ _ => usedLeaf) (fun _ _ => 0) (fun _ _ => 0) (fun _ _ => 0) (fun _ _ => 0)
    rfl rfl rfl (by obtain rfl | rfl := hi <;> decide +kernel) (.inl rfl) rfl rfl rfl
    (by obtain rfl | rfl := hi <;> exact ⟨by intro k; cases k <;> decide, fun _ h => (nomatch h), rfl, rfl⟩)
    rfl memoryWf_wd (unwatched_of rfl) rfl rfl rfl
    rfl (current_of (paged_formed i) rfl rfl) rfl (fun _ h _ => List.mem_singleton.1 h)
    (by obtain rfl | rfl := hi <;> decide) (by obtain rfl | rfl := hi <;> decide) (by obtain rfl | rfl := hi <;> decide) (formHolds i hi)
    (fun z hz => by cases List.mem_singleton.1 hz; decide)
    (fun z hz => by
      obtain rfl := Option.some.inj hz
      exact holds_one (d := 2) (paged_formed i) rfl rfl (by decide) (by decide) ⟨by decide, by obtain rfl | rfl := hi <;> decide +kernel⟩)
    (fun z hz => nomatch hz)
    (target_one (d := 3) (paged_formed i) rfl rfl (by decide) (by decide) (a0 := 0x220000) (by obtain rfl | rfl := hi <;> decide +kernel) (by decide))
    (hi.imp (fun e => ⟨1, 2, e, rfl, fun _ _ => ⟨rfl, rfl⟩⟩) fun e _ _ _ => ⟨_, _, by rw [e]; rfl, by decide +kernel, by decide +kernel⟩)
  exact let ⟨_, _, e, _⟩ := c; ⟨_, e⟩

/-- An entry of SKQ acts with a slot bound. -/
def skq (i : Instr) (x : Option Slot) (caps : List Word := []) : State :=
  acting (mem { wd with ctxs := [{ fetchCtx 1 with skBytes := 0x10000 }] }
    [(0x220000, 8, 0x21000), (0x220008, 8, 0x22000), (0x220010, 4, 1), (0x220014, 4, 1), (0x220018, 2, 2), (0x22001C, 2, 1)]
    |>.withRegs fun g => g.wrK 1 x) (entry .skq i caps)
/-- A slot of two 1×1 factors, empty. -/
def slot0 : Slot := { scb := { uva := 0x21000, vva := 0x22000, m := 1, n := 1, kcap := 2, klim := 1 }, va := 0x20000 }
theorem skqReady (i : Instr) (x : Option Slot) (caps : List Word) (hb : (skq i x caps).mayBegin (entry .skq i caps) = true)
    (ht : waitFifos .skq (Instr.tokens i) = []) (hg : (skq i x caps).cur.noRoom (entry .skq i caps) = false) :
    SkqReady (skq i x caps) (entry .skq i caps) := ⟨ready_of rfl rfl hb rfl ht hg rfl, rfl, rfl, rfl⟩
theorem memoryWf_skq (i : Instr) (x : Option Slot) (caps : List Word) : (skq i x caps).MemoryWf := memoryWf_mem (s := { wd with ctxs := _ }) memoryWf_wd _
theorem paged_skq (i : Instr) (x : Option Slot) (caps : List Word) : PagedBy usedLeaf (skq i x caps) :=
  PagedBy.mem (s := { wd with ctxs := [{ fetchCtx 1 with skBytes := 0x10000 }] }) ⟨⟨_, rfl, rfl⟩, paged_wd.2⟩ _ rfl
theorem clear_skq (i : Instr) (x : Option Slot) (caps : List Word) : (skq i x caps).Clear := clear_of rfl rfl rfl ⟨rfl, rfl, rfl, rfl, rfl, rfl⟩
theorem writable_skq (i : Instr) (x : Option Slot) (caps : List Word) {va : Word} {a n : Nat} (hv : va.toNat < 2 ^ 21)
    (hp : placeOf usedLeaf va (skq i x caps).cur.cluster = (.hbm, a)) (hr : va.toNat % pageBytes (leafSz usedLeaf) + n ≤ pageBytes (leafSz usedLeaf)) :
    WritableRun (skq i x caps) va usedLeaf a n :=
  ⟨(paged_skq i x caps).maps hv, by decide, by decide, by decide, by decide, by decide, hp, hr⟩
theorem apart_skq (i : Instr) (x : Option Slot) (caps : List Word) {F : Nat → Prop} (hf : ∀ a, F a → 0x5000 ≤ a) :
    TranslationApart (skq i x caps) F := by
  intro m c va hc hm
  obtain ⟨⟨c', hc', hr⟩, -, ht⟩ := paged_skq i x caps
  cases hc.symm.trans hc'
  rw [hr]
  exact walk_congr (ht.agree fun j _ q => hm j fun hj => by have := hf j hj; omega) ht va
theorem witness_skbind (h : Obligations.SlotsBindSaveAndUnbind) : ∃ t, exec (.skbind 1 6) (skq (.skbind 1 6) none [0x20000]) = .next t :=
  have rank0 : ∀ j, ¬ j < (scbAt (skq (.skbind 1 6) none [0x20000]) 0x220000).rank := fun j => by
    rw [show (scbAt (skq (.skbind 1 6) none [0x20000]) 0x220000).rank = 0 by decide +kernel]; exact Nat.not_lt_zero j
  let ⟨_, _, _, e, _⟩ := h.1 (skq (.skbind 1 6) none [0x20000]) (entry .skq (.skbind 1 6) [0x20000]) 1 6 0x20000 usedLeaf 0x220000 0 0
    { fetchCtx 1 with skBytes := 0x10000 } (fun _ _ _ => 0) (skqReady _ _ _ rfl rfl rfl) rfl rfl (memoryWf_skq ..) (pagesWhole_of (paged_skq ..) rfl)
    (clear_skq ..) rfl rfl (by decide) rfl (writable_skq _ _ _ (by decide) (by decide +kernel) (by decide)) (by unfold ScbFits; decide +kernel) rfl
    (by decide +kernel) (fun _ j _ hj => absurd hj (rank0 j)) (apart_skq _ _ _ fun _ h => by omega) (fun _ j _ _ _ hf => absurd hf.1 (rank0 j))
  ⟨_, e⟩
theorem witness_skinit (h : Obligations.SlotsBindSaveAndUnbind) : ∃ t, exec (.skinit 1) (skq (.skinit 1) (some slot0)) = .next t :=
  ⟨_, h.2.1 (skq (.skinit 1) (some slot0)) _ 1 slot0 (skqReady _ _ _ rfl rfl rfl) rfl rfl rfl⟩
theorem witness_sksave (h : Obligations.SlotsBindSaveAndUnbind) : ∃ t, exec (.sksave 1) (skq (.sksave 1) (some slot0)) = .next t :=
  let ⟨_, e, _⟩ := h.2.2.1 (skq (.sksave 1) (some slot0)) (entry .skq (.sksave 1)) 1 slot0 usedLeaf 0x220018 (fun _ _ _ => 0)
    (skqReady _ _ _ rfl rfl rfl) rfl (memoryWf_skq ..) (pagesWhole_of (paged_skq ..) rfl) (clear_skq ..) rfl rfl rfl
    ⟨rfl, fun _ h => nomatch h⟩ ⟨rfl, fun _ h => nomatch h⟩ (by decide) (by decide) (by decide) (by decide) (by decide)
    (writable_skq _ _ _ (by decide) (by decide +kernel) (by decide)) (fun _ _ _ h => nomatch h) (fun _ _ _ _ _ _ _ _ _ h => nomatch h.1)
    (fun _ _ _ _ _ h => nomatch h.1) (apart_skq _ _ _ fun _ h => h.elim (fun h => by omega) fun ⟨_, _, _, _, h⟩ => nomatch h.1)
  ⟨_, e⟩
theorem witness_skunbind (h : Obligations.SlotsBindSaveAndUnbind) : ∃ t, exec (.skunbind 1) (skq (.skunbind 1) (some slot0)) = .next t :=
  let ⟨_, _, e, _⟩ := h.2.2.2.1 (skq (.skunbind 1) (some slot0)) (entry .skq (.skunbind 1)) 1 slot0 _ usedLeaf 0x220038 (skqReady _ _ _ rfl rfl rfl)
    rfl (memoryWf_skq ..) (clear_skq ..) rfl rfl (writable_skq _ _ _ (by decide) (by decide +kernel) (by decide)) rfl
  ⟨_, e⟩
theorem witness_skde (h : Obligations.SlotsBindSaveAndUnbind) : ∃ t, exec (.skde 1) (skq (.skde 1) (some slot0)) = .next t :=
  ⟨_, (h.2.2.2.2.1 (skq (.skde 1) (some slot0)) _ (entry .skq (.skde 1)) 1 slot0 (skqReady _ _ _ rfl rfl rfl) rfl).1 rfl rfl⟩
theorem witness_skrank (h : Obligations.SlotsBindSaveAndUnbind) : ∃ t, exec (.skrank 1) (skq (.skrank 1) (some slot0)) = .next t :=
  ⟨_, (h.2.2.2.2.1 (skq (.skrank 1) (some slot0)) _ (entry .skq (.skrank 1)) 1 slot0 (skqReady _ _ _ rfl rfl rfl) rfl).2 rfl rfl⟩
theorem witness_skUnbound (h : Obligations.SlotsBindSaveAndUnbind) : ∃ t, exec (.skrank 1) (skq (.skrank 1) none) = .next t :=
  let ⟨_, _, _, _, e⟩ := h.2.2.2.2.2 (skq (.skrank 1) none) (entry .skq (.skrank 1)) 1 6 (skqReady _ _ _ rfl rfl rfl) rfl (by decide)
  ⟨_, e⟩
/-- An entry of SKQ acts with a slot bound and two tiles of one element. -/
def skt (i : Instr) (x : Slot) (caps : List Word := []) : State :=
  acting ((wd.withRegs (setD [(1, tile 1 1), (2, tile 1 1 0x30000)])).withRegs fun g => g.wrK 1 (some x)) (entry .skq i caps)
theorem paged_skt (i : Instr) (x : Slot) (caps : List Word) : PagedBy usedLeaf (skt i x caps) := paged_wd
theorem sktReady (i : Instr) (x : Slot) (caps : List Word) (hb : (skt i x caps).mayBegin (entry .skq i caps) = true)
    (ht : waitFifos .skq (Instr.tokens i) = []) (hg : (skt i x caps).cur.noRoom (entry .skq i caps) = false) :
    SkqReady (skt i x caps) (entry .skq i caps) := ⟨ready_of rfl rfl hb rfl ht hg rfl, rfl, rfl, rfl⟩
theorem witness_skapp (h : Obligations.SlotsAppendMergeAndShrink) : ∃ t, exec (.skapp .whole 1 1 2) (skt (.skapp .whole 1 1 2) slot0) = .next t :=
  let ⟨_, _, e, _⟩ := (h.1 (skt (.skapp .whole 1 1 2) slot0) (entry .skq (.skapp .whole 1 1 2)) .whole 1 1 2 slot0 32 32 1 .fp32 .fp32
    (fun _ _ => usedLeaf) (fun _ _ => usedLeaf) (fun _ _ => 0) (fun _ _ => 0) (sktReady _ _ _ rfl rfl rfl) rfl memoryWf_wd (clear_of rfl rfl rfl ⟨rfl, rfl, rfl, rfl, rfl, rfl⟩)
    rfl rfl rfl rfl (by decide) (by decide) (by decide) (holds_one (paged_skt ..) rfl rfl (by decide) (by decide) ⟨by decide, by decide +kernel⟩)
    (holds_one (paged_skt ..) rfl rfl (by decide) (by decide) ⟨by decide, by decide +kernel⟩)).2 _ _ (.inl ⟨rfl, rfl, rfl, rfl, by decide, rfl, rfl⟩)
  ⟨_, e⟩

/-- A slot of 2×2 that has room for one more row of its columns. -/
def slot1 : Slot := { slot0 with scb := { slot0.scb with m := 2, n := 2 } }
theorem witness_skappFirst (h : Obligations.SlotsAppendMergeAndShrink) : ∃ t, exec (.skapp .first 1 1 2) (skt (.skapp .first 1 1 2) slot1) = .next t :=
  let ⟨_, e, _⟩ := (h.1 (skt (.skapp .first 1 1 2) slot1) (entry .skq (.skapp .first 1 1 2)) .first 1 1 2 slot1 32 32 1 .fp32 .fp32
    (fun _ _ => usedLeaf) (fun _ _ => usedLeaf) (fun _ _ => 0) (fun _ _ => 0) (sktReady _ _ _ rfl rfl rfl) rfl memoryWf_wd (clear_of rfl rfl rfl ⟨rfl, rfl, rfl, rfl, rfl, rfl⟩)
    rfl rfl rfl rfl (by decide) (by decide) (by decide) (holds_one (paged_skt ..) rfl rfl (by decide) (by decide) ⟨by decide, by decide +kernel⟩)
    (holds_one (paged_skt ..) rfl rfl (by decide) (by decide) ⟨by decide, by decide +kernel⟩)).1 rfl rfl (by decide) (by decide) (by decide)
  ⟨_, e⟩
/-- That slot with half a column open. -/
def slot2 : Slot := { slot1 with opened := 1, u := [[0x3F800000]], v := [[0x40000000]] }
theorem witness_skappLast (h : Obligations.SlotsAppendMergeAndShrink) : ∃ t, exec (.skapp .last 1 1 2) (skt (.skapp .last 1 1 2) slot2) = .next t :=
  let ⟨_, _, e, _⟩ := (h.1 (skt (.skapp .last 1 1 2) slot2) (entry .skq (.skapp .last 1 1 2)) .last 1 1 2 slot2 32 32 1 .fp32 .fp32
    (fun _ _ => usedLeaf) (fun _ _ => usedLeaf) (fun _ _ => 0) (fun _ _ => 0) (sktReady _ _ _ rfl rfl rfl) rfl memoryWf_wd (clear_of rfl rfl rfl ⟨rfl, rfl, rfl, rfl, rfl, rfl⟩)
    rfl rfl rfl rfl (by decide) (by decide) (by decide) (holds_one (paged_skt ..) rfl rfl (by decide) (by decide) ⟨by decide, by decide +kernel⟩)
    (holds_one (paged_skt ..) rfl rfl (by decide) (by decide) ⟨by decide, by decide +kernel⟩)).2 _ _
    (.inr ⟨rfl, rfl, rfl, rfl, by decide, by decide, rfl, rfl⟩)
  ⟨_, e⟩
/-- A slot of 1×1 with one column. -/
def slot3 : Slot := { slot0 with scb := { slot0.scb with rank := 1 }, u := [[0x3F800000]], v := [[0x40000000]] }
theorem witness_skmrg (h : Obligations.SlotsAppendMergeAndShrink) : ∃ t, exec (.skmrg 1 1) (skt (.skmrg 1 1) slot3) = .next t :=
  let ⟨_, _, e, _⟩ := ((h.2.1 (skt (.skmrg 1 1) slot3) (entry .skq (.skmrg 1 1)) 1 1 slot3 slot3 (sktReady _ _ _ rfl rfl rfl) rfl rfl rfl).2 rfl rfl rfl rfl
    rfl).1 (by decide)
  ⟨_, e⟩
/-- A second slot, with half a column open. -/
def sktOpen : State := acting ((wd.withRegs fun g => g.wrK 1 (some slot3)).withRegs fun g => g.wrK 2 (some slot2)) (entry .skq (.skmrg 1 2))
theorem witness_skmrgOpen (h : Obligations.SlotsAppendMergeAndShrink) : ∃ t, exec (.skmrg 1 2) sktOpen = .next t :=
  let ⟨_, _, _, e⟩ := (h.2.1 sktOpen (entry .skq (.skmrg 1 2)) 1 2 slot3 slot2 ⟨ready_of rfl rfl rfl rfl rfl rfl, rfl, rfl, rfl⟩ rfl rfl rfl).1 (by decide) rfl
  ⟨_, e⟩
theorem witness_skmrgFull (h : Obligations.SlotsAppendMergeAndShrink) :
    ∃ t, exec (.skmrg 1 1) (skt (.skmrg 1 1) { slot3 with scb := { slot3.scb with rank := 2 } }) = .next t :=
  let ⟨_, _, _, e⟩ := ((h.2.1 (skt (.skmrg 1 1) { slot3 with scb := { slot3.scb with rank := 2 } }) (entry .skq (.skmrg 1 1)) 1 1 _ _
    (sktReady _ _ _ rfl rfl rfl) rfl rfl rfl).2 rfl rfl rfl rfl rfl).2 (by decide)
  ⟨_, e⟩
theorem witness_skshr (h : Obligations.SlotsAppendMergeAndShrink) : ∃ t, exec (.skshr 1 6) (skt (.skshr 1 6) slot3 [0]) = .next t :=
  let ⟨_, _, e, _⟩ := (h.2.2 (skt (.skshr 1 6) slot3 [0]) (entry .skq (.skshr 1 6) [0]) 1 6 slot3 0 (sktReady _ _ _ rfl rfl rfl) rfl rfl rfl rfl).2 (by decide)
  ⟨_, e⟩
theorem columns_one {c : Scb} {z : Lane} (hf : c.sfl.getLsbD 1 = false) : Columns c [[z]] 1 1 := by
  have hb : factorBits c = 32 := if_neg (by rw [hf]; exact Bool.false_ne_true)
  refine ⟨rfl, fun col h => ?_⟩
  obtain rfl := List.mem_singleton.1 h
  exact ⟨rfl, fun x _ => by rw [hb]; exact x.isLt⟩
theorem witness_skrdEmpty (h : Obligations.SlotsAreReadOutAndApplied) : ∃ t, exec (.skrd false 1 1 6) (skt (.skrd false 1 1 6) slot0 [0]) = .next t :=
  ⟨_, h.1 (skt (.skrd false 1 1 6) slot0 [0]) (entry .skq (.skrd false 1 1 6) [0]) false 1 1 6 slot0 (sktReady _ _ _ rfl rfl rfl) rfl rfl rfl rfl⟩
theorem witness_skrd (h : Obligations.SlotsAreReadOutAndApplied) : ∃ t, exec (.skrd false 1 1 6) (skt (.skrd false 1 1 6) slot3 [0]) = .next t :=
  let ⟨_, e, _⟩ := h.2.1 (skt (.skrd false 1 1 6) slot3 [0]) (entry .skq (.skrd false 1 1 6) [0]) false 1 1 6 slot3 0 32 .fp32 (fun _ _ => usedLeaf)
    (sktReady _ _ _ rfl rfl rfl) rfl rfl memoryWf_wd (clear_of rfl rfl rfl ⟨rfl, rfl, rfl, rfl, rfl, rfl⟩) rfl rfl rfl (by decide) (by decide) (by decide) (by decide)
    (by decide) (target_one (paged_skt ..) rfl rfl (by decide) (by decide) (a0 := 0x220000) (by decide +kernel) (by decide)) (columns_one rfl)
  ⟨_, e⟩
theorem witness_skapply (h : Obligations.SlotsAreReadOutAndApplied) :
    ∃ t, exec (.skapply 1 1 6 0x3F800000) (skt (.skapply 1 1 6 0x3F800000) slot3 [0]) = .next t :=
  let ⟨_, e, _⟩ := (h.2.2 (skt (.skapply 1 1 6 0x3F800000) slot3 [0]) (entry .skq (.skapply 1 1 6 0x3F800000) [0]) 1 1 6 0x3F800000 slot3 0 32 0 0 .fp32
    (fun _ _ => usedLeaf) (fun _ _ => 0) (sktReady _ _ _ rfl rfl rfl) rfl rfl memoryWf_wd (clear_of rfl rfl rfl ⟨rfl, rfl, rfl, rfl, rfl, rfl⟩) rfl rfl rfl rfl rfl
    (by decide) (by decide) (by decide) (by decide) (columns_one rfl) (columns_one rfl)).2 (by decide) (by decide) (by decide)
    (target_one (paged_skt ..) rfl rfl (by decide) (by decide) (a0 := 0x220000) (by decide +kernel) (by decide))
    (holds_one (paged_skt ..) rfl rfl (by decide) (by decide) ⟨by decide, by decide +kernel⟩)
  ⟨_, e⟩

/-- An entry of ATM with a handle acts on the machine with some memory. -/
def atm (i : Instr) (xs : List (Nat × Nat × Nat)) (caps : List Word := []) : State := hact .atm i xs caps
/-- Its entry. -/
def atmEntry (i : Instr) (caps : List Word := []) : Entry := entry .atm i caps (some (hd 0x30000))
theorem atmReady (i : Instr) (xs : List (Nat × Nat × Nat)) (caps : List Word) (hb : (atm i xs caps).mayBegin (atmEntry i caps) = true)
    (ht : waitFifos .atm (Instr.tokens i) = []) (hg : (atm i xs caps).cur.noRoom (atmEntry i caps) = false) :
    AtmReady (atm i xs caps) (atmEntry i caps) := ⟨ready_of rfl rfl hb rfl ht hg rfl, rfl, rfl⟩
theorem atmServes (i : Instr) (xs : List (Nat × Nat × Nat)) (caps : List Word) (ho : (atmEntry i caps).outside fetchLeaf 0x30000 = none) :
    (atm i xs caps).Serves (atmEntry i caps) fetchLeaf 0x30000 := serves_of (clear_hact ..) rfl ho (by decide) (by decide) (by decide)
/-- No order. -/
def o0 : AtOrd := { kind := none, scope := .dev }
theorem witness_atom (h : Obligations.AtomicsReplaceTheirWord) :
    ∃ t, exec (.atom .add true 3 6 o0 8) (atm (.atom .add true 3 6 o0 8) [(0x230008, 8, 9)] [7]) = .next t :=
  let ⟨_, e, _⟩ := h.1 (atm (.atom .add true 3 6 o0 8) [(0x230008, 8, 9)] [7]) _ (atmEntry (.atom .add true 3 6 o0 8) [7]) fetchLeaf 0x30000 0x30008 true 64 9
    8 _ (atmReady _ _ _ rfl rfl rfl) (memoryWf_hact ..) rfl (atmServes _ _ _ (by decide +kernel)) (by decide) (by decide) ⟨by decide, by decide +kernel⟩ rfl
  ⟨_, e⟩
theorem witness_fatomnr (h : Obligations.AtomicsReplaceTheirWord) :
    ∃ t, exec (.fatomnr .faddbf2 3 6 o0 8) (atm (.fatomnr .faddbf2 3 6 o0 8) [(0x230008, 8, 9)] [7]) = .next t :=
  let ⟨_, e, _⟩ := h.1 (atm (.fatomnr .faddbf2 3 6 o0 8) [(0x230008, 8, 9)] [7]) _ (atmEntry (.fatomnr .faddbf2 3 6 o0 8) [7]) fetchLeaf 0x30000 0x30008 false
    32 9 8 _ (atmReady _ _ _ rfl rfl rfl) (memoryWf_hact ..) rfl (atmServes _ _ _ (by decide +kernel)) (by decide) (by decide) ⟨by decide, by decide +kernel⟩
    rfl
  ⟨_, e⟩
theorem witness_cas (h : Obligations.AtomicsReplaceTheirWord) :
    ∃ t, exec (.cas false 3 6 7 o0 4) (atm (.cas false 3 6 7 o0 4) [(0x230004, 4, 9)] [9, 7]) = .next t :=
  let ⟨_, e, _⟩ := h.1 (atm (.cas false 3 6 7 o0 4) [(0x230004, 4, 9)] [9, 7]) _ (atmEntry (.cas false 3 6 7 o0 4) [9, 7]) fetchLeaf 0x30000 0x30004 true 32 9
    4 _ (atmReady _ _ _ rfl rfl rfl) (memoryWf_hact ..) rfl (atmServes _ _ _ (by decide +kernel)) (by decide) (by decide) ⟨by decide, by decide +kernel⟩ rfl
  ⟨_, e⟩
theorem witness_atomAlign (h : Obligations.AtomicsReplaceTheirWord) :
    ∃ t, exec (.atom .add true 3 6 o0 4) (atm (.atom .add true 3 6 o0 4) [] [7]) = .next t :=
  ⟨_, h.2.1 (atm (.atom .add true 3 6 o0 4) [] [7]) (atmEntry (.atom .add true 3 6 o0 4) [7]) fetchLeaf 0x30000 0x30004 true 64 4 _
    (atmReady _ _ _ rfl rfl rfl) rfl (atmServes _ _ _ (by decide +kernel)) (by decide) (by decide)⟩
theorem witness_afence (h : Obligations.AtomicsReplaceTheirWord) : ∃ t, exec .afence (acting w (entry .atm .afence [3])) = .next t :=
  ⟨_, h.2.2 (acting w (entry .atm .afence [3])) _ (entry .atm .afence [3]) 3 ⟨ready_of rfl rfl rfl rfl rfl rfl, rfl, rfl⟩ rfl rfl (untraced_of rfl rfl)
    (fun _ h => nomatch h) rfl⟩
/-- Lanes 2 and 3 of a continuation atomic on the word after the handle's base. -/
def kx : KExt := { off8 := 1, ar := false, sys := false, cond := .geu, tpl := 5, user := 9 }
theorem witness_atomk (h : Obligations.ContinuationsLaunchAtTheirHome) :
    ∃ t, exec (.atomk .add true 3 6 7 kx) (atm (.atomk .add true 3 6 7 kx) [(0x230008, 8, 9)] [5, 7]) = .next t :=
  let ⟨_, _, e, _⟩ := (h.1 (atm (.atomk .add true 3 6 7 kx) [(0x230008, 8, 9)] [5, 7]) (atmEntry (.atomk .add true 3 6 7 kx) [5, 7]) fetchLeaf 0x30000
    0x30008 64 0x230008 9 kx _ (atmReady _ _ _ rfl rfl rfl) (memoryWf_hact ..) rfl (atmServes _ _ _ (by decide +kernel)) (by decide) (by decide)
    (by decide) (by decide +kernel) (by decide +kernel)).1 _ (by decide +kernel) (show 5 ≤ 9 by decide) rfl
  ⟨_, e⟩
theorem witness_cask (h : Obligations.ContinuationsLaunchAtTheirHome) :
    ∃ t, exec (.cask true 3 6 7 kx) (atm (.cask true 3 6 7 kx) [(0x230008, 8, 9)] [10, 7]) = .next t :=
  let ⟨_, e, _⟩ := (h.1 (atm (.cask true 3 6 7 kx) [(0x230008, 8, 9)] [10, 7]) (atmEntry (.cask true 3 6 7 kx) [10, 7]) fetchLeaf 0x30000
    0x30008 64 0x230008 9 kx _ (atmReady _ _ _ rfl rfl rfl) (memoryWf_hact ..) rfl (atmServes _ _ _ (by decide +kernel)) (by decide) (by decide)
    (by decide) (by decide +kernel) (by decide +kernel)).2.1 _ (by decide +kernel) (show ¬ 10 ≤ 9 by decide) rfl
  ⟨_, e⟩
/-- A home whose launch queue is full. -/
def fullHome (s : State) (home : Nat) : State :=
  { s with clq := (List.range 32).map fun i =>
      { home, slot := i, die := 0, ctx := 1, tpl := none, old := 0, va := 0, issuerNode := 0, issuerRcb := 0, ttbl := 0 } }
theorem witness_atomkFull (h : Obligations.ContinuationsLaunchAtTheirHome) :
    ∃ t, exec (.atomk .add true 3 6 7 kx) (fullHome (atm (.atomk .add true 3 6 7 kx) [(0x230008, 8, 9)] [5, 7]) (homeAgent fetchLeaf 0x230008)) = .next t :=
  ⟨_, (h.1 (fullHome (atm (.atomk .add true 3 6 7 kx) [(0x230008, 8, 9)] [5, 7]) (homeAgent fetchLeaf 0x230008)) (atmEntry (.atomk .add true 3 6 7 kx) [5, 7])
    fetchLeaf 0x30000 0x30008 64 0x230008 9 kx _ ⟨ready_of rfl rfl (by decide +kernel) rfl rfl (by decide +kernel), rfl, rfl⟩ (memoryWf_hact ..) rfl
    (atmServes _ [(0x230008, 8, 9)] _ (by decide +kernel)) (by decide) (by decide) (by decide) (by decide +kernel) (by decide +kernel)).2.2 _
    (by decide +kernel) rfl⟩
theorem witness_dcdec (h : Obligations.ContinuationsLaunchAtTheirHome) :
    ∃ t, exec (.dcdec 3 8) (atm (.dcdec 3 8) [(0x230008, 8, 1)]) = .next t :=
  let ⟨_, _, e, _⟩ := (h.2 (atm (.dcdec 3 8) [(0x230008, 8, 1)]) (atmEntry (.dcdec 3 8)) 3 8 fetchLeaf 0x30000 0x30008 0x230008 1
    (atmReady _ _ _ rfl rfl rfl) (memoryWf_hact ..) rfl (atmServes _ _ _ (by decide +kernel)) (by decide) (by decide) (by decide) (by decide +kernel)
    (by decide +kernel)).1 _ (by decide +kernel) (by decide) rfl
  ⟨_, e⟩
theorem witness_dcdecFull (h : Obligations.ContinuationsLaunchAtTheirHome) :
    ∃ t, exec (.dcdec 3 8) (fullHome (atm (.dcdec 3 8) [(0x230008, 8, 1)]) (homeAgent fetchLeaf 0x230008)) = .next t :=
  ⟨_, (h.2 (fullHome (atm (.dcdec 3 8) [(0x230008, 8, 1)]) (homeAgent fetchLeaf 0x230008)) (atmEntry (.dcdec 3 8)) 3 8 fetchLeaf 0x30000 0x30008 0x230008 1
    ⟨ready_of rfl rfl (by decide +kernel) rfl rfl (by decide +kernel), rfl, rfl⟩ (memoryWf_hact ..) rfl (atmServes _ [(0x230008, 8, 1)] _ (by decide +kernel)) (by decide) (by decide)
    (by decide) (by decide +kernel) (by decide +kernel)).2.1 _ (by decide +kernel) rfl⟩
theorem witness_dcdecUnder (h : Obligations.ContinuationsLaunchAtTheirHome) : ∃ t, exec (.dcdec 3 8) (atm (.dcdec 3 8) []) = .next t :=
  let ⟨_, _, e⟩ := (h.2 (atm (.dcdec 3 8) []) (atmEntry (.dcdec 3 8)) 3 8 fetchLeaf 0x30000 0x30008 0x230008 0
    (atmReady _ _ _ rfl rfl rfl) (memoryWf_hact ..) rfl (atmServes _ _ _ (by decide +kernel)) (by decide) (by decide) (by decide) (by decide +kernel)
    (by decide +kernel)).2.2 (by decide +kernel) rfl
  ⟨_, e⟩
theorem queueAt_of {s : State} {leaf va : Word} {a cap head tail : Nat} (p : Nat) (h : p ≤ 24 ∧ cap = 2 ^ p)
    (h1 : Mem.num s.hbm a 4 = cap ∧ Mem.num s.hbm (a + 8) 8 = head ∧ Mem.num s.hbm (a + 16) 8 = tail)
    (h2 : ∀ i < 64, (4 ≤ i ∧ i < 8) ∨ (24 ≤ i ∧ i < 64) → Mem.read s.hbm (a + i) = 0)
    (h3 : tail ≤ head + cap ∧ va.toNat % pageBytes (leafSz leaf) + 64 + 8 * cap ≤ pageBytes (leafSz leaf)) :
    QueueAt s leaf va a cap head tail :=
  ⟨h1.1, h1.2.1, h1.2.2, ⟨p, h.1, h.2⟩, fun i hi => h2 i (by omega) hi, h3.1, h3.2⟩
theorem witness_qpush (h : Obligations.QueuesPushAndPop) :
    ∃ t, exec (.qpush 3 6 o0 64) (atm (.qpush 3 6 o0 64) [(0x230040, 4, 2), (0x230048, 8, 5), (0x230050, 8, 6)] [7]) = .next t :=
  let s := atm (.qpush 3 6 o0 64) [(0x230040, 4, 2), (0x230048, 8, 5), (0x230050, 8, 6)] [7]
  let ⟨_, e, _⟩ := (h.1 s _ (atmEntry (.qpush 3 6 o0 64) [7]) 3 6 o0 64 fetchLeaf 0x30000 0x30040 7 0x230040 2 5 6
    (atmReady _ _ _ rfl rfl rfl) (memoryWf_hact ..) rfl rfl (atmServes _ _ _ (by decide +kernel)) (by decide) (by decide) (by decide) (by decide +kernel)
    (queueAt_of 1 ⟨by decide, rfl⟩ (by decide +kernel) (by decide +kernel) (by decide))).2 (by decide) rfl
  ⟨_, e⟩
theorem witness_qpushFull (h : Obligations.QueuesPushAndPop) :
    ∃ t, exec (.qpush 3 6 o0 64) (atm (.qpush 3 6 o0 64) [(0x230040, 4, 2), (0x230048, 8, 5), (0x230050, 8, 7)] [7]) = .next t :=
  let s := atm (.qpush 3 6 o0 64) [(0x230040, 4, 2), (0x230048, 8, 5), (0x230050, 8, 7)] [7]
  ⟨_, (h.1 s _ (atmEntry (.qpush 3 6 o0 64) [7]) 3 6 o0 64 fetchLeaf 0x30000 0x30040 7 0x230040 2 5 7
    (atmReady _ _ _ rfl rfl rfl) (memoryWf_hact ..) rfl rfl (atmServes _ _ _ (by decide +kernel)) (by decide) (by decide) (by decide) (by decide +kernel)
    (queueAt_of 1 ⟨by decide, rfl⟩ (by decide +kernel) (by decide +kernel) (by decide))).1 (by decide) rfl⟩
theorem witness_qpop (h : Obligations.QueuesPushAndPop) :
    ∃ t, exec (.qpop 3 o0 64) (atm (.qpop 3 o0 64) [(0x230040, 4, 2), (0x230048, 8, 5), (0x230050, 8, 6)]) = .next t :=
  let s := atm (.qpop 3 o0 64) [(0x230040, 4, 2), (0x230048, 8, 5), (0x230050, 8, 6)]
  let ⟨_, e, _⟩ := (h.2.1 s _ (atmEntry (.qpop 3 o0 64)) 3 o0 64 fetchLeaf 0x30000 0x30040 0x230040 2 5 6
    (atmReady _ _ _ rfl rfl rfl) (memoryWf_hact ..) rfl (atmServes _ _ _ (by decide +kernel)) (by decide) (by decide) (by decide) (by decide +kernel)
    (queueAt_of 1 ⟨by decide, rfl⟩ (by decide +kernel) (by decide +kernel) (by decide))).2 (by decide) rfl
  ⟨_, e⟩
theorem witness_qpopBad (h : Obligations.QueuesPushAndPop) :
    ∃ t, exec (.qpop 3 o0 64) (atm (.qpop 3 o0 64) [(0x230040, 4, 3)]) = .next t :=
  ⟨_, h.2.2 (atm (.qpop 3 o0 64) [(0x230040, 4, 3)]) (atmEntry (.qpop 3 o0 64)) 3 6 o0 64 fetchLeaf 0x30000 0x30040 0x230040
    (atmReady _ _ _ rfl rfl rfl) (.inr rfl) (atmServes _ _ _ (by decide +kernel)) (by decide) (by decide) (by decide) (by decide +kernel)
    (fun ⟨cap, _, _, h1, _, _, ⟨p, hp, hc⟩, _⟩ => by
      have : (3 : Nat) = 2 ^ p := (show Mem.num (atm (.qpop 3 o0 64) [(0x230040, 4, 3)]).hbm 0x230040 4 = 3 by decide +kernel) ▸ h1.trans hc
      exact (by decide : ∀ p ≤ 24, 3 ≠ 2 ^ p) p hp this)⟩
/-- A bank-striped, pinned leaf, accessed and dirty. -/
def nearLeaf : Word := usedLeaf ||| 0x2800
/-- A near-bank command of one element with its first factor stands in scratchpad. -/
def near (op : NbOp) (p : Nat) : State :=
  let m := Mem.setNum (Mem.setNum (Mem.setNum [] 0x10000 8 0x40000) 0x10020 4 1) 0x10028 4 p
  acting ((wl nearLeaf).withTask fun t => { t with scratch := m }) (entry .atm (.nbx op 6 o0) [0x10000])
theorem paged_near (op : NbOp) (p : Nat) : PagedBy nearLeaf (near op p) := paged_wl _ ⟨by decide, by decide, by decide⟩ (by decide +kernel)
theorem nearOperand (op : NbOp) (p : Nat) (write : Bool) : NearOperand (near op p) nearLeaf 0x40000 1 write :=
  ⟨by decide +kernel, by decide +kernel, (paged_near op p).maps (by decide +kernel), by decide, by decide, by decide, by decide, by decide, by decide,
    by decide, fun _ => by decide⟩
theorem witness_nbx (h : Obligations.NearBankCommandsCompute) : ∃ t, exec (.nbx .scale 6 o0) (near .scale 0x40000000) = .next t :=
  let ⟨e, _⟩ := h (near .scale 0x40000000) (entry .atm (.nbx .scale 6 o0) [0x10000]) .scale 6 o0 0x10000 1 nearLeaf nearLeaf nearLeaf nearLeaf
    ⟨ready_of rfl rfl rfl rfl rfl rfl, rfl, rfl⟩ rfl rfl ⟨(memoryWf_wl _).1, rfl, rfl, rfl, rfl, by decide +kernel, fun _ h => nomatch h⟩
    (clear_of rfl rfl rfl ⟨rfl, rfl, rfl, rfl, rfl, rfl⟩) rfl (by decide) (by decide) (by decide) (by decide +kernel) (by decide)
    (by decide +kernel)
    (fun i h1 h2 => (by decide +kernel : ∀ i < 0x80, 0x48 ≤ i → Mem.read (near .scale 0x40000000).cur.scratch (0x10000 + i) = 0) i h2 h1)
    (fun i h1 h2 => (by decide +kernel : ∀ i < 8, 1 ≤ i → Mem.num (near .scale 0x40000000).cur.scratch (0x10000 + 0x28 + 4 * i) 4 = 0) i h2 h1)
    (fun _ => by decide +kernel) (fun _ => by decide +kernel)
    (fun x hx => by obtain rfl := List.mem_singleton.1 hx; exact ⟨nearOperand .., rfl⟩) (fun h => nomatch h)
    (fun x hx y hy hxy => absurd ((List.mem_singleton.1 hx).trans (List.mem_singleton.1 hy).symm) hxy)
  let ⟨_, e, _⟩ := e (by decide)
  ⟨_, e⟩
theorem witness_nbxSum (h : Obligations.NearBankCommandsCompute) : ∃ t, exec (.nbx .sum 6 o0) (near .sum 0) = .next t := by
  obtain ⟨-, e⟩ := h (near .sum 0) (entry .atm (.nbx .sum 6 o0) [0x10000]) .sum 6 o0 0x10000 1 nearLeaf nearLeaf nearLeaf nearLeaf
    ⟨ready_of rfl rfl rfl rfl rfl rfl, rfl, rfl⟩ rfl rfl ⟨(memoryWf_wl _).1, rfl, rfl, rfl, rfl, by decide +kernel, fun _ h => nomatch h⟩
    (clear_of rfl rfl rfl ⟨rfl, rfl, rfl, rfl, rfl, rfl⟩) rfl (by decide) (by decide) (by decide) (by decide +kernel) (by decide)
    (by decide +kernel)
    (fun i h1 h2 => (by decide +kernel : ∀ i < 0x80, 0x48 ≤ i → Mem.read (near .sum 0).cur.scratch (0x10000 + i) = 0) i h2 h1)
    (fun i h1 h2 => (by decide +kernel : ∀ i < 8, 0 ≤ i → Mem.num (near .sum 0).cur.scratch (0x10000 + 0x28 + 4 * i) 4 = 0) i h2 h1)
    (fun _ => by decide +kernel) (fun _ => by decide +kernel)
    (fun x hx => by obtain rfl := List.mem_singleton.1 hx; exact ⟨nearOperand .., rfl⟩) (fun _ => by decide)
    (fun x hx y hy hxy => absurd ((List.mem_singleton.1 hx).trans (List.mem_singleton.1 hy).symm) hxy)
  obtain ⟨_, e, -⟩ := e rfl _ rfl
  exact ⟨_, e⟩

/-- An entry of CPY acts with its command in scratchpad and some commands in the virtual copy queue. -/
def cpyAt (i : Instr) (caps : List Word) (vcq : List CopySlot := []) : State :=
  acting (wd.withTask fun t => { t with vcq }) (entry .cpy i caps)
theorem cpyReady (i : Instr) (caps : List Word) (vcq : List CopySlot) : CpyReady (cpyAt i caps vcq) (entry .cpy i caps) :=
  ⟨rfl, rfl, rfl, memoryWf_wd⟩
/-- COPY of 8 bytes from 0x30000 to 0x40000. -/
def copyBytes : List Byte :=
  record 128 [(0, 1, 1), (0x20, 8, 0x30000), (0x28, 8, 0x40000), (0x30, 4, 8), (0x34, 4, 1), (0x38, 4, 1), (0x3C, 4, 1)]
/-- Its command, which is first in the queue. -/
def copySlot : CopySlot := { num := 4, bytes := copyBytes }
theorem witness_cpy (h : Obligations.CopiesAreQueuedAndHandedOut) : ∃ t, exec (.cpy 6) (cpyAt (.cpy 6) [0x10080]) = .next t :=
  ⟨_, h.1 (cpyAt (.cpy 6) [0x10080]) (entry .cpy (.cpy 6) [0x10080]) 6 0x10080 (cpyReady ..) rfl rfl (by unfold InScratch; decide +kernel)
    fun _ h => nomatch h⟩
theorem witness_cpyi (h : Obligations.CopiesAreQueuedAndHandedOut) :
    ∃ t, exec (.cpyi 6 7 8 9 (some 2)) (cpyAt (.cpyi 6 7 8 9 (some 2)) [0x40000, 0x30000, 8]) = .next t :=
  let ⟨_, e, _⟩ := h.2.1 (cpyAt (.cpyi 6 7 8 9 (some 2)) [0x40000, 0x30000, 8]) (entry .cpy (.cpyi 6 7 8 9 (some 2)) [0x40000, 0x30000, 8]) 6 7 8
    0x40000 0x30000 8 9 (some 2) (cpyReady ..) rfl rfl fun _ h => nomatch h
  ⟨_, e⟩
theorem witness_cqstat (h : Obligations.CopiesAreQueuedAndHandedOut) :
    ∃ t, exec (.cqstat 6) (cpyAt (.cqstat 6) [0x10008] [{ copySlot with engine := some true }]) = .next t :=
  let ⟨_, e, _⟩ := h.2.2.1 (cpyAt (.cqstat 6) [0x10008] [{ copySlot with engine := some true }]) (entry .cpy (.cqstat 6) [0x10008]) 6 0x10008 (cpyReady ..)
    rfl rfl (by unfold InScratch; decide +kernel) (fun k hk => by obtain rfl := List.mem_singleton.1 hk; exact .inl (by decide))
  ⟨_, e⟩
/-- A task with commands. -/
def copying (vcq : List CopySlot) : State := wd.withTask fun t => { t with vcq }
theorem witness_copyResume (h : Obligations.CopiesAreQueuedAndHandedOut) :
    ∃ t, exec (.copyHandout false) (copying [{ copySlot with paused := true }]) = .next t :=
  ⟨_, h.2.2.2.1 (copying [{ copySlot with paused := true }]) 0 false _ rfl (by decide) (by decide +kernel) (by unfold CopiesApart; decide) rfl rfl rfl⟩
/-- The pages that the copy's walks fill. -/
def checkedRun := (copyCheck copySlot false).run.run (copying [copySlot])
/-- A command of the machine is the next for engine 0. -/
theorem nextFor (bytes : List Byte) : NextForEngine (copying [{ num := 4, bytes }]) false { num := 4, bytes } :=
  ⟨by with_unfolding_all rfl, by with_unfolding_all rfl, by unfold CopiesApart; exact List.nodup_singleton _, clear_of rfl rfl rfl ⟨rfl, rfl, rfl, rfl, rfl, rfl⟩, rfl, rfl, rfl, rfl, rfl⟩
theorem waitsMet {s : State} {c : CopyCmd} (h : c.waitm = 0) : WaitsMet s c := fun i hi => by rw [h] at hi; simp at hi
theorem witness_handout (h : Obligations.CopiesAreQueuedAndHandedOut) : ∃ t, exec (.copyHandout false) (copying [copySlot]) = .next t := by
  obtain ⟨runs, -, e⟩ := ok_of checkedRun (by decide +kernel)
  obtain ⟨t, e, -⟩ := h.2.2.2.2.1 (copying [copySlot]) _ 0 false copySlot runs rfl (nextFor _) e
    (by unfold OnlyMemoryAndWalks checkedRun; decide +kernel) (waitsMet (by decide +kernel))
  exact ⟨t, e⟩
/-- A command of another type, with other fields than the copy. -/
def otherSlot (xs : List (Nat × Nat × Nat)) : CopySlot :=
  { num := 4, bytes := record 128 ([(0x20, 8, 0x30000), (0x28, 8, 0x40000), (0x30, 4, 8), (0x34, 4, 1), (0x38, 4, 1), (0x3C, 4, 1)] ++ xs) }
theorem witness_fieldsFail (h : Obligations.CopiesAreQueuedAndHandedOut) :
    ∃ t, exec (.copyHandout false) (copying [otherSlot [(0, 1, 9)]]) = .next t :=
  ⟨_, (h.2.2.2.2.2 (copying [otherSlot [(0, 1, 9)]]) 0 false (otherSlot [(0, 1, 9)]) _ (fun _ => usedLeaf) (fun _ => usedLeaf) rfl rfl rfl
    (nextFor _) memoryWf_wd (current_of paged_wd rfl rfl) rfl rfl).1 (.inr (.inl (by decide +kernel)))⟩
/-- The command at an engine. -/
def engineSlot : CopySlot := { copySlot with engine := some false, checked := true }
theorem copyExt {i1 i2 i3 i : Nat} (h : InExtents (copyCmd copyBytes) i1 i2 i3 i) : i < 8 ∧ i1 = 0 ∧ i2 = 0 ∧ i3 = 0 := by
  unfold InExtents at h
  rw [show (copyCmd copyBytes).n.getD 0 1 = 8 by decide +kernel, show (copyCmd copyBytes).n.getD 1 1 = 1 by decide +kernel,
    show (copyCmd copyBytes).n.getD 2 1 = 1 by decide +kernel, show (copyCmd copyBytes).n.getD 3 1 = 1 by decide +kernel] at h
  omega
theorem byteOf_of {l : Word} {s : State} (hp : PagedBy l s) (hc : s.cur.pool.ctx = 1) {va : Word} {a : Nat} (hv : va.toNat < 2 ^ 21)
    (ha : placeOf l va s.cur.cluster = (.hbm, a)) (write : Bool)
    (hl : localHbm l = true ∧ leafDlt l = false ∧ l.getLsbD 3 = true ∧ leafW l = true ∧ l.getLsbD 4 = true := by decide) :
    ByteOf s (fun _ => l) va write a :=
  ⟨hc ▸ hp.maps hv, hl.1, hl.2.1, hl.2.2.1, fun _ => hl.2.2.2, ha⟩
theorem apart_of {l : Word} {s : State} (hp : PagedBy l s) (hc : s.cur.pool.ctx = 1) {F : Nat → Prop} (hf : ∀ a, F a → 0x5000 ≤ a) :
    TranslationApart s F := by
  intro m c va hx hm
  obtain ⟨⟨c', hc', hr⟩, -, ht⟩ := hp
  rw [hc] at hx
  cases hx.symm.trans hc'
  rw [hr]
  exact walk_congr (ht.agree fun j _ q => hm j fun hj => by have := hf j hj; omega) ht va
theorem paged_copying (vcq : List CopySlot) : PagedBy usedLeaf (copying vcq) := paged_wd
theorem witness_copy (h : Obligations.CopiesMoveTheirBytesAndComplete) : ∃ t, exec (.copyComplete false) (copying [engineSlot]) = .next t := by
  have d : ∀ i < 8, (copyVa (copyCmd copyBytes).dst (copyCmd copyBytes).d 0 0 0 i).toNat < 2 ^ 21 ∧
      placeOf usedLeaf (copyVa (copyCmd copyBytes).dst (copyCmd copyBytes).d 0 0 0 i) (copying [engineSlot]).cur.cluster = (.hbm, 0x240000 + i) := by
    decide +kernel
  have r : ∀ i < 8, (copyVa (copyCmd copyBytes).src (copyCmd copyBytes).s 0 0 0 i).toNat < 2 ^ 21 ∧
      placeOf usedLeaf (copyVa (copyCmd copyBytes).src (copyCmd copyBytes).s 0 0 0 i) (copying [engineSlot]).cur.cluster = (.hbm, 0x230000 + i) := by
    decide +kernel
  obtain ⟨t, e, -⟩ := h.2.1 (copying [engineSlot]) 0 false engineSlot _ (fun _ => usedLeaf) (fun _ => usedLeaf) (fun _ _ _ i => 0x230000 + i)
    (fun _ _ _ i => 0x240000 + i) rfl rfl (by unfold CopiesApart; decide) memoryWf_wd (current_of (paged_copying _) rfl rfl)
    (clear_of rfl rfl rfl ⟨rfl, rfl, rfl, rfl, rfl, rfl⟩) rfl rfl rfl ⟨rfl, rfl, rfl⟩ rfl rfl rfl rfl (.inl (by decide +kernel))
    (fun i1 i2 i3 i hi => by
      obtain ⟨hj, rfl, rfl, rfl⟩ := copyExt hi
      exact byteOf_of (paged_copying _) rfl (d i hj).1 (d i hj).2 true)
    (fun _ i1 i2 i3 i hi => by
      obtain ⟨hj, rfl, rfl, rfl⟩ := copyExt hi
      exact byteOf_of (paged_copying _) rfl (r i hj).1 (r i hj).2 false)
    (fun i1 i2 i3 i j1 j2 j3 j hi hj he => by have := copyExt hi; have := copyExt hj; omega)
    (fun _ i1 i2 i3 i j1 j2 j3 j hi hj => by have := copyExt hi; have := copyExt hj; omega)
    (apart_of (paged_copying _) rfl fun a ⟨i1, i2, i3, i, _, ha⟩ => by omega)
  exact ⟨t, e⟩
/-- Its payload laid out, and performed. -/
def partsRun := (copyParts engineSlot false).run.run (copying [engineSlot])
def theParts : List CopyPart := partsRun.1.toOption.getD []
def partsEnd := (runParts engineSlot.num engineSlot.units none 0 theParts).run.run partsRun.2
theorem partsEnd_vcq : partsEnd.2.cur.vcq = [engineSlot] := by decide +kernel
theorem partsEnd_wf : partsEnd.2.MemoryWf :=
  ⟨by decide +kernel, by decide +kernel, by decide +kernel, by decide +kernel, by decide +kernel, by decide +kernel, fun _ h => by
    rw [show partsEnd.2.others = [] by decide +kernel] at h; exact nomatch h⟩
theorem witness_copyParts (h : Obligations.CopiesMoveTheirBytesAndComplete) : ∃ t, exec (.copyComplete false) (copying [engineSlot]) = .next t := by
  obtain ⟨ps, hv, e1⟩ := ok_of partsRun (by decide +kernel)
  obtain rfl : theParts = ps := congrArg (Option.getD · []) hv
  obtain ⟨b, hb, e2⟩ := ok_of partsEnd (by decide +kernel)
  obtain rfl : b = true := Option.some.inj (hb.symm.trans (by decide +kernel))
  obtain ⟨t, e, -⟩ := h.1 (copying [engineSlot]) partsRun.2 partsEnd.2 0 false engineSlot engineSlot theParts rfl (by unfold CopiesApart; decide)
    memoryWf_wd rfl rfl ⟨rfl, rfl, rfl⟩ e1 e2 (by decide +kernel) (by decide +kernel) (by unfold CopiesApart; rw [partsEnd_vcq]; decide) partsEnd_wf
    (by rw [partsEnd_vcq]; exact List.mem_singleton_self _) rfl rfl
  exact ⟨t, e⟩

/-- A command at engine 0. -/
def atEngine (bytes : List Byte) (pos : Word := 0) : CopySlot := { num := 4, bytes, engine := some false, checked := true, pos }
/-- It runs on a machine whose one page has a leaf. -/
def moving (l : Word) (bytes : List Byte) (pos : Word := 0) : State := (wl l).withTask fun t => { t with vcq := [atEngine bytes pos] }
theorem engineRuns {l : Word} {bytes : List Byte} {pos : Word} (h : PagedBy l (moving l bytes pos))
    (hl : l.getLsbD 3 = true ∧ l.getLsbD 4 = true := by decide) : EngineRuns (moving l bytes pos) false (atEngine bytes pos) :=
  ⟨rfl, rfl, ⟨0, rfl⟩, by unfold CopiesApart; exact List.nodup_singleton _, memoryWf_wl l, current_of h rfl rfl hl,
    clear_of rfl rfl rfl ⟨rfl, rfl, rfl, rfl, rfl, rfl⟩, rfl, rfl, rfl, ⟨rfl, rfl, rfl⟩, rfl, rfl⟩
theorem copyVa_nat (b r : Nat) {i1 i : Nat} (h : b + i1 * r + i < 2 ^ 64) :
    (copyVa (BitVec.ofNat 64 b) [BitVec.ofNat 64 r, 0, 0] i1 0 0 i).toNat = b + i1 * r + i := by
  have : copyVa (BitVec.ofNat 64 b) [BitVec.ofNat 64 r, 0, 0] i1 0 0 i = BitVec.ofNat 64 (b + i1 * r + i) := by
    simp [copyVa, BitVec.ofNat_add, BitVec.ofNat_mul]
  rw [this, BitVec.toNat_ofNat, Nat.mod_eq_of_lt h]
theorem add_nat (b : Nat) {i : Nat} (h : b + i < 2 ^ 64) : (BitVec.ofNat 64 b + BitVec.ofNat 64 i).toNat = b + i := by
  rw [← BitVec.ofNat_add, BitVec.toNat_ofNat, Nat.mod_eq_of_lt h]
/-- The page's frame is the second of HBM. -/
theorem place_of {l va : Word} (cl : Nat) {b i : Nat} (hv : va.toNat = b + i) (hb : b + i < 2 ^ 21)
    (hl : leafAp l = 0 ∧ leafSz l = 2 ∧ leafPfn l = 512 := by decide) : placeOf l va cl = (.hbm, 0x200000 + b + i) := by
  unfold placeOf
  rw [hl.1, hl.2.1, hl.2.2, hv, show pageBytes 2 = 2 ^ 21 from rfl, Nat.mod_eq_of_lt hb]
  simp only [show (512 : Nat) * 4096 = 0x200000 from rfl, ← Nat.add_assoc]
  rw [if_pos (by have : 0x400000 ≤ csramBase := by decide
                 omega)]
/-- A gather of row 0, whose index stands at 0x50000. -/
def gatherBytes : List Byte := record 128 [(0, 1, 5), (0x20, 8, 0x30000), (0x28, 8, 0x40000), (0x30, 4, 8), (0x34, 4, 1), (0x38, 4, 1),
  (0x3C, 4, 1), (0x70, 8, 0x50000), (0x78, 8, 1)]
theorem witness_gather (h : Obligations.CopiesMoveTheirBytesAndComplete) : ∃ t, exec (.copyComplete false) (moving usedLeaf gatherBytes) = .next t := by
  have hp : PagedBy usedLeaf (moving usedLeaf gatherBytes) := paged_wd
  have e : copyCmd gatherBytes = { copyCmd gatherBytes with
    src := BitVec.ofNat 64 0x30000, dst := BitVec.ofNat 64 0x40000, s := [BitVec.ofNat 64 0, 0, 0], d := [BitVec.ofNat 64 0, 0, 0] } := by decide +kernel
  have n0 : (copyCmd gatherBytes).n.getD 0 1 = 8 := by decide +kernel
  have n1 : (copyCmd gatherBytes).n.getD 1 1 = 1 := by decide +kernel
  have p0 : (copyCmd gatherBytes).p0 = BitVec.ofNat 64 0x50000 := by decide +kernel
  obtain ⟨t, e, -⟩ := h.2.2.1 (moving usedLeaf gatherBytes) false _ (copyCmd gatherBytes) (fun _ => usedLeaf) (fun _ => usedLeaf) (fun _ => usedLeaf)
    (fun r => 0x250000 + 4 * r) (fun r => Mem.num (moving usedLeaf gatherBytes).hbm (0x250000 + 4 * r) 4) (fun r i => 0x230000 + i)
    (fun r i => 0x240000 + i) (engineRuns hp) rfl (by decide +kernel) (by decide +kernel)
    (fun r hr j hj => by
      rw [n1] at hr
      obtain rfl := Nat.lt_one_iff.1 hr
      rw [p0]
      have v := (add_nat 0x50000 (i := 4 * 0 + j) (by omega)).trans (Nat.add_assoc _ _ _).symm
      exact byteOf_of hp rfl (by rw [v]; omega) (place_of _ v (by omega)) _)
    (fun _ => rfl)
    (fun r i ⟨hr, hi, hx, _⟩ => by
      rw [n1] at hr
      rw [n0] at hi
      obtain rfl := Nat.lt_one_iff.1 hr
      rw [e, show Mem.num (moving usedLeaf gatherBytes).hbm (0x250000 + 4 * 0) 4 = 0 by decide +kernel]
      have v := fun b => copyVa_nat b 0 (i1 := 0) (i := i)
      refine ⟨byteOf_of hp rfl ?_ (place_of _ (v _ (by omega)) (by omega)) _, byteOf_of hp rfl ?_ (place_of _ (v _ (by omega)) (by omega)) _⟩ <;>
      · rw [v _ (by omega)]; omega)
    (fun r i r' i' ⟨hr, hi, _⟩ ⟨hr', hi', _⟩ => by rw [n0] at hi hi'; omega)
    (fun r j r' i' hr hj ⟨hr', hi', _⟩ => by rw [n1] at hr; rw [n0] at hi'; omega)
    (apart_of hp rfl fun a ⟨r, i, _, ha⟩ => by omega)
  exact ⟨t, e⟩
/-- 4,096 bytes at 0x100000 move to the striped layout of the page's first block. -/
def relayoutBytes : List Byte := record 128 [(0, 1, 6), (0x20, 8, 0x100000), (0x30, 4, 4096), (0x34, 4, 1), (0x38, 4, 1), (0x3C, 4, 1)]
theorem nearFacts : localHbm nearLeaf = true ∧ leafDlt nearLeaf = false ∧ leafSz nearLeaf = 2 ∧ leafCc nearLeaf = true ∧ leafPin nearLeaf = true ∧
    nearLeaf.getLsbD 3 = true ∧ leafW nearLeaf = true ∧ nearLeaf.getLsbD 4 = true := by decide
theorem witness_relayout (h : Obligations.CopiesMoveTheirBytesAndComplete) : ∃ t, exec (.copyComplete false) (moving nearLeaf relayoutBytes) = .next t := by
  have hp : PagedBy nearLeaf (moving nearLeaf relayoutBytes) := paged_wl _ ⟨by decide, by decide, by decide⟩ (by decide +kernel)
  have n0 : (copyCmd relayoutBytes).n.getD 0 1 = 4096 := by decide +kernel
  have src : (copyCmd relayoutBytes).src = BitVec.ofNat 64 0x100000 := by decide +kernel
  have dst : (copyCmd relayoutBytes).dst = BitVec.ofNat 64 0 := by decide +kernel
  obtain ⟨t, e, -⟩ := h.2.2.2.1 (moving nearLeaf relayoutBytes) false _ (copyCmd relayoutBytes) (fun _ => nearLeaf) (fun _ => nearLeaf)
    (fun i => 0x200000 + 0x100000 + i) (fun i => 0x200000 + i / 2 ^ 8 % 2 ^ 8 * 2 ^ 13 + i / 2 ^ 16 * 2 ^ 8 + i % 2 ^ 8) (engineRuns hp) rfl (by decide +kernel)
    (by decide +kernel) (by decide +kernel) (by decide +kernel) (by decide +kernel)
    (fun i hi => by
      rw [n0] at hi
      rw [src, dst, if_pos (by decide +kernel)]
      have v := add_nat 0x100000 (i := i) (by omega)
      have u := add_nat 0 (i := i) (by omega)
      refine ⟨byteOf_of hp rfl (by rw [v]; omega) (place_of _ v (by omega)) _, hp.maps (by rw [u]; omega), nearFacts.1, nearFacts.2.1,
        nearFacts.2.2.1, nearFacts.2.2.2.1, nearFacts.2.2.2.2.1, nearFacts.2.2.2.2.2.1, fun _ => nearFacts.2.2.2.2.2.2, ?_⟩
      rw [u, show leafPfn nearLeaf * 4096 = 0x200000 by decide]
      omega)
    (fun i hi j hj => by rw [n0] at hi hj; omega)
    (apart_of hp rfl fun a ⟨i, _, ha⟩ => by omega)
  exact ⟨t, e⟩
/-- A page of FP8 numbers with a scale for each tile. -/
def tileLeaf : Word := usedLeaf ||| 0x350000
theorem tileFacts : localHbm tileLeaf = true ∧ leafDlt tileLeaf = false ∧ leafBg tileLeaf = 3 ∧ (4 ≤ (leafFmt tileLeaf).toNat ∧ (leafFmt tileLeaf).toNat ≤ 12) ∧
    Fmt.ofCode (leafFmt tileLeaf) = some .e4m3 ∧ tileLeaf.getLsbD 3 = true ∧ (leafW tileLeaf = true ∧ tileLeaf.getLsbD 4 = true) := by decide
/-- A tile of 128×128 at 0x100000 and its transposed one at 0x140000. -/
def transposeBytes : List Byte := record 128 [(0, 1, 2), (0x20, 8, 0x100000), (0x28, 8, 0x140000), (0x30, 4, 128), (0x34, 4, 128), (0x38, 4, 1),
  (0x3C, 4, 1), (0x40, 8, 128), (0x58, 8, 128)]
theorem holds_byte (s : State) (l row : Word) (i : Nat) : HoldsBits s l row (8 * i) 8 (byteAt s l (row + BitVec.ofNat 64 i)).toNat :=
  ⟨BitVec.isLt _, fun x hx => by
    rw [bitAt, show (8 * i + x) / 8 = i by omega, show (8 * i + x) % 8 = x by omega]
    rfl⟩
theorem witness_transpose (h : Obligations.CopiesMoveTheirBytesAndComplete) : ∃ t, exec (.copyComplete false) (moving tileLeaf transposeBytes) = .next t := by
  have hp : PagedBy tileLeaf (moving tileLeaf transposeBytes) := paged_wl _ ⟨by decide, by decide, by decide⟩ (by decide +kernel)
  have e : copyCmd transposeBytes = { copyCmd transposeBytes with
    src := BitVec.ofNat 64 0x100000, dst := BitVec.ofNat 64 0x140000,
    s := [BitVec.ofNat 64 128, 0, 0], d := [BitVec.ofNat 64 128, 0, 0] } := by decide +kernel
  have n0 : (copyCmd transposeBytes).n.getD 0 1 = 128 := by decide +kernel
  have n1 : (copyCmd transposeBytes).n.getD 1 1 = 128 := by decide +kernel
  have sc : (State.taskEff (moving tileLeaf transposeBytes) (moving tileLeaf transposeBytes).cur).scOff = 0 := by decide +kernel
  have row : ∀ (b i j : Nat), i < 128 → j < 128 → b + 0x4000 ≤ 2 ^ 21 →
      (copyVa (BitVec.ofNat 64 b) [BitVec.ofNat 64 128, 0, 0] i 0 0 0 + BitVec.ofNat 64 j).toNat = b + (i * 128 + j) := fun b i j hi hj hb => by
    rw [BitVec.toNat_add, copyVa_nat _ _ (by omega), BitVec.toNat_ofNat]; omega
  have bit : ∀ (b i j x a k : Nat), i < 128 → j < 128 → b + 0x4000 ≤ 2 ^ 21 →
      ElemBit (moving tileLeaf transposeBytes) (fun _ => tileLeaf) 8 (copyVa (BitVec.ofNat 64 b) [BitVec.ofNat 64 128, 0, 0] i 0 0 0) j x a k →
      x < 8 ∧ a = 0x200000 + b + (i * 128 + j) ∧ k = x := fun b i j x a k hi hj hb ⟨hx, hq, hk⟩ => by
    rw [show (8 * j + x) / 8 = j by omega, place_of (l := tileLeaf) _ (row b i j hi hj hb) (by omega)] at hq
    exact ⟨hx, (Prod.mk.inj hq).2.symm, by omega⟩
  have elem : ∀ (b i j : Nat) (write : Bool), i < 128 → j < 128 → b + 0x4000 ≤ 2 ^ 21 →
      ElemOf (moving tileLeaf transposeBytes) (fun _ => tileLeaf) .e4m3 3 (copyVa (BitVec.ofNat 64 b) [BitVec.ofNat 64 128, 0, 0] i 0 0 0) j write :=
    fun b i j write hi hj hb => by
      obtain ⟨f1, f2, f3, f4, f5, f6, f7⟩ := tileFacts
      have v := row b i j hi hj hb
      refine ⟨hp.maps ?_, f1, f2, f3, fun _ => f4, f5, f6, fun _ => f7, ?_, ?_⟩ <;> rw [elemVa, if_neg (by decide)] <;>
        simp only [show Fmt.e4m3.bits = 8 from rfl, Nat.mul_div_cancel_left j (show 0 < 8 by decide), v, show alignUnit 8 = 1 from rfl,
          show holder 8 = 1 from rfl, show pageBytes (leafSz tileLeaf) = 2 ^ 21 by decide] <;> omega
  have scale : ∀ (b r : Nat) (write : Bool), b % 16384 = 0 → b + 0x4000 ≤ 2 ^ 21 → r < 4 →
      ByteOf (moving tileLeaf transposeBytes) (fun _ => tileLeaf)
        (tileScale (moving tileLeaf transposeBytes) 8 (elemVa 8 (copyVa (BitVec.ofNat 64 b) [BitVec.ofNat 64 128, 0, 0] 0 0 0 0) 0) + BitVec.ofNat 64 r)
        write (0x200000 + b / 16384 * 4 + r) := fun b r write hb hc hr => by
    have v := row b 0 0 (by decide) (by decide) hc
    have u : (tileScale (moving tileLeaf transposeBytes) 8 (elemVa 8 (copyVa (BitVec.ofNat 64 b) [BitVec.ofNat 64 128, 0, 0] 0 0 0 0) 0)) =
        BitVec.ofNat 64 (b / 16384 * 4) := by
      unfold tileScale elemVa
      rw [sc, if_neg (by decide)]
      change 0 + BitVec.ofNat 64 ((copyVa (BitVec.ofNat 64 b) [BitVec.ofNat 64 128, 0, 0] 0 0 0 0 + BitVec.ofNat 64 0).toNat / 16384 * 4) = _
      rw [v]
      exact BitVec.zero_add _
    rw [u]
    have y := add_nat (b / 16384 * 4) (i := r) (by omega)
    exact byteOf_of hp rfl (by rw [y]; omega) (place_of _ y (by omega)) write
  obtain ⟨t, e, -⟩ := h.2.2.2.2.1 (moving tileLeaf transposeBytes) false _ (copyCmd transposeBytes) .e4m3 3 (fun _ => tileLeaf) (fun _ => tileLeaf)
    (fun _ => tileLeaf) (fun _ => tileLeaf)
    (fun i j => (byteAt (moving tileLeaf transposeBytes) tileLeaf
      (copyVa (BitVec.ofNat 64 0x100000) [BitVec.ofNat 64 128, 0, 0] i 0 0 0 + BitVec.ofNat 64 j)).toNat)
    (fun _ _ r => 0x200000 + 0x100000 / 16384 * 4 + r) (fun _ _ r => 0x200000 + 0x140000 / 16384 * 4 + r) (engineRuns hp) rfl (by decide +kernel)
    (by decide +kernel) (by decide +kernel) (.inr rfl)
    (fun i j hij => by
      rw [n0, n1] at hij
      rw [e]
      exact ⟨elem _ _ _ _ hij.1 hij.2 (by decide), holds_byte .., elem _ _ _ _ hij.2 hij.1 (by decide)⟩)
    (fun i j r ⟨_, hi, hj, hr⟩ => by
      rw [n1] at hi
      rw [n0] at hj
      obtain rfl := Nat.lt_one_iff.1 hi
      obtain rfl := Nat.lt_one_iff.1 hj
      rw [e]
      exact ⟨scale _ r false (by decide) (by decide) hr, scale _ r true (by decide) (by decide) hr⟩)
    (fun i j x i' j' x' a b m m' y y' => by
      rw [n0, n1] at m m'
      rw [e] at y y'
      have := bit _ _ _ _ _ _ m.2 m.1 (by decide) y
      have := bit _ _ _ _ _ _ m'.2 m'.1 (by decide) y'
      omega)
    (fun i j r i' j' r' m m' he => by
      rw [n0, n1] at m m'
      obtain ⟨_, m1, m2, _⟩ := m
      obtain ⟨_, m1', m2', _⟩ := m'
      omega)
    (fun i j x a b m y hB => by
      rw [n0, n1] at m
      rw [e] at y hB
      have u := bit _ _ _ _ _ _ m.1 m.2 (by decide) y
      obtain ⟨i', j', x', m', z⟩ | ⟨i', j', r, m', rfl, _⟩ := hB
      · rw [n0, n1] at m'
        have := bit _ _ _ _ _ _ m'.2 m'.1 (by decide) z
        omega
      · obtain ⟨_, _, _, hr⟩ := m'
        omega)
    (fun i j r b m hB => by
      rw [e] at hB
      obtain ⟨_, _, _, hr⟩ := m
      obtain ⟨i', j', x', m', z⟩ | ⟨i', j', r', m', hz, _⟩ := hB
      · rw [n0, n1] at m'
        have := bit _ _ _ _ _ _ m'.2 m'.1 (by decide) z
        omega
      · obtain ⟨_, _, _, hr'⟩ := m'
        omega)
    (fun i j r i' j' x b m m' z => by
      rw [e] at z
      rw [n0, n1] at m'
      obtain ⟨_, _, _, hr⟩ := m
      have := bit _ _ _ _ _ _ m'.2 m'.1 (by decide) z
      omega)
    (apart_of hp rfl fun a ⟨b, hB⟩ => by
      rw [e] at hB
      obtain ⟨i', j', x', m', z⟩ | ⟨i', j', r', m', hz, _⟩ := hB
      · rw [n0, n1] at m'
        have := bit _ _ _ _ _ _ m'.2 m'.1 (by decide) z
        omega
      · omega)
  exact ⟨t, e⟩
/-- The extents of a command of which only the first is not 1. -/
theorem extents {c : CopyCmd} {n i1 i2 i3 i : Nat} (hn : c.n = [n, 1, 1, 1]) (h : InExtents c i1 i2 i3 i) : i < n ∧ i1 = 0 ∧ i2 = 0 ∧ i3 = 0 := by
  unfold InExtents at h
  rw [hn] at h
  simpa [Nat.lt_one_iff] using h
/-- An FP32 number at 0x30000 is converted to 0x40000. -/
def convertBytes : List Byte := record 128 [(0, 1, 3), (0x20, 8, 0x30000), (0x28, 8, 0x40000), (0x30, 4, 1), (0x34, 4, 1), (0x38, 4, 1), (0x3C, 4, 1)]
theorem witness_convert (h : Obligations.CopiesMoveTheirBytesAndComplete) : ∃ t, exec (.copyComplete false) (moving usedLeaf convertBytes) = .next t := by
  have hp : PagedBy usedLeaf (moving usedLeaf convertBytes) := paged_wd
  have hn : (copyCmd convertBytes).n = [1, 1, 1, 1] := by decide +kernel
  have bit : ∀ (x a b : Nat),
      ElemBit (moving usedLeaf convertBytes) (fun _ => usedLeaf) 32 (copyVa (copyCmd convertBytes).dst (copyCmd convertBytes).d 0 0 0 0) 0 x a b →
      x < 32 ∧ a = 0x240000 + x / 8 ∧ b = x % 8 := fun x a b ⟨hx, hq, hk⟩ => by
    rw [(by decide +kernel : ∀ x < 32, placeOf usedLeaf (copyVa (copyCmd convertBytes).dst (copyCmd convertBytes).d 0 0 0 0 +
      BitVec.ofNat 64 ((32 * 0 + x) / 8)) (moving usedLeaf convertBytes).cur.cluster = (.hbm, 0x240000 + x / 8)) x hx] at hq
    exact ⟨hx, (Prod.mk.inj hq).2.symm, by omega⟩
  have sbit : ∀ (x a b : Nat),
      ElemBit (moving usedLeaf convertBytes) (fun _ => usedLeaf) 32 (copyVa (copyCmd convertBytes).src (copyCmd convertBytes).s 0 0 0 0) 0 x a b →
      x < 32 ∧ a = 0x230000 + x / 8 := fun x a b ⟨hx, hq, hk⟩ => by
    rw [(by decide +kernel : ∀ x < 32, placeOf usedLeaf (copyVa (copyCmd convertBytes).src (copyCmd convertBytes).s 0 0 0 0 +
      BitVec.ofNat 64 ((32 * 0 + x) / 8)) (moving usedLeaf convertBytes).cur.cluster = (.hbm, 0x230000 + x / 8)) x hx] at hq
    exact ⟨hx, (Prod.mk.inj hq).2.symm⟩
  obtain ⟨t, e, -⟩ := h.2.2.2.2.2.1 (moving usedLeaf convertBytes) false _ (copyCmd convertBytes) .fp32 .fp32 .rne (fun _ => usedLeaf) (fun _ => usedLeaf)
    (fun _ _ _ _ => 0) (engineRuns hp) rfl (by decide +kernel) (by decide +kernel) (.inl ⟨by decide +kernel, rfl⟩)
    (fun i1 i2 i3 i hi => by
      obtain ⟨ki, rfl, rfl, rfl⟩ := extents hn hi
      obtain rfl := Nat.lt_one_iff.1 ki
      exact ⟨⟨hp.maps (by decide +kernel), by decide, by decide, by decide, by decide, by decide, by decide, by decide, by decide +kernel, by decide +kernel⟩,
        ⟨by decide, by decide +kernel⟩,
        ⟨hp.maps (by decide +kernel), by decide, by decide, by decide, by decide, by decide, by decide, by decide, by decide +kernel, by decide +kernel⟩⟩)
    (fun i1 i2 i3 i x j1 j2 j3 j y a b hi hj u v => by
      obtain ⟨ki, rfl, rfl, rfl⟩ := extents hn hi
      obtain ⟨kj, rfl, rfl, rfl⟩ := extents hn hj
      obtain rfl := Nat.lt_one_iff.1 ki
      obtain rfl := Nat.lt_one_iff.1 kj
      have := bit _ _ _ u
      have := bit _ _ _ v
      omega)
    (fun i1 i2 i3 i x a b hi u ⟨j1, j2, j3, j, y, hj, v⟩ => by
      obtain ⟨ki, rfl, rfl, rfl⟩ := extents hn hi
      obtain ⟨kj, rfl, rfl, rfl⟩ := extents hn hj
      obtain rfl := Nat.lt_one_iff.1 ki
      obtain rfl := Nat.lt_one_iff.1 kj
      have := sbit _ _ _ u
      have := bit _ _ _ v
      omega)
    (apart_of hp rfl fun a ⟨b, j1, j2, j3, j, y, hj, v⟩ => by
      obtain ⟨kj, rfl, rfl, rfl⟩ := extents hn hj
      obtain rfl := Nat.lt_one_iff.1 kj
      have := bit _ _ _ v
      omega)
  exact ⟨t, e⟩
theorem blockSize_le {g : Nat} (h : g ≤ 65535) : blockSize g ≤ 0x80080 := by unfold blockSize; omega
theorem blockGroups_le (d : Nat → Byte) : (blockGroups d).length ≤ 65535 :=
  (List.length_filter_le _ _).trans (by rw [List.length_range]; decide)
/-- The page at 0x10000 is compressed to 0x80000, its size to 0x20000. -/
def compressBytes : List Byte := record 128 [(0, 1, 7), (0x20, 8, 0x10000), (0x28, 8, 0x80000), (0x30, 4, 4096), (0x34, 4, 1), (0x38, 4, 1), (0x3C, 4, 1),
  (0x70, 8, 0x20000)]
theorem witness_compress (h : Obligations.CopiesMoveTheirBytesAndComplete) :
    ∃ t, exec (.copyComplete false) (moving usedLeaf compressBytes 0x80000) = .next t := by
  have hp : PagedBy usedLeaf (moving usedLeaf compressBytes 0x80000) := paged_wd
  have n0 : (copyCmd compressBytes).n.getD 0 1 = 4096 := by decide +kernel
  have src : (copyCmd compressBytes).src = BitVec.ofNat 64 0x10000 := by decide +kernel
  have dst : (copyCmd compressBytes).dst = BitVec.ofNat 64 0x80000 := by decide +kernel
  have p0 : (copyCmd compressBytes).p0 = BitVec.ofNat 64 0x20000 := by decide +kernel
  have byte : ∀ (b i : Nat) (write : Bool), b + i < 2 ^ 21 →
      ByteOf (moving usedLeaf compressBytes 0x80000) (fun _ => usedLeaf) (BitVec.ofNat 64 b + BitVec.ofNat 64 i) write (0x200000 + b + i) :=
    fun b i write hb => by
      have v := add_nat b (i := i) (by omega)
      exact byteOf_of hp rfl (by rw [v]; exact hb) (place_of _ v hb) _
  let len := fun b => blockSize (blockGroups (fun i => Mem.read (moving usedLeaf compressBytes 0x80000).hbm (0x200000 + 0x10000 + (4096 * b + i)))).length
  have size : ∀ b, len b ≤ 0x80080 := fun b => blockSize_le (blockGroups_le _)
  let pos : Nat → Nat := Nat.rec 0x80000 fun b p => (p + len b + 63) / 64 * 64
  obtain ⟨t, e, -⟩ := h.2.2.2.2.2.2.1 (moving usedLeaf compressBytes 0x80000) false _ (copyCmd compressBytes) (fun _ => usedLeaf) (fun _ => usedLeaf)
    (fun _ => usedLeaf) (fun b i => 0x200000 + 0x10000 + (4096 * b + i)) (fun b j => 0x200000 + 0x80000 + j) (fun b j => 0x200000 + 0x20000 + (4 * b + j)) pos
    (engineRuns hp) rfl (by decide +kernel) (by decide +kernel) (by decide +kernel) (by decide +kernel)
    (fun b hb i hi => by rw [n0] at hb; rw [src]; exact byte _ _ _ (by omega))
    (by decide +kernel) (fun _ => rfl)
    (fun b hb j hj => by
      rw [n0] at hb
      obtain rfl : b = 0 := by omega
      have := size 0
      change j < len 0 at hj
      change ByteOf _ _ (BitVec.ofNat 64 (0x80000 + j)) _ _
      rw [BitVec.ofNat_add]
      exact byte _ _ _ (by omega))
    (fun b hb j hj => by rw [n0] at hb; rw [p0]; exact byte _ _ _ (by omega))
    (fun b hb b' hb' => by
      rw [n0] at hb hb'
      obtain rfl : b = 0 := by omega
      obtain rfl : b' = 0 := by omega
      have := size 0
      refine ⟨fun j _ j' _ he => ⟨rfl, by omega⟩, fun j _ j' _ he => ⟨rfl, by omega⟩, fun j hj j' hj' => ?_⟩
      change j < len 0 at hj
      omega)
    (fun b hb i hi hB => by
      rw [n0] at hb
      obtain ⟨b', hb', j, hj, he⟩ | ⟨b', hb', j, hj, he⟩ := hB
      · omega
      · rw [n0] at hb'; omega)
    (apart_of hp rfl fun a hB => by obtain ⟨b', hb', j, hj, he⟩ | ⟨b', hb', j, hj, he⟩ := hB <;> omega)
  exact ⟨t, e⟩
/-- The block stored at 0x100000 is decompressed to 0x10000. -/
def decompressBytes : List Byte := record 128 [(0, 1, 8), (0x20, 8, 0x100000), (0x28, 8, 0x10000), (0x30, 4, 4096), (0x34, 4, 1), (0x38, 4, 1), (0x3C, 4, 1)]
theorem witness_decompress (h : Obligations.CopiesMoveTheirBytesAndComplete) :
    ∃ t, exec (.copyComplete false) (moving usedLeaf decompressBytes 0x100000) = .next t := by
  have hp : PagedBy usedLeaf (moving usedLeaf decompressBytes 0x100000) := paged_wd
  have n0 : (copyCmd decompressBytes).n.getD 0 1 = 4096 := by decide +kernel
  have src : (copyCmd decompressBytes).src = BitVec.ofNat 64 0x100000 := by decide +kernel
  have dst : (copyCmd decompressBytes).dst = BitVec.ofNat 64 0x10000 := by decide +kernel
  have byte : ∀ (b i : Nat) (write : Bool), b + i < 2 ^ 21 →
      ByteOf (moving usedLeaf decompressBytes 0x100000) (fun _ => usedLeaf) (BitVec.ofNat 64 b + BitVec.ofNat 64 i) write (0x200000 + b + i) :=
    fun b i write hb => by
      have v := add_nat b (i := i) (by omega)
      exact byteOf_of hp rfl (by rw [v]; exact hb) (place_of _ v hb) _
  let x : Nat → Byte := fun j => Mem.read (moving usedLeaf decompressBytes 0x100000).hbm (0x200000 + 0x100000 + j)
  have size : blockSize (blockG x) ≤ 0x80080 := blockSize_le (by have := (x 0).isLt; have := (x 1).isLt; unfold blockG; omega)
  let pos : Nat → Nat → Nat := Nat.rec (fun j => j) fun b p j => p (blockSize (blockG x)) + j
  obtain ⟨err, he⟩ : ∃ err : Bool, err = true ↔ ¬ blockGood x := (Classical.em (¬ blockGood x)).elim (fun y => ⟨true, fun _ => y, fun _ => rfl⟩)
    fun y => ⟨false, (nomatch ·), fun z => absurd z y⟩
  obtain ⟨t, e, -⟩ := h.2.2.2.2.2.2.2.2 (moving usedLeaf decompressBytes 0x100000) false err _ (copyCmd decompressBytes) (fun _ => usedLeaf) (fun _ => usedLeaf)
    (fun b j => 0x200000 + 0x100000 + j) (fun b i => 0x200000 + 0x10000 + (4096 * b + i)) pos
    (engineRuns hp) rfl (by decide +kernel) (by decide +kernel) (by decide +kernel) (by decide +kernel)
    (fun b hb j hj => by
      rw [n0] at hb
      obtain rfl : b = 0 := by omega
      change j < blockSize (blockG x) at hj
      rw [src]
      exact byte _ _ _ (by change 0x100000 + j < _; omega))
    (fun _ => rfl) (fun _ _ => rfl)
    (fun b hb i hi => by rw [n0] at hb; rw [dst]; exact byte _ _ _ (by omega))
    (fun b hb b' hb' i hi i' hi' he => by omega)
    (fun b hb j hj ⟨b', hb', i, hi, he⟩ => by rw [n0] at hb'; omega)
    (apart_of hp rfl fun a ⟨b, hb, i, hi, he⟩ => by omega)
    (by
      refine he.trans ⟨fun y => ⟨0, by rw [n0]; decide, y⟩, fun ⟨b, hb, y⟩ => y⟩)
  exact ⟨t, e⟩
/-- A 4 KiB page of a delta, and two plain ones. -/
def deltaPage : Word := BitVec.ofNat 64 (0x300 * 2 ^ 24 + 0x401F)
def plainPage (pfn : Nat) : Word := BitVec.ofNat 64 (pfn * 2 ^ 24 + 0x1F)
/-- Memory in which the delta page, its source and its base are the first pages. -/
def deltaHbm : Mem :=
  Mem.setNum (Mem.setNum (Mem.setNum (Mem.setNum (Mem.setNum w.hbm 0x4000 8 (5 * 2 ^ 24 + 1)) 0x5000 8 deltaPage.toNat) 0x5008 8 (plainPage 0x400).toNat)
    0x5010 8 (plainPage 0x500).toNat) 0x400048 8 0x2000
/-- The page at 0x1000, which holds the RCB whose BASEOFF is 0x2000, is compressed to the delta page at 0. -/
def deltaBytes : List Byte := record 128 [(0, 1, 7), (0x20, 8, 0x1000), (0x30, 4, 4096), (0x34, 4, 1), (0x38, 4, 1), (0x3C, 4, 1)]
def deltaState : State :=
  { w with hbm := deltaHbm }.withTask fun t => { t with vcq := [atEngine deltaBytes], pool := { t.pool with rcb := 0x1000 } }
theorem deltaHbm_wf : Memory.wf deltaHbm = true := by decide +kernel
/-- A memory with the tables of that one. -/
def DeltaTables (m : Mem) : Prop := ∀ j, 0x1000 ≤ j → j < 0x6000 → Mem.read m j = Mem.read deltaHbm j
theorem deltaHbm_cells : ∀ c ∈ deltaHbm, (0x1000 ≤ c.1 ∧ c.1 < 0x1008) ∨ (0x2000 ≤ c.1 ∧ c.1 < 0x2008) ∨ (0x3000 ≤ c.1 ∧ c.1 < 0x3008) ∨
    (0x4000 ≤ c.1 ∧ c.1 < 0x4008) ∨ 0x5000 ≤ c.1 := by decide +kernel
theorem delta_zeros (i : Nat) (hi : i < 512) (hz : i ≠ 0) : Mem.num deltaHbm (0x1000 + i * 8) 8 = 0 ∧ Mem.num deltaHbm (0x2000 + i * 8) 8 = 0 ∧
    Mem.num deltaHbm (0x3000 + i * 8) 8 = 0 ∧ Mem.num deltaHbm (0x4000 + i * 8) 8 = 0 := by
  refine ⟨num_zero ?_, num_zero ?_, num_zero ?_, num_zero ?_⟩ <;> intro c hc <;> have := deltaHbm_cells c hc <;> omega
theorem delta_num {m : Mem} (h : DeltaTables m) {a : Nat} (h1 : 0x1000 ≤ a) (h2 : a + 8 ≤ 0x6000) : Mem.num m a 8 = Mem.num deltaHbm a 8 :=
  num_congr fun j p q => h j (by omega) (by omega)
/-- The last level depends on the page alone. -/
theorem delta_page {m : Mem} (h : DeltaTables m) (va : Nat) : walkFrom m va 0 0x5000 = walkFrom deltaHbm (va / 4096 % 512 * 4096) 0 0x5000 := by
  have at_ : ∀ (c : Prop) [Decidable c], Mem.num m (if c then 0x5000 + va / 2 ^ 16 % 32 * 128 else 0x5000 + va / 2 ^ 12 % 512 * 8) 8 =
      Mem.num deltaHbm (if c then 0x5000 + va / 2 ^ 16 % 32 * 128 else 0x5000 + va / 2 ^ 12 % 512 * 8) 8 := fun c _ =>
    delta_num h (by split <;> omega) (by split <;> omega)
  rw [walkFrom, walkFrom, show va / 4096 % 512 * 4096 / 2 ^ 16 % 32 = va / 2 ^ 16 % 32 by omega,
    show va / 4096 % 512 * 4096 / 2 ^ 12 % 512 = va / 2 ^ 12 % 512 by omega,
    delta_num h (a := 0x5000 + va / 2 ^ 16 % 32 * 128) (by omega) (by omega), at_]
theorem delta_pages : ∀ i < 512, walkFrom deltaHbm (i * 4096) 0 0x5000 = if i = 0 then .ok (deltaPage, 0x5000)
    else if i = 1 then .ok (plainPage 0x400, 0x5008) else if i = 2 then .ok (plainPage 0x500, 0x5010) else .error fcNp := by decide +kernel
theorem delta_walk {m : Mem} (h : DeltaTables m) (va : Word) : walkTables m 0x1000 va = walkTables deltaHbm 0x1000 va := by
  have n := fun a (x : 0x1000 ≤ a) (y : a + 8 ≤ 0x6000) => delta_num h x y
  have s0 : walkFrom m va.toNat 0 0x5000 = walkFrom deltaHbm va.toNat 0 0x5000 := (delta_page h _).trans (delta_page (fun _ _ _ => rfl) _).symm
  have s1 : walkFrom m va.toNat 1 0x4000 = walkFrom deltaHbm va.toNat 1 0x4000 :=
    walk_level (next := 5) (fun i hi => n _ (by omega) (by omega)) (fun i hi hz => (delta_zeros i hi hz).2.2.2) (by decide +kernel) (by decide) s0
  have s2 : walkFrom m va.toNat 2 0x3000 = walkFrom deltaHbm va.toNat 2 0x3000 :=
    walk_level (next := 4) (fun i hi => n _ (by omega) (by omega)) (fun i hi hz => (delta_zeros i hi hz).2.2.1) (by decide +kernel) (by decide) s1
  have s3 : walkFrom m va.toNat 3 0x2000 = walkFrom deltaHbm va.toNat 3 0x2000 :=
    walk_level (next := 3) (fun i hi => n _ (by omega) (by omega)) (fun i hi hz => (delta_zeros i hi hz).2.1) (by decide +kernel) (by decide) s2
  have s4 : walkFrom m va.toNat 4 0x1000 = walkFrom deltaHbm va.toNat 4 0x1000 :=
    walk_level (next := 2) (fun i hi => n _ (by omega) (by omega)) (fun i hi hz => (delta_zeros i hi hz).1) (by decide +kernel) (by decide) s3
  rw [walkTables, walkTables, s4]
theorem delta_only {va : Word} {r : Word × Nat} (h : walkTables deltaHbm 0x1000 va = .ok r) :
    va.toNat < 2 ^ 21 ∧ walkFrom deltaHbm va.toNat 0 0x5000 = .ok r := by
  rw [walkTables] at h
  by_cases hc : canonical va = true
  · rw [if_pos hc] at h
    obtain ⟨i4, h⟩ := walk_step (next := 2) (fun i hi hz => (delta_zeros i hi hz).1) (by decide +kernel) (by decide) (by decide) h
    obtain ⟨i3, h⟩ := walk_step (next := 3) (fun i hi hz => (delta_zeros i hi hz).2.1) (by decide +kernel) (by decide) (by decide) h
    obtain ⟨i2, h⟩ := walk_step (next := 4) (fun i hi hz => (delta_zeros i hi hz).2.2.1) (by decide +kernel) (by decide) (by decide) h
    obtain ⟨i1, h⟩ := walk_step (next := 5) (fun i hi hz => (delta_zeros i hi hz).2.2.2) (by decide +kernel) (by decide) (by decide) h
    refine ⟨?_, h⟩
    have hv := va.isLt
    have c : va.toNat / 2 ^ 56 % 2 ^ 8 = 0 ∨ va.toNat / 2 ^ 56 % 2 ^ 8 = 255 := by
      simp only [canonical, Bool.or_eq_true, beq_iff_eq] at hc
      refine hc.imp (fun e => ?_) (fun e => ?_) <;>
      · have := congrArg BitVec.toNat e
        simpa [BitVec.extractLsb'_toNat, Nat.shiftRight_eq_div_pow] using this
    omega
  · rw [if_neg hc] at h
    exact nomatch h
/-- The three pages, and no other address, are mapped. -/
theorem delta_maps {va leaf : Word} (h : deltaState.Maps 1 va leaf) :
    (va.toNat / 4096 = 0 ∧ leaf = deltaPage) ∨ (va.toNat / 4096 = 1 ∧ leaf = plainPage 0x400) ∨ (va.toNat / 4096 = 2 ∧ leaf = plainPage 0x500) := by
  obtain ⟨pa, h⟩ := h
  obtain ⟨hv, h⟩ := delta_only (va := va) h
  rw [delta_page (fun _ _ _ => rfl), delta_pages _ (by omega)] at h
  have : va.toNat / 4096 % 512 = va.toNat / 4096 := by omega
  rw [this] at h
  split at h
  · exact .inl ⟨‹_›, (Prod.mk.inj (Except.ok.inj h)).1.symm⟩
  · split at h
    · exact .inr (.inl ⟨‹_›, (Prod.mk.inj (Except.ok.inj h)).1.symm⟩)
    · split at h
      · exact .inr (.inr ⟨‹_›, (Prod.mk.inj (Except.ok.inj h)).1.symm⟩)
      · exact nomatch h
theorem delta_mapped {va : Word} {leaf : Word} {pa : Nat} (hv : va.toNat < 2 ^ 21)
    (h : walkFrom deltaHbm (va.toNat / 4096 * 4096) 0 0x5000 = .ok (leaf, pa)) : deltaState.Maps 1 va leaf := by
  have c : canonical va = true := by
    have : va.extractLsb' 56 8 = 0 := by
      apply BitVec.eq_of_toNat_eq
      simp only [BitVec.extractLsb'_toNat, Nat.shiftRight_eq_div_pow]
      rw [Nat.div_eq_of_lt (by omega)]
      rfl
    simp [canonical, this]
  refine ⟨pa, ?_⟩
  change walkTables deltaHbm 0x1000 va = _
  have down : ∀ {level table next : Nat}, va.toNat / 2 ^ (12 + 9 * (level + 1)) % 512 = 0 → Mem.num deltaHbm table 8 = next * 2 ^ 24 + 1 → next < 8 →
      walkFrom deltaHbm va.toNat (level + 1) table = walkFrom deltaHbm va.toNat level (next * 4096) := fun {level table next} hi hn hk => by
    rw [walkFrom, hi, Nat.zero_mul, Nat.add_zero, hn]
    have k := (by decide : ∀ k < 8, leafV (BitVec.ofNat 64 (k * 2 ^ 24 + 1)) = true ∧ leafSz (BitVec.ofNat 64 (k * 2 ^ 24 + 1)) = 0 ∧
      (BitVec.ofNat 64 (k * 2 ^ 24 + 1)).extractLsb' 7 17 = 0 ∧ (BitVec.ofNat 64 (k * 2 ^ 24 + 1)).extractLsb' 1 4 = 0 ∧
      leafPfn (BitVec.ofNat 64 (k * 2 ^ 24 + 1)) * 4096 = k * 4096) next hk
    simp only [k.1, k.2.1, k.2.2.1, k.2.2.2.1, k.2.2.2.2]
    simp
  rw [walkTables, if_pos c, down (next := 2) (by omega) (by decide +kernel) (by decide), down (next := 3) (by omega) (by decide +kernel) (by decide),
    down (next := 4) (by omega) (by decide +kernel) (by decide), down (next := 5) (by omega) (by decide +kernel) (by decide),
    delta_page (fun _ _ _ => rfl), show va.toNat / 4096 % 512 = va.toNat / 4096 by omega, h]
theorem plainFacts (pfn : Nat) (h : pfn = 0x400 ∨ pfn = 0x500) : localHbm (plainPage pfn) = true ∧ leafDlt (plainPage pfn) = false ∧
    (plainPage pfn).getLsbD 3 = true ∧ leafW (plainPage pfn) = true ∧ (plainPage pfn).getLsbD 4 = true := by
  obtain rfl | rfl := h <;> decide
/-- A plain page of the three. -/
theorem delta_byte (write : Bool) {va : Word} {b i pfn : Nat} (hv : va.toNat = b * 4096 + i) (hi : i < 4096) (hb : (b = 1 ∧ pfn = 0x400) ∨ (b = 2 ∧ pfn = 0x500)) :
    ByteOf deltaState (fun _ => plainPage pfn) va write (pfn * 4096 + i) := by
  have q : va.toNat / 4096 = b := by omega
  have r : va.toNat % 4096 = i := by omega
  have place : ∀ p, leafAp (plainPage p) = 0 ∧ leafSz (plainPage p) = 0 ∧ leafPfn (plainPage p) = p ∧ p * 4096 + 4096 ≤ csramBase →
      placeOf (plainPage p) va deltaState.cur.cluster = (.hbm, p * 4096 + i) := fun p ⟨h1, h2, h3, h4⟩ => by
    unfold placeOf
    rw [h1, h2, h3, show pageBytes 0 = 4096 from rfl, r]
    exact if_pos (by omega)
  obtain ⟨rfl, rfl⟩ | ⟨rfl, rfl⟩ := hb
  · exact ⟨delta_mapped (by omega) (by rw [q]; exact delta_pages 1 (by decide)), (plainFacts _ (.inl rfl)).1, (plainFacts _ (.inl rfl)).2.1, (plainFacts _ (.inl rfl)).2.2.1,
      fun _ => (plainFacts _ (.inl rfl)).2.2.2, place _ (by decide)⟩
  · exact ⟨delta_mapped (by omega) (by rw [q]; exact delta_pages 2 (by decide)), (plainFacts _ (.inr rfl)).1, (plainFacts _ (.inr rfl)).2.1, (plainFacts _ (.inr rfl)).2.2.1,
      fun _ => (plainFacts _ (.inr rfl)).2.2.2, place _ (by decide)⟩
theorem delta_whole : PagesWhole deltaState := fun va va' leaf h hp => by
  have s : leafSz deltaPage = 0 ∧ leafSz (plainPage 0x400) = 0 ∧ leafSz (plainPage 0x500) = 0 := by decide
  obtain ⟨hq, rfl⟩ | ⟨hq, rfl⟩ | ⟨hq, rfl⟩ := delta_maps h
  · rw [pageOf, pageOf, s.1, show pageBytes 0 = 4096 from rfl] at hp
    have q : va'.toNat / 4096 = 0 := by omega
    exact delta_mapped (by omega) (by rw [q]; exact delta_pages 0 (by decide))
  · rw [pageOf, pageOf, s.2.1, show pageBytes 0 = 4096 from rfl] at hp
    have q : va'.toNat / 4096 = 1 := by omega
    exact delta_mapped (by omega) (by rw [q]; exact delta_pages 1 (by decide))
  · rw [pageOf, pageOf, s.2.2, show pageBytes 0 = 4096 from rfl] at hp
    have q : va'.toNat / 4096 = 2 := by omega
    exact delta_mapped (by omega) (by rw [q]; exact delta_pages 2 (by decide))
theorem delta_current : StreamsAreCurrent deltaState :=
  ⟨delta_whole, fun va leaf h => by obtain ⟨_, rfl⟩ | ⟨_, rfl⟩ | ⟨_, rfl⟩ := delta_maps h <;> decide, fun _ hm => nomatch hm⟩
theorem delta_runs : EngineRuns deltaState false (atEngine deltaBytes) :=
  ⟨rfl, rfl, ⟨0, rfl⟩, by unfold CopiesApart; exact List.nodup_singleton _, ⟨deltaHbm_wf, memoryWf_w.2⟩, delta_current,
    clear_of rfl rfl rfl ⟨rfl, rfl, rfl, rfl, rfl, rfl⟩, rfl, rfl, rfl, ⟨rfl, rfl, rfl⟩, rfl, rfl⟩
theorem witness_delta (h : Obligations.CopiesMoveTheirBytesAndComplete) : ∃ t, exec (.copyComplete false) deltaState = .next t := by
  have n0 : (copyCmd deltaBytes).n.getD 0 1 = 4096 := by decide +kernel
  have src : (copyCmd deltaBytes).src = BitVec.ofNat 64 0x1000 := by decide +kernel
  have dst : (copyCmd deltaBytes).dst = 0 := by decide +kernel
  have off : (deltaState.taskEff deltaState.cur).baseOff = BitVec.ofNat 64 0x2000 := by decide +kernel
  have size : ∀ d, blockSize (blockGroups d).length ≤ 0x80080 := fun d => blockSize_le (blockGroups_le d)
  obtain ⟨t, e, -⟩ := h.2.2.2.2.2.2.2.1 deltaState false _ (copyCmd deltaBytes) (fun _ => plainPage 0x400) (fun _ => plainPage 0x500) (fun _ => deltaPage)
    (fun b i => 0x400000 + i) (fun b i => 0x500000 + i) delta_runs rfl (by decide +kernel) (by decide +kernel) (by decide +kernel) (by decide +kernel)
    (by decide +kernel)
    (fun b hb => by
      rw [n0] at hb
      obtain rfl : b = 0 := by omega
      rw [dst]
      exact ⟨delta_mapped (by decide) (delta_pages 0 (by decide)), by decide, by decide, by decide, by decide, by decide⟩)
    (fun b hb i hi => by
      rw [n0] at hb
      obtain rfl : b = 0 := by omega
      rw [src, dst, off]
      have v := add_nat 0x1000 (i := 4096 * 0 + i) (by omega)
      have u := add_nat 0x2000 (i := i) (by omega)
      refine ⟨delta_byte false (b := 1) (by rw [v]; omega) hi (.inl ⟨rfl, rfl⟩), delta_byte false (b := 2) ?_ hi (.inr ⟨rfl, rfl⟩)⟩
      rw [show (0 : Word) + BitVec.ofNat 64 (4096 * 0) + BitVec.ofNat 64 0x2000 = BitVec.ofNat 64 0x2000 by decide, u])
    (fun b hb b' hb' j hj j' hj' he => by
      rw [n0] at hb hb'
      simp only [show leafPfn deltaPage = 0x300 by decide] at he
      omega)
    (fun b hb i hi => by
      refine ⟨fun ⟨b', hb', j, hj, he⟩ => ?_, fun ⟨b', hb', j, hj, he⟩ => ?_⟩ <;>
      · simp only [show leafPfn deltaPage = 0x300 by decide] at he
        have : j ≤ 0x80080 := (Nat.le_of_lt hj).trans (size _)
        omega)
    (fun m c va hc hm => by
      obtain rfl := Option.some.inj hc
      refine delta_walk (fun j h1 h2 => hm j fun ⟨b', hb', k, hk, he⟩ => ?_) va
      simp only [show leafPfn deltaPage = 0x300 by decide] at he
      omega)
  exact ⟨t, e⟩

theorem movePasses (xs : List (Nat × Nat × Nat)) (c : CopyCmd) (_hc : c = copyCmd (otherSlot xs).bytes)
    (h : (c.type = 1 ∧ c.cfl < 2 ∧ c.rm = 0 ∧ (∀ x ∈ c.n, 1 ≤ x) ∧ c.p1 = 0 ∧ c.p0 = 0) ∧ (c.cfl % 2 = 1 → c.cwval ≠ c.errval)) : MoveFieldsPass c :=
  ⟨.inl h.1.1, h.1.2.1, h.1.2.2.1, h.1.2.2.2.1, h.1.2.2.2.2.1, fun _ => h.1.2.2.2.2.2, fun e => absurd (h.1.1.symm.trans e) (by decide), h.2⟩
theorem otherApart (c : CopyCmd) (hn : c.n = [8, 1, 1, 1]) (h : ∀ i < 8, ∀ j < 8, copyInt c.src c.s 0 0 0 i < copyInt c.dst c.d 0 0 0 j)
    (i1 i2 i3 i j1 j2 j3 j : Nat) (hi : InExtents c i1 i2 i3 i) (hj : InExtents c j1 j2 j3 j) : copyInt c.src c.s i1 i2 i3 i < copyInt c.dst c.d j1 j2 j3 j := by
  obtain ⟨ki, rfl, rfl, rfl⟩ := extents hn hi
  obtain ⟨kj, rfl, rfl, rfl⟩ := extents hn hj
  exact h i ki j kj
/-- Its completion word is misaligned, or outside the task's pages. -/
def wordOff (a : Nat) : List (Nat × Nat × Nat) := [(0, 1, 1), (1, 1, 1), (0x0C, 4, a), (0x10, 8, 1)]
theorem witness_copyAlign (h : Obligations.CopiesAreQueuedAndHandedOut) :
    ∃ t, exec (.copyHandout false) (copying [otherSlot (wordOff 0x10004)]) = .next t :=
  ⟨_, ((h.2.2.2.2.2 (copying [otherSlot (wordOff 0x10004)]) 0 false (otherSlot (wordOff 0x10004)) _ (fun _ => usedLeaf) (fun _ => usedLeaf) rfl rfl rfl
    (nextFor _) memoryWf_wd (current_of paged_wd rfl rfl) rfl rfl).2.2.1 (movePasses _ _ rfl (by decide +kernel))
    (fun _ => .inl (otherApart _ (by decide +kernel) (by decide +kernel))) (by decide +kernel)).1 (by decide +kernel)⟩
theorem witness_copyBound (h : Obligations.CopiesAreQueuedAndHandedOut) :
    ∃ t, exec (.copyHandout false) (copying [otherSlot (wordOff 0xFFF8)]) = .next t :=
  ⟨_, ((h.2.2.2.2.2 (copying [otherSlot (wordOff 0xFFF8)]) 0 false (otherSlot (wordOff 0xFFF8)) _ (fun _ => usedLeaf) (fun _ => usedLeaf) rfl rfl rfl
    (nextFor _) memoryWf_wd (current_of paged_wd rfl rfl) rfl rfl).2.2.1 (movePasses _ _ rfl (by decide +kernel))
    (fun _ => .inl (otherApart _ (by decide +kernel) (by decide +kernel))) (by decide +kernel)).2 (by decide +kernel) (by decide +kernel)⟩
/-- A copy of 8 bytes to the address 4 bytes after its source. -/
def meetBytes : List (Nat × Nat × Nat) := [(0, 1, 1), (0x28, 8, 0x30004)]
theorem witness_spansMeet (h : Obligations.CopiesAreQueuedAndHandedOut) : ∃ t, exec (.copyHandout false) (copying [otherSlot meetBytes]) = .next t :=
  ⟨_, (h.2.2.2.2.2 (copying [otherSlot meetBytes]) 0 false (otherSlot meetBytes) _ (fun _ => usedLeaf) (fun _ => usedLeaf) rfl rfl rfl
    (nextFor _) memoryWf_wd (current_of paged_wd rfl rfl) rfl rfl).2.1 (movePasses _ _ rfl (by decide +kernel)) (by decide +kernel)
    (fun h => by
      have z : ∀ i < 8, InExtents (copyCmd (otherSlot meetBytes).bytes) 0 0 0 i := by unfold InExtents; decide +kernel
      obtain h | h := h
      · exact absurd (h 0 0 0 4 0 0 0 0 (z 4 (by decide)) (z 0 (by decide))) (by decide +kernel)
      · exact absurd (h 0 0 0 0 0 0 0 0 (z 0 (by decide)) (z 0 (by decide))) (by decide +kernel))⟩
theorem witness_movePasses (h : Obligations.CopiesAreQueuedAndHandedOut) : ∃ t, exec (.copyHandout false) (copying [otherSlot [(0, 1, 1)]]) = .next t := by
  have d : ∀ i < 8, (copyVa (copyCmd (otherSlot [(0, 1, 1)]).bytes).dst (copyCmd (otherSlot [(0, 1, 1)]).bytes).d 0 0 0 i).toNat < 2 ^ 21 ∧
      placeOf usedLeaf (copyVa (copyCmd (otherSlot [(0, 1, 1)]).bytes).dst (copyCmd (otherSlot [(0, 1, 1)]).bytes).d 0 0 0 i)
        (copying [otherSlot [(0, 1, 1)]]).cur.cluster = (.hbm, 0x240000 + i) := by decide +kernel
  have r : ∀ i < 8, (copyVa (copyCmd (otherSlot [(0, 1, 1)]).bytes).src (copyCmd (otherSlot [(0, 1, 1)]).bytes).s 0 0 0 i).toNat < 2 ^ 21 ∧
      placeOf usedLeaf (copyVa (copyCmd (otherSlot [(0, 1, 1)]).bytes).src (copyCmd (otherSlot [(0, 1, 1)]).bytes).s 0 0 0 i)
        (copying [otherSlot [(0, 1, 1)]]).cur.cluster = (.hbm, 0x230000 + i) := by decide +kernel
  have x : (copyCmd (otherSlot [(0, 1, 1)]).bytes).n = [8, 1, 1, 1] := by decide +kernel
  obtain ⟨t, e, -⟩ := (h.2.2.2.2.2 (copying [otherSlot [(0, 1, 1)]]) 0 false (otherSlot [(0, 1, 1)]) _ (fun _ => usedLeaf) (fun _ => usedLeaf) rfl rfl rfl
    (nextFor _) memoryWf_wd (current_of paged_wd rfl rfl) rfl rfl).2.2.2 (movePasses _ _ rfl (by decide +kernel))
    (fun _ => .inl (otherApart _ (by decide +kernel) (by decide +kernel))) (fun h => absurd h (by decide +kernel))
    (fun i1 i2 i3 i hi => by
      obtain ⟨ki, rfl, rfl, rfl⟩ := extents x hi
      exact ⟨_, byteOf_of (paged_copying _) rfl (d i ki).1 (d i ki).2 true⟩)
    (fun _ i1 i2 i3 i hi => by
      obtain ⟨ki, rfl, rfl, rfl⟩ := extents x hi
      exact ⟨_, byteOf_of (paged_copying _) rfl (r i ki).1 (r i ki).2 false⟩)
    (waitsMet (by decide +kernel))
  exact ⟨t, e⟩

/-- A transfer of 4 bytes at 0x30000 with channel 0 of peer 7. -/
def linkCaps : List Word := [7, 0x30000, 4]
/-- An entry heads the link queue. -/
def lnk (i : Instr) (caps : List Word := linkCaps) (f : Entry → Entry := id) : State := acting wd (f (entry .lnk i caps))
theorem lnkHead (i : Instr) (caps : List Word) (lk : LinkProg) (b : Bool) :
    LnkHead (lnk i caps fun e => { e with lk, begun := b }) { entry .lnk i caps with lk, begun := b } :=
  ⟨rfl, rfl, rfl, rfl, rfl, memoryWf_wd, fun _ h => nomatch h⟩
theorem lnkEntry (i : Instr) (caps : List Word) : LnkEntry (lnk i caps) (entry .lnk i caps) :=
  ⟨rfl, rfl, rfl, List.mem_singleton_self _, memoryWf_wd, fun _ h _ => List.mem_singleton.1 h⟩
theorem paged_lnk (i : Instr) (caps : List Word) (f : Entry → Entry) : PagedBy usedLeaf (lnk i caps f) := paged_wd
theorem bytes_at {s : State} (hp : PagedBy usedLeaf s) (hc : s.cur.pool.ctx = 1) (base : Word) (a n : Nat)
    (h : ∀ i < n, (base + BitVec.ofNat 64 i).toNat < 2 ^ 21 ∧ placeOf usedLeaf (base + BitVec.ofNat 64 i) s.cur.cluster = (.hbm, a + i)) (write : Bool) :
    ∀ i < n, ByteOf s (fun _ => usedLeaf) (base + BitVec.ofNat 64 i) write (a + i) :=
  fun i hi => byteOf_of hp hc (h i hi).1 (h i hi).2 write
theorem witness_lsend (h : Obligations.TransfersBeginAndPerform) : ∃ t, exec (.lsend 4 5 6 none 3) (lnk (.lsend 4 5 6 none 3)) = .next t :=
  let ⟨_, _, _, e, _⟩ := h.1 (lnk (.lsend 4 5 6 none 3)) (entry .lnk (.lsend 4 5 6 none 3) linkCaps) true 3 7 0 4 0x30000 (fetchCtx 1) (fun _ => usedLeaf)
    (fun i => 0x230000 + i) (lnkEntry (.lsend 4 5 6 none 3) linkCaps) rfl rfl (pagesWhole_of (paged_lnk _ _ id) rfl)
    (clear_of rfl rfl rfl ⟨rfl, rfl, rfl, rfl, rfl, rfl⟩) rfl rfl rfl rfl rfl (by decide) (by decide) rfl (fun _ h => nomatch h) rfl rfl
    (bytes_at (paged_lnk _ _ id) rfl _ _ _ (by decide +kernel) _) (fun _ _ _ _ _ _ h => nomatch h)
  ⟨_, e⟩
theorem witness_lradd (h : Obligations.TransfersBeginAndPerform) :
    ∃ t, exec (.lradd 4 5 6 (some 7) 3 2) (lnk (.lradd 4 5 6 (some 7) 3 2) [7, 0x30000, 4, 0x10008]) = .next t :=
  let ⟨_, _, _, e, _⟩ := h.1 (lnk (.lradd 4 5 6 (some 7) 3 2) [7, 0x30000, 4, 0x10008]) (entry .lnk (.lradd 4 5 6 (some 7) 3 2) [7, 0x30000, 4, 0x10008])
    false 3 7 0 4 0x30000 (fetchCtx 1) (fun _ => usedLeaf)
    (fun i => 0x230000 + i) (lnkEntry (.lradd 4 5 6 (some 7) 3 2) [7, 0x30000, 4, 0x10008]) rfl rfl (pagesWhole_of (paged_lnk _ _ id) rfl)
    (clear_of rfl rfl rfl ⟨rfl, rfl, rfl, rfl, rfl, rfl⟩) rfl rfl rfl rfl rfl (by decide) (by decide) rfl
    (fun a ha => by obtain rfl : (0x10008 : Word) = a := Option.some.inj ha; unfold InScratch; decide +kernel) rfl rfl
    (bytes_at (paged_lnk _ _ id) rfl _ _ _ (by decide +kernel) _) (fun _ _ _ _ _ _ _ _ _ => by decide)
  ⟨_, e⟩
/-- A transfer whose pair is done. -/
def doneLink : LinkProg := { partner := some 4, bytes := 4 }
theorem witness_lrecvDone (h : Obligations.TransfersBeginAndPerform) :
    ∃ t, exec (.lrecv 4 5 6 none 3) (lnk (.lrecv 4 5 6 none 3) linkCaps fun e => { e with lk := doneLink, begun := true }) = .next t :=
  let ⟨_, e, _⟩ := h.2.2.1 _ { entry .lnk (.lrecv 4 5 6 none 3) linkCaps with lk := doneLink, begun := true } false 3 (lnkHead _ _ doneLink true) rfl rfl rfl
    ⟨4, rfl, by decide⟩ (by decide)
  ⟨_, e⟩
theorem witness_lost (h : Obligations.TransfersBeginAndPerform) :
    ∃ t, exec (.lrecv 4 5 6 none 3) (lnk (.lrecv 4 5 6 none 3) linkCaps fun e => { e with lk := { lost := true }, begun := true }) = .next t :=
  let ⟨_, _, e, _⟩ := h.2.2.2.1 _ { entry .lnk (.lrecv 4 5 6 none 3) linkCaps with lk := { lost := true }, begun := true } false 3
    (lnkHead _ _ { lost := true } true) rfl rfl rfl (by decide)
  ⟨_, e⟩
/-- A transfer behind one that is still open. -/
def behind : Entry := { entry .lnk (.lsend 4 5 6 none 3) linkCaps with num := 6 }
def lnkBehind : State := { wd with cur := wd.cur.setQueue .lnk [entry .lnk (.lrecv 4 5 6 none 3) linkCaps, behind], act := some behind }
theorem witness_behind (h : Obligations.TransfersBeginAndPerform) : ∃ t, exec (.lsend 4 5 6 none 3) lnkBehind = .next t :=
  let ⟨_, _, _, e, _⟩ := h.1 lnkBehind behind true 3 7 0 4 0x30000 (fetchCtx 1) (fun _ => usedLeaf) (fun i => 0x230000 + i)
    ⟨rfl, rfl, rfl, .tail _ (.head _), memoryWf_wd, fun x hx hn => by
      rcases List.mem_cons.1 hx with rfl | hx
      · exact absurd hn (by decide)
      · exact List.mem_singleton.1 hx⟩ rfl rfl (pagesWhole_of (l := usedLeaf) paged_wd rfl) (clear_of rfl rfl rfl ⟨rfl, rfl, rfl, rfl, rfl, rfl⟩) rfl rfl
    rfl rfl rfl (by decide) (by decide) rfl (fun _ h => nomatch h) rfl rfl (bytes_at (s := lnkBehind) paged_wd rfl _ _ _ (by decide +kernel) _)
    (fun _ _ _ _ _ _ h => nomatch h)
  ⟨_, e⟩
theorem witness_lstat (h : Obligations.TransfersBeginAndPerform) : ∃ t, exec (.lstat true) (lnk (.lstat true) []) = .next t :=
  let ⟨_, e, _⟩ := h.2.2.2.2 (lnk (.lstat true) []) (entry .lnk (.lstat true)) true (lnkHead (.lstat true) [] {} false) rfl rfl (by decide)
  ⟨_, e⟩
/-- A begun entry of the link queue, to a peer, with the leaf of its page. -/
def openEntry (i : Instr) (lk : LinkProg) (peer : Word := 7) : Entry :=
  { entry .lnk i [peer, 0x30000, 4] with begun := true, lk := { lk with leaves := [(0x30000, usedLeaf)] } }
/-- A task that sends four bytes to peer 7, with channel 0. -/
def sender : Task := { fetchTask 1 9 with status := .suspended, queues := (Vector.replicate 9 []).set Stream.lnk.code.toNat [openEntry (.lsend 4 5 6 none 3) {}] }
/-- The acting task has begun some link entries, and its context owns the channels 0 and 1. -/
def opened (es : List Entry) (others : List Task := []) : State :=
  { wd with
    cur := wd.cur.setQueue .lnk es, others
    ctxs := [{ fetchCtx 1 with chanCount := 2, issued := [((7 * 256 + 0) * 2, 1)] }], sent := [.flit 7 0 0 [1, 2, 3, 4] false] }
theorem opened_focus (es : List Entry) (os : List Task) : (opened es os).focus (opened es os).cur.tid = opened es os := if_pos ⟨(fun h => nomatch h), rfl⟩
theorem opened_clear (es : List Entry) (os : List Task) : (opened es os).Clear := clear_of rfl rfl rfl ⟨rfl, rfl, rfl, rfl, rfl, rfl⟩
theorem leavesWhole_one {e : Entry} {a l : Word} (h : e.lk.leaves = [(a, l)]) : LeavesWhole e := by
  intro va va' leaf hl hp
  unfold Entry.linkLeaf at hl ⊢
  rw [h] at hl ⊢
  cases hc : (pageOf l a == pageOf l va)
  · rw [List.find?_cons_of_neg (by simp [hc])] at hl
    exact nomatch hl
  · rw [List.find?_cons_of_pos (by exact hc)] at hl
    cases hl
    rw [List.find?_cons_of_pos]
    · rfl
    · rw [beq_iff_eq] at hc ⊢
      exact hc.trans hp.symm
/-- The pages of an entry give each byte of its range its place. -/
theorem linkBytes {s : State} {e : Entry} (off n : Nat)
    (h : ∀ i < n, e.linkLeaf (e.caps.getD 1 0 + BitVec.ofNat 64 (off + i)) = some usedLeaf ∧
      placeOf usedLeaf (e.caps.getD 1 0 + BitVec.ofNat 64 (off + i)) s.cur.cluster = (.hbm, 0x230000 + i)) :
    ∀ i < n, LinkByte s e (fun _ => usedLeaf) (off + i) (0x230000 + i) :=
  fun i hi => ⟨(h i hi).1, (by decide : localHbm usedLeaf = true), (by decide : leafDlt usedLeaf = false), (h i hi).2⟩
/-- A peer that is not this chip. -/
theorem otherChip : ∃ p : Nat, (p = 7 ∨ p = 8) ∧ BitVec.ofNat 10 p ≠ Config.chip := by
  by_cases h : BitVec.ofNat 10 7 = Config.chip
  · exact ⟨8, .inr rfl, by rw [← h]; decide⟩
  · exact ⟨7, .inl rfl, h⟩
/-- A send that does not know its partner yet. -/
def meeting (p : Nat) : State := opened [openEntry (.lsend 4 5 6 none 3) {} (BitVec.ofNat 64 p)]
theorem witness_meet (h : Obligations.TransfersBeginAndPerform) : ∃ p t, linkNews p 0 true 4 (meeting p) = .next t := by
  obtain ⟨p, hp, hc⟩ := otherChip
  refine ⟨p, ?_⟩
  obtain ⟨t, e, -⟩ := h.2.1 (meeting p) p 0 4 true (meeting p).cur (openEntry (.lsend 4 5 6 none 3) {} (BitVec.ofNat 64 p)) (fun _ => usedLeaf)
    (fun i => 0x230000 + i) (by obtain rfl | rfl := hp <;> decide +kernel) (by rw [meeting, opened_focus]) hc (by decide) rfl rfl
    (by rw [meeting, opened_focus]; exact opened_clear _ _) rfl (leavesWhole_one rfl) (fun _ i hi => by
      rw [meeting, opened_focus]
      have := linkBytes (s := meeting p) (e := openEntry (.lsend 4 5 6 none 3) {} (BitVec.ofNat 64 p)) 0 4
        (by obtain rfl | rfl := hp <;> decide +kernel) i (by obtain rfl | rfl := hp <;> exact hi)
      rwa [Nat.zero_add] at this)
  exact ⟨t, e⟩
/-- A receive of channel 0. -/
def receiving : State := opened [openEntry (.lrecv 4 5 6 none 3) {}] [sender]
theorem receiving_wf : receiving.MemoryWf := ⟨memoryWf_wd.1, rfl, rfl, rfl, rfl, rfl, fun t h => by obtain rfl := List.mem_singleton.1 h; rfl⟩
theorem witness_flit (h : Obligations.LinkEventsMoveAndLosePairs) : ∃ t, exec (.linkFlitReceive 7 0 4 [1, 2, 3, 4] false) receiving = .next t := by
  obtain ⟨_, e, -⟩ := (h.1 receiving 7 0 4 [1, 2, 3, 4] false receiving.cur (openEntry (.lrecv 4 5 6 none 3) {}) (fun _ => usedLeaf)
    (fun i => 0x230000 + i) .fp32 (by decide +kernel) (by rw [receiving, opened_focus]) (by rw [receiving, opened_focus]; exact opened_clear _ _) rfl rfl
    receiving_wf rfl (leavesWhole_one rfl) (.inl rfl) (by decide) (by decide) (.inl rfl) (by unfold State.loopOk; split <;> decide +kernel)).2 rfl
    (by rw [receiving, opened_focus]; exact linkBytes _ 4 (by decide +kernel)) (fun i _ j _ h => Nat.add_left_cancel h)
  exact ⟨_, e⟩
/-- Two lradds to the same element, the later one in channel 0. -/
def adding : State :=
  opened [{ openEntry (.lradd 4 5 6 none 3 2) {} 0x10007 with num := 1 }, { openEntry (.lradd 4 5 6 none 3 2) {} with num := 2 }] [sender]
theorem adding_wf : adding.MemoryWf := receiving_wf
theorem witness_flitWaits (h : Obligations.LinkEventsMoveAndLosePairs) : exec (.linkFlitReceive 7 0 4 [1, 2, 3, 4] false) adding = .next adding :=
  (h.1 adding 7 0 4 [1, 2, 3, 4] false adding.cur { openEntry (.lradd 4 5 6 none 3 2) {} with num := 2 } (fun _ => usedLeaf)
    (fun i => 0x230000 + i) .fp32 (by decide +kernel) (by rw [adding, opened_focus]) (by rw [adding, opened_focus]; exact opened_clear _ _) rfl rfl
    adding_wf rfl (leavesWhole_one rfl) (.inl rfl) (by decide) (by decide) (.inl rfl) (by unfold State.loopOk; split <;> decide +kernel)).1 (by decide +kernel)
/-- A send that knows its partner. -/
def sending : State := opened [openEntry (.lsend 4 5 6 none 3) { partner := some 4 }]
theorem witness_accepted (h : Obligations.LinkEventsMoveAndLosePairs) : ∃ t, exec (.linkSendAccepted 7 0 4) sending = .next t :=
  let ⟨_, _, e⟩ := h.2.1.1 sending (sending.focus sending.cur.tid) 7 0 4 sending.cur (openEntry (.lsend 4 5 6 none 3) { partner := some 4 })
    (by decide +kernel) (by rw [sending, opened_focus]) (by decide) (by unfold State.loopAccepted; split <;> decide +kernel) (.inr (by decide))
    (.inl ⟨rfl, rfl⟩) (by rw [sending, opened_focus]; intro x hx _; obtain rfl := List.mem_singleton.1 hx; exact ⟨rfl, rfl⟩)
  ⟨_, e⟩
/-- The send of channel 0 meets its partner. -/
def meetRun := (linkMeet (openEntry (.lsend 4 5 6 none 3) {}) 4).run.run (meeting 7)
theorem witness_acceptedMeets (h : Obligations.LinkEventsMoveAndLosePairs) : ∃ t, exec (.linkSendAccepted 7 0 4) (meeting 7) = .next t := by
  obtain ⟨⟨⟩, -, e⟩ := ok_of meetRun (by decide +kernel)
  obtain ⟨_, -, e⟩ := h.2.1.1 (meeting 7) meetRun.2 7 0 4 (meeting 7).cur (openEntry (.lsend 4 5 6 none 3) {}) (by decide +kernel)
    (by rw [meeting, opened_focus]) (by decide) (by unfold State.loopAccepted; split <;> decide +kernel) (.inl rfl)
    (.inr ⟨rfl, by rw [meeting, opened_focus]; exact e⟩) (by decide +kernel)
  exact ⟨_, e⟩
/-- A send to a peer, which knows its partner. -/
def met (p : Nat) : State := opened [openEntry (.lsend 4 5 6 none 3) { partner := some 4, idle := 9 } (BitVec.ofNat 64 p)]
theorem witness_news (h : Obligations.LinkEventsMoveAndLosePairs) : ∃ p t, linkNews p 0 true 0 (met p) = .next t := by
  obtain ⟨p, hp, hc⟩ := otherChip
  obtain ⟨_, -, e⟩ := h.2.1.2 (met p) p 0 (met p).cur (openEntry (.lsend 4 5 6 none 3) { partner := some 4, idle := 9 } (BitVec.ofNat 64 p))
    (by obtain rfl | rfl := hp <;> decide +kernel) (by rw [met, opened_focus]) hc (show 9 < 2 ^ 24 by decide)
  exact ⟨p, _, e⟩
/-- A send that has heard nothing for 2^24 cycles. -/
def silent : LinkProg := { partner := some 4, idle := 2 ^ 24 }
theorem witness_timeout (h : Obligations.LinkEventsMoveAndLosePairs) :
    ∃ t, exec (.linkFlitTimeout 7 0) (opened [openEntry (.lsend 4 5 6 none 3) silent]) = .next t :=
  let s := opened [openEntry (.lsend 4 5 6 none 3) silent]
  let ⟨_, e, _⟩ := h.2.2.2.1 s 7 0 (s.cur, openEntry (.lsend 4 5 6 none 3) silent) (.inl (by decide +kernel)) (Nat.le_refl _) rfl
  ⟨_, e⟩
theorem witness_crc (h : Obligations.LinkEventsMoveAndLosePairs) : ∃ t, exec (.flitCrcRetry 23) w = .next t :=
  ⟨_, (h.2.2.2.2.2 w 23 (by decide)).1 (by decide)⟩
theorem witness_portDown (h : Obligations.LinkEventsMoveAndLosePairs) :
    ∃ t, exec (.flitCrcRetry 23) { w with retries := .replicate 24 15 } = .next t :=
  let ⟨_, e, _⟩ := (h.2.2.2.2.2 { w with retries := .replicate 24 15 } 23 (by decide)).2 (by decide)
  ⟨_, e⟩
theorem witness_unreachable (h : Obligations.LinkEventsMoveAndLosePairs) :
    ∃ t, exec (.linkPeerUnreachable 7) sending = .next t ∧ (7, wholePeer) ∈ t.lost :=
  let ⟨_, e, m, _⟩ := h.2.2.1 sending 7
  ⟨_, e, m⟩

theorem runAt_of {l : Word} {s : State} (hp : PagedBy l s) {va : Word} {a len : Nat} (hl : localHbm l = true ∧ leafW l = true ∧ leafDlt l = false)
    (ha : placeOf l va 0 = (.hbm, a)) (hv : va.toNat + len ≤ 2 ^ 21) : RunAt s 1 va l a len := by
  refine ⟨hl.1, hl.2.1, hl.2.2, ha, ?_, fun off ho => hp.maps (by rw [BitVec.toNat_add]; omega)⟩
  rw [hp.2.2.1.2.1]
  simp only [pageBytes]
  omega
theorem tablesKeep_of {l : Word} {s : State} (hp : PagedBy l s) {F : Nat → Prop} (hf : ∀ a, F a → 0x5000 ≤ a) : TablesKeep s 1 F := by
  intro m c va hx hm
  obtain ⟨⟨c', hc', hr⟩, -, ht⟩ := hp
  cases hx.symm.trans hc'
  rw [hr]
  exact walk_congr (ht.agree fun j _ q => hm j fun hj => by have := hf j hj; omega) ht va
/-- A launch of one node at 0x30000. -/
def launch1 : Launch :=
  { serial := 1, ctx := 1, queue := 0, nodeTbl := 0x30000, nodeCnt := 1, overlap := false, lrcb := 0x10000, lttbl := 0x38000, doneVa := 0, doneVal := 0 }
/-- A machine with launches and some memory. -/
def launching (ls : List Launch) (xs : List (Nat × Nat × Nat) := []) : State := { mem wd xs with launches := ls }
theorem paged_launching (ls : List Launch) (xs : List (Nat × Nat × Nat)) (hx : xs.all (fun x => decide (0x5000 ≤ x.1)) = true) :
    PagedBy usedLeaf (launching ls xs) := PagedBy.mem paged_wd xs hx
theorem memoryWf_launching (ls : List Launch) (xs : List (Nat × Nat × Nat)) : (launching ls xs).MemoryWf := memoryWf_mem memoryWf_wd xs
theorem only_launch (s : State) (P : Launch → Prop) (l : Launch) (hs : s.launches = [l]) (hp : P l) : FirstLaunch s P [] [] l :=
  ⟨hs, hp, (fun _ h => nomatch h), (fun _ h => nomatch h)⟩
theorem the_launch (s : State) (l : Launch) (hs : s.launches = [l]) : TheLaunch s l :=
  ⟨hs ▸ List.mem_singleton_self l, fun _ h _ => List.mem_singleton.1 (hs ▸ h)⟩
theorem allFree (l : Launch) (xs : List (Nat × Nat × Nat)) (hl : l.accepted = false) (u : Nat) : u ∈ List.range 64 ↔ UnitFree (launching [l] xs) u := by
  refine ⟨fun h => ⟨List.mem_range.1 h, fun m hm ha => ?_⟩, fun h => List.mem_range.2 h.1⟩
  obtain rfl := List.mem_singleton.1 hm
  rw [hl] at ha
  exact nomatch ha
theorem witness_accept (h : Obligations.LaunchesAreAcceptedAndRetired) : ∃ t, exec (.launchAccept 1 0) (launching [launch1]) = .next t :=
  let ⟨_, _, e, _⟩ := ((h.1 (launching [launch1]) 1 0 launch1 [] [] (List.range 64) (only_launch _ _ _ rfl ⟨rfl, rfl, rfl⟩)
    (allFree launch1 [] rfl) List.nodup_range).2 (.inr (fun m hm => by obtain rfl := List.mem_singleton.1 hm; decide))).2.2 (by decide +kernel) (by decide)
    (memoryWf_launching _ [])
  ⟨_, e⟩
theorem witness_acceptWaits (h : Obligations.LaunchesAreAcceptedAndRetired) :
    ∃ t, exec (.launchAccept 1 0) (launching [{ launch1 with csSz := 65 }]) = .next t :=
  ⟨_, ((h.1 (launching [{ launch1 with csSz := 65 }]) 1 0 { launch1 with csSz := 65 } [] [] (List.range 64)
    (only_launch _ _ _ rfl ⟨rfl, rfl, rfl⟩) (allFree _ [] rfl) List.nodup_range).2
    (.inr (fun m hm => by obtain rfl := List.mem_singleton.1 hm; decide))).2.1 (by decide +kernel) (by decide)⟩
theorem witness_acceptAborted (h : Obligations.LaunchesAreAcceptedAndRetired) :
    ∃ t, exec (.launchAccept 1 0) (launching [launch1] [(0x21000B, 1, 1)]) = .next t :=
  ⟨_, ((h.1 (launching [launch1] [(0x21000B, 1, 1)]) 1 0 launch1 [] [] (List.range 64)
    (only_launch _ _ _ rfl ⟨rfl, rfl, rfl⟩) (allFree _ _ rfl) List.nodup_range).2
    (.inr (fun m hm => by obtain rfl := List.mem_singleton.1 hm; decide))).1 (by decide +kernel)⟩
theorem witness_acceptOrder (h : Obligations.LaunchesAreAcceptedAndRetired) :
    ∃ t, exec (.launchAccept 1 0) (launching [{ launch1 with prev := 1 }]) = .next t :=
  ⟨_, (h.1 (launching [{ launch1 with prev := 1 }]) 1 0 { launch1 with prev := 1 } [] [] (List.range 64)
    (only_launch _ _ _ rfl ⟨rfl, rfl, rfl⟩) (allFree _ [] rfl) List.nodup_range).1 rfl ⟨_, List.mem_singleton_self _, rfl⟩⟩
/-- A launch whose passes have ended. -/
def passedLaunch : Launch := { launch1 with accepted := true, passed := .replicate 4 true }
theorem witness_retire (h : Obligations.LaunchesAreAcceptedAndRetired) :
    ∃ t, exec (.launchRetire 1) (launching [{ passedLaunch with doneVa := 0x30000 }]) = .next t :=
  let ⟨_, e, _⟩ := ((h.2.1 (launching [{ passedLaunch with doneVa := 0x30000 }]) { passedLaunch with doneVa := 0x30000 } (the_launch _ _ rfl) rfl
    (by decide +kernel) rfl).2 (by decide) (fun _ h => nomatch h) (by decide +kernel)).2 usedLeaf 0x230000 (memoryWf_launching _ []) (by decide)
    (runAt_of (paged_launching _ [] rfl) (by decide) (by decide +kernel) (by decide))
    (by decide) (by decide)
  ⟨_, e⟩
theorem witness_retireWaits (h : Obligations.LaunchesAreAcceptedAndRetired) :
    ∃ t, exec (.launchRetire 1) (launching [{ launch1 with accepted := true }]) = .next t :=
  ⟨_, (h.2.1 (launching [{ launch1 with accepted := true }]) { launch1 with accepted := true } (the_launch _ _ rfl) rfl (by decide +kernel) rfl).1
    (.inl ⟨0, rfl⟩)⟩
theorem witness_retireAborted (h : Obligations.LaunchesAreAcceptedAndRetired) :
    ∃ t, exec (.launchRetire 1) (launching [passedLaunch] [(0x21000B, 1, 1)]) = .next t :=
  let e := h.2.2.1 (launching [passedLaunch] [(0x21000B, 1, 1)]) passedLaunch (the_launch _ _ rfl) rfl (by decide +kernel)
  by rw [show (.launchRetire 1 : Instr) = .launchRetire passedLaunch.serial from rfl, e]; split <;> exact ⟨_, rfl⟩
theorem witness_abort (h : Obligations.LaunchesAreAcceptedAndRetired) :
    ∃ t, exec (.abortComplete 1 0x10000) (launching [passedLaunch] [(0x21000B, 1, 1)]) = .next t :=
  let ⟨_, e, _⟩ := (h.2.2.2 (launching [passedLaunch] [(0x21000B, 1, 1)]) 1 0x10000 usedLeaf 0x210000 (memoryWf_launching _ _) (by decide)
    (runAt_of (paged_launching _ _ rfl) (by decide) (by decide +kernel) (by decide)) (by decide +kernel)).2 (by decide +kernel)
    (tablesKeep_of (paged_launching _ _ rfl) fun a ha => by omega)
  ⟨_, e⟩
theorem witness_abortWaits (h : Obligations.LaunchesAreAcceptedAndRetired) :
    ∃ t, exec (.abortComplete 1 0x10000) (launching [] [(0x21000B, 1, 1), (0x210050, 4, 1)]) = .next t :=
  ⟨_, (h.2.2.2 (launching [] [(0x21000B, 1, 1), (0x210050, 4, 1)]) 1 0x10000 usedLeaf 0x210000 (memoryWf_launching _ _) (by decide)
    (runAt_of (paged_launching _ _ rfl) (by decide) (by decide +kernel) (by decide)) (by decide +kernel)).1 (by decide +kernel)⟩
/-- An accepted launch, whose passes are still to run. -/
def openLaunch : Launch := { launch1 with accepted := true }
/-- Every page of the context is marked. -/
theorem marked_of {s : State} (h : PagedBy usedLeaf s) : MarkedPages s 1 := by
  intro va leaf ⟨pa, hl⟩
  obtain ⟨⟨c, hc', hr⟩, -, ht⟩ := id h
  simp only [State.lookup, hc', hr] at hl
  obtain ⟨rfl, -⟩ := Prod.mk.inj (walk_only ht hl).2
  exact ⟨by decide, fun _ => by decide⟩
/-- The record of its node: template 3. -/
def passing : State := launching [openLaunch] [(0x230000, 2, 3)]
theorem one {P : Nat → Prop} (h : P 0) : ∀ i < 1, P i := fun i hi => by obtain rfl := Nat.lt_one_iff.1 hi; exact h
theorem chunks_ok {ε α : Type} {x : Except ε (List α)} {p : α → Bool} (h : x.toOption.any (fun l => l.all p) = true) :
    ∃ cs, x = .ok cs ∧ ∀ c ∈ cs, p c = true := by
  cases x with
  | error _ => exact nomatch h
  | ok l => exact ⟨l, rfl, fun c hc => List.all_eq_true.1 h c hc⟩
theorem passOpen : PassOpen passing 0 openLaunch := ⟨the_launch _ _ rfl, rfl, rfl, rfl, by decide +kernel⟩
theorem witness_pass (h : Obligations.PassesOrderTheirNodes) : ∃ t, exec (.distributionPass 0 1) passing = .next t :=
  let ⟨_, _, e, _⟩ := h.1 passing 0 openLaunch (fun _ => Mem.readN passing.hbm 0x230000 64) (fun _ => []) (fun _ => 0) (fun _ => 0)
    (fun _ => 0x23001C) (fun _ => usedLeaf) (memoryWf_launching _ _) passOpen (marked_of (paged_launching _ _ rfl)) rfl (by decide)
    (one ⟨by decide +kernel, by decide +kernel⟩) (one (by unfold NodeBad; decide +kernel)) (one (by rw [if_pos (by decide +kernel)]))
    (one ⟨by decide, .inr (.inr ⟨fun x hx => hx.1 (by decide +kernel), fun hx => absurd hx.1 (by decide +kernel), rfl⟩)⟩)
    (one (chunks_ok (p := fun c : Chunk => leafW c.leaf) (by decide +kernel)))
    (one fun _ => runAt_of (paged_launching _ _ rfl) (by decide) (by decide +kernel) (by decide +kernel))
    (one fun j hj _ _ hn => absurd (Nat.lt_one_iff.1 hj).symm hn)
    (tablesKeep_of (paged_launching _ _ rfl) fun a ⟨_, _, _, ha⟩ => by omega)
  ⟨_, e⟩
/-- A record with a reserved bit of its template. -/
def passingBad : State := launching [openLaunch] [(0x230000, 2, 0x400)]
theorem witness_passBad (h : Obligations.PassesOrderTheirNodes) : ∃ t, exec (.distributionPass 0 1) passingBad = .next t :=
  let ⟨_, _, _, e, _⟩ := h.2.1 passingBad 0 openLaunch (fun _ => Mem.readN passingBad.hbm 0x230000 64) (fun _ => [])
    ⟨the_launch _ _ rfl, rfl, rfl, rfl, by decide +kernel⟩ rfl (one ⟨by decide +kernel, by decide +kernel⟩)
    (.inl ⟨0, by decide, .inl (by decide +kernel)⟩)
  ⟨_, e⟩
theorem witness_passWaits (h : Obligations.PassesOrderTheirNodes) :
    ∃ t, exec (.distributionPass 0 1) (launching [{ openLaunch with nodeTbl := 0x200000 }]) = .next t :=
  ⟨_, h.2.2 (launching [{ openLaunch with nodeTbl := 0x200000 }]) 0 { openLaunch with nodeTbl := 0x200000 }
    ⟨the_launch _ _ rfl, rfl, rfl, rfl, by decide +kernel⟩ rfl (by decide) (by decide +kernel) (by decide)⟩
/-- A node of template 3. -/
def node3 : Node := { tpl := 3 }
/-- A launch with node 0 in the cursor of die 0. -/
def cursorLaunch : Launch := { passedLaunch with lttbl := 0x30000, nodes := [node3], cursor := #v[[0], [], [], []] }
/-- Template 3 of the table at 0x30000, valid or not. -/
def template3 (v : Nat) : List (Nat × Nat × Nat) := [(0x230060, 8, 0x20000), (0x230068, 1, 1), (0x23006A, 2, v)]
theorem hasNext (xs : List (Nat × Nat × Nat)) (h : (launching [cursorLaunch] xs).chainAborted 1 0x10000 = false) :
    HasNext (launching [cursorLaunch] xs) 0 cursorLaunch := ⟨rfl, rfl, h, fun h => nomatch h⟩
/-- The 4,096 tasks of a full pool of die 0. -/
@[irreducible] def fullPool : List Task := (List.range 4096).map fun i => { w.cur with pool := { w.cur.pool with die := 0, index := i } }
theorem poolFull (s : State) : ({ s with others := fullPool } : State).freeIndex 0 = none := by
  unfold fullPool
  generalize hr : List.range 4096 = r
  unfold State.freeIndex
  simp only [List.find?_eq_none, Bool.and_eq_true, decide_eq_true_eq, not_and]
  intro i _ hi
  simp only [Bool.not_eq_true', Bool.not_eq_false, List.contains_iff_mem, List.mem_map, List.mem_filter]
  refine ⟨{ w.cur with pool := { w.cur.pool with die := 0, index := i } }, ⟨?_, rfl⟩, rfl⟩
  have hm := List.mem_map_of_mem (f := fun i : Nat => ({ w.cur with pool := { w.cur.pool with die := 0, index := i } } : Task)) (hr ▸ List.mem_range.2 hi)
  unfold State.tasks
  split
  · exact hm
  · exact List.mem_cons_of_mem _ hm
theorem witness_cursor (h : Obligations.NodesAndContinuationsEnterPools) :
    ∃ t, exec (.cursorEnqueue 0) (launching [cursorLaunch] (template3 1)) = .next t :=
  let ⟨_, _, e, _⟩ := ((h.1 (launching [cursorLaunch] (template3 1)) 0 cursorLaunch [] [] 0 [] node3 (only_launch _ _ _ rfl (hasNext _ (by decide +kernel))) rfl rfl rfl).2 1 0x20000 1 0 true (by decide +kernel) (by decide +kernel) (by decide +kernel)).2.1 rfl
    (by decide +kernel)
  ⟨_, e⟩
theorem witness_cursorBad (h : Obligations.NodesAndContinuationsEnterPools) :
    ∃ t, exec (.cursorEnqueue 0) (launching [cursorLaunch] (template3 0)) = .next t :=
  let ⟨_, _, _, e, _⟩ := ((h.1 (launching [cursorLaunch] (template3 0)) 0 cursorLaunch [] [] 0 [] node3 (only_launch _ _ _ rfl (hasNext _ (by decide +kernel))) rfl rfl rfl).2 1 0x20000 1 0 false (by decide +kernel) (by decide +kernel) (by decide +kernel)).2.2 rfl
  ⟨_, e⟩
/-- The template of the node charges an RCB of its own, at 0x38000, which is aborting. -/
def charged : List (Nat × Nat × Nat) := template3 1 ++ [(0x230070, 8, 0x38000), (0x23800B, 1, 1)]
theorem witness_cursorDiscard (h : Obligations.NodesAndContinuationsEnterPools) :
    ∃ t, exec (.cursorEnqueue 0) (launching [cursorLaunch] charged) = .next t :=
  ⟨_, ((h.1 (launching [cursorLaunch] charged) 0 cursorLaunch [] [] 0 [] node3 (only_launch _ _ _ rfl (hasNext _ (by decide +kernel))) rfl rfl rfl).2 1 0x20000 1 0x38000 true (by decide +kernel) (by decide +kernel) (by decide +kernel)).1 rfl (by decide +kernel)⟩
theorem witness_cursorFull (h : Obligations.NodesAndContinuationsEnterPools) :
    ∃ t, exec (.cursorEnqueue 0) { launching [cursorLaunch] (template3 1) with others := fullPool } = .next t :=
  ⟨_, (h.1 { launching [cursorLaunch] (template3 1) with others := fullPool } 0 cursorLaunch [] [] 0 [] node3
    (only_launch _ _ _ rfl ⟨rfl, rfl, by decide +kernel, fun h => nomatch h⟩) rfl rfl rfl).1 (.inl (poolFull _))⟩
/-- A slot of home 0. -/
def slotOf (tpl : Option (BitVec 10)) : ClqSlot :=
  { home := 0, slot := 0, die := 0, ctx := 1, tpl, serial := 1, old := 9, va := 0x40000, issuerNode := 0, issuerRcb := 0x10000, ttbl := 0x30000 }
/-- A machine with a slot. -/
def draining (tpl : Option (BitVec 10)) (v : Nat) : State := { launching [cursorLaunch] (template3 v) with clq := [slotOf tpl] }
theorem oldest (tpl : Option (BitVec 10)) (v : Nat) : OldestSlot (draining tpl v) 0 (slotOf tpl) := ⟨rfl, [], [], rfl, fun _ h => nomatch h⟩
theorem witness_drain (h : Obligations.NodesAndContinuationsEnterPools) : ∃ t, exec (.clqDrain 0) (draining (some 3) 1) = .next t :=
  let ⟨_, _, e, _⟩ := (h.2.1 (draining (some 3) 1) 0 (slotOf (some 3)) 3 (untraced_of rfl rfl) (oldest _ _) rfl).2.1 1 0x20000 1 0 (by decide +kernel) (by decide +kernel) (by decide +kernel) (by decide +kernel)
  ⟨_, e⟩
theorem witness_drainBad (h : Obligations.NodesAndContinuationsEnterPools) : ∃ t, exec (.clqDrain 0) (draining (some 3) 0) = .next t :=
  let ⟨_, _, e⟩ := (h.2.1 (draining (some 3) 0) 0 (slotOf (some 3)) 3 (untraced_of rfl rfl) (oldest _ _) rfl).2.2 1 0x20000 1 0 false (by decide +kernel) (by decide +kernel) (.inl rfl)
  ⟨_, e⟩
theorem witness_drainFull (h : Obligations.NodesAndContinuationsEnterPools) :
    ∃ t, exec (.clqDrain 0) { draining (some 3) 1 with others := fullPool } = .next t :=
  ⟨_, (h.2.1 { draining (some 3) 1 with others := fullPool } 0 (slotOf (some 3)) 3 (untraced_of rfl rfl) (oldest (some 3) 1) rfl).1 (poolFull _)⟩
/-- A machine with the slot of a node of a launch. -/
def nodeSlot (l : Launch) (xs : List (Nat × Nat × Nat)) : State := { launching [l] xs with clq := [slotOf none] }
theorem oldestNode (l : Launch) (xs : List (Nat × Nat × Nat)) : OldestSlot (nodeSlot l xs) 0 (slotOf none) := ⟨rfl, [], [], rfl, fun _ h => nomatch h⟩
theorem witness_drainNode (h : Obligations.NodesAndContinuationsEnterPools) : ∃ t, exec (.clqDrain 0) (nodeSlot cursorLaunch (template3 1)) = .next t :=
  let ⟨_, _, e, _⟩ := ((h.2.2 (nodeSlot cursorLaunch (template3 1)) 0 (slotOf none) cursorLaunch node3 (untraced_of rfl rfl) (oldestNode _ _) rfl
    (the_launch _ _ rfl) rfl rfl rfl (by decide +kernel) (by decide) rfl).2.2 1 0x20000 1 0 ⟨rfl, rfl⟩ (by decide +kernel) (by decide +kernel)).2
    (by decide +kernel)
  ⟨_, e⟩
theorem witness_drainDiscard (h : Obligations.NodesAndContinuationsEnterPools) : ∃ t, exec (.clqDrain 0) (nodeSlot cursorLaunch charged) = .next t :=
  ⟨_, ((h.2.2 (nodeSlot cursorLaunch charged) 0 (slotOf none) cursorLaunch node3 (untraced_of rfl rfl) (oldestNode _ _) rfl
    (the_launch _ _ rfl) rfl rfl rfl (by decide +kernel) (by decide) rfl).2.2 1 0x20000 1 0x38000 ⟨rfl, rfl⟩ (by decide +kernel) (by decide +kernel)).1
    (by decide +kernel)⟩
/-- Die 0's pass has not ended. -/
def halfPassed : Launch := { cursorLaunch with passed := .replicate 4 false }
theorem witness_drainWaits (h : Obligations.NodesAndContinuationsEnterPools) : ∃ t, exec (.clqDrain 0) (nodeSlot halfPassed (template3 1)) = .next t :=
  ⟨_, (h.2.2 (nodeSlot halfPassed (template3 1)) 0 (slotOf none) halfPassed node3 (untraced_of rfl rfl) (oldestNode _ _) rfl
    (the_launch _ _ rfl) rfl rfl rfl (by decide +kernel) (by decide) rfl).1 fun h => nomatch h.1⟩
theorem witness_drainNodeFull (h : Obligations.NodesAndContinuationsEnterPools) :
    ∃ t, exec (.clqDrain 0) { nodeSlot cursorLaunch (template3 1) with others := fullPool } = .next t :=
  ⟨_, (h.2.2 { nodeSlot cursorLaunch (template3 1) with others := fullPool } 0 (slotOf none) cursorLaunch node3 (untraced_of rfl rfl)
    (oldestNode cursorLaunch (template3 1)) rfl (the_launch _ _ rfl) rfl rfl rfl (by decide +kernel)
    (by decide) rfl).2.1 ⟨rfl, rfl⟩ (poolFull _)⟩

theorem witness_hostWrite (h : Obligations.OutsideAccessesAreAnswered) : ∃ t, exec (.hostWrite 1 0x30000 [1, 2]) w = .next t :=
  let ⟨_, e, _⟩ := h.1 w 1 0x30000 fetchLeaf 0x230000 [1, 2] memoryWf_w (unwatched_of rfl) (runAt_of paged_w (by decide) (by decide +kernel) (by decide))
  ⟨_, e⟩
theorem witness_hostWriteLost (h : Obligations.OutsideAccessesAreAnswered) : ∃ t, exec (.hostWrite 1 0x200000 [1]) w = .next t :=
  ⟨_, h.2.1 w 1 0x200000 [1] 0 (by decide) (.inl ⟨fcNp, by decide +kernel⟩)⟩
theorem witness_hostRead (h : Obligations.OutsideAccessesAreAnswered) : ∃ t, exec (.hostRead 1 0x30000 4) w = .next t :=
  ⟨_, h.2.2.1 w 1 0x30000 fetchLeaf 0x230000 4 rfl rfl (by decide) (by decide) (by decide +kernel) (by decide) (paged_w.maps (by decide))⟩
theorem witness_hostReadNone (h : Obligations.OutsideAccessesAreAnswered) : ∃ t, exec (.hostRead 1 0x200000 4) w = .next t :=
  ⟨_, h.2.2.2.1 w 1 0x200000 4 0 (by decide) (.inl ⟨fcNp, by decide +kernel⟩)⟩
/-- A leaf of the host's aperture. -/
def hostLeaf : Word := fetchLeaf ||| 0x100
/-- A load through it waits for its answer. -/
def sentLoad (leaf : Word) : Entry := { entry .ldq (.lds 3 false .b2 0 0) [] (some (hd 0x30000 leaf)) with taken := true }
def awaiting (leaf : Word) : State := queuing w (sentLoad leaf)
theorem awaits (leaf : Word) : AwaitsHome (awaiting leaf) .ldq [] (sentLoad leaf) [] (hd 0x30000 leaf) leaf (leafAp leaf) :=
  ⟨rfl, fun _ h => absurd h List.not_mem_nil, rfl, rfl, rfl, rfl, rfl⟩
theorem witness_completion (h : Obligations.OutsideAccessesAreAnswered) :
    ∃ t, exec (.rootComplexCompletion .ldq [1, 2] false) (awaiting hostLeaf) = .next t :=
  let ⟨_, e, _⟩ := (h.2.2.2.2.1 (awaiting hostLeaf) .ldq [] _ [] _ hostLeaf (awaits hostLeaf)).2.2 [1, 2] 0x30000 (placeOf hostLeaf 0x30000 0).2 memoryWf_w
    (by decide) (by decide +kernel)
  ⟨_, e⟩
theorem witness_hostTimeout (h : Obligations.OutsideAccessesAreAnswered) : ∃ t, exec (.hostCompletionTimeout .ldq) (awaiting hostLeaf) = .next t :=
  ⟨_, (h.2.2.2.2.1 (awaiting hostLeaf) .ldq [] _ [] _ hostLeaf (awaits hostLeaf)).1⟩
theorem witness_peerAnswer (h : Obligations.OutsideAccessesAreAnswered) :
    ∃ t, exec (.peerHomeAnswer .ldq [1, 2] false false) (awaiting peerLeaf) = .next t :=
  let ⟨_, e, _⟩ := (h.2.2.2.2.2.1 (awaiting peerLeaf) .ldq [] _ [] _ peerLeaf (awaits peerLeaf)).2.2 [1, 2] 0x30000 (placeOf peerLeaf 0x30000 0).2 memoryWf_w
    (by decide) (by decide +kernel)
  ⟨_, e⟩
theorem witness_completionNone (h : Obligations.OutsideAccessesAreAnswered) : ∃ t, exec (.rootComplexCompletion .ldq [1] false) w = .next t :=
  ⟨_, (h.2.2.2.2.2.2 w .ldq fun _ h => nomatch h).1 [1]⟩
/-- A tile entry, which no handle names. -/
def tileWaits : State := queuing w (entry .til (.tst 2 1) [])
theorem witness_away (h : Obligations.OutsideAccessesAreAnswered) : ∃ t, exec (.hostCompletionTimeout .til) tileWaits = .next t :=
  ⟨_, (h.2.2.2.2.2.2 tileWaits .til fun _ h w => by obtain rfl := List.mem_singleton.1 h; exact nomatch w.1).2.1 _ _ rfl (.inl (by decide))⟩
theorem witness_awayCopy (h : Obligations.OutsideAccessesAreAnswered) : ∃ t, exec (.hostCompletionTimeout .cpy) (copying [copySlot]) = .next t :=
  ⟨_, (h.2.2.2.2.2.2 (copying [copySlot]) .cpy fun _ h => nomatch h).2.2 copySlot rfl (by decide +kernel)⟩
theorem witness_peerUnmapped (h : Obligations.PeersAccessAndMovePages) : ∃ t, exec (.peerAccessArrival 7 0 0x230000 (.load 4)) State.reset = .next t :=
  ⟨_, h.1 State.reset 7 0 0x230000 (.load 4) fun ⟨_, hm, _⟩ => nomatch hm⟩
theorem mapped : MappedHere w 0x230000 8 := by unfold MappedHere; decide +kernel
theorem mapped4 : MappedHere w 0x230000 4 := by unfold MappedHere; decide +kernel
theorem witness_peerLoad (h : Obligations.PeersAccessAndMovePages) : ∃ t, exec (.peerAccessArrival 7 0 0x230000 (.load 8)) w = .next t :=
  ⟨_, h.2.1 w 7 0 0x230000 8 mapped rfl⟩
theorem witness_peerStore (h : Obligations.PeersAccessAndMovePages) : ∃ t, exec (.peerAccessArrival 7 0 0x230000 (.store [1, 2, 3, 4])) w = .next t :=
  let ⟨_, e, _⟩ := h.2.2.1 w 7 0 0x230000 [1, 2, 3, 4] _ mapped4 memoryWf_w (.inl rfl)
  ⟨_, e⟩
theorem witness_peerEngine (h : Obligations.PeersAccessAndMovePages) :
    ∃ t, exec (.peerAccessArrival 7 0 0x230000 (.engineStore .cp 0 [1, 2, 3, 4])) w = .next t :=
  let ⟨_, e, _⟩ := h.2.2.1 w 7 0 0x230000 [1, 2, 3, 4] _ mapped4 memoryWf_w (.inr ⟨unwatched_of rfl, .cp, 0, rfl⟩)
  ⟨_, e⟩
theorem witness_peerAtom (h : Obligations.PeersAccessAndMovePages) : ∃ t, exec (.peerAccessArrival 7 0 0x230000 (.atom .add true 5)) w = .next t :=
  let ⟨_, e, _⟩ := (h.2.2.2.1 w 7 0 0x230000 8 (.atom .add true 5) _ rfl mapped memoryWf_w (unwatched_of rfl)).2.2 (by decide) (fun h => nomatch h)
  ⟨_, e⟩
theorem witness_peerAtomPoisoned (h : Obligations.PeersAccessAndMovePages) :
    ∃ t, exec (.peerAccessArrival 7 0 0x230000 (.fatom .fadd32 5)) { w with poison := [0x8C00] } = .next t :=
  ⟨_, (h.2.2.2.1 { w with poison := [0x8C00] } 7 0 0x230000 4 (.fatom .fadd32 5) _ rfl mapped4 memoryWf_w (unwatched_of rfl)).2.1 (by decide) (by decide)⟩
theorem witness_peerVfadd (h : Obligations.PeersAccessAndMovePages) :
    ∃ t, exec (.peerAccessArrival 7 0 0x230000 (.vfadd [some 0x3F800000, none])) w = .next t :=
  let ⟨_, e, _⟩ := h.2.2.2.2.1 w 7 0 0x230000 [some 0x3F800000, none] mapped memoryWf_w (unwatched_of rfl) rfl
  ⟨_, e⟩
theorem witness_transit (h : Obligations.PeersAccessAndMovePages) : ∃ t, exec (.peerServiceRequest 7 0x200000 0x200000 .transit) w = .next t :=
  ⟨_, (h.2.2.2.2.2 w 7 0x200000 0x200000).2.1 (by decide +kernel) (by decide +kernel)⟩
theorem witness_transitPinned (h : Obligations.PeersAccessAndMovePages) :
    ∃ t, exec (.peerServiceRequest 7 0x200000 0x200000 .transit) (wl (fetchLeaf ||| 0x2000)) = .next t :=
  ⟨_, (h.2.2.2.2.2 (wl (fetchLeaf ||| 0x2000)) 7 0x200000 0x200000).1 (.inl (by decide +kernel))⟩
theorem witness_pageOut (h : Obligations.PeersAccessAndMovePages) : ∃ t, exec (.peerServiceRequest 7 0x200000 4 .copyOut) w = .next t :=
  ⟨_, (h.2.2.2.2.2 w 7 0x200000 4).2.2.1 rfl rfl⟩
theorem witness_pageIn (h : Obligations.PeersAccessAndMovePages) : ∃ t, exec (.peerServiceRequest 7 0x800000 4 (.copyIn [1, 2, 3, 4] [0] [0])) w = .next t :=
  let ⟨_, e, _⟩ := (h.2.2.2.2.2 w 7 0x800000 4).2.2.2.2.1 [1, 2, 3, 4] [0] [0] memoryWf_w rfl (by decide +kernel)
  ⟨_, e⟩
theorem witness_pageInUsed (h : Obligations.PeersAccessAndMovePages) : ∃ t, exec (.peerServiceRequest 7 0x200000 4 (.copyIn [1, 2, 3, 4] [] [])) w = .next t :=
  ⟨_, (h.2.2.2.2.2 w 7 0x200000 4).2.2.2.1 [1, 2, 3, 4] [] [] (.inr (by decide +kernel))⟩
theorem witness_shoot (h : Obligations.PeersAccessAndMovePages) : ∃ t, exec (.peerServiceRequest 7 0x200000 0x200000 .shootdown) w = .next t :=
  let ⟨_, e, _⟩ := (h.2.2.2.2.2 w 7 0x200000 0x200000).2.2.2.2.2.2.2.2.1 (by decide +kernel)
  ⟨_, e⟩
/-- A store that has begun holds its page. -/
def keeping : State := queuing w { entry .stq (.sts 0 .b8 0 0) [] (some (hd 0x30000 fetchLeaf)) with begun := true, taken := true }
theorem witness_shootWaits (h : Obligations.PeersAccessAndMovePages) : ∃ t, exec (.peerServiceRequest 7 0x200000 0x200000 .shootdown) keeping = .next t :=
  ⟨_, (h.2.2.2.2.2 keeping 7 0x200000 0x200000).2.2.2.2.2.2.2.1 (by decide +kernel)⟩
theorem witness_install (h : Obligations.PeersAccessAndMovePages) :
    ∃ t, exec (.peerServiceRequest 7 0x200000 0x200000 (.install (BitVec.ofNat 64 (1024 * 2 ^ 24 + 0x47)))) w = .next t :=
  let ⟨_, e, _⟩ := (h.2.2.2.2.2 w 7 0x200000 0x200000).2.2.2.2.2.2.2.2.2 (BitVec.ofNat 64 (1024 * 2 ^ 24 + 0x47)) memoryWf_w (by decide +kernel)
    (by decide +kernel) (by decide +kernel)
  ⟨_, e⟩
theorem witness_line (h : Obligations.ErrorsPoisonOrAbort) : ∃ t, exec (.lineUncorrectableError 5) w = .next t :=
  let ⟨_, e, _⟩ := h.1 w 5
  ⟨_, e⟩
theorem witness_dcWord (h : Obligations.ErrorsPoisonOrAbort) : ∃ t, exec (.dcWordUe 0x230008) w = .next t :=
  let ⟨_, e, _⟩ := h.2.1 w 0x230008
  ⟨_, e⟩
theorem witness_parity (h : Obligations.ErrorsPoisonOrAbort) : ∃ t, exec (.parityError w.cur.tid) w = .next t :=
  let ⟨_, _, e, _⟩ := h.2.2.1 w w.cur (by decide +kernel)
  ⟨_, e⟩
theorem witness_poolEntry (h : Obligations.ErrorsPoisonOrAbort) : ∃ t, exec (.poolEntryUe w.cur.tid false) w = .next t :=
  let ⟨_, _, _, _, _, e⟩ := h.2.2.2 w w.cur (by decide +kernel)
  ⟨_, e⟩
theorem witness_powerOn (h : Obligations.ResetsClearWhatTheyCover) : ∃ t, exec .powerOn w = .next t :=
  let ⟨_, e, _⟩ := h.1 w .powerOn (.inl rfl)
  ⟨_, e⟩
theorem witness_perst (h : Obligations.ResetsClearWhatTheyCover) : ∃ t, exec .perstAssert w = .next t :=
  let ⟨_, e, _⟩ := h.1 w .perstAssert (.inr rfl)
  ⟨_, e⟩
theorem witness_flr (h : Obligations.ResetsClearWhatTheyCover) : ∃ t, exec (.functionLevelReset 0) w = .next t :=
  let ⟨_, e, _⟩ := (h.2.2.1 w 0 (by decide) (by unfold ContextsApart; decide)).1 (by unfold FunctionAtPoints AtPoints; decide +kernel)
  ⟨_, e⟩
theorem witness_flrWaits (h : Obligations.ResetsClearWhatTheyCover) : ∃ t, exec (.functionLevelReset 0) keeping = .next t :=
  let ⟨_, e, _⟩ := (h.2.2.1 keeping 0 (by decide) (by unfold ContextsApart; decide)).2 (by unfold TasksApart; decide +kernel)
    (by decide +kernel)
  ⟨_, e⟩
theorem witness_flrIdle (h : Obligations.ResetsClearWhatTheyCover) : ∃ t, exec (.functionLevelReset 0) { w with isReady := false } = .next t :=
  ⟨_, h.2.1 { w with isReady := false } 0 (by decide)⟩
theorem witness_thermal (h : Obligations.ResetsClearWhatTheyCover) : ∃ t, exec (.thermalTrip 3 111) w = .next t :=
  let ⟨_, e, _⟩ := h.2.2.2.1 w 3 111 (by unfold ContextsApart; decide) (by decide) (by unfold AtPoints; decide +kernel)
  ⟨_, e⟩
theorem witness_throttle (h : Obligations.ResetsClearWhatTheyCover) : ∃ t, exec (.throttleHold 64) w = .next t :=
  ⟨_, h.2.2.2.2.1 w 64⟩

theorem witness_cqtail (h : Obligations.DoorbellsChangeTheirRegister) : ∃ t, exec (.cqtailDoorbell 0 5) w = .next t := ⟨_, h.1 w _ 0 _ rfl⟩
theorem witness_ctrl (h : Obligations.DoorbellsChangeTheirRegister) : ∃ t, exec (.ctrlWrite 0 1) w = .next t := ⟨_, h.1 w _ 0 _ rfl⟩
theorem witness_base (h : Obligations.DoorbellsChangeTheirRegister) : ∃ t, exec (.doorbellRegisterWrite 0 8 64) w = .next t := ⟨_, h.1 w _ 0 _ rfl⟩
theorem witness_cphead (h : Obligations.DoorbellsChangeTheirRegister) : ∃ t, exec (.cpheadWrite 0 5) w = .next t :=
  ⟨_, (h.2.2.1 w 0 5 (by decide) (by decide)).1 (by decide)⟩
/-- Function 0 with its registers. -/
def wFn (f : FnRegs → FnRegs) : State := { w with fns := [(0, f { enabled := true, ctrl := 1, cplSize := 16, cmdSize := 16 })] }
theorem witness_cpheadHeld (h : Obligations.DoorbellsChangeTheirRegister) :
    ∃ t, exec (.cpheadWrite 0 5) (wFn fun r => { r with held := some (1, 2, 3) }) = .next t :=
  ⟨_, (h.2.2.1 (wFn fun r => { r with held := some (1, 2, 3) }) 0 5 (by decide) (by decide)).2 1 2 3 (by decide)⟩
theorem witness_doorbellIdle (h : Obligations.DoorbellsChangeTheirRegister) : ∃ t, exec (.prdbWrite 9 0) w = .next t :=
  ⟨_, (h.2.1 w 9 0 0 (.inr (by decide))).2⟩
theorem witness_prdb (h : Obligations.DoorbellsChangeTheirRegister) : ∃ t, exec (.prdbWrite 0 0x100000005) w = .next t :=
  let ⟨_, _, e, _⟩ := h.2.2.2.1 w 0 0x100000005 (fetchCtx 1) (by decide) (by decide) (by decide) rfl
  ⟨_, e⟩
theorem witness_prdbOther (h : Obligations.DoorbellsChangeTheirRegister) : ∃ t, exec (.prdbWrite 0 0x200000005) w = .next t :=
  ⟨_, h.2.2.2.2.1 w 0 0x200000005 fun k hk => absurd hk (by rw [show w.ctx? ((0x200000005 : Word).toNat / 2 ^ 32) = none by decide]; exact nofun)⟩
theorem witness_config (h : Obligations.DoorbellsChangeTheirRegister) : ∃ t, exec (.configurationRequest 0 true 8) w = .next t :=
  let ⟨_, e, _⟩ := (h.2.2.2.2.2 w 0 true 8).2 (by decide)
  ⟨_, e⟩
theorem witness_configRetry (h : Obligations.DoorbellsChangeTheirRegister) :
    ∃ t, exec (.configurationRequest 0 true 8) { w with isReady := false } = .next t :=
  ⟨_, (h.2.2.2.2.2 { w with isReady := false } 0 true 8).1 (by decide)⟩

/-- A command of function 0 that names context 1. -/
def cmd1 : Cmd := { fn := 0, tag := 7, ctx := 1, hbuf := 0x1000 }
/-- Function 0 has a command to execute. -/
def wCmd : State := wFn fun r => { r with cqTail := 1 }
theorem cmdDue : CommandDue wCmd cmd1 := by unfold CommandDue; decide
theorem cmdOn : CommandOn wCmd cmd1 (fetchCtx 1) := ⟨cmdDue, rfl, rfl⟩
theorem witness_notDue (h : Obligations.CommandsCompleteInTheirRing) : ∃ t, exec (.attest cmd1) w = .next t :=
  ⟨_, (h.1 w _ cmd1 true rfl).1 (by unfold CommandDue; decide)⟩
theorem witness_badContext (h : Obligations.CommandsCompleteInTheirRing) : ∃ t, exec (.debugHalt { cmd1 with ctx := 9 }) wCmd = .next t :=
  ⟨_, (h.1 wCmd _ { cmd1 with ctx := 9 } true rfl).2 rfl cmdDue fun _ hk => nomatch hk⟩
theorem witness_reply (h : Obligations.CommandsCompleteInTheirRing) : Mem.num (wCmd.reply cmd1 3 9).hostMem 0 4 = 7 :=
  ((h.2.2 wCmd cmd1 3 9 _ memoryWf_w rfl).2 0 (by decide) (by decide)).1
theorem witness_replyHeld (h : Obligations.CommandsCompleteInTheirRing) :
    ∃ f, (wFn fun r => { r with cqTail := 1, cplTail := 16 }).reply cmd1 3 9 = withFn (wFn fun r => { r with cqTail := 1, cplTail := 16 }) 0 f :=
  ⟨_, (h.2.2 (wFn fun r => { r with cqTail := 1, cplTail := 16 }) cmd1 3 9 _ memoryWf_w rfl).1 (by decide)⟩

/-- Function 0 has a command to execute, and its context 1 is changed, with some memory of the host and of the module. -/
def onCtx (f : Ctx → Ctx) (host : List (Nat × Nat × Nat) := []) (xs : List (Nat × Nat × Nat) := []) : State :=
  { mem wCmd xs with ctxs := [f (fetchCtx 1)], hostMem := host.foldl (fun m x => Mem.setNum m x.1 x.2.1 x.2.2) [] }
theorem onCtx_on (f : Ctx → Ctx) (host xs : List (Nat × Nat × Nat)) (h : (f (fetchCtx 1)).number = 1 ∧ (f (fetchCtx 1)).fn = 0) :
    CommandOn (onCtx f host xs) cmd1 (f (fetchCtx 1)) := by
  refine ⟨cmdDue, ?_, h.2⟩
  unfold State.ctx? onCtx
  rw [List.find?_cons_of_pos (by simp [h.1, cmd1])]
theorem paged_onCtx (f : Ctx → Ctx) (host xs : List (Nat × Nat × Nat)) (h : (f (fetchCtx 1)).number = 1 ∧ (f (fetchCtx 1)).root = 0x1000)
    (hx : xs.all (fun x => decide (0x5000 ≤ x.1)) = true) : Paged (onCtx f host xs) :=
  ⟨⟨_, by unfold State.ctx? onCtx; rw [List.find?_cons_of_pos (by simp [h.1])], h.2⟩, (PagedBy.mem paged_w xs hx).2⟩
theorem memoryWf_onCtx (f : Ctx → Ctx) (host xs : List (Nat × Nat × Nat)) : (onCtx f host xs).MemoryWf :=
  ⟨wf_sets xs _ memoryWf_w.1, rfl, wf_sets host [] rfl, rfl, rfl, rfl, fun _ h => nomatch h⟩
/-- No context yet. -/
def noCtx : State := { wCmd with ctxs := [], cur := {}, hbm := [] }
theorem noCtx_due : CommandDue noCtx cmd1 := by unfold CommandDue; decide
theorem witness_create (h : Obligations.ContextsAreCreatedAndDestroyed) : ∃ t, exec (.createContext cmd1 1 1 0 4 0x1000 16) noCtx = .next t := by
  obtain ⟨e, -⟩ := (h.1 noCtx cmd1 1 1 0 4 0x1000 16 noCtx_due).2.2 ⟨by decide, by decide, by decide, by decide, 4, by decide⟩
    (fun ⟨_, hk, _⟩ => by cases hk) (fun _ h => by cases h) ⟨rfl, rfl, rfl, rfl, rfl, rfl, fun _ h => by cases h⟩
  rcases e with e | ⟨m, y, e, -⟩
  · exact ⟨_, e⟩
  · exact ⟨_, e⟩
theorem witness_createBad (h : Obligations.ContextsAreCreatedAndDestroyed) : ∃ t, exec (.createContext cmd1 4097 1 0 4 0x1000 16) noCtx = .next t :=
  ⟨_, (h.1 noCtx cmd1 4097 1 0 4 0x1000 16 noCtx_due).1 fun h => absurd h.1 (by decide)⟩
theorem witness_createTaken (h : Obligations.ContextsAreCreatedAndDestroyed) :
    ∃ t, exec (.createContext cmd1 1 1 0 4 0x1000 16) (onCtx fun k => { k with chanFirst := 3, chanCount := 1 }) = .next t :=
  ⟨_, (h.1 (onCtx fun k => { k with chanFirst := 3, chanCount := 1 }) cmd1 1 1 0 4 0x1000 16 cmdDue).2.1
    ⟨by decide, by decide, by decide, by decide, 4, by decide⟩ ⟨_, List.mem_singleton_self _, 3, by decide⟩⟩
theorem witness_destroy (h : Obligations.ContextsAreCreatedAndDestroyed) : ∃ t, exec (.destroyContext cmd1) wCmd = .next t :=
  let ⟨_, e, _⟩ := h.2.1 wCmd cmd1 _ cmdOn (by unfold ContextsApart; decide) (by unfold AtPoints; decide +kernel)
  ⟨_, e⟩
theorem witness_resetFunction (h : Obligations.ContextsAreCreatedAndDestroyed) : ∃ t, exec (.resetFunction cmd1 0) wCmd = .next t :=
  let ⟨_, e, _⟩ := (h.2.2 wCmd cmd1 0 cmdDue).2.2.2 rfl (by unfold ContextsApart; decide) (by decide) (by unfold FunctionAtPoints AtPoints; decide +kernel)
  ⟨_, e⟩
theorem witness_resetOther (h : Obligations.ContextsAreCreatedAndDestroyed) : ∃ t, exec (.resetFunction cmd1 8) wCmd = .next t :=
  let ⟨_, e, _⟩ := (h.2.2 wCmd cmd1 8 cmdDue).2.2.1 (by decide) rfl (by decide) (by unfold ContextsApart; decide) (by unfold FunctionAtPoints AtPoints; decide +kernel)
  ⟨_, e⟩
theorem witness_resetBad (h : Obligations.ContextsAreCreatedAndDestroyed) : ∃ t, exec (.resetFunction cmd1 1025) wCmd = .next t :=
  ⟨_, (h.2.2 wCmd cmd1 1025 cmdDue).1 (by decide)⟩

/-- A leaf of a 2 MiB page at PA 4 MiB. -/
def nextLeaf : Word := BitVec.ofNat 64 (1024 * 2 ^ 24 + 0x47)
theorem witness_map (h : Obligations.PagesAreMappedUnmappedAndPinned) : ∃ t, exec (.map cmd1 0x200000 nextLeaf) wCmd = .next t :=
  let ⟨_, _, e, _⟩ := ((h.1 wCmd cmd1 _ 0x200000 nextLeaf cmdOn).2.2 ⟨by decide, by decide, by decide +kernel⟩ (by unfold FrameRefused; decide +kernel)).2.2
    0x4008 [0x1000, 0x2000, 0x3000] (by decide +kernel) memoryWf_w (by decide) (by decide +kernel) (by decide)
  ⟨_, e⟩
/-- A store that has begun holds the page of context 1. -/
def wKeeps : State := { wCmd with cur := keeping.cur }
theorem keepsOn : CommandOn wKeeps cmd1 (fetchCtx 1) := ⟨by unfold CommandDue; decide, rfl, rfl⟩
theorem witness_mapWaits (h : Obligations.PagesAreMappedUnmappedAndPinned) : ∃ t, exec (.map cmd1 0 nextLeaf) wKeeps = .next t :=
  ⟨_, ((h.1 wKeeps cmd1 _ 0 nextLeaf keepsOn).2.2 ⟨by decide, by decide, by decide +kernel⟩ (by unfold FrameRefused; decide +kernel)).1
    (by decide +kernel)⟩
theorem witness_unmapWaits (h : Obligations.PagesAreMappedUnmappedAndPinned) : ∃ t, exec (.unmap cmd1 0 1) wKeeps = .next t :=
  ⟨_, ((h.2.1 wKeeps cmd1 _ 0 1 keepsOn).2 (by decide) (by decide) ⟨fetchLeaf, paged_w.maps (by decide)⟩).1 (by decide +kernel)⟩
theorem witness_pinCommandWaits (h : Obligations.PagesAreMappedUnmappedAndPinned) : ∃ t, exec (.pin cmd1 0x30000) wKeeps = .next t :=
  ⟨_, ((h.2.2 wKeeps cmd1 _ 0x30000 keepsOn).2 fetchLeaf 0x4000 (paged_w.lookup (by decide))).2.2.1 (by decide) (by decide) (by decide)
    (by decide +kernel)⟩
theorem witness_pinNone (h : Obligations.PagesAreMappedUnmappedAndPinned) : ∃ t, exec (.pin cmd1 0x200000) wCmd = .next t :=
  ⟨_, (h.2.2 wCmd cmd1 _ 0x200000 cmdOn).1 ⟨fcNp, by decide +kernel⟩⟩
theorem witness_mapBad (h : Obligations.PagesAreMappedUnmappedAndPinned) : ∃ t, exec (.map cmd1 0x200000 0) wCmd = .next t :=
  ⟨_, (h.1 wCmd cmd1 _ 0x200000 0 cmdOn).1 fun h => absurd h.2.1 (by decide)⟩
theorem witness_mapRefused (h : Obligations.PagesAreMappedUnmappedAndPinned) :
    ∃ t, exec (.map cmd1 0x200000 nextLeaf) (onCtx fun k => { k with reserves := [(0x400000, 64)] }) = .next t :=
  ⟨_, (h.1 (onCtx fun k => { k with reserves := [(0x400000, 64)] }) cmd1 _ 0x200000 nextLeaf (onCtx_on _ [] [] ⟨rfl, rfl⟩)).2.1
    ⟨by decide, by decide, by decide +kernel⟩ (by unfold FrameRefused; decide +kernel)⟩
theorem witness_unmap (h : Obligations.PagesAreMappedUnmappedAndPinned) : ∃ t, exec (.unmap cmd1 0 1) wCmd = .next t :=
  let ⟨_, e, _⟩ := ((h.2.1 wCmd cmd1 _ 0 1 cmdOn).2 (by decide) (by decide) ⟨fetchLeaf, paged_w.maps (by decide)⟩).2 (by decide +kernel) memoryWf_w (by decide)
  ⟨_, e⟩
theorem witness_unmapBad (h : Obligations.PagesAreMappedUnmappedAndPinned) : ∃ t, exec (.unmap cmd1 0x200000 1) wCmd = .next t :=
  ⟨_, (h.2.1 wCmd cmd1 _ 0x200000 1 cmdOn).1 (.inr (.inr ⟨fcNp, by decide +kernel⟩))⟩
theorem witness_pinCommand (h : Obligations.PagesAreMappedUnmappedAndPinned) : ∃ t, exec (.pin cmd1 0x30000) wCmd = .next t :=
  let ⟨_, e, _⟩ := ((h.2.2 wCmd cmd1 _ 0x30000 cmdOn).2 fetchLeaf 0x4000 (paged_w.lookup (by decide))).2.2.2 (by decide) (by decide) (by decide)
    (by decide +kernel) memoryWf_w
  ⟨_, e⟩

/-- The registration record of template 3, without edges, at 0x1000. -/
def record3 : List (Nat × Nat × Nat) := [(0x1000, 2, 3), (0x1004, 1, 1), (0x1008, 8, 0x20000)]
theorem witness_register (h : Obligations.TemplatesLaunchesAndLogs) : ∃ t, exec (.registerTemplate cmd1 0x30000) (onCtx id record3) = .next t :=
  let ⟨_, e, _⟩ := ((h.1 (onCtx id record3) cmd1 _ 0x30000 fetchLeaf fetchLeaf 0x1000 0x230060 3 0 1 0x20000 0 0x30060 (onCtx_on id record3 [] ⟨rfl, rfl⟩)
    (memoryWf_onCtx ..) rfl (by decide) (by decide +kernel) (by decide +kernel) (by decide +kernel) (by decide +kernel) (by decide +kernel) (by decide)).2
    (by decide) (by decide) (by decide) (by decide) (by decide) (by decide +kernel) (fun _ h => nomatch h)
    (runAt_of (paged_onCtx id record3 [] ⟨rfl, rfl⟩ rfl) (by decide) (by decide +kernel) (by decide))).2 0 true
    (.inr ⟨by decide, (paged_onCtx id record3 [] ⟨rfl, rfl⟩ rfl).maps (by decide), by decide⟩)
    (tablesKeep_of (paged_onCtx id record3 [] ⟨rfl, rfl⟩ rfl) fun a ha => by omega) (.inl ⟨rfl, ⟨fun _ => by decide, fun _ => rfl⟩, fun _ => 0, fun _ h => nomatch h⟩)
  ⟨_, e⟩
/-- The record of a withdrawal, and one whose edge runs from semaphore 1 to itself. -/
def record0 : List (Nat × Nat × Nat) := [(0x1000, 2, 3), (0x1004, 1, 1)]
def recordLoop : List (Nat × Nat × Nat) := [(0x1000, 2, 3), (0x1002, 2, 1), (0x1004, 1, 1), (0x1008, 8, 0x20000), (0x1018, 2, 0x0101)]
theorem witness_registerLoop (h : Obligations.TemplatesLaunchesAndLogs) :
    ∃ t, exec (.registerTemplate cmd1 0x30000) (onCtx id recordLoop) = .next t :=
  let ⟨_, e, _⟩ := ((h.1 (onCtx id recordLoop) cmd1 _ 0x30000 fetchLeaf fetchLeaf 0x1000 0x230060 3 1 1 0x20000 0 0x30060 (onCtx_on id recordLoop [] ⟨rfl, rfl⟩)
    (memoryWf_onCtx ..) rfl (by decide) (by decide +kernel) (by decide +kernel) (by decide +kernel) (by decide +kernel) (by decide +kernel) (by decide)).2
    (by decide) (by decide) (by decide) (by decide) (by decide) (by decide +kernel) (by decide +kernel)
    (runAt_of (paged_onCtx id recordLoop [] ⟨rfl, rfl⟩ rfl) (by decide) (by decide +kernel) (by decide))).2 5 false
    (.inr ⟨by decide, (paged_onCtx id recordLoop [] ⟨rfl, rfl⟩ rfl).maps (by decide), by decide⟩)
    (tablesKeep_of (paged_onCtx id recordLoop [] ⟨rfl, rfl⟩ rfl) fun a ha => by omega)
    (.inr ⟨rfl, rfl, fun _ => 1, fun _ => ⟨0, by decide, (by decide +kernel : recordEdge (onCtx id recordLoop) 0x1000 0 = (1, 1))⟩⟩)
  ⟨_, e⟩
theorem witness_registerWithdraw (h : Obligations.TemplatesLaunchesAndLogs) :
    ∃ t, exec (.registerTemplate cmd1 0x30000) (onCtx id record0) = .next t :=
  let ⟨_, e, _⟩ := ((h.1 (onCtx id record0) cmd1 _ 0x30000 fetchLeaf fetchLeaf 0x1000 0x230060 3 0 1 0 0 0x30060 (onCtx_on id record0 [] ⟨rfl, rfl⟩)
    (memoryWf_onCtx ..) rfl (by decide) (by decide +kernel) (by decide +kernel) (by decide +kernel) (by decide +kernel) (by decide +kernel) (by decide)).2
    (by decide) (by decide) (by decide) (by decide) (by decide) (by decide +kernel) (fun _ h => nomatch h)
    (runAt_of (paged_onCtx id record0 [] ⟨rfl, rfl⟩ rfl) (by decide) (by decide +kernel) (by decide))).2 0 false (.inl rfl)
    (tablesKeep_of (paged_onCtx id record0 [] ⟨rfl, rfl⟩ rfl) fun a ha => by omega)
    (.inl ⟨rfl, ⟨(nomatch ·), fun h => absurd rfl h⟩, fun _ => 0, fun _ h => nomatch h⟩)
  ⟨_, e⟩
/-- A withdrawal whose edge runs from semaphore 1 to itself. -/
def recordLoop0 : List (Nat × Nat × Nat) := [(0x1000, 2, 3), (0x1002, 2, 1), (0x1004, 1, 1), (0x1018, 2, 0x0101)]
theorem witness_registerWithdrawLoop (h : Obligations.TemplatesLaunchesAndLogs) :
    ∃ t, exec (.registerTemplate cmd1 0x30000) (onCtx id recordLoop0) = .next t :=
  let ⟨_, e, _⟩ := ((h.1 (onCtx id recordLoop0) cmd1 _ 0x30000 fetchLeaf fetchLeaf 0x1000 0x230060 3 1 1 0 0 0x30060 (onCtx_on id recordLoop0 [] ⟨rfl, rfl⟩)
    (memoryWf_onCtx ..) rfl (by decide) (by decide +kernel) (by decide +kernel) (by decide +kernel) (by decide +kernel) (by decide +kernel) (by decide)).2
    (by decide) (by decide) (by decide) (by decide) (by decide) (by decide +kernel) (by decide +kernel)
    (runAt_of (paged_onCtx id recordLoop0 [] ⟨rfl, rfl⟩ rfl) (by decide) (by decide +kernel) (by decide))).2 5 false (.inl rfl)
    (tablesKeep_of (paged_onCtx id recordLoop0 [] ⟨rfl, rfl⟩ rfl) fun a ha => by omega)
    (.inr ⟨rfl, rfl, fun _ => 1, fun _ => ⟨0, by decide, (by decide +kernel : recordEdge (onCtx id recordLoop0) 0x1000 0 = (1, 1))⟩⟩)
  ⟨_, e⟩
theorem witness_registerBad (h : Obligations.TemplatesLaunchesAndLogs) : ∃ t, exec (.registerTemplate cmd1 0x30001) (onCtx id record3) = .next t :=
  ⟨_, (h.1 (onCtx id record3) cmd1 _ 0x30001 fetchLeaf fetchLeaf 0x1000 0x230060 3 0 1 0x20000 0 _ (onCtx_on id record3 [] ⟨rfl, rfl⟩)
    (memoryWf_onCtx ..) rfl (by decide) (by decide +kernel) (by decide +kernel) (by decide +kernel) (by decide +kernel) (by decide +kernel) rfl).1
    (.inl (by decide))⟩
/-- A launch packet at 0x30000: one node at 0x38000, the root RCB. -/
def packet1 : List (Nat × Nat × Nat) := [(0x230000, 8, 0x38000), (0x230008, 4, 1), (0x230010, 8, 0x10000)]
theorem some_of {α : Type} {o : Option α} {p : α → Bool} (h : o.any p = true) : ∃ x, o = some x ∧ p x = true := by
  cases o with
  | none => exact nomatch h
  | some x => exact ⟨x, rfl, h⟩
theorem witness_launch (h : Obligations.TemplatesLaunchesAndLogs) : ∃ t, exec (.launch cmd1 2 0x30000 0 0 0) (onCtx id [] packet1) = .next t := by
  obtain ⟨chain, hc, hp⟩ := some_of (show ((onCtx id [] packet1).launchChain 1 chainFuel []
    (BitVec.ofNat 64 (Mem.num (onCtx id [] packet1).hbm (0x230000 + 0x10) 8))).any chainClean = true by decide +kernel)
  obtain ⟨_, _, e, -⟩ := ((h.2.1 (onCtx id [] packet1) cmd1 (fetchCtx 1) 2 0 0 0x30000 0 fetchLeaf 0x230000 (onCtx_on id [] packet1 ⟨rfl, rfl⟩)).2 (by decide)
    (by decide) (by decide) (by decide) (fun _ => rfl) (by decide) ((paged_onCtx id [] packet1 ⟨rfl, rfl⟩ rfl).maps (by decide)) (by decide +kernel)).2.2.2
    chain (by decide +kernel) hc hp
  exact ⟨_, e⟩
theorem witness_launchBad (h : Obligations.TemplatesLaunchesAndLogs) : ∃ t, exec (.launch cmd1 64 0x30000 0 0 0) (onCtx id [] packet1) = .next t :=
  ⟨_, (h.2.1 (onCtx id [] packet1) cmd1 (fetchCtx 1) 64 0 0 0x30000 0 fetchLeaf 0x230000 (onCtx_on id [] packet1 ⟨rfl, rfl⟩)).1 (.inl (by decide))⟩
/-- The same packet with an LRCB that is no RCB's address. -/
def packetBad : List (Nat × Nat × Nat) := [(0x230000, 8, 0x38000), (0x230008, 4, 1), (0x230010, 8, 0x10001)]
theorem witness_launchBadRcb (h : Obligations.TemplatesLaunchesAndLogs) : ∃ t, exec (.launch cmd1 2 0x30000 0 0 0) (onCtx id [] packetBad) = .next t :=
  ⟨_, ((h.2.1 (onCtx id [] packetBad) cmd1 (fetchCtx 1) 2 0 0 0x30000 0 fetchLeaf 0x230000 (onCtx_on id [] packetBad ⟨rfl, rfl⟩)).2 (by decide)
    (by decide) (by decide) (by decide) (fun _ => rfl) (by decide) ((paged_onCtx id [] packetBad ⟨rfl, rfl⟩ rfl).maps (by decide)) (by decide +kernel)).2.1
    (by decide +kernel) (by decide +kernel)⟩
theorem witness_abortRcb (h : Obligations.TemplatesLaunchesAndLogs) : ∃ t, exec (.abortRcb cmd1 0x10000) wCmd = .next t :=
  let ⟨_, e, _⟩ := (h.2.2.1 wCmd cmd1 _ 0x10000 cmdOn).2 (by decide) (by decide +kernel) (fun u hu => by
    obtain rfl := List.mem_singleton.1 hu; exact ⟨rfl, rfl⟩) (fun _ h => nomatch h) (by unfold AtPoints; decide +kernel)
  ⟨_, e⟩
theorem witness_readLog (h : Obligations.TemplatesLaunchesAndLogs) :
    ∃ t, exec (.readFaultLog cmd1 0x10000 5) (onCtx id [] [(0x21002C, 4, 2)]) = .next t := by
  have p := paged_onCtx id [] [(0x21002C, 4, 2)] ⟨rfl, rfl⟩ rfl
  have e0 : ((onCtx id [] [(0x21002C, 4, 2)]).effOf 1 0x10000).flogRcb = 0x10000 ∧ ((onCtx id [] [(0x21002C, 4, 2)]).effOf 1 0x10000).flogVa = 0x11000 ∧
      ((onCtx id [] [(0x21002C, 4, 2)]).effOf 1 0x10000).flogN = 16 := by decide +kernel
  obtain ⟨_, e, -⟩ := (h.2.2.2 (onCtx id [] [(0x21002C, 4, 2)]) cmd1 (fetchCtx 1) 0x10000 fetchLeaf fetchLeaf 5 0x210000 0x211000 2 _
    (onCtx_on id [] [(0x21002C, 4, 2)] ⟨rfl, rfl⟩) (memoryWf_onCtx ..)).2 (by decide) (by decide) (by decide +kernel) rfl
    (by rw [show (fetchCtx 1).number = 1 from rfl, e0.1]; exact runAt_of p (by decide) (by decide +kernel) (by decide))
    (by rw [show (fetchCtx 1).number = 1 from rfl, e0.2.2]; decide)
    (by rw [show (fetchCtx 1).number = 1 from rfl, e0.2.1, e0.2.2]; exact runAt_of p (by decide) (by decide +kernel) (by decide))
    (by rw [show (fetchCtx 1).number = 1 from rfl, e0.2.2]; decide +kernel) (by decide)
  exact ⟨_, e⟩

theorem witness_counters (h : Obligations.CountersAndReportsAreRead) : ∃ t, exec (.buffersReadClear cmd1 3 250 6) wCmd = .next t :=
  let ⟨_, e, _⟩ := (h.1 wCmd _ cmd1 _ 3 250 6 true _ rfl cmdOn memoryWf_w).2 (by decide)
  ⟨_, e⟩
theorem witness_program (h : Obligations.CountersAndReportsAreRead) : ∃ t, exec (.buffersProgram cmd1 0 0 256 5) wCmd = .next t :=
  let ⟨_, e, _⟩ := (h.1 wCmd (.buffersProgram cmd1 0 0 256 5) cmd1 _ 0 0 256 false _ rfl cmdOn memoryWf_w).2 (by decide)
  ⟨_, e⟩
theorem witness_programBad (h : Obligations.CountersAndReportsAreRead) : ∃ t, exec (.buffersProgram cmd1 0 0 256 0x2000) wCmd = .next t :=
  ⟨_, h.2.1 wCmd cmd1 _ 0 0 256 0x2000 cmdOn (by decide)⟩
theorem witness_attest (h : Obligations.CountersAndReportsAreRead) : ∃ t, exec (.attest cmd1) wCmd = .next t :=
  let ⟨_, _, e, _⟩ := h.2.2 wCmd cmd1 _ cmdOn memoryWf_w
  ⟨_, e⟩
theorem witness_traceSet (h : Obligations.TraceRingsAreControlled) : ∃ t, exec (.traceSet cmd1 1 64 0x30000 0 0 0) wCmd = .next t :=
  let ⟨_, _, e, _⟩ := (h.1 wCmd cmd1 _ 1 64 0x30000 0 0 0 cmdOn).2 ⟨by decide, ⟨6, by decide⟩, by decide, by decide +kernel, fun h => nomatch h⟩
  ⟨_, e⟩
theorem witness_traceRead (h : Obligations.TraceRingsAreControlled) : ∃ t, exec (.traceRead cmd1) wCmd = .next t :=
  let ⟨_, e, _⟩ := h.2.1 wCmd cmd1 _ cmdOn memoryWf_w
  ⟨_, e⟩
/-- A ring. -/
def ring : Trace := { base := 0x30000, n := 64, mask := 1, wthresh := 0 }
theorem witness_setTail (h : Obligations.TraceRingsAreControlled) :
    ∃ t, exec (.traceSettail cmd1 3) (onCtx fun k => { k with trace := some ring }) = .next t :=
  let ⟨_, e, _⟩ := (h.2.2 (onCtx fun k => { k with trace := some ring }) cmd1 _ 3 (onCtx_on _ [] [] ⟨rfl, rfl⟩)).2 ring rfl
  ⟨_, e⟩
theorem descriptor0 (j : Nat) : descriptorAt wCmd cmd1 j = 0 := by
  unfold descriptorAt
  have e : Mem.num wCmd.hostMem (cmd1.hbuf.toNat + 16 * j) 16 = 0 := num_zero fun c h => by cases h
  rw [e]
  rfl
theorem witness_attach (h : Obligations.DebuggersAttachHaltAndStep) : ∃ t, exec (.debugAttach cmd1) wCmd = .next t :=
  let ⟨_, _, e, _⟩ := (h.1 wCmd cmd1 _ cmdOn).2.2.2 rfl
    (fun j _ => by rw [descriptor0]; exact ⟨fun _ _ => BitVec.getLsbD_zero, by decide, fun h => nomatch h⟩)
    (fun j _ => by rw [descriptor0]; exact ⟨fun _ _ => BitVec.getLsbD_zero, by decide, fun h => nomatch h⟩)
  ⟨_, e⟩
theorem witness_attachBad (h : Obligations.DebuggersAttachHaltAndStep) : ∃ t, exec (.debugAttach cmd1) (onCtx id [(0x1000, 4, 0x200)]) = .next t :=
  ⟨_, (h.1 (onCtx id [(0x1000, 4, 0x200)]) cmd1 _ (onCtx_on id [(0x1000, 4, 0x200)] [] ⟨rfl, rfl⟩)).2.1 rfl
    ⟨0, by decide, fun h => absurd (h.1 9 (by decide)) (by decide +kernel)⟩⟩
theorem witness_attachBadBreak (h : Obligations.DebuggersAttachHaltAndStep) :
    ∃ t, exec (.debugAttach cmd1) (onCtx id [(0x1080, 4, 1)]) = .next t :=
  ⟨_, (h.1 (onCtx id [(0x1080, 4, 1)]) cmd1 _ (onCtx_on id [(0x1080, 4, 1)] [] ⟨rfl, rfl⟩)).2.2.1 rfl
    (fun j hj => by
      rw [(by decide +kernel : ∀ j < 8, descriptorAt (onCtx id [(0x1080, 4, 1)]) cmd1 j = 0) j hj]
      exact ⟨fun _ _ => BitVec.getLsbD_zero, by decide, fun h => nomatch h⟩)
    ⟨0, by decide, fun h => absurd (h.1 0 (by decide)) (by decide +kernel)⟩⟩
theorem witness_detached (h : Obligations.DebuggersAttachHaltAndStep) : ∃ t, exec (.debugHalt cmd1) wCmd = .next t :=
  ⟨_, (h.2.1 wCmd cmd1 _ 0 cmdOn rfl).2.1⟩
/-- A debugger stands at the context. -/
def debugging (f : Ctx → Ctx := id) : State := onCtx fun k => f { k with attached := true }
theorem witness_halt (h : Obligations.DebuggersAttachHaltAndStep) : ∃ t, exec (.debugHalt cmd1) debugging = .next t :=
  let ⟨_, _, _, e, _⟩ := h.2.2.2.1 debugging cmd1 _ (onCtx_on _ [] [] ⟨rfl, rfl⟩) rfl (memoryWf_onCtx ..) (by decide +kernel)
  ⟨_, e⟩
/-- The acting task has an access under way. -/
def busy : State := { debugging with cur := keeping.cur }
theorem busy_on : CommandOn busy cmd1 { fetchCtx 1 with attached := true } := ⟨by unfold CommandDue; decide, rfl, rfl⟩
theorem witness_haltWaits (h : Obligations.DebuggersAttachHaltAndStep) : ∃ t, exec (.debugHalt cmd1) busy = .next t :=
  let ⟨_, _, e, _⟩ := h.2.2.1 busy cmd1 _ busy_on rfl ⟨_, List.mem_singleton_self _, rfl, rfl, by decide +kernel⟩
  ⟨_, e⟩
theorem witness_debugResume (h : Obligations.DebuggersAttachHaltAndStep) :
    ∃ t, exec (.debugResume cmd1) (debugging fun k => { k with halted := true }) = .next t :=
  let ⟨_, _, e, _⟩ := h.2.2.2.2.1 (debugging fun k => { k with halted := true }) cmd1 _ _ (onCtx_on _ [] [] ⟨rfl, rfl⟩) rfl (.inl rfl)
  ⟨_, e⟩
theorem witness_detach (h : Obligations.DebuggersAttachHaltAndStep) : ∃ t, exec (.debugDetach cmd1) debugging = .next t :=
  let ⟨_, _, e, _⟩ := h.2.2.2.2.2.1 debugging cmd1 _ (onCtx_on _ [] [] ⟨rfl, rfl⟩) rfl rfl
  ⟨_, e⟩
/-- A task that a debug stop holds. -/
def heldTask : Task := { fetchTask 1 7 with status := .suspended, flow := { line := 0x40, stop := some { reason := 4 } } }
/-- It stands beside the acting task of a halted context. -/
def holding (f : Ctx → Ctx := id) (t : Task := heldTask) : State := { debugging (fun k => f { k with halted := true }) with others := [t] }
theorem holding_on (f : Ctx → Ctx) (t : Task) (k : Ctx) (hk : f { fetchCtx 1 with attached := true, halted := true } = k) (h : k.number = 1 ∧ k.fn = 0) :
    CommandOn (holding f t) cmd1 k := by
  subst hk
  exact onCtx_on (fun k => f { k with attached := true, halted := true }) [] [] h
theorem witness_step (h : Obligations.DebuggersAttachHaltAndStep) :
    ∃ t, exec (.debugStep cmd1 (BitVec.ofNat 32 heldTask.tid)) holding = .next t :=
  let ⟨_, _, _, e, _⟩ := (h.2.2.2.2.2.2 holding cmd1 _ (BitVec.ofNat 32 heldTask.tid) (holding_on id heldTask _ rfl ⟨rfl, rfl⟩) rfl).2.1 heldTask rfl
    (List.mem_singleton_self _) (by decide +kernel) rfl ⟨rfl, rfl⟩ (fun x hx _ => List.mem_singleton.1 hx) (.inr (by decide +kernel))
  ⟨_, e⟩
theorem witness_stepBad (h : Obligations.DebuggersAttachHaltAndStep) : ∃ t, exec (.debugStep cmd1 0) debugging = .next t :=
  ⟨_, (h.2.2.2.2.2.2 debugging cmd1 _ 0 (onCtx_on _ [] [] ⟨rfl, rfl⟩) rfl).1 rfl (fun u hu _ hd => by
    obtain rfl := List.mem_singleton.1 hu; exact nomatch hd.2.1)⟩
theorem witness_stepEnds (h : Obligations.DebuggersAttachHaltAndStep) :
    ∃ t, exec (.debugStep cmd1 7) (debugging fun k => { k with stepTask := some 7 }) = .next t :=
  let ⟨_, _, e, _⟩ := (h.2.2.2.2.2.2 (debugging fun k => { k with stepTask := some 7 }) cmd1 _ 7 (onCtx_on _ [] [] ⟨rfl, rfl⟩) rfl).2.2.2 7 rfl
    (fun u hu _ => by obtain rfl := List.mem_singleton.1 hu; rfl)
  ⟨_, e⟩

/-- A fault of an instruction of the sequencer at lane 1. -/
def fault1 (code : Byte) (va : Word := 0) : FaultInfo := { code, stream := .seq, seq := 5, va }
theorem witness_faultWaits (h : Obligations.FaultsStopTheirTask) : takeFault (fault1 0x18) keeping = keeping :=
  h.1 keeping (fault1 0x18) (by decide +kernel)
theorem witness_faultAborts (h : Obligations.FaultsStopTheirTask) :
    ∃ r bs, takeFault (fault1 0x18) w = ((w.suspend r).logFault w.cur.pool.ctx w.cur.pool.rcb bs).1.abortDomain w.cur.pool.ctx w.cur.pool.rcb :=
  let ⟨r, bs, _, _, e⟩ := h.2.1 w (fault1 0x18) rfl (by decide) (.inl (by unfold handlerClass; decide))
  ⟨r, bs, e⟩
/-- A handler of template 3 is in effect. -/
def wHandled : State := mem w [(0x21001C, 2, 3)]
theorem witness_faultHandled (h : Obligations.FaultsStopTheirTask) : ∃ r bs, FaultStop wHandled (fault1 0x28) 3 r ∧ RecordOf wHandled (fault1 0x28) bs :=
  let ⟨r, bs, e, e', _⟩ := h.2.2.1 wHandled (fault1 0x28) rfl (by unfold handlerClass; decide) (by decide +kernel) (by decide) (by decide)
  ⟨r, bs, e, e'⟩
/-- Its context has a page request ring of 16 entries. -/
def wRing : State := { w with ctxs := [{ fetchCtx 1 with prBase := 0x8000, prSize := 16 }] }
theorem witness_pageFault (h : Obligations.FaultsStopTheirTask) : (takeFault (fault1 0x10 0x400010) wRing).cur.status = .suspended :=
  let ⟨_, _, _, e, _⟩ := h.2.2.2.1 wRing (fault1 0x10 0x400010) { fetchCtx 1 with prBase := 0x8000, prSize := 16 } rfl rfl (by decide) (.inl rfl)
    memoryWf_w rfl (fun h => by cases h) (by decide)
  e
/-- A matrix command. -/
def reducing : MatrixCmd := { thk := 0, seq := 5, sr := 0, sc := 0, group := 3, row := 0, accs := [] }
/-- It is in progress, and its context has two spill units. -/
def wReducing (used : List (Nat × Nat)) : State :=
  { w with ctxs := [{ fetchCtx 1 with spillUnits := 2, spillUsed := used }], cur := { w.cur with mx := some reducing } }
/-- A missing page of an operand, at a progress of the command. -/
def reducingFault : FaultInfo := { fault1 0x10 0x400010 with stream := .til, mx := some 0x30001 }
theorem witness_spill (h : Obligations.FaultsStopTheirTask) : (takeFault reducingFault (wReducing [])).cur.status = .suspended :=
  let ⟨_, _, e, _⟩ := (h.2.2.2.2 (wReducing []) reducingFault _ 0x30001 reducing rfl rfl (by decide) rfl rfl rfl).2 0 (by decide +kernel)
  e
theorem witness_spillWaits (h : Obligations.FaultsStopTheirTask) :
    (takeFault reducingFault (wReducing [(0, 0), (0, 1)])).cur.flow.page = some reducingFault :=
  ((h.2.2.2.2 (wReducing [(0, 0), (0, 1)]) reducingFault _ 0x30001 reducing rfl rfl (by decide) rfl rfl rfl).1 (by decide +kernel)).2.2
theorem witness_portBad (h : Obligations.IllegalLanesRaiseTheirFault) :
    ∃ f : FaultInfo, f.code = 4 ∧ exec (.add 63 5 6) w = .next (takeFault f w) :=
  ⟨_, rfl, h.1 w (.add 63 5 6) rfl (by decide) (fun _ h => nomatch h) drained_w⟩
theorem witness_portBadQueue (h : Obligations.IllegalLanesRaiseTheirFault) :
    ∃ f : FaultInfo, f.code = 4 ∧ exec (.cpy 63) w = .next (takeFault f w) :=
  ⟨_, rfl, h.2.1 w (.cpy 63) .cpy rfl (by decide) (by decide) drained_w rfl fun _ => rfl⟩
/-- The task stands at a lane of a line. -/
def atLines (line : List Lane) : State := w.atLine line
/-- A line whose lane 1 is of VEC, with a code that no row has. -/
def badLine : List Lane := [0x00000004, 0x0F000000]
theorem witness_badLane (h : Obligations.IllegalLanesRaiseTheirFault) :
    ∃ f : FaultInfo, f.code = 2 ∧ exec .queueDispatch (atLines badLine) = .next (takeFault f (atLines badLine)) :=
  ⟨_, rfl, h.2.2 (atLines badLine) 0 .illegalOp rfl rfl rfl rfl (by decide) rfl ⟨fun k => by cases k <;> rfl, fun _ h => nomatch h⟩
    (by decide +kernel)⟩
theorem witness_encoded (h : Obligations.DecodingAndEncodingAgree) : ∃ ws, decode .seq ws = .ok (.add 5 6 7) :=
  ⟨_, h.1 (.add 5 6 7) .seq _ rfl rfl⟩
theorem witness_decoded (h : Obligations.DecodingAndEncodingAgree) : encode (.add 5 6 7) = some (.seq, [bitsRRR 0x01 5 6 7 0]) :=
  (h.2 (.add 5 6 7) .seq _ (by decide)).1
/-- A line of one addition. -/
def addLine : List Lane := [0x00000001, bitsRRR 0x01 5 6 7 0]
theorem witness_sequencer (h : Obligations.AStepRunsTheDecodedInstruction) :
    step (atLines addLine) = mapNext (fun u => (started (atLines addLine) []).settle (noteHeld (atLines addLine).cur (noteResult (atLines addLine).cur (.add 5 6 7) u)))
      (exec (.add 5 6 7) (started (atLines addLine) [])) :=
  (h.1 (atLines addLine) [] (.add 5 6 7) ⟨rfl, rfl, rfl, rfl, rfl, rfl, rfl, rfl⟩ rfl rfl (by decide +kernel)).1 (by decide +kernel)
/-- A division into s6 is in flight, whose value the addition reads. -/
def inFlight : State := { atLines addLine with cur := { (atLines addLine).cur with ifq := [⟨0, 6, 9, 20⟩] } }
theorem witness_awaits (h : Obligations.AStepRunsTheDecodedInstruction) :
    step inFlight = .next ((started inFlight []).settle (noteHeld inFlight.cur (started inFlight []))) :=
  (h.1 inFlight [] (.add 5 6 7) ⟨rfl, rfl, rfl, rfl, rfl, rfl, rfl, rfl⟩ rfl rfl (by decide +kernel)).2 (by decide +kernel)
/-- The step of a queue whose head is a vector instruction. -/
def queueStep : State := { queuing w (entry .vec (.fneg 1 2 0)) with sched := [.queue w.cur.tid .vec] }
theorem witness_queue (h : Obligations.AStepRunsTheDecodedInstruction) :
    step queueStep = mapNext (started queueStep []).settle
      (exec (.fneg 1 2 0) { started queueStep [] with act := some (entry .vec (.fneg 1 2 0)) }) :=
  h.2.1 queueStep [] .vec (entry .vec (.fneg 1 2 0)) rfl rfl rfl rfl rfl (by decide) rfl (by decide +kernel) (by decide +kernel)
theorem witness_entry (h : Obligations.AStepRunsTheDecodedInstruction) :
    step { w with sched := [.sequencer w.cur.tid] } = mapNext (fun u => (started { w with sched := [.sequencer w.cur.tid] } []).settle (noteHeld w.cur u))
      (exec .lineEntry (started { w with sched := [.sequencer w.cur.tid] } [])) :=
  h.2.2 { w with sched := [.sequencer w.cur.tid] } [] ⟨rfl, rfl, rfl, rfl, rfl, rfl, rfl, rfl⟩ rfl (by decide +kernel)
theorem atLines_wf : (atLines addLine).MemoryWf := ⟨memoryWf_w.1, rfl, rfl, rfl, rfl, rfl, fun _ h => nomatch h⟩
/-- An outcome is a next state. -/
def goesOn : Host.Outcome State Fault Refusal → Bool
  | .next _ => true
  | _ => false
theorem ends_of {o : Host.Outcome State Fault Refusal} (h : goesOn o = true) : ∃ t, o = .next t := by
  cases o with
  | next t => exact ⟨t, rfl⟩
  | fault => exact nomatch h
  | refused => exact nomatch h
theorem step_atLines : goesOn (step (atLines addLine)) = true := by decide +kernel
theorem witness_canonical (h : Obligations.StepsKeepMemoryCanonical) : ∃ t, step (atLines addLine) = .next t ∧ t.MemoryWf := by
  obtain ⟨t, e⟩ := ends_of step_atLines
  exact ⟨t, e, h _ t atLines_wf e⟩

/-! ## Words of the spec

Every word is the match of its row of the opcode table with the fields in place, or is laid out from the rule named; among them stand
the worked encodings of R156, R164, R182, R205, R235, R268, R288 and R301. -/

/-- Every list of lanes is read as its instruction. -/
def readsAs (k : Stream) (rows : List (List Lane × Instr)) : Bool := rows.all fun r => decide (decode k r.1 = .ok r.2)

/-- Words of the sequencer (R71, R81 to R124, R430). -/
theorem test_words_seq1 : readsAs .seq [
    ([0x00000000], .nop), ([0x01152A00], .add 5 18 40), ([0x02152A00], .sub 5 18 40), ([0x03152A00], .mul 5 18 40),
    ([0x04152A00], .mulh 5 18 40), ([0x05152A00], .mulhu 5 18 40), ([0x06152A00], .div 5 18 40), ([0x07152A00], .divu 5 18 40),
    ([0x08152A00], .rem 5 18 40), ([0x09152A00], .remu 5 18 40), ([0x0A152A00], .and 5 18 40), ([0x0B152A00], .or 5 18 40),
    ([0x0C152A00], .xor 5 18 40), ([0x0D152A00], .andn 5 18 40), ([0x0E152A00], .shl 5 18 40), ([0x0F152A00], .shr 5 18 40),
    ([0x10152A00], .sra 5 18 40), ([0x11152A00], .min 5 18 40), ([0x12152A00], .max 5 18 40), ([0x13152A00], .minu 5 18 40),
    ([0x14152A00], .maxu 5 18 40), ([0x15152000], .clz 5 18), ([0x16152000], .ctz 5 18), ([0x17152000], .popc 5 18)] = true := by decide +kernel

/-- Words of the sequencer (R71, R81 to R124, R430). -/
theorem test_words_seq2 : readsAs .seq [
    ([0x18192A03], .cmpCc .ge 6 18 40), ([0x19152A06], .sel 5 6 18 40), ([0x1A152A03], .lea 5 18 40 3), ([0x1B152321], .bfx 5 18 33 12),
    ([0x1C152321], .bfi 5 18 33 12), ([0x20152FFE], .addi 5 18 (-2)), ([0x21152FFE], .andi 5 18 (-2)), ([0x22152FFE], .ori 5 18 (-2)),
    ([0x23152FFE], .xori 5 18 (-2)), ([0x2415203F], .shli 5 18 63), ([0x2515203F], .shri 5 18 63), ([0x2615203F], .srai 5 18 63),
    ([0x27992FFF], .cmpiCc .ltu 6 18 (-1)), ([0x28140000, 0x80000001], .movi 5 0x80000001), ([0x29140000, 0x80000001], .movhi 5 0x80000001),
    ([0x30DFFFFD], .br 6 true (-3)), ([0x31C00003], .call 6 false 3), ([0x32000000], .ret), ([0x33152000], .jmp 5 18),
    ([0x344BFFFE], .loop 18 (-2)), ([0x38152206], .xlt 5 18 0x81 true false), ([0x39440000], .hinv 17), ([0x3A151000], .hstat 5 17),
    ([0x40FC1080], .wait 63 1 2 0)] = true := by decide +kernel

/-- Words of the sequencer (R71, R81 to R124, R430). -/
theorem test_words_seq3 : readsAs .seq [
    ([0x41000000], .mark), ([0x42000012], .xfence .mx .st), ([0x43000013], .fence .rel .dev),
    ([0x44152A02, 0x00000064], .waita 5 18 40 .lt 100), ([0x45011009], .semSig 17 9), ([0x46151009, 0xFFFFFFFF], .semWait 5 17 9 0xFFFFFFFF),
    ([0x47011A00], .semSet 17 40), ([0x48000000], .yield), ([0x49012A00], .ifsync 18 40), ([0x50152A09, 0x000003FF], .spawn 5 18 40 9 0x3FF),
    ([0x51000000], .done), ([0x52140003], .arg 5 3), ([0x53140002], .tid 5 2), ([0x54140030], .rdsr 5 .fpst), ([0x55012031], .wrsr .rng 18),
    ([0x56152801], .trap 5 18 0x801), ([0x57000801], .brk 0x801), ([0x58012000], .resume 18), ([0x59140000], .rdtime 5),
    ([0x5A012000], .pfd 18), ([0x5B012000], .rngseed 18)] = true := by decide +kernel

/-- Words of LDQ (R72, R182). -/
theorem test_words_ldq : readsAs .ldq [
    ([0x01011069, 0xFFFFFFF0], .lds 17 true .b4 (-16) 9), ([0x02791159, 0xFFFFFFF0], .vld 30 17 (some 5) (-16) 9),
    ([0x03791009, 0xFFFFFFF0], .vldr 30 17 none (-16) 9), ([0x04791A09, 0xFFFFFFF0], .vlds 30 17 40 (-16) 9),
    ([0x057912C9], .vldg 30 17 11 9), ([0x067A8009], .vlsp 30 40 9), ([0x07791009, 0xFFFFFFF0], .vlbc 30 17 (-16) 9),
    ([0x08011A09, 0xFFFFFFF0], .ldpf 17 40 (-16) 9), ([0x02041001, 0x00000000], .vld 1 1 none 0 1)] = true := by decide +kernel

/-- Words of STQ (R72, R182). -/
theorem test_words_stq : readsAs .stq [
    ([0x01011016, 0xFFFFFFF0], .sts 17 .b2 (-16) 6), ([0x02791956, 0xFFFFFFF0], .vst 30 17 .rs (some 5) (-16) 6),
    ([0x03791156, 0xFFFFFFF0], .vstr 30 17 (some 5) (-16) 6), ([0x04791A16, 0xFFFFFFF0], .vsts 30 17 40 .rz (-16) 6),
    ([0x057912E6], .vsct 30 17 11 .rs 6), ([0x067A8006], .vssp 30 40 6), ([0x07011006, 0xFFFFFFF0], .lcln 17 (-16) 6),
    ([0x08011006, 0xFFFFFFF0], .linv 17 (-16) 6), ([0x09791156, 0xFFFFFFF0], .vfaddnr 30 17 (some 5) (-16) 6),
    ([0x02082008, 0x00000000], .vst 2 2 .rne none 0 8), ([0x02082800, 0x00000000], .vst 2 2 .rs none 0 0)] = true := by decide +kernel

/-- Words of VEC (R72, R199 to R212). -/
theorem test_words_vec1 : readsAs .vec [
    ([0x017912C5], .fadd 30 17 11 5), ([0x027912C5], .fsub 30 17 11 5), ([0x037912C5], .fmul 30 17 11 5),
    ([0x047912C5, 0x00000017], .fma 30 17 11 23 5), ([0x057912C5], .fmin 30 17 11 5), ([0x067912C5], .fmax 30 17 11 5),
    ([0x07791005], .fabs 30 17 5), ([0x08791005], .fneg 30 17 5), ([0x09791005], .frcp 30 17 5), ([0x0A791005], .frsq 30 17 5),
    ([0x0B791005], .fsqrt 30 17 5), ([0x0C791005], .fexp2 30 17 5), ([0x0D791005], .flog2 30 17 5), ([0x0ED512C5], .fcmpCc .un 5 17 11 5),
    ([0x107912C5], .iadd 30 17 11 5), ([0x117912C5], .isub 30 17 11 5), ([0x127912C5], .imul 30 17 11 5), ([0x137912C5], .iand 30 17 11 5),
    ([0x147912C5], .ior 30 17 11 5), ([0x157912C5], .ixor 30 17 11 5), ([0x167912C5], .ishl 30 17 11 5), ([0x177912C5], .ishr 30 17 11 5),
    ([0x187912C5], .isra 30 17 11 5), ([0x197912C5], .imin 30 17 11 5)] = true := by decide +kernel

/-- Words of VEC (R72, R199 to R212). -/
theorem test_words_vec2 : readsAs .vec [
    ([0x1A7912C5], .imax 30 17 11 5), ([0x1BB512C5], .icmpCc .geu 5 17 11 5), ([0x20791005], .vmov 30 17 5),
    ([0x21780005, 0xBF800000], .vmovi 30 0xBF800000 5), ([0x22791185], .vsel 30 17 6 5), ([0x237912C5], .vperm 30 17 11 5),
    ([0x24780005], .vbcast 30 5), ([0x25780005], .vlane 30 5), ([0x28791005, 0x00003593], .cvt 30 17 .fp16 .int8 .rz (some 6) 5),
    ([0x28144000, 0x00000220], .cvt 5 4 .fp32 .bf16 .rs none 0), ([0x297912D5], .pack 30 17 11 .w8 5), ([0x2A7911E5], .unpack 30 17 7 .w4 5),
    ([0x30191155], .vred .imin 17 (some 6) 5), ([0x31791085], .vscan .fmin 30 17 5), ([0x32791015], .vsort .s 30 17 5),
    ([0x331912C5], .vuniq 6 17 11 5), ([0x34791195], .vsegsum true 30 17 6 5), ([0x381850C5], .mand 6 5 3 5), ([0x391850C5], .mor 6 5 3 5),
    ([0x3A1850C5], .mxor 6 5 3 5), ([0x3B185005], .mnot 6 5 5), ([0x3C006005], .mpop 6 5), ([0x3D146005], .mfirst 5 6 5)] = true := by decide +kernel

/-- Words of TIL (R73, R148 to R177). -/
theorem test_words_til : readsAs .til [
    ([0x013A8003], .tset 14 .pitch 40), ([0x02380000], .tclr 14),
    ([0x10389180, 0x00000005, 0x00009100], .tmma 14 9 6 ⟨true, true, false, some 17, none⟩),
    ([0x11389180, 0x000000B2, 0x00000091], .tmmsp 14 9 6 11 ⟨false, false, true, none, some 17⟩),
    ([0x12389180, 0x01FFFB44, 0x00000000], .tmmtr 14 9 6 (-3) 40 ⟨true, false, false, none, none⟩), ([0x18389180], .tadd 14 9 6),
    ([0x19389180], .tmul 14 9 6), ([0x1A389A00], .tscal 14 9 40), ([0x1B389003], .tmap .sq 14 9), ([0x1C389006], .tred .min true 14 9),
    ([0x1D389000, 0x20010003], .tview .cols 14 9 0x2001), ([0x1E389000], .tcpy 14 9), ([0x20380000, 0x0042C003], .force 14 3 128 5 1),
    ([0x200C0000, 0x00408080], .force 3 0 1 1 1), ([0x21389000], .tst 9 14), ([0x22380000], .tdrop 14), ([0x23000000], .tflush),
    ([0x2400E002], .tstat 14 2), ([0x25000001], .tmode true false)] = true := by decide +kernel

/-- Words of SKQ (R73, R228 to R238). -/
theorem test_words_skq : readsAs .skq [
    ([0x011A8000], .skbind 6 40), ([0x02180000], .skinit 6), ([0x03189382], .skapp .last 6 9 14), ([0x041A8000], .skshr 6 40),
    ([0x05183000], .skmrg 6 3), ([0x06189A01], .skrd true 6 9 40), ([0x07084500, 0xBF000000], .skapply 2 4 20 0xBF000000),
    ([0x08180000], .skde 6), ([0x09180000], .skrank 6), ([0x0A180000], .sksave 6), ([0x0B180000], .skunbind 6)] = true := by decide +kernel

/-- Words of CPY (R73, R288). -/
theorem test_words_cpy : readsAs .cpy [
    ([0x01009000], .cpy 9), ([0x02152A00, 0x00002381], .cpyi 5 18 40 0x81 (some 17)), ([0x03009000], .cqstat 9)] = true := by decide +kernel

/-- Words of LNK (R73, R301, R304). -/
theorem test_words_lnk : readsAs .lnk [
    ([0x01152A21, 0x00000181], .lsend 5 18 40 (some 33) 0x81), ([0x02152A00, 0x00000081], .lrecv 5 18 40 none 0x81),
    ([0x03209280, 0x00002000], .lradd 8 9 10 none 0 2), ([0x04000001], .lstat true)] = true := by decide +kernel

/-- Words of ATM (R73, R267, R268). -/
theorem test_words_atm : readsAs .atm [
    ([0x010041F0, 0x00000008], .atom .add true 4 7 ⟨none, .core⟩ 8),
    ([0x01011A28, 0x00E7FFFC], .atom .swap false 17 40 ⟨some .ar, .sys⟩ (-4)),
    ([0x02011A24, 0x00900008], .atomnr .min false 17 40 ⟨some .rel, .die⟩ 8),
    ([0x03011A23, 0x00480008], .fatom .faddbf2 17 40 ⟨some .acq, .cl⟩ 8), ([0x04011A21, 0x00000008], .fatomnr .fmin32 17 40 ⟨none, .core⟩ 8),
    ([0x05151A30, 0x00000008], .cas true 17 40 5 ⟨none, .core⟩ 8),
    ([0x06543530, 0x00980005, 0x00800100], .atomk .add true 3 20 21 ⟨0, false, false, .eq, 5, 0x800100⟩),
    ([0x07151A20, 0xFEE00FFF, 0x00000007], .cask false 17 40 5 ⟨0xFE, true, true, .geu, 0x3FF, 7⟩), ([0x08000000], .afence),
    ([0x09011A00, 0x00000008], .qpush 17 40 ⟨none, .core⟩ 8), ([0x0A011000, 0x00580008], .qpop 17 ⟨some .acq, .dev⟩ 8),
    ([0x0B011000, 0x0007FFF8], .dcdec 17 (-8)), ([0x0C028003, 0x00980000], .nbx .adamw 40 ⟨some .rel, .dev⟩)] = true := by decide +kernel

/-- The encodings of R124 Table 9. -/
theorem test_words_table9 : readsAs .seq [([0x28140000, 0xFFFFFFFF], .movi 5 0xFFFFFFFF), ([0x2748500A], .cmpiCc .lt 2 5 10),
    ([0x304FFFFD], .br 2 false (-3)), ([0x3453FFFF], .loop 20 (-1)), ([0x42000012], .xfence .mx .st), ([0x43000013], .fence .rel .dev),
    ([0x40FFFFC0], .wait 63 63 63 0), ([0x44289200, 0x64], .waita 10 9 8 .eq 100), ([0x38002000], .xlt 0 2 0 false false)] = true := by decide +kernel

/-- A command entry as R465 Table 2 lays it out, with TAG 7, CTX 1 and HBUF 0x1000. -/
def commandBytes (opc : Nat) (args : List Byte) : List Byte :=
  leBytes 4 opc ++ leBytes 4 7 ++ leBytes 8 1 ++ leBytes 8 0x1000 ++ args ++ List.replicate (40 - args.length) 0

/-- Command entries with the arguments of R467 Table 9 in their places. -/
theorem test_commands : ([
    (1, leBytes 4 4096 ++ leBytes 2 256 ++ [3, 4] ++ leBytes 8 0x1000 ++ leBytes 4 16, .createContext cmd1 4096 256 3 4 0x1000 16),
    (2, [], .destroyContext cmd1), (3, leBytes 8 0x200000 ++ leBytes 8 0x47, .map cmd1 0x200000 0x47),
    (4, leBytes 8 0x200000 ++ leBytes 4 9, .unmap cmd1 0x200000 9), (5, leBytes 8 0x200000, .pin cmd1 0x200000),
    (6, leBytes 8 0x30060, .registerTemplate cmd1 0x30060),
    (7, leBytes 8 63 ++ leBytes 8 0x30080 ++ leBytes 8 0x40000 ++ [64, 0x15], .launch cmd1 63 0x30080 0x40000 64 0x15),
    (8, leBytes 8 0x10000, .abortRcb cmd1 0x10000), (9, leBytes 8 0x10000 ++ leBytes 4 5, .readFaultLog cmd1 0x10000 5),
    (10, [3, 0] ++ leBytes 2 255 ++ leBytes 2 1, .buffersRead cmd1 3 255 1), (10, [3, 1] ++ leBytes 2 255 ++ leBytes 2 1, .buffersReadClear cmd1 3 255 1),
    (10, [3, 2] ++ leBytes 2 255 ++ leBytes 2 1, .buffersClear cmd1 3 255 1),
    (10, [3, 3] ++ leBytes 2 255 ++ leBytes 4 1 ++ leBytes 8 0x1001, .buffersProgram cmd1 3 255 1 0x1001),
    (11, [], .attest cmd1), (12, leBytes 2 1024, .resetFunction cmd1 1024),
    (13, [0, 9, 0, 0] ++ leBytes 4 64 ++ leBytes 8 0x30000 ++ leBytes 4 2 ++ leBytes 4 8 ++ leBytes 8 0x50000, .traceSet cmd1 9 64 0x30000 2 8 0x50000),
    (13, [1], .traceRead cmd1), (13, [2, 0, 0, 0] ++ leBytes 4 5, .traceSettail cmd1 5), (14, [0], .debugAttach cmd1), (14, [1], .debugDetach cmd1),
    (14, [2], .debugHalt cmd1), (14, [3], .debugResume cmd1), (14, [4, 0, 0, 0] ++ leBytes 4 0x2003, .debugStep cmd1 0x2003)] :
      List (Nat × List Byte × Instr)).all (fun r => decodeCommand 0 (commandBytes r.1 r.2.1) == some r.2.2) = true := by decide +kernel

/-- An unlisted OPC and a nonzero byte that no field has are refused (R466). -/
theorem test_commands_refused : decodeCommand 0 (commandBytes 15 []) = none ∧ decodeCommand 0 (commandBytes 0x102 []) = none ∧
    decodeCommand 0 (commandBytes 2 [1]) = none ∧ decodeCommand 0 (commandBytes 14 [5]) = none := by decide +kernel

/-! ## Ill-formed terms, which WellFormed refuses (R63) -/

/-- One ill-formed term for each check of fields. -/
theorem test_ill_formed : ([.br 0 true 1, .call 0 true 1, .loop 0 (-1), .semSig 1 0, .semWait 5 1 0 9, .wrsr .core 5, .lds 1 true .b8 0 0,
    .vsort .u 3 3 0, .unpack 3 4 2 .w16 0, .unpack 3 4 4 .w8 0, .unpack 3 4 8 .w4 0, .tmmsp 1 2 3 4 ⟨false, true, false, none, none⟩,
    .tview .tr 1 2 1, .force 1 0 0 0 1, .force 1 0 1 0 129, .tstat 1 3, .skmrg 2 2, .atom .add true 1 5 ⟨none, .dev⟩ 0,
    .fatom .fadd32 1 5 ⟨none, .sys⟩ 0, .cas true 1 5 6 ⟨none, .cl⟩ 0, .qpush 1 5 ⟨none, .die⟩ 0, .qpop 1 ⟨none, .die⟩ 0,
    .atomnr .add true 1 5 ⟨some .acq, .dev⟩ 0, .fatomnr .fadd32 1 5 ⟨some .ar, .dev⟩ 0, .nbx .sum 5 ⟨some .ar, .dev⟩] : List Instr).all
      (fun i => !i.fieldsWf) = true := by decide +kernel

/-- Ports against their direction, and s63 (R69, R70). -/
theorem test_ports_refused : ([.add 63 5 6, .add 56 5 6, .add 5 57 6, .add 5 6 63, .movhi 57 0, .bfi 57 5 0 1, .vlds 1 2 58 0 0, .tset 1 .base 57,
    .cpy 63] : List Instr).all (fun i => i.portBad && !i.wf) = true := by decide +kernel

/-- The same terms with their fields in range are well formed. -/
theorem test_well_formed : ([.br 1 true 1, .loop 1 (-1), .semSig 1 1, .wrsr .rng 5, .lds 1 true .b4 0 0, .vsort .u 3 4 0, .unpack 3 4 7 .w4 0,
    .tview .cols 1 2 1, .force 1 0 128 0 1, .skmrg 2 3, .atom .add true 1 5 ⟨some .rel, .dev⟩ 0, .add 57 56 6] : List Instr).all Instr.wf = true := by
  decide +kernel

/-! ## Worked examples of the rules -/

/-- s7 after an instruction on s5 and s6. -/
def s7After (i : Instr) (x y : Word) : Option Word :=
  match exec i (wr2 5 x 6 y) with
  | .next t => some (t.cur.regs.rd 7)
  | _ => none

/-- The division of R83: −7 by 2, by zero, and the most negative number by −1. -/
theorem test_div : s7After (.div 7 5 6) (-7) 2 = some (-3) ∧ s7After (.rem 7 5 6) (-7) 2 = some (-1) ∧
    s7After (.div 7 5 6) 9 0 = some 0xFFFFFFFFFFFFFFFF ∧ s7After (.rem 7 5 6) 9 0 = some 9 ∧
    s7After (.div 7 5 6) 0x8000000000000000 (-1) = some 0x8000000000000000 ∧ s7After (.rem 7 5 6) 0x8000000000000000 (-1) = some 0 := by decide +kernel

/-- Shifts take bits [5:0] of b; clz and ctz of zero give 64 (R82 Table 3). -/
theorem test_shift : s7After (.shl 7 5 6) 3 64 = some 3 ∧ s7After (.sra 7 5 6) (-8) 2 = some (-2) ∧ s7After (.shr 7 5 6) 8 66 = some 2 ∧
    s7After (.clz 7 5) 0 0 = some 64 ∧ s7After (.ctz 7 5) 0 0 = some 64 := by decide +kernel

/-- R137 Table 7: encodings under rne; flag bits are invalid 1, overflow 2, underflow 4, inexact 8 and nan-lost 16. -/
theorem test_encodings : ([
    (.fin false 33 10, .e4m3, 0x45, 8), (.fin false 17 1, .e4m3, 0x58, 8), (.fin false 500 1, .e4m3, 0x7E, 10), (.fin true 1000 1, .e4m3, 0xFE, 10),
    (.fin false 61440 1, .e5m2, 0x7C, 10), (.fin false 60000 1, .e5m2, 0x7B, 8), (.fin false 5 2, .e2m1, 4, 8), (.fin false 5 1, .e2m1, 6, 8),
    (.fin false 1 4, .e2m1, 0, 12), (.nan, .e2m1, 0, 16), (.fin false 1 1024, .e4m3, 0, 12), (.fin false 7 2, .int8, 4, 8),
    (.fin false 300 1, .int8, 0x7F, 1), (.fin false 257 256, .bf16, 0x3F80, 8)] : List (FV × Fmt × Nat × Fl)).all
      (fun r => r.2.1.enc .rne 0 r.1 == (r.2.2.1, r.2.2.2)) = true := by decide +kernel

/-- R139: the first step of the generator from zero, and the stochastic rounding of 1 + 2^−9 to BF16 with its number. -/
theorem test_stochastic : rngStep 0 = (0x14057B7EF767814F, 5125) ∧ Fmt.enc .bf16 .rs 5125 (f32 0x3F804000) = (0x3F81, 8) := by decide +kernel

/-- R128: four E3M2 elements in a 24-bit group. -/
theorem test_e3m2 : ([(.fin false 1 1, 0x0C), (.fin false 28 1, 0x1F), (.fin true 1 4, 0x24), (.fin false 0 1, 0)] : List (FV × Nat)).all
    (fun r => (Fmt.enc .e3m2 .rne 0 r.1).1 == r.2) = true := by decide +kernel

/-- R201 Table 4 and the exact values it names. -/
theorem test_unary : toF32 (rcpV (f32 0x80000000)).1 = (0xFF800000, 0) ∧ toF32 (rsqV (f32 0x7F800000)).1 = (0, 0) ∧
    (sqrtV (f32 0xBF800000)).2 = 1 ∧ toF32 (exp2V (f32 0x40400000)).1 = (0x41000000, 0) ∧ toF32 (log2V (f32 0x41000000)).1 = (0x40400000, 0) := by
  decide +kernel

end Sys2Proof.Tests
end

section
namespace Sys2Proof.Machine

/-! ## What a scheduled move of a running task does (log 1) -/

theorem begin_eq_started {s : State} {m : Move} {rest : List Move} (h : s.sched = m :: rest) : s.begin = started s rest := by
  simp only [State.begin, started, h, List.tail_cons]

/-- A step runs the first scheduled move, and what follows it, on the state without that move. -/
theorem step_of_sched {s : State} {m : Move} {rest : List Move} (h : s.sched = m :: rest) (hb : s.beginFor m = s.begin) :
    step s = mapNext (started s rest).settle (runMove m (started s rest)) := by
  have hn : s.nextMove = some m := by simp only [State.nextMove, h]
  simp only [step, stepMove, hn, hb, begin_eq_started h]

theorem mapNext_mapNext (f g : State → State) (o : Host.Outcome State Fault Refusal) :
    mapNext f (mapNext g o) = mapNext (fun s => f (g s)) o := by
  cases o <;> rfl

theorem isRunning_iff {t : Task} : t.isRunning = true ↔ ∃ core, t.status = .running core := by
  unfold Task.isRunning
  cases t.status <;> simp

theorem status_ne_idle_of_isRunning {t : Task} (h : t.isRunning = true) : t.status ≠ .idle := by
  obtain ⟨core, hc⟩ := isRunning_iff.1 h
  simp [hc]

/-- A running task acts itself. -/
theorem acting_self {s : State} (h : s.cur.isRunning = true) : s.acting s.cur.tid = some s := by
  have hi : s.cur.status ≠ .idle ∧ s.cur.tid = s.cur.tid := ⟨status_ne_idle_of_isRunning h, rfl⟩
  have hf : s.focus s.cur.tid = s := if_pos hi
  unfold State.acting
  rw [hf]
  exact if_pos hi

theorem sequencerMove_self {s : State} (h : s.cur.isRunning = true) :
    sequencerMove s.cur.tid s = mapNext (noteHeld s.cur) (sequencerAct s) := by
  simp only [sequencerMove, acting_self h, h, if_true]

theorem queueMove_self {s : State} (k : Stream) (h : s.cur.isRunning = true) : queueMove s.cur.tid k s = queueAct k s := by
  simp only [queueMove, acting_self h, h, if_true]

/-- With nothing begun or due the sequencer handles the next lane of its line, or enters one. -/
theorem sequencerAct_goes {s : State} {rest : List Move} (h : SequencerGoes s rest) :
    sequencerAct (started s rest) =
      if s.cur.flow.entered then laneMove (started s rest)
      else if s.cur.holding then .next (started s rest) else exec .lineEntry (started s rest) := by
  obtain ⟨-, -, hpage, hfrozen, hstep, hdue, hfin, htimed⟩ := h
  have hc : (started s rest).cur = s.cur := rfl
  simp only [sequencerAct, hc, hpage, hfrozen, hstep, hdue, hfin, htimed, Option.isSome_none, Bool.or_self, Bool.false_eq_true, if_false]

theorem laneMove_started {s : State} {rest : List Move} {i : Instr} (hb : s.breakAt = none)
    (hd : decodeLane s.cur.flow.lanes s.cur.flow.lane = .ok i) :
    laneMove (started s rest) =
      if s.cur.awaits i then .next (started s rest) else mapNext (noteResult s.cur i) (exec i (started s rest)) := by
  have hl : (started s rest).laneAct = .run s.cur.laneEngine i := by
    have hb' : (started s rest).breakAt = none := hb
    have hd' : decodeLane (started s rest).cur.flow.lanes (started s rest).cur.flow.lane = .ok i := hd
    simp only [State.laneAct, hb', hd']
    rfl
  have ha : { started s rest with act := none } = started s rest := rfl
  unfold laneMove
  rw [hl]
  dsimp only
  rw [ha]
  rfl

/-- The step of a task's sequencer that may go on. -/
theorem step_sequencer {s : State} {rest : List Move} (h : SequencerGoes s rest) :
    step s = mapNext (fun u => (started s rest).settle (noteHeld s.cur u)) (sequencerAct (started s rest)) := by
  have hr : (started s rest).cur.isRunning = true := h.2.1
  have hm : runMove (.sequencer s.cur.tid) (started s rest) = mapNext (noteHeld s.cur) (sequencerAct (started s rest)) :=
    sequencerMove_self hr
  rw [step_of_sched h.1 rfl, hm, mapNext_mapNext]

theorem actor_eq_head {t : Task} {k : Stream} (hk : k ≠ .lnk) : t.actor k = (t.queue k).head? := by
  cases k
  case lnk => exact absurd rfl hk
  all_goals rfl

/-- A queue's head runs as the acting entry. -/
theorem queueAct_head {s : State} {k : Stream} {e : Entry} (hpage : s.cur.flow.page = none) (hdue : s.cur.flow.due = none)
    (hlnk : s.cur.heldLnk = []) (hk : k ≠ .lnk) (he : (s.cur.queue k).head? = some e) (hgo : s.cur.goesOn k e = true)
    (hputs : s.cur.endsPuts k = false) : queueAct k s = exec e.ins { s with act := some e } := by
  simp [queueAct, hpage, hdue, hlnk, hputs, actor_eq_head hk, he, hgo]

/-- Settles O57: a step is the first scheduled move and what follows it, and a running task's move is its own. -/
theorem aStepRunsTheDecodedInstruction : Obligations.AStepRunsTheDecodedInstruction := by
  refine ⟨fun s rest i hgo hin hb hd => ⟨fun haw => ?_, fun haw => ?_⟩, fun s rest k e hs hr hpage hdue hlnk hk he hg hputs => ?_,
    fun s rest hgo hin hh => ?_⟩
  · rw [step_sequencer hgo, sequencerAct_goes hgo, if_pos hin, laneMove_started hb hd, haw, if_neg (by simp), mapNext_mapNext]
  · rw [step_sequencer hgo, sequencerAct_goes hgo, if_pos hin, laneMove_started hb hd, haw, if_pos rfl]
    rfl
  · rw [step_of_sched hs rfl]
    have hr' : (started s rest).cur.isRunning = true := hr
    have hm : runMove (.queue s.cur.tid k) (started s rest) = queueAct k (started s rest) := queueMove_self k hr'
    rw [hm, queueAct_head (s := started s rest) hpage hdue hlnk hk he hg hputs]
  · rw [step_sequencer hgo, sequencerAct_goes hgo, hin, hh]
    rfl

end Sys2Proof.Machine
end

section
namespace Sys2Proof.Machine

/-! ## What a stop of a task writes (R31, R352, R428, R453) -/

/-- A context without its trace ring. -/
def Ctx.traceless (c : Ctx) : Ctx := { c with trace := none }

/-- A task without its scratchpad, what is noted of it, and its setters. -/
def Task.scratchless (t : Task) : Task := { t with scratch := [], written := 0, setter := [] }

/-- A state without what saving a task may change: memories and what is kept of their lines, the budgets noted, the acting task's
scratchpad, and trace rings. -/
def State.unsaved (s : State) : State :=
  { s with hbm := [], csram := [], backing := [], hostMem := [], peerMem := [], dirty := [], rdc := [], poison := [], badTags := [],
           overBudget := [], wrote := [], ctxs := s.ctxs.map Ctx.traceless, cur := s.cur.scratchless }

/-- Two states differ at most in what saving a task may change. -/
def State.SavedOnly (s t : State) : Prop := t.unsaved = s.unsaved

theorem State.SavedOnly.refl (s : State) : s.SavedOnly s := rfl

theorem State.SavedOnly.trans {a b c : State} (h : a.SavedOnly b) (g : b.SavedOnly c) : a.SavedOnly c := Eq.trans g h

theorem State.SavedOnly.now {s t : State} (h : s.SavedOnly t) : t.now = s.now := congrArg (·.now) (show t.unsaved = s.unsaved from h)
theorem State.SavedOnly.others {s t : State} (h : s.SavedOnly t) : t.others = s.others := congrArg (·.others) (show t.unsaved = s.unsaved from h)
theorem State.SavedOnly.launches {s t : State} (h : s.SavedOnly t) : t.launches = s.launches :=
  congrArg (·.launches) (show t.unsaved = s.unsaved from h)
theorem State.SavedOnly.cur {s t : State} (h : s.SavedOnly t) : t.cur.scratchless = s.cur.scratchless := congrArg State.cur h
theorem State.SavedOnly.ctxs {s t : State} (h : s.SavedOnly t) : t.ctxs.map Ctx.traceless = s.ctxs.map Ctx.traceless :=
  congrArg State.ctxs h

theorem State.SameButMemory.savedOnly {s t : State} (h : s.SameButMemory t) : s.SavedOnly t := by
  unfold State.SavedOnly
  rw [h]
  rfl

theorem State.SameButCharge.savedOnly {s t : State} (h : s.SameButCharge t) : s.SavedOnly t :=
  State.SavedOnly.trans (b := { s with overBudget := t.overBudget }) rfl (State.SameButMemory.savedOnly h)

theorem foldl_savedOnly {α : Type} {f : State → α → State} (h : ∀ (s : State) (x : α), s.SavedOnly (f s x)) :
    ∀ (l : List α) (s : State), s.SavedOnly (l.foldl f s)
  | [], s => .refl s
  | x :: r, s => (h s x).trans (foldl_savedOnly h r _)

/-- A change of the trace ring of a context alone. -/
theorem modCtx_savedOnly (s : State) (n : Nat) {f : Ctx → Ctx} (hf : ∀ c, (f c).traceless = c.traceless) : s.SavedOnly (s.modCtx n f) := by
  have h : (s.modCtx n f).ctxs.map Ctx.traceless = s.ctxs.map Ctx.traceless := by
    rw [State.modCtx_ctxs, List.map_map]
    refine List.map_congr_left fun c _ => ?_
    dsimp only [Function.comp]
    split
    · exact hf c
    · rfl
  exact congrArg (fun l => { s.unsaved with ctxs := l }) h

theorem noteWrite_savedOnly (s : State) (p : Space) (a n : Nat) : s.SavedOnly (s.noteWrite p a n) := by
  unfold State.noteWrite
  split <;> rfl

theorem scratchPut_scratchless (t : Task) (a : Nat) (bs : List Byte) : (t.scratchPut a bs).scratchless = t.scratchless := by
  unfold Task.scratchPut
  split <;> rfl

/-- A state with another task that differs at most in its scratchpad, and another backing. -/
theorem savedOnly_of_scratchless {s : State} {t : Task} (m : Mem) (h : t.scratchless = s.cur.scratchless) :
    s.SavedOnly { s with cur := t, backing := m } := by
  unfold State.SavedOnly State.unsaved
  dsimp only
  rw [h]

theorem scratchWrite_savedOnly (s : State) (time kind : Nat) (src : Word) (a : Nat) (bs : List Byte) :
    s.SavedOnly (s.scratchWrite time kind src a bs) := by
  have h := scratchPut_scratchless s.cur a bs
  unfold State.scratchWrite
  generalize s.cur.scratchPut a bs = t at h
  refine savedOnly_of_scratchless _ ?_
  split
  · split
    · exact h
    · exact h
  · exact h

theorem landPatch_savedOnly (s : State) (x : LandSrc) (p : Patch) : s.SavedOnly (s.landPatch x p) := by
  unfold State.landPatch
  refine foldl_savedOnly (fun s i => ?_) _ s
  dsimp only
  split
  · exact scratchWrite_savedOnly ..
  · exact (put_same ..).savedOnly.trans (noteWrite_savedOnly ..)

theorem cleaned_savedOnly (s : State) (l : Landing) : s.SavedOnly (s.cleaned l) := by
  unfold State.cleaned
  split <;> rfl

theorem landRest_savedOnly (s : State) (x : LandSrc) (l : Landing) : s.SavedOnly (s.landRest x l) := by
  unfold State.landRest
  exact (foldl_savedOnly (fun s p => landPatch_savedOnly s x p) _ s).trans (cleaned_savedOnly ..)

theorem landDrift_savedOnly (s : State) (t : Task) (sel : Path → Bool) : s.SavedOnly (s.landDrift t sel) := by
  unfold State.landDrift
  exact foldl_savedOnly (fun s x => landRest_savedOnly s ..) _ s

theorem traceRing_savedOnly (s : State) (n : Nat) (r : Trace) (bs : List Byte) : s.SavedOnly (s.traceRing n r bs) := by
  unfold State.traceRing
  dsimp only
  split
  · exact (writeVia_same ..).savedOnly.trans (modCtx_savedOnly _ _ fun _ => rfl)
  · exact modCtx_savedOnly _ _ fun _ => rfl

theorem trace_savedOnly (s : State) (n cls : Nat) (bs : List Byte) : s.SavedOnly (s.trace n cls bs).1 := by
  unfold State.trace
  split
  · exact .refl s
  · split
    · exact .refl s
    · exact traceRing_savedOnly ..

theorem waitRec_savedOnly (s : State) (t : Task) (wkind outcome flag : Nat) (waiter addr : Word) (began ended : Nat)
    (by_ : Option (Nat × Word)) (always : Bool) : s.SavedOnly (s.waitRec t wkind outcome flag waiter addr began ended by_ always) := by
  unfold State.waitRec
  extract_lets cycles long
  split
  · exact trace_savedOnly ..
  · exact .refl s

theorem waitsStop_savedOnly (s : State) (t : Task) (debug : Bool) : s.SavedOnly (s.waitsStop t debug) := by
  unfold State.waitsStop
  exact foldl_savedOnly (fun s _ => waitRec_savedOnly s ..) _ s

theorem saveTask_savedOnly (s : State) (t : Task) (r : StopRec) : s.SavedOnly (s.saveTask t r) := by
  have h : s.SavedOnly (((s.landDrift t).waitsStop t (r.reason == 4)).charge t.pool t.sys.uncharged) :=
    ((landDrift_savedOnly ..).trans (waitsStop_savedOnly ..)).trans (charge_same ..).savedOnly
  unfold State.saveTask
  generalize ((s.landDrift t).waitsStop t (r.reason == 4)).charge t.pool t.sys.uncharged = u at h
  exact h.trans rfl

theorem suspend_others (s : State) (r : StopRec) : (s.suspend r).others = s.others := (saveTask_savedOnly s s.cur r).others
theorem suspend_now (s : State) (r : StopRec) : (s.suspend r).now = s.now := (saveTask_savedOnly s s.cur r).now

/-- A debug stop of a task saves it at most. -/
theorem stopFor_savedOnly (s : State) (t : Task) (c : StopRec) : s.SavedOnly (s.stopFor t c).1 := by
  unfold State.stopFor
  split
  · exact .refl s
  · split
    · extract_lets r
      dsimp only
      split
      · exact saveTask_savedOnly ..
      · rfl
    · exact .refl s

end Sys2Proof.Machine
end

section
namespace Sys2Proof.Machine

/-! ## What a cut gives back (R19, R50, R298) -/

theorem giveTok_foldl (l : List (Fin 6)) (g : Regs) : ∃ tok, l.foldl Regs.giveTok g = { g with tok := tok } := by
  induction l generalizing g with
  | nil => exact ⟨g.tok, rfl⟩
  | cons i l ih =>
    obtain ⟨tok, h⟩ := ih (g.giveTok i)
    exact ⟨tok, by rw [List.foldl_cons, h]; rfl⟩

theorem wrSem_foldl (f : Regs → SemReg → Lane) (l : List SemReg) (g : Regs) :
    ∃ sm, l.foldl (fun g i => g.wrSem i (f g i)) g = { g with sm := sm } := by
  induction l generalizing g with
  | nil => exact ⟨g.sm, rfl⟩
  | cons i l ih =>
    obtain ⟨sm, h⟩ := ih (g.wrSem i (f g i))
    exact ⟨sm, by rw [List.foldl_cons, h]; rfl⟩

/-- A cut changes token and semaphore counts alone. -/
theorem cutRegs_frame (t : Task) : ∃ tok sm, t.cutRegs = { t.regs with tok := tok, sm := sm } := by
  unfold Task.cutRegs
  extract_lets g
  obtain ⟨tok, h⟩ : ∃ tok, g = { t.regs with tok := tok } := giveTok_foldl _ _
  obtain ⟨sm, h'⟩ := wrSem_foldl (fun g i => semAdd (g.rdSem i) 1)
    ((t.vcq.filter fun (c : CopySlot) => c.met && !c.complete && c.engine.isNone && !c.paused).flatMap CopySlot.waitm) g
  exact ⟨tok, sm, by rw [h', h]⟩

/-- A cut gives nothing back where nothing was taken. -/
theorem cutRegs_of_untaken {t : Task} (hq : ∀ k, ∀ e ∈ t.queue k, e.taken = false)
    (hc : ∀ c ∈ t.vcq, c.complete = false → c.met = false) : t.cutRegs = t.regs := by
  have h1 : ([Stream.ldq, .vec, .stq].flatMap fun k => ((t.queue k).filter (·.taken)).flatMap fun e =>
      waitFifos k (Instr.tokens e.ins)) = [] := by
    refine List.flatMap_eq_nil_iff.2 fun k _ => ?_
    rw [List.filter_eq_nil_iff.2 fun e he => by simp [hq k e he]]
    rfl
  have h2 : (t.vcq.filter fun (c : CopySlot) => c.met && !c.complete && c.engine.isNone && !c.paused) = [] := by
    refine List.filter_eq_nil_iff.2 fun c hm => ?_
    cases hd : c.complete
    · simp [hc c hm hd]
    · simp
  unfold Task.cutRegs
  rw [h1, h2]
  rfl

theorem cutRegs_givesBack (t : Task) : GivesBack t t.cutRegs := by
  obtain ⟨tok, sm, h⟩ := cutRegs_frame t
  refine ⟨?_, ?_, ?_, ?_, ?_, ?_, ?_, ?_, cutRegs_of_untaken⟩ <;> rw [h]

/-! ## Running tasks and their points (R425) -/

theorem isRunning_of_status {t : Task} {core : Nat} (h : t.status = .running core) : t.isRunning = true := by
  simp [Task.isRunning, h]

theorem coreOf_of_running {t : Task} {core : Nat} (h : t.status = .running core) : t.coreOf = some core := by
  simp [Task.coreOf, h]

theorem atCut_of_running {t : Task} (h : t.isRunning = true) : t.atCut = (t.atPoint && t.queuesAtPoint) := by
  simp [Task.atCut, h]

/-! ## Debug stops (R447) -/

/-- A debug stop of a running task that stands at a cut suspends it with the stop's cause. -/
theorem stopFor_atCut {s : State} {t : Task} {c : StopRec} {core : Nat} (hr : t.status = .running core) (ha : t.aborting = false)
    (hc : t.atCut = true) : (s.stopFor t c).2 = t.stopped { t.stopRec (s.timeOf t.pool.ctx) 4 with
      dcause := c.dcause, dindex := c.dindex, dcode := c.dcode, dslot := c.dslot, brk := c.brk } := by
  simp [State.stopFor, coreOf_of_running hr, ha, hc]

/-- A debug stop of a running task that does not stand at a cut is to come. -/
theorem stopFor_coming {s : State} {t : Task} {c h : StopRec} {core : Nat} (hr : t.status = .running core) (ha : t.aborting = false)
    (hc : t.atCut = false) (hh : t.flow.halt = some h) : s.stopFor t c = (s, t) := by
  simp [State.stopFor, coreOf_of_running hr, ha, hc, hh]

theorem modCtx_ctx? (s : State) (n m : Nat) {f : Ctx → Ctx} (hf : ∀ c, (f c).number = c.number) :
    (s.modCtx n f).ctx? m = (s.ctx? m).map fun c => if c.number = n then f c else c := by
  unfold State.ctx?
  rw [State.modCtx_ctxs, List.find?_map]
  congr 2
  funext c
  dsimp only [Function.comp]
  split
  · rw [hf]
  · rfl

theorem ctx?_number {s : State} {n : Nat} {c : Ctx} (h : s.ctx? n = some c) : c.number = n := by
  simpa using List.find?_some h

/-- Saving tasks leaves the contexts as they are but for their trace rings. -/
theorem State.SavedOnly.ctx? {s t : State} (h : s.SavedOnly t) (n : Nat) : (t.ctx? n).map Ctx.traceless = (s.ctx? n).map Ctx.traceless := by
  have key : ∀ u : State, (u.ctx? n).map Ctx.traceless = (u.ctxs.map Ctx.traceless).find? (·.number == n) := fun u => by
    rw [List.find?_map]
    rfl
  rw [key, key, h.ctxs]

/-- A halt of a context's other tasks saves them at most; what the acting task is stays, and its context is halted. -/
theorem haltOthers_frame (s : State) (n dcause : Nat) {c : Ctx} (hc : s.ctx? n = some c) :
    (s.haltOthers n dcause).cur.scratchless = s.cur.scratchless ∧
    ((s.haltOthers n dcause).ctx? n).map (·.halted) = some true := by
  unfold State.haltOthers
  extract_lets p
  have hp : s.SavedOnly p.1 := by
    refine List.foldlRecOn (motive := fun q : State × List Task => s.SavedOnly q.1) _ _ (.refl s) fun q h t _ => ?_
    dsimp only
    split
    · exact h.trans (stopFor_savedOnly ..)
    · exact h
  obtain ⟨d, hd, -⟩ := Option.map_eq_some_iff.1 ((hp.ctx? n).trans (congrArg _ hc))
  refine ⟨hp.cur, ?_⟩
  have hd' : State.ctx? { p.1 with others := p.2 } n = some d := hd
  refine (congrArg (Option.map _) (modCtx_ctx? (f := fun c => { c with halted := true }) _ n n fun _ => rfl)).trans ?_
  rw [hd', Option.map_some, Option.map_some, if_pos (ctx?_number hd)]

end Sys2Proof.Machine
end

section
namespace Sys2Proof.Machine

/-! ## Reading parts of a memory -/

/-- Cells above an address do not hold it. -/
theorem read_of_above {m : Mem} {a : Nat} (h : ∀ c ∈ m, a < c.1) : Mem.read m a = unlisted := by
  cases m with
  | nil => rfl
  | cons c r =>
    have hc : a < c.1 := h c List.mem_cons_self
    simp [Mem.read, hc, hc.ne]

/-- Cells below a bound, then cells from it on. -/
theorem read_append {l r : Mem} {b : Nat} (hl : ∀ c ∈ l, c.1 < b) (hr : ∀ c ∈ r, b ≤ c.1) (a : Nat) :
    Mem.read (l ++ r) a = if a < b then Mem.read l a else Mem.read r a := by
  induction l with
  | nil =>
    split
    · rename_i h
      exact read_of_above fun c hc => h.trans_le (hr c hc)
    · rfl
  | cons c l ih =>
    obtain ⟨k, x⟩ := c
    have hk : k < b := hl _ List.mem_cons_self
    have ih := ih fun c hc => hl c (List.mem_cons_of_mem _ hc)
    simp only [List.cons_append, Mem.read, ih]
    grind

theorem wfFrom_above {lo : Nat} : ∀ {m : Mem}, Memory.wfFrom lo m = true → ∀ c ∈ m, lo ≤ c.1
  | (k, b) :: r, hm, c, hc => by
    simp only [Memory.wfFrom, Bool.and_eq_true, decide_eq_true_eq] at hm
    rcases List.mem_cons.1 hc with rfl | hc
    · exact hm.1.1
    · exact (Nat.le_of_succ_le ((Nat.succ_le_succ hm.1.1).trans (wfFrom_above hm.2 c hc)))

/-- The cells of a canonical memory at selected addresses. -/
theorem read_filter_from {lo : Nat} (p : Nat → Bool) (a : Nat) : ∀ {m : Mem}, Memory.wfFrom lo m = true →
    Mem.read (m.filter fun c => p c.1) a = if p a then Mem.read m a else unlisted
  | [], _ => by simp [Mem.read]
  | (k, b) :: r, hm => by
    simp only [Memory.wfFrom, Bool.and_eq_true, decide_eq_true_eq] at hm
    have ih := read_filter_from p a hm.2
    have hr : a < k → Mem.read r a = unlisted := fun h => read_of_above fun c hc => (h.trans (Nat.lt_succ_self k)).trans_le (wfFrom_above hm.2 c hc)
    rcases Nat.lt_trichotomy a k with h | h | h
    · have hf : Mem.read (((k, b) :: r).filter fun c => p c.1) a = unlisted :=
        read_of_above fun c hc => h.trans_le (wfFrom_above (lo := k) (by simp [Memory.wfFrom, hm.1.2, hm.2]) c (List.mem_of_mem_filter hc))
      rw [hf]
      simp [Mem.read, h, h.ne]
    · subst h
      cases hp : p a
      · simp [hp, ih]
      · simp [hp, Mem.read]
    · have hrd : Mem.read ((k, b) :: r) a = Mem.read r a := by simp [Mem.read, h.ne', h.le.not_gt]
      rw [hrd, ← ih]
      cases hp : p k
      · simp [hp]
      · simp [hp, Mem.read, h.ne', h.le.not_gt]

theorem read_filter {m : Mem} (hm : Memory.wf m = true) (p : Nat → Bool) (a : Nat) :
    Mem.read (m.filter fun c => p c.1) a = if p a then Mem.read m a else unlisted := read_filter_from p a hm

/-- Cells moved down. -/
theorem read_map_sub {d : Nat} (a : Nat) : ∀ {m : Mem}, (∀ c ∈ m, d ≤ c.1) → Mem.read (m.map fun c => (c.1 - d, c.2)) a = Mem.read m (d + a)
  | [], _ => rfl
  | (k, b) :: r, h => by
    have hk : d ≤ k := h _ List.mem_cons_self
    have ih := read_map_sub a fun c hc => h c (List.mem_cons_of_mem (k, b) hc)
    simp only [List.map_cons, Mem.read, ih, show (a = k - d) ↔ (d + a = k) by omega, show (a < k - d) ↔ (d + a < k) by omega]

/-! ## A scratchpad page that arrives (R353) -/

/-- The scratchpad after a page has arrived holds the backing's bytes in the page, and its own elsewhere. -/
theorem read_fillPage {backing : Mem} {t : Task} {p : Nat} (hb : Memory.wf backing = true) (hs : Memory.wf t.scratch = true)
    (hp : t.filled.getLsbD p = false) (x : Nat) :
    Mem.read (t.fillPage backing p).scratch x = if 0x10000 + 4096 * p ≤ x ∧ x < 0x11000 + 4096 * p then
      Mem.read backing (t.backing + x) else Mem.read t.scratch x := by
  have hlo : ∀ c ∈ t.scratch.filter (fun c => decide (c.1 < 0x10000 + 4096 * p)), c.1 < 0x10000 + 4096 * p := fun c hc => by
    simpa using (List.mem_filter.1 hc).2
  have hhi : ∀ c ∈ t.scratch.filter (fun c => decide (0x10000 + 4096 * p + 4096 ≤ c.1)), 0x10000 + 4096 * p + 4096 ≤ c.1 := fun c hc => by
    simpa using (List.mem_filter.1 hc).2
  have hin : ∀ c ∈ backing.filter (fun c => decide (t.backing + (0x10000 + 4096 * p) ≤ c.1 ∧
      c.1 < t.backing + (0x10000 + 4096 * p) + 4096)), t.backing + (0x10000 + 4096 * p) ≤ c.1 ∧ c.1 < t.backing + (0x10000 + 4096 * p) + 4096 :=
    fun c hc => by simpa using (List.mem_filter.1 hc).2
  simp only [Task.fillPage, hp, Bool.false_eq_true, if_false]
  rw [read_append (b := 0x10000 + 4096 * p + 4096), read_append (b := 0x10000 + 4096 * p) hlo, read_map_sub,
    read_filter hs (fun k => decide (k < 0x10000 + 4096 * p)), read_filter hs (fun k => decide (0x10000 + 4096 * p + 4096 ≤ k)),
    read_filter hb (fun k => decide (t.backing + (0x10000 + 4096 * p) ≤ k ∧ k < t.backing + (0x10000 + 4096 * p) + 4096))]
  · simp only [decide_eq_true_eq]
    grind
  · exact fun c hc => (Nat.le_add_right _ _).trans (hin c hc).1
  · intro c hc
    obtain ⟨c', hc', rfl⟩ := List.mem_map.1 hc
    have := hin c' hc'
    dsimp only
    omega
  · intro c hc
    rcases List.mem_append.1 hc with hc | hc
    · exact (hlo c hc).trans (by omega)
    · obtain ⟨c', hc', rfl⟩ := List.mem_map.1 hc
      have := hin c' hc'
      dsimp only
      omega
  · exact hhi

theorem filled_fillPage {backing : Mem} {t : Task} {p : Nat} (hp : t.filled.getLsbD p = false) (q : Nat) (hq : q < 32) :
    (t.fillPage backing p).filled.getLsbD q = (t.filled.getLsbD q || q == p) := by
  have h1 : (1#32 <<< p).getLsbD q = (q == p) := by
    rw [Bool.eq_iff_iff]
    simp [hq]
    omega
  simp only [Task.fillPage, hp, Bool.false_eq_true, if_false, BitVec.getLsbD_or]
  exact congrArg _ h1

/-- A fill changes the scratchpad and the pages noted as filled alone. -/
theorem fillPage_frame (backing : Mem) (t : Task) (p : Nat) :
    t.fillPage backing p = { t with filled := (t.fillPage backing p).filled, scratch := (t.fillPage backing p).scratch } := by
  unfold Task.fillPage
  split <;> rfl

end Sys2Proof.Machine
end

section
namespace Sys2Proof.Machine

/-! ## A staged task enters its slot, and a task leaves its slot (R43, R44, R425, R447) -/

theorem find?_of_head {t : Task} {l : List Task} {p : Task → Bool} (h : p t = true) : (t :: l).find? p = some t := by
  simp [h]

/-- A task that stands in a slot acts itself. -/
theorem tasks_of_coreOf {s : State} {core : Nat} (h : s.cur.status = .staged core ∨ s.cur.status = .running core) :
    s.tasks = s.cur :: s.others := by
  unfold State.tasks
  rcases h with h | h <;> simp [h]

theorem focus_self {s : State} (h : s.cur.status ≠ .idle) : s.focus s.cur.tid = s := if_pos ⟨h, rfl⟩

theorem ans_heldLinks_nil {s : State} (n : Nat) (h : s.cur.queue .lnk = []) : ans (heldLinks n) s = (.ok ⟨⟩, s) := by
  cases n with
  | zero => rfl
  | succ n =>
    unfold heldLinks
    rw [ans_bind_ok (ans_theTask s), h]
    rfl

/-- The staged task of a core whose running slot is empty enters it. -/
theorem exec_stagedToRunning {s : State} {core : Nat} (hst : s.cur.status = .staged core) (hrun : s.runningOn core = none)
    (hlnk : s.cur.queue .lnk = []) (hspill : s.cur.flow.stop.bind StopRec.spill = none) :
    exec (.stagedToRunning core) s = .next { s with cur := s.cur.entering core s.now (s.timeOf s.cur.pool.ctx) } := by
  have hstaged : s.stagedOn core = some s.cur := by
    rw [State.stagedOn, tasks_of_coreOf (.inl hst)]
    exact find?_of_head (by simp [hst])
  have hf : s.focus s.cur.tid = s := focus_self (by simp [hst])
  have hrel : s.reload s.cur = (s, s.cur) := by
    unfold State.reload
    rw [hspill]
  show execStagedToRunning core s = _
  unfold execStagedToRunning
  rw [hrun, hstaged]
  dsimp only
  rw [hf]
  refine runM_ok ?_
  rw [ans_bind_ok (ans_modify _ s), hrel]
  exact ans_heldLinks_nil _ hlnk

theorem exec_preemptionCut {s : State} {core tid : Nat} (hr : s.cur.status = .running core) (hp : s.cur.flow.preempt = some tid)
    (hh : s.cur.flow.halt = none) :
    exec .preemptionCut s = if s.cur.atPoint = true ∧ s.cur.queuesAtPoint = true then
      .next { s.suspend (s.cur.stopRec (s.timeOf s.cur.pool.ctx) 1) with
        cur := (s.suspend (s.cur.stopRec (s.timeOf s.cur.pool.ctx) 1)).cur.readied (s.suspend (s.cur.stopRec (s.timeOf s.cur.pool.ctx) 1)).now }
      else .next s := by
  have hrun := isRunning_of_status hr
  show execPreemptionCut s = _
  simp only [execPreemptionCut, hrun, hh, hp, atCut_of_running hrun, Bool.not_true, Bool.false_eq_true, if_false, Option.isSome_some,
    Bool.true_and, Bool.and_eq_true]

/-- A debug stop that waits for a running task's points happens once it stands at them. -/
theorem exec_preemptionCut_halt {s : State} {core : Nat} {h : StopRec} (hr : s.cur.status = .running core) (hh : s.cur.flow.halt = some h)
    (h6 : h.reason ≠ 6) : exec .preemptionCut s = .next { (s.stopFor s.cur h).1 with cur := (s.stopFor s.cur h).2 } := by
  have hrun := isRunning_of_status hr
  show execPreemptionCut s = _
  simp only [execPreemptionCut, hrun, hh, Bool.not_true, Bool.false_eq_true, if_false, h6]

theorem tasksEnterAndLeaveTheirSlot : TasksEnterAndLeaveTheirSlot := by
  refine ⟨fun s core hst hrun hlnk hspill => ?_, fun s core tid hr hp hh => ⟨fun ha hq => ?_, fun hno => ?_⟩,
    fun s core h hr hh h6 ha hq => ?_⟩
  · exact ⟨_, exec_stagedToRunning hst hrun hlnk hspill, rfl, rfl, rfl, rfl, rfl, rfl, rfl⟩
  · rw [exec_preemptionCut hr hp hh, if_pos ⟨ha, hq⟩]
    exact ⟨_, _, rfl, rfl, congrArg some (suspend_now ..), cutRegs_givesBack _, rfl, rfl, rfl, rfl, rfl, rfl⟩
  · rw [exec_preemptionCut hr hp hh, if_neg]
    rintro ⟨ha, hq⟩
    rcases hno with h | h
    · simp [ha] at h
    · simp [hq] at h
  · rw [exec_preemptionCut_halt hr hh h6, stopFor_atCut hr (by simp [Task.aborting, hh, h6])
      (by rw [atCut_of_running (isRunning_of_status hr), ha, hq]; rfl)]
    exact ⟨_, _, rfl, rfl, cutRegs_givesBack _, rfl, rfl, rfl, rfl, rfl, rfl, rfl, rfl, rfl, rfl⟩

/-! ## Fills, steps and held events (R353, R449, R458) -/

/-- A task for which a debug stop is to come. -/
def Task.haltingFor (t : Task) (c : StopRec) : Task := { t with flow := { t.flow with halt := some c } }

/-- The stop record of a debug stop. -/
def Task.debugRec (t : Task) (time dcause dindex : Nat) (dcode : Byte) (dslot : Word) (brk : BitVec 12) : StopRec :=
  { t.stopRec time 4 with dcause, dindex, dcode, dslot, brk }

/-- A debug stop of the acting task's own breakpoint, `brk` or STEP, with its units at their points: it is suspended with the stop's
cause, and its context is halted (R447). -/
theorem debugStop_stops {s : State} {core dcause dindex : Nat} {dcode : Byte} {dslot : Word} {brk : BitVec 12} {c : Ctx}
    (hr : s.cur.status = .running core) (ha : s.cur.aborting = false) (hd : dcause = 1 ∨ dcause = 2 ∨ dcause = 4)
    (hq : s.cur.queuesAtPoint = true) (hc : s.ctx? s.cur.pool.ctx = some c) :
    (s.debugStop dcause dindex dcode dslot brk).cur.scratchless =
      (s.cur.stopped (s.cur.debugRec (s.timeOf s.cur.pool.ctx) dcause dindex dcode dslot brk)).scratchless ∧
    ((s.debugStop dcause dindex dcode dslot brk).ctx? s.cur.pool.ctx).map (·.halted) = some true := by
  let h : StopRec := { reason := 4, dcause, dindex, dcode, dslot, brk }
  have hcut : (s.cur.haltingFor h).atCut = true := by
    have hp : (s.cur.haltingFor h).atPoint = true := by
      have : (s.cur.haltingFor h).frozen = true := by
        show (h.reason == 6 || h.dcause == 1 || h.dcause == 2 || h.dcause == 4) = true
        rcases hd with hd | hd | hd <;> simp [h, hd]
      simp [Task.atPoint, this]
    rw [atCut_of_running (t := s.cur.haltingFor h) (isRunning_of_status hr), hp]
    exact hq
  have hs : (s.stopFor (s.cur.haltingFor h) { dcause, dindex, dcode, dslot, brk }).2 =
      s.cur.stopped (s.cur.debugRec (s.timeOf s.cur.pool.ctx) dcause dindex dcode dslot brk) :=
    stopFor_atCut (t := s.cur.haltingFor h) hr rfl hcut
  have hf := stopFor_savedOnly s (s.cur.haltingFor h) { dcause, dindex, dcode, dslot, brk }
  unfold State.debugStop
  rw [ha, if_neg (by simp)]
  show (State.haltOthers _ s.cur.pool.ctx 5).cur.scratchless = _ ∧ ((State.haltOthers _ s.cur.pool.ctx 5).ctx? s.cur.pool.ctx).map _ = _
  rw [← hs]
  obtain ⟨d, hd, -⟩ := Option.map_eq_some_iff.1 ((hf.ctx? s.cur.pool.ctx).trans (congrArg _ hc))
  exact haltOthers_frame _ s.cur.pool.ctx 5 (c := d) hd

/-- The same with a unit that is not at its point: the stop is to come, and the context is halted. -/
theorem debugStop_comes {s : State} {core dcause dindex : Nat} {dcode : Byte} {dslot : Word} {brk : BitVec 12} {c : Ctx}
    (hr : s.cur.status = .running core) (ha : s.cur.aborting = false) (hq : s.cur.queuesAtPoint = false)
    (hc : s.ctx? s.cur.pool.ctx = some c) :
    (s.debugStop dcause dindex dcode dslot brk).cur.scratchless =
      (s.cur.haltingFor { reason := 4, dcause, dindex, dcode, dslot, brk }).scratchless ∧
    ((s.debugStop dcause dindex dcode dslot brk).ctx? s.cur.pool.ctx).map (·.halted) = some true := by
  let h : StopRec := { reason := 4, dcause, dindex, dcode, dslot, brk }
  have hcut : (s.cur.haltingFor h).atCut = false := by
    have hq' : (s.cur.haltingFor h).queuesAtPoint = false := hq
    rw [atCut_of_running (t := s.cur.haltingFor h) (isRunning_of_status hr), hq', Bool.and_false]
  have hs : s.stopFor (s.cur.haltingFor h) { dcause, dindex, dcode, dslot, brk } = (s, s.cur.haltingFor h) :=
    stopFor_coming (t := s.cur.haltingFor h) (h := h) hr rfl hcut rfl
  unfold State.debugStop
  rw [ha, if_neg (by simp)]
  show (State.haltOthers _ s.cur.pool.ctx 5).cur.scratchless = _ ∧ ((State.haltOthers _ s.cur.pool.ctx 5).ctx? s.cur.pool.ctx).map _ = _
  have hs' : s.stopFor { s.cur with flow := { s.cur.flow with halt := some h } } { dcause, dindex, dcode, dslot, brk } =
    (s, s.cur.haltingFor h) := hs
  rw [hs']
  exact haltOthers_frame { s with cur := s.cur.haltingFor h } s.cur.pool.ctx 5 hc

theorem exec_scratchpadPageFill {s : State} {core : Nat} {p : BitVec 5} (hr : s.cur.status = .running core) (hp : p.toNat < s.cur.pool.spp) :
    exec (.scratchpadPageFill p) s = .next { s with cur := s.cur.fillPage s.backing p.toNat } := by
  show execScratchpadPageFill p s = _
  simp [execScratchpadPageFill, coreOf_of_running hr, hp]

theorem exec_stepEnd {s : State} (hr : s.cur.isRunning = true) (h1 : s.cur.flow.stepping = true) (h2 : s.cur.flow.stepDone = true) :
    exec .stepEnd s = .next (s.debugStop 4 0 0 0 0) := by
  show execStepEnd s = _
  simp [execStepEnd, hr, h1, h2]

theorem fillsStepsAndHeldEvents : FillsStepsAndHeldEvents := by
  refine ⟨fun s core p hr hp => ?_, fun s core c hr h1 h2 hc hq ha => ?_, fun s k => ?_⟩
  · rw [exec_scratchpadPageFill hr hp]
    refine ⟨fun hf => ?_, fun hf hm => ?_⟩
    · have : s.cur.fillPage s.backing p.toNat = s.cur := by simp [Task.fillPage, hf]
      rw [this]
    · obtain ⟨-, -, -, -, hb, hs, -⟩ := hm
      refine ⟨_, _, ?_, fun q hq => filled_fillPage (backing := s.backing) hf q hq, fun x => read_fillPage hb hs hf x⟩
      exact congrArg (fun t => Host.Outcome.next { s with cur := t }) (fillPage_frame s.backing s.cur p.toNat)
  · obtain ⟨ht, hh⟩ := debugStop_stops (dindex := 0) (dcode := 0) (dslot := 0) (brk := 0) hr ha (.inr (.inr rfl)) hq hc
    rw [exec_stepEnd (isRunning_of_status hr) h1 h2]
    refine ⟨_, _, rfl, congrArg (·.status) ht, ?_, congrArg (·.flow.stop) ht, rfl, rfl, rfl, hh⟩
    exact (congrArg (·.regs) ht : _ = s.cur.cutRegs) ▸ cutRegs_givesBack s.cur
  · refine ⟨s.cur.held.filter fun x => x.1 != k || s.turnOf s.cur.pool.ctx x.2 == .hold, rfl, fun x => ?_⟩
    simp [List.mem_filter]

/-- Settles O16: slots are entered and left at cuts, and pages, steps and held events are as they are said to be. -/
theorem slotsAreEnteredLeftAndStepped : Obligations.SlotsAreEnteredLeftAndStepped :=
  ⟨tasksEnterAndLeaveTheirSlot, fillsStepsAndHeldEvents⟩

end Sys2Proof.Machine
end

section
namespace Sys2Proof.Machine

/-! ## Breaks (R120) -/

theorem ans_theCtx {s : State} {c : Ctx} (h : s.ctx? s.cur.pool.ctx = some c) : ans theCtx s = (.ok c, s) := by
  unfold theCtx
  rw [ans_bind_ok (ans_get s), h]
  rfl

/-- An instruction of a drained task that faults at its handling. -/
theorem ans_raiseAt_drained {α : Type} {s : State} (h : s.Drained) (k : Stream) (code : Byte) (va : Word) :
    ans (raiseAt k code va : M α) s = (.error (.fault { code, stream := k, seq := s.cur.num k, va } false), s) := by
  rw [ans_raiseAt, Task.drained_of h, if_pos rfl]

theorem exec_brk_attached {s : State} {c : Ctx} (code : BitVec 12) (hc : s.ctx? s.cur.pool.ctx = some c) (ha : c.attached = true) :
    exec (.brk code) s = .next ((s.past 1).debugStop 2 0 fcBreak 0 code) := by
  show execBrk code s = _
  unfold execBrk
  refine runM_ok ?_
  rw [ans_bind_ok (ans_portCheck .seq rfl s), ans_bind_ok (ans_theCtx hc), ha, if_pos rfl, ans_bind_ok (ans_handled 1 s)]
  rfl

theorem exec_brk_detached {s : State} {c : Ctx} (code : BitVec 12) (hc : s.ctx? s.cur.pool.ctx = some c) (ha : c.attached = false)
    (hd : s.Drained) :
    exec (.brk code) s = .next (takeFault { code := fcBreak, stream := .seq, seq := s.cur.num .seq, va := 0 } s) := by
  show execBrk code s = _
  unfold execBrk
  refine runM_fault (keep := false) (s' := s) ?_
  rw [ans_bind_ok (ans_portCheck .seq rfl s), ans_bind_ok (ans_theCtx hc), ha, if_neg (by simp), ans_raiseAt_drained hd]

theorem num_bump (t : Task) (k : Stream) : (t.bump k).num k = t.num k + 1 := by
  exact Vector.getElem_set_self ..

@[simp] theorem after_halt (f : Flow) (n : Nat) : (f.after n).halt = f.halt := by
  unfold Flow.after
  dsimp only
  split <;> rfl

theorem past_aborting (s : State) (n : Nat) : (s.past n).cur.aborting = s.cur.aborting := by
  unfold Task.aborting
  exact congrArg (Option.any _) (after_halt s.cur.flow n)

theorem past_queuesAtPoint (s : State) (n : Nat) : (s.past n).cur.queuesAtPoint = s.cur.queuesAtPoint := rfl

theorem cutAt_seq {t : Task} (h : t.queue .seq = []) : t.cutAt .seq = t.num .seq := by
  simp [Task.cutAt, h]

theorem brkStopsOrRaisesBreak : BrkStopsOrRaisesBreak := by
  refine ⟨fun s core c code hc ha hr hq hab => ⟨fun hp => ?_, fun hp => ?_⟩, fun s c code hc ha hd => ?_⟩
  · obtain ⟨ht, hh⟩ := debugStop_stops (s := s.past 1) (dcause := 2) (dindex := 0) (dcode := fcBreak) (dslot := 0) (brk := code)
      hr ((past_aborting s 1).trans hab) (.inr (.inl rfl)) hp hc
    rw [exec_brk_attached code hc ha]
    refine ⟨_, _, rfl, congrArg (·.status) ht, ?_, congrArg (·.flow.stop) ht, rfl, rfl, rfl, rfl, ?_, hh⟩
    · exact (congrArg (·.regs) ht : _ = s.cur.cutRegs) ▸ cutRegs_givesBack s.cur
    · have hq' : (s.past 1).cur.queue .seq = [] := hq
      exact congrArg some ((cutAt_seq hq').trans (num_bump s.cur .seq))
  · obtain ⟨ht, hh⟩ := debugStop_comes (s := s.past 1) (dcause := 2) (dindex := 0) (dcode := fcBreak) (dslot := 0) (brk := code)
      hr ((past_aborting s 1).trans hab) hp hc
    rw [exec_brk_attached code hc ha]
    exact ⟨_, _, rfl, (congrArg (·.status) ht).trans hr, (congrArg (·.num .seq) ht).trans (num_bump s.cur .seq), congrArg (·.regs) ht,
      congrArg (·.flow.halt) ht, rfl, rfl, rfl, hh⟩
  · exact ⟨_, rfl, rfl, rfl, exec_brk_detached code hc ha hd⟩

/-! ## Resume (R121, R430) -/

theorem exec_resume_unprivileged {s : State} {c : Ctx} (a : SReg) (hc : s.ctx? s.cur.pool.ctx = some c) (hp : c.privileged = false)
    (hd : s.Drained) :
    exec (.resume a) s = .next (takeFault { code := fcPriv, stream := .seq, seq := s.cur.num .seq, va := s.cur.nextPc } s) := by
  show execResume a s = _
  unfold execResume
  refine runM_fault (keep := false) (s' := s) ?_
  rw [ans_bind_ok (ans_theCtx hc)]
  dsimp only
  rw [hp, if_pos (by rfl), ans_bind_ok (ans_laneVa s), ans_bind_error (ans_raiseAt_drained hd ..)]

theorem exec_resume {s s1 : State} {c : Ctx} {a : SReg} {va leaf : Word} {pa : Nat} (hc : s.ctx? s.cur.pool.ctx = some c)
    (hp : c.privileged = true) (hb : (Instr.resume a).portBad = false) (ht : s.take a = some (va, s1))
    (hl : s.lookup s.cur.pool.ctx va = .ok (leaf, pa)) :
    exec (.resume a) s = .next (match (s1.past 1).stoppedAt leaf va with
      | none => s1.past 1
      | some u => (s1.past 1).setTask (u.readied s.now)) := by
  obtain ⟨f, rfl⟩ := take_frame ht
  have hl' : ((s.withRegs f).past 1).lookup ((s.withRegs f).past 1).cur.pool.ctx va = .ok (leaf, pa) := hl
  show execResume a s = _
  unfold execResume
  refine runM_ok ?_
  rw [ans_bind_ok (ans_theCtx hc)]
  dsimp only
  rw [hp, if_neg (by simp), ans_bind_ok (ans_portCheck .seq hb s), ans_bind_ok (ans_readS ht), ans_bind_ok (ans_theTask _),
    ans_bind_ok (ans_handled 1 _), ans_bind_ok (ans_get _)]
  simp only [hl']
  cases ((s.withRegs f).past 1).stoppedAt leaf va <;> rfl

/-- The stopped task at a place, among the others of a running task. -/
theorem stoppedAt_eq {s : State} {core : Nat} {leaf va : Word} (hr : s.cur.status = .running core) :
    s.stoppedAt leaf va = s.others.find? fun u =>
      u.status == .suspended && u.flow.service.isNone && placeOf leaf va 0 == (.hbm, u.backing) := by
  unfold State.stoppedAt
  rw [tasks_of_coreOf (.inr hr), List.find?_cons_of_neg]
  simp [hr]

theorem find?_eq_some_of_unique {α : Type} {p : α → Bool} {l : List α} {u : α} (hu : u ∈ l) (hp : p u = true)
    (h : ∀ x ∈ l, p x = true → x = u) : l.find? p = some u := by
  obtain ⟨x, hx⟩ := Option.isSome_iff_exists.1 (List.find?_isSome.2 ⟨u, hu, hp⟩)
  rw [hx, h x (List.mem_of_find?_eq_some hx) (List.find?_some hx)]

/-- A task other than the acting one is put where it stands. -/
theorem setTask_others {s : State} {t : Task} (h : t.tid ≠ s.cur.tid) :
    s.setTask t = { s with others := s.others.map fun u => if u.tid = t.tid then t else u } :=
  if_neg fun hc => h hc.2.symm

theorem setTask_cur {s : State} {t : Task} (h : t.tid ≠ s.cur.tid) : (s.setTask t).cur = s.cur := by
  rw [setTask_others h]

theorem mem_others_setTask {s : State} {u t : Task} (hu : u ∈ s.others) (hid : t.tid = u.tid) (h : t.tid ≠ s.cur.tid) :
    t ∈ (s.setTask t).others := by
  rw [setTask_others h]
  exact List.mem_map.2 ⟨u, hu, if_pos hid.symm⟩

theorem resumeIsPrivileged : ResumeIsPrivileged := by
  refine ⟨fun s c a hc hp hd => exec_resume_unprivileged a hc hp hd, fun s s1 c a va leaf pa core hc hp hb ht hr hl =>
    ⟨fun u hu hst hsv hpl huniq hid => ?_, fun hnone => ?_⟩⟩
  · obtain ⟨f, rfl⟩ := take_frame ht
    have hfind : ((s.withRegs f).past 1).stoppedAt leaf va = some u := by
      rw [stoppedAt_eq (s := (s.withRegs f).past 1) (core := core) hr]
      refine find?_eq_some_of_unique hu (by simp [hst, hsv, hpl]) fun x hx hpx => ?_
      simp only [Bool.and_eq_true, beq_iff_eq, Option.isNone_iff_eq_none] at hpx
      obtain ⟨⟨h1, h2⟩, h3⟩ := hpx
      exact huniq x hx h1 h2 (Prod.mk.inj (h3.symm.trans hpl)).2
    rw [exec_resume hc hp hb ht hl, hfind]
    have hid' : (u.readied s.now).tid ≠ ((s.withRegs f).past 1).cur.tid := hid
    refine ⟨_, u.readied s.now, rfl, ?_, mem_others_setTask hu rfl hid', rfl, rfl, rfl, rfl, rfl, rfl, rfl, rfl, rfl, rfl, rfl⟩
    exact setTask_cur hid'
  · obtain ⟨f, rfl⟩ := take_frame ht
    have hfind : ((s.withRegs f).past 1).stoppedAt leaf va = none := by
      rw [stoppedAt_eq (s := (s.withRegs f).past 1) (core := core) hr, List.find?_eq_none]
      intro x hx hpx
      simp only [Bool.and_eq_true, beq_iff_eq, Option.isNone_iff_eq_none] at hpx
      exact hnone x hx hpx.1.1 hpx.1.2 hpx.2
    rw [exec_resume hc hp hb ht hl, hfind]

/-! ## Yield (R53, R107) -/

/-- No task of the die is Ready: none takes a yielding task's core. -/
theorem yieldTo_none {s : State} {core c : Nat} {t : Task} (hr : s.cur.status = .running core)
    (hn : ∀ u ∈ s.others, u.pool.die = t.pool.die → u.status ≠ .ready) : s.yieldTo t c = none := by
  have hl : (s.tasks.filter fun u => u.pool.die == t.pool.die && s.eligible u) = [] := by
    rw [tasks_of_coreOf (.inr hr)]
    refine List.filter_eq_nil_iff.2 fun u hu => ?_
    simp only [State.eligible, Task.isReady, Bool.and_eq_true, beq_iff_eq, not_and]
    rcases List.mem_cons.1 hu with rfl | hu
    · exact fun _ h => absurd h (by simp [hr])
    · exact fun hd h => absurd h (hn u hu hd)
  unfold State.yieldTo State.readyOrder
  rw [hl]
  rfl

theorem ans_yield_alone {s : State} {core : Nat} (hr : s.cur.status = .running core)
    (hn : ∀ u ∈ s.others, u.pool.die = s.cur.pool.die → u.status ≠ .ready) : exec .yield s = .next (s.past 1) := by
  have hy : (s.past 1).yieldTo (s.past 1).cur ((s.past 1).cur.coreOf.getD 0) = none := yieldTo_none (core := core) hr hn
  show execYield s = _
  unfold execYield
  refine runM_ok ?_
  rw [ans_bind_ok (ans_portCheck .seq rfl s), ans_bind_ok (ans_handled 1 s), ans_bind_ok (ans_get _)]
  dsimp only
  rw [hy]
  rfl

/-- The state in which a yielding task has stopped at its cut and is Ready. -/
def State.yielded (s : State) : State :=
  let u := s.suspend (s.cur.stopRec (s.timeOf s.cur.pool.ctx) 2)
  { u with cur := { u.cur with status := .ready } }

theorem exec_yield {s : State} {core : Nat} {u : Task} (hr : s.cur.status = .running core)
    (hy : (s.past 1).yieldTo (s.past 1).cur core = some u) :
    exec .yield s = .next (if s.cur.queuesAtPoint then (s.past 1).yielded.place u core else s) := by
  have hc : (s.past 1).cur.coreOf.getD 0 = core := by
    rw [coreOf_of_running (t := (s.past 1).cur) hr]
    rfl
  show execYield s = _
  cases hq : s.cur.queuesAtPoint
  · refine runM_stall (s' := s.past 1) ?_
    rw [ans_bind_ok (ans_portCheck .seq rfl s), ans_bind_ok (ans_handled 1 s), ans_bind_ok (ans_get _)]
    dsimp only
    rw [hc, hy]
    dsimp only
    rw [past_queuesAtPoint, hq]
    rfl
  · refine runM_ok ?_
    rw [ans_bind_ok (ans_portCheck .seq rfl s), ans_bind_ok (ans_handled 1 s), ans_bind_ok (ans_get _)]
    dsimp only
    rw [hc, hy]
    dsimp only
    rw [past_queuesAtPoint, hq]
    rfl

/-! ### Placing an entry (R323, R354) -/

/-- A task without what the reclaiming of its frames changes. -/
def Task.frameless (t : Task) : Task := { t with filled := 0, written := 0 }

theorem reclaimFrom_eq (s : State) (t : Task) (pages : List Nat) : ∃ m u, u.frameless = t.frameless ∧
    s.reclaimFrom t pages = State.setTask { s with backing := m } u := by
  unfold State.reclaimFrom
  generalize pages.foldl (fun f p => f &&& ~~~((1 : BitVec 32) <<< p)) t.filled = f
  generalize pages.foldl (fun f p => f &&& ~~~((1 : BitVec 32) <<< p)) t.written = w
  exact ⟨t.writeBack pages s.backing, { t with filled := f, written := w }, rfl, rfl⟩

/-- What a task without its frames keeps of its handle. -/
theorem tid_of_frameless {t u : Task} (h : u.frameless = t.frameless) : u.tid = t.tid := by
  show u.frameless.tid = t.frameless.tid
  rw [h]

/-- Reclaiming frames from tasks leaves the acting task as it is but for its frames, and others that it does not name as they are. -/
theorem reclaim_frame {cur : Task} {v : Task} (hi : cur.status ≠ .idle) : ∀ (l : List Task) (n : Nat) (s : State),
    s.cur.frameless = cur.frameless → v ∈ s.others → (∀ t ∈ l, t.tid ≠ v.tid ∧ (t.tid = cur.tid → t = cur)) →
    (s.reclaim n l).cur.frameless = cur.frameless ∧ v ∈ (s.reclaim n l).others
  | [], n, s, hc, hv, _ => by
    cases n <;> exact ⟨hc, hv⟩
  | t :: l, n, s, hc, hv, hl => by
    obtain ⟨hne, heq⟩ := hl t List.mem_cons_self
    obtain ⟨m, u, hu, hr⟩ := reclaimFrom_eq s t (t.framePages.take n)
    unfold State.reclaim
    dsimp only
    rw [hr]
    refine reclaim_frame hi l _ _ ?_ ?_ fun x hx => hl x (List.mem_cons_of_mem _ hx)
    · unfold State.setTask
      split
      · rename_i h
        have ht : t.tid = cur.tid := (tid_of_frameless hu).symm.trans (h.2.symm.trans (tid_of_frameless hc))
        exact hu.trans (congrArg _ (heq ht))
      · exact hc
    · unfold State.setTask
      split
      · exact hv
      · refine List.mem_map.2 ⟨v, hv, if_neg ?_⟩
        rw [tid_of_frameless hu]
        exact hne.symm

theorem toCore_tid (u : Task) (core : Nat) : (u.toCore core).tid = u.tid := by
  unfold Task.toCore
  split <;> rfl

theorem toCore_coreOf (u : Task) (core : Nat) : (u.toCore core).coreOf = some core := by
  unfold Task.toCore
  split <;> rfl

/-- An entry is put into a staged slot, and frames of the tasks that rest on its core are reclaimed: the acting task stays as it is but for
its frames. -/
theorem staged_reclaim_frame {s : State} {u : Task} {core n : Nat} (hi : s.cur.status ≠ .idle) (hu : u ∈ s.others)
    (hapart : ∀ x ∈ s.others, x.tid ≠ s.cur.tid) :
    ((s.setTask (u.toCore core)).reclaim n ((s.setTask (u.toCore core)).tasks.filter (Task.restsOn · core))).cur.frameless =
      s.cur.frameless ∧
    u.toCore core ∈ ((s.setTask (u.toCore core)).reclaim n ((s.setTask (u.toCore core)).tasks.filter (Task.restsOn · core))).others := by
  have hid : (u.toCore core).tid ≠ s.cur.tid := (toCore_tid u core).trans_ne (hapart u hu)
  have hc := setTask_cur hid
  have ho : (s.setTask (u.toCore core)).others = s.others.map _ := congrArg State.others (setTask_others hid)
  have hv := mem_others_setTask hu (toCore_tid u core) hid
  generalize s.setTask (u.toCore core) = s2 at hc ho hv
  refine reclaim_frame hi _ _ _ (congrArg _ hc) hv fun t ht => ?_
  obtain ⟨hmem, hrest⟩ := List.mem_filter.1 ht
  rw [State.tasks, hc, if_neg hi, ho] at hmem
  rcases List.mem_cons.1 hmem with rfl | hmem
  · exact ⟨hid.symm, fun _ => rfl⟩
  · obtain ⟨x, hx, rfl⟩ := List.mem_map.1 hmem
    split at hrest
    · simp [Task.restsOn, toCore_coreOf] at hrest
    · rename_i hne
      rw [if_neg hne]
      exact ⟨hne, fun h => absurd h (hapart x hx)⟩

/-- An entry is staged on its core, and the acting task stays as it is but for its frames. -/
theorem place_frame {s : State} {u : Task} {core : Nat} (hi : s.cur.status ≠ .idle) (hu : u ∈ s.others)
    (hapart : ∀ x ∈ s.others, x.tid ≠ s.cur.tid) :
    (s.place u core).cur.frameless = s.cur.frameless ∧ u.toCore core ∈ (s.place u core).others := by
  unfold State.place
  by_cases h : u.home = some core
  · rw [if_pos h]
    exact staged_reclaim_frame hi hu hapart
  · rw [if_neg h]
    exact staged_reclaim_frame (s := { s with backing := u.writeBack u.framePages s.backing }) hi hu hapart

/-- The yielding task as it stands at its cut, Ready. -/
theorem yielded_cur (s : State) : s.yielded.cur =
    { s.cur.stopped (s.cur.stopRec (s.timeOf s.cur.pool.ctx) 2) with status := .ready } := rfl

theorem yielded_others (s : State) : s.yielded.others = s.others := by
  unfold State.yielded
  dsimp only
  rw [suspend_others]

theorem yielded_tid (s : State) : s.yielded.cur.tid = s.cur.tid := rfl

theorem yieldHandsOverToAnEqual : YieldHandsOverToAnEqual := by
  refine ⟨fun s core hr hn => ans_yield_alone hr hn, fun s core u hr hy hu hapart => ⟨fun hq => ?_, fun hq => ?_⟩⟩
  · rw [exec_yield hr hy, hq]
    rfl
  · have hoth : (s.past 1).yielded.others = s.others := yielded_others _
    have htid : (s.past 1).yielded.cur.tid = s.cur.tid := yielded_tid _
    obtain ⟨hf, hv⟩ := place_frame (s := (s.past 1).yielded) (u := u) (core := core) (by rw [yielded_cur]; simp) (by rwa [hoth])
      (by rw [hoth, htid]; exact fun x hx => (hapart x hx).1)
    rw [exec_yield hr hy, hq, if_pos rfl]
    refine ⟨_, _, rfl, congrArg (·.status) hf, ?_, congrArg (·.flow.line) hf, congrArg (·.flow.lane) hf, hv, ?_, ?_, ?_⟩
    · exact (congrArg (·.regs) hf : _ = s.cur.cutRegs) ▸ cutRegs_givesBack s.cur
    all_goals
      unfold Task.toCore
      split <;> rfl

/-- Settles O10: `brk`, `resume` and `yield` each by the one operation that it is. -/
theorem tasksBreakResumeAndYield : Obligations.TasksBreakResumeAndYield :=
  ⟨brkStopsOrRaisesBreak, resumeIsPrivileged, yieldHandsOverToAnEqual⟩

end Sys2Proof.Machine
end

section
namespace Sys2Proof.Machine

/-! ## Numbers in bytes and in memory (R4) -/

theorem length_leBytes : ∀ n x : Nat, (leBytes n x).length = n
  | 0, _ => rfl
  | n + 1, _ => congrArg (· + 1) (length_leBytes n _)

theorem leNat_leBytes : ∀ n x : Nat, leNat (leBytes n x) = x % 256 ^ n
  | 0, x => by simp [leBytes, leNat, Nat.mod_one]
  | n + 1, x => by
    rw [leBytes, leNat, leNat_leBytes n, BitVec.toNat_ofNat, pow_succ' 256 n, Nat.mod_mul]

theorem leNat_lt_pow : ∀ l : List Byte, leNat l < 256 ^ l.length
  | [] => by simp [leNat]
  | b :: r => by
    have h := leNat_lt_pow r
    have hb := b.isLt
    rw [leNat, List.length_cons, pow_succ]
    omega

@[simp] theorem length_readN (m : Mem) (a n : Nat) : (Mem.readN m a n).length = n := by simp [Mem.readN]

theorem num_lt (m : Mem) (a n : Nat) : Mem.num m a n < 256 ^ n := by
  simpa [Mem.num] using leNat_lt_pow (Mem.readN m a n)

/-- A number of eight bytes is a word. -/
theorem toNat_ofNat_num (m : Mem) (a : Nat) : (BitVec.ofNat 64 (Mem.num m a 8)).toNat = Mem.num m a 8 := by
  rw [BitVec.toNat_ofNat]
  exact Nat.mod_eq_of_lt ((num_lt m a 8).trans_le (by norm_num))

theorem getD_readN (m : Mem) (a n i : Nat) (d : Byte) (h : i < n) : (Mem.readN m a n).getD i d = Mem.read m (a + i) := by
  simp [Mem.readN, List.getD, h]

theorem readN_congr {m m' : Mem} {a a' n : Nat} (h : ∀ i < n, Mem.read m (a + i) = Mem.read m' (a' + i)) :
    Mem.readN m a n = Mem.readN m' a' n :=
  List.map_congr_left fun i hi => h i (List.mem_range.1 hi)

theorem num_congr {m m' : Mem} {a n : Nat} (h : ∀ j, a ≤ j → j < a + n → Mem.read m j = Mem.read m' j) :
    Mem.num m a n = Mem.num m' a n :=
  congrArg leNat (readN_congr fun i hi => h (a + i) (by omega) (by omega))

theorem readN_eq_of_getD {m : Mem} {a : Nat} {bs : List Byte} (h : ∀ i < bs.length, Mem.read m (a + i) = bs.getD i 0) :
    Mem.readN m a bs.length = bs := by
  refine List.ext_getElem (by simp) fun i hi hi' => ?_
  have := h i hi'
  simpa [Mem.readN, List.getD, hi'] using this

/-- Bytes that were just written read back. -/
theorem readN_writeN_self {m : Mem} (hm : Memory.wf m = true) (a : Nat) (bs : List Byte) :
    Mem.readN (Mem.writeN m a bs) a bs.length = bs :=
  readN_eq_of_getD fun i hi => by rw [read_writeN _ _ _ _ hm, if_pos (by omega), Nat.add_sub_cancel_left]

/-- Bytes outside a write stay. -/
theorem read_writeN_outside {m : Mem} (hm : Memory.wf m = true) {a x : Nat} {bs : List Byte} (h : x < a ∨ a + bs.length ≤ x) :
    Mem.read (Mem.writeN m a bs) x = Mem.read m x := by
  rw [read_writeN _ _ _ _ hm, if_neg (by omega)]

theorem toNat_read (m : Mem) (a : Nat) : (Mem.read m a).toNat = Mem.num m a 1 := by
  simp [Mem.num, Mem.readN, leNat]

/-- A number of one byte is the byte. -/
theorem num_one (m : Mem) (a : Nat) : BitVec.ofNat 8 (Mem.num m a 1) = Mem.read m a := by
  refine BitVec.eq_of_toNat_eq ?_
  rw [← toNat_read]
  exact Nat.mod_eq_of_lt (Mem.read m a).isLt

theorem num_setNum_self {m : Mem} (hm : Memory.wf m = true) (a n x : Nat) : Mem.num (Mem.setNum m a n x) a n = x % 256 ^ n := by
  have h := readN_writeN_self hm a (leBytes n x)
  rw [length_leBytes] at h
  rw [Mem.num, Mem.setNum, h, leNat_leBytes]

theorem num_setNum_of_lt {m : Mem} (hm : Memory.wf m = true) {a n x : Nat} (hx : x < 256 ^ n) : Mem.num (Mem.setNum m a n x) a n = x := by
  rw [num_setNum_self hm, Nat.mod_eq_of_lt hx]

theorem word_lt (x : Word) : x.toNat < 256 ^ 8 := x.isLt.trans_le (by norm_num)

theorem byte_lt (x : Byte) : x.toNat < 256 ^ 1 := x.isLt.trans_le (by norm_num)

theorem read_setNum_outside {m : Mem} (hm : Memory.wf m = true) {a n x z : Nat} (h : z < a ∨ a + n ≤ z) :
    Mem.read (Mem.setNum m a n x) z = Mem.read m z :=
  read_writeN_outside hm (by rwa [length_leBytes])

theorem num_setNum_outside {m : Mem} (hm : Memory.wf m = true) {a n x b k : Nat} (h : b + k ≤ a ∨ a + n ≤ b) :
    Mem.num (Mem.setNum m a n x) b k = Mem.num m b k :=
  num_congr fun _ _ _ => read_setNum_outside hm (by omega)

theorem leBytes_leNat : ∀ bs : List Byte, leBytes bs.length (leNat bs) = bs
  | [] => rfl
  | b :: r => by
    have hb := b.isLt
    have hhead : (BitVec.ofNat 8 (b.toNat + 256 * leNat r) : Byte) = b := BitVec.eq_of_toNat_eq (by rw [BitVec.toNat_ofNat]; omega)
    have htail : (b.toNat + 256 * leNat r) / 256 = leNat r := by omega
    rw [List.length_cons, leNat, leBytes, hhead, htail, leBytes_leNat r]

/-- A number that is written back changes nothing. -/
theorem read_setNum_num {m : Mem} (hm : Memory.wf m = true) (a n z : Nat) : Mem.read (Mem.setNum m a n (Mem.num m a n)) z = Mem.read m z := by
  have hl := leBytes_leNat (Mem.readN m a n)
  rw [length_readN] at hl
  rw [Mem.setNum, Mem.num, hl, read_writeN _ _ _ _ hm, length_readN]
  split
  case isTrue h => rw [getD_readN _ _ _ _ _ (by omega), Nat.add_sub_cancel' h.1]
  case isFalse => rfl

/-- A number of a record lies in the bytes of the record. -/
theorem leNat_readN_slice (m : Mem) {a n off k : Nat} (h : off + k ≤ n) :
    leNat (((Mem.readN m a n).drop off).take k) = Mem.num m (a + off) k := by
  refine congrArg leNat (List.ext_getElem (by simp; omega) fun i hi hi' => ?_)
  simp only [length_readN] at hi'
  simp [Mem.readN, Nat.add_assoc]

theorem leNat_take_readN (m : Mem) {a n k : Nat} (h : k ≤ n) : leNat ((Mem.readN m a n).take k) = Mem.num m a k := by
  have hs := leNat_readN_slice m (a := a) (off := 0) (n := n) (k := k) (by omega)
  rwa [List.drop_zero, Nat.add_zero] at hs

theorem fieldAt_readN {m : Mem} {a n w off : Nat} (h : off + (w + 7) / 8 ≤ n) :
    fieldAt w (Mem.readN m a n) off = BitVec.ofNat w (Mem.num m (a + off) ((w + 7) / 8)) :=
  congrArg _ (leNat_readN_slice m h)

/-- A number is that of its first bytes and, above it, that of the others. -/
theorem num_add (m : Mem) (k : Nat) : ∀ a j : Nat, Mem.num m a (j + k) = Mem.num m a j + 256 ^ j * Mem.num m (a + j) k
  | a, 0 => by simp [Mem.num, Mem.readN, leNat]
  | a, j + 1 => by
    have hstep : ∀ n, Mem.num m a (n + 1) = (Mem.read m a).toNat + 256 * Mem.num m (a + 1) n := fun n => by
      simp only [Mem.num, Mem.readN, List.range_succ_eq_map, List.map_cons, List.map_map, leNat, Nat.add_zero]
      congr 3
      refine List.map_congr_left fun i _ => ?_
      simp only [Function.comp, Nat.succ_eq_add_one]
      rw [Nat.add_comm i 1, Nat.add_assoc]
    rw [show j + 1 + k = (j + k) + 1 by omega, hstep, hstep, num_add m k (a + 1) j, pow_succ, show a + (j + 1) = a + 1 + j by omega]
    ring

/-- A number that lies in bytes just written. -/
theorem num_writeN_slice {m : Mem} (hm : Memory.wf m = true) {a off k : Nat} {bs : List Byte} (h : off + k ≤ bs.length) :
    Mem.num (Mem.writeN m a bs) (a + off) k = leNat ((bs.drop off).take k) := by
  have hs := leNat_readN_slice (Mem.writeN m a bs) (a := a) h
  rw [readN_writeN_self hm] at hs
  exact hs.symm

/-! ## Records -/

/-- The memory that a record's fields are written into. -/
def recordMem (fs : List (Nat × Nat × Nat)) : Mem := fs.foldl (fun m f => Mem.setNum m f.1 f.2.1 f.2.2) []

@[simp] theorem length_record (n : Nat) (fs : List (Nat × Nat × Nat)) : (record n fs).length = n := length_readN ..

/-- A number of a record. -/
theorem leNat_record_slice {n off k : Nat} (fs : List (Nat × Nat × Nat)) (h : off + k ≤ n) :
    leNat (((record n fs).drop off).take k) = Mem.num (recordMem fs) off k := by
  have hs := leNat_readN_slice (recordMem fs) (a := 0) h
  rwa [Nat.zero_add] at hs

/-- The first byte of a record whose later fields lie behind it. -/
theorem head?_record {n x : Nat} {fs : List (Nat × Nat × Nat)} (h : ∀ f ∈ fs, 0 < f.1) :
    (record (n + 1) ((0, 1, x) :: fs)).head? = some (BitVec.ofNat 8 x) := by
  have key : ∀ (fs : List (Nat × Nat × Nat)) (m : Mem), Memory.wf m = true → (∀ f ∈ fs, 0 < f.1) →
      Mem.read (fs.foldl (fun m f => Mem.setNum m f.1 f.2.1 f.2.2) m) 0 = Mem.read m 0 := by
    intro fs
    induction fs with
    | nil => exact fun _ _ _ => rfl
    | cons f fs ih =>
      intro m hm h
      have hf : 0 < f.1 := h f List.mem_cons_self
      rw [List.foldl_cons, ih _ (wf_setNum _ _ _ _ hm) fun g hg => h g (List.mem_cons_of_mem _ hg)]
      exact read_setNum_outside hm (.inl hf)
  have hw : Mem.read (Mem.setNum [] 0 1 x) 0 = BitVec.ofNat 8 x := by
    have : Memory.wf [] = true := rfl
    rw [Mem.setNum, read_writeN _ _ _ _ this]
    rfl
  unfold record
  rw [List.foldl_cons, Mem.readN, List.range_succ_eq_map]
  simp only [List.map_cons, List.head?_cons, Nat.add_zero]
  rw [key fs _ (wf_setNum _ _ _ _ rfl) h, hw]

/-- A record of a fault that names no entry begins with its code. -/
theorem head?_plainRecord (s : State) (n : Nat) (rcb : Word) (code : Byte) (detail w8 w10 w20 w28 : Nat) :
    (plainRecord s n rcb code detail w8 w10 w20 w28).head? = some code := by
  have h : BitVec.ofNat 8 code.toNat = code := by simp
  rw [plainRecord, head?_record (n := 63), h]
  simp

end Sys2Proof.Machine
end

section
namespace Sys2Proof.Machine

/-! ## What a walk finds (R410, R412, R413) -/

/-- A leaf that a walk may end with: valid, and checked at the level of one of the three page tables. -/
def GoodLeaf (leaf : Word) : Prop := ∃ level, leafOk level leaf = true

/-- A walk that ends with a leaf checked it, and read it at the entry that it names. -/
theorem walkFrom_ok {m : Mem} {va : Nat} {e : Word} {pa : Nat} : ∀ {level table : Nat}, walkFrom m va level table = .ok (e, pa) →
    GoodLeaf e ∧ BitVec.ofNat 64 (Mem.num m pa 8) = e
  | 0, table, h => by
    obtain ⟨at_, h⟩ : ∃ at_, (let e : Word := BitVec.ofNat 64 (Mem.num m at_ 8)
        if !leafV e then .error fcNp else if leafOk 0 e then .ok (e, at_) else .error fcResv) = Except.ok (e, pa) := ⟨_, h⟩
    dsimp only at h
    split_ifs at h with hv hok
    obtain ⟨rfl, rfl⟩ := Prod.mk.inj (Except.ok.inj h)
    exact ⟨⟨0, hok⟩, rfl⟩
  | level + 1, table, h => by
    rw [walkFrom] at h
    generalize table + va / 2 ^ (12 + 9 * (level + 1)) % 512 * 8 = at_ at h
    split_ifs at h with hv hleaf hok hbits
    · obtain ⟨rfl, rfl⟩ := Prod.mk.inj (Except.ok.inj h)
      exact ⟨⟨_, hok⟩, rfl⟩
    · exact walkFrom_ok h

theorem walkTables_ok {m : Mem} {root : Nat} {va e : Word} {pa : Nat} (h : walkTables m root va = .ok (e, pa)) :
    GoodLeaf e ∧ BitVec.ofNat 64 (Mem.num m pa 8) = e := by
  unfold walkTables at h
  split at h
  · exact walkFrom_ok h
  · cases h

theorem State.lookup_ok {s : State} {n : Nat} {va e : Word} {pa : Nat} (h : s.lookup n va = .ok (e, pa)) :
    GoodLeaf e ∧ BitVec.ofNat 64 (Mem.num s.hbm pa 8) = e := by
  unfold State.lookup at h
  split at h
  · cases h
  · exact walkTables_ok h

/-- A page of local HBM lies in the map of the four dies (R346). -/
theorem GoodLeaf.page_mapped {leaf : Word} (h : GoodLeaf leaf) (hap : leafAp leaf = 0) (hlow : leafPfn leaf * 4096 < csramBase) :
    leafPfn leaf * 4096 + pageBytes (leafSz leaf) ≤ 2 ^ 39 := by
  obtain ⟨level, h⟩ := h
  have hm : paMapped (leafPfn leaf * 4096) (pageBytes (leafSz leaf)) = true := by
    simp only [leafOk, hap, Bool.and_eq_true, Bool.or_eq_true, bne_self_eq_false, Bool.false_eq_true, false_or] at h
    tauto
  rcases Bool.or_eq_true_iff.1 hm with h | h
  · exact (of_decide_eq_true h).1
  · exact absurd hlow (not_lt.2 (of_decide_eq_true h).1)

/-- A page of local HBM ends below cluster SRAM (R346). -/
theorem GoodLeaf.page_below {leaf : Word} (h : GoodLeaf leaf) (hap : leafAp leaf = 0) (hlow : leafPfn leaf * 4096 < csramBase) :
    leafPfn leaf * 4096 + pageBytes (leafSz leaf) ≤ csramBase :=
  (h.page_mapped hap hlow).trans (by unfold csramBase; norm_num)

theorem pageBytes_pos (sz : Nat) : 0 < pageBytes sz := by unfold pageBytes; split <;> decide

theorem pageBytes_dvd (sz : Nat) : pageBytes sz ∣ 2 ^ 64 := by unfold pageBytes; split <;> decide

theorem dvd_pageBytes (sz : Nat) : 4096 ∣ pageBytes sz := by unfold pageBytes; split <;> decide

/-- An offset that does not leave the page of an address adds to the address's place in the page. -/
theorem add_mod_page {va off : Word} {sz : Nat} (h : va.toNat % pageBytes sz + off.toNat < pageBytes sz) :
    (va + off).toNat % pageBytes sz = va.toNat % pageBytes sz + off.toNat := by
  have hoff : off.toNat % pageBytes sz = off.toNat := Nat.mod_eq_of_lt (by omega)
  have hsum : (va + off).toNat % pageBytes sz = (va.toNat + off.toNat) % pageBytes sz := by
    rw [BitVec.toNat_add]
    exact Nat.mod_mod_of_dvd _ (pageBytes_dvd sz)
  rw [hsum, Nat.add_mod, hoff, Nat.mod_eq_of_lt h]

/-- An address of local memory stands in HBM. -/
theorem placeOf_hbm {leaf va : Word} {cluster a : Nat} (h : placeOf leaf va cluster = (.hbm, a)) :
    leafAp leaf = 0 ∧ leafPfn leaf * 4096 < csramBase ∧ a = leafPfn leaf * 4096 + va.toNat % pageBytes (leafSz leaf) := by
  unfold placeOf at h
  dsimp only at h
  split at h
  case h_1 hap =>
    split at h
    case isTrue hlt => exact ⟨hap, (Nat.le_add_right _ _).trans_lt hlt, (Prod.mk.inj h).2.symm⟩
    case isFalse => cases (Prod.mk.inj h).1
  case h_2 => cases (Prod.mk.inj h).1
  case h_3 => cases (Prod.mk.inj h).1

/-- Within a page of HBM places advance as addresses do. -/
theorem placeOf_add {leaf va off : Word} {cluster a : Nat} (hok : GoodLeaf leaf) (h : placeOf leaf va cluster = (.hbm, a))
    (hin : va.toNat % pageBytes (leafSz leaf) + off.toNat < pageBytes (leafSz leaf)) :
    placeOf leaf (va + off) cluster = (.hbm, a + off.toNat) := by
  obtain ⟨hap, hlow, rfl⟩ := placeOf_hbm h
  have hb := hok.page_below hap hlow
  simp only [placeOf, hap, add_mod_page hin]
  rw [if_pos ((Nat.add_lt_add_left hin _).trans_le hb), Nat.add_assoc]

/-! ## Runs of bytes in one page of HBM -/

/-- A run of a context's addresses in one page of this module's HBM, from the given byte on. -/
structure PageRun (s : State) (n : Nat) (va leaf : Word) (a len : Nat) : Prop where
  place : placeOf leaf va 0 = (.hbm, a)
  fits : va.toNat % pageBytes (leafSz leaf) + len ≤ pageBytes (leafSz leaf)
  maps : ∀ off : Word, off.toNat < len → s.Maps n (va + off) leaf

theorem pageRun_of_runAt {s : State} {n : Nat} {va leaf : Word} {a len : Nat} (h : RunAt s n va leaf a len) : PageRun s n va leaf a len := by
  obtain ⟨_, _, _, hplace, hfits, hmaps⟩ := h
  exact ⟨hplace, hfits, hmaps⟩

/-- Bytes that end in the page of the first are reached in one piece. -/
theorem ctxChunks_one {s : State} {n : Nat} {va leaf : Word} {pa a len : Nat} (hl : s.lookup n va = .ok (leaf, pa))
    (hp : placeOf leaf va 0 = (.hbm, a)) (hfits : va.toNat % pageBytes (leafSz leaf) + len ≤ pageBytes (leafSz leaf)) (hlen : 0 < len) :
    s.ctxChunks n va len = .ok [⟨va, leaf, some pa, .hbm, a, len⟩] := by
  unfold State.ctxChunks
  rw [show len / 4096 + 2 = (len / 4096) + 1 + 1 from rfl, chunks, if_neg (by omega)]
  simp only [hl]
  rw [hp, Nat.min_eq_right (by omega), Nat.sub_self, chunks, if_pos rfl]

/-- An aligned run that is no longer than its alignment does not leave its page. -/
theorem aligned_fits {va : Word} {sz n : Nat} (hn : n ∣ 4096) (ha : va.toNat % n = 0) :
    va.toNat % pageBytes sz + n ≤ pageBytes sz := by
  obtain ⟨k, hk⟩ : n ∣ pageBytes sz := hn.trans (dvd_pageBytes sz)
  obtain ⟨q, hq⟩ : n ∣ va.toNat % pageBytes sz := (Nat.dvd_mod_iff ⟨k, hk⟩).2 (Nat.dvd_of_mod_eq_zero ha)
  have hlt := Nat.mod_lt va.toNat (pageBytes_pos sz)
  rw [hq, hk] at hlt ⊢
  calc n * q + n = n * (q + 1) := by ring
    _ ≤ n * k := Nat.mul_le_mul_left n (Nat.lt_of_mul_lt_mul_left hlt)

namespace PageRun
variable {s : State} {n : Nat} {va leaf : Word} {a len : Nat}

theorem local_ (h : PageRun s n va leaf a len) : leafAp leaf = 0 := (placeOf_hbm h.place).1

theorem first (h : PageRun s n va leaf a len) (hlen : 0 < len) : ∃ pa, s.lookup n va = .ok (leaf, pa) := by
  simpa [State.Maps] using h.maps 0 hlen

theorem good (h : PageRun s n va leaf a len) (hlen : 0 < len) : GoodLeaf leaf :=
  have ⟨_, hl⟩ := h.first hlen
  (State.lookup_ok hl).1

/-- A run's part is a run. -/
theorem sub (h : PageRun s n va leaf a len) {off len' : Nat} (hin : off + len' ≤ len) (hlen : 0 < len') (hoff : off < 2 ^ 64) :
    PageRun s n (va + BitVec.ofNat 64 off) leaf (a + off) len' := by
  have hfits := h.fits
  have ho : (BitVec.ofNat 64 off).toNat = off := by rw [BitVec.toNat_ofNat]; exact Nat.mod_eq_of_lt hoff
  have hp := placeOf_add (off := BitVec.ofNat 64 off) (h.good (by omega)) h.place (by omega)
  rw [ho] at hp
  refine ⟨hp, ?_, fun o hlt => ?_⟩
  · rw [add_mod_page (by omega), ho]
    omega
  · have hsz : pageBytes (leafSz leaf) ≤ 2 ^ 64 := Nat.le_of_dvd (by decide) (pageBytes_dvd _)
    rw [BitVec.add_assoc]
    refine h.maps _ ?_
    rw [BitVec.toNat_add, ho, Nat.mod_eq_of_lt (by omega)]
    omega

/-- A run is reached in one piece. -/
theorem ctxChunks (h : PageRun s n va leaf a len) (hlen : 0 < len) :
    ∃ pa, s.lookup n va = .ok (leaf, pa) ∧ s.ctxChunks n va len = .ok [⟨va, leaf, some pa, .hbm, a, len⟩] := by
  obtain ⟨pa, hl⟩ := h.first hlen
  exact ⟨pa, hl, ctxChunks_one hl h.place h.fits hlen⟩

theorem readVia (h : PageRun s n va leaf a len) (hlen : 0 < len) : s.readVia n va len = some (Mem.readN s.hbm a len) := by
  obtain ⟨pa, -, hc⟩ := h.ctxChunks hlen
  simp [State.readVia, hc, h.local_, State.readChunks, State.memOf]

theorem readPresent (h : PageRun s n va leaf a len) (hlen : 0 < len) : s.readPresent n va len = some (Mem.readN s.hbm a len) := by
  obtain ⟨pa, -, hc⟩ := h.ctxChunks hlen
  simp [State.readPresent, hc, State.readChunks, State.memOf]

theorem writableVia (h : PageRun s n va leaf a len) (hlen : 0 < len) : s.writableVia n va len = leafW leaf := by
  obtain ⟨pa, -, hc⟩ := h.ctxChunks hlen
  simp [State.writableVia, hc, h.local_]

theorem writeVia {bs : List Byte} (h : PageRun s n va leaf a bs.length) (hlen : 0 < bs.length) : s.writeVia n va bs = s.hbmWrite a bs := by
  obtain ⟨pa, -, hc⟩ := h.ctxChunks hlen
  simp [State.writeVia, hc, State.writeChunks, State.put]

theorem rcbNum (h : PageRun s n va leaf a len) {off k : Nat} (hin : off + k ≤ len) (hk : 0 < k) (hoff : off < 2 ^ 64) :
    s.rcbNum n va off k = Mem.num s.hbm (a + off) k := by
  unfold State.rcbNum
  rw [(h.sub hin hk hoff).readVia hk]
  rfl

theorem setRcb (h : PageRun s n va leaf a len) {off k : Nat} (hin : off + k ≤ len) (hk : 0 < k) (hoff : off < 2 ^ 64) (x : Nat) :
    s.setRcb n va off k x = s.hbmWrite (a + off) (leBytes k x) := by
  unfold State.setRcb
  have hl := length_leBytes k x
  exact writeVia (by rw [hl]; exact h.sub hin hk hoff) (by omega)

end PageRun

/-- A write to HBM leaves the bytes written in it. -/
theorem hbmWrite_hbm (s : State) (a : Nat) (bs : List Byte) : (s.hbmWrite a bs).hbm = Mem.writeN s.hbm a bs := by
  unfold State.hbmWrite
  split
  case isTrue h =>
    rw [List.isEmpty_iff.1 h]
    rfl
  case isFalse => rfl

theorem hbmWrite_hostMem (s : State) (a : Nat) (bs : List Byte) : (s.hbmWrite a bs).hostMem = s.hostMem := by
  unfold State.hbmWrite
  split <;> rfl

theorem hbmWrite_leBytes_hbm (s : State) (a k x : Nat) : (s.hbmWrite a (leBytes k x)).hbm = Mem.setNum s.hbm a k x := hbmWrite_hbm ..

end Sys2Proof.Machine
end

section
namespace Sys2Proof.Machine

/-! ## What a slot is charged (R31, R32) -/

/-- A slot with nothing left to charge is not changed by a charge. -/
theorem chargeNow_of_charged {s : State} (h : s.cur.sys.uncharged = 0) : s.chargeNow = s := by
  have hsys : { s.cur.sys with uncharged := 0 } = s.cur.sys := by rw [← h]
  unfold State.chargeNow State.charge
  dsimp only
  rw [if_pos h, hsys]

/-- A charge of a task whose RCB has no parent is one of that RCB. -/
theorem charge_alone {s : State} {p : PoolEntry} {rcb : Word} {cycles : Nat} (hc : cycles ≠ 0)
    (ha : s.ancestry p.ctx chainFuel p.rcb (s.poolImage p) = [rcb]) :
    s.charge p cycles = s.chargeOne p.ctx p.die.toNat cycles p.node (s.poolImage p) rcb := by
  unfold State.charge
  dsimp only
  rw [if_neg hc, ha]
  rfl

/-- CYCUSED of a die after a charge of its RCB, and the note of a budget that it reaches. -/
theorem chargeOne_charges {s : State} {n : Nat} {die : BitVec 2} {rcb leaf : Word} {a : Nat} (cycles : Nat) (node : BitVec 32)
    (im : Option Image) (hm : Memory.wf s.hbm = true) (hp : PageRun s n rcb leaf a 256) :
    Mem.num (s.chargeOne n die.toNat cycles node im rcb).hbm (a + 0x60 + 8 * die.toNat) 8 =
        (Mem.num s.hbm (a + 0x60 + 8 * die.toNat) 8 + cycles) % 2 ^ 64 ∧
      (Mem.num s.hbm (a + 0x60 + 8 * die.toNat) 8 < (s.effOf n rcb im).cycBudget →
        (s.effOf n rcb im).cycBudget ≤ Mem.num s.hbm (a + 0x60 + 8 * die.toNat) 8 + cycles →
        (n, rcb, die.toNat, node) ∈ (s.chargeOne n die.toNat cycles node im rcb).overBudget) := by
  have hd := die.isLt
  unfold State.chargeOne
  dsimp only
  rw [hp.rcbNum (off := 0x60 + 8 * die.toNat) (by omega) (by omega) (by omega), hp.setRcb (by omega) (by omega) (by omega), ← Nat.add_assoc]
  generalize a + 0x60 + 8 * die.toNat = at_
  generalize (s.effOf n rcb im).cycBudget = b
  have hnum : ∀ x, Mem.num (s.hbmWrite at_ (leBytes 8 x)).hbm at_ 8 = x % 2 ^ 64 := fun x => by
    rw [hbmWrite_leBytes_hbm, num_setNum_self hm, show 256 ^ 8 = 2 ^ 64 by norm_num]
  split
  case isTrue => exact ⟨hnum _, fun _ _ => by simp⟩
  case isFalse hn => exact ⟨hnum _, fun h1 h2 => absurd (by simpa using ⟨by omega, h1, h2⟩) hn⟩

/-- A charge reaches CYCUSED of the task's die in its one RCB. -/
theorem exec_cycusedUpdate {s : State} {core : Nat} {leaf : Word} {a : Nat} (hm : s.MemoryWf) (hr : s.cur.status = .running core)
    (ha : s.ancestry s.cur.pool.ctx chainFuel s.cur.pool.rcb (s.poolImage s.cur.pool) = [s.cur.pool.rcb])
    (hp : PageRun s s.cur.pool.ctx s.cur.pool.rcb leaf a 256) :
    ∃ t, exec .cycusedUpdate s = .next t ∧ t.cur.sys.uncharged = 0 ∧
      (let old := Mem.num s.hbm (a + 0x60 + 8 * s.cur.pool.die.toNat) 8
       let b := (s.effOf s.cur.pool.ctx s.cur.pool.rcb (s.poolImage s.cur.pool)).cycBudget
       Mem.num t.hbm (a + 0x60 + 8 * s.cur.pool.die.toNat) 8 = (old + s.cur.sys.uncharged) % 2 ^ 64 ∧
         (old < b → b ≤ old + s.cur.sys.uncharged →
          (s.cur.pool.ctx, s.cur.pool.rcb, s.cur.pool.die.toNat, s.cur.pool.node) ∈ t.overBudget)) := by
  have hx : exec .cycusedUpdate s = .next s.chargeNow := by
    show execCycusedUpdate s = _
    unfold execCycusedUpdate
    rw [if_pos (isRunning_of_status hr)]
  refine ⟨_, hx, rfl, ?_⟩
  by_cases hc : s.cur.sys.uncharged = 0
  · rw [chargeNow_of_charged hc, hc]
    dsimp only
    have hlt := num_lt s.hbm (a + 0x60 + 8 * s.cur.pool.die.toNat) 8
    generalize Mem.num s.hbm (a + 0x60 + 8 * s.cur.pool.die.toNat) 8 = old at hlt ⊢
    exact ⟨by omega, fun h1 h2 => absurd h1 (by omega)⟩
  · unfold State.chargeNow
    dsimp only
    rw [charge_alone hc ha]
    exact chargeOne_charges _ _ _ hm.1 hp

/-- A BUDGET record, and the abort of the domain; the budget is no longer noted as reached (R31, R433). -/
theorem raiseBudget_records (s : State) (n : Nat) (rcb : Word) (die : Nat) (node : BitVec 32) :
    ∃ bs, bs.head? = some 0x61 ∧
      s.raiseBudget n rcb die node =
        (({ s with overBudget := s.overBudget.filter fun x => !(x.1 == n && x.2.1 == rcb && x.2.2.1 == die) }.logFault n rcb bs).1.abortDomain
          n rcb) :=
  ⟨_, head?_plainRecord .., rfl⟩

/-- What is left of the budgets noted when one of an RCB and a die is taken out. -/
theorem mem_otherBudgets {l : List (Nat × Word × Nat × BitVec 32)} {n : Nat} {rcb : Word} {die : Nat} {x : Nat × Word × Nat × BitVec 32} :
    x ∈ (l.filter fun x => !(x.1 == n && x.2.1 == rcb && x.2.2.1 == die)) ↔ x ∈ l ∧ (x.1, x.2.1, x.2.2.1) ≠ (n, rcb, die) := by
  simp only [List.mem_filter, Bool.not_eq_true', Bool.and_eq_false_iff, beq_eq_false_iff_ne, ne_eq, Prod.mk.injEq]
  tauto

theorem exec_budget_of_spent {s : State} {core : Nat} {rcb : Word} (hr : s.cur.status = .running core) (hu : s.cur.sys.uncharged = 0)
    (hs : s.spent s.cur.pool.ctx s.cur.pool.rcb s.cur.pool.die.toNat (s.poolImage s.cur.pool) = some rcb) :
    exec .budget s = .next (s.raiseBudget s.cur.pool.ctx rcb s.cur.pool.die.toNat s.cur.pool.node) := by
  show execBudget s = _
  unfold execBudget
  simp only [isRunning_of_status hr, if_true, chargeNow_of_charged hu, hs]

theorem exec_budget_of_noted {s : State} {n : Nat} {rcb : Word} {die : Nat} {node : BitVec 32} {rest : List (Nat × Word × Nat × BitVec 32)}
    (hr : s.cur.isRunning = false) (ho : s.overBudget = (n, rcb, die, node) :: rest) :
    exec .budget s = .next (s.raiseBudget n rcb die node) := by
  show execBudget s = _
  unfold execBudget
  simp only [hr, Bool.false_eq_true, if_false, ho]

theorem exec_wdog {s : State} {core : Nat} (hr : s.cur.status = .running core) (hu : s.cur.othersUnder .seq = false)
    (hw : (s.taskEff s.cur).wdogi ≠ 0) (hlt : (s.taskEff s.cur).wdogi * 1024 < s.cur.sys.wdog) :
    ∃ bs r, bs.head? = some 0x60 ∧ r.reason = 6 ∧ r.dcode = 0x60 ∧
      exec .wdog s = .next (((s.suspend r).logTask s.cur bs).1.abortTask s.cur) := by
  have hc : (s.cur.isRunning && !s.cur.othersUnder .seq && (s.taskEff s.cur).wdogi != 0 &&
      decide ((s.taskEff s.cur).wdogi * 1024 < s.cur.sys.wdog)) = true := by
    simp [isRunning_of_status hr, hu, hw, hlt]
  refine ⟨_, { s.cur.stopRec (s.timeOf s.cur.pool.ctx) 6 with dcode := fcWdog }, head?_plainRecord s s.cur.pool.ctx s.cur.pool.rcb fcWdog
    s.cur.pool.die.toNat (s.taskEff s.cur).wdogi s.cur.sys.wdog 0 s.cur.pool.node.toNat, rfl, rfl, ?_⟩
  show execWdog s = _
  unfold execWdog
  dsimp only
  rw [if_pos hc]

/-- Settles O14: a charge of the slot through the task's one RCB, the two ways to a BUDGET record, and the watchdog's stop. -/
theorem slotsAreCharged : Obligations.SlotsAreCharged := by
  refine ⟨?_, ?_, ?_, ?_⟩
  · rintro s core rcb leaf pa a hm hr rfl - halign ha hl - - hp
    refine exec_cycusedUpdate hm hr ha ⟨hp, ?_, fun off hoff => ⟨pa, hl off hoff⟩⟩
    exact aligned_fits (by decide) halign
  · intro s core rcb hr hu hs
    obtain ⟨bs, hbs, h⟩ := raiseBudget_records s s.cur.pool.ctx rcb s.cur.pool.die.toNat s.cur.pool.node
    exact ⟨bs, _, hbs, fun _ => mem_otherBudgets, (exec_budget_of_spent hr hu hs).trans (congrArg _ h)⟩
  · intro s n rcb die node rest hr ho
    obtain ⟨bs, hbs, h⟩ := raiseBudget_records s n rcb die node
    refine ⟨bs, _, hbs, fun x => ?_, (exec_budget_of_noted hr ho).trans (congrArg _ h)⟩
    rw [mem_otherBudgets, ho, List.mem_cons]
    refine and_congr_left fun hne => or_iff_right ?_
    rintro rfl
    exact hne rfl
  · exact fun s core hr hu hw hlt => exec_wdog hr hu hw hlt

end Sys2Proof.Machine
end

section
namespace Sys2Proof.Machine

/-! ## A context's memory in two states -/

theorem PageRun.congr {s t : State} {n : Nat} {va leaf : Word} {a len : Nat} (h : PageRun s n va leaf a len)
    (hl : ∀ va, t.lookup n va = s.lookup n va) : PageRun t n va leaf a len :=
  ⟨h.place, h.fits, fun off hoff => by
    obtain ⟨pa, hpa⟩ := h.maps off hoff
    exact ⟨pa, (hl _).trans hpa⟩⟩

/-- Where its tables stay, a context's translation stays. -/
theorem lookup_of_tablesKeep {s t : State} {n : Nat} {F : Nat → Prop} (h : TablesKeep s n F) (hc : t.ctxs = s.ctxs)
    (hm : ∀ z, ¬ F z → Mem.read t.hbm z = Mem.read s.hbm z) (va : Word) : t.lookup n va = s.lookup n va := by
  have hctx : t.ctx? n = s.ctx? n := by rw [State.ctx?, hc]; rfl
  unfold State.lookup
  rw [hctx]
  cases hs : s.ctx? n with
  | none => rfl
  | some c => exact h t.hbm c va hs hm

theorem readVia_congr {s t : State} {n : Nat} (hl : ∀ va, t.lookup n va = s.lookup n va) (hm : ∀ p, t.memOf p = s.memOf p)
    (va : Word) (len : Nat) : t.readVia n va len = s.readVia n va len := by
  simp only [State.readVia, State.ctxChunks, State.readChunks, hl, hm]

theorem rcbChain_congr {s t : State} {n : Nat} (hl : ∀ va, t.lookup n va = s.lookup n va) (hm : ∀ p, t.memOf p = s.memOf p) :
    ∀ (fuel : Nat) (va : Word), t.rcbChain n fuel va = s.rcbChain n fuel va
  | 0, _ => rfl
  | fuel + 1, va => by
    simp only [State.rcbChain, readVia_congr hl hm, rcbChain_congr hl hm fuel]

/-- An RCB that memory holds is one of a context that exists. -/
theorem ctx?_of_rcbChain {s : State} {n fuel : Nat} {rcb : Word} (h : s.rcbChain n fuel rcb ≠ []) : ∃ c, s.ctx? n = some c := by
  cases hc : s.ctx? n with
  | some c => exact ⟨c, rfl⟩
  | none =>
    have hr : ∀ va, s.readVia n va 256 = none := fun va => by
      simp [State.readVia, State.ctxChunks, chunks, State.lookup, hc]
    refine absurd ?_ h
    cases fuel with
    | zero => rfl
    | succ fuel => simp [State.rcbChain, hr]

/-- A chain that can be read begins with its RCB. -/
theorem rcbChain_head (s : State) (n : Nat) {fuel : Nat} {rcb : Word} (hf : 0 < fuel) (h : rcb ≠ 0) :
    s.rcbChain n fuel rcb = [] ∨ ∃ bs l, s.rcbChain n fuel rcb = (rcb, bs) :: l := by
  obtain ⟨k, rfl⟩ := Nat.exists_eq_succ_of_ne_zero hf.ne'
  rw [State.rcbChain, if_neg h]
  cases s.readVia n rcb 256 with
  | none => exact .inl rfl
  | some bs => exact .inr ⟨bs, _, rfl⟩

/-- An RCB other than none is the first of its own ancestry. -/
theorem mem_ancestry_self (s : State) (n : Nat) {rcb : Word} (im : Option Image) (h : rcb ≠ 0) : rcb ∈ s.ancestry n chainFuel rcb im := by
  unfold State.ancestry
  rcases rcbChain_head (s.rcbView n im) n (fuel := chainFuel) (by decide) h with hc | ⟨bs, l, hc⟩
  · rw [hc]
    dsimp only
    rw [if_neg h]
    exact List.mem_singleton_self rcb
  · rw [hc]
    exact List.mem_cons_self

/-! ## Acceptance (R39, R358) -/

theorem waitsAt_iff {s : State} {ctx : Nat} {queue : BitVec 6} {l : Launch} :
    (!l.accepted && s.queueNum l.ctx l.queue == s.queueNum ctx queue) = true ↔ WaitsAt s ctx queue l := by
  have h1 := l.queue.isLt
  have h2 := queue.isLt
  simp only [State.queueNum, WaitsAt, Bool.and_eq_true, Bool.not_eq_true', beq_iff_eq]
  refine and_congr_right fun _ => ⟨fun h => ⟨BitVec.eq_of_toNat_eq (by omega), by omega⟩, ?_⟩
  rintro ⟨h, hf⟩
  rw [h, hf]

/-- The first launch of a list that satisfies a property, and what is left of the list without it. -/
theorem firstLaunch_find? {s : State} {P : Launch → Prop} {p : Launch → Bool} {before after : List Launch} {l : Launch}
    (h : FirstLaunch s P before after l) (hp : ∀ l, p l = true ↔ P l) : s.launches.find? p = some l := by
  obtain ⟨hs, hl, hb, _⟩ := h
  rw [hs, List.find?_append, List.find?_eq_none.2 fun m hm hpm => hb m hm ((hp m).1 hpm), List.find?_cons, (hp l).2 hl]
  rfl

theorem firstLaunch_rest {s : State} {P : Launch → Prop} {before after : List Launch} {l : Launch} (h : FirstLaunch s P before after l) :
    s.launches.filter (·.serial != l.serial) = before ++ after := by
  obtain ⟨hs, _, _, hne⟩ := h
  rw [hs, List.filter_append, List.filter_cons_of_neg (by simp), ← List.filter_append, List.filter_eq_self]
  exact fun m hm => by simpa using hne m hm

theorem mem_freeUnits {s : State} {u : Nat} : u ∈ s.freeUnits ↔ UnitFree s u := by
  simp [State.freeUnits, UnitFree]

theorem nodup_freeUnits (s : State) : s.freeUnits.Nodup := List.nodup_range.filter _

theorem length_freeUnits {s : State} {free : List Nat} (hf : ∀ u, u ∈ free ↔ UnitFree s u) (hn : free.Nodup) :
    s.freeUnits.length = free.length :=
  ((List.perm_ext_iff_of_nodup (nodup_freeUnits s) hn).2 fun u => mem_freeUnits.trans (hf u).symm).length_eq

/-- Units that were zeroed hold zeros, and the others what they held. -/
theorem read_zeroUnits {s : State} (hm : Memory.wf s.csram = true) (units : List Nat) {cluster u off : Nat} (hu : u < 64) (ho : off < 65536) :
    Mem.read (s.zeroUnits units).csram (cluster * 2 ^ 22 + u * 65536 + off) =
      if u ∈ units then 0 else Mem.read s.csram (cluster * 2 ^ 22 + u * 65536 + off) := by
  have hunit : (cluster * 2 ^ 22 + u * 65536 + off) % csramBytes / 65536 = u := by
    rw [show csramBytes = 4194304 from rfl]
    omega
  have h := read_filter hm (fun a => !units.contains (a % csramBytes / 65536)) (cluster * 2 ^ 22 + u * 65536 + off)
  rw [hunit] at h
  refine h.trans ?_
  by_cases hc : u ∈ units <;> simp [hc, unlisted]

/-- What an acceptance makes of a context: it remembers the memory, and knows the launch's RCBs. -/
theorem readRcbs_ctx? {s : State} {n : Nat} {c : Ctx} (rcb : Word) (hc : s.ctx? n = some c) :
    ∃ d, (s.readRcbs n rcb).ctx? n = some d ∧ d.root = c.root ∧ d.image = some (s.hbm, s.csram) := by
  unfold State.readRcbs State.knowRcb
  generalize (State.ancestry _ n chainFuel rcb none) = l
  refine ⟨_, (modCtx_ctx? _ n n (f := fun c => { c with rcbs := c.rcbs ++ l.filter fun r => !c.rcbs.contains r }) fun _ => rfl).trans
    (congrArg _ ((modCtx_ctx? s n n (f := fun c => { c with image := some (s.hbm, s.csram) }) fun _ => rfl).trans (congrArg _ hc))), ?_⟩
  simp [ctx?_number hc]

/-- The effective values read at an acceptance are those that memory holds then (R29). -/
theorem effOf_readRcbs {s : State} {n : Nat} {rcb : Word} (units : List Nat) (h : s.rcbChain n chainFuel rcb ≠ []) :
    ((s.readRcbs n rcb).zeroUnits units).effOf n rcb = effective (s.rcbChain n chainFuel rcb) := by
  obtain ⟨c, hc⟩ := ctx?_of_rcbChain h
  obtain ⟨d, hd, hroot, him⟩ := readRcbs_ctx? rcb hc
  have hd' : ((s.readRcbs n rcb).zeroUnits units).ctx? n = some d := hd
  have hv : ((s.readRcbs n rcb).zeroUnits units).rcbView n = { (s.readRcbs n rcb).zeroUnits units with hbm := s.hbm, csram := s.csram } := by
    unfold State.rcbView
    rw [hd']
    simp only [Option.bind_some, him]
    rfl
  unfold State.effOf State.rcbEff
  rw [hv]
  refine congrArg effective (rcbChain_congr (fun va => ?_) (fun p => by cases p <;> rfl) chainFuel rcb)
  have hd'' : State.ctx? { (s.readRcbs n rcb).zeroUnits units with hbm := s.hbm, csram := s.csram } n = some d := hd
  unfold State.lookup
  rw [hd'', hc]
  dsimp only
  rw [hroot]

theorem exec_launchAccept {s : State} {ctx : Nat} {queue : BitVec 6} {l : Launch} {before after : List Launch}
    (h : FirstLaunch s (WaitsAt s ctx queue) before after l) :
    exec (.launchAccept ctx queue) s =
      if !l.overlap && s.launches.any (·.serial == l.prev) then .next s
      else if s.chainAborted l.ctx l.lrcb then .next { s with launches := before ++ after }
      else if s.freeUnits.length < l.csSz then .next s
      else
        let units := s.freeUnits.take l.csSz
        let t := (s.readRcbs l.ctx l.lrcb).zeroUnits units
        .next { t with launches := before ++ after ++
          [{ l with accepted := true, csUnits := units, lttbl := if l.lttbl = 0 then (t.effOf l.ctx l.lrcb).ttbl else l.lttbl,
                    image := (t.ctx? l.ctx).bind (·.image) }] } := by
  show execLaunchAccept ctx queue s = _
  unfold execLaunchAccept
  rw [firstLaunch_find? h fun _ => waitsAt_iff]
  dsimp only
  have hl : ((s.readRcbs l.ctx l.lrcb).zeroUnits (s.freeUnits.take l.csSz)).launches = s.launches := rfl
  rw [State.dropLaunch, hl, firstLaunch_rest h]

/-! ## Retirement (R34, R38) -/

theorem lor_two_pow {x i : Nat} (h : x.testBit i = true) : x ||| 2 ^ i = x := by
  refine Nat.eq_of_testBit_eq fun j => ?_
  rw [Nat.testBit_or, Nat.testBit_two_pow]
  by_cases hj : i = j
  · rw [← hj, h, Bool.true_or]
  · simp [hj]

theorem theLaunch_find? {s : State} {l : Launch} (h : TheLaunch s l) (ha : l.accepted = true) :
    s.launches.find? (fun m => m.serial == l.serial && m.accepted) = some l :=
  find?_eq_some_of_unique h.1 (by simp [ha]) fun m hm hp => h.2 m hm (by simpa using (Bool.and_eq_true_iff.1 hp).1)

theorem noTasks_iff {s : State} {l : Launch} :
    s.noTasks l = true ↔ ∀ t ∈ s.tasks, ¬(t.pool.origin = 0 ∧ t.pool.ctx = l.ctx ∧ t.pool.serial = l.serial) := by
  simp [State.noTasks]

theorem exec_launchRetire {s : State} {l : Launch} (h : TheLaunch s l) (ha : l.accepted = true) :
    exec (.launchRetire l.serial) s =
      if s.chainAborted l.ctx l.lrcb l.image then
        if s.chainDown l.ctx l.lrcb l.image && s.noTasks l then .next (s.dropLaunch l.serial) else .next s
      else if !l.dead && l.passed.toList.all (·) && l.nodes.all (·.done) && !s.walksFull 0 then
        .next ((s.writeDone l).dropLaunch l.serial)
      else .next s := by
  show execLaunchRetire l.serial s = _
  unfold execLaunchRetire
  rw [theLaunch_find? h ha]

theorem passed_all {l : Launch} : l.passed.toList.all (·) = true ↔ ∀ d, l.passed.get d = true := by
  simp only [List.all_eq_true, Vector.mem_toList_iff, Vector.mem_iff_getElem]
  exact ⟨fun h d => h _ ⟨d, d.isLt, rfl⟩, fun h x ⟨i, hi, hx⟩ => hx ▸ h ⟨i, hi⟩⟩

/-- A walk changes memory at the leaf alone; what it installs is no memory. -/
theorem walked_hbm (s : State) (die : Nat) (core : Option Nat) (fetch : Bool) (n : Nat) (va leaf : Word) (pa : Nat) (write : Bool) :
    (s.walked die core fetch n va leaf pa write).hbm = Mem.setNum s.hbm pa 8 (leaf.toNat ||| (8 + if write && leafW leaf then 16 else 0)) := by
  unfold State.walked State.installWalk
  cases core <;> rfl

/-- A walk to a page that has A set, and D where the walk would set it, leaves what HBM holds. -/
theorem read_walked_marked {s : State} (hm : Memory.wf s.hbm = true) {n pa : Nat} {va leaf : Word} {write : Bool}
    (hl : s.lookup n va = .ok (leaf, pa)) (hA : leaf.getLsbD 3 = true) (hD : write = true → leafW leaf = true → leaf.getLsbD 4 = true)
    (die : Nat) (core : Option Nat) (fetch : Bool) (z : Nat) :
    Mem.read (s.walked die core fetch n va leaf pa write).hbm z = Mem.read s.hbm z := by
  have hmark : leaf.toNat ||| (8 + if write && leafW leaf then 16 else 0) = leaf.toNat := by
    split
    case isTrue hw =>
      obtain ⟨hw, hleaf⟩ := Bool.and_eq_true_iff.1 hw
      exact (Nat.lor_assoc leaf.toNat (2 ^ 3) (2 ^ 4)).symm.trans (by rw [lor_two_pow hA, lor_two_pow (hD hw hleaf)])
    case isFalse => exact lor_two_pow hA
  have hnum : leaf.toNat = Mem.num s.hbm pa 8 := by
    rw [← (State.lookup_ok hl).2, BitVec.toNat_ofNat]
    exact Nat.mod_eq_of_lt (num_lt s.hbm pa 8)
  rw [walked_hbm, hmark, hnum, read_setNum_num hm]

/-- DONEVAL goes to the one page that holds its eight bytes. -/
theorem writeDone_run {s : State} {l : Launch} {leaf : Word} {a : Nat} (h0 : l.doneVa ≠ 0) (hp : PageRun s l.ctx l.doneVa leaf a 8)
    (hw : leafW leaf = true) : ∃ pa, s.lookup l.ctx l.doneVa = .ok (leaf, pa) ∧
      s.writeDone l = (s.walked 0 none false l.ctx l.doneVa leaf pa true).hbmWrite a (leBytes 8 l.doneVal.toNat) := by
  obtain ⟨pa, hl, hc⟩ := hp.ctxChunks (by decide)
  refine ⟨pa, hl, ?_⟩
  have ht : (leBytes 8 l.doneVal.toNat).take 8 = leBytes 8 l.doneVal.toNat := List.take_of_length_le (length_leBytes ..).le
  unfold State.writeDone
  rw [if_neg h0, hc]
  simp [hw, State.walkedChunks, State.writeChunks, State.put, ht]

theorem writeDone_none {s : State} {l : Launch} (h0 : l.doneVa = 0) : s.writeDone l = s := by
  simp [State.writeDone, h0, State.walkedChunks, State.writeChunks]

/-- DONEVAL is written and nothing else of HBM. -/
theorem hbm_writeDone {s : State} {l : Launch} {leaf : Word} {a : Nat} (hm : Memory.wf s.hbm = true) (h0 : l.doneVa ≠ 0)
    (hp : PageRun s l.ctx l.doneVa leaf a 8) (hw : leafW leaf = true) (hA : leaf.getLsbD 3 = true) (hD : leaf.getLsbD 4 = true) :
    Mem.num (s.writeDone l).hbm a 8 = l.doneVal.toNat ∧
      ∀ z, z < a ∨ a + 8 ≤ z → Mem.read (s.writeDone l).hbm z = Mem.read s.hbm z := by
  obtain ⟨pa, hl, h⟩ := writeDone_run h0 hp hw
  have hwf : Memory.wf (s.walked 0 none false l.ctx l.doneVa leaf pa true).hbm = true := by
    rw [walked_hbm]
    exact wf_setNum _ _ _ _ hm
  rw [h, hbmWrite_leBytes_hbm, num_setNum_self hwf]
  exact ⟨Nat.mod_eq_of_lt l.doneVal.isLt, fun z hz => (read_setNum_outside hwf hz).trans (read_walked_marked hm hl hA (fun _ _ => hD) ..)⟩

theorem writeDone_frame {s : State} {l : Launch} {leaf : Word} {a : Nat} (h0 : l.doneVa ≠ 0) (hp : PageRun s l.ctx l.doneVa leaf a 8)
    (hw : leafW leaf = true) : (s.writeDone l).launches = s.launches ∧ (s.writeDone l).cur = s.cur ∧ (s.writeDone l).others = s.others := by
  obtain ⟨pa, -, h⟩ := writeDone_run h0 hp hw
  rw [h]
  exact ⟨(hbmWrite_same ..).launches, hbmWrite_cur .., hbmWrite_others ..⟩

/-! ## The end of an abort (R34) -/

theorem exec_abortComplete (s : State) (ctx : Nat) (rcb : Word) :
    exec (.abortComplete ctx rcb) s = .next (s.endAbort ctx rcb) := rfl

/-- An aborting RCB with LIVE 0 is aborted by a write of STATE. -/
theorem endAbort_ends {s : State} {n : Nat} {rcb leaf : Word} {a : Nat} (hp : PageRun s n rcb leaf a 256)
    (hst : Mem.num s.hbm (a + 0x0B) 1 % 4 = 1) (hlive : Mem.num s.hbm (a + 0x50) 4 = 0) :
    s.endAbort n rcb =
      let t := s.hbmWrite (a + 0x0B) (leBytes 1 2)
      { t with launches := t.launches.filter fun l => !(l.accepted && l.ctx == n && t.chainDown n l.lrcb l.image && t.noTasks l) } := by
  unfold State.endAbort State.rcbState
  rw [hp.rcbNum (by decide) (by decide) (by decide), hp.rcbNum (by decide) (by decide) (by decide), hst, hlive, if_pos (by decide)]
  dsimp only
  rw [hp.setRcb (by decide) (by decide) (by decide)]

theorem endAbort_waits {s : State} {n : Nat} {rcb leaf : Word} {a : Nat} (hp : PageRun s n rcb leaf a 256)
    (hlive : Mem.num s.hbm (a + 0x50) 4 ≠ 0) : s.endAbort n rcb = s := by
  unfold State.endAbort
  rw [hp.rcbNum (by decide) (by decide) (by decide), if_neg (by simp [hlive])]

/-- Settles O38: acceptance and retirement by the launch's turn, and the end of an abort by what its write of STATE leaves. -/
theorem launchesAreAcceptedAndRetired : Obligations.LaunchesAreAcceptedAndRetired := by
  refine ⟨?_, ?_, ?_, ?_⟩
  · intro s ctx queue l before after free h hf hn
    rw [exec_launchAccept h]
    refine ⟨fun hov hprev => if_pos (by simpa [hov] using hprev), fun hnext => ?_⟩
    have hgo : (!l.overlap && s.launches.any (·.serial == l.prev)) = false := by
      rcases hnext with hov | hall
      · simp [hov]
      · have hany : s.launches.any (·.serial == l.prev) = false := List.any_eq_false.2 fun m hm => by simpa using hall m hm
        simp [hany]
    rw [hgo, if_neg Bool.false_ne_true, length_freeUnits hf hn]
    refine ⟨fun hc => if_pos hc, fun hc hlt => ?_, fun hc hle hm => ?_⟩
    · rw [hc, if_neg Bool.false_ne_true, if_pos hlt]
    · rw [hc, if_neg Bool.false_ne_true, if_neg (by omega)]
      have hcs : Memory.wf (s.readRcbs l.ctx l.lrcb).csram = true := hm.2.1
      have hunit : ∀ u ∈ s.freeUnits.take l.csSz, UnitFree s u := fun u hu => mem_freeUnits.1 (List.mem_of_mem_take hu)
      refine ⟨_, _, rfl, rfl, ?_, rfl, ?_, (nodup_freeUnits s).sublist (List.take_sublist ..), hunit, fun h0 => if_neg h0,
        fun h0 hch => ?_, fun cluster u off hu ho => ?_, fun cluster u off hu hnot ho => ?_, rfl, rfl, rfl⟩
      · rw [← h.2.1.1]
      · rw [List.length_take, length_freeUnits hf hn, Nat.min_eq_left hle]
      · dsimp only
        rw [if_pos h0, effOf_readRcbs _ hch]
      · exact (read_zeroUnits hcs _ (hunit u hu).1 ho).trans (if_pos hu)
      · exact (read_zeroUnits hcs _ hu ho).trans (if_neg hnot)
  · intro s l h ha hc hd
    rw [exec_launchRetire h ha, hc, if_neg Bool.false_ne_true, hd]
    refine ⟨fun hleft => if_neg fun hall => ?_, fun hp hn hw => ?_⟩
    · simp only [Bool.not_false, Bool.true_and, Bool.and_eq_true] at hall
      obtain ⟨⟨hp, hn⟩, _⟩ := hall
      rw [passed_all] at hp
      rw [List.all_eq_true] at hn
      rcases hleft with ⟨d, hd⟩ | ⟨x, hx, hxd⟩
      · exact Bool.false_ne_true (hd.symm.trans (hp d))
      · exact Bool.false_ne_true (hxd.symm.trans (hn x hx))
    · have hgo : (!false && l.passed.toList.all (·) && l.nodes.all (·.done) && !s.walksFull 0) = true := by
        rw [passed_all.2 hp, List.all_eq_true.2 hn, hw]
        rfl
      rw [if_pos hgo]
      refine ⟨fun h0 => ?_, fun leaf a hm h0 hrun hA hD => ?_⟩
      · rw [writeDone_none h0]
        rfl
      · have hrun' := pageRun_of_runAt hrun
        obtain ⟨hnum, hout⟩ := hbm_writeDone hm.1 h0 hrun' hrun.2.1 hA hD
        obtain ⟨hl, hcur, hoth⟩ := writeDone_frame h0 hrun' hrun.2.1
        exact ⟨_, rfl, hnum, hout, by rw [State.dropLaunch, hl], hcur, hoth⟩
  · intro s l h ha hc
    rw [exec_launchRetire h ha, if_pos hc]
    exact if_congr (by simp [noTasks_iff]) rfl rfl
  · intro s ctx rcb leaf a hm h0 hrun hst
    have hp := pageRun_of_runAt hrun
    rw [exec_abortComplete]
    refine ⟨fun hlive => congrArg _ (endAbort_waits hp hlive), fun hlive hkeep => ⟨_, rfl, ?_⟩⟩
    rw [endAbort_ends hp hst hlive]
    have hsame := hbmWrite_same s (a + 0x0B) (leBytes 1 2)
    have hhbm : (s.hbmWrite (a + 0x0B) (leBytes 1 2)).hbm = Mem.setNum s.hbm (a + 0x0B) 1 2 := hbmWrite_leBytes_hbm ..
    have hout : ∀ z, z ≠ a + 0x0B → Mem.read (s.hbmWrite (a + 0x0B) (leBytes 1 2)).hbm z = Mem.read s.hbm z := fun z hz => by
      rw [hhbm, read_setNum_outside hm.1 (by omega)]
    have hself : Mem.num (s.hbmWrite (a + 0x0B) (leBytes 1 2)).hbm (a + 0x0B) 1 = 2 := by
      rw [hhbm, num_setNum_self hm.1]
      rfl
    generalize s.hbmWrite (a + 0x0B) (leBytes 1 2) = t at hsame hout hself ⊢
    have hstate : t.rcbState ctx rcb = 2 := by
      have hp' : PageRun t ctx rcb leaf a 256 := hp.congr (lookup_of_tablesKeep hkeep hsame.ctxs hout)
      rw [State.rcbState, hp'.rcbNum (by decide) (by decide) (by decide), hself]
    dsimp only
    rw [hsame.launches]
    refine ⟨?_, hout, fun l hl => List.mem_of_mem_filter hl, fun l hl hother => List.mem_filter.2 ⟨hl, ?_⟩,
      fun l hl hac hctx hrcb hno hin => ?_, hsame.cur, hsame.others⟩
    · rw [← num_one, hself]
      rfl
    · rcases hother with hna | hne
      · simp [hna]
      · simp [hne]
    · have hdown : t.chainDown ctx l.lrcb l.image = true :=
        List.any_eq_true.2 ⟨rcb, hrcb ▸ mem_ancestry_self t ctx l.image (hrcb ▸ h0), by rw [hstate]; rfl⟩
      have htasks : t.tasks = s.tasks := by rw [State.tasks, hsame.cur, hsame.others]; rfl
      have hnone : t.noTasks l = true := noTasks_iff.2 (by rw [htasks, hctx]; exact hno)
      have hp := (List.mem_filter.1 hin).2
      rw [hac, hctx, hdown, hnone] at hp
      simp at hp

end Sys2Proof.Machine
end

section
namespace Sys2Proof.Machine

/-! ## Entering a ready pool (R45, R319) -/

/-- The scalar registers of a task before it first runs (R45). -/
theorem initialRegs_s (arg : Word) (r : SReg) :
    (initialRegs arg).s.get r.toFin = if r = 2 then arg else if r = 3 then 0x10000 else 0 := by
  have h : (initialRegs arg).s = ((({} : Regs).s.set 2 arg).set 3 0x10000) := rfl
  have hr : ∀ k : SReg, k.toNat = r.toNat ↔ r = k := fun k => ⟨fun h => BitVec.eq_of_toNat_eq h.symm, fun h => by rw [h]⟩
  have h3 : 3 = r.toNat ↔ r = 3 := hr 3
  have h2 : 2 = r.toNat ↔ r = 2 := hr 2
  have hget : ((initialRegs arg).s)[r.toNat]'r.isLt = if 3 = r.toNat then 0x10000 else if 2 = r.toNat then arg else 0 := by
    simp only [h, Vector.getElem_set, Vector.getElem_replicate]
  refine hget.trans ?_
  by_cases e3 : r = 3
  · rw [if_pos (h3.2 e3), e3]
    rfl
  · rw [if_neg (h3.not.2 e3)]
    by_cases e2 : r = 2
    · rw [if_pos (h2.2 e2), if_pos e2]
    · rw [if_neg (h2.not.2 e2), if_neg e2, if_neg e3]

theorem initialRegs_rest (arg : Word) : initialRegs arg = { ({} : Regs) with s := (initialRegs arg).s } := rfl

/-- What is known of RCBs has no part in the contexts' traces. -/
theorem knowRcb_untraced {s : State} (h : s.Untraced) (n : Nat) (rcb : Word) (im : Option Image) : (s.knowRcb n rcb im).Untraced := by
  refine ⟨fun c hc => ?_, h.2⟩
  unfold State.knowRcb at hc
  rw [State.modCtx_ctxs] at hc
  obtain ⟨d, hd, rfl⟩ := List.mem_map.1 hc
  split
  · exact h.1 d hd
  · exact h.1 d hd

/-- A task enters a pool that has a free entry (R319). -/
theorem enqueue_enters {s : State} {p : PoolEntry} {k : Nat} (hk : s.freeIndex p.die.toNat = some k) :
    ∃ t new, s.enqueue p = some t ∧ t.cur = s.cur ∧ t.others = s.others ++ [new] ∧ t.launches = s.launches ∧ t.clq = s.clq ∧
      (s.Untraced → t.Untraced) ∧ Entered s new p.die k p.ctx p.tpl p.entry p.spp p.rcb p.args.toList ∧
      new.pool = { p with index := k, entered := s.now } := by
  unfold State.enqueue
  rw [hk]
  dsimp only
  generalize s.poolImage p = im
  have hsame := fun u : State => live_same u p.ctx p.rcb true im
  refine ⟨_, _, rfl, (hsame _).cur, (hsame _).others, (hsame _).launches, (hsame _).clq, fun h => ?_, ?_, rfl⟩
  · have hk := fun o b => knowRcb_untraced (s := { s with others := o, backing := b }) h p.ctx p.rcb im
    exact ⟨by rw [(hsame _).ctxs]; exact (hk _ _).1, by rw [(hsame _).cur]; exact (hk _ _).2⟩
  · have hargs : p.args.toList.getD 0 0 = p.args.get 0 := by
      rw [List.getD_eq_getElem _ _ (by simp)]
      rfl
    refine ⟨rfl, rfl, rfl, rfl, rfl, rfl, rfl, rfl, rfl, rfl, rfl, rfl, rfl, fun r => ?_, initialRegs_rest _, rfl, fun k => ?_⟩
    · rw [hargs]
      exact initialRegs_s _ r
    · cases k <;> exact ⟨rfl, rfl⟩

/-! ## Nodes (R34, R46) -/

section EnterNode
variable {s : State} {l : Launch} {i pos k : Nat} {x : Node} {entry rcb trcb : Word} {spp : Nat}

theorem getD_of_getElem? (h : l.nodes[i]? = some x) : l.nodes.getD i {} = x := by
  rw [List.getD_eq_getElem?_getD, h]
  rfl

theorem enterNode_full (hx : l.nodes[i]? = some x) (hk : s.freeIndex x.owner.toNat = none) : s.enterNode l i pos = .full := by
  unfold State.enterNode
  rw [getD_of_getElem? hx]
  dsimp only
  rw [hk]

/-- The entry of a node in its owner's pool (R46). -/
def nodeEntry (l : Launch) (i pos : Nat) (x : Node) (entry : Word) (spp : Nat) (rcb : Word) : PoolEntry :=
  { die := x.owner, ctx := l.ctx, tpl := x.tpl, entry, spp, rcb, ttbl := l.lttbl, queue := l.queue,
    args := #v[x.arg0, x.arg1, l.nodeVa i, BitVec.ofNat 64 i], node := BitVec.ofNat 32 i, nodeVa := l.nodeVa i,
    serial := l.serial, dist := x.dist, pos }

theorem enterNode_valid (hx : l.nodes[i]? = some x) (hk : s.freeIndex x.owner.toNat = some k)
    (ht : s.template l.ctx l.lttbl x.tpl = some (entry, spp, true, trcb)) (hr : (if trcb = 0 then l.lrcb else trcb) = rcb) :
    s.enterNode l i pos = if s.chainAborted l.ctx rcb l.image then .out s else
      match s.enqueue (nodeEntry l i pos x entry spp rcb) with
      | some s => .into s
      | none => .full := by
  unfold State.enterNode
  rw [getD_of_getElem? hx]
  dsimp only
  rw [hk, ht]
  dsimp only
  rw [hr]
  rfl

theorem enterNode_invalid (hx : l.nodes[i]? = some x) (hk : s.freeIndex x.owner.toNat = some k)
    (ht : s.template l.ctx l.lttbl x.tpl = some (entry, spp, false, trcb)) :
    ∃ bs, bs.head? = some 0x39 ∧ s.enterNode l i pos = .out ((s.logFault l.ctx l.lrcb bs l.image).1.abortDomain l.ctx l.lrcb l.image) := by
  refine ⟨_, head?_plainRecord s l.ctx l.lrcb fcLaunch x.tpl.toNat (l.nodeVa i).toNat 0 0 i, ?_⟩
  unfold State.enterNode
  rw [getD_of_getElem? hx]
  dsimp only
  rw [hk, ht]

/-- A node whose template is valid enters its owner's pool with its arguments and identity (R46). -/
theorem enterNode_enters (hx : l.nodes[i]? = some x) (hk : s.freeIndex x.owner.toNat = some k)
    (ht : s.template l.ctx l.lttbl x.tpl = some (entry, spp, true, trcb)) (hr : (if trcb = 0 then l.lrcb else trcb) = rcb)
    (ha : s.chainAborted l.ctx rcb l.image = false) :
    ∃ t new, s.enterNode l i pos = .into t ∧ t.cur = s.cur ∧ t.others = s.others ++ [new] ∧ t.launches = s.launches ∧ t.clq = s.clq ∧
      (s.Untraced → t.Untraced) ∧
      Entered s new x.owner k l.ctx x.tpl entry spp rcb [x.arg0, x.arg1, l.nodeTbl + BitVec.ofNat 64 (64 * i), BitVec.ofNat 64 i] ∧
      new.pool = { nodeEntry l i pos x entry spp rcb with index := k, entered := s.now } := by
  obtain ⟨t, new, ht', hrest⟩ := enqueue_enters (p := nodeEntry l i pos x entry spp rcb) hk
  refine ⟨t, new, ?_, hrest⟩
  rw [enterNode_valid hx hk ht hr, ha, if_neg Bool.false_ne_true, ht']

end EnterNode

/-! ## The acceptance cursors (R314, R321) -/

theorem hasNext_iff {s : State} {die : BitVec 2} {l : Launch} :
    (l.accepted && !l.dead && !s.chainAborted l.ctx l.lrcb l.image && !(l.cursor.get die.toFin).isEmpty) = true ↔ HasNext s die l := by
  simp [HasNext, and_assoc]

theorem nextCursor_of_first {s : State} {die : BitVec 2} {l : Launch} {before after : List Launch}
    (h : FirstLaunch s (HasNext s die) before after l) : s.nextCursor die = some l :=
  firstLaunch_find? h fun _ => hasNext_iff

theorem exec_cursorEnqueue {s : State} {die : BitVec 2} {l : Launch} {i : Nat} {rest : List Nat} (h : s.nextCursor die = some l)
    (hc : l.cursor.get die.toFin = i :: rest) :
    exec (.cursorEnqueue die) s =
      if s.freeEntries die ≤ s.drainsFirst die then .next s else
      match s.enterNode l i 1 with
      | .full => .next s
      | .out s => .next (s.modLaunch l.serial fun x => { x with cursor := x.cursor.set die.toNat rest die.isLt })
      | .into s => .next (s.modLaunch l.serial fun x => { x with cursor := x.cursor.set die.toNat rest die.isLt }) := by
  show execCursorEnqueue die s = _
  unfold execCursorEnqueue
  rw [h]
  dsimp only
  rewrite [hc]
  rfl

theorem cursorsEnterTheirNodes : CursorsEnterTheirNodes := by
  intro s die l before after i rest x hl hc hx hown
  dsimp only
  subst hown
  rw [exec_cursorEnqueue (nextCursor_of_first hl) hc]
  refine ⟨fun hfull => ?_, fun k entry spp trcb valid hk hroom ht => ?_⟩
  · by_cases hroom : s.freeEntries x.owner ≤ s.drainsFirst x.owner
    · exact if_pos hroom
    · rw [if_neg hroom, enterNode_full hx (hfull.resolve_right hroom)]
  rw [if_neg (Nat.not_le.2 hroom)]
  refine ⟨fun hv ha => ?_, fun hv ha => ?_, fun hv => ?_⟩
  · subst hv
    rw [enterNode_valid hx hk ht rfl, if_pos ha]
    rfl
  · subst hv
    obtain ⟨t, new, hinto, hcur, hoth, hlaunch, -, -, hent, hpool⟩ := enterNode_enters (pos := 1) hx hk ht rfl ha
    rw [hinto]
    refine ⟨_, new, rfl, hcur, hoth, ?_, hent, ?_⟩
    · rw [← hlaunch]
      rfl
    · rw [hpool]
      exact ⟨rfl, rfl, rfl, rfl, rfl, rfl⟩
  · subst hv
    obtain ⟨bs, hbs, hout⟩ := enterNode_invalid (pos := 1) hx hk ht
    rw [hout]
    exact ⟨bs, _, hbs, rfl, rfl⟩

/-! ## Continuation launch queues (R277, R279) -/

theorem oldestSlot_find? {s : State} {home : Nat} {c : ClqSlot} (h : OldestSlot s home c) : s.clq.find? (·.home == home) = some c := by
  obtain ⟨hh, before, after, hs, hb⟩ := h
  rw [hs, List.find?_append, List.find?_eq_none.2 fun x hx => by simpa using hb x hx, List.find?_cons, beq_iff_eq.2 hh]
  rfl

/-- What the drain of a home's oldest slot leaves when nothing is traced. -/
theorem exec_clqDrain {s : State} {home : Nat} {c : ClqSlot} (h : OldestSlot s home c) :
    exec (.clqDrain home) s =
      match s.drainSlot c with
      | .stay => .next s
      | .drop => .next (s.dropSlot c)
      | .fail tpl => .next (s.failSlot c tpl)
      | .out s' => .next (s'.dropSlot c)
      | .enter s' tpl node task =>
        match s'.occur c.ctx (c.event tpl node task) with
        | none => .next s
        | some s'' => .next (s''.dropSlot c) := by
  show execClqDrain home s = _
  unfold execClqDrain
  rewrite [oldestSlot_find? h]
  rfl

/-- With nothing traced, the drain of a slot is no event that waits. -/
theorem exec_clqDrain_enter {s t : State} {home tpl node : Nat} {c : ClqSlot} {task : Word} (h : OldestSlot s home c)
    (hd : s.drainSlot c = .enter t tpl node task) (hu : t.Untraced) : exec (.clqDrain home) s = .next (t.dropSlot c) := by
  rw [exec_clqDrain h, hd]
  dsimp only
  rw [occur_untraced _ _ (hu.trace _)]

theorem entryFor_args (c : ClqSlot) (tpl : BitVec 10) (entry : Word) (spp : Nat) (trcb : Word) :
    (c.entryFor tpl entry spp trcb).args.toList = [c.old, c.va, BitVec.ofNat 64 c.user.toNat, BitVec.ofNat 64 c.issuerNode.toNat] := by
  have hw : ∀ x : BitVec 32, x.setWidth 64 = BitVec.ofNat 64 x.toNat := fun x => (BitVec.ofNat_toNat 64 x).symm
  show [c.old, c.va, c.user.setWidth 64, c.issuerNode.setWidth 64] = _
  rw [hw, hw]

section Continuation
variable {s : State} {c : ClqSlot} {tpl : BitVec 10}

theorem drainSlot_full (hc : c.tpl = some tpl) (hk : s.freeIndex c.die.toNat = none) : s.drainSlot c = .stay := by
  unfold State.drainSlot
  rw [hc]
  dsimp only
  rw [hk]
  rfl

theorem drainSlot_continuation {k spp : Nat} {entry trcb : Word} {valid : Bool} (hc : c.tpl = some tpl)
    (hk : s.freeIndex c.die.toNat = some k) (ht : s.template c.ctx c.ttbl tpl = some (entry, spp, valid, trcb)) :
    s.drainSlot c =
      if valid = false ∨ s.chainAborted c.ctx (if trcb = 0 then c.issuerRcb else trcb) = true ∨
        (s.spent c.ctx (if trcb = 0 then c.issuerRcb else trcb) c.die.toNat).isSome = true then .fail tpl
      else match s.enqueue (c.entryFor tpl entry spp trcb) with
      | some t => .enter t tpl.toNat (c.entryFor tpl entry spp trcb).node.toNat ({ pool := c.entryFor tpl entry spp trcb } : Task).register
      | none => .stay := by
  unfold State.drainSlot
  rw [hc]
  dsimp only
  rw [hk, ht]
  cases valid with
  | false => rfl
  | true =>
    have hrcb : (c.entryFor tpl entry spp trcb).rcb = if trcb = 0 then c.issuerRcb else trcb := rfl
    simp only [hrcb, Option.isNone_some, Bool.false_eq_true, if_false, Bool.or_eq_true, reduceCtorEq, false_or] <;> rfl

theorem failSlot_records (s : State) (c : ClqSlot) (tpl : BitVec 10) :
    ∃ bs, bs.head? = some 0x39 ∧ s.failSlot c tpl =
      ({ (s.logFault c.ctx c.issuerRcb bs).1 with clq := withoutSlot s c } : State).abortDomain c.ctx c.issuerRcb := by
  refine ⟨_, head?_plainRecord s c.ctx c.issuerRcb fcLaunch tpl.toNat c.va.toNat c.old.toNat c.user.toNat c.issuerNode.toNat, ?_⟩
  unfold State.failSlot State.dropSlot
  dsimp only
  rw [(logFault_same ..).clq]
  rfl

end Continuation

theorem continuationsEnter : ContinuationsEnter := by
  intro s home c tpl hu hold hc
  refine ⟨fun hk => ?_, fun k entry spp trcb hk ht => ?_, fun k entry spp trcb valid hk ht => ?_⟩
  · rw [exec_clqDrain hold, drainSlot_full hc hk]
  · intro rcb ha hspent
    obtain ⟨t, new, hent, hcur, hoth, -, hclq, hut, henters, hpool⟩ := enqueue_enters (p := c.entryFor tpl entry spp trcb) hk
    have hd := drainSlot_continuation hc hk ht
    have hgo : ¬(true = false ∨ s.chainAborted c.ctx rcb = true ∨ (s.spent c.ctx rcb c.die.toNat).isSome = true) := by
      simp [ha, hspent]
    rw [if_neg hgo, hent] at hd
    rw [entryFor_args] at henters
    refine ⟨_, new, exec_clqDrain_enter hold hd (hut hu), hcur, hoth, ?_, henters, ?_⟩
    · rw [withoutSlot, ← hclq]
      rfl
    · rw [hpool]
      exact ⟨rfl, rfl, rfl⟩
  · intro rcb hfail
    obtain ⟨bs, hbs, h⟩ := failSlot_records s c tpl
    refine ⟨bs, hbs, ?_⟩
    rw [exec_clqDrain hold, drainSlot_continuation hc hk ht, if_pos hfail]
    exact congrArg _ h

/-! ## Decremented nodes (R279, R312, R315) -/

section Decremented
variable {s : State} {c : ClqSlot} {l : Launch} {x : Node}

theorem drainSlot_node (hc : c.tpl = none) (hl : TheLaunch s l) (hs : c.serial = l.serial) (ha : l.accepted = true) (hd : l.dead = false)
    (hch : s.chainAborted l.ctx l.lrcb l.image = false) (hx : l.nodes[c.user.toNat]? = some x) :
    s.drainSlot c =
      if !l.passed.get (BitVec.ofNat 2 (c.home / 64)).toFin || !l.passed.get x.owner.toFin then .stay else
      match s.enterNode l c.user.toNat 0 with
      | .full => .stay
      | .out s' => .out s'
      | .into s' => .enter s' 0x3FF c.user.toNat ((0 : BitVec 16) ++ l.queue ++ x.tpl ++ c.user) := by
  have hf : s.launches.find? (fun m => m.serial == c.serial && m.accepted && !m.dead) = some l :=
    find?_eq_some_of_unique hl.1 (by simp [hs, ha, hd]) fun m hm hp =>
      hl.2 m hm (by simpa [hs] using (Bool.and_eq_true_iff.1 (Bool.and_eq_true_iff.1 hp).1).1)
  unfold State.drainSlot
  rw [hc]
  dsimp only
  rw [hf]
  dsimp only
  rewrite [hch, if_neg Bool.false_ne_true, getD_of_getElem? hx]
  rfl

end Decremented

theorem decrementedNodesEnter : DecrementedNodesEnter := by
  intro s home c l x hu hold hc hl hs ha hd hch _ hx passed
  have hdrain := drainSlot_node hc hl hs ha hd hch hx
  have hhome : c.home = home := hold.1
  rw [hhome] at hdrain
  have hcond : ∀ a b : Bool, (!a || !b) = true ↔ ¬(a = true ∧ b = true) := by decide
  have hopen : passed → s.drainSlot c = _ := fun hp => hdrain.trans (if_neg fun hn => (hcond _ _).1 hn hp)
  refine ⟨fun hp => ?_, fun hp hk => ?_, fun k entry spp trcb hp hk ht => ⟨fun hab => ?_, fun hab => ?_⟩⟩
  · rw [exec_clqDrain hold, hdrain, if_pos ((hcond _ _).2 hp)]
  · rw [exec_clqDrain hold, hopen hp, enterNode_full hx hk]
  · rw [exec_clqDrain hold, hopen hp, enterNode_valid hx hk ht rfl, if_pos hab]
    rfl
  · obtain ⟨t, new, hinto, hcur, hoth, -, hclq, hut, hent, hpool⟩ := enterNode_enters (pos := 0) hx hk ht rfl hab
    have hdr := hopen hp
    rw [hinto] at hdr
    refine ⟨_, new, exec_clqDrain_enter hold hdr (hut hu), hcur, hoth, ?_, hent, ?_⟩
    · rw [withoutSlot, ← hclq]
      rfl
    · rw [hpool]
      exact ⟨rfl, by simp [nodeEntry], rfl⟩

/-- Settles O40: the cursors, the continuation launch queues and the decremented nodes, each by what a pool's entry takes. -/
theorem nodesAndContinuationsEnterPools : Obligations.NodesAndContinuationsEnterPools :=
  ⟨cursorsEnterTheirNodes, continuationsEnter, decrementedNodesEnter⟩

end Sys2Proof.Machine
end

section
namespace Sys2Proof.Machine

/-! ## Commands of a context (R461, R464) -/

/-- The step that a command's end makes. -/
def Done.answer (s : State) (c : Cmd) : Done → Host.Outcome State Fault Refusal
  | .wait s => .next s
  | .ok s r st => .next (s.reply c st r)
  | .bad st r => .next (s.reply c st r)

theorem Done.answer_ite (s : State) (c : Cmd) (p : Prop) [Decidable p] (x y : Done) :
    (if p then x else y).answer s c = if p then x.answer s c else y.answer s c := apply_ite ..

/-- A command on a context of its function is answered as its body says. -/
theorem onContext_due {s : State} {c : Cmd} {k : Ctx} (h : CommandOn s c k) (body : Ctx → State → Done) :
    onContext c body s = (body k s).answer s c := by
  obtain ⟨hdue, hk, hfn⟩ := h
  have hw : s.commandWaits c.fn.toNat = true := hdue
  unfold onContext command
  rw [hw]
  simp only [Bool.not_true, Bool.false_eq_true, if_false]
  rw [hk]
  dsimp only
  rw [if_pos hfn]
  cases body k s <;> rfl

/-! ## Wait graphs (R51) -/

/-- An edge that outlives prunings follows as many others: as many vertices of lower rank. -/
theorem lower_of_pruned {rank : Nat → Nat} : ∀ (k m : Nat) (es : List (Nat × Nat)), (∀ e ∈ es, rank e.1 < rank e.2) →
    (∀ e ∈ es, ∃ V : Finset Nat, V ⊆ Finset.range 32 ∧ m ≤ V.card ∧ ∀ v ∈ V, rank v ≤ rank e.1) → (∀ e ∈ es, e.1 < 32) →
    ∀ e ∈ pruneEdges k es, ∃ V : Finset Nat, V ⊆ Finset.range 32 ∧ m + k ≤ V.card ∧ ∀ v ∈ V, rank v ≤ rank e.1
  | 0, _, _, _, hV, _ => hV
  | k + 1, m, es, hr, hV, hlt => by
    have hsub : ∀ e ∈ es.filter (fun e => es.any fun f => f.2 == e.1), e ∈ es := fun e he => List.mem_of_mem_filter he
    have hmore : ∀ e ∈ es.filter (fun e => es.any fun f => f.2 == e.1),
        ∃ V : Finset Nat, V ⊆ Finset.range 32 ∧ m + 1 ≤ V.card ∧ ∀ v ∈ V, rank v ≤ rank e.1 := by
      intro e he
      obtain ⟨hes, hany⟩ := List.mem_filter.1 he
      obtain ⟨f, hf, hfe⟩ := List.any_eq_true.1 hany
      obtain ⟨V, hsubV, hcard, hle⟩ := hV f hf
      have hup : rank f.1 < rank e.1 := by simpa [beq_iff_eq.1 hfe] using hr f hf
      have hnew : e.1 ∉ V := fun hin => absurd (hle _ hin) (by omega)
      refine ⟨insert e.1 V, Finset.insert_subset (Finset.mem_range.2 (hlt e hes)) hsubV, ?_, fun v hv => ?_⟩
      · rw [Finset.card_insert_of_notMem hnew]
        omega
      · rcases Finset.mem_insert.1 hv with rfl | hv
        · exact le_rfl
        · exact (hle v hv).trans hup.le
    have h := lower_of_pruned k (m + 1) _ (fun e he => hr e (hsub e he)) hmore fun e he => hlt e (hsub e he)
    rwa [show m + (k + 1) = m + 1 + k by omega]

/-- A wait graph whose edges all rise has no cycle. -/
theorem acyclic_of_rank {es : List (Nat × Nat)} {rank : Nat → Nat} (hr : ∀ e ∈ es, rank e.1 < rank e.2) (hlt : ∀ e ∈ es, e.1 < 32) :
    acyclic es = true := by
  rw [acyclic, List.isEmpty_iff]
  refine List.eq_nil_iff_forall_not_mem.2 fun e he => ?_
  obtain ⟨V, hsub, hcard, _⟩ := lower_of_pruned 33 1 es hr
    (fun e he => ⟨{e.1}, by simpa using hlt e he, by simp, fun v hv => by rw [Finset.mem_singleton.1 hv]⟩) hlt e he
  have hle := Finset.card_le_card hsub
  rw [Finset.card_range] at hle
  omega

/-- The edges of an endless walk that no pruning removes. -/
theorem walk_of_pruned {p : Nat → Nat} : ∀ (k m : Nat) (es : List (Nat × Nat)), (∀ n, m ≤ n → (p n, p (n + 1)) ∈ es) →
    ∀ n, m + k ≤ n → (p n, p (n + 1)) ∈ pruneEdges k es
  | 0, _, _, h, n, hn => h n hn
  | k + 1, m, es, h, n, hn => by
    refine walk_of_pruned k (m + 1) _ (fun i hi => List.mem_filter.2 ⟨h i (by omega), ?_⟩) n (by omega)
    obtain ⟨j, rfl⟩ : ∃ j, i = j + 1 := ⟨i - 1, by omega⟩
    exact List.any_eq_true.2 ⟨_, h j (by omega), beq_self_eq_true _⟩

/-- A wait graph with an endless walk has a cycle. -/
theorem not_acyclic_of_walk {es : List (Nat × Nat)} {p : Nat → Nat} (h : ∀ n, (p n, p (n + 1)) ∈ es) : acyclic es = false := by
  have hmem := walk_of_pruned 33 0 es (fun n _ => h n) 33 le_rfl
  rw [acyclic, List.isEmpty_eq_false_iff]
  exact List.ne_nil_of_mem hmem

/-! ## The record of a registration (R469) -/

theorem toNat_append_bytes (hi lo : Byte) : (hi ++ lo : BitVec 16).toNat = 256 * hi.toNat + lo.toNat := by
  rw [BitVec.toNat_append, ← Nat.shiftLeft_add_eq_or_of_lt lo.isLt, Nat.shiftLeft_eq]
  ring

/-- The bits of an edge's bytes that must be zero. -/
theorem edge_reserved {lo hi : Byte} : ((hi ++ lo : BitVec 16) &&& 0xE0E0 != 0) = true ↔ 32 ≤ hi.toNat ∨ 32 ≤ lo.toNat := by
  have hbyte : ∀ b : Byte, (b &&& 0xE0).toNat = 0 ↔ b.toNat < 32 := by decide
  have hmask : (0xE0E0 : BitVec 16) = (0xE0#8 ++ 0xE0#8 : BitVec 16) := by decide
  have hzero : ((hi ++ lo : BitVec 16) &&& 0xE0E0) = 0 ↔ 256 * (hi &&& 0xE0).toNat + (lo &&& 0xE0).toNat = 0 := by
    rw [hmask, BitVec.and_append, ← toNat_append_bytes]
    exact ⟨fun h => congrArg BitVec.toNat h, fun h => BitVec.eq_of_toNat_eq h⟩
  have h1 := hbyte hi
  have h2 := hbyte lo
  rw [bne_iff_ne, ne_eq, hzero]
  omega

theorem edge_parts {lo hi : Byte} (h1 : hi.toNat < 32) (h2 : lo.toNat < 32) :
    (((hi ++ lo : BitVec 16).extractLsb' 8 5).toNat, ((hi ++ lo : BitVec 16).extractLsb' 0 5).toNat) = (hi.toNat, lo.toNat) := by
  rw [BitVec.extractLsb'_toNat, BitVec.extractLsb'_toNat, toNat_append_bytes, Nat.shiftRight_eq_div_pow, Nat.shiftRight_eq_div_pow]
  refine Prod.ext ?_ ?_
  · dsimp only
    omega
  · dsimp only
    omega

/-- An edge as memory holds it. -/
theorem edgesOf_readN (m : Mem) (a count : Nat) : edgesOf (Mem.readN m a (2 * count)) =
    (List.range count).map fun j => (Mem.read m (a + 2 * j + 1) ++ Mem.read m (a + 2 * j) : BitVec 16) := by
  rw [edgesOf, length_readN, Nat.mul_div_cancel_left _ (by decide)]
  refine List.map_congr_left fun j hj => ?_
  have hj := List.mem_range.1 hj
  rw [fieldAt_readN (by omega)]
  refine BitVec.eq_of_toNat_eq ?_
  have hlo := (Mem.read m (a + 2 * j)).isLt
  have hhi := (Mem.read m (a + 2 * j + 1)).isLt
  rw [toNat_append_bytes, BitVec.toNat_ofNat, show (16 + 7) / 8 = 1 + 1 from rfl, num_add, ← toNat_read, ← toNat_read]
  omega

/-! ## The entry of a template (R36, R470) -/

/-- The bytes of an entry before TFLAGS are written. -/
def templateFields (entry trcb : Word) (spp : Byte) : List (Nat × Nat × Nat) :=
  [(0, 8, entry.toNat), (8, 1, spp.toNat), (0x10, 8, trcb.toNat)]

theorem templateFields_nums (entry trcb : Word) (spp : Byte) :
    Mem.num (recordMem (templateFields entry trcb spp)) 0 8 = entry.toNat ∧
    Mem.num (recordMem (templateFields entry trcb spp)) 8 2 = spp.toNat ∧
    Mem.num (recordMem (templateFields entry trcb spp)) 0x10 8 = trcb.toNat := by
  have hnil : Memory.wf [] = true := rfl
  have h1 := wf_setNum [] 0 8 entry.toNat hnil
  have h2 := wf_setNum _ 8 1 spp.toNat h1
  have hrec : recordMem (templateFields entry trcb spp) =
      Mem.setNum (Mem.setNum (Mem.setNum [] 0 8 entry.toNat) 8 1 spp.toNat) 0x10 8 trcb.toNat := by
    simp only [recordMem, templateFields, List.foldl_cons, List.foldl_nil]
  rw [hrec]
  refine ⟨?_, ?_, ?_⟩
  · rw [num_setNum_outside h2 (.inl (by decide)), num_setNum_outside h1 (.inl (by decide)), num_setNum_of_lt hnil (word_lt entry)]
  · have hnext : Mem.num (Mem.setNum (Mem.setNum [] 0 8 entry.toNat) 8 1 spp.toNat) (8 + 1) 1 = 0 := by
      rw [num_setNum_outside h1 (.inr (by decide)), num_setNum_outside hnil (.inr (by decide))]
      rfl
    rw [num_setNum_outside h2 (.inl (by decide)), num_add _ 1 8 1, hnext, num_setNum_of_lt h1 (byte_lt spp), Nat.mul_zero, Nat.add_zero]
  · exact num_setNum_of_lt h2 (word_lt trcb)

/-- A template's entry after its two writes, and what they leave of HBM and of the tasks (R470). -/
theorem writeTemplate_writes {s : State} {n a : Nat} {va leaf entry trcb : Word} {spp : Byte} {valid : Bool} (hm : Memory.wf s.hbm = true)
    (hp : PageRun s n va leaf a 32) (hkeep : TablesKeep s n fun z => a ≤ z ∧ z < a + 32) :
    let t := s.writeTemplate n va entry trcb spp valid
    Mem.num t.hbm a 8 = entry.toNat ∧ Mem.num t.hbm (a + 8) 2 = spp.toNat ∧ Mem.num t.hbm (a + 0x0A) 2 = (if valid then 3 else 0) ∧
      Mem.num t.hbm (a + 0x10) 8 = trcb.toNat ∧ (∀ z, z < a ∨ a + 32 ≤ z → Mem.read t.hbm z = Mem.read s.hbm z) ∧
      t.cur = s.cur ∧ t.others = s.others := by
  have hl : (record 32 (templateFields entry trcb spp)).length = 32 := length_record ..
  have hslice := fun off k (h : off + k ≤ 32) => leNat_record_slice (templateFields entry trcb spp) h
  obtain ⟨he, hs, ht⟩ := templateFields_nums entry trcb spp
  have h1 : s.writeVia n va (record 32 (templateFields entry trcb spp)) = s.hbmWrite a (record 32 (templateFields entry trcb spp)) :=
    PageRun.writeVia (by rw [hl]; exact hp) (by rw [hl]; decide)
  have hhbm := hbmWrite_hbm s a (record 32 (templateFields entry trcb spp))
  have hwf := wf_writeN (record 32 (templateFields entry trcb spp)) s.hbm a hm
  have hout : ∀ z, ¬(a ≤ z ∧ z < a + 32) →
      Mem.read (s.hbmWrite a (record 32 (templateFields entry trcb spp))).hbm z = Mem.read s.hbm z := fun z hz => by
    rw [hhbm, read_writeN_outside hm (by rw [hl]; omega)]
  have hp' := hp.congr (lookup_of_tablesKeep hkeep (hbmWrite_same s a (record 32 (templateFields entry trcb spp))).ctxs hout)
  have h2 : s.writeTemplate n va entry trcb spp valid =
      (s.hbmWrite a (record 32 (templateFields entry trcb spp))).hbmWrite (a + 0x0A) (leBytes 2 (if valid then 3 else 0)) := by
    show (s.writeVia n va (record 32 (templateFields entry trcb spp))).writeVia n (va + 0x0A) (leBytes 2 (if valid then 3 else 0)) = _
    rw [h1]
    exact PageRun.writeVia (by rw [length_leBytes]; exact hp'.sub (by decide) (by decide) (by decide)) (by rw [length_leBytes]; decide)
  dsimp only
  rw [h2, hbmWrite_leBytes_hbm, hhbm]
  refine ⟨?_, ?_, ?_, ?_, fun z hz => ?_, ?_, ?_⟩
  · have h0 := num_writeN_slice hm (a := a) (off := 0) (k := 8) (bs := record 32 (templateFields entry trcb spp)) (by rw [hl]; decide)
    rw [num_setNum_outside hwf (.inl (by omega)), ← he, ← hslice 0 8 (by decide), ← h0, Nat.add_zero]
  · rw [num_setNum_outside hwf (.inl (by omega)), num_writeN_slice hm (by rw [hl]; decide), hslice 8 2 (by decide), hs]
  · rw [num_setNum_self hwf]
    cases valid <;> rfl
  · rw [num_setNum_outside hwf (.inr (by omega)), num_writeN_slice hm (by rw [hl]; decide), hslice 16 8 (by decide), ht]
  · rw [read_setNum_outside hwf (by omega), read_writeN_outside hm (by rw [hl]; exact hz)]
  · rw [hbmWrite_cur, hbmWrite_cur]
  · rw [hbmWrite_others, hbmWrite_others]

end Sys2Proof.Machine
end

section
namespace Sys2Proof.Machine

/-! ## REGISTER_TEMPLATE (R36, R51, R469) -/

/-- What an entry's code must be: none, or aligned and executable. -/
def codeOk (s : State) (n : Nat) (entry : Word) : Bool :=
  entry == 0 || (entry.toNat % 32 == 0 && match s.lookup n entry with
    | .ok (leaf, _) => leafX leaf
    | .error _ => false)

theorem codeOk_iff {s : State} {n : Nat} {entry : Word} :
    codeOk s n entry = true ↔ entry = 0 ∨ (entry.toNat % 32 = 0 ∧ ∃ leaf, s.Maps n entry leaf ∧ leafX leaf = true) := by
  unfold codeOk State.Maps
  cases s.lookup n entry with
  | error e => simp
  | ok x => simp [Prod.ext_iff]

/-- The registration record of a valid template is kept. -/
def keepRecord (ttbl : Word) (index : Nat) (valid : Bool) (bs : List Byte) (k : Ctx) : Ctx :=
  let rest := k.records.filter fun r => r.1 != (ttbl, index)
  { k with records := if valid then insertRecord (ttbl, index) bs rest else rest }

/-- The answer of a registration by what its record holds. -/
theorem exec_registerTemplate {s : State} {c : Cmd} {k : Ctx} (ttbl : Word) (hk : CommandOn s c k) {h count : Nat} (hh : h = c.hbuf.toNat)
    (hc : count = Mem.num s.hostMem (h + 2) 2) (hsz : h + 24 + 2 * count < 2 ^ 64) :
      let index := Mem.num s.hostMem h 2
      let spp := Mem.read s.hostMem (h + 4)
      let entry : Word := BitVec.ofNat 64 (Mem.num s.hostMem (h + 8) 8)
      let trcb : Word := BitVec.ofNat 64 (Mem.num s.hostMem (h + 16) 8)
      let va := ttbl + BitVec.ofNat 64 (32 * index)
      let edges := edgesOf (Mem.readN s.hostMem (h + 24) (2 * count))
      let good := acyclic (edges.map fun e => ((e.extractLsb' 8 5).toNat, (e.extractLsb' 0 5).toNat))
      exec (.registerTemplate c ttbl) s =
        if ttbl.toNat % 32 ≠ 0 ∨ 1024 ≤ index ∨ 1024 < count ∨ spp = 0 ∨ 32 < spp.toNat ∨ Mem.num s.hostMem (h + 5) 3 ≠ 0 then
          .next (s.reply c 1 0)
        else if edges.any (fun e => e &&& 0xE0E0 != 0) || !codeOk s k.number entry || !s.writablePresent k.number va 32 then
          .next (s.reply c 1 0)
        else .next (((s.writeTemplate k.number va entry trcb spp (entry != 0 && good)).modCtx k.number
          (keepRecord ttbl index (entry != 0 && good) (Mem.readN s.hostMem h 24 ++ Mem.readN s.hostMem (h + 24) (2 * count)))).reply c
          (if good = true then 0 else 5) 0) := by
  have htail : (c.hbuf + 24).toNat = h + 24 := by
    rw [BitVec.toNat_add, ← hh, show (24 : Word).toNat = 24 from rfl]
    exact Nat.mod_eq_of_lt (by omega)
  have hidx : leNat ((Mem.readN s.hostMem h 24).take 2) = Mem.num s.hostMem h 2 := leNat_take_readN _ (by decide)
  have hcnt : leNat (((Mem.readN s.hostMem h 24).drop 2).take 2) = count := (leNat_readN_slice _ (by decide)).trans hc.symm
  have hspp : (Mem.readN s.hostMem h 24).getD 4 0 = Mem.read s.hostMem (h + 4) := getD_readN _ _ _ _ _ (by decide)
  have hres : leNat (((Mem.readN s.hostMem h 24).drop 5).take 3) = Mem.num s.hostMem (h + 5) 3 := leNat_readN_slice _ (by decide)
  have hent : (fieldAt 64 (Mem.readN s.hostMem h 24) 8 : Word) = BitVec.ofNat 64 (Mem.num s.hostMem (h + 8) 8) := fieldAt_readN (by decide)
  have htr : (fieldAt 64 (Mem.readN s.hostMem h 24) 16 : Word) = BitVec.ofNat 64 (Mem.num s.hostMem (h + 16) 8) := fieldAt_readN (by decide)
  show execRegisterTemplate c ttbl s = _
  unfold execRegisterTemplate
  rw [onContext_due hk]
  simp only [State.hostGet, htail, ← hh, hidx, hcnt, hspp, hres, hent, htr]
  rw [Done.answer_ite, Done.answer_ite]
  rfl

theorem badEdges_iff {s : State} {h count : Nat} :
    ((edgesOf (Mem.readN s.hostMem (h + 24) (2 * count))).any fun e => e &&& 0xE0E0 != 0) = true ↔
      ∃ j < count, 32 ≤ (recordEdge s h j).1 ∨ 32 ≤ (recordEdge s h j).2 := by
  rw [edgesOf_readN, List.any_map, List.any_eq_true]
  refine exists_congr fun j => ?_
  rw [List.mem_range, Function.comp, edge_reserved]
  rfl

theorem edges_eq {s : State} {h count : Nat} (hlt : ∀ j < count, (recordEdge s h j).1 < 32 ∧ (recordEdge s h j).2 < 32) :
    (edgesOf (Mem.readN s.hostMem (h + 24) (2 * count))).map (fun e => ((e.extractLsb' 8 5).toNat, (e.extractLsb' 0 5).toNat)) =
      (List.range count).map (recordEdge s h) := by
  rw [edgesOf_readN, List.map_map]
  refine List.map_congr_left fun j hj => ?_
  obtain ⟨h1, h2⟩ := hlt j (List.mem_range.1 hj)
  exact edge_parts h1 h2

/-- A run that may be written can be written through the context. -/
theorem writablePresent_run {s : State} {n : Nat} {va leaf : Word} {a len : Nat} (hp : PageRun s n va leaf a len) (hlen : 0 < len) :
    s.writablePresent n va len = leafW leaf := by
  obtain ⟨pa, -, hc⟩ := hp.ctxChunks hlen
  simp [State.writablePresent, hc]

/-- Whether a wait graph is one that REGISTER_TEMPLATE accepts, by a rank that rises along it or a walk that does not end. -/
theorem acyclic_edges {s : State} {h count : Nat} {st : BitVec 16} {valid : Bool} {entry : Word}
    (hlt : ∀ j < count, (recordEdge s h j).1 < 32 ∧ (recordEdge s h j).2 < 32)
    (hv : (st = 0 ∧ (valid = true ↔ entry ≠ 0) ∧ ∃ rank : Nat → Nat, ∀ j < count, rank (recordEdge s h j).1 < rank (recordEdge s h j).2) ∨
      (st = 5 ∧ valid = false ∧ ∃ p : Nat → Nat, ∀ n, ∃ j < count, recordEdge s h j = (p n, p (n + 1)))) :
    (entry != 0 && acyclic ((List.range count).map (recordEdge s h))) = valid ∧
      (if acyclic ((List.range count).map (recordEdge s h)) = true then 0 else 5) = st := by
  have hmem : ∀ e ∈ (List.range count).map (recordEdge s h), ∃ j < count, recordEdge s h j = e := fun e he => by
    simpa using he
  rcases hv with ⟨rfl, hv, rank, hr⟩ | ⟨rfl, rfl, p, hp⟩
  · have hac : acyclic ((List.range count).map (recordEdge s h)) = true := by
      refine acyclic_of_rank (rank := rank) (fun e he => ?_) fun e he => ?_
      · obtain ⟨j, hj, rfl⟩ := hmem e he
        exact hr j hj
      · obtain ⟨j, hj, rfl⟩ := hmem e he
        exact (hlt j hj).1
    rw [hac, if_pos rfl, Bool.and_true]
    refine ⟨?_, rfl⟩
    rw [Bool.eq_iff_iff, hv, bne_iff_ne]
  · have hac : acyclic ((List.range count).map (recordEdge s h)) = false := not_acyclic_of_walk (p := p) fun n => by
      obtain ⟨j, hj, he⟩ := hp n
      exact List.mem_map.2 ⟨j, List.mem_range.2 hj, he⟩
    rw [hac, Bool.and_false]
    exact ⟨rfl, rfl⟩

/-- A record with a bad field, a bad edge or bad code is refused. -/
theorem registerTemplate_refused {s : State} {c : Cmd} {k : Ctx} {ttbl : Word} (hk : CommandOn s c k) {h index count spp : Nat} {entry : Word}
    (hh : h = c.hbuf.toNat) (hsz : h + 24 + 2 * count < 2 ^ 64) (hi : index = Mem.num s.hostMem h 2)
    (hc : count = Mem.num s.hostMem (h + 2) 2) (hs : spp = Mem.num s.hostMem (h + 4) 1)
    (he : entry = BitVec.ofNat 64 (Mem.num s.hostMem (h + 8) 8))
    (hbad : (ttbl.toNat % 32 ≠ 0 ∨ 1024 ≤ index ∨ 1024 < count ∨ spp = 0 ∨ 32 < spp ∨ Mem.num s.hostMem (h + 5) 3 ≠ 0) ∨
      (∃ j < count, 32 ≤ (recordEdge s h j).1 ∨ 32 ≤ (recordEdge s h j).2) ∨ codeOk s k.number entry = false) :
    exec (.registerTemplate c ttbl) s = .next (s.reply c 1 0) := by
  have hx := exec_registerTemplate ttbl hk hh hc hsz
  have hspp : (Mem.read s.hostMem (h + 4)).toNat = spp := (toNat_read ..).trans hs.symm
  have hzero : Mem.read s.hostMem (h + 4) = 0 ↔ spp = 0 := by
    rw [← hspp]
    exact ⟨fun h => congrArg BitVec.toNat h, fun h => BitVec.eq_of_toNat_eq h⟩
  dsimp only at hx
  rw [← hi, ← he, hspp] at hx
  simp only [hzero] at hx
  rw [hx]
  split
  case isTrue => rfl
  case isFalse hok =>
    refine if_pos ?_
    rcases hbad.resolve_left hok with hedge | hcode
    · rw [badEdges_iff.2 hedge, Bool.true_or, Bool.true_or]
    · rw [hcode, Bool.not_false, Bool.or_true, Bool.true_or]

/-- A good record is written as the template's entry, valid unless it withdraws or its wait graph has a cycle. -/
theorem registerTemplate_written {s : State} {c : Cmd} {k : Ctx} {ttbl : Word} (hk : CommandOn s c k) {h index count spp : Nat} {entry trcb : Word}
    (hh : h = c.hbuf.toNat) (hsz : h + 24 + 2 * count < 2 ^ 64) (hi : index = Mem.num s.hostMem h 2)
    (hc : count = Mem.num s.hostMem (h + 2) 2) (hs : spp = Mem.num s.hostMem (h + 4) 1)
    (he : entry = BitVec.ofNat 64 (Mem.num s.hostMem (h + 8) 8)) (htr : trcb = BitVec.ofNat 64 (Mem.num s.hostMem (h + 16) 8))
    (hok : ¬(ttbl.toNat % 32 ≠ 0 ∨ 1024 ≤ index ∨ 1024 < count ∨ spp = 0 ∨ 32 < spp ∨ Mem.num s.hostMem (h + 5) 3 ≠ 0))
    (hlt : ∀ j < count, (recordEdge s h j).1 < 32 ∧ (recordEdge s h j).2 < 32) (hcode : codeOk s k.number entry = true)
    (hw : s.writablePresent k.number (ttbl + BitVec.ofNat 64 (32 * index)) 32 = true) :
    ∃ f : Ctx → Ctx,
      let good := acyclic ((List.range count).map (recordEdge s h))
      exec (.registerTemplate c ttbl) s = .next (((s.writeTemplate k.number (ttbl + BitVec.ofNat 64 (32 * index)) entry trcb
        (Mem.read s.hostMem (h + 4)) (entry != 0 && good)).modCtx k.number f).reply c (if good = true then 0 else 5) 0) := by
  have hx := exec_registerTemplate ttbl hk hh hc hsz
  have hspp : (Mem.read s.hostMem (h + 4)).toNat = spp := (toNat_read ..).trans hs.symm
  have hzero : Mem.read s.hostMem (h + 4) = 0 ↔ spp = 0 := by
    rw [← hspp]
    exact ⟨fun h => congrArg BitVec.toNat h, fun h => BitVec.eq_of_toNat_eq h⟩
  have hedges : (edgesOf (Mem.readN s.hostMem (h + 24) (2 * count))).any (fun e => e &&& 0xE0E0 != 0) = false := by
    rw [← Bool.not_eq_true, badEdges_iff]
    rintro ⟨j, hj, hb⟩
    have := hlt j hj
    omega
  dsimp only at hx
  rw [← hi, ← he, ← htr, hspp] at hx
  simp only [hzero] at hx
  rw [if_neg hok, hedges, hcode, hw, if_neg (by decide), edges_eq hlt] at hx
  exact ⟨_, hx⟩

end Sys2Proof.Machine
end

section
namespace Sys2Proof.Machine

/-! ## LAUNCH (R37, R39, R466) -/

/-- A packet that R37 does not refuse. -/
def PacketFits (m : Mem) (a : Nat) : Prop :=
  Mem.num m (a + 8) 4 ≠ 0 ∧ Mem.num m (a + 8) 4 ≤ 2 ^ 24 ∧ Mem.num m (a + 0x0C) 4 ≤ 1 ∧ Mem.num m a 8 % 64 = 0 ∧
    Mem.num m (a + 0x20) 8 % 8 = 0 ∧ Mem.num m (a + 0x30) 80 = 0

/-- The launch that a packet in memory describes. -/
def launchAt (m : Mem) (a n serial prev : Nat) (queue : BitVec 6) (csva : Word) (cssz csfmt : Byte) : Launch :=
  { serial, ctx := n, queue, nodeTbl := BitVec.ofNat 64 (Mem.num m a 8), nodeCnt := Mem.num m (a + 8) 4,
    overlap := (BitVec.ofNat 32 (Mem.num m (a + 0x0C) 4)).getLsbD 0, lrcb := BitVec.ofNat 64 (Mem.num m (a + 0x10) 8),
    lttbl := BitVec.ofNat 64 (Mem.num m (a + 0x18) 8), doneVa := BitVec.ofNat 64 (Mem.num m (a + 0x20) 8),
    doneVal := BitVec.ofNat 64 (Mem.num m (a + 0x28) 8), csVa := csva, csSz := cssz.toNat, csFmt := csfmt, prev }

theorem flags_reserved {x : Nat} (h : x < 2 ^ 32) : (BitVec.ofNat 32 x).extractLsb' 1 31 = 0 ↔ x ≤ 1 := by
  have ht : ((BitVec.ofNat 32 x).extractLsb' 1 31).toNat = x / 2 % 2 ^ 31 := by
    rw [BitVec.extractLsb'_toNat, BitVec.toNat_ofNat, Nat.mod_eq_of_lt h, Nat.shiftRight_eq_div_pow]
  constructor
  · intro h0
    rw [h0] at ht
    have : (0 : BitVec 31).toNat = 0 := rfl
    omega
  · intro h1
    refine BitVec.eq_of_toNat_eq (ht.trans ?_)
    have : (0 : BitVec 31).toNat = 0 := rfl
    omega

/-- What a packet in memory leads to. -/
theorem packetLaunch_readN (m : Mem) (a n serial prev : Nat) (queue : BitVec 6) (csva : Word) (cssz csfmt : Byte) :
    (PacketFits m a → packetLaunch n serial prev queue (Mem.readN m a 128) csva cssz csfmt =
      some (launchAt m a n serial prev queue csva cssz csfmt)) ∧
    (¬ PacketFits m a → packetLaunch n serial prev queue (Mem.readN m a 128) csva cssz csfmt = none) := by
  have hword : ∀ off, off + 8 ≤ 128 → (fieldAt 64 (Mem.readN m a 128) off : Word) = BitVec.ofNat 64 (Mem.num m (a + off) 8) :=
    fun off h => fieldAt_readN h
  have hflags : (fieldAt 32 (Mem.readN m a 128) 0x0C : BitVec 32) = BitVec.ofNat 32 (Mem.num m (a + 0x0C) 4) := fieldAt_readN (by decide)
  have hcnt : leNat (((Mem.readN m a 128).drop 8).take 4) = Mem.num m (a + 8) 4 := leNat_readN_slice m (by decide)
  have hrest : leNat ((Mem.readN m a 128).drop 0x30) = Mem.num m (a + 0x30) 80 := by
    rw [← leNat_readN_slice m (off := 0x30) (n := 128) (by decide), List.take_of_length_le (by simp)]
  have hlt : Mem.num m (a + 0x0C) 4 < 2 ^ 32 := (num_lt m (a + 0x0C) 4).trans_le (by norm_num)
  have hiff : ((BitVec.ofNat 32 (Mem.num m (a + 0x0C) 4)).extractLsb' 1 31 ≠ 0 ∨ Mem.num m (a + 0x30) 80 ≠ 0 ∨ Mem.num m (a + 8) 4 = 0 ∨
      2 ^ 24 < Mem.num m (a + 8) 4 ∨ Mem.num m a 8 % 64 ≠ 0 ∨ Mem.num m (a + 0x20) 8 % 8 ≠ 0) ↔ ¬ PacketFits m a := by
    rw [ne_eq, flags_reserved hlt, PacketFits]
    omega
  unfold packetLaunch
  simp only [hword 0 (by decide), hword 0x10 (by decide), hword 0x18 (by decide), hword 0x20 (by decide), hword 0x28 (by decide), hflags, hcnt,
    hrest, toNat_ofNat_num, Nat.add_zero]
  exact ⟨fun hf => if_neg fun hn => hiff.1 hn hf, fun hf => if_pos (hiff.2 hf)⟩

/-- The state with a launch queued (R39). -/
def State.queued (s : State) (num : Nat) (l : Launch) : State :=
  { s with launches := s.launches ++ [l], nextSerial := s.nextSerial + 1,
           lastLaunch := (num, l.serial) :: s.lastLaunch.filter (·.1 != num) }

/-- The answer to a packet, by the launch that it describes and the chain of its RCB. -/
def packetAnswer (s : State) (c : Cmd) (n num : Nat) : Option Launch → Host.Outcome State Fault Refusal
  | none => .next (s.reply c 1 0)
  | some l =>
    match s.launchChain n chainFuel [] l.lrcb with
    | none => .next (s.reply c 4 0)
    | some chain => if chainClean chain = false then .next (s.reply c 4 0) else .next ((s.queued num l).reply c 0 0)

/-- The launch that a packet's bytes describe, for a queue of a context. -/
def State.packet (s : State) (n : Nat) (q : BitVec 8) (csva : Word) (csz cfmt : Byte) (bs : List Byte) : Option Launch :=
  packetLaunch n s.nextSerial ((s.lastLaunch.lookup (s.queueNum n (q.setWidth 6))).getD 0) (q.setWidth 6) bs csva csz cfmt

/-- An argument of LAUNCH is out of its range (R37). -/
def LaunchArgsBad (q : BitVec 8) (packet csva : Word) (csz cfmt : Byte) : Prop :=
  64 ≤ q.toNat ∨ packet.toNat % 128 ≠ 0 ∨ csva.toNat % 65536 ≠ 0 ∨ 64 < csz.toNat ∨ (csz = 0 ∧ csva ≠ 0) ∨ cfmt.getLsbD 7 = true

theorem exec_launch_bad {s : State} {c : Cmd} {k : Ctx} (hk : CommandOn s c k) {q : BitVec 8} {packet csva : Word} {csz cfmt : Byte}
    (hbad : LaunchArgsBad q packet csva csz cfmt) : exec (.launch c q packet csva csz cfmt) s = .next (s.reply c 1 0) := by
  show execLaunch c q packet csva csz cfmt s = _
  unfold execLaunch
  rw [onContext_due hk]
  dsimp only
  rw [Done.answer_ite]
  exact if_pos hbad

theorem exec_launch {s : State} {c : Cmd} {k : Ctx} (hk : CommandOn s c k) {q : BitVec 8} {packet csva : Word} {csz cfmt : Byte}
    (hok : ¬ LaunchArgsBad q packet csva csz cfmt) {bs : List Byte} (hr : s.readPresent k.number packet 128 = some bs) :
    exec (.launch c q packet csva csz cfmt) s =
      packetAnswer s c k.number (s.queueNum k.number (q.setWidth 6)) (s.packet k.number q csva csz cfmt bs) := by
  show execLaunch c q packet csva csz cfmt s = _
  unfold execLaunch
  rw [onContext_due hk]
  dsimp only
  rw [Done.answer_ite]
  refine (if_neg hok).trans ?_
  rw [hr]
  dsimp only
  unfold State.packet
  cases packetLaunch k.number s.nextSerial _ _ bs csva csz cfmt with
  | none => rfl
  | some l =>
    unfold packetAnswer
    dsimp only
    cases s.launchChain k.number chainFuel [] l.lrcb with
    | none => rfl
    | some chain =>
      dsimp only
      rw [Done.answer_ite]
      exact if_congr (by simp) rfl rfl

theorem format_high {cfmt : BitVec 8} : cfmt.getLsbD 7 = true ↔ 128 ≤ cfmt.toNat := by
  revert cfmt
  decide

end Sys2Proof.Machine
end

section
namespace Sys2Proof.Machine

/-! ## READ_FAULT_LOG (R35, R467) -/

/-- A byte of equal runs laid end to end. -/
theorem getD_flatten {w : Nat} : ∀ {ls : List (List Byte)} {j i : Nat}, (∀ l ∈ ls, l.length = w) → j < ls.length → i < w →
    ls.flatten.getD (w * j + i) 0 = (ls.getD j []).getD i 0
  | l :: ls, 0, i, h, _, hi => by
    have hl : i < l.length := by rw [h l List.mem_cons_self]; exact hi
    simp [List.getD, List.getElem?_append_left, hl]
  | l :: ls, j + 1, i, h, hj, hi => by
    have hl : l.length = w := h l List.mem_cons_self
    have ih := getD_flatten (ls := ls) (j := j) (fun l hl => h l (List.mem_cons_of_mem _ hl)) (by simpa using hj) hi
    have hix : w * (j + 1) + i = l.length + (w * j + i) := by rw [hl]; ring
    rw [hix, List.flatten_cons, List.getD_append_right _ _ _ _ (by omega), Nat.add_sub_cancel_left, ih]
    rfl

theorem length_flatten_equal {w : Nat} {ls : List (List Byte)} (h : ∀ l ∈ ls, l.length = w) : ls.flatten.length = w * ls.length := by
  rw [List.length_flatten, List.map_congr_left (g := fun _ => w) h, List.map_const', List.sum_replicate, smul_eq_mul, Nat.mul_comm]

theorem mapM_some {α β : Type} {f : α → Option β} {g : α → β} : ∀ {l : List α}, (∀ x ∈ l, f x = some (g x)) → l.mapM f = some (l.map g)
  | [], _ => rfl
  | x :: l, h => by
    rw [List.mapM_cons, h x List.mem_cons_self, mapM_some fun y hy => h y (List.mem_cons_of_mem _ hy)]
    rfl

/-- A record of a log, read through its run. -/
theorem readRecord {s : State} {n b flogN : Nat} {va leaf : Word} (hp : PageRun s n va leaf b (64 * flogN)) {i : Nat} (hi : i < flogN) :
    s.readPresent n (va + BitVec.ofNat 64 (64 * i)) 64 = some (Mem.readN s.hbm (b + 64 * i) 64) := by
  have hpage : 64 * flogN ≤ 2 ^ 64 :=
    (Nat.le_of_add_right_le (by rw [Nat.add_comm]; exact hp.fits)).trans (Nat.le_of_dvd (by decide) (pageBytes_dvd (leafSz leaf)))
  exact (hp.sub (off := 64 * i) (len' := 64) (by omega) (by decide) (by omega)).readPresent (by decide)

/-- What READ_FAULT_LOG copies: the records from FLOGTAIL up, end to end. -/
def logRecords (m : Mem) (b flogN tail n : Nat) : List (List Byte) :=
  (List.range n).map fun i => Mem.readN m (b + 64 * ((tail + i) % flogN)) 64

theorem exec_readFaultLog {s : State} {c : Cmd} {k : Ctx} {rcb leaf leaf2 : Word} {max : BitVec 32} {a b n : Nat} {e : Eff} (hk : CommandOn s c k)
    (hok : ¬(max = 0 ∨ 65536 < max.toNat ∨ s.readVia k.number rcb 256 = none)) (he : e = s.effOf k.number rcb)
    (hr : PageRun s k.number e.flogRcb leaf a 256) (hw : leafW leaf = true) (hN : 1 ≤ e.flogN)
    (hl : PageRun s k.number e.flogVa leaf2 b (64 * e.flogN))
    (hn : n = min max.toNat (min ((Mem.num s.hbm (a + 0x2C) 4 + 2 ^ 32 - Mem.num s.hbm (a + 0x30) 4) % 2 ^ 32) e.flogN)) :
    exec (.readFaultLog c rcb max) s =
      .next (((s.hostPut c.hbuf (logRecords s.hbm b e.flogN (Mem.num s.hbm (a + 0x30) 4) n).flatten).hbmWrite (a + 0x30)
        (leBytes 4 ((Mem.num s.hbm (a + 0x30) 4 + n) % 2 ^ 32))).reply c 0
          (BitVec.ofNat 64 (Mem.num s.hbm (a + 0x34) 4 * 2 ^ 32 + n))) := by
  have hrec : (List.range n).mapM (fun i => s.readPresent k.number (e.flogVa + BitVec.ofNat 64 (64 * ((Mem.num s.hbm (a + 0x30) 4 + i) % e.flogN))) 64) =
      some (logRecords s.hbm b e.flogN (Mem.num s.hbm (a + 0x30) 4) n) :=
    mapM_some fun i _ => readRecord hl (Nat.mod_lt _ hN)
  have hr' : PageRun (s.hostPut c.hbuf (logRecords s.hbm b e.flogN (Mem.num s.hbm (a + 0x30) 4) n).flatten) k.number e.flogRcb leaf a 256 :=
    hr.congr fun va => rfl
  have hwr : s.writableVia k.number e.flogRcb 256 = true := (hr.writableVia (by decide)).trans hw
  show execReadFaultLog c rcb max s = _
  unfold execReadFaultLog
  rw [onContext_due hk]
  dsimp only
  rw [if_neg hok, ← he, hr.rcbNum (by decide) (by decide) (by decide), hr.rcbNum (by decide) (by decide) (by decide), ← hn, hrec]
  dsimp only
  rw [hwr, Bool.not_true, if_neg Bool.false_ne_true, hr'.setRcb (by decide) (by decide) (by decide),
    hr.rcbNum (by decide) (by decide) (by decide)]
  rfl

theorem execReadFaultLog_refused {s : State} {c : Cmd} {k : Ctx} {rcb : Word} {max : BitVec 32} (hk : CommandOn s c k)
    (hbad : max = 0 ∨ 65536 < max.toNat ∨ s.readVia k.number rcb 256 = none) :
    exec (.readFaultLog c rcb max) s = .next (s.reply c 1 0) := by
  show execReadFaultLog c rcb max s = _
  unfold execReadFaultLog
  rw [onContext_due hk]
  dsimp only
  rw [if_pos hbad]
  rfl

/-- The copied records in the host's memory. -/
theorem hostPut_records {s : State} (hm : Memory.wf s.hostMem = true) (hbuf : Word) (m : Mem) (b flogN tail n : Nat) :
    (∀ j < n, ∀ i < 64, Mem.read (s.hostPut hbuf (logRecords m b flogN tail n).flatten).hostMem (hbuf.toNat + 64 * j + i) =
      Mem.read m (b + 64 * ((tail + j) % flogN) + i)) ∧
    (∀ z, z < hbuf.toNat ∨ hbuf.toNat + 64 * n ≤ z →
      Mem.read (s.hostPut hbuf (logRecords m b flogN tail n).flatten).hostMem z = Mem.read s.hostMem z) := by
  have hw : ∀ l ∈ logRecords m b flogN tail n, l.length = 64 := fun l hl => by
    obtain ⟨i, -, rfl⟩ := List.mem_map.1 hl
    exact length_readN ..
  have hlen : (logRecords m b flogN tail n).length = n := by simp [logRecords]
  have htotal : (logRecords m b flogN tail n).flatten.length = 64 * n := by rw [length_flatten_equal hw, hlen]
  refine ⟨fun j hj i hi => ?_, fun z hz => read_writeN_outside hm (by rw [htotal]; exact hz)⟩
  have hget : (logRecords m b flogN tail n).getD j [] = Mem.readN m (b + 64 * ((tail + j) % flogN)) 64 := by
    simp [logRecords, List.getD, hj]
  refine (read_writeN _ _ _ _ hm).trans ?_
  rw [htotal, if_pos (by omega), Nat.add_assoc, Nat.add_sub_cancel_left, getD_flatten hw (by rw [hlen]; exact hj) hi, hget, getD_readN _ _ _ _ _ hi]

end Sys2Proof.Machine
end

section
namespace Sys2Proof.Machine

/-! ## What a discard leaves (R34, R319) -/

/-- A state keeps the launches, the contexts' numbers, and of the tasks at most those that there were, each with its pool entry. -/
structure State.Fewer (s t : State) : Prop where
  launches : t.launches = s.launches
  numbers : t.ctxs.map (·.number) = s.ctxs.map (·.number)
  tasks : ∀ u ∈ t.tasks, ∃ v ∈ s.tasks, v.tid = u.tid ∧ v.pool = u.pool

theorem State.Fewer.refl (s : State) : s.Fewer s := ⟨rfl, rfl, fun u hu => ⟨u, hu, rfl, rfl⟩⟩

theorem State.Fewer.trans {a b c : State} (h : a.Fewer b) (g : b.Fewer c) : a.Fewer c :=
  ⟨g.launches.trans h.launches, g.numbers.trans h.numbers, fun u hu => by
    obtain ⟨v, hv, ht, hp⟩ := g.tasks u hu
    obtain ⟨w, hw, ht', hp'⟩ := h.tasks v hv
    exact ⟨w, hw, ht'.trans ht, hp'.trans hp⟩⟩

theorem foldl_fewer {α : Type} {f : State → α → State} (h : ∀ (s : State) (x : α), s.Fewer (f s x)) (l : List α) (s : State) :
    s.Fewer (l.foldl f s) :=
  List.foldlRecOn (motive := fun t => s.Fewer t) l f (.refl s) fun t ht x _ => ht.trans (h t x)

theorem mem_tasks {s : State} {u : Task} : u ∈ s.tasks ↔ (s.cur.status ≠ .idle ∧ u = s.cur) ∨ u ∈ s.others := by
  unfold State.tasks
  split
  case isTrue h => simp [h]
  case isFalse h => simp [h]

theorem State.SavedOnly.fewer {s t : State} (h : s.SavedOnly t) : s.Fewer t := by
  have hcur := h.cur
  refine ⟨h.launches, ?_, fun u hu => ?_⟩
  · have hc := congrArg (List.map Ctx.number) h.ctxs
    simpa [List.map_map, Function.comp_def, Ctx.traceless] using hc
  · have hst : t.cur.scratchless.status = s.cur.scratchless.status := congrArg Task.status hcur
    have htid : t.cur.scratchless.tid = s.cur.scratchless.tid := congrArg Task.tid hcur
    have hpool : t.cur.scratchless.pool = s.cur.scratchless.pool := congrArg Task.pool hcur
    rcases mem_tasks.1 hu with ⟨hne, rfl⟩ | ho
    · exact ⟨s.cur, mem_tasks.2 (.inl ⟨fun h => hne (hst.trans h), rfl⟩), htid.symm, hpool.symm⟩
    · exact ⟨u, mem_tasks.2 (.inr (h.others ▸ ho)), rfl, rfl⟩

theorem State.SameButMemory.fewer {s t : State} (h : s.SameButMemory t) : s.Fewer t := h.savedOnly.fewer

theorem modCtx_fewer (s : State) (n : Nat) {f : Ctx → Ctx} (hf : ∀ c, (f c).number = c.number) : s.Fewer (s.modCtx n f) := by
  refine ⟨rfl, ?_, fun u hu => ⟨u, hu, rfl, rfl⟩⟩
  rw [State.modCtx_ctxs, List.map_map]
  refine List.map_congr_left fun c _ => ?_
  dsimp only [Function.comp]
  split
  · exact hf c
  · rfl

theorem mapTasks_fewer (s : State) {f : Task → Task} (hs : ∀ t, (f t).status = t.status) (ht : ∀ t, (f t).tid = t.tid)
    (hp : ∀ t, (f t).pool = t.pool) : s.Fewer (s.mapTasks f) := by
  refine ⟨rfl, rfl, fun u hu => ?_⟩
  rcases mem_tasks.1 hu with ⟨hst, rfl⟩ | ho
  · exact ⟨s.cur, mem_tasks.2 (.inl ⟨(hs s.cur) ▸ hst, rfl⟩), (ht _).symm, (hp _).symm⟩
  · obtain ⟨v, hv, rfl⟩ := List.mem_map.1 ho
    exact ⟨v, mem_tasks.2 (.inr hv), (ht _).symm, (hp _).symm⟩

theorem mapTasks_self {s : State} {f : Task → Task} (h : ∀ u ∈ s.cur :: s.others, f u = u) : s.mapTasks f = s := by
  unfold State.mapTasks
  rw [h _ List.mem_cons_self, List.map_congr_left (g := id) fun u hu => h u (List.mem_cons_of_mem _ hu), List.map_id]

theorem landLinks_fewer (s : State) (t : Task) : s.Fewer (s.landLinks t) :=
  foldl_fewer (fun _ _ => (landRest_savedOnly ..).fewer) _ s

theorem unlockAll_fewer (s : State) (t : Task) : s.Fewer (s.unlockAll t) := by
  refine foldl_fewer (fun u k => ?_) _ s
  split
  · exact .refl u
  · split
    · dsimp only
      split
      · exact (put_same ..).fewer
      · exact .refl u
    · exact .refl u

theorem freeStores_fewer (s : State) (t : Task) : s.Fewer (s.freeStores t) := by
  refine foldl_fewer (fun u k => ?_) _ s
  split
  · exact .refl u
  · exact modCtx_fewer u _ fun _ => rfl

theorem freeSpillOf_fewer (s : State) (t : Task) : s.Fewer (s.freeSpillOf t) := by
  unfold State.freeSpillOf
  split
  · exact .refl s
  · exact modCtx_fewer s _ fun _ => rfl

theorem cancelLinks_fewer (s : State) (t : Task) : s.Fewer (s.cancelLinks t) := by
  unfold State.cancelLinks
  dsimp only
  split
  · exact .refl s
  · exact modCtx_fewer s _ fun _ => rfl

theorem forget_fewer (s : State) (tid : Nat) : s.Fewer (s.forget tid) := by
  have h : s.Fewer (s.mapTasks fun t => if t.handles = some tid then { t with handles := none } else t) := by
    refine mapTasks_fewer s (fun t => ?_) (fun t => ?_) fun t => ?_ <;> split <;> rfl
  exact ⟨h.launches, h.numbers, h.tasks⟩

theorem dropTask_fewer (s : State) (tid : Nat) : s.Fewer (s.dropTask tid) ∧ ∀ u ∈ (s.dropTask tid).tasks, u.tid ≠ tid := by
  have key : ∀ u ∈ (s.dropTask tid).tasks, u ∈ s.tasks ∧ u.tid ≠ tid := fun u hu => by
    unfold State.dropTask at hu
    rcases mem_tasks.1 hu with ⟨hst, rfl⟩ | ho
    · dsimp only at hst ⊢
      by_cases hc : s.cur.status ≠ .idle ∧ s.cur.tid = tid
      · rw [if_pos hc] at hst
        exact absurd rfl hst
      · rw [if_neg hc] at hst ⊢
        exact ⟨mem_tasks.2 (.inl ⟨hst, rfl⟩), fun ht => hc ⟨hst, ht⟩⟩
    · obtain ⟨hm, hne⟩ := List.mem_filter.1 ho
      exact ⟨mem_tasks.2 (.inr hm), by simpa using hne⟩
  exact ⟨⟨rfl, rfl, fun u hu => ⟨u, (key u hu).1, rfl, rfl⟩⟩, fun u hu => (key u hu).2⟩

/-- A discarded task is gone, and the others are what they were. -/
theorem discard_fewer (s : State) (t : Task) : s.Fewer (s.discard t) ∧ ∀ u ∈ (s.discard t).tasks, u.tid ≠ t.tid := by
  unfold State.discard
  extract_lets s1 s2 s3 s4
  have h1 : s.Fewer s1 := landLinks_fewer s t
  have h2 : s1.Fewer s2 := by
    unfold s2
    split
    · exact (saveTask_savedOnly ..).fewer
    · exact .refl s1
  have h3 : s2.Fewer s3 := ⟨rfl, rfl, fun u hu => ⟨u, hu, rfl, rfl⟩⟩
  have h4 : s3.Fewer s4 :=
    ((((unlockAll_fewer _ t).trans (freeStores_fewer _ t)).trans (freeSpillOf_fewer _ t)).trans (cancelLinks_fewer _ t)).trans
      (forget_fewer _ t.tid)
  have h5 := dropTask_fewer s4 t.tid
  have h6 := (live_same (s4.dropTask t.tid) t.pool.ctx t.pool.rcb false (s4.poolImage t.pool))
  refine ⟨((((h1.trans h2).trans h3).trans h4).trans h5.1).trans h6.fewer, fun u hu => ?_⟩
  obtain ⟨v, hv, htid, -⟩ := h6.fewer.tasks u hu
  rw [← htid]
  exact h5.2 v hv

/-- After a run of discards none of the tasks discarded is left. -/
theorem foldl_discard_fewer : ∀ (l : List Task) (s : State), s.Fewer (l.foldl State.discard s) ∧
    ∀ u ∈ (l.foldl State.discard s).tasks, ∀ t ∈ l, u.tid ≠ t.tid
  | [], s => ⟨.refl s, fun _ _ _ h => nomatch h⟩
  | t :: l, s => by
    obtain ⟨h1, h2⟩ := discard_fewer s t
    obtain ⟨h3, h4⟩ := foldl_discard_fewer l (s.discard t)
    refine ⟨h1.trans h3, fun u hu v hv => ?_⟩
    rcases List.mem_cons.1 hv with rfl | hv
    · obtain ⟨w, hw, htid, -⟩ := h3.tasks u hu
      rw [← htid]
      exact h2 w hw
    · exact h4 u hu v hv

/-! ## ABORT_RCB (R33, R432) -/

/-- An abort of a tree whose tasks stand at their points leaves none of them. -/
theorem abortTree_fewer {s : State} {n : Nat} (root : Word) (hp : AtPoints s n) :
    s.Fewer (s.abortTree n root) ∧ ∀ u ∈ (s.abortTree n root).tasks, u.pool.ctx = n → s.below n root u.pool.rcb (s.poolImage u.pool) = false := by
  unfold State.abortTree
  extract_lets inTree doomed victims s1 s2
  have h1 : s.Fewer s1 := (foldl_same _ (fun u r => setRcb_same u n r 0x0B 1 1) doomed s).fewer
  have h2 : s2 = victims.foldl State.discard s1 := by
    refine List.foldl_ext _ _ _ fun u t ht => if_neg fun hc => ?_
    obtain ⟨hm, hv⟩ := List.mem_filter.1 ht
    simp only [Bool.and_eq_true, beq_iff_eq, Bool.not_eq_true'] at hc hv
    exact Bool.false_ne_true (hc.1.2.symm.trans (hp t hm hv.1 hc.1.1))
  obtain ⟨h3, h4⟩ := foldl_discard_fewer victims s1
  rw [← h2] at h3 h4
  have h5 := h1.trans h3
  refine ⟨⟨h5.launches, h5.numbers, h5.tasks⟩, fun u hu hctx => ?_⟩
  obtain ⟨v, hv, htid, hpool⟩ := h5.tasks u hu
  by_contra hin
  refine h4 u hu v (List.mem_filter.2 ⟨hv, ?_⟩) htid.symm
  simpa [inTree, hpool, hctx] using hin

/-- With no page waited for and no service under way, an abort at a command is that of its tree. -/
theorem abortRoot_eq {s : State} (n : Nat) (root : Word) (ht : ∀ u ∈ s.cur :: s.others, u.flow.page = none ∧ u.flow.service = none)
    (hl : ∀ l ∈ s.launches, l.page = none) : s.abortRoot n root = (s.abortTree n root).prunePosted n := by
  have htasks : ∀ u ∈ s.tasks, u.flow.page = none := fun u hu => by
    rcases mem_tasks.1 hu with ⟨-, rfl⟩ | ho
    · exact (ht _ List.mem_cons_self).1
    · exact (ht u (List.mem_cons_of_mem _ ho)).1
  have hpages : s.refusePages n root = s := by
    refine List.foldlRecOn (motive := fun u => u = s) _ _ rfl fun u hu t hmem => ?_
    rw [htasks t (List.mem_of_mem_filter hmem)]
    exact hu
  have hpasses : s.refusePasses n root = s := by
    refine List.foldlRecOn (motive := fun u => u = s) _ _ rfl fun u hu l hmem => ?_
    rw [hl l (List.mem_of_mem_filter hmem)]
    exact hu
  have hservices : s.refuseServices n root = s := by
    have hid : ∀ u ∈ s.cur :: s.others, (if u.pool.ctx = n ∧ u.flow.service.any (·.svc == 1) = true ∧
        s.below n root u.pool.rcb (s.poolImage u.pool) = false ∧ s.below n root (u.pool.args.get 1) = true then u.served 3 s.now else u) = u :=
      fun u hu => if_neg fun hc => by simp [(ht u hu).2] at hc
    exact mapTasks_self hid
  unfold State.abortRoot
  rw [hpages, hpasses, hservices]

theorem exec_abortRcb {s : State} {c : Cmd} {k : Ctx} (hk : CommandOn s c k) (rcb : Word) :
    exec (.abortRcb c rcb) s =
      if rcb.toNat % 256 ≠ 0 ∨ s.writableVia k.number rcb 256 = false then .next (s.reply c 1 0)
      else .next ((s.abortRoot k.number (s.domainOf k.number rcb)).reply c 0 0) := by
  show execAbortRcb c rcb s = _
  unfold execAbortRcb
  rw [onContext_due hk]
  dsimp only
  rw [Done.answer_ite]
  rfl

end Sys2Proof.Machine
end

section
namespace Sys2Proof.Machine

/-! ## The commands of templates, launches, aborts and logs (R28, R33 to R37, R51, R466 to R469) -/

theorem codeOk_false {s : State} {n : Nat} {entry eleaf : Word} (h0 : entry ≠ 0)
    (h : entry.toNat % 32 ≠ 0 ∨ (∃ e, s.lookup n entry = .error e) ∨ (s.Maps n entry eleaf ∧ leafX eleaf = false)) :
    codeOk s n entry = false := by
  rw [← Bool.not_eq_true, codeOk_iff]
  rintro (he | ⟨hal, leaf, ⟨pa, hl⟩, hx⟩)
  · exact h0 he
  · rcases h with hne | ⟨e, hl'⟩ | ⟨⟨pa', hl'⟩, hx'⟩
    · exact hne hal
    · rw [hl] at hl'
      cases hl'
    · rw [hl] at hl'
      cases hl'
      exact Bool.false_ne_true (hx'.symm.trans hx)

/-- LAUNCH with a packet in one page of HBM. -/
theorem exec_launch_packet {s : State} {c : Cmd} {k : Ctx} {q csz cfmt : BitVec 8} {packet csva leaf : Word} {a : Nat} (hk : CommandOn s c k)
    (hok : ¬ LaunchArgsBad q packet csva csz cfmt) (hal : packet.toNat % 128 = 0) (hl : s.Maps k.number packet leaf)
    (hp : placeOf leaf packet 0 = (.hbm, a)) :
    exec (.launch c q packet csva csz cfmt) s =
      packetAnswer s c k.number (s.queueNum k.number (q.setWidth 6)) (s.packet k.number q csva csz cfmt (Mem.readN s.hbm a 128)) := by
  obtain ⟨pa, hl⟩ := hl
  have hc := ctxChunks_one hl hp (aligned_fits (n := 128) (by decide) hal) (by decide)
  exact exec_launch hk hok (by simp [State.readPresent, hc, State.readChunks, State.memOf])

theorem launchAt_words (m : Mem) (a n serial prev : Nat) (queue : BitVec 6) (csva : Word) (cssz csfmt : Byte) :
    let l := launchAt m a n serial prev queue csva cssz csfmt
    l.nodeTbl.toNat = Mem.num m a 8 ∧ l.lttbl.toNat = Mem.num m (a + 0x18) 8 ∧ l.doneVa.toNat = Mem.num m (a + 0x20) 8 ∧
      l.doneVal.toNat = Mem.num m (a + 0x28) 8 :=
  ⟨toNat_ofNat_num .., toNat_ofNat_num .., toNat_ofNat_num .., toNat_ofNat_num ..⟩

theorem packetAnswer_none {s : State} {c : Cmd} {n num : Nat} {l : Launch} (h : s.launchChain n chainFuel [] l.lrcb = none) :
    packetAnswer s c n num (some l) = .next (s.reply c 4 0) := by
  unfold packetAnswer
  dsimp only
  rw [h]

theorem packetAnswer_dirty {s : State} {c : Cmd} {n num : Nat} {l : Launch} {chain : List (Word × List Byte)}
    (h : s.launchChain n chainFuel [] l.lrcb = some chain) (hc : chainClean chain = false) :
    packetAnswer s c n num (some l) = .next (s.reply c 4 0) := by
  unfold packetAnswer
  dsimp only
  rw [h]
  exact if_pos hc

theorem packetAnswer_clean {s : State} {c : Cmd} {n num : Nat} {l : Launch} {chain : List (Word × List Byte)}
    (h : s.launchChain n chainFuel [] l.lrcb = some chain) (hc : chainClean chain = true) :
    packetAnswer s c n num (some l) = .next ((s.queued num l).reply c 0 0) := by
  unfold packetAnswer
  dsimp only
  rw [h]
  exact if_neg (by simp [hc])

theorem vector_replicate_get {α : Type} (n : Nat) (x : α) (d : Fin n) : (Vector.replicate n x).get d = x := by
  simp [Vector.get]

theorem queueNum_setWidth (s : State) (n : Nat) {q : BitVec 8} (hq : q.toNat < 64) :
    (q.setWidth 6).toNat = q.toNat ∧ s.queueNum n (q.setWidth 6) = s.fnOf n * 64 + q.toNat := by
  have h : (q.setWidth 6).toNat = q.toNat := by
    rw [BitVec.toNat_setWidth]
    exact Nat.mod_eq_of_lt hq
  exact ⟨h, by rw [State.queueNum, h]⟩

theorem flag_low {x : Nat} (h : x ≤ 1) : (BitVec.ofNat 32 x).getLsbD 0 = true ↔ x = 1 := by
  interval_cases x <;> decide

theorem prunePosted_fewer (s : State) (n : Nat) : s.Fewer (s.prunePosted n) := modCtx_fewer s n fun _ => rfl

/-- Settles O49: each command by the record, the packet or the log that it reads, and the abort by what its discards leave. -/
theorem templatesLaunchesAndLogs : Obligations.TemplatesLaunchesAndLogs := by
  refine ⟨?_, ?_, ?_, ?_⟩
  · intro s c k ttbl leaf eleaf h a index count spp entry trcb va hk hm hh hsz hi hc hs he htr hva
    refine ⟨fun hbad => registerTemplate_refused hk hh hsz hi hc hs he ?_, fun h1 h2 h3 h4 h5 h6 hlt hrun => ?_⟩
    · simp only [← or_assoc] at hbad ⊢
      exact .inl hbad
    have hok : ¬(ttbl.toNat % 32 ≠ 0 ∨ 1024 ≤ index ∨ 1024 < count ∨ spp = 0 ∨ 32 < spp ∨ Mem.num s.hostMem (h + 5) 3 ≠ 0) := by omega
    have hp := pageRun_of_runAt hrun
    refine ⟨fun h0 hcode => registerTemplate_refused hk hh hsz hi hc hs he (.inr (.inr (codeOk_false h0 hcode))), fun st valid hcode hkeep hv => ?_⟩
    have hcode' : codeOk s k.number entry = true := codeOk_iff.2 (hcode.imp_right fun ⟨h, hmap, hx⟩ => ⟨h, eleaf, hmap, hx⟩)
    have hw : s.writablePresent k.number (ttbl + BitVec.ofNat 64 (32 * index)) 32 = true := by
      rw [← hva, writablePresent_run hp (by decide)]
      exact hrun.2.1
    obtain ⟨f, hx⟩ := registerTemplate_written hk hh hsz hi hc hs he htr hok hlt hcode' hw
    obtain ⟨hvalid, hst⟩ := acyclic_edges hlt hv
    dsimp only at hx
    rw [hvalid, ← hva, hst] at hx
    obtain ⟨e1, e2, e3, e4, e5, e6, e7⟩ := writeTemplate_writes (entry := entry) (trcb := trcb) (spp := Mem.read s.hostMem (h + 4))
      (valid := valid) hm.1 hp hkeep
    refine ⟨_, hx, e1, ?_, e3, ?_, e5, e6, e7⟩
    · rw [State.modCtx_hbm, e2, toNat_read, hs]
    · rw [State.modCtx_hbm, e4]
  · intro s c k q csz cfmt packet csva leaf a hk
    dsimp only
    rw [← format_high, Nat.add_zero]
    refine ⟨fun hbad => exec_launch_bad hk hbad, fun h1 h2 h3 h4 h5 h6 hl hp => ?_⟩
    have hok : ¬ LaunchArgsBad q packet csva csz cfmt := by
      rw [LaunchArgsBad, format_high]
      rintro (h | h | h | h | ⟨h, h'⟩ | h)
      · omega
      · exact h h2
      · exact h h3
      · omega
      · exact h' (h5 h)
      · omega
    rw [exec_launch_packet hk hok h2 hl hp]
    obtain ⟨hq, hnum⟩ := queueNum_setWidth s k.number h1
    obtain ⟨hsome, hnone⟩ := packetLaunch_readN s.hbm a k.number s.nextSerial
      ((s.lastLaunch.lookup (s.queueNum k.number (q.setWidth 6))).getD 0) (q.setWidth 6) csva csz cfmt
    have hanswer : ∀ x, s.packet k.number q csva csz cfmt (Mem.readN s.hbm a 128) = x →
        packetAnswer s c k.number (s.queueNum k.number (q.setWidth 6)) (s.packet k.number q csva csz cfmt (Mem.readN s.hbm a 128)) =
          packetAnswer s c k.number (s.queueNum k.number (q.setWidth 6)) x := fun x h => by rw [h]
    refine ⟨fun hf => hanswer none (hnone hf), fun hf hch => ?_, fun chain hf hch hcl => ?_, fun chain hf hch hcl => ?_⟩
    · rw [hanswer _ (hsome hf)]
      exact packetAnswer_none hch
    · rw [hanswer _ (hsome hf)]
      exact packetAnswer_dirty hch hcl
    · rw [hanswer _ (hsome hf)]
      obtain ⟨e1, e2, e3, e4⟩ := launchAt_words s.hbm a k.number s.nextSerial
        ((s.lastLaunch.lookup (s.queueNum k.number (q.setWidth 6))).getD 0) (q.setWidth 6) csva csz cfmt
      refine ⟨_, _, packetAnswer_clean hch hcl, rfl, rfl, rfl, rfl, hq, e1, rfl, flag_low hf.2.2.1, rfl, e2, e3, e4,
        rfl, rfl, rfl, rfl, rfl, rfl, fun d => ?_, ?_, ?_, rfl, rfl, rfl⟩
      · exact ⟨vector_replicate_get .., vector_replicate_get ..⟩
      · rw [← hnum]
        rfl
      · rw [← hnum]
        simp [State.queued, launchAt]
  · intro s c k rcb hk
    rw [exec_abortRcb hk]
    refine ⟨fun hbad => if_pos hbad, fun hal hw ht hl hpts => ?_⟩
    obtain ⟨h1, h2⟩ := abortTree_fewer (s.domainOf k.number rcb) hpts
    have h3 := prunePosted_fewer (s.abortTree k.number (s.domainOf k.number rcb)) k.number
    have h4 := h1.trans h3
    rw [if_neg (by simp [hal, hw]), abortRoot_eq _ _ ht hl]
    exact ⟨_, rfl, h4.numbers, h2, h4.launches⟩
  · intro s c k rcb leaf leaf2 max a b n e hk hm
    refine ⟨execReadFaultLog_refused hk, fun h0 hle hr he hrun hN hlog => ?_⟩
    intro tail hn hbuf
    have hp := pageRun_of_runAt hrun
    obtain ⟨hput, hrest⟩ := hostPut_records hm.2.2.1 c.hbuf s.hbm b e.flogN tail n
    have hok : ¬(max = 0 ∨ 65536 < max.toNat ∨ s.readVia k.number rcb 256 = none) := by
      rintro (h | h | h)
      · exact h0 h
      · exact absurd h (Nat.not_lt.2 hle)
      · exact hr h
    refine ⟨_, exec_readFaultLog hk hok he hp hrun.2.1 hN (pageRun_of_runAt hlog) hn, ?_⟩
    have hwf : Memory.wf (s.hostPut c.hbuf (logRecords s.hbm b e.flogN tail n).flatten).hbm = true := hm.1
    refine ⟨fun j hj i hi => ?_, fun z hz => ?_, ?_, fun z hz => ?_, hbmWrite_cur .., hbmWrite_others ..⟩
    · rw [hbmWrite_hostMem]
      exact hput j hj i hi
    · rw [hbmWrite_hostMem]
      exact hrest z hz
    · rw [hbmWrite_leBytes_hbm]
      exact num_setNum_of_lt hwf ((Nat.mod_lt _ (by decide)).trans_le (by norm_num))
    · rw [hbmWrite_leBytes_hbm]
      exact read_setNum_outside hwf hz

end Sys2Proof.Machine
end

section
namespace Sys2Proof.Machine

/-! ## A done that reads what an access in the air is about to write (R42, R389)

The third claim of O11 asks for no more of the state than that no task's access is still to land, so it also speaks of states whose
`air` holds the writes of an access under way. There done reads INITDC with those writes on top of memory. -/

/-- The leaf of a 1 GiB page at physical address 0 that may be written. -/
def gigabyte : Word := 0x63

/-- Tables at 0x1000, 0x2000 and 0x3000 that map the first GiB onto itself, and a node record at 0x8000 with INITDC 0 and one successor. -/
def airyHbm : Mem :=
  Mem.setNum (Mem.setNum (Mem.setNum (Mem.setNum [] 0x1000 8 0x2000001) 0x2000 8 0x3000001) 0x3000 8 0x63) 0x8018 4 1

/-- A running node at that record, and an access in the air that is about to write 1 over INITDC. -/
def airy : State :=
  { hbm := airyHbm, ctxs := [{ number := 1, root := 0x1000 }], air := some [⟨0, 0x800, 0xFF * 2 ^ 32, 2 ^ 32⟩],
    cur := { status := .running 0, pool := { ctx := 1, nodeVa := 0x8000 } } }

/-- A level of a walk whose entry names the next table. -/
theorem walkFrom_table {m : Mem} {va level table : Nat} {e : Word} (he : BitVec.ofNat 64 (Mem.num m (table + va / 2 ^ (12 + 9 * (level + 1)) % 512 * 8) 8) = e)
    (hv : leafV e = true) (hs : leafSz e = 0) (hb : e.extractLsb' 7 17 = 0 ∧ e.extractLsb' 1 4 = 0) :
    walkFrom m va (level + 1) table = walkFrom m va level (leafPfn e * 4096) := by
  rw [walkFrom, he, hv, if_neg (by decide), if_neg (by omega), if_neg (by simp [hs, hb])]

/-- The level of a walk whose entry is the leaf of a 1 GiB page. -/
theorem walkFrom_gigabyte {m : Mem} {va table : Nat} {e : Word} (he : BitVec.ofNat 64 (Mem.num m (table + va / 2 ^ (12 + 9 * (1 + 1)) % 512 * 8) 8) = e)
    (hv : leafV e = true) (hs : leafSz e = 3) (hok : leafOk 2 e = true) :
    walkFrom m va (1 + 1) table = .ok (e, table + va / 2 ^ (12 + 9 * (1 + 1)) % 512 * 8) := by
  rw [walkFrom, he, hv, if_neg (by decide), if_pos (.inr ⟨rfl, hs⟩), if_pos hok]

/-- A walk of the first GiB in tables like those. -/
theorem walk_gigabyte {m : Mem} {va e : Word} (h4 : Mem.num m 0x1000 8 = 0x2000001) (h3 : Mem.num m 0x2000 8 = 0x3000001)
    (h2 : BitVec.ofNat 64 (Mem.num m 0x3000 8) = e) (he : e = gigabyte ∨ e = gigabyte ||| 8 ∨ e = gigabyte ||| 24) (hv : va.toNat < 2 ^ 30) :
    walkTables m 0x1000 va = .ok (e, 0x3000) := by
  have hcan : canonical va = true := by
    have h0 : va.extractLsb' 56 8 = 0 := BitVec.eq_of_toNat_eq (by
      rw [BitVec.extractLsb'_toNat, Nat.shiftRight_eq_div_pow, Nat.div_eq_of_lt (hv.trans (by decide))]
      rfl)
    rw [canonical, h0]
    rfl
  obtain ⟨hev, hes, heok⟩ : leafV e = true ∧ leafSz e = 3 ∧ leafOk 2 e = true := by
    rcases he with rfl | rfl | rfl
    · decide
    · decide
    · decide
  have i4 : va.toNat / 2 ^ (12 + 9 * (3 + 1)) % 512 * 8 = 0 := by omega
  have i3 : va.toNat / 2 ^ (12 + 9 * (2 + 1)) % 512 * 8 = 0 := by omega
  have i2 : va.toNat / 2 ^ (12 + 9 * (1 + 1)) % 512 * 8 = 0 := by omega
  have l2 := walkFrom_gigabyte (m := m) (va := va.toNat) (table := 0x3000) (e := e) (by rw [i2]; exact h2) hev hes heok
  have l3 := walkFrom_table (m := m) (va := va.toNat) (level := 2) (table := 0x2000) (e := 0x3000001) (by rw [i3, Nat.add_zero, h3]; rfl)
    (by decide) (by decide) (by decide)
  have l4 := walkFrom_table (m := m) (va := va.toNat) (level := 3) (table := 0x1000) (e := 0x2000001) (by rw [i4, Nat.add_zero, h4]; rfl)
    (by decide) (by decide) (by decide)
  rw [i2] at l2
  rw [walkTables, if_pos hcan]
  exact l4.trans (l3.trans l2)

/-- Its record's addresses lie in the page, and are walked whatever stands in the counter and in A and D of the leaf. -/
theorem airy_walks (off : Word) (hoff : off.toNat < 64) : Walks airy airy.cur.pool.ctx (airy.cur.pool.nodeVa + off) gigabyte 0x3000 (0x8000 + 8) 8 := by
  have hv : (airy.cur.pool.nodeVa + off).toNat < 2 ^ 30 := by
    rw [BitVec.toNat_add, show airy.cur.pool.nodeVa.toNat = 0x8000 from rfl]
    omega
  have h4 : Mem.num airyHbm 0x1000 8 = 0x2000001 := by decide +kernel
  have h3 : Mem.num airyHbm 0x2000 8 = 0x3000001 := by decide +kernel
  have h2 : BitVec.ofNat 64 (Mem.num airyHbm 0x3000 8) = gigabyte := by decide +kernel
  refine ⟨walk_gigabyte h4 h3 h2 (.inl rfl) hv, h2, fun c m e hc he hm hout => ?_⟩
  have hroot : c.root = 0x1000 := by rw [← Option.some.inj hc]
  rw [hroot]
  refine walk_gigabyte ?_ ?_ hm he hv
  · exact (num_congr fun j _ _ => hout j (by omega) (by omega)).trans h4
  · exact (num_congr fun j _ _ => hout j (by omega) (by omega)).trans h3

theorem airy_memoryWf : airy.MemoryWf := ⟨by decide +kernel, rfl, rfl, rfl, rfl, rfl, fun _ h => nomatch h⟩

theorem airy_drained : airy.Drained := ⟨fun k => by cases k <;> rfl, fun _ h => nomatch h⟩

theorem airy_unburdened : Unburdened airy := ⟨fun _ => vector_replicate_get .., rfl, rfl, rfl⟩

theorem airy_nodeAt : NodeAt airy gigabyte 0x8000 :=
  ⟨rfl, by decide, by decide, by decide, by decide, fun off hoff => ⟨_, (airy_walks off hoff).1⟩⟩

/-- The bytes in the air, not those of memory, go into the counter. -/
theorem airy_done : ∀ t, exec .done airy = .next t → Mem.num t.hbm 0x8008 8 = 1 := by
  have h : (match exec .done airy with
    | .next t => Mem.num t.hbm 0x8008 8
    | _ => 0) = 1 := by decide +kernel
  intro t ht
  rwa [ht] at h

/-- Refutes O11: of a node's done, the statement allows a state whose access in the air covers INITDC; done then puts the access's value, 1,
into DC where memory's INITDC is 0. -/
theorem not_doneEndsItsTask : ¬ Obligations.DoneEndsItsTask := by
  rintro ⟨_, _, hnode, _⟩
  obtain ⟨t, ht, hdc, _⟩ := hnode airy 0 gigabyte 0x8000 0x3000 airy_memoryWf rfl rfl (by decide) rfl airy_drained airy_unburdened rfl rfl
    airy_nodeAt (by decide +kernel) (.inl (by decide)) airy_walks
  have hmem : Mem.num airy.hbm (0x8000 + 4) 4 = 0 := by decide +kernel
  rw [hmem, airy_done t ht] at hdc
  exact absurd hdc (by decide)

end Sys2Proof.Machine
end

section
namespace Sys2Proof.Machine

/-! ## Entering a line (R59, R61, R62, R109) -/

/-- A walk changes HBM, the copies of its lines and the translation caches. -/
theorem walked_frame (s : State) (die : Nat) (core : Option Nat) (fetch : Bool) (n : Nat) (va leaf : Word) (pa : Nat) (write : Bool) :
    ∃ m r a b c, s.walked die core fetch n va leaf pa write = { s with hbm := m, rdc := r, tlb := a, coreTc := b, fetchTc := c } := by
  cases core <;> exact ⟨_, _, _, _, _, rfl⟩

theorem xlate_of_lookup {s : State} {t : Task} {va leaf : Word} {pa : Nat} (hl : s.launches = []) (h : s.lookup t.pool.ctx va = .ok (leaf, pa)) :
    s.xlate t va = .ok (leaf, some pa) := by
  unfold State.xlate State.windowOf
  rw [hl, h]
  rfl

theorem inTransit_nil {s : State} (h : s.transit = []) (n : Nat) (va : Word) : s.inTransit n va = false := by
  unfold State.inTransit
  rw [h]
  rfl

/-- With no walk requested an access waits for none. -/
theorem ans_walkTurn {s : State} (h : s.walks = []) (va : Word) (write fetch : Bool) (core : Option Nat) :
    ans (walkTurn va write fetch core) s = (.ok ⟨⟩, s) := by
  unfold walkTurn
  rw [ans_bind_ok (ans_get s), h]
  rfl

theorem readsOf_of_empty {t : Task} {f : FaultInfo} (hk : f.stream = .seq) (hq : t.queue .seq = []) : t.readsOf f = [] := by
  unfold Task.readsOf
  rw [hk]
  dsimp only
  rw [hq]
  rfl

/-- A fetch from a page of HBM without poison, and with nothing in the air, finds what HBM holds. -/
theorem ans_loadBytes_fetch {s : State} {f : FaultInfo} {leaf va : Word} {a n : Nat} (hf : f.stream = .seq) (hq : s.cur.queue .seq = [])
    (hp : s.poison = []) (ha : s.air = none) (hd : leafDlt leaf = false) (hpl : placeOf leaf va s.cur.cluster = (.hbm, a)) :
    ans (loadBytes f leaf va n) s = (.ok (Mem.readN s.hbm a n), s) := by
  have hr : s.cur.readsOf f = [] := readsOf_of_empty hf hq
  have hpo : s.poisonedFor [] .hbm a n = false := by
    unfold State.poisonedFor State.poisoned
    rw [hp]
    simp
  have htook : ans (loadTook f .hbm a n) s = (.ok ⟨⟩, s) := by
    unfold loadTook
    rw [if_neg (by simp [hf]), ans_pure]
  unfold loadBytes
  rw [ans_bind_ok (ans_get s), hpl]
  dsimp only
  rw [hr, hpo, hd, (placeOf_hbm hpl).1, if_neg (by simp), if_neg (by simp), ans_bind_ok htook, bytesAt_grounded ha]
  rfl

/-- The bytes of a line that is fetched are those that memory holds or those of the copy that its core holds. -/
theorem ans_fetchedLine (s : State) (va : Word) (place : Nat × Nat) (now : List Byte) :
    ∃ bs free, ans (fetchedLine va place now) s = (.ok bs, { s with free := free }) ∧
      (bs = now ∨ ∃ x, s.heldLine va place = some x ∧ bs = x.bytes) := by
  unfold fetchedLine
  rw [ans_bind_ok (ans_get s)]
  cases hx : s.heldLine va place with
  | none => exact ⟨now, s.free, rfl, .inl rfl⟩
  | some x =>
    by_cases hb : x.bytes = now
    · exact ⟨now, s.free, by dsimp only; rw [if_pos hb]; rfl, .inl rfl⟩
    · dsimp only
      rw [if_neg hb, ans_bind_ok (ans_freeValue s)]
      cases (Config.freeWord s.free).getLsbD 0
      · exact ⟨now, _, rfl, .inl rfl⟩
      · exact ⟨x.bytes, _, rfl, .inr ⟨x, rfl, rfl⟩⟩

theorem lineFound_of_held {s : State} {x : Line} {a : Nat} (h : s.heldLine s.cur.flow.line (0, a) = some x) : LineFound s a x.bytes := by
  have hp := List.find?_some h
  simp only [Bool.and_eq_true, beq_iff_eq] at hp
  obtain ⟨⟨⟨hcore, hctx⟩, hva⟩, hplace⟩ := hp
  exact .inr ⟨x, List.mem_of_find?_eq_some h, hcore, hctx, hva, hplace, rfl⟩

/-- The state in which the header of the acting task's line is read: its page is walked, and a free value may be spent. -/
def State.fetching (s : State) (leaf : Word) (pa : Nat) (free : Nat) : State :=
  { s.walked s.cur.pool.die.toNat s.cur.coreOf true s.cur.pool.ctx s.cur.flow.line leaf pa false with free := free }

theorem fetching_cur (s : State) (leaf : Word) (pa free : Nat) : (s.fetching leaf pa free).cur = s.cur := by
  obtain ⟨m, r, tlb, coreTc, fetchTc, hw⟩ := walked_frame s s.cur.pool.die.toNat s.cur.coreOf true s.cur.pool.ctx s.cur.flow.line leaf pa false
  unfold State.fetching
  rw [hw]

/-- What follows the fetch of a line: its header is checked, and the sequencer goes to its first instruction (R61). -/
def enterBytes (t : Task) (a : Nat) (bytes : List Byte) : M Unit := do
  let lanes := lanesOf bytes
  let header := lanes.getD 0 0
  if !headerOk header then fetchFault fcLine
  modify fun s => s.holdLine t.flow.line (0, a) bytes
  match nextLane header 8 1 with
  | none => modTask fun t => { t with flow := { t.flow with line := t.flow.line + 32, lane := 1 } }
  | some l => modTask fun t => { t with flow := { t.flow with entered := true, lanes, lane := l } }

/-- The conditions of a fetch that meets nothing in its way: a present executable page of HBM whose leaf is apart from the line. -/
structure FetchGoes (s : State) (leaf : Word) (pa a : Nat) : Prop where
  wf : Memory.wf s.hbm = true
  entered : s.cur.flow.entered = false
  transit : s.transit = []
  poison : s.poison = []
  launches : s.launches = []
  walks : s.walks = []
  air : s.air = none
  queue : s.cur.queue .seq = []
  whole : s.halfWritten .hbm a = false
  lookup : s.lookup s.cur.pool.ctx s.cur.flow.line = .ok (leaf, pa)
  exec : leafX leaf = true
  plain : leafDlt leaf = false
  place : placeOf leaf s.cur.flow.line s.cur.cluster = (.hbm, a)
  apart : pa + 8 ≤ a ∨ a + 32 ≤ pa


theorem ans_tryCatch_ok {α : Type} {m : M α} {s s' : State} {a : α} (c : Stop → M α) (h : ans m s = (.ok a, s')) :
    ans (tryCatch m c) s = (.ok a, s') := by
  simp only [ans, tryCatch, tryCatchThe, MonadExceptOf.tryCatch, ExceptT.tryCatch, ExceptT.mk, ExceptT.run, StateT.run, bind, StateT.bind] at h ⊢
  rw [h]
  rfl

/-- An operation that goes on as another does from another state ends as that one does. -/
theorem runM_continues {m m' : M Unit} {s s' : State} (h : ans m s = ans m' s') :
    (∀ u, ans m' s' = (.ok ⟨⟩, u) → runM m s = .next u) ∧
      ∀ f u, ans m' s' = (.error (.fault f false), u) → runM m s = .next (takeFault f s) :=
  ⟨fun _ hu => runM_ok (h.trans hu), fun _ _ hu => runM_fault (keep := false) (h.trans hu)⟩

/-- Entering a line fetches one of the line's bytes that may be found and goes on with its header. -/
theorem exec_lineEntry {s : State} {leaf : Word} {pa a : Nat} (h : FetchGoes s leaf pa a) :
    ∃ bs free, LineFound s a bs ∧
      (∀ u, ans (enterBytes s.cur a bs) (s.fetching leaf pa free) = (.ok ⟨⟩, u) → exec .lineEntry s = .next u) ∧
      ∀ f u, ans (enterBytes s.cur a bs) (s.fetching leaf pa free) = (.error (.fault f false), u) →
        exec .lineEntry s = .next (takeFault f s) := by
  set s1 := s.walked s.cur.pool.die.toNat s.cur.coreOf true s.cur.pool.ctx s.cur.flow.line leaf pa false with hs1
  obtain ⟨m, r, tlb, coreTc, fetchTc, hw⟩ := walked_frame s s.cur.pool.die.toNat s.cur.coreOf true s.cur.pool.ctx s.cur.flow.line leaf pa false
  rw [← hs1] at hw
  have hcur : s1.cur = s.cur := by rw [hw]
  have hheld : ∀ va pl, s1.heldLine va pl = s.heldLine va pl := by rw [hw]; exact fun _ _ => rfl
  have hbytes : Mem.readN s1.hbm a 32 = Mem.readN s.hbm a 32 := by
    refine readN_congr fun i hi => ?_
    rw [hs1, walked_hbm, read_setNum_outside h.wf (by have := h.apart; omega)]
  obtain ⟨bs, free, hans, hbs⟩ := ans_fetchedLine s1 s.cur.flow.line (Space.hbm.code, a) (Mem.readN s1.hbm a 32)
  refine ⟨bs, free, ?_, ?_⟩
  · rcases hbs with rfl | ⟨x, hx, rfl⟩
    · exact .inl hbytes
    · exact lineFound_of_held ((hheld ..).symm.trans hx)
  show (∀ u, _ → execLineEntry s = _) ∧ ∀ f u, _ → execLineEntry s = _
  unfold execLineEntry
  rw [h.entered, if_neg (by simp)]
  refine runM_continues ?_
  have hload : ans (loadBytes { code := 0, stream := .seq, seq := s.cur.num .seq } leaf s.cur.flow.line 32) s1 =
      (.ok (Mem.readN s1.hbm a 32), s1) :=
    ans_loadBytes_fetch rfl (by rw [hcur]; exact h.queue) (by rw [hw]; exact h.poison) (by rw [hw]; exact h.air) h.plain
      (by rw [hcur]; exact h.place)
  dsimp only
  rw [inTransit_nil h.transit, if_neg (by simp), xlate_of_lookup h.launches h.lookup]
  dsimp only
  rw [h.exec, if_neg (by simp), ans_bind_ok (ans_walkTurn h.walks ..), ans_bind_ok (ans_modify ..), h.place]
  dsimp only
  rw [h.whole, if_neg (by simp), ans_bind_ok (ans_tryCatch_ok _ hload), ans_bind_ok hans]
  rfl

theorem headD_eq_getD (l : List Lane) : l.headD 0 = l.getD 0 0 := by cases l <;> rfl

/-- Where the sequencer stands once it has read a line: at its first instruction, or before the next line (R59). -/
def Flow.enterLanes (f : Flow) (lanes : List Lane) : Flow :=
  match nextLane (lanes.headD 0) 8 1 with
  | none => { f with line := f.line + 32, lane := 1 }
  | some l => { f with entered := true, lanes, lane := l }

/-- A task whose sequencer has read a line. -/
def Task.enterLanes (t : Task) (lanes : List Lane) : Task := { t with flow := t.flow.enterLanes lanes }

theorem ans_enterBytes_ok {s : State} {t : Task} {a : Nat} {bytes : List Byte} (hok : headerOk ((lanesOf bytes).headD 0) = true) :
    ans (enterBytes t a bytes) s =
      (.ok ⟨⟩, (s.holdLine t.flow.line (0, a) bytes).withTask (·.enterLanes (lanesOf bytes))) := by
  unfold enterBytes Task.enterLanes Flow.enterLanes
  rw [headD_eq_getD] at hok ⊢
  dsimp only
  rw [hok, if_neg (by simp), ans_bind_ok (ans_modify ..)]
  cases nextLane ((lanesOf bytes).getD 0 0) 8 1 <;> rfl

theorem ans_enterBytes_bad {s : State} {t : Task} {a : Nat} {bytes : List Byte} (hbad : headerOk ((lanesOf bytes).headD 0) = false)
    (hd : s.Drained) :
    ans (enterBytes t a bytes) s = (.error (.fault { code := 0x01, stream := .seq, seq := s.cur.num .seq, va := s.cur.flow.line } false), s) := by
  rw [headD_eq_getD] at hbad
  unfold enterBytes fetchFault
  dsimp only
  rw [hbad, if_pos (by rfl), ans_bind_error]
  rw [ans_bind_ok (ans_theTask s), ans_raiseAt_drained hd]
  rfl

theorem linesAreEnteredThroughTheirHeader : LinesAreEnteredThroughTheirHeader := by
  intro s leaf pa a hwf hin htr hpo hla hwa hair hq hhalf hlook hx hdlt hpl hap
  obtain ⟨bs, free, hfound, hgo, hfault⟩ := exec_lineEntry ⟨hwf.1, hin, htr, hpo, hla, hwa, hair, hq, hhalf, hlook, hx, hdlt, hpl, hap⟩
  refine ⟨bs, hfound, fun hok => ?_, fun hbad hd => ?_⟩
  · have hcur : (s.fetching leaf pa free).cur = s.cur := fetching_cur ..
    have ht : (((s.fetching leaf pa free).holdLine s.cur.flow.line (0, a) bs).withTask (·.enterLanes (lanesOf bs))).cur =
        s.cur.enterLanes (lanesOf bs) := by
      show (s.fetching leaf pa free).cur.enterLanes _ = _
      rw [hcur]
    refine ⟨_, hgo _ (ans_enterBytes_ok hok), ?_⟩
    rw [ht]
    refine ⟨rfl, rfl, ?_⟩
    unfold Task.enterLanes Flow.enterLanes
    cases nextLane ((lanesOf bs).headD 0) 8 1 with
    | none => exact ⟨rfl, hin, rfl⟩
    | some l => exact ⟨rfl, rfl, rfl, rfl⟩
  · have hcur : (s.fetching leaf pa free).cur = s.cur := fetching_cur ..
    have hd' : (s.fetching leaf pa free).Drained := by
      unfold State.Drained
      rw [hcur]
      exact hd
    rw [hfault _ _ (ans_enterBytes_bad hbad hd'), hcur]
    rfl

end Sys2Proof.Machine
end

section
namespace Sys2Proof.Machine

/-! ## Sources taken at a dispatch (R70) -/

/-- A source that is read takes from a port alone. -/
theorem take_ports {s s1 : State} {r : SReg} {x : Word} (h : s.take r = some (x, s1)) :
    ∃ p, s1 = s.withRegs fun g => { g with port := p } := by
  unfold State.take at h
  split at h
  · split at h
    · cases h
    · split at h
      · cases h
      · cases h
        exact ⟨_, rfl⟩
  · cases h
    exact ⟨s.cur.regs.port, rfl⟩

theorem takes_ports : ∀ {l : List SReg} {s s1 : State} {xs : List Word}, takes s l = some (xs, s1) →
    ∃ p, s1 = s.withRegs fun g => { g with port := p }
  | [], s, s1, xs, h => by
    cases h
    exact ⟨s.cur.regs.port, rfl⟩
  | r :: rest, s, s1, xs, h => by
    unfold takes at h
    split at h
    · cases h
    · rename_i x s0 h0
      split at h
      · cases h
      · rename_i ys s2 h1
        cases h
        obtain ⟨p, rfl⟩ := take_ports h0
        obtain ⟨q, rfl⟩ := takes_ports h1
        exact ⟨q, rfl⟩

theorem ans_capture : ∀ {l : List SReg} {s s1 : State} {xs : List Word}, takes s l = some (xs, s1) → ans (capture l) s = (.ok xs, s1)
  | [], s, s1, xs, h => by
    cases h
    rfl
  | r :: rest, s, s1, xs, h => by
    unfold takes at h
    split at h
    · cases h
    · rename_i x s0 h0
      split at h
      · cases h
      · rename_i ys s2 h1
        cases h
        unfold capture
        rw [ans_bind_ok (ans_readS h0), ans_bind_ok (ans_capture h1)]
        rfl

/-! ## The lane and the conditions of a dispatch -/

theorem laneAct_of_atQueueLane {s : State} {i : Instr} {k : Stream} {c : Ctx} (h : AtQueueLane s i k c) : s.laneAct = .run k i := by
  obtain ⟨-, -, -, -, -, -, -, hk, hc, hb, hd⟩ := h
  have hbr : s.breakAt = none := by
    unfold State.breakAt
    dsimp only
    rw [hc]
    dsimp only
    rw [hb]
    rfl
  unfold State.laneAct
  rw [hbr]
  dsimp only
  rw [hd, hk]

theorem exec_queueDispatch {s : State} {i : Instr} {k : Stream} {c : Ctx} (h : AtQueueLane s i k c) :
    exec .queueDispatch s = if s.cur.awaits i then .next s else runM (dispatchLane k i) s := by
  have hl := laneAct_of_atQueueLane h
  obtain ⟨-, hk, -, hr, hin, htimed, hfin, hlane, -, -, -⟩ := h
  show execQueueDispatch s = _
  unfold execQueueDispatch
  dsimp only
  rw [hr, hin, htimed, hfin, hlane, hl]
  simp [hk]

/-- A link instruction names no handle. -/
theorem handle_lnk {i : Instr} (h : Instr.stream i = some .lnk) : Instr.handle i = none := by
  cases i <;> cases h <;> rfl

/-- The entry at the tail of a queue for an instruction with its operands, before its handle is recorded. -/
def Task.newEntry (t : Task) (k : Stream) (i : Instr) (caps : List Word) : Entry :=
  { stream := k, num := t.num k, ins := i, caps, ord := t.ords, mark := t.marked, pfd := t.sys.pfd.toNat }

theorem entryOf_eq {s : State} {k : Stream} {i : Instr} {caps : List Word} (ha : i ≠ .afence) (h : Option Handle) :
    entryOf s k i caps h = { s.cur.newEntry k i caps with h } := by
  unfold entryOf Task.newEntry
  rw [if_neg ha]

theorem entryOf_none {s : State} {k : Stream} {i : Instr} {caps : List Word} (ha : i ≠ .afence) :
    entryOf s k i caps none = s.cur.newEntry k i caps := entryOf_eq ha none

theorem ne_afence_of_handle {i : Instr} {hr : HReg} (h : Instr.handle i = some hr) : i ≠ .afence := by
  rintro rfl
  cases h

/-! ## Recording a handle (R95) -/

/-- A fault on an access of a buffer tag, in a drained task. -/
theorem ans_raiseTag_drained {α : Type} {s : State} (h : s.Drained) (k : Stream) (tag code : Byte) (va : Word) :
    ans (raiseTag k tag code va : M α) s = (.error (.fault { code, stream := k, seq := s.cur.num k, tag, va } false), s) := by
  unfold raiseTag
  rw [ans_bind_ok (ans_theTask s), Task.drained_of h]
  rfl

theorem ans_handleCheck_passes {raise : Byte → Word → M Unit} {e : Entry} {x : Handle} {leaf : Word} (hout : e.outside leaf x.base = none)
    (hw : (Instr.writes e.ins e.stream && (!x.write || (e.stream == .stq && !leafW leaf))) = false) (s : State) :
    ans (handleCheck raise e x leaf) s = (.ok ⟨⟩, s) := by
  unfold handleCheck
  rw [hout]
  dsimp only
  rw [hw]
  rfl

theorem not_writes_of {i : Instr} {k : Stream} {b : Bool} (h : Instr.writes i k = true → b = true) : (Instr.writes i k && !b) = false := by
  cases hw : Instr.writes i k with
  | false => rfl
  | true => simp [h hw]

/-- A handle that passes its checks is recorded as it is. -/
theorem ans_recordHandle_passes {s s1 : State} {k : Stream} {i : Instr} {caps : List Word} {h : Option Handle} {hr : HReg}
    (hregs : s1.cur.regs.h = s.cur.regs.h) (hi : Instr.handle i = some hr) (hp : HandlePasses s k i caps h) :
    ∃ x, h = some x ∧ ans (recordHandle (s.cur.newEntry k i caps) hr) s1 = (.ok x, s1) := by
  unfold HandlePasses at hp
  rw [hi, entryOf_none (ne_afence_of_handle hi)] at hp
  obtain ⟨x, rfl, hx, hwr, hb⟩ := hp
  refine ⟨x, rfl, ?_⟩
  have hget : s1.cur.regs.rdH hr = x := by
    unfold Regs.rdH
    rw [hregs, hx]
  have hperm : (Instr.writes i k && !x.write) = false := not_writes_of hwr
  unfold recordHandle
  rw [ans_bind_ok (ans_theRegs s1)]
  dsimp only
  rw [hget]
  rcases hb with hb | ⟨c, hc, hb⟩ | ⟨leaf, hb, hout, hw⟩
  · rw [hb]
    dsimp only
    show ans (if (Instr.writes i k && !x.write) = true then _ else _) s1 = _
    rw [hperm]
    rfl
  · rw [hb]
    dsimp only
    rw [if_neg (show c ≠ fcBound from hc)]
    show ans (if (Instr.writes i k && !x.write) = true then _ else _) s1 = _
    rw [hperm]
    rfl
  · rw [hb]
    dsimp only
    refine ans_bind_ok (ans_handleCheck_passes hout ?_ s1)
    show (Instr.writes i k && (!x.write || (k == .stq && !leafW leaf))) = false
    cases hwi : Instr.writes i k with
    | false => rfl
    | true =>
      rw [hwr hwi]
      cases hk : k == .stq with
      | false => rfl
      | true => simp [hw hwi (eq_of_beq hk)]

/-- A handle that fails a check raises its fault once the task has drained. -/
theorem ans_recordHandle_fails {s s1 : State} {k : Stream} {i : Instr} {caps : List Word} {x : Handle} {hr : HReg} {code : Byte} {va : Word}
    (hd : s1.Drained) (hget : s1.cur.regs.rdH hr = x) (hi : i ≠ .afence) (hf : HandleFails s k i caps x code va) :
    ans (recordHandle (s.cur.newEntry k i caps) hr) s1 =
      (.error (.fault { code, stream := k, seq := s1.cur.num k, tag := x.tag, va } false), s1) := by
  unfold HandleFails at hf
  rw [entryOf_none hi] at hf
  have hraise : ∀ {α : Type} (code : Byte) (va : Word), ans (raiseTag k x.tag code va : M α) s1 =
      (.error (.fault { code, stream := k, seq := s1.cur.num k, tag := x.tag, va } false), s1) := fun code va => ans_raiseTag_drained hd ..
  unfold recordHandle
  rw [ans_bind_ok (ans_theRegs s1)]
  dsimp only
  rw [hget]
  rcases hf with ⟨hb | hb, rfl, rfl⟩ | ⟨hb, rfl, rfl⟩ | ⟨leaf, hb, hout, rfl⟩ |
    ⟨hwr, rfl, rfl, ⟨hx, hb | ⟨c, hc, hb⟩⟩ | ⟨leaf, hb, hout, hx⟩⟩
  · rw [hb]
    dsimp only
    exact ans_bind_error (hraise ..)
  · rw [hb]
    exact ans_bind_error (hraise ..)
  · rw [hb]
    exact ans_bind_error (hraise ..)
  · rw [hb]
    refine ans_bind_error ?_
    unfold handleCheck
    rw [hout]
    exact ans_bind_error (hraise ..)
  · rw [hb]
    dsimp only
    show ans (if (Instr.writes i k && !x.write) = true then _ else _) s1 = _
    rw [hwr, hx, if_pos (by rfl)]
    exact ans_bind_error (hraise ..)
  · rw [hb]
    dsimp only
    rw [if_neg (show c ≠ fcBound from hc)]
    show ans (if (Instr.writes i k && !x.write) = true then _ else _) s1 = _
    rw [hwr, hx, if_pos (by rfl)]
    exact ans_bind_error (hraise ..)
  · rw [hb]
    refine ans_bind_error ?_
    unfold handleCheck
    rw [hout]
    show ans (if (Instr.writes i k && (!x.write || (k == .stq && !leafW leaf))) = true then _ else _) s1 = _
    rw [if_pos]
    · exact hraise ..
    · rcases hx with hx | ⟨rfl, hx⟩ <;> simp [hwr, hx]

/-! ## The fields of a link transfer (R301) -/

theorem extract_eq_zero_iff (x : Word) (lo n : Nat) :
    x.extractLsb' lo n = 0 ↔ ∀ j, lo ≤ j → j < lo + n → x.getLsbD j = false := by
  constructor
  · intro h j hlo hhi
    have := congrArg (·.getLsbD (j - lo)) h
    simpa [BitVec.getLsbD_extractLsb', Nat.add_sub_cancel' hlo, show j - lo < n by omega] using this
  · intro h
    refine BitVec.eq_of_getLsbD_eq fun j hj => ?_
    simp [hj, h (lo + j) (by omega) (by omega)]

/-- The condition that linkFields refuses is that the fields do not fit. -/
theorem transferFits_iff {c : Ctx} {caps : List Word} :
    TransferFits c caps ↔ ¬(((caps.getD 0 0).extractLsb' 10 6 ≠ 0 ∨ (caps.getD 0 0).extractLsb' 24 40 ≠ 0) ∨
      selChan (caps.getD 0 0) < c.chanFirst ∨ c.chanFirst + c.chanCount ≤ selChan (caps.getD 0 0) ∨ (caps.getD 2 0).toNat < 1 ∨
      2 ^ 30 < (caps.getD 2 0).toNat) := by
  have hchan : selChan (caps.getD 0 0) = (caps.getD 0 0).toNat / 2 ^ 16 % 2 ^ 8 := by
    simp [selChan, BitVec.extractLsb'_toNat, Nat.shiftRight_eq_div_pow]
  have hbits : (∀ j, (10 ≤ j ∧ j < 16) ∨ 24 ≤ j → (caps.getD 0 0).getLsbD j = false) ↔
      (caps.getD 0 0).extractLsb' 10 6 = 0 ∧ (caps.getD 0 0).extractLsb' 24 40 = 0 := by
    rw [extract_eq_zero_iff, extract_eq_zero_iff]
    refine ⟨fun h => ⟨fun j h1 h2 => h j (.inl ⟨h1, h2⟩), fun j h1 _ => h j (.inr h1)⟩, fun h j hj => ?_⟩
    rcases hj with ⟨h1, h2⟩ | h1
    · exact h.1 j h1 h2
    · by_cases h2 : j < 64
      · exact h.2 j h1 h2
      · exact BitVec.getLsbD_of_ge _ _ (by omega)
  unfold TransferFits
  dsimp only
  rw [hbits, hchan]
  simp only [not_or, not_lt, not_le, ne_eq, not_not, and_assoc]

theorem ans_linkFields_fits {s : State} {c : Ctx} {caps : List Word} (hc : s.ctx? s.cur.pool.ctx = some c) (h : TransferFits c caps) :
    ans (linkFields caps) s = (.ok ⟨⟩, s) := by
  unfold linkFields
  rw [ans_bind_ok (ans_theCtx hc)]
  dsimp only
  rw [if_neg (transferFits_iff.1 h)]
  rfl

theorem ans_linkFields_unfit {s : State} {c : Ctx} {caps : List Word} (hc : s.ctx? s.cur.pool.ctx = some c) (h : ¬ TransferFits c caps)
    (hd : s.Drained) :
    ans (linkFields caps) s = (.error (.fault { code := 0x03, stream := .lnk, seq := s.cur.num .lnk, va := s.cur.nextPc } false), s) := by
  unfold linkFields
  rw [ans_bind_ok (ans_theCtx hc)]
  dsimp only
  rw [if_pos (not_not.1 fun hn => h (transferFits_iff.2 hn)), ans_bind_ok (ans_laneVa s), ans_raiseAt_drained hd]
  rfl

/-! ## The entry at the tail of its queue (R60) -/

/-- A task with an entry of n lanes at the tail of a queue. -/
def Task.dispatched (t : Task) (k : Stream) (e : Entry) (n : Nat) : Task :=
  { (t.setQueue k (t.queue k ++ [e])).bump k with ords := t.ords + 1, flow := t.flow.after n }

/-- What the dispatch of a return-free entry or of an afence does to the count of R274. -/
def Task.counted (t : Task) (i : Instr) : Task :=
  let t := if Instr.returnFree i then { t with freed := t.freed + 1 } else t
  if i = .afence then
    let last := (t.queue .atm).getLast?.map fun e => { e with caps := [BitVec.ofNat 64 t.freed] }
    { t.setQueue .atm ((t.queue .atm).dropLast ++ last.toList) with freed := 0 }
  else t

section
variable {s s1 : State} {k : Stream} {i : Instr} {caps : List Word} {n : Nat} {check : List Word → M Unit} {h : Option Handle}

theorem ans_dispatch (hport : i.portBad = false) (hroom : (s.cur.queue k).length < k.depth) (ht : takes s i.srcs = some (caps, s1))
    (hcheck : ans (check caps) s1 = (.ok ⟨⟩, s1)) (hp : HandlePasses s k i caps h) :
    ans (dispatch k i n check) s = (.ok ⟨⟩, s1.withTask (·.dispatched k { s.cur.newEntry k i caps with h } n)) := by
  unfold dispatch
  rw [ans_bind_ok (ans_portCheck k hport s), ans_bind_ok (ans_theTask s)]
  dsimp only
  rw [if_neg (by omega), ans_bind_ok (ans_capture ht), ans_bind_ok hcheck]
  cases hi : Instr.handle i with
  | none =>
    have hnone : h = none := by
      unfold HandlePasses at hp
      rwa [hi] at hp
    rw [hnone]
    rfl
  | some hr =>
    have hregs : s1.cur.regs.h = s.cur.regs.h := by
      obtain ⟨p, rfl⟩ := takes_ports ht
      rfl
    obtain ⟨x, rfl, hrec⟩ := ans_recordHandle_passes hregs hi hp
    exact (ans_bind_ok (ans_bind_ok hrec))

theorem ans_dispatch_full (hport : i.portBad = false) (hfull : k.depth ≤ (s.cur.queue k).length) :
    ans (dispatch k i n check) s = (.error .stall, s) := by
  unfold dispatch
  rw [ans_bind_ok (ans_portCheck k hport s), ans_bind_ok (ans_theTask s)]
  dsimp only
  rw [if_pos hfull]
  exact ans_bind_error (ans_stall s)

theorem ans_dispatch_unchecked {e : Stop} (hport : i.portBad = false) (hroom : (s.cur.queue k).length < k.depth)
    (ht : takes s i.srcs = some (caps, s1)) (hcheck : ans (check caps) s1 = (.error e, s1)) :
    ans (dispatch k i n check) s = (.error e, s1) := by
  unfold dispatch
  rw [ans_bind_ok (ans_portCheck k hport s), ans_bind_ok (ans_theTask s)]
  dsimp only
  rw [if_neg (by omega), ans_bind_ok (ans_capture ht), ans_bind_error hcheck]

theorem ans_dispatch_unrecorded {e : Stop} {hr : HReg} (hport : i.portBad = false) (hroom : (s.cur.queue k).length < k.depth)
    (ht : takes s i.srcs = some (caps, s1)) (hcheck : ans (check caps) s1 = (.ok ⟨⟩, s1)) (hi : Instr.handle i = some hr)
    (hrec : ans (recordHandle (s.cur.newEntry k i caps) hr) s1 = (.error e, s1)) :
    ans (dispatch k i n check) s = (.error e, s1) := by
  unfold dispatch
  rw [ans_bind_ok (ans_portCheck k hport s), ans_bind_ok (ans_theTask s)]
  dsimp only
  rw [if_neg (by omega), ans_bind_ok (ans_capture ht), ans_bind_ok hcheck, hi]
  exact ans_bind_error (ans_bind_error hrec)

end

theorem ans_copyRoom {s : State} (h : s.cur.copiesLeft < 16) : ans copyRoom s = (.ok ⟨⟩, s) := by
  unfold copyRoom
  rw [ans_bind_ok (ans_theTask s), if_neg (by omega)]
  rfl

theorem ans_copyRoom_full {s : State} (h : 16 ≤ s.cur.copiesLeft) : ans copyRoom s = (.error .stall, s) := by
  unfold copyRoom
  rw [ans_bind_ok (ans_theTask s), if_pos h]
  rfl

/-- The check of an instruction's own operands at its dispatch: of a transfer, its fields. -/
def laneCheck (k : Stream) (i : Instr) : List Word → M Unit :=
  match k, i with
  | _, .lstat _ => fun _ => pure ()
  | .lnk, _ => linkFields
  | _, _ => fun _ => pure ()

section
variable {s t : State} {k : Stream} {i : Instr} {e : Stop}

theorem ans_dispatchLane (hroom : k = .cpy → s.cur.copiesLeft < 16)
    (h : ans (dispatch k i (Instr.lanes i) (laneCheck k i)) s = (.ok ⟨⟩, t)) :
    ans (dispatchLane k i) s = (.ok ⟨⟩, t.withTask (·.counted i)) := by
  have hrest : ∀ {m : M Unit}, ans m s = (.ok ⟨⟩, t) → ans (do
      m
      if Instr.returnFree i then modTask fun t => { t with freed := t.freed + 1 }
      if i = .afence then modTask fun t =>
        let q := t.queue .atm
        let last := q.getLast?.map fun e => { e with caps := [BitVec.ofNat 64 t.freed] }
        { t.setQueue .atm (q.dropLast ++ last.toList) with freed := 0 }) s = (.ok ⟨⟩, t.withTask (·.counted i)) := by
    intro m hm
    rw [ans_bind_ok hm]
    unfold Task.counted
    by_cases hf : Instr.returnFree i = true <;> by_cases ha : i = .afence <;> simp only [hf, ha, if_true, if_false] <;> rfl
  unfold dispatchLane
  by_cases hk : k = .cpy
  · rw [if_pos hk, ans_bind_ok (ans_copyRoom (hroom hk))]
    exact hrest h
  · rw [if_neg hk]
    exact hrest h

theorem ans_dispatchLane_error (hroom : k = .cpy → s.cur.copiesLeft < 16)
    (h : ans (dispatch k i (Instr.lanes i) (laneCheck k i)) s = (.error e, t)) : ans (dispatchLane k i) s = (.error e, t) := by
  unfold dispatchLane
  by_cases hk : k = .cpy
  · rw [if_pos hk, ans_bind_ok (ans_copyRoom (hroom hk))]
    exact ans_bind_error h
  · rw [if_neg hk]
    exact ans_bind_error h

theorem ans_dispatchLane_full (hport : i.portBad = false) (hfull : k.depth ≤ (s.cur.queue k).length ∨ k = .cpy ∧ 16 ≤ s.cur.copiesLeft) :
    ans (dispatchLane k i) s = (.error .stall, s) := by
  by_cases hc : k = .cpy ∧ 16 ≤ s.cur.copiesLeft
  · obtain ⟨hk, hc⟩ := hc
    unfold dispatchLane
    rw [if_pos hk, ans_bind_error (ans_copyRoom_full hc)]
  · exact ans_dispatchLane_error (fun hk => not_le.1 fun h => hc ⟨hk, h⟩) (ans_dispatch_full hport (hfull.resolve_right hc))

end

theorem laneCheck_transfer {k : Stream} {i : Instr} (h : k = .lnk ∧ ∀ clr, i ≠ .lstat clr) : laneCheck k i = linkFields := by
  obtain ⟨rfl, h⟩ := h
  unfold laneCheck
  split
  · exact absurd rfl (h _)
  · rfl
  · rename_i hn
    exact absurd rfl hn

theorem laneCheck_other {k : Stream} {i : Instr} (h : ¬(k = .lnk ∧ ∀ clr, i ≠ .lstat clr)) : laneCheck k i = fun _ => pure () := by
  unfold laneCheck
  split
  · rfl
  · rename_i hn
    exact absurd ⟨rfl, fun clr => hn clr⟩ h
  · rfl

theorem ans_laneCheck {s : State} {k : Stream} {i : Instr} {c : Ctx} {caps : List Word} (hc : s.ctx? s.cur.pool.ctx = some c)
    (h : (k = .lnk ∧ ∀ clr, i ≠ .lstat clr) → TransferFits c caps) : ans (laneCheck k i caps) s = (.ok ⟨⟩, s) := by
  by_cases ht : k = .lnk ∧ ∀ clr, i ≠ .lstat clr
  · rw [laneCheck_transfer ht]
    exact ans_linkFields_fits hc (h ht)
  · rw [laneCheck_other ht]
    rfl

/-! ## What a dispatch leaves -/

theorem queue_setQueue_self (t : Task) (k : Stream) (q : List Entry) : (t.setQueue k q).queue k = q := Vector.getElem_set_self ..

theorem all_ix (k : Stream) : Stream.all[k.ix.val]? = some k := by cases k <;> rfl

theorem ix_injective {j k : Stream} (h : j.ix.val = k.ix.val) : j = k :=
  Option.some_injective _ ((all_ix j).symm.trans ((congrArg (Stream.all[·]?) h).trans (all_ix k)))

theorem queue_setQueue_other (t : Task) {j k : Stream} (q : List Entry) (h : j ≠ k) : (t.setQueue k q).queue j = t.queue j :=
  Vector.getElem_set_ne k.ix.isLt j.ix.isLt fun he => h (ix_injective he.symm)

theorem num_bump_other (t : Task) {j k : Stream} (h : j ≠ k) : (t.bump k).num j = t.num j :=
  Vector.getElem_set_ne k.ix.isLt j.ix.isLt fun he => h (ix_injective he.symm)

theorem dispatched_queue (t : Task) (k : Stream) (e : Entry) (n : Nat) : (t.dispatched k e n).queue k = t.queue k ++ [e] :=
  queue_setQueue_self ..

theorem dispatched_num (t : Task) (k : Stream) (e : Entry) (n : Nat) : (t.dispatched k e n).num k = t.num k + 1 :=
  num_bump (t.setQueue k _) k

theorem dispatched_other (t : Task) {j k : Stream} (e : Entry) (n : Nat) (h : j ≠ k) :
    (t.dispatched k e n).queue j = t.queue j ∧ (t.dispatched k e n).num j = t.num j :=
  ⟨queue_setQueue_other t _ h, num_bump_other (t.setQueue k _) h⟩

theorem returnFree_eq_countsFree (i : Instr) : Instr.returnFree i = countsFree i := by
  cases i
  case nbx op _ _ => cases op <;> rfl
  all_goals rfl

theorem counted_of_ne {t : Task} {i : Instr} (h : i ≠ .afence) :
    t.counted i = { t with freed := if countsFree i then t.freed + 1 else t.freed } := by
  unfold Task.counted
  rw [returnFree_eq_countsFree]
  dsimp only
  rw [if_neg h]
  cases countsFree i <;> rfl

/-- An afence at the tail of its queue takes the count and starts it anew. -/
theorem counted_afence {t : Task} {q : List Entry} {e : Entry} (h : t.queue .atm = q ++ [e]) :
    t.counted .afence = { t.setQueue .atm (q ++ [{ e with caps := [BitVec.ofNat 64 t.freed] }]) with freed := 0 } := by
  have hf : Instr.returnFree .afence = false := rfl
  simp only [Task.counted, hf, Bool.false_eq_true, if_false, if_true, h]
  simp

theorem queue_atm_afence {k : Stream} (h : Instr.stream .afence = some k) : k = .atm := (Option.some_injective _ h).symm

/-- An instruction that nothing holds becomes the entry at the tail of its queue. -/
theorem dispatchLane_appends {s s1 : State} {i : Instr} {k : Stream} {caps : List Word} {h : Option Handle}
    (hk : Instr.stream i = some k) (ht : takes s i.srcs = some (caps, s1))
    (hans : ans (dispatchLane k i) s =
      (.ok ⟨⟩, s1.withTask fun t => (t.dispatched k { s.cur.newEntry k i caps with h } (Instr.lanes i)).counted i)) :
    ∃ t, ans (dispatchLane k i) s = (.ok ⟨⟩, t) ∧ t.cur.queue k = s.cur.queue k ++ [entryOf s k i caps h] ∧ t.cur.num k = s.cur.num k + 1 ∧
      t.cur.regs = s1.cur.regs ∧ t.cur.flow = s.cur.flow.after (Instr.lanes i) ∧ t.cur.ords = s.cur.ords + 1 ∧
      t.cur.marked = s.cur.marked ∧ t.cur.freed = (if i = .afence then 0 else if countsFree i then s.cur.freed + 1 else s.cur.freed) ∧
      (∀ j, j ≠ k → t.cur.queue j = s.cur.queue j ∧ t.cur.num j = s.cur.num j) := by
  refine ⟨_, hans, ?_⟩
  obtain ⟨p, rfl⟩ := takes_ports ht
  have hq := dispatched_queue ((s.withRegs fun g => { g with port := p }).cur) k { s.cur.newEntry k i caps with h } (Instr.lanes i)
  have hn := dispatched_num ((s.withRegs fun g => { g with port := p }).cur) k { s.cur.newEntry k i caps with h } (Instr.lanes i)
  have ho := fun j => dispatched_other ((s.withRegs fun g => { g with port := p }).cur) (j := j) (k := k)
    { s.cur.newEntry k i caps with h } (Instr.lanes i)
  set t := ((s.withRegs fun g => { g with port := p }).cur).dispatched k { s.cur.newEntry k i caps with h } (Instr.lanes i)
  show (t.counted i).queue k = _ ∧ (t.counted i).num k = _ ∧ (t.counted i).regs = _ ∧ (t.counted i).flow = _ ∧ (t.counted i).ords = _ ∧
    (t.counted i).marked = _ ∧ (t.counted i).freed = _ ∧ ∀ j, j ≠ k → (t.counted i).queue j = _ ∧ (t.counted i).num j = _
  by_cases ha : i = .afence
  · subst ha
    obtain rfl := queue_atm_afence hk
    rw [counted_afence hq]
    refine ⟨queue_setQueue_self .., hn, rfl, rfl, rfl, rfl, rfl, fun j hj => ?_⟩
    exact ⟨(queue_setQueue_other _ _ hj).trans (ho j hj).1, (ho j hj).2⟩
  · rw [counted_of_ne ha]
    refine ⟨?_, hn, rfl, rfl, rfl, rfl, ?_, ho⟩
    · rw [entryOf_eq ha]
      exact hq
    · rw [if_neg ha]
      rfl

theorem room_of_drained {s : State} {k : Stream} (h : s.Drained) (hk : k ≠ .seq) : (s.cur.queue k).length < k.depth := by
  rw [h.1 k]
  cases k
  case seq => exact absurd rfl hk
  all_goals decide

theorem copiesLeft_of_drained {s : State} (h : s.Drained) : s.cur.copiesLeft < 16 := by
  have hv : s.cur.vcq.filter (!·.complete) = [] := List.filter_eq_nil_iff.2 fun c hc => by simp [h.2 c hc]
  unfold Task.copiesLeft
  rw [h.1 .cpy, hv]
  decide

theorem dispatchAppendsAnEntry : DispatchAppendsAnEntry := by
  intro s s1 i k caps c hat
  have hexec := exec_queueDispatch hat
  obtain ⟨hk, hseq, hport, -, -, -, -, -, hctx, -, -⟩ := hat
  refine ⟨fun haw => ?_, fun h haw ht hroom hcpy hfit hp => ?_, fun ht hfull => ?_, fun haw ht hd => ⟨fun hr code va hi hf => ?_, fun htr hunfit => ?_⟩⟩
  · rw [hexec, if_pos haw]
  · have hctx1 : s1.ctx? s1.cur.pool.ctx = some c := by
      obtain ⟨p, rfl⟩ := takes_ports ht
      exact hctx
    have hans := ans_dispatchLane hcpy (ans_dispatch hport hroom ht (ans_laneCheck hctx1 hfit) hp)
    obtain ⟨t, hok, hfacts⟩ := dispatchLane_appends hk ht hans
    exact ⟨t, by rw [hexec, haw, if_neg (by simp)]; exact runM_ok hok, hfacts⟩
  · rw [hexec, runM_stall (ans_dispatchLane_full hport hfull), ite_self]
  · obtain ⟨p, rfl⟩ := takes_ports ht
    have hlnk : ¬(k = .lnk ∧ ∀ clr, i ≠ .lstat clr) := by
      rintro ⟨rfl, -⟩
      rw [handle_lnk hk] at hi
      cases hi
    have hcheck := ans_laneCheck (s := s.withRegs fun g => { g with port := p }) (k := k) (i := i) (caps := caps) hctx fun h => absurd h hlnk
    have hrec := ans_recordHandle_fails (s := s) (s1 := s.withRegs fun g => { g with port := p }) (hr := hr) hd rfl
      (ne_afence_of_handle hi) hf
    rw [hexec, haw, if_neg (by simp), runM_fault (keep := false) (ans_dispatchLane_error (fun _ => copiesLeft_of_drained hd)
      (ans_dispatch_unrecorded hport (room_of_drained hd hseq) ht hcheck hi hrec))]
    rfl
  · obtain ⟨p, rfl⟩ := takes_ports ht
    have hcheck := ans_linkFields_unfit (s := s.withRegs fun g => { g with port := p }) hctx hunfit hd
    rw [← laneCheck_transfer htr] at hcheck
    rw [hexec, haw, if_neg (by simp), runM_fault (keep := false) (ans_dispatchLane_error (fun _ => copiesLeft_of_drained hd)
      (ans_dispatch_unchecked hport (room_of_drained hd hseq) ht hcheck)), htr.1]
    rfl

/-- Settles O15: a line is entered by its header, and a queue instruction is the entry at the tail of its queue. -/
theorem linesAndLanesAreHandled : Obligations.LinesAndLanesAreHandled :=
  ⟨linesAreEnteredThroughTheirHeader, dispatchAppendsAnEntry⟩

end Sys2Proof.Machine
end

section
namespace Sys2Proof.Machine

/-! ## Distances to sink (R309) -/

/-- What a round makes of a node's successors, from what the round before has settled. -/
def relax (before : Nat → Option Nat) (m : Option Nat) (l : List Nat) : Option Nat :=
  l.foldl (fun m x =>
    match m, before x with
    | some a, some b => some (max a (b + 1))
    | _, _ => none) m

theorem relax_none (before : Nat → Option Nat) (l : List Nat) : relax before none l = none := by
  unfold relax
  induction l with
  | nil => rfl
  | cons x l ih => exact ih

/-- A successor that is not settled keeps a node from being settled. -/
theorem relax_unsettled {before : Nat → Option Nat} {x : Nat} (hx : before x = none) : ∀ {l : List Nat} (m : Option Nat), x ∈ l →
    relax before m l = none
  | y :: l, m, h => by
    have hcons : relax before m (y :: l) = relax before (match m, before y with
        | some a, some b => some (max a (b + 1))
        | _, _ => none) l := rfl
    rcases List.mem_cons.1 h with rfl | h
    · rw [hcons, hx]
      cases m <;> exact relax_none before l
    · rw [hcons]
      exact relax_unsettled hx _ h

/-- Settled successors settle a node, above the farthest of them. -/
theorem relax_settled {before : Nat → Option Nat} {d : Nat → Nat} : ∀ {l : List Nat} (a : Nat), (∀ x ∈ l, before x = some (d x)) →
    relax before (some a) l = some (l.foldl (fun a x => max a (d x + 1)) a)
  | [], a, _ => rfl
  | x :: l, a, h => by
    have hx := h x List.mem_cons_self
    have hcons : relax before (some a) (x :: l) = relax before (match some a, before x with
        | some a, some b => some (max a (b + 1))
        | _, _ => none) l := rfl
    rw [hcons, hx]
    exact relax_settled _ fun y hy => h y (List.mem_cons_of_mem x hy)

/-- The farthest of m successors, as the recursion of R309 has it. -/
theorem foldl_max_eq (d : Nat → Nat) (m : Nat) :
    (List.range m).foldl (fun a j => max a (d j + 1)) 0 = if m = 0 then 0 else 1 + (Finset.range m).sup d := by
  induction m with
  | zero => rfl
  | succ m ih =>
    rw [List.range_succ, List.foldl_append, ih, Finset.range_add_one, Finset.sup_insert, if_neg (Nat.succ_ne_zero m)]
    simp only [List.foldl_cons, List.foldl_nil]
    split
    case isTrue h =>
      subst h
      simp [Nat.add_comm]
    case isFalse h =>
      omega

/-! ### The rounds over a graph of n nodes with m successors each -/

section
variable {n : Nat} {m : Nat → Nat} {succ : Nat → Nat → Nat} {dist : Nat → Nat}

/-- The successor lists of a graph. -/
def succLists (n : Nat) (m : Nat → Nat) (succ : Nat → Nat → Nat) : List (List Nat) :=
  (List.range n).map fun i => (List.range (m i)).map (succ i)

theorem distRounds_zero (G : List (List Nat)) (i : Nat) : (distRounds G 0).getD i none = none := by
  unfold distRounds
  rw [List.getD_eq_getElem?_getD, List.getElem?_map]
  cases G[i]? <;> rfl

theorem distRounds_succ (k : Nat) {i : Nat} (hi : i < n) :
    (distRounds (succLists n m succ) (k + 1)).getD i none =
      relax (fun x => (distRounds (succLists n m succ) k).getD x none) (some 0) ((List.range (m i)).map (succ i)) := by
  rw [distRounds]
  simp only [succLists, List.getD_eq_getElem?_getD, List.getElem?_map, List.getElem?_range hi]
  rfl

theorem length_distRounds (k : Nat) : (distRounds (succLists n m succ) k).length = n := by
  cases k <;> simp [distRounds, succLists]

/-- The distances of a graph without a cycle, as R309 gives them. -/
def DistIs (n : Nat) (m : Nat → Nat) (succ : Nat → Nat → Nat) (dist : Nat → Nat) : Prop :=
  ∀ i < n, dist i = if m i = 0 then 0 else 1 + (Finset.range (m i)).sup fun j => dist (succ i j)

theorem DistIs.succ_lt (h : DistIs n m succ dist) {i j : Nat} (hi : i < n) (hj : j < m i) : dist (succ i j) < dist i := by
  have hle : dist (succ i j) ≤ (Finset.range (m i)).sup fun j => dist (succ i j) :=
    Finset.le_sup (f := fun j => dist (succ i j)) (Finset.mem_range.2 hj)
  rw [h i hi, if_neg (by omega)]
  omega

/-- As many rounds as a node's distance and one more settle it. -/
theorem DistIs.settled (h : DistIs n m succ dist) (hs : ∀ i < n, ∀ j < m i, succ i j < n) : ∀ (k i : Nat), i < n → dist i < k →
    (distRounds (succLists n m succ) k).getD i none = some (dist i)
  | 0, i, _, hk => absurd hk (Nat.not_lt_zero _)
  | k + 1, i, hi, hk => by
    have hbefore : ∀ x ∈ (List.range (m i)).map (succ i), (distRounds (succLists n m succ) k).getD x none = some (dist x) := by
      intro x hx
      obtain ⟨j, hj, rfl⟩ := List.mem_map.1 hx
      have hj := List.mem_range.1 hj
      have hlt := h.succ_lt hi hj
      exact DistIs.settled h hs k (succ i j) (hs i hi j hj) (by omega)
    rw [distRounds_succ k hi, relax_settled 0 hbefore, List.foldl_map, foldl_max_eq (fun j => dist (succ i j)), ← h i hi]

/-- Below a node's distance every distance is some node's. -/
theorem DistIs.below (h : DistIs n m succ dist) (hs : ∀ i < n, ∀ j < m i, succ i j < n) : ∀ (e i : Nat), i < n → ∀ v, v + e = dist i →
    ∃ j < n, dist j = v
  | 0, i, hi, v, hv => ⟨i, hi, hv.symm⟩
  | e + 1, i, hi, v, hv => by
    have hd := h i hi
    have hm : m i ≠ 0 := fun h0 => by rw [if_pos h0] at hd; omega
    rw [if_neg hm] at hd
    obtain ⟨j, hj, hsup⟩ := Finset.exists_mem_eq_sup (Finset.range (m i)) ⟨0, Finset.mem_range.2 (by omega)⟩ fun j => dist (succ i j)
    exact DistIs.below h hs e (succ i j) (hs i hi j (Finset.mem_range.1 hj)) v (by omega)

/-- A distance is less than the number of nodes. -/
theorem DistIs.lt (h : DistIs n m succ dist) (hs : ∀ i < n, ∀ j < m i, succ i j < n) {i : Nat} (hi : i < n) : dist i < n := by
  have hsub : Finset.range (dist i + 1) ⊆ (Finset.range n).image dist := fun v hv => by
    have hv := Finset.mem_range.1 hv
    obtain ⟨j, hj, hd⟩ := h.below hs (dist i - v) i hi v (by omega)
    exact Finset.mem_image.2 ⟨j, Finset.mem_range.2 hj, hd⟩
  have hcard := (Finset.card_le_card hsub).trans Finset.card_image_le
  rw [Finset.card_range, Finset.card_range] at hcard
  omega

theorem DistIs.rounds (h : DistIs n m succ dist) (hs : ∀ i < n, ∀ j < m i, succ i j < n) :
    distRounds (succLists n m succ) n = (List.range n).map fun i => some (dist i) := by
  refine List.ext_getElem (by rw [length_distRounds]; simp) fun i hi hi' => ?_
  have hin : i < n := by rwa [length_distRounds] at hi
  have hd := h.settled hs n i hin (h.lt hs hin)
  rw [List.getD_eq_getElem _ _ hi] at hd
  rw [hd]
  simp

/-- The nodes of a cycle are never settled. -/
theorem distRounds_cycle {c : Nat → Nat} (hc : ∀ k, c k < n ∧ ∃ j < m (c k), c (k + 1) = succ (c k) j) : ∀ k i : Nat,
    (distRounds (succLists n m succ) k).getD (c i) none = none
  | 0, i => distRounds_zero ..
  | k + 1, i => by
    obtain ⟨hi, j, hj, hnext⟩ := hc i
    rw [distRounds_succ k hi]
    refine relax_unsettled (x := c (i + 1)) (distRounds_cycle hc k (i + 1)) _ ?_
    exact List.mem_map.2 ⟨j, List.mem_range.2 hj, hnext.symm⟩

end

end Sys2Proof.Machine
end

section
namespace Sys2Proof.Machine

/-! ## Owners (R310, R360) -/

/-- The die of a VA that an owner may be taken from. -/
def State.dieAt (s : State) (l : Launch) (va : Word) : Option (BitVec 2) :=
  if va = 0 ∨ l.inWindow va = true then none else
  match s.lookup l.ctx va with
  | .ok (leaf, _) => if localHbm leaf then some (BitVec.ofNat 2 (dieOf (placeOf leaf va 0).2)) else none
  | .error _ => none

theorem ownerOf_eq (s : State) (l : Launch) (i : Nat) (bs : List Byte) :
    s.ownerOf l i bs = ((s.dieAt l (fieldAt 64 bs 0x30)).orElse fun _ =>
      if (fieldAt 16 bs 2).getLsbD 0 then s.dieAt l (fieldAt 64 bs 0x38) else none).getD (BitVec.ofNat 2 i) := rfl

/-- A page of this chip's HBM lies in one of its four dies. -/
theorem placeOf_local {leaf va : Word} (hok : GoodLeaf leaf) (h : localHbm leaf = true) :
    ∃ pa, placeOf leaf va 0 = (.hbm, pa) ∧ pa < 2 ^ 39 := by
  obtain ⟨hap, hlow⟩ : leafAp leaf = 0 ∧ leafPfn leaf * 4096 < csramBase := by simpa [localHbm] using h
  have hb := hok.page_below hap hlow
  have hlt := Nat.mod_lt va.toNat (pageBytes_pos (leafSz leaf))
  have hm := hok.page_mapped hap hlow
  refine ⟨leafPfn leaf * 4096 + va.toNat % pageBytes (leafSz leaf), ?_, (Nat.add_lt_add_left hlt _).trans_le hm⟩
  simp only [placeOf, hap]
  rw [if_pos ((Nat.add_lt_add_left hlt _).trans_le hb)]

/-- The die of an address is the one that R310 takes. -/
theorem dieAt_eq_some {s : State} {l : Launch} {va : Word} {d : BitVec 2} (h : s.dieAt l va = some d) : LocalDie s l va d.toNat := by
  unfold State.dieAt at h
  split_ifs at h with h0
  obtain ⟨hne, hwin⟩ := not_or.1 h0
  split at h
  case h_2 => cases h
  case h_1 leaf pa hl =>
    split_ifs at h with hloc
    obtain ⟨p, hp, hlt⟩ := placeOf_local (va := va) (State.lookup_ok hl).1 hloc
    refine ⟨hne, Bool.not_eq_true _ ▸ hwin, leaf, p, ⟨pa, hl⟩, hloc, hp, ?_⟩
    rw [hp] at h
    cases h
    show (BitVec.ofNat 2 (p / 2 ^ 37 % 4)).toNat = p / 2 ^ 37
    rw [BitVec.toNat_ofNat]
    omega

theorem localDie_unique {s : State} {l : Launch} {va : Word} {d : Nat} (h : LocalDie s l va d) :
    ∃ e, s.dieAt l va = some e ∧ e.toNat = d := by
  obtain ⟨h0, hwin, leaf, p, ⟨pa, hl⟩, hloc, hp, rfl⟩ := h
  obtain ⟨p', hp', hlt⟩ := placeOf_local (va := va) (State.lookup_ok hl).1 hloc
  obtain rfl : p = p' := (Prod.mk.inj (hp.symm.trans hp')).2
  refine ⟨BitVec.ofNat 2 (dieOf p), ?_, ?_⟩
  · unfold State.dieAt
    rw [if_neg (not_or.2 ⟨h0, by simp [hwin]⟩), hl]
    simp only [hloc, if_true, hp]
  · show (BitVec.ofNat 2 (p / 2 ^ 37 % 4)).toNat = p / 2 ^ 37
    rw [BitVec.toNat_ofNat]
    omega

theorem dieAt_eq_none {s : State} {l : Launch} {va : Word} (h : ∀ x, ¬ LocalDie s l va x) : s.dieAt l va = none := by
  cases hd : s.dieAt l va with
  | none => rfl
  | some d => exact absurd (dieAt_eq_some hd) (h _)

theorem toNat_fieldAt (w : Nat) (bs : List Byte) (off : Nat) (h : (w + 7) / 8 * 8 = w) :
    (fieldAt w bs off).toNat = leNat ((bs.drop off).take ((w + 7) / 8)) := by
  unfold fieldAt
  rw [BitVec.toNat_ofNat]
  refine Nat.mod_eq_of_lt ((leNat_lt_pow _).trans_le ?_)
  calc 256 ^ ((bs.drop off).take ((w + 7) / 8)).length ≤ 256 ^ ((w + 7) / 8) := Nat.pow_le_pow_right (by decide) (List.length_take_le ..)
    _ = 2 ^ w := by rw [show (256 : Nat) = 2 ^ 8 from rfl, ← Nat.pow_mul, Nat.mul_comm, h]

/-- The owner of a node is the one that R310's rules in order give. -/
theorem toNat_ownerOf {s : State} {l : Launch} {i d : Nat} {bs : List Byte} (h : OwnerIs s l i bs d) : (s.ownerOf l i bs).toNat = d := by
  have hflag : (fieldAt 16 bs 2).getLsbD 0 = true ↔ leNat ((bs.drop 2).take 2) % 2 = 1 := by
    rw [← toNat_fieldAt 16 bs 2 rfl]
    simp [BitVec.getLsbD, Nat.testBit_zero]
  rw [ownerOf_eq]
  rcases h with h | ⟨hw, hflags, h⟩ | ⟨hw, hr, rfl⟩
  · obtain ⟨e, he, rfl⟩ := localDie_unique h
    rw [show s.dieAt l (fieldAt 64 bs 0x30) = some e from he]
    rfl
  · obtain ⟨e, he, rfl⟩ := localDie_unique h
    rw [show s.dieAt l (fieldAt 64 bs 0x30) = none from dieAt_eq_none hw, if_pos (hflag.2 hflags),
      show s.dieAt l (fieldAt 64 bs 0x38) = some e from he]
    rfl
  · have hsecond : (if (fieldAt 16 bs 2).getLsbD 0 then s.dieAt l (fieldAt 64 bs 0x38) else none) = none := by
      split
      case isTrue hf => exact dieAt_eq_none fun x hx => hr ⟨hflag.1 hf, x, hx⟩
      case isFalse => rfl
    rw [show s.dieAt l (fieldAt 64 bs 0x30) = none from dieAt_eq_none hw, hsecond]
    show (BitVec.ofNat 2 i).toNat = i % 4
    rw [BitVec.toNat_ofNat]

/-! ## The nodes of a launch (R40, R41, R313) -/

theorem mapM_ok {ε α β : Type} {f : α → Except ε β} {g : α → β} : ∀ {l : List α}, (∀ a ∈ l, f a = .ok (g a)) → l.mapM f = .ok (l.map g)
  | [], _ => rfl
  | a :: l, h => by
    rw [List.mapM_cons, h a List.mem_cons_self, mapM_ok fun b hb => h b (List.mem_cons_of_mem a hb)]
    rfl

/-- The node of a record and of its list of successors, as a pass reads them. -/
def nodeRead (s : State) (l : Launch) (i : Nat) (bs ss : List Byte) : NodeRead :=
  let succ := (List.range (succN bs)).map (succOf ss)
  { node := { owner := s.ownerOf l i bs, tpl := (fieldAt 16 bs 0).setWidth 10, init := leNat ((bs.drop 4).take 4),
              arg0 := fieldAt 64 bs 0x20, arg1 := fieldAt 64 bs 0x28 },
    succ,
    bad := (fieldAt 16 bs 0).extractLsb' 10 6 != 0 || (fieldAt 16 bs 2).extractLsb' 1 15 != 0 || succ.any fun x => decide (l.nodeCnt ≤ x) }

theorem readNode_eq {s : State} {l : Launch} {R S : Nat → List Byte} (h : GraphIs s l R S) {i : Nat} (hi : i < l.nodeCnt) :
    s.readNode l i = .ok (nodeRead s l i (R i) (S i)) := by
  obtain ⟨hr, hs⟩ := h i hi
  have hs' : s.passRead l.ctx (fieldAt 64 (R i) 0x10) (4 * leNat (((R i).drop 0x18).take 4)) = .ok (S i) := hs
  unfold State.readNode
  rw [hr]
  dsimp only
  rw [hs']
  rfl

theorem extract_ne_zero_iff {w : Nat} (x : BitVec w) (lo n : Nat) (hw : lo + n = w) : (x.extractLsb' lo n != 0) = true ↔ 2 ^ lo ≤ x.toNat := by
  have hx : x.toNat / 2 ^ lo < 2 ^ n := by
    rw [Nat.div_lt_iff_lt_mul (Nat.two_pow_pos lo), ← Nat.pow_add, Nat.add_comm n lo, hw]
    exact x.isLt
  rw [bne_iff_ne, ne_eq, ← BitVec.toNat_inj, BitVec.extractLsb'_toNat, Nat.shiftRight_eq_div_pow, Nat.mod_eq_of_lt hx]
  show x.toNat / 2 ^ lo ≠ 0 ↔ _
  rw [Nat.div_ne_zero_iff]
  simp

/-- A node is marked bad when its record breaks R40. -/
theorem nodeRead_bad {s : State} {l : Launch} {i : Nat} {bs ss : List Byte} : (nodeRead s l i bs ss).bad = true ↔ NodeBad l bs ss := by
  unfold nodeRead NodeBad
  simp only [Bool.or_eq_true, extract_ne_zero_iff _ 10 6 rfl, extract_ne_zero_iff _ 1 15 rfl, toNat_fieldAt 16 _ _ rfl, List.drop_zero, List.any_eq_true,
    List.mem_map, List.mem_range, decide_eq_true_eq, or_assoc]
  refine or_congr_right (or_congr_right ⟨?_, fun ⟨j, hj, hle⟩ => ⟨_, ⟨j, hj, rfl⟩, hle⟩⟩)
  rintro ⟨_, ⟨j, hj, rfl⟩, hle⟩
  exact ⟨j, hj, hle⟩

section
variable {s : State} {l : Launch} {R S : Nat → List Byte}

/-- The node reads of a whole table. -/
def nodeReads (s : State) (l : Launch) (R S : Nat → List Byte) : List NodeRead :=
  (List.range l.nodeCnt).map fun i => nodeRead s l i (R i) (S i)

theorem mapM_readNode (h : GraphIs s l R S) : (List.range l.nodeCnt).mapM (s.readNode l) = .ok (nodeReads s l R S) :=
  mapM_ok fun _ hi => readNode_eq h (List.mem_range.1 hi)

theorem nodeReads_succ : (nodeReads s l R S).map (·.succ) = succLists l.nodeCnt (fun i => succN (R i)) fun i => succOf (S i) := by
  unfold nodeReads succLists
  rw [List.map_map]
  rfl

theorem nodeReads_bad {i : Nat} (hi : i < l.nodeCnt) :
    (((nodeReads s l R S)[i]?).map (·.bad)).getD false = (nodeRead s l i (R i) (S i)).bad := by
  unfold nodeReads
  rw [List.getElem?_map, List.getElem?_range hi]
  rfl

/-- A node of a launch with its distance. -/
def passNode (s : State) (l : Launch) (R S : Nat → List Byte) (dist : Nat → Nat) (i : Nat) : Node :=
  { (nodeRead s l i (R i) (S i)).node with dist := dist i }

/-- A graph that keeps R40 gives its nodes with their distances. -/
theorem passNodes_ok {dist : Nat → Nat} (h : GraphIs s l R S) (hgood : ∀ i < l.nodeCnt, ¬ NodeBad l (R i) (S i))
    (hdist : DistIs l.nodeCnt (fun i => succN (R i)) (fun i => succOf (S i)) dist) :
    s.passNodes l = .ok ((List.range l.nodeCnt).map (passNode s l R S dist)) := by
  have hs : ∀ i < l.nodeCnt, ∀ j < succN (R i), succOf (S i) j < l.nodeCnt := fun i hi j hj =>
    not_le.1 fun hle => hgood i hi (.inr (.inr ⟨j, hj, hle⟩))
  have hbad : (List.range l.nodeCnt).find? (fun i => (((nodeReads s l R S)[i]?).map (·.bad)).getD false) = none := by
    refine List.find?_eq_none.2 fun i hi hb => hgood i (List.mem_range.1 hi) ?_
    rw [nodeReads_bad (List.mem_range.1 hi)] at hb
    exact nodeRead_bad.1 hb
  have hrounds := hdist.rounds hs
  have hcyc : (List.range l.nodeCnt).find? (fun i => (((List.range l.nodeCnt).map fun i => some (dist i)).getD i none).isNone) = none := by
    refine List.find?_eq_none.2 fun i hi hb => ?_
    simp [List.getD_eq_getElem?_getD, List.getElem?_range (List.mem_range.1 hi)] at hb
  unfold State.passNodes
  rw [mapM_readNode h]
  dsimp only
  rw [nodeReads_succ, hrounds, hbad, hcyc]
  dsimp only
  unfold nodeReads
  rw [List.zip_map', List.map_map]
  rfl

/-- A record that breaks R40, or a cycle, makes the pass fail at some node. -/
theorem passNodes_fault (h : GraphIs s l R S) (hbad : (∃ i < l.nodeCnt, NodeBad l (R i) (S i)) ∨
      ∃ c : Nat → Nat, ∀ k, c k < l.nodeCnt ∧ ∃ j < succN (R (c k)), c (k + 1) = succOf (S (c k)) j) :
    ∃ i, s.passNodes l = .error (.fault fcField i) := by
  unfold State.passNodes
  rw [mapM_readNode h]
  dsimp only
  rw [nodeReads_succ]
  cases hb : (List.range l.nodeCnt).find? (fun i => (((nodeReads s l R S)[i]?).map (·.bad)).getD false) with
  | some i => exact ⟨i, rfl⟩
  | none =>
    have hgood : ∀ i < l.nodeCnt, ¬ NodeBad l (R i) (S i) := fun i hi hn => by
      refine List.find?_eq_none.1 hb i (List.mem_range.2 hi) ?_
      rw [nodeReads_bad hi]
      exact nodeRead_bad.2 hn
    obtain ⟨c, hc⟩ := hbad.resolve_left fun ⟨i, hi, hn⟩ => hgood i hi hn
    have hnone := distRounds_cycle (m := fun i => succN (R i)) (succ := fun i => succOf (S i)) hc l.nodeCnt 0
    cases hd : (List.range l.nodeCnt).find? fun i =>
        ((distRounds (succLists l.nodeCnt (fun i => succN (R i)) fun i => succOf (S i)) l.nodeCnt).getD i none).isNone with
    | some i => exact ⟨i, rfl⟩
    | none =>
      refine absurd ?_ (List.find?_eq_none.1 hd (c 0) (List.mem_range.2 (hc 0).1))
      rw [hnone]
      rfl

end

end Sys2Proof.Machine
end

section
namespace Sys2Proof.Machine

/-! ## What a pass keeps (R312 to R314, R414) -/

/-- A state in which, so far, a pass has written at most some bytes of HBM. -/
structure State.PassKeeps (s t : State) (F : Nat → Prop) : Prop where
  ctxs : t.ctxs = s.ctxs
  launches : t.launches = s.launches
  cur : t.cur = s.cur
  others : t.others = s.others
  wf : Memory.wf t.hbm = true
  keep : ∀ z, ¬ F z → Mem.read t.hbm z = Mem.read s.hbm z

theorem State.PassKeeps.refl {s : State} (F : Nat → Prop) (hm : Memory.wf s.hbm = true) : s.PassKeeps s F := ⟨rfl, rfl, rfl, rfl, hm, fun _ _ => rfl⟩

/-- The chunks of a range each stand where the tables map their first byte. -/
theorem chunks_mapped {s : State} {n cluster : Nat} : ∀ {fuel : Nat} {va : Word} {len : Nat} {cs : List Chunk},
    chunks (fun a => match s.lookup n a with | .ok (l, p) => .ok (l, some p) | .error c => .error c) cluster fuel va len = .ok cs →
    ∀ c ∈ cs, ∃ pa, c.entry = some pa ∧ s.lookup n c.va = .ok (c.leaf, pa)
  | 0, va, len, cs, h => by
    cases h
    simp
  | fuel + 1, va, len, cs, h => by
    rw [chunks] at h
    split at h
    · cases h
      simp
    · cases hl : s.lookup n va with
      | error c =>
        rw [hl] at h
        cases h
      | ok x =>
        obtain ⟨leaf, pa⟩ := x
        rw [hl] at h
        dsimp only at h
        split at h
        · cases h
        · rename_i r hr
          cases h
          intro c hc
          rcases List.mem_cons.1 hc with rfl | hc
          · exact ⟨pa, rfl, hl⟩
          · exact chunks_mapped hr c hc

section
variable {s u : State} {n : Nat} {F : Nat → Prop}

theorem State.PassKeeps.lookup (h : s.PassKeeps u F) (hT : TablesKeep s n F) (va : Word) : u.lookup n va = s.lookup n va :=
  lookup_of_tablesKeep hT h.ctxs h.keep va

theorem State.PassKeeps.ctxChunks (h : s.PassKeeps u F) (hT : TablesKeep s n F) (va : Word) (len : Nat) :
    u.ctxChunks n va len = s.ctxChunks n va len := by
  simp only [State.ctxChunks, h.lookup hT]

/-- A walk of a pass to a marked page changes nothing that a pass keeps, and no byte of HBM. -/
theorem State.PassKeeps.walked (h : s.PassKeeps u F) (hT : TablesKeep s n F) (hM : MarkedPages s n) {va leaf : Word} {pa : Nat}
    (hl : s.lookup n va = .ok (leaf, pa)) (die : Nat) (write : Bool) :
    s.PassKeeps (u.walked die none false n va leaf pa write) F ∧
      ∀ z, Mem.read (u.walked die none false n va leaf pa write).hbm z = Mem.read u.hbm z := by
  obtain ⟨hA, hD⟩ := hM va leaf ⟨pa, hl⟩
  have hread := read_walked_marked h.wf ((h.lookup hT va).trans hl) hA (fun _ => hD) die none false (write := write)
  refine ⟨⟨h.ctxs, h.launches, h.cur, h.others, ?_, fun z hz => (hread z).trans (h.keep z hz)⟩, hread⟩
  rw [walked_hbm]
  exact wf_setNum _ _ _ _ h.wf

theorem State.PassKeeps.walkedChunks (hT : TablesKeep s n F) (hM : MarkedPages s n) (die : Nat) (write : Bool) :
    ∀ {cs : List Chunk} {u : State}, s.PassKeeps u F → (∀ c ∈ cs, ∃ pa, c.entry = some pa ∧ s.lookup n c.va = .ok (c.leaf, pa)) →
      s.PassKeeps (u.walkedChunks die n write cs) F ∧ ∀ z, Mem.read (u.walkedChunks die n write cs).hbm z = Mem.read u.hbm z
  | [], u, h, _ => ⟨h, fun _ => rfl⟩
  | c :: cs, u, h, hcs => by
    obtain ⟨pa, he, hl⟩ := hcs c List.mem_cons_self
    obtain ⟨h1, hr1⟩ := h.walked hT hM hl die write
    obtain ⟨h2, hr2⟩ := State.PassKeeps.walkedChunks hT hM die write h1 fun x hx => hcs x (List.mem_cons_of_mem c hx)
    have hstep : u.walkedChunks die n write (c :: cs) = (u.walked die none false n c.va c.leaf pa write).walkedChunks die n write cs := by
      simp only [State.walkedChunks, List.foldl_cons, he]
    rw [hstep]
    exact ⟨h2, fun z => (hr2 z).trans (hr1 z)⟩

theorem State.PassKeeps.walkedRange (h : s.PassKeeps u F) (hT : TablesKeep s n F) (hM : MarkedPages s n) (die : Nat) (va : Word) (len : Nat) :
    s.PassKeeps (u.walkedRange die n va len) F ∧ ∀ z, Mem.read (u.walkedRange die n va len).hbm z = Mem.read u.hbm z := by
  unfold State.walkedRange
  rw [h.ctxChunks hT]
  split
  case h_1 cs hc => exact h.walkedChunks hT hM die false (chunks_mapped hc)
  case h_2 => exact ⟨h, fun _ => rfl⟩

end

/-- The pages of a table and its successor lists are read without a change of HBM. -/
theorem walkedTable_keeps {s : State} {l : Launch} {F : Nat → Prop} (hm : Memory.wf s.hbm = true) (hT : TablesKeep s l.ctx F)
    (hM : MarkedPages s l.ctx) (die : Nat) :
    s.PassKeeps (s.walkedTable l die) F ∧ ∀ z, Mem.read (s.walkedTable l die).hbm z = Mem.read s.hbm z := by
  unfold State.walkedTable
  refine List.foldlRecOn (motive := fun t => s.PassKeeps t F ∧ ∀ z, Mem.read t.hbm z = Mem.read s.hbm z) _ _ ⟨.refl F hm, fun _ => rfl⟩
    fun t ⟨ht, hr⟩ i _ => ?_
  split
  case h_1 bs _ =>
    obtain ⟨h1, hr1⟩ := ht.walkedRange hT hM die (l.nodeVa i) 64
    obtain ⟨h2, hr2⟩ := h1.walkedRange hT hM die (fieldAt 64 bs 0x10) (4 * leNat ((bs.drop 0x18).take 4))
    exact ⟨h2, fun z => (hr2 z).trans ((hr1 z).trans (hr z))⟩
  case h_2 => exact ⟨ht, hr⟩

/-! ## The DIST words of a die (R312) -/

/-- Four bytes of a pass in one page of HBM are written, and nothing else. -/
theorem State.PassKeeps.hbmWrite {s u : State} {F : Nat → Prop} (h : s.PassKeeps u F) {a x : Nat} (hF : ∀ z, a ≤ z → z < a + 4 → F z) :
    s.PassKeeps (u.hbmWrite a (leBytes 4 x)) F ∧ Mem.num (u.hbmWrite a (leBytes 4 x)).hbm a 4 = x % 256 ^ 4 ∧
      ∀ z, z < a ∨ a + 4 ≤ z → Mem.read (u.hbmWrite a (leBytes 4 x)).hbm z = Mem.read u.hbm z := by
  have hsame := hbmWrite_same u a (leBytes 4 x)
  have hout : ∀ z, z < a ∨ a + 4 ≤ z → Mem.read (u.hbmWrite a (leBytes 4 x)).hbm z = Mem.read u.hbm z := fun z hz => by
    rw [hbmWrite_leBytes_hbm]
    exact read_setNum_outside h.wf hz
  refine ⟨⟨hsame.ctxs.trans h.ctxs, hsame.launches.trans h.launches, (hbmWrite_cur ..).trans h.cur, (hbmWrite_others ..).trans h.others,
    ?_, fun z hz => (hout z ?_).trans (h.keep z hz)⟩, ?_, hout⟩
  · rw [hbmWrite_leBytes_hbm]
    exact wf_setNum _ _ _ _ h.wf
  · by_contra hin
    exact hz (hF z (by omega) (by omega))
  · rw [hbmWrite_leBytes_hbm]
    exact num_setNum_self h.wf ..

/-- Where the DIST words of some nodes stand: each in one page of HBM, among the bytes that a pass may write, and apart. -/
structure DistRuns (s : State) (l : Launch) (F : Nat → Prop) (L : Nat → Word) (at_ : Nat → Nat) (todo : List Nat) : Prop where
  run : ∀ i ∈ todo, RunAt s l.ctx (l.nodeVa i + 0x1C) (L i) (at_ i) 4
  within : ∀ i ∈ todo, ∀ z, at_ i ≤ z → z < at_ i + 4 → F z
  apart : ∀ i ∈ todo, ∀ j ∈ todo, i ≠ j → at_ i + 4 ≤ at_ j ∨ at_ j + 4 ≤ at_ i
  nodup : todo.Nodup

theorem DistRuns.tail {s : State} {l : Launch} {F : Nat → Prop} {L : Nat → Word} {at_ : Nat → Nat} {i : Nat} {rest : List Nat}
    (h : DistRuns s l F L at_ (i :: rest)) : DistRuns s l F L at_ rest :=
  ⟨fun j hj => h.run j (List.mem_cons_of_mem i hj), fun j hj => h.within j (List.mem_cons_of_mem i hj),
    fun j hj k hk => h.apart j (List.mem_cons_of_mem i hj) k (List.mem_cons_of_mem i hk), h.nodup.of_cons⟩

/-- The DIST words of the nodes are written, and nothing else of HBM. -/
theorem writeDist_ok {s : State} {l : Launch} {F : Nat → Prop} {L : Nat → Word} {at_ : Nat → Nat} (hT : TablesKeep s l.ctx F)
    (hM : MarkedPages s l.ctx) (die : Nat) (nodes : List Node) : ∀ {todo : List Nat} {u : State}, s.PassKeeps u F →
      DistRuns s l F L at_ todo →
      ∃ v, u.writeDist l die nodes todo = .ok v ∧ s.PassKeeps v F ∧
        (∀ i ∈ todo, Mem.num v.hbm (at_ i) 4 = (nodes.getD i {}).distWord % 256 ^ 4) ∧
        ∀ z, (∀ i ∈ todo, z < at_ i ∨ at_ i + 4 ≤ z) → Mem.read v.hbm z = Mem.read u.hbm z
  | [], u, h, _ => ⟨u, rfl, h, fun _ hi => (List.not_mem_nil hi).elim, fun _ _ => rfl⟩
  | i :: rest, u, h, hr => by
    have hrun := hr.run i List.mem_cons_self
    obtain ⟨pa, hl, hc⟩ := (pageRun_of_runAt hrun).ctxChunks (by decide)
    obtain ⟨-, hw, -, -, -, -⟩ := hrun
    have hc' := (h.ctxChunks hT (l.nodeVa i + 0x1C) 4).trans hc
    obtain ⟨h1, hr1⟩ := h.walked hT hM hl die true
    obtain ⟨h2, hnum, hr2⟩ := h1.hbmWrite (x := (nodes.getD i {}).distWord) (hr.within i List.mem_cons_self)
    obtain ⟨v, hv, h3, hn3, hr3⟩ := writeDist_ok hT hM die nodes h2 hr.tail
    have hne : ∀ j ∈ rest, at_ i + 4 ≤ at_ j ∨ at_ j + 4 ≤ at_ i := fun j hj =>
      hr.apart i List.mem_cons_self j (List.mem_cons_of_mem i hj) fun he => (List.nodup_cons.1 hr.nodup).1 (he ▸ hj)
    refine ⟨v, ?_, h3, fun j hj => ?_, fun z hz => ?_⟩
    · have htake : (leBytes 4 (nodes.getD i {}).distWord).take 4 = leBytes 4 (nodes.getD i {}).distWord :=
        List.take_of_length_le (length_leBytes ..).le
      rw [State.writeDist, hc']
      simp only [List.all_cons, List.all_nil, hw, Bool.and_true, if_true, State.walkedChunks, List.foldl_cons, List.foldl_nil,
        State.writeChunks, State.put, htake]
      exact hv
    · rcases List.mem_cons.1 hj with rfl | hj
      · rw [num_congr fun z h1 h2 => hr3 z fun k hk => by have := hne k hk; omega]
        exact hnum
      · exact hn3 j hj
    · rw [hr3 z fun j hj => hz j (List.mem_cons_of_mem i hj), hr2 z (hz i List.mem_cons_self), hr1 z]

end Sys2Proof.Machine
end

section
namespace Sys2Proof.Machine

/-! ## The pass of a die (R40, R309 to R314) -/

/-- A launch once a die's pass of it has put the die's first nodes in its cursor (R314). -/
def Launch.afterPass (l : Launch) (die : BitVec 2) (nodes : List Node) : Launch :=
  { l with nodes, page := none, passed := l.passed.set die.toNat true die.isLt,
           cursor := l.cursor.set die.toNat ((ownedBy die nodes).filter fun i => (nodes.getD i {}).init == 0) die.isLt }

section
variable {s : State} {die : BitVec 2} {l : Launch}

theorem PassOpen.find? (h : PassOpen s die l) :
    s.launches.find? (fun m => m.serial == l.serial && m.accepted && !m.dead && !m.passed.get die.toFin) = some l := by
  obtain ⟨⟨hmem, huniq⟩, ha, hd, hp, -, -⟩ := h
  refine find?_eq_some_of_unique hmem (by simp [ha, hd, hp]) fun m hm hm' => huniq m hm ?_
  simp only [Bool.and_eq_true, beq_iff_eq] at hm'
  exact hm'.1.1.1

theorem PassOpen.goes (h : PassOpen s die l) : (s.chainAborted l.ctx l.lrcb l.image || s.walksFull die.toNat) = false := by
  obtain ⟨-, -, -, -, hch, hw⟩ := h
  rw [hch, hw]
  rfl

theorem exec_distributionPass_ok {nodes : List Node} {v : State} (h : PassOpen s die l) (hn : l.nodes = []) (hp : s.passNodes l = .ok nodes)
    (hstop : s.distStop l = none) (hw : (s.walkedTable l die.toNat).writeDist l die.toNat nodes (ownedBy die nodes) = .ok v) :
    exec (.distributionPass die l.serial) s = .next (v.modLaunch l.serial (·.afterPass die nodes)) := by
  show execDistributionPass die l.serial s = _
  unfold execDistributionPass
  rw [PassOpen.find? h]
  dsimp only
  rw [PassOpen.goes h, if_neg Bool.false_ne_true, hn]
  simp only [List.isEmpty_nil, if_true, hp, hstop, hw]
  rfl

theorem exec_distributionPass_fault {code : Byte} {w : Nat} (h : PassOpen s die l) (hn : l.nodes = [])
    (hp : s.passNodes l = .error (.fault code w)) : exec (.distributionPass die l.serial) s = .next (s.launchFault l code w) := by
  show execDistributionPass die l.serial s = _
  unfold execDistributionPass
  rw [PassOpen.find? h]
  dsimp only
  rw [PassOpen.goes h, if_neg Bool.false_ne_true, hn]
  simp only [List.isEmpty_nil, if_true, hp]

theorem exec_distributionPass_wait {va : Word} {write : Bool} (h : PassOpen s die l) (hn : l.nodes = [])
    (hp : s.passNodes l = .error (.wait va write)) : exec (.distributionPass die l.serial) s =
      .next ((s.postPage l.ctx va write).modLaunch l.serial fun x => { x with page := some (va, write) }) := by
  show execDistributionPass die l.serial s = _
  unfold execDistributionPass
  rw [PassOpen.find? h]
  dsimp only
  rw [PassOpen.goes h, if_neg Bool.false_ne_true, hn]
  simp only [List.isEmpty_nil, if_true, hp]

theorem distStop_none (h : DistWritable s l) : s.distStop l = none := by
  unfold State.distStop
  refine List.findSome?_eq_none_iff.2 fun i hi => ?_
  obtain ⟨cs, hc, hw⟩ := h i (List.mem_range.1 hi)
  have hall : (cs.all fun c => leafW c.leaf) = true := List.all_eq_true.2 hw
  dsimp only
  rw [show s.ctxChunks l.ctx (l.nodeVa i + 0x1C) 4 = .ok cs from hc]
  simp [hall]

/-- A page that is missing under the first record makes the pass wait for it. -/
theorem passNodes_wait (hc : 0 < l.nodeCnt) (hl : s.lookup l.ctx l.nodeTbl = .error 0x10) (hw : s.inWindows l.ctx l.nodeTbl = false) :
    s.passNodes l = .error (.wait l.nodeTbl false) := by
  have hva : l.nodeTbl + BitVec.ofNat 64 (64 * 0) = l.nodeTbl := by simp
  have hchunks : s.ctxChunks l.ctx l.nodeTbl 64 = .error (0x10, l.nodeTbl) := by
    unfold State.ctxChunks
    rw [show 64 / 4096 + 2 = 1 + 1 from rfl, chunks, if_neg (by decide), hl]
  have hread : s.readNode l 0 = .error (.wait l.nodeTbl false) := by
    unfold State.readNode State.passRead
    rw [hva, hchunks]
    simp [passFault, fcNp, hw]
  obtain ⟨k, hk⟩ := Nat.exists_eq_succ_of_ne_zero hc.ne'
  unfold State.passNodes
  rw [hk, List.range_succ_eq_map, List.mapM_cons, hread]
  rfl

/-! ### The nodes that a die owns -/

theorem getD_map_range {α : Type} {n i : Nat} (hi : i < n) (f : Nat → α) (d : α) : ((List.range n).map f).getD i d = f i := by
  simp [List.getD_eq_getElem?_getD, List.getElem?_range hi]

theorem ownedBy_map {n : Nat} {f : Nat → Node} {owner : Nat → Nat} (h : ∀ i < n, (f i).owner.toNat = owner i) :
    ownedBy die ((List.range n).map f) = (List.range n).filter fun i => owner i = die.toNat := by
  unfold ownedBy
  rw [List.length_map, List.length_range]
  refine List.filter_congr fun i hi => ?_
  have hi := List.mem_range.1 hi
  rw [getD_map_range hi, ← h i hi]
  simp [BitVec.toNat_inj, beq_eq_decide]

end

/-- An abort leaves the launches. -/
theorem abortTree_launches (s : State) (n : Nat) (root : Word) (im : Option Image) : (s.abortTree n root im).launches = s.launches := by
  unfold State.abortTree
  extract_lets inTree doomed victims s1 s2
  have h1 : s1.launches = s.launches := (foldl_same _ (fun u r => setRcb_same u n r 0x0B 1 1) doomed s).launches
  refine Eq.trans ?_ h1
  refine List.foldlRecOn (motive := fun (t : State) => t.launches = s1.launches) _ _ rfl fun t ht u _ => ?_
  split
  · unfold State.setTask
    split <;> exact ht
  · exact (discard_fewer t u).1.launches.trans ht

/-- A launch fault ends the launch with no node in any cursor, once its record is written. -/
theorem launchFault_ends {s : State} {l : Launch} (h : TheLaunch s l) (w : Nat) :
    ∃ x bs, bs.head? = some 0x03 ∧
      s.launchFault l fcField w = ((s.logFault l.ctx l.lrcb bs l.image).1.modLaunch l.serial fun y =>
        { y with dead := true, cursor := .replicate 4 [] }).abortDomain l.ctx l.lrcb l.image ∧
      x ∈ (s.launchFault l fcField w).launches ∧ x.serial = l.serial ∧ x.dead = true ∧ ∀ d, x.cursor.get d = [] := by
  refine ⟨{ l with dead := true, cursor := .replicate 4 [] }, _, head?_plainRecord s l.ctx l.lrcb fcField l.queue.toNat l.nodeTbl.toNat w 0 0,
    rfl, ?_, rfl, rfl, fun d => vector_replicate_get 4 [] d⟩
  unfold State.launchFault State.abortDomain
  rw [abortTree_launches]
  unfold State.modLaunch
  dsimp only
  rw [(logFault_same ..).launches]
  exact List.mem_map.2 ⟨l, h.1, if_pos rfl⟩

/-! ### What a pass leaves -/

section
variable {s : State} {l : Launch} {R S : Nat → List Byte} {dist owner : Nat → Nat} {i : Nat}

/-- The fields of a node that a pass has read. -/
theorem passNode_fields (hgood : ¬ NodeBad l (R i) (S i)) (ho : OwnerIs s l i (R i) (owner i)) :
    (passNode s l R S dist i).dist = dist i ∧ (passNode s l R S dist i).owner.toNat = owner i ∧
      (passNode s l R S dist i).tpl.toNat = leNat ((R i).take 2) ∧ (passNode s l R S dist i).arg0.toNat = leNat (((R i).drop 0x20).take 8) ∧
      (passNode s l R S dist i).arg1.toNat = leNat (((R i).drop 0x28).take 8) ∧ (passNode s l R S dist i).done = false := by
  refine ⟨rfl, toNat_ownerOf ho, ?_, toNat_fieldAt 64 (R i) 0x20 rfl, toNat_fieldAt 64 (R i) 0x28 rfl, rfl⟩
  have htpl : leNat ((R i).take 2) < 2 ^ 10 := not_le.1 fun h => hgood (.inl h)
  show ((fieldAt 16 (R i) 0).setWidth 10).toNat = _
  rw [BitVec.toNat_setWidth, toNat_fieldAt 16 (R i) 0 rfl]
  exact Nat.mod_eq_of_lt htpl

end

/-- A change of the one launch of a number puts the changed launch in its place. -/
theorem modLaunch_launches {s v : State} {l : Launch} (h : TheLaunch s l) (hv : v.launches = s.launches) (g : Launch → Launch) :
    (v.modLaunch l.serial g).launches = s.launches.map fun m => if m.serial = l.serial then g l else m := by
  unfold State.modLaunch
  dsimp only
  rw [hv]
  refine List.map_congr_left fun m hm => ?_
  by_cases hs : m.serial = l.serial
  · rw [h.2 m hm hs]
  · rw [if_neg hs, if_neg hs]

/-- A die's nodes with INITDC 0, in ascending order (R314). -/
theorem firstOwned {s : State} {l : Launch} {die : BitVec 2} {R S : Nat → List Byte} {dist owner : Nat → Nat} {nodes : List Node}
    (howned : ownedBy die nodes = (List.range l.nodeCnt).filter fun i => owner i = die.toNat)
    (hget : ∀ i < l.nodeCnt, nodes.getD i {} = passNode s l R S dist i) :
    ((ownedBy die nodes).filter fun i => (nodes.getD i {}).init == 0) =
      (List.range l.nodeCnt).filter fun i => owner i = die.toNat ∧ leNat (((R i).drop 4).take 4) = 0 := by
  rw [howned, List.filter_filter]
  refine List.filter_congr fun i hi => ?_
  rw [hget i (List.mem_range.1 hi), Bool.decide_and, Bool.and_comm]
  rfl

/-- Settles O39: the pass of a die orders its nodes, ends a launch that breaks R40, and waits for a missing page. -/
theorem passesOrderTheirNodes : Obligations.PassesOrderTheirNodes := by
  refine ⟨?_, fun s die l R S hopen hn hg hbad => ?_, fun s die l hopen hn hcnt hl hw => ?_⟩
  · intro s die l R S dist owner at_ L hm hopen hmark hn hcnt hg hgood hdist hown hdw hrun hdisj htab
    have hD : DistIs l.nodeCnt (fun i => succN (R i)) (fun i => succOf (S i)) dist := hdist
    set nodes := (List.range l.nodeCnt).map (passNode s l R S dist) with hnodes
    have hfields := fun i (hi : i < l.nodeCnt) => passNode_fields (dist := dist) (hgood i hi) (hown i hi).2
    have hget : ∀ i < l.nodeCnt, nodes.getD i {} = passNode s l R S dist i := fun i hi => getD_map_range hi ..
    have howned : ownedBy die nodes = (List.range l.nodeCnt).filter fun i => owner i = die.toNat :=
      ownedBy_map fun i hi => (hfields i hi).2.1
    have hmem : ∀ i, i ∈ ownedBy die nodes ↔ i < l.nodeCnt ∧ owner i = die.toNat := fun i => by
      rw [howned]
      simp
    have hruns : DistRuns s l (fun z => ∃ i < l.nodeCnt, owner i = die.toNat ∧ at_ i ≤ z ∧ z < at_ i + 4) L at_ (ownedBy die nodes) :=
      { run := fun i hi => hrun i ((hmem i).1 hi).1 ((hmem i).1 hi).2
        within := fun i hi z h1 h2 => ⟨i, ((hmem i).1 hi).1, ((hmem i).1 hi).2, h1, h2⟩
        apart := fun i hi j hj hne => hdisj i ((hmem i).1 hi).1 j ((hmem j).1 hj).1 ((hmem i).1 hi).2 ((hmem j).1 hj).2 hne
        nodup := howned ▸ List.nodup_range.filter _ }
    obtain ⟨hkeep, hread⟩ := walkedTable_keeps hm.1 htab hmark die.toNat
    obtain ⟨v, hv, hkv, hnum, hout⟩ := writeDist_ok htab hmark die.toNat nodes hkeep hruns
    refine ⟨_, l.afterPass die nodes, exec_distributionPass_ok hopen hn (passNodes_ok hg hgood hD) (distStop_none hdw) hv, ?_, rfl, rfl, rfl,
      ?_, by simp [Launch.afterPass, hnodes], fun i hi => ⟨_, ?_, hfields i hi⟩, fun i hi ho => ?_, fun z hz => ?_, hkv.cur, hkv.others⟩
    · exact modLaunch_launches hopen.1 hkv.launches _
    · exact congrArg (l.cursor.set die.toNat · die.isLt) (firstOwned howned hget)
    · simp [Launch.afterPass, hnodes, List.getElem?_range hi]
    · have hlt : dist i < l.nodeCnt := hD.lt (fun i hi j hj => not_le.1 fun hle => hgood i hi (.inr (.inr ⟨j, hj, hle⟩))) hi
      have howner := (hown i hi).1
      refine (hnum i ((hmem i).2 ⟨hi, ho⟩)).trans ?_
      rw [hget i hi]
      show ((passNode s l R S dist i).owner.toNat * 2 ^ 24 + dist i) % 256 ^ 4 = _
      rw [(hfields i hi).2.1]
      exact Nat.mod_eq_of_lt (by omega)
    · exact (hout z fun i hi => hz i ((hmem i).1 hi).1 ((hmem i).1 hi).2).trans (hread z)
  · obtain ⟨i, hp⟩ := passNodes_fault hg hbad
    obtain ⟨x, bs, hbs, heq, hx⟩ := launchFault_ends hopen.1 i
    exact ⟨_, x, bs, exec_distributionPass_fault hopen hn hp, hbs, heq, hx⟩
  · exact exec_distributionPass_wait hopen hn (passNodes_wait hcnt hl hw)

end Sys2Proof.Machine
end

section

namespace Sys2Proof.Machine

/-! ## Fields of a lane (R65) -/

/-- A field of a word is the concatenation of two shorter ones. -/
theorem append_eq_iff {n m : Nat} {x : BitVec n} {y : BitVec m} {z : BitVec (n + m)} :
    x ++ y = z ↔ z.extractLsb' m n = x ∧ z.extractLsb' 0 m = y := by
  constructor
  · rintro rfl
    exact ⟨BitVec.extractLsb'_append_eq_left, BitVec.extractLsb'_append_eq_right⟩
  · rintro ⟨rfl, rfl⟩
    exact BitVec.extractLsb'_append_extractLsb'

theorem extractLsb'_eq_append_iff {w n m : Nat} {x : BitVec n} {y : BitVec m} {l : BitVec w} {s : Nat} :
    l.extractLsb' s (n + m) = x ++ y ↔ l.extractLsb' (s + m) n = x ∧ l.extractLsb' s m = y := by
  rw [eq_comm, append_eq_iff, ← BitVec.extractLsb'_append_extractLsb'_eq_extractLsb' rfl, BitVec.extractLsb'_append_eq_left,
    BitVec.extractLsb'_append_eq_right]

theorem extractLsb'_eq_ofBool_iff {w : Nat} {l : BitVec w} {s : Nat} {c : Bool} :
    l.extractLsb' s 1 = BitVec.ofBool c ↔ l.getLsbD s = c := by
  rw [BitVec.eq_of_getLsbD_eq_iff]
  simp

theorem rrr_eq_iff {op : BitVec 8} {d a b x : BitVec 6} {l : Lane} :
    rrr op d a b x = l ↔ fOp l = op ∧ fD l = d ∧ fA l = a ∧ fB l = b ∧ fX l = x := by
  simp only [rrr, append_eq_iff (n := 26), extractLsb'_eq_append_iff (m := 6), and_assoc]
  rfl

theorem lane_eq_zero_iff {l : Lane} : l = 0#32 ↔ fOp l = 0 ∧ fD l = 0 ∧ fA l = 0 ∧ fB l = 0 ∧ fX l = 0 :=
  eq_comm.trans (rrr_eq_iff (op := 0) (d := 0) (a := 0) (b := 0) (x := 0))

theorem rri_eq_iff {op : BitVec 8} {d a : BitVec 6} {imm : BitVec 12} {l : Lane} :
    rri op d a imm = l ↔ fOp l = op ∧ fD l = d ∧ fA l = a ∧ fImm l = imm := by
  simp only [rri, append_eq_iff (n := 20), extractLsb'_eq_append_iff (m := 6), and_assoc]
  rfl

theorem fq_eq_iff {op : BitVec 8} {d a b : BitVec 6} {x : BitVec 2} {t : Tok} {l : Lane} :
    fq op d a b x t = l ↔ fOp l = op ∧ fD l = d ∧ fA l = a ∧ fB l = b ∧ fXq l = x ∧ fT l = t := by
  simp only [fq, append_eq_iff (n := 28), extractLsb'_eq_append_iff (m := 2), extractLsb'_eq_append_iff (m := 6), and_assoc]
  rfl

theorem fb_eq_iff {op : BitVec 8} {p : PReg} {n : Bool} {off : BitVec 20} {l : Lane} :
    fb op p n off = l ↔ fOp l = op ∧ l.extractLsb' 21 3 = p ∧ l.getLsbD 20 = n ∧ l.extractLsb' 0 20 = off := by
  simp only [fb, append_eq_iff (n := 12), extractLsb'_eq_append_iff (m := 1), extractLsb'_eq_append_iff (m := 3), and_assoc,
    extractLsb'_eq_ofBool_iff]
  rfl

theorem rl_eq_iff {op : BitVec 8} {a : BitVec 6} {off : BitVec 18} {l : Lane} :
    rl op a off = l ↔ fOp l = op ∧ fD l = a ∧ l.extractLsb' 0 18 = off := by
  simp only [rl, append_eq_iff (n := 14), extractLsb'_eq_append_iff (m := 6), and_assoc]
  rfl

/-! ## Fields that are too narrow or too wide, and codes (R66, R68) -/

theorem given_eq_some {c : Bool} {i j : Instr} : given c i = some j ↔ c = true ∧ i = j := by
  unfold given
  cases c <;> simp

theorem narrow_eq_some {n w : Nat} {f : BitVec n} {v : BitVec w} (h : w ≤ n) : narrow w f = some v ↔ v.setWidth n = f := by
  have hv : v.toNat % 2 ^ n = v.toNat := Nat.mod_eq_of_lt (v.isLt.trans_le (Nat.pow_le_pow_right (by decide) h))
  unfold narrow
  constructor
  · intro hf
    split at hf
    · rename_i hlt
      cases hf
      exact BitVec.eq_of_toNat_eq (by simp [Nat.mod_eq_of_lt hlt])
    · cases hf
  · rintro rfl
    simp [hv, v.isLt, h]

theorem cc_ofCode {c : BitVec 3} {x : Cc} : Cc.ofCode c = some x ↔ x.code = c := by cases x <;> (revert c; decide)
theorem fcc_ofCode {c : BitVec 3} {x : FCc} : FCc.ofCode c = some x ↔ x.code = c := by cases x <;> (revert c; decide)
theorem sz_ofCode {c : BitVec 2} {x : Sz} : Sz.ofCode c = some x ↔ x.code = c := by cases x <;> (revert c; decide)
theorem rm_ofCode {c : BitVec 2} {x : Rm} : Rm.ofCode c = some x ↔ x.code = c := by cases x <;> (revert c; decide)
theorem scope_ofCode {c : BitVec 3} {x : Scope} : Scope.ofCode c = some x ↔ x.code = c := by cases x <;> (revert c; decide)
theorem path_ofCode {c : BitVec 4} {x : Path} : Path.ofCode c = some x ↔ x.code = c := by cases x <;> (revert c; decide)
theorem tfield_ofCode {c : BitVec 6} {x : TField} : TField.ofCode c = some x ↔ x.code = c := by cases x <;> (revert c; decide)
theorem redOp_ofCode {c : BitVec 6} {x : RedOp} : RedOp.ofCode c = some x ↔ x.code = c := by cases x <;> (revert c; decide)
theorem sortKey_ofCode {c : BitVec 2} {x : SortKey} : SortKey.ofCode c = some x ↔ x.code = c := by cases x <;> (revert c; decide)
theorem packW_ofCode {c : BitVec 2} {x : PackW} : PackW.ofCode c = some x ↔ x.code = c := by cases x <;> (revert c; decide)
theorem mapFn_ofCode {c : BitVec 6} {x : MapFn} : MapFn.ofCode c = some x ↔ x.code = c := by cases x <;> (revert c; decide)
theorem tredOp_ofCode {c : BitVec 2} {x : TRedOp} : TRedOp.ofCode c = some x ↔ x.code = c := by cases x <;> (revert c; decide)
theorem viewKind_ofCode {c : BitVec 4} {x : ViewKind} : ViewKind.ofCode c = some x ↔ x.code = c := by cases x <;> (revert c; decide)
theorem part_ofCode {c : BitVec 6} {x : Part} : Part.ofCode c = some x ↔ x.code = c := by cases x <;> (revert c; decide)
theorem atomOp_ofCode {c : BitVec 4} {x : AtomOp} : AtomOp.ofCode c = some x ↔ x.code = c := by cases x <;> (revert c; decide)
theorem fatomOp_ofCode {c : BitVec 4} {x : FatomOp} : FatomOp.ofCode c = some x ↔ x.code = c := by cases x <;> (revert c; decide)
theorem nbOp_ofCode {c : BitVec 4} {x : NbOp} : NbOp.ofCode c = some x ↔ x.code = c := by cases x <;> (revert c; decide)
theorem kcond_ofCode {c : BitVec 2} {x : KCond} : KCond.ofCode c = some x ↔ x.code = c := by cases x <;> (revert c; decide)
theorem fmt_ofCode {c : BitVec 4} {x : Fmt} : Fmt.ofCode c = some x ↔ x.code = c := by cases x <;> (revert c; decide)
theorem kindOf_eq {c : BitVec 2} {k : Option Kind} : kindOf c = k ↔ kindCode k = c := by
  revert c
  rcases k with _ | k
  · decide
  · cases k <;> decide

theorem sysReg_ofCode {c : BitVec 12} {x : SysReg} : SysReg.ofCode c = some x ↔ x.code = c := by
  constructor
  · unfold SysReg.ofCode
    split <;> rename_i h <;> intro hx <;> cases hx <;> exact BitVec.eq_of_toNat_eq h.symm
  · rintro rfl
    cases x <;> rfl

/-! ## Fields that two parts of a lane make together -/

theorem maskOf_eq_some {b : BitVec 3} {x : BitVec 2} {m : Option MReg} : maskOf b x = some m ↔ m.getD 0 = b ∧ maskX m = x := by
  revert b x
  rcases m with _ | m
  · decide
  · revert m
    decide

theorem semOf_eq_some {en : Bool} {s : SemReg} {w : Option SemReg} : semOf en s = some w ↔ w.isSome = en ∧ w.getD 0 = s := by
  rw [eq_comm (a := w.isSome), eq_comm (a := w.getD 0)]
  cases en <;> cases w <;> simp [semOf]

theorem dblOf_eq_some {x : BitVec 6} {dbl : Bool} : dblOf x = some dbl ↔ (if dbl then 3 else 2) = x.extractLsb' 4 2 := by
  revert x
  cases dbl <;> decide

theorem eq_atX_iff {dbl : Bool} {op : BitVec 4} {x : BitVec 6} :
    x = atX dbl op ↔ x.extractLsb' 4 2 = (if dbl then 3 else 2) ∧ x.extractLsb' 0 4 = op := by
  rw [eq_comm, atX, append_eq_iff (n := 2)]

theorem flag_eq_some {n : Nat} {f : BitVec n} {c : Bool} (h : 1 ≤ n) :
    (narrow 1 f).map (·.getLsbD 0) = some c ↔ (BitVec.ofBool c).setWidth n = f := by
  have hb : ∀ v : BitVec 1, v.getLsbD 0 = c ↔ v = BitVec.ofBool c := by cases c <;> decide
  simp only [Option.map_eq_some_iff, narrow_eq_some h, hb, exists_eq_right]

theorem subTileCount_eq_some {c d : BitVec 8} : subTileCount c = some d ↔ (subTileCount c).isSome = true ∧ c = d := by
  unfold subTileCount
  split <;> simp

/-! ## Continuation lanes (R156, R268, R301) -/

theorem atLane_eq_iff {o : AtOrd} {off : BitVec 19} {l : Lane} :
    Sys2Proof.atLane o off = l ↔ l.extractLsb' 24 8 = 0 ∧ l.extractLsb' 22 2 = kindCode o.kind ∧ l.extractLsb' 19 3 = o.scope.code ∧
      l.extractLsb' 0 19 = off := by
  simp only [Sys2Proof.atLane, append_eq_iff (n := 13), extractLsb'_eq_append_iff (m := 3), extractLsb'_eq_append_iff (m := 2), and_assoc]

theorem AtOrd.wf_iff {r : Bool} {o : AtOrd} :
    o.wf r = true ↔ (o.kind = none → o.scope = .core) ∧ (r = true → o.kind = none ∨ o.kind = some .rel) := by
  obtain ⟨k, sc⟩ := o
  cases k <;> cases r <;> simp [AtOrd.wf]

theorem atOf_eq_some {r : Bool} {o : AtOrd} {l : Lane} :
    atOf r l = some o ↔ l.extractLsb' 24 8 = 0 ∧ l.extractLsb' 22 2 = kindCode o.kind ∧ l.extractLsb' 19 3 = o.scope.code ∧
      o.wf r = true := by
  rw [AtOrd.wf_iff, eq_comm (b := kindCode o.kind), eq_comm (b := o.scope.code), ← kindOf_eq, ← scope_ofCode]
  obtain ⟨k, sc⟩ := o
  unfold atOf
  split
  · simp [*]
  · rename_i sc' hsc
    simp only [hsc]
    constructor
    · intro h
      split at h
      · cases h
        simp_all
      · cases h
    · rintro ⟨h0, rfl, hs, hk⟩
      cases hs
      exact if_pos ⟨h0, hk⟩

theorem kLane_eq_iff {e : KExt} {l : Lane} :
    kLane e = l ↔ l.extractLsb' 24 8 = e.off8 ∧ l.extractLsb' 22 2 = kindCode (some (if e.ar then .ar else .rel)) ∧
      l.extractLsb' 19 3 = (if e.sys then Scope.sys else .dev).code ∧ l.extractLsb' 12 7 = 0 ∧ l.extractLsb' 10 2 = e.cond.code ∧
      l.extractLsb' 0 10 = e.tpl := by
  simp only [kLane, append_eq_iff (n := 22), extractLsb'_eq_append_iff (m := 2), extractLsb'_eq_append_iff (m := 7),
    extractLsb'_eq_append_iff (m := 3), and_assoc]

theorem mmLane2_eq_iff {doff : BitVec 16} {f : BitVec 6} {e : MmExt} {l : Lane} :
    mmLane2 doff f e = l ↔ l.extractLsb' 25 7 = 0 ∧ l.extractLsb' 9 16 = doff ∧ l.extractLsb' 3 6 = f ∧ l.getLsbD 2 = e.acc ∧
      l.getLsbD 1 = e.tb ∧ l.getLsbD 0 = e.ta := by
  simp only [mmLane2, append_eq_iff (n := 31), extractLsb'_eq_append_iff (m := 1), extractLsb'_eq_append_iff (m := 6),
    extractLsb'_eq_append_iff (m := 16), extractLsb'_eq_ofBool_iff, and_assoc]

theorem mmLane3_eq_iff {e : MmExt} {l : Lane} :
    mmLane3 e = l ↔ l.extractLsb' 16 16 = 0 ∧ l.getLsbD 15 = e.wait.isSome ∧ l.extractLsb' 13 2 = 0 ∧ l.extractLsb' 8 5 = e.wait.getD 0 ∧
      l.getLsbD 7 = e.sig.isSome ∧ l.extractLsb' 5 2 = 0 ∧ l.extractLsb' 0 5 = e.sig.getD 0 := by
  simp only [mmLane3, append_eq_iff (n := 27), extractLsb'_eq_append_iff (m := 1), extractLsb'_eq_append_iff (m := 2),
    extractLsb'_eq_append_iff (m := 5), extractLsb'_eq_ofBool_iff, and_assoc]

theorem lnkLane_eq_iff {tag : BitVec 8} {cw : Option SReg} {cidx : BitVec 4} {l : Lane} :
    lnkLane tag cw cidx = l ↔ l.extractLsb' 16 16 = 0 ∧ l.extractLsb' 12 4 = cidx ∧ l.extractLsb' 9 3 = 0 ∧ l.getLsbD 8 = cw.isSome ∧
      l.extractLsb' 0 8 = tag := by
  simp only [lnkLane, append_eq_iff (n := 24), extractLsb'_eq_append_iff (m := 1), extractLsb'_eq_append_iff (m := 3),
    extractLsb'_eq_append_iff (m := 4), extractLsb'_eq_ofBool_iff, and_assoc]

theorem cwOf_eq_some {l l2 : Lane} {cw : Option SReg} :
    cwOf l l2 = some cw ↔ fX l = cw.getD 0 ∧ l2.extractLsb' 16 16 = 0 ∧ l2.extractLsb' 9 3 = 0 ∧ l2.getLsbD 8 = cw.isSome := by
  unfold cwOf
  split
  · cases l2.getLsbD 8 <;> cases cw <;> simp_all
  · simp_all

theorem mmOf_eq_some {l2 l3 : Lane} {e : MmExt} :
    mmOf l2 l3 = some e ↔ mmLane3 e = l3 ∧ l2.extractLsb' 25 7 = 0 ∧ e.acc = l2.getLsbD 2 ∧ e.tb = l2.getLsbD 1 ∧ e.ta = l2.getLsbD 0 := by
  rw [mmLane3_eq_iff]
  unfold mmOf
  constructor
  · intro h
    split at h
    · rename_i hw hs
      rw [semOf_eq_some] at hw hs
      split at h
      · cases h
        simp_all
      · cases h
    · cases h
  · rintro ⟨⟨h16, h15, h13, h8, h7, h5, h0⟩, h25, h2, h1, h00⟩
    rw [semOf_eq_some.2 ⟨h15.symm, h8.symm⟩, semOf_eq_some.2 ⟨h7.symm, h0.symm⟩, ← h2, ← h1, ← h00]
    exact if_pos ⟨h16, h13, h5, h25⟩

theorem kOf_eq_some {l2 l3 : Lane} {e : KExt} : kOf l2 l3 = some e ↔ kLane e = l2 ∧ e.user = l3 := by
  rw [kLane_eq_iff]
  unfold kOf
  constructor
  · intro h
    split at h
    · rename_i k sc c hk hs hc
      rw [kindOf_eq] at hk
      rw [scope_ofCode] at hs
      rw [kcond_ofCode] at hc
      split at h
      · rename_i hg
        cases h
        obtain ⟨h12, hacq, rfl | rfl⟩ := hg <;> cases k <;> simp_all
      · cases h
    · cases h
  · rintro ⟨⟨h24, h22, h19, h12, h10, h0⟩, rfl⟩
    rw [kindOf_eq.2 h22.symm, scope_ofCode.2 h19.symm, kcond_ofCode.2 h10.symm]
    obtain ⟨off8, ar, sys, cond, tpl, user⟩ := e
    cases ar <;> cases sys <;> simp_all

theorem spawnLane_eq_iff {tpl : BitVec 10} {l : Lane} : 0#22 ++ tpl = l ↔ tpl.setWidth 32 = l := by
  rw [BitVec.setWidth_eq_append (by decide)]
  rfl

theorem cvtLane_eq_iff {m : BitVec 3} {c : Bool} {r : BitVec 2} {dst src : BitVec 4} {l : Lane} :
    0#18 ++ m ++ BitVec.ofBool c ++ r ++ dst ++ src = l ↔
      l.extractLsb' 14 18 = 0#18 ∧ l.extractLsb' 11 3 = m ∧ l.getLsbD 10 = c ∧ l.extractLsb' 8 2 = r ∧ l.extractLsb' 4 4 = dst ∧
      l.extractLsb' 0 4 = src := by
  simp only [append_eq_iff (n := 28), extractLsb'_eq_append_iff (m := 4), extractLsb'_eq_append_iff (m := 2),
    extractLsb'_eq_append_iff (m := 1), extractLsb'_eq_append_iff (m := 3), extractLsb'_eq_ofBool_iff, and_assoc]

theorem viewLane_eq_iff {off : BitVec 14} {k : BitVec 4} {l : Lane} :
    0#2 ++ off ++ 0#12 ++ k = l ↔
      l.extractLsb' 30 2 = 0#2 ∧ l.extractLsb' 16 14 = off ∧ l.extractLsb' 4 12 = 0#12 ∧ l.extractLsb' 0 4 = k := by
  simp only [append_eq_iff (n := 28), extractLsb'_eq_append_iff (m := 12), extractLsb'_eq_append_iff (m := 14), and_assoc]

theorem forceLane_eq_iff {cols rows : BitVec 8} {col0 row0 : BitVec 7} {l : Lane} :
    0#2 ++ cols ++ col0 ++ rows ++ row0 = l ↔
      l.extractLsb' 30 2 = 0#2 ∧ l.extractLsb' 22 8 = cols ∧ l.extractLsb' 15 7 = col0 ∧ l.extractLsb' 7 8 = rows ∧ l.extractLsb' 0 7 = row0 := by
  simp only [append_eq_iff (n := 25), extractLsb'_eq_append_iff (m := 7), extractLsb'_eq_append_iff (m := 8), and_assoc]

theorem cpyiLane_eq_iff {sig : BitVec 5} {en : Bool} {tag : BitVec 8} {l : Lane} :
    0#18 ++ sig ++ BitVec.ofBool en ++ tag = l ↔
      l.extractLsb' 14 18 = 0#18 ∧ l.extractLsb' 9 5 = sig ∧ l.getLsbD 8 = en ∧ l.extractLsb' 0 8 = tag := by
  simp only [append_eq_iff (n := 24), extractLsb'_eq_append_iff (m := 1), extractLsb'_eq_append_iff (m := 5), extractLsb'_eq_ofBool_iff, and_assoc]

/-! ## Fields that hold two parts -/

theorem eq_append_3_3_iff {f : BitVec 6} {x y : BitVec 3} : f = x ++ y ↔ f.extractLsb' 3 3 = x ∧ f.extractLsb' 0 3 = y := by
  rw [eq_comm, append_eq_iff (n := 3)]

theorem fImm_eq_xlt_iff {l : Lane} {tag : BitVec 8} {x y : Bool} :
    fImm l = 0#2 ++ tag ++ BitVec.ofBool x ++ BitVec.ofBool y ↔
      l.extractLsb' 10 2 = 0#2 ∧ l.extractLsb' 2 8 = tag ∧ l.getLsbD 1 = x ∧ l.getLsbD 0 = y := by
  simp only [fImm, extractLsb'_eq_append_iff (m := 1), extractLsb'_eq_append_iff (m := 8), extractLsb'_eq_ofBool_iff, and_assoc]

theorem fImm_eq_xfence_iff {l : Lane} {y x : BitVec 4} :
    fImm l = 0#4 ++ y ++ x ↔ l.extractLsb' 8 4 = 0#4 ∧ l.extractLsb' 4 4 = y ∧ l.extractLsb' 0 4 = x := by
  simp only [fImm, extractLsb'_eq_append_iff (m := 4), and_assoc]

theorem fImm_eq_fence_iff {l : Lane} {k : BitVec 2} {sc : BitVec 3} :
    fImm l = 0#7 ++ k ++ sc ↔ l.extractLsb' 5 7 = 0#7 ∧ l.extractLsb' 3 2 = k ∧ l.extractLsb' 0 3 = sc := by
  simp only [fImm, extractLsb'_eq_append_iff (m := 3), extractLsb'_eq_append_iff (m := 2), and_assoc]

theorem eq_append_2_1_3_iff {f : BitVec 6} {r : BitVec 2} {m : BitVec 3} :
    f = r ++ 0#1 ++ m ↔ f.extractLsb' 4 2 = r ∧ f.getLsbD 3 = false ∧ f.extractLsb' 0 3 = m := by
  have h0 : f.extractLsb' 3 1 = 0#1 ↔ f.getLsbD 3 = false := extractLsb'_eq_ofBool_iff (c := false)
  rw [eq_comm, append_eq_iff (n := 3), extractLsb'_eq_append_iff (m := 1), h0, and_assoc]

theorem fX_eq_tred_iff {l : Lane} {c : Bool} {op : BitVec 2} :
    fX l = 0#3 ++ BitVec.ofBool c ++ op ↔ l.extractLsb' 3 3 = 0#3 ∧ l.getLsbD 2 = c ∧ l.extractLsb' 0 2 = op := by
  simp only [fX, extractLsb'_eq_append_iff (m := 2), extractLsb'_eq_append_iff (m := 1), extractLsb'_eq_ofBool_iff, and_assoc]

theorem fX_eq_tmode_iff {l : Lane} {x y : Bool} :
    fX l = 0#4 ++ BitVec.ofBool x ++ BitVec.ofBool y ↔ l.extractLsb' 2 4 = 0#4 ∧ l.getLsbD 1 = x ∧ l.getLsbD 0 = y := by
  simp only [fX, extractLsb'_eq_append_iff (m := 1), extractLsb'_eq_ofBool_iff, and_assoc]

theorem eq_setWidth_ofBool_iff {f : BitVec 6} {c : Bool} :
    f = (BitVec.ofBool c).setWidth 6 ↔ f.extractLsb' 1 5 = 0#5 ∧ f.getLsbD 0 = c := by
  revert f
  cases c <;> decide

theorem setWidth_inj {n w : Nat} (h : w ≤ n) {x y : BitVec w} : x.setWidth n = y.setWidth n ↔ x = y := by
  rw [← narrow_eq_some h, (narrow_eq_some h).2 rfl, Option.some_inj, eq_comm]

theorem maskX_eq_setWidth_iff {l : Lane} {m : Option MReg} : maskX m = (l.extractLsb' 10 1).setWidth 2 ↔ m.isSome = l.getLsbD 10 := by
  rw [maskX, setWidth_inj (by decide), eq_comm, extractLsb'_eq_ofBool_iff, eq_comm]

theorem sz_eq_b8 {sz : Sz} : (sz == .b8) = (sz.code == 3) := by cases sz <;> rfl

theorem extractLsb'_19_13_eq_zero_iff {l : Lane} :
    l.extractLsb' 19 13 = 0#13 ↔ l.extractLsb' 24 8 = 0#8 ∧ l.extractLsb' 22 2 = kindCode none ∧ l.extractLsb' 19 3 = Scope.core.code := by
  have h : 0#13 = 0#8 ++ kindCode none ++ Scope.core.code := rfl
  rw [h, extractLsb'_eq_append_iff (m := 3), extractLsb'_eq_append_iff (m := 2), and_assoc]

theorem extractLsb'_3_29_eq_zero_iff {l : Lane} :
    l.extractLsb' 3 29 = 0#29 ↔ l.extractLsb' 25 7 = 0#7 ∧ l.extractLsb' 9 16 = 0#16 ∧ l.extractLsb' 3 6 = 0#6 := by
  have h : 0#29 = 0#7 ++ 0#16 ++ 0#6 := rfl
  rw [h, extractLsb'_eq_append_iff (m := 6), extractLsb'_eq_append_iff (m := 16), and_assoc]

theorem extractLsb'_8_24_eq_zero_iff {l : Lane} :
    l.extractLsb' 8 24 = 0#24 ↔ l.extractLsb' 25 7 = 0#7 ∧ l.extractLsb' 9 16 = 0#16 ∧ l.getLsbD 8 = false := by
  have h : 0#24 = 0#7 ++ 0#16 ++ BitVec.ofBool false := rfl
  rw [h, extractLsb'_eq_append_iff (m := 1), extractLsb'_eq_append_iff (m := 16), extractLsb'_eq_ofBool_iff, and_assoc]

theorem extractLsb'_3_6_eq_append_iff {l : Lane} {md : BitVec 4} :
    l.extractLsb' 3 6 = 0#1 ++ md ++ 0#1 ↔ l.getLsbD 8 = false ∧ l.extractLsb' 4 4 = md ∧ l.getLsbD 3 = false := by
  have h : 0#1 = BitVec.ofBool false := rfl
  rw [h, extractLsb'_eq_append_iff (m := 1), extractLsb'_eq_append_iff (m := 4), extractLsb'_eq_ofBool_iff, extractLsb'_eq_ofBool_iff,
    and_assoc]

theorem narrow_setWidth {n w : Nat} {v : BitVec w} (h : w ≤ n) : narrow w (v.setWidth n) = some v := (narrow_eq_some h).2 rfl

theorem atOf_atLane {r : Bool} {o : AtOrd} {off : BitVec 19} (h : o.wf r = true) : atOf r (Sys2Proof.atLane o off) = some o := by
  obtain ⟨h24, h22, h19, -⟩ := atLane_eq_iff.1 (rfl : Sys2Proof.atLane o off = _)
  exact atOf_eq_some.2 ⟨h24, h22, h19, h⟩

theorem maskOf_getD {m : Option MReg} : maskOf (m.getD 0#3) (maskX m) = some m := maskOf_eq_some.2 ⟨rfl, rfl⟩

theorem maskOf_getD_extract {m : Option MReg} {l : Lane} (h : l.getLsbD 10 = m.isSome) :
    maskOf (m.getD 0#3) ((l.extractLsb' 10 1).setWidth 2) = some m :=
  maskOf_eq_some.2 ⟨rfl, maskX_eq_setWidth_iff.2 h.symm⟩

theorem semOf_getD {w : Option SemReg} : semOf w.isSome (w.getD 0#5) = some w := semOf_eq_some.2 ⟨rfl, rfl⟩

theorem subTileCount_of_isSome {c : BitVec 8} (h : (subTileCount c).isSome = true) : subTileCount c = some c :=
  subTileCount_eq_some.2 ⟨h, rfl⟩

theorem dblOf_of_extract {x : BitVec 6} {dbl : Bool} (h : x.extractLsb' 4 2 = if dbl then 3#2 else 2#2) : dblOf x = some dbl :=
  dblOf_eq_some.2 h.symm

theorem lnkLane_fields {tag : BitVec 8} {cw : Option SReg} {cidx : BitVec 4} :
    (lnkLane tag cw cidx).extractLsb' 16 16 = 0#16 ∧ (lnkLane tag cw cidx).extractLsb' 12 4 = cidx ∧
      (lnkLane tag cw cidx).extractLsb' 9 3 = 0#3 ∧ (lnkLane tag cw cidx).getLsbD 8 = cw.isSome ∧
      (lnkLane tag cw cidx).extractLsb' 0 8 = tag :=
  lnkLane_eq_iff.1 rfl

theorem cwOf_lnkLane {l : Lane} {tag : BitVec 8} {cw : Option SReg} {cidx : BitVec 4} (h : fX l = cw.getD 0#6) :
    cwOf l (lnkLane tag cw cidx) = some cw := by
  obtain ⟨h16, -, h9, h8, -⟩ := lnkLane_fields (tag := tag) (cw := cw) (cidx := cidx)
  exact cwOf_eq_some.2 ⟨h, h16, h9, h8⟩

theorem mmLane2_fields {doff : BitVec 16} {f : BitVec 6} {e : MmExt} :
    (mmLane2 doff f e).extractLsb' 25 7 = 0#7 ∧ (mmLane2 doff f e).extractLsb' 9 16 = doff ∧ (mmLane2 doff f e).extractLsb' 3 6 = f ∧
      (mmLane2 doff f e).getLsbD 2 = e.acc ∧ (mmLane2 doff f e).getLsbD 1 = e.tb ∧ (mmLane2 doff f e).getLsbD 0 = e.ta :=
  mmLane2_eq_iff.1 rfl

theorem mmOf_mmLanes {doff : BitVec 16} {f : BitVec 6} {e : MmExt} : mmOf (mmLane2 doff f e) (mmLane3 e) = some e := by
  obtain ⟨h25, -, -, h2, h1, h0⟩ := mmLane2_fields (doff := doff) (f := f) (e := e)
  exact mmOf_eq_some.2 ⟨rfl, h25, h2.symm, h1.symm, h0.symm⟩

theorem mmLane2_metadata {doff : BitVec 16} {md : BitVec 4} {e : MmExt} :
    (mmLane2 doff (0#1 ++ md ++ 0#1) e).getLsbD 8 = false ∧ (mmLane2 doff (0#1 ++ md ++ 0#1) e).extractLsb' 4 4 = md ∧
      (mmLane2 doff (0#1 ++ md ++ 0#1) e).getLsbD 3 = false := by
  obtain ⟨-, -, hf, -⟩ := mmLane2_fields (doff := doff) (f := 0#1 ++ md ++ 0#1) (e := e)
  exact extractLsb'_3_6_eq_append_iff.1 hf

/-! ## What a decoder reads encodes to its lanes (R57, R66) -/

/-- The instruction is one of engine `k`, its fields are well formed, and its own lanes are what the decoder was given first. -/
def ReadsAs (k : Stream) (l l2 l3 : Lane) (i : Instr) : Prop :=
  ∃ ws, encode i = some (k, ws) ∧ ws <+: [l, l2, l3] ∧ laneCount k (fOp l) = some ws.length ∧ i.fieldsWf = true ∧ Instr.stream i = some k

theorem op_of_toNat {l : Lane} {n : Nat} (h : (fOp l).toNat = n) : fOp l = BitVec.ofNat 8 n := by
  rw [← h, BitVec.ofNat_toNat, BitVec.setWidth_eq]

/- In each engine: one case per opcode of its table. The conditions that the decoder checks, taken as equations for the fields, are the
layout of the lanes (the `_eq_iff` lemmas above) and the conditions of `fieldsWf`. -/

theorem seqFields_readsAs {l l2 l3 : Lane} {i : Instr} (h : seqFields l l2 l3 = some i) : ReadsAs .seq l l2 l3 i := by
  unfold seqFields at h
  split at h
  case h_70 => cases h
  all_goals
    rename_i hop
    replace hop := op_of_toNat hop
    revert h
    simp (disch := decide) only [BitVec.ofNat_eq_ofNat, Option.bind_eq_bind, Option.bind_eq_some_iff, given_eq_some, narrow_eq_some,
      Bool.and_eq_true, beq_iff_eq, Bool.not_eq_true', beq_eq_false_iff_ne, Option.some.injEq, forall_exists_index, and_imp,
      lane_eq_zero_iff, Option.filter_eq_some_iff, cc_ofCode, path_ofCode, scope_ofCode, kindOf_eq, sysReg_ofCode]
    intros
    subst_vars
    refine ⟨_, rfl, ?_, by rw [hop]; rfl, ?_, rfl⟩
    · simp only [List.cons_prefix_cons, List.nil_prefix, and_true, BitVec.ofNat_eq_ofNat, rrr_eq_iff, rri_eq_iff, fb_eq_iff, rl_eq_iff,
        spawnLane_eq_iff, eq_append_3_3_iff, fImm_eq_xlt_iff, fImm_eq_xfence_iff, fImm_eq_fence_iff, *]
    · simp only [Instr.fieldsWf, BitVec.ofNat_eq_ofNat, Bool.not_false, bne_iff_ne, ne_eq, not_false_eq_true, *]

theorem ldqFields_readsAs {l l2 l3 : Lane} {i : Instr} (h : ldqFields l l2 l3 = some i) : ReadsAs .ldq l l2 l3 i := by
  unfold ldqFields at h
  split at h
  case h_9 => cases h
  all_goals
    rename_i hop
    replace hop := op_of_toNat hop
    revert h
    simp (disch := decide) only [BitVec.ofNat_eq_ofNat, Option.bind_eq_bind, Option.bind_eq_some_iff, given_eq_some, narrow_eq_some,
      Bool.and_eq_true, beq_iff_eq, Bool.not_eq_true', Option.some.injEq, forall_exists_index, and_imp, sz_ofCode, maskOf_eq_some]
    intros
    subst_vars
    refine ⟨_, rfl, ?_, by rw [hop]; rfl, ?_, rfl⟩
    · simp only [List.cons_prefix_cons, List.nil_prefix, and_true, BitVec.ofNat_eq_ofNat, fq_eq_iff, eq_setWidth_ofBool_iff, *]
    · simp only [Instr.fieldsWf, BitVec.ofNat_eq_ofNat, Bool.not_false, sz_eq_b8, *]

theorem stqFields_readsAs {l l2 l3 : Lane} {i : Instr} (h : stqFields l l2 l3 = some i) : ReadsAs .stq l l2 l3 i := by
  unfold stqFields at h
  split at h
  case h_10 => cases h
  all_goals
    rename_i hop
    replace hop := op_of_toNat hop
    revert h
    simp (disch := decide) only [BitVec.ofNat_eq_ofNat, Option.bind_eq_bind, Option.bind_eq_some_iff, given_eq_some, narrow_eq_some,
      Bool.and_eq_true, beq_iff_eq, Bool.not_eq_true', Option.some.injEq, forall_exists_index, and_imp, sz_ofCode, rm_ofCode,
      maskOf_eq_some]
    intros
    subst_vars
    refine ⟨_, rfl, ?_, by rw [hop]; rfl, ?_, rfl⟩
    · simp only [List.cons_prefix_cons, List.nil_prefix, and_true, BitVec.ofNat_eq_ofNat, fq_eq_iff, eq_append_2_1_3_iff, *]
    · simp only [Instr.fieldsWf, *]

theorem vecFields_readsAs {l l2 l3 : Lane} {i : Instr} (h : vecFields l l2 l3 = some i) : ReadsAs .vec l l2 l3 i := by
  unfold vecFields at h
  split at h
  case h_47 => cases h
  all_goals
    rename_i hop
    replace hop := op_of_toNat hop
    revert h
    simp (disch := decide) only [BitVec.ofNat_eq_ofNat, Option.bind_eq_bind, Option.bind_eq_some_iff, given_eq_some, narrow_eq_some,
      Bool.and_eq_true, beq_iff_eq, Bool.not_eq_true', beq_eq_false_iff_ne, Option.some.injEq, forall_exists_index, and_imp,
      Option.filter_eq_some_iff, fcc_ofCode, cc_ofCode, fmt_ofCode, rm_ofCode, maskOf_eq_some, packW_ofCode, redOp_ofCode, sortKey_ofCode,
      flag_eq_some, maskX_eq_setWidth_iff]
    intros
    subst_vars
    refine ⟨_, rfl, ?_, by rw [hop]; rfl, ?_, rfl⟩
    · simp only [List.cons_prefix_cons, List.nil_prefix, and_true, BitVec.ofNat_eq_ofNat, fq_eq_iff, eq_append_3_3_iff, cvtLane_eq_iff, *]
    · simp only [Instr.fieldsWf, bne_iff_ne, ne_eq, not_false_eq_true, ← setWidth_inj (n := 6) (w := 5) (by decide), *]

theorem tilFields_readsAs {l l2 l3 : Lane} {i : Instr} (h : tilFields l l2 l3 = some i) : ReadsAs .til l l2 l3 i := by
  unfold tilFields at h
  split at h
  case h_19 => cases h
  all_goals
    rename_i hop
    replace hop := op_of_toNat hop
    revert h
    simp (disch := decide) only [BitVec.ofNat_eq_ofNat, Option.bind_eq_bind, Option.bind_eq_some_iff, given_eq_some, narrow_eq_some,
      Bool.and_eq_true, beq_iff_eq, Bool.not_eq_true', forall_exists_index, and_imp, Option.filter_eq_some_iff, tfield_ofCode,
      mapFn_ofCode, tredOp_ofCode, viewKind_ofCode, decide_eq_true_eq, extractLsb'_3_29_eq_zero_iff, extractLsb'_8_24_eq_zero_iff,
      subTileCount_eq_some, mmOf_eq_some, mmLane3_eq_iff]
    intros
    subst_vars
    refine ⟨_, rfl, ?_, by rw [hop]; rfl, ?_, rfl⟩
    · simp only [List.cons_prefix_cons, List.nil_prefix, and_true, BitVec.ofNat_eq_ofNat, rrr_eq_iff, extractLsb'_3_6_eq_append_iff,
        mmLane2_eq_iff, mmLane3_eq_iff, viewLane_eq_iff, forceLane_eq_iff, fX_eq_tred_iff, fX_eq_tmode_iff, *]
    · simp only [Instr.fieldsWf, BitVec.ofNat_eq_ofNat, Bool.not_false, Bool.and_self, bne_iff_ne, ne_eq, not_false_eq_true, *]

theorem skqFields_readsAs {l l2 l3 : Lane} {i : Instr} (h : skqFields l l2 l3 = some i) : ReadsAs .skq l l2 l3 i := by
  unfold skqFields at h
  split at h
  case h_12 => cases h
  all_goals
    rename_i hop
    replace hop := op_of_toNat hop
    revert h
    simp (disch := decide) only [BitVec.ofNat_eq_ofNat, Option.bind_eq_bind, Option.bind_eq_some_iff, given_eq_some, narrow_eq_some,
      Bool.and_eq_true, beq_iff_eq, Bool.not_eq_true', beq_eq_false_iff_ne, Option.some.injEq, forall_exists_index, and_imp, part_ofCode,
      flag_eq_some]
    intros
    subst_vars
    refine ⟨_, rfl, ?_, by rw [hop]; rfl, ?_, rfl⟩
    · simp only [List.cons_prefix_cons, List.nil_prefix, and_true, BitVec.ofNat_eq_ofNat, rrr_eq_iff, *]
    · simp only [Instr.fieldsWf, bne_iff_ne, ne_eq, not_false_eq_true, ← setWidth_inj (n := 6) (w := 3) (by decide), *]

theorem cpyFields_readsAs {l l2 l3 : Lane} {i : Instr} (h : cpyFields l l2 l3 = some i) : ReadsAs .cpy l l2 l3 i := by
  unfold cpyFields at h
  split at h
  case h_4 => cases h
  all_goals
    rename_i hop
    replace hop := op_of_toNat hop
    revert h
    simp (disch := decide) only [BitVec.ofNat_eq_ofNat, Option.bind_eq_bind, Option.bind_eq_some_iff, given_eq_some, Bool.and_eq_true,
      beq_iff_eq, forall_exists_index, and_imp, semOf_eq_some]
    intros
    subst_vars
    refine ⟨_, rfl, ?_, by rw [hop]; rfl, ?_, rfl⟩
    · simp only [List.cons_prefix_cons, List.nil_prefix, and_true, BitVec.ofNat_eq_ofNat, rrr_eq_iff, cpyiLane_eq_iff, *]
    · simp only [Instr.fieldsWf, *]

theorem lnkFields_readsAs {l l2 l3 : Lane} {i : Instr} (h : lnkFields l l2 l3 = some i) : ReadsAs .lnk l l2 l3 i := by
  unfold lnkFields at h
  split at h
  case h_5 => cases h
  all_goals
    rename_i hop
    replace hop := op_of_toNat hop
    revert h
    simp (disch := decide) only [BitVec.ofNat_eq_ofNat, Option.bind_eq_bind, Option.bind_eq_some_iff, given_eq_some, Bool.and_eq_true,
      beq_iff_eq, Option.some.injEq, forall_exists_index, and_imp, cwOf_eq_some, flag_eq_some]
    intros
    subst_vars
    refine ⟨_, rfl, ?_, by rw [hop]; rfl, ?_, rfl⟩
    · simp only [List.cons_prefix_cons, List.nil_prefix, and_true, BitVec.ofNat_eq_ofNat, rrr_eq_iff, lnkLane_eq_iff, *]
    · simp only [Instr.fieldsWf, *]

theorem atmFields_readsAs {l l2 l3 : Lane} {i : Instr} (h : atmFields l l2 l3 = some i) : ReadsAs .atm l l2 l3 i := by
  unfold atmFields at h
  split at h
  case h_13 => cases h
  all_goals
    rename_i hop
    replace hop := op_of_toNat hop
    revert h
    simp (disch := decide) only [BitVec.ofNat_eq_ofNat, Option.bind_eq_bind, Option.bind_eq_some_iff, given_eq_some, narrow_eq_some,
      Bool.and_eq_true, beq_iff_eq, Option.some.injEq, forall_exists_index, and_imp, atomOp_ofCode, fatomOp_ofCode, nbOp_ofCode,
      dblOf_eq_some, atOf_eq_some, extractLsb'_19_13_eq_zero_iff, kOf_eq_some, kLane_eq_iff]
    intros
    subst_vars
    refine ⟨_, rfl, ?_, by rw [hop]; rfl, ?_, rfl⟩
    · simp only [List.cons_prefix_cons, List.nil_prefix, and_true, BitVec.ofNat_eq_ofNat, rrr_eq_iff, atLane_eq_iff, kLane_eq_iff,
        eq_atX_iff, Bool.false_eq_true, if_false, *]
    · simp only [Instr.fieldsWf, *]

/-! ## What is encoded is read back (R57, R63) -/

theorem toNat_of_op {l : Lane} {n : Nat} (h : fOp l = BitVec.ofNat 8 n) (hn : n < 256) : (fOp l).toNat = n := by
  rw [h, BitVec.toNat_ofNat, Nat.mod_eq_of_lt hn]

/- In each engine: one case per instruction of its table. The layout gives every field of the lanes, so each check of the decoder's arm for
the opcode holds and each field is read back. -/

theorem seqFields_of_encode {l l2 l3 : Lane} {i : Instr} {ws : List Lane} (hw : i.fieldsWf = true)
    (he : encode i = some (.seq, ws)) (hp : ws <+: [l, l2, l3]) :
    laneCount .seq (fOp l) = some ws.length ∧ seqFields l l2 l3 = some i := by
  cases i
  all_goals cases he
  all_goals
    simp only [List.cons_prefix_cons, List.nil_prefix, and_true, and_assoc, BitVec.ofNat_eq_ofNat, rrr_eq_iff, rri_eq_iff, fb_eq_iff,
      rl_eq_iff, eq_append_3_3_iff, fImm_eq_xlt_iff, fImm_eq_xfence_iff, fImm_eq_fence_iff, spawnLane_eq_iff] at hp
    simp only [Instr.fieldsWf, BitVec.ofNat_eq_ofNat, bne_iff_ne, ne_eq, Bool.not_eq_true'] at hw
    obtain ⟨hop, hf⟩ := hp
    casesm* _ ∧ _
    subst_vars
    refine ⟨by rw [hop]; rfl, ?_⟩
    rw [seqFields, toNat_of_op hop (by decide)]
    with_reducible_and_instances conv_lhs => whnf
  all_goals
    simp (disch := first | assumption | decide) only [given, BitVec.ofNat_eq_ofNat, ne_eq, Bool.and_eq_true, beq_iff_eq,
      Bool.not_eq_true', beq_eq_false_iff_ne, narrow_setWidth, Option.bind_eq_bind, Option.bind_some, and_self, not_false_eq_true,
      if_true, lane_eq_zero_iff, cc_ofCode.2 rfl, path_ofCode.2 rfl, scope_ofCode.2 rfl, kindOf_eq.2 rfl, sysReg_ofCode.2 rfl,
      Option.filter_some, *]

theorem ldqFields_of_encode {l l2 l3 : Lane} {i : Instr} {ws : List Lane} (hw : i.fieldsWf = true)
    (he : encode i = some (.ldq, ws)) (hp : ws <+: [l, l2, l3]) :
    laneCount .ldq (fOp l) = some ws.length ∧ ldqFields l l2 l3 = some i := by
  cases i
  all_goals cases he
  all_goals
    simp only [List.cons_prefix_cons, List.nil_prefix, and_true, and_assoc, BitVec.ofNat_eq_ofNat, fq_eq_iff,
      eq_setWidth_ofBool_iff] at hp
    simp only [Instr.fieldsWf, BitVec.ofNat_eq_ofNat, Bool.not_eq_true', sz_eq_b8] at hw
    obtain ⟨hop, hf⟩ := hp
    casesm* _ ∧ _
    subst_vars
    refine ⟨by rw [hop]; rfl, ?_⟩
    rw [ldqFields, toNat_of_op hop (by decide)]
    with_reducible_and_instances conv_lhs => whnf
    simp (disch := first | assumption | decide) only [given, BitVec.ofNat_eq_ofNat, Bool.and_eq_true, beq_iff_eq, Bool.not_eq_true',
      narrow_setWidth, Option.bind_eq_bind, Option.bind_some, and_self, if_true, sz_ofCode.2 rfl, maskOf_getD, *]

theorem stqFields_of_encode {l l2 l3 : Lane} {i : Instr} {ws : List Lane} (hw : i.fieldsWf = true)
    (he : encode i = some (.stq, ws)) (hp : ws <+: [l, l2, l3]) :
    laneCount .stq (fOp l) = some ws.length ∧ stqFields l l2 l3 = some i := by
  cases i
  all_goals cases he
  all_goals
    simp only [List.cons_prefix_cons, List.nil_prefix, and_true, and_assoc, BitVec.ofNat_eq_ofNat, fq_eq_iff, eq_append_2_1_3_iff] at hp
    obtain ⟨hop, hf⟩ := hp
    casesm* _ ∧ _
    subst_vars
    refine ⟨by rw [hop]; rfl, ?_⟩
    rw [stqFields, toNat_of_op hop (by decide)]
    with_reducible_and_instances conv_lhs => whnf
    simp (disch := first | assumption | decide) only [given, BitVec.ofNat_eq_ofNat, Bool.and_eq_true, beq_iff_eq, Bool.not_eq_true',
      narrow_setWidth, Option.bind_eq_bind, Option.bind_some, and_self, if_true, sz_ofCode.2 rfl, rm_ofCode.2 rfl, maskOf_getD, *]

theorem vecFields_of_encode {l l2 l3 : Lane} {i : Instr} {ws : List Lane} (hw : i.fieldsWf = true)
    (he : encode i = some (.vec, ws)) (hp : ws <+: [l, l2, l3]) :
    laneCount .vec (fOp l) = some ws.length ∧ vecFields l l2 l3 = some i := by
  cases i
  all_goals cases he
  all_goals
    simp only [List.cons_prefix_cons, List.nil_prefix, and_true, and_assoc, BitVec.ofNat_eq_ofNat, fq_eq_iff, eq_append_3_3_iff,
      cvtLane_eq_iff] at hp
    simp only [Instr.fieldsWf, bne_iff_ne, ne_eq, decide_eq_true_eq] at hw
    obtain ⟨hop, hf⟩ := hp
    casesm* _ ∧ _
    subst_vars
    refine ⟨by rw [hop]; rfl, ?_⟩
    rw [vecFields, toNat_of_op hop (by decide)]
    with_reducible_and_instances conv_lhs => whnf
    simp (disch := first | assumption | decide) only [given, BitVec.ofNat_eq_ofNat, ne_eq, Bool.and_eq_true, beq_iff_eq,
      Bool.not_eq_true', beq_eq_false_iff_ne, narrow_setWidth, Option.bind_eq_bind, Option.bind_some, and_self, not_false_eq_true,
      if_true, cc_ofCode.2 rfl, fcc_ofCode.2 rfl, fmt_ofCode.2 rfl, rm_ofCode.2 rfl, maskOf_getD, maskOf_getD_extract, packW_ofCode.2 rfl,
      redOp_ofCode.2 rfl, sortKey_ofCode.2 rfl, Option.filter_some, Option.map_some, BitVec.getLsbD_ofBool, decide_true, Bool.true_and,
      setWidth_inj, *]

theorem tilFields_of_encode {l l2 l3 : Lane} {i : Instr} {ws : List Lane} (hw : i.fieldsWf = true)
    (he : encode i = some (.til, ws)) (hp : ws <+: [l, l2, l3]) :
    laneCount .til (fOp l) = some ws.length ∧ tilFields l l2 l3 = some i := by
  cases i
  all_goals cases he
  all_goals
    simp only [List.cons_prefix_cons, List.nil_prefix, and_true, and_assoc, BitVec.ofNat_eq_ofNat, rrr_eq_iff, viewLane_eq_iff,
      forceLane_eq_iff, fX_eq_tred_iff, fX_eq_tmode_iff] at hp
    simp only [Instr.fieldsWf, BitVec.ofNat_eq_ofNat, bne_iff_ne, ne_eq, Bool.and_eq_true, Bool.or_eq_true, beq_iff_eq,
      Bool.not_eq_true'] at hw
    obtain ⟨hop, hf⟩ := hp
    casesm* _ ∧ _
    subst_vars
    refine ⟨by rw [hop]; rfl, ?_⟩
    rw [tilFields, toNat_of_op hop (by decide)]
    with_reducible_and_instances conv_lhs => whnf
    simp (disch := first | assumption | decide) only [given, BitVec.ofNat_eq_ofNat, ne_eq, Bool.and_eq_true, Bool.or_eq_true, beq_iff_eq,
      Bool.not_eq_true', decide_eq_true_eq, narrow_setWidth, Option.bind_eq_bind, Option.bind_some, and_self, not_false_eq_true, if_true,
      tfield_ofCode.2 rfl, mapFn_ofCode.2 rfl, tredOp_ofCode.2 rfl, viewKind_ofCode.2 rfl, mmOf_mmLanes, mmLane2_fields, mmLane2_metadata,
      Option.filter_some, subTileCount_of_isSome, extractLsb'_3_29_eq_zero_iff, extractLsb'_8_24_eq_zero_iff, *]

theorem skqFields_of_encode {l l2 l3 : Lane} {i : Instr} {ws : List Lane} (hw : i.fieldsWf = true)
    (he : encode i = some (.skq, ws)) (hp : ws <+: [l, l2, l3]) :
    laneCount .skq (fOp l) = some ws.length ∧ skqFields l l2 l3 = some i := by
  cases i
  all_goals cases he
  all_goals
    simp only [List.cons_prefix_cons, List.nil_prefix, and_true, and_assoc, BitVec.ofNat_eq_ofNat, rrr_eq_iff] at hp
    simp only [Instr.fieldsWf, bne_iff_ne, ne_eq] at hw
    obtain ⟨hop, hf⟩ := hp
    casesm* _ ∧ _
    subst_vars
    refine ⟨by rw [hop]; rfl, ?_⟩
    rw [skqFields, toNat_of_op hop (by decide)]
    with_reducible_and_instances conv_lhs => whnf
    simp (disch := first | assumption | decide) only [given, BitVec.ofNat_eq_ofNat, ne_eq, Bool.and_eq_true, beq_iff_eq,
      Bool.not_eq_true', beq_eq_false_iff_ne, narrow_setWidth, Option.bind_eq_bind, Option.bind_some, and_self, not_false_eq_true,
      if_true, part_ofCode.2 rfl, setWidth_inj, Option.map_some, BitVec.getLsbD_ofBool, decide_true, Bool.true_and, *]

theorem cpyFields_of_encode {l l2 l3 : Lane} {i : Instr} {ws : List Lane} (hw : i.fieldsWf = true)
    (he : encode i = some (.cpy, ws)) (hp : ws <+: [l, l2, l3]) :
    laneCount .cpy (fOp l) = some ws.length ∧ cpyFields l l2 l3 = some i := by
  cases i
  all_goals cases he
  all_goals
    simp only [List.cons_prefix_cons, List.nil_prefix, and_true, and_assoc, BitVec.ofNat_eq_ofNat, rrr_eq_iff, cpyiLane_eq_iff] at hp
    obtain ⟨hop, hf⟩ := hp
    casesm* _ ∧ _
    subst_vars
    refine ⟨by rw [hop]; rfl, ?_⟩
    rw [cpyFields, toNat_of_op hop (by decide)]
    with_reducible_and_instances conv_lhs => whnf
    simp (disch := first | assumption | decide) only [given, BitVec.ofNat_eq_ofNat, Bool.and_eq_true, beq_iff_eq, Option.bind_some,
      and_self, if_true, semOf_getD, *]

theorem lnkFields_of_encode {l l2 l3 : Lane} {i : Instr} {ws : List Lane} (hw : i.fieldsWf = true)
    (he : encode i = some (.lnk, ws)) (hp : ws <+: [l, l2, l3]) :
    laneCount .lnk (fOp l) = some ws.length ∧ lnkFields l l2 l3 = some i := by
  cases i
  all_goals cases he
  all_goals
    simp only [List.cons_prefix_cons, List.nil_prefix, and_true, and_assoc, BitVec.ofNat_eq_ofNat, rrr_eq_iff] at hp
    obtain ⟨hop, hf⟩ := hp
    casesm* _ ∧ _
    subst_vars
    refine ⟨by rw [hop]; rfl, ?_⟩
    rw [lnkFields, toNat_of_op hop (by decide)]
    with_reducible_and_instances conv_lhs => whnf
    simp (disch := first | assumption | decide) only [given, BitVec.ofNat_eq_ofNat, Bool.and_eq_true, beq_iff_eq, narrow_setWidth,
      Option.bind_some, and_self, if_true, cwOf_lnkLane, Option.map_some, BitVec.getLsbD_ofBool, decide_true, Bool.true_and,
      lnkLane_fields, *]

theorem atmFields_of_encode {l l2 l3 : Lane} {i : Instr} {ws : List Lane} (hw : i.fieldsWf = true)
    (he : encode i = some (.atm, ws)) (hp : ws <+: [l, l2, l3]) :
    laneCount .atm (fOp l) = some ws.length ∧ atmFields l l2 l3 = some i := by
  cases i
  all_goals cases he
  all_goals
    simp only [List.cons_prefix_cons, List.nil_prefix, and_true, and_assoc, BitVec.ofNat_eq_ofNat, rrr_eq_iff, eq_atX_iff,
      Bool.false_eq_true, if_false] at hp
    simp only [Instr.fieldsWf] at hw
    obtain ⟨hop, hf⟩ := hp
    casesm* _ ∧ _
    subst_vars
    refine ⟨by rw [hop]; rfl, ?_⟩
    rw [atmFields, toNat_of_op hop (by decide)]
    with_reducible_and_instances conv_lhs => whnf
    simp (disch := first | assumption | decide) only [given, BitVec.ofNat_eq_ofNat, Bool.and_eq_true, beq_iff_eq, narrow_setWidth,
      Option.bind_eq_bind, Option.bind_some, and_self, if_true, atomOp_ofCode.2 rfl, fatomOp_ofCode.2 rfl, nbOp_ofCode.2 rfl, atOf_atLane,
      kOf_eq_some.2 ⟨rfl, rfl⟩, dblOf_of_extract, atLane_eq_iff.1 rfl, extractLsb'_19_13_eq_zero_iff, *]

/-! ## The decoder and the encoder (R57, R63) -/

theorem fieldsOf_readsAs {k : Stream} {l l2 l3 : Lane} {i : Instr} (h : fieldsOf k l l2 l3 = some i) : ReadsAs k l l2 l3 i :=
  match k with
  | .seq => seqFields_readsAs h
  | .ldq => ldqFields_readsAs h
  | .stq => stqFields_readsAs h
  | .vec => vecFields_readsAs h
  | .til => tilFields_readsAs h
  | .skq => skqFields_readsAs h
  | .cpy => cpyFields_readsAs h
  | .lnk => lnkFields_readsAs h
  | .atm => atmFields_readsAs h

theorem fieldsOf_of_encode {k : Stream} {l l2 l3 : Lane} {i : Instr} {ws : List Lane} (hw : i.fieldsWf = true)
    (he : encode i = some (k, ws)) (hp : ws <+: [l, l2, l3]) :
    laneCount k (fOp l) = some ws.length ∧ fieldsOf k l l2 l3 = some i :=
  match k with
  | .seq => seqFields_of_encode hw he hp
  | .ldq => ldqFields_of_encode hw he hp
  | .stq => stqFields_of_encode hw he hp
  | .vec => vecFields_of_encode hw he hp
  | .til => tilFields_of_encode hw he hp
  | .skq => skqFields_of_encode hw he hp
  | .cpy => cpyFields_of_encode hw he hp
  | .lnk => lnkFields_of_encode hw he hp
  | .atm => atmFields_of_encode hw he hp

/-- A decoder accepts lanes when their number is that of the opcode and the fields are read. -/
theorem decode_eq_ok_iff {k : Stream} {l : Lane} {rest : List Lane} {i : Instr} :
    decode k (l :: rest) = .ok i ↔
      laneCount k (fOp l) = some (l :: rest).length ∧ fieldsOf k l (rest.getD 0 0) (rest.getD 1 0) = some i := by
  rw [decode]
  cases laneCount k (fOp l) with
  | none => simp
  | some n =>
    by_cases hn : (l :: rest).length = n
    · simp only [hn, if_true, true_and]
      cases fieldsOf k l (rest.getD 0 0) (rest.getD 1 0) <;> simp
    · simp only [hn, if_false, Option.some.injEq, Ne.symm hn, false_and, reduceCtorEq]

theorem encode_lanes {i : Instr} {k : Stream} {ws : List Lane} (h : encode i = some (k, ws)) :
    ∃ l rest, ws = l :: rest ∧ rest.length ≤ 2 := by
  cases i <;> cases h <;> exact ⟨_, _, rfl, by simp⟩

/-- The decoder reads two lanes after the first, whether they are there or not. -/
theorem lanes_prefix (l : Lane) {rest : List Lane} (h : rest.length ≤ 2) : l :: rest <+: [l, rest.getD 0 0, rest.getD 1 0] :=
  match rest with
  | [] | [_] | [_, _] => by simp
  | _ :: _ :: _ :: _ => absurd h (by simp)

theorem encode_of_decode {i : Instr} {k : Stream} {ws : List Lane} (h : decode k ws = .ok i) :
    encode i = some (k, ws) ∧ i.fieldsWf = true ∧ Instr.stream i = some k := by
  cases ws with
  | nil => cases h
  | cons l rest =>
    obtain ⟨hn, hf⟩ := decode_eq_ok_iff.1 h
    obtain ⟨ws, he, hp, hn', hw, hs⟩ := fieldsOf_readsAs hf
    have hlen : ws.length = (l :: rest).length := Option.some.inj (hn'.symm.trans hn)
    have hrest : rest.length ≤ 2 := Nat.le_of_lt_succ (by simpa [hlen] using hp.length_le)
    have hws : ws = l :: rest := (List.prefix_of_prefix_length_le hp (lanes_prefix l hrest) hlen.le).eq_of_length hlen
    exact ⟨hws ▸ he, hw, hs⟩

theorem decode_of_encode {i : Instr} {k : Stream} {ws : List Lane} (hw : i.fieldsWf = true) (he : encode i = some (k, ws)) :
    decode k ws = .ok i := by
  obtain ⟨l, rest, rfl, hrest⟩ := encode_lanes he
  exact decode_eq_ok_iff.2 (fieldsOf_of_encode hw he (lanes_prefix l hrest))

/-- Settles O55: reading a field inverts laying it out, engine by engine (`fieldsOf_of_encode`), and what is read lays out to the lanes it
was read from (`fieldsOf_readsAs`). -/
theorem decodingAndEncodingAgree : Obligations.DecodingAndEncodingAgree :=
  ⟨fun _ _ _ => decode_of_encode, fun _ _ _ => encode_of_decode⟩

end Sys2Proof.Machine
end

section

namespace Sys2Proof.Machine

/-! ## Target lines (R58) -/

theorem lineAt_eq_lineTarget (line : Word) {n : Nat} (off : BitVec n) (h : n ≤ 64) : lineAt line off = lineTarget line off.toInt := by
  refine BitVec.eq_of_toInt_eq ?_
  have hs : (off.signExtend 64).toInt = off.toInt := BitVec.toInt_signExtend_of_le h
  simp only [lineAt, lineTarget, sext, BitVec.toInt_add, BitVec.toInt_mul, BitVec.toInt_ofInt, hs]
  simp

/-- Past the last instruction of a line the sequencer goes on as after a transfer to the next line. -/
theorem past_of_lastLane {s : State} (h : LastLane s) : s.past 1 = s.goneTo (s.cur.flow.line + 32) := by
  have hf : s.cur.flow.after 1 = s.cur.flow.to (s.cur.flow.line + 32) := by
    unfold Flow.after
    dsimp only
    rw [h]
    rfl
  rw [State.past, hf, State.goneTo]

theorem past_withRegs_of_lastLane {s : State} (h : LastLane s) (f : Regs → Regs) :
    (s.withRegs f).past 1 = (s.withRegs f).goneTo (s.cur.flow.line + 32) :=
  past_of_lastLane (s := s.withRegs f) h

theorem lowFive_eq_zero_iff {x : Word} : x.extractLsb' 0 5 = 0 ↔ x.toNat % 32 = 0 := by
  rw [← BitVec.toNat_inj]
  simp

theorem Regs.rd_eq_get (g : Regs) {r : SReg} (h : r ≠ 0) : g.rd r = g.s.get r.toFin := if_neg h

theorem Regs.wr_eq_set (g : Regs) {r : SReg} (h : r ≠ 0) (x : Word) : g.wr r x = { g with s := g.s.set r.toNat x r.isLt } := if_neg h

theorem take_scalar (s : State) (r : SReg) (h : isPort r = false) : s.take r = some (s.cur.regs.rd r, s) := by
  simp [State.take, h]

theorem give_scalar (s : State) (r : SReg) (x : Word) (h : isPort r = false) : s.give r x = some (s.withRegs fun g => g.wr r x) := by
  simp [State.give, h]

/-- The fault of an instruction at the lane being handled (R64). -/
def State.laneFault (s : State) (k : Stream) (code : Byte) : FaultInfo := { code, stream := k, seq := s.cur.num k, va := s.cur.nextPc }

/-- A transfer that raises a fault at its handling, the task being drained. -/
theorem transferOp_fault {i : Instr} {body : M Unit} {s s1 : State} {f : FaultInfo} (hp : i.portBad = false)
    (h : ans body s = (.error (.fault f false), s1)) : transferOp i body s = .next (takeFault f s) := by
  refine runM_fault (keep := false) (s' := s1) ?_
  rw [ans_bind_ok (ans_portCheck _ hp s), h]

theorem exec_br {s : State} (p : PReg) (n : Bool) (off : BitVec 20) (hl : LastLane s) :
    exec (.br p n off) s = .next (s.goneTo
      (if s.cur.regs.rdP p = n then s.cur.flow.line + 32 else lineTarget s.cur.flow.line off.toInt)) := by
  show execBr p n off s = _
  refine transferOp_ok rfl ?_
  rw [ans_bind_ok (ans_theTask s), ans_ite]
  by_cases h : s.cur.regs.rdP p = n
  · simp [h, past_of_lastLane hl]
  · simp [h, lineAt_eq_lineTarget]

theorem exec_call {s : State} (p : PReg) (n : Bool) (off : BitVec 20) (hl : LastLane s) :
    exec (.call p n off) s =
      if s.cur.regs.rdP p = n then .next (s.goneTo (s.cur.flow.line + 32))
      else .next ((s.withRegs fun g => { g with s := g.s.set 1 (s.cur.flow.line + 32) }).goneTo
        (lineTarget s.cur.flow.line off.toInt)) := by
  show execCall p n off s = _
  split
  next h =>
    refine transferOp_ok rfl ?_
    rw [ans_bind_ok (ans_theTask s)]
    simp [h, past_of_lastLane hl]
  next h =>
    refine transferOp_ok rfl ?_
    rw [ans_bind_ok (ans_theTask s), if_pos (by simpa using h), ans_bind_ok (ans_writeS (give_scalar s 1 _ rfl)), ans_transferTo,
      lineAt_eq_lineTarget _ _ (by decide)]
    rfl

/-- The check of ret and jmp passes an aligned target. -/
theorem ans_aligned {s : State} {x : Word} (m : M Unit) (h : x.toNat % 32 = 0) :
    ans (do
      if x.extractLsb' 0 5 ≠ 0 then raiseAt .seq fcAlign (← laneVa)
      m) s = ans m s := by
  rw [if_neg (not_not.2 (lowFive_eq_zero_iff.2 h))]

/-- The check of ret and jmp raises ALIGN for a misaligned target. -/
theorem ans_misaligned {s : State} {x : Word} (m : M Unit) (h : x.toNat % 32 ≠ 0) (hd : s.Drained) :
    ans (do
      if x.extractLsb' 0 5 ≠ 0 then raiseAt .seq fcAlign (← laneVa)
      m) s = (.error (.fault (s.laneFault .seq fcAlign) false), s) := by
  rw [if_pos (mt lowFive_eq_zero_iff.1 h), ans_bind_ok (ans_laneVa s), ans_bind_error (ans_raiseAt_drained hd _ _ _)]
  rfl

theorem exec_ret {s : State} (h : (s.cur.regs.s.get 1).toNat % 32 = 0) : exec .ret s = .next (s.goneTo (s.cur.regs.s.get 1)) := by
  have hx : s.cur.regs.rd 1 = s.cur.regs.s.get 1 := rfl
  show execRet s = _
  refine transferOp_ok rfl ?_
  rw [ans_bind_ok (ans_readS (take_scalar s 1 rfl)), hx, ans_aligned _ h]
  rfl

theorem exec_ret_misaligned {s : State} (hd : s.Drained) (h : (s.cur.regs.s.get 1).toNat % 32 ≠ 0) :
    exec .ret s = .next (takeFault (s.laneFault .seq fcAlign) s) := by
  have hx : s.cur.regs.rd 1 = s.cur.regs.s.get 1 := rfl
  show execRet s = _
  refine transferOp_fault rfl (s1 := s) ?_
  rw [ans_bind_ok (ans_readS (take_scalar s 1 rfl)), hx]
  exact ans_misaligned _ h hd

theorem exec_jmp {s s1 t : State} {d a : SReg} {x : Word} (hp : (Instr.jmp d a).portBad = false) (ht : s.take a = some (x, s1))
    (h : x.toNat % 32 = 0) (hg : s1.give d (s.cur.flow.line + 32) = some t) : exec (.jmp d a) s = .next (t.goneTo x) := by
  show execJmp d a s = _
  refine transferOp_ok hp ?_
  rw [ans_bind_ok (ans_theTask s), ans_bind_ok (ans_readS ht), ans_aligned _ h, ans_bind_ok (ans_writeS hg), ans_transferTo]

theorem exec_jmp_misaligned {s s1 : State} {d a : SReg} {x : Word} (hd : s.Drained) (hp : (Instr.jmp d a).portBad = false)
    (ht : s.take a = some (x, s1)) (h : x.toNat % 32 ≠ 0) :
    exec (.jmp d a) s = .next (takeFault (s.laneFault .seq fcAlign) s) := by
  obtain ⟨f, rfl⟩ := take_frame ht
  show execJmp d a s = _
  refine transferOp_fault hp (s1 := s.withRegs f) ?_
  rw [ans_bind_ok (ans_theTask s), ans_bind_ok (ans_readS ht)]
  exact ans_misaligned _ h hd

/-- The counter of a loop is read and written in place, so it is no port. -/
theorem isPort_of_loop {a : SReg} {off : BitVec 18} (hp : (Instr.loop a off).portBad = false) : isPort a = false := by
  have hbad : badSrc a = false ∧ badDst a = false := by simpa [Instr.portBad, Instr.srcs, Instr.dsts] using hp
  clear hp
  revert a
  decide

theorem exec_loop {s : State} {a : SReg} (off : BitVec 18) (h0 : a ≠ 0) (hp : (Instr.loop a off).portBad = false) (hl : LastLane s) :
    exec (.loop a off) s = .next ((s.withRegs fun g => { g with s := g.s.set a.toNat (g.s.get a.toFin - 1) a.isLt }).goneTo
      (if s.cur.regs.s.get a.toFin = 1 then s.cur.flow.line + 32 else lineTarget s.cur.flow.line off.toInt)) := by
  have hport := isPort_of_loop hp
  have hset : (s.withRegs fun g => g.wr a (s.cur.regs.s.get a.toFin - 1)) =
      s.withRegs fun g => { g with s := g.s.set a.toNat (g.s.get a.toFin - 1) a.isLt } := by
    simp only [State.withRegs, Regs.wr_eq_set _ h0]
  show execLoop a off s = _
  refine transferOp_ok hp ?_
  rw [ans_bind_ok (ans_theTask s), ans_bind_ok (ans_readS (take_scalar s a hport)), Regs.rd_eq_get _ h0,
    ans_bind_ok (ans_writeS (give_scalar s a _ hport)), hset, ans_ite, ans_transferTo, ans_handled,
    past_withRegs_of_lastLane hl,
    lineAt_eq_lineTarget _ _ (by decide)]
  by_cases h : s.cur.regs.s.get a.toFin = 1
  · rw [if_neg (not_not.2 (sub_eq_zero.2 h)), if_pos h]
  · rw [if_pos (mt sub_eq_zero.1 h), if_neg h]

/-- Settles O4: each transfer by its own rule (`exec_br` to `exec_loop`), and for ret and jmp the check of the target fails first. -/
theorem transfersGoToTheirTarget : Obligations.TransfersGoToTheirTarget :=
  ⟨⟨fun _ p n off => exec_br p n off, fun _ p n off => exec_call p n off, fun _ => exec_ret, fun _ _ _ _ _ _ => exec_jmp,
    fun _ _ off => exec_loop off⟩, fun _ => exec_ret_misaligned, fun _ _ _ _ _ => exec_jmp_misaligned⟩

end Sys2Proof.Machine
end

section

namespace Sys2Proof.Machine

/-! ## Ports named against their direction (R63, R69) -/

section
variable {s : State} {k : Stream} {i : Instr} {n : Nat} {check : List Word → M Unit} {body : Entry → M Unit} (hp : i.portBad = true) (hd : s.Drained)
include hp hd

/-- The port check is the first thing an instruction does. -/
theorem ans_portCheck_bad : ans (portCheck k i) s = (.error (.fault (s.laneFault k fcPort) false), s) := by
  unfold portCheck
  rw [hp, if_pos rfl, ans_bind_ok (ans_laneVa s), ans_raiseAt_drained hd]
  rfl

theorem runM_portBad {m : M Unit} : runM (do portCheck k i; m) s = .next (takeFault (s.laneFault k fcPort) s) :=
  runM_fault (keep := false) (ans_bind_error (ans_portCheck_bad hp hd))

theorem ans_dispatch_portBad : ans (dispatch k i n check) s = (.error (.fault (s.laneFault k fcPort) false), s) :=
  ans_bind_error (ans_portCheck_bad hp hd)

theorem runM_dispatch_portBad : runM (dispatch k i n check) s = .next (takeFault (s.laneFault k fcPort) s) :=
  runM_fault (keep := false) (ans_dispatch_portBad hp hd)

theorem queued_portBad (ha : s.act = none) : queued k i n body s = .next (takeFault (s.laneFault k fcPort) s) := by
  unfold queued
  rw [ha]
  exact runM_dispatch_portBad hp hd

theorem queuedFree_portBad (ha : s.act = none) : queuedFree k i n body s = .next (takeFault (s.laneFault k fcPort) s) := by
  unfold queuedFree
  rw [ha]
  exact runM_fault (keep := false) (ans_bind_error (ans_dispatch_portBad hp hd))

theorem tilOp_portBad (ha : s.act = none) : tilOp i n body s = .next (takeFault (s.laneFault .til fcPort) s) := by
  unfold tilOp
  rw [ha]
  exact runM_dispatch_portBad hp hd

theorem skOp_portBad (ha : s.act = none) : skOp i n body s = .next (takeFault (s.laneFault .skq fcPort) s) := by
  unfold skOp
  rw [ha]
  exact runM_dispatch_portBad hp hd

theorem linkOp_portBad (ha : s.act = none) : linkOp i s = .next (takeFault (s.laneFault .lnk fcPort) s) := by
  unfold linkOp
  rw [ha]
  exact runM_dispatch_portBad hp hd

theorem atmOp_portBad (ha : s.act = none) : atmOp i n body s = .next (takeFault (s.laneFault .atm fcPort) s) := by
  unfold atmOp
  rw [ha]
  exact runM_dispatch_portBad hp hd

theorem atmFree_portBad (ha : s.act = none) : atmFree i n body s = .next (takeFault (s.laneFault .atm fcPort) s) := by
  unfold atmFree
  rw [ha]
  exact queuedFree_portBad hp hd ha

/-- A copy instruction waits for room first; a drained task without commands has it. -/
theorem runM_copy_portBad (hc : s.cur.vcq = []) :
    runM (do copyRoom; dispatch .cpy i n check) s = .next (takeFault (s.laneFault .cpy fcPort) s) := by
  have hroom : s.cur.copiesLeft < 16 := by simp [Task.copiesLeft, hc, hd.1 .cpy]
  refine runM_fault (keep := false) (s' := s) ?_
  rw [ans_bind_ok (ans_copyRoom hroom), ans_dispatch_portBad hp hd]

end

/-- An instruction of the sequencer with a port against its direction; resume checks the privilege of its context first. -/
theorem exec_seq_portBad {s : State} {i : Instr} (hi : Instr.stream i = some .seq) (hp : i.portBad = true) (hr : ∀ a, i ≠ .resume a)
    (hd : s.Drained) : exec i s = .next (takeFault (s.laneFault .seq fcPort) s) := by
  cases i
  all_goals cases hi
  case resume a => exact absurd rfl (hr a)
  case nop | hinv | semSig | mark => exact absurd hp Bool.false_ne_true
  all_goals exact runM_portBad hp hd

theorem exec_queue_portBad {s : State} {i : Instr} {k : Stream} (hi : Instr.stream i = some k) (hk : k ≠ .seq) (hp : i.portBad = true)
    (hd : s.Drained) (ha : s.act = none) (hc : k = .cpy → s.cur.vcq = []) :
    exec i s = .next (takeFault (s.laneFault k fcPort) s) := by
  cases i
  all_goals cases hi
  any_goals exact absurd rfl hk
  case vlds | vsts | ldpf | vlsp | vssp => exact queued_portBad hp hd ha
  case tset | tscal | tmmtr => exact tilOp_portBad hp hd ha
  case skbind | skshr | skrd | skapply => exact skOp_portBad hp hd ha
  case lsend | lrecv | lradd => exact linkOp_portBad hp hd ha
  case atom | fatom | cas | atomk | cask | qpush => exact atmOp_portBad hp hd ha
  case atomnr | fatomnr => exact atmFree_portBad hp hd ha
  case cpy a =>
    show execCpy a s = _
    unfold execCpy
    rw [ha]
    exact runM_copy_portBad hp hd (hc rfl)
  case cpyi d a b tag sig =>
    show execCpyi d a b tag sig s = _
    unfold execCpyi
    rw [ha]
    exact runM_copy_portBad hp hd (hc rfl)
  case cqstat a =>
    show execCqstat a s = _
    unfold execCqstat
    rw [ha]
    exact runM_copy_portBad hp hd (hc rfl)
  case nbx op a o =>
    show execNbx op a o s = _
    unfold execNbx
    split
    · exact atmOp_portBad hp hd ha
    · exact atmFree_portBad hp hd ha
  all_goals exact absurd hp Bool.false_ne_true

/-! ## Lanes that no decoder accepts (R63, R64) -/

theorem laneAct_of_error {s : State} {e : DecodeFault} (hb : s.breakAt = none) (he : decodeLane s.cur.flow.lanes s.cur.flow.lane = .error e) :
    s.laneAct = .bad s.cur.laneEngine (DecodeFault.code e) := by
  unfold State.laneAct
  rw [hb]
  dsimp only
  rw [he]

theorem ans_badLane {s : State} (hd : s.Drained) (k : Stream) (code : Byte) :
    ans (badLane k code) s = (.error (.fault (s.laneFault k code) false), s) := by
  unfold badLane
  rw [ans_bind_ok (ans_laneVa s), ans_raiseAt_drained hd]
  rfl

theorem exec_queueDispatch_bad {s : State} {core : Nat} {e : DecodeFault} (hr : s.cur.status = .running core)
    (hen : s.cur.flow.entered = true) (ht : s.cur.flow.timed = none) (hf : s.cur.flow.finishing = none) (hk : s.cur.laneEngine ≠ .seq)
    (hb : s.breakAt = none) (hd : s.Drained) (he : decodeLane s.cur.flow.lanes s.cur.flow.lane = .error e) :
    exec .queueDispatch s = .next (takeFault (s.laneFault s.cur.laneEngine (DecodeFault.code e)) s) := by
  have hrun : s.cur.isRunning = true := by simp [Task.isRunning, hr]
  show execQueueDispatch s = _
  unfold execQueueDispatch
  simp only [hrun, hen, ht, hf, beq_eq_false_iff_ne.2 hk, laneAct_of_error hb he, Option.isSome_none, Bool.not_true, Bool.or_self,
    Bool.false_eq_true, if_false]
  exact runM_fault (keep := false) (ans_badLane hd _ _)

/-- Settles O54: the port check comes before everything else an instruction does (`ans_portCheck_bad`), and an undecodable lane is not
dispatched at all (`exec_queueDispatch_bad`). -/
theorem illegalLanesRaiseTheirFault : Obligations.IllegalLanesRaiseTheirFault := by
  refine ⟨fun s i => exec_seq_portBad, fun s i k => exec_queue_portBad, fun s core e hr hen ht hf hk hb hd he => ?_⟩
  rw [exec_queueDispatch_bad hr hen ht hf hk hb hd he]
  cases e <;> rfl

end Sys2Proof.Machine
end

section

namespace Sys2Proof.Machine

/-- Settles O56: each word is a concrete lane, so the decoder's answer is computed. -/
theorem wordsOfTheSpecDecode : Obligations.WordsOfTheSpecDecode :=
  ⟨rfl, rfl, rfl, rfl, rfl, rfl, rfl, rfl, rfl, rfl, rfl, rfl,
    rfl, rfl, rfl, rfl⟩

end Sys2Proof.Machine
end

section

namespace Sys2Proof.Machine

/-! ## The lanes of a vector register -/

@[simp] theorem rdV_get (s : State) (a : VReg) (j : Fin 64) : (s.cur.regs.rdV a).get j = laneIn s a j := rfl

@[simp] theorem rdV_getElem (s : State) (a : VReg) {i : Nat} (h : i < 64) : (s.cur.regs.rdV a)[i] = laneIn s a ⟨i, h⟩ := rfl

theorem wrV_eq_setV (d : VReg) (f : Fin 64 → Lane) (g : Regs) : g.wrV d (Vector.ofFn f) = setV d f g := rfl

/-- A lane after a register is written: the written one where the register is the same. -/
theorem rdV_setV_get (d a : VReg) (f : Fin 64 → Lane) (g : Regs) (j : Fin 64) :
    ((setV d f g).rdV a).get j = if a = d then f j else (g.rdV a).get j := by
  have hreg : d.toNat = a.toNat ↔ a = d := BitVec.toNat_inj.trans eq_comm
  have hset : (setV d f g).rdV a = if d.toNat = a.toNat then Vector.ofFn f else g.rdV a := Vector.getElem_set d.isLt a.isLt
  simp only [hset, hreg]
  split
  · exact Vector.get_ofFn f j
  · rfl

theorem setV_setV (d : VReg) (f f' : Fin 64 → Lane) (g : Regs) : setV d f' (setV d f g) = setV d f' g := by
  simp only [setV, Vector.set_set]

/-- A register written with the lanes that it holds stays as it is. -/
theorem setV_self (s : State) (d : VReg) : setV d (laneIn s d) s.cur.regs = s.cur.regs := by
  have h : Vector.ofFn (laneIn s d) = s.cur.regs.v[d.toNat]'d.isLt := Vector.ofFn_getElem
  simp only [setV, h, Vector.set_getElem_self]

/-- A lane of a register set to a value. -/
theorem wrV_set (s : State) (d : VReg) (j : Fin 64) (x : Lane) :
    s.cur.regs.wrV d ((s.cur.regs.rdV d).set j x) = setV d (Function.update (laneIn s d) j x) s.cur.regs := by
  have h : (s.cur.regs.rdV d).set j x = Vector.ofFn (Function.update (laneIn s d) j x) := Vector.ext fun i hi => by
    rw [Vector.getElem_set, Vector.getElem_ofFn, Function.update_apply]
    simp only [Fin.ext_iff, eq_comm (a := i)]
    rfl
  rw [h, wrV_eq_setV]

theorem rdV_toList_getD (s : State) (a : VReg) (i : Nat) :
    (s.cur.regs.rdV a).toList.getD i 0 = if h : i < 64 then laneIn s a ⟨i, h⟩ else 0 := by
  split
  · next h =>
    rw [List.getD_eq_getElem _ _ (by simpa using h), Vector.getElem_toList, rdV_getElem s a h]
  · next h => exact List.getD_eq_default _ _ (by simpa using h)

/-- An entry that writes one vector register. -/
theorem vecOp_setV {s : State} {e : Entry} {i : Instr} {n : Nat} {d : VReg} {f : Regs → Fin 64 → Lane} {v : Fin 64 → Lane} (h : s.Ready e)
    (hv : f s.cur.regs = v) : vecOp i n (modRegs fun g => g.wrV d (Vector.ofFn (f g))) s = .next ((s.withRegs (setV d v)).left e) := by
  subst hv
  have hans : ans (modRegs fun g => g.wrV d (Vector.ofFn (f g))) s = (.ok ⟨⟩, s.withRegs (setV d (f s.cur.regs))) := by
    simp only [ans_modRegs, wrV_eq_setV, State.withRegs]
  exact queued_ok h hans h.2.1

/-! ## What has been done below a lane -/

/-- The values of v below lane n, those of w from it on. -/
def upTo {α : Type} (n : Nat) (v w : Fin 64 → α) (j : Fin 64) : α := if j.val < n then v j else w j

theorem upTo_zero {α : Type} (v w : Fin 64 → α) : upTo 0 v w = w := by
  funext j
  simp [upTo]

theorem upTo_all {α : Type} (v w : Fin 64 → α) : upTo 64 v w = v := by
  funext j
  simp [upTo]

theorem upTo_self {α : Type} (j : Fin 64) (v w : Fin 64 → α) : upTo j v w j = w j := by simp [upTo]

theorem upTo_succ {α : Type} (j : Fin 64) (v w : Fin 64 → α) : upTo (j + 1) v w = Function.update (upTo j v w) j (v j) := by
  funext i
  by_cases h : i = j
  · simp [upTo, h]
  · have hne : i.val ≠ j.val := Fin.val_ne_of_ne h
    have hlt : i.val < j.val + 1 ↔ i.val < j.val := by omega
    simp [upTo, Function.update_of_ne h, hlt]

theorem upTo_succ_of_eq {α : Type} {j : Fin 64} {v w : Fin 64 → α} (h : v j = w j) : upTo (j + 1) v w = upTo j v w := by
  rw [upTo_succ, h, ← upTo_self j v w, Function.update_eq_self]

/-- The flags of one lane more. -/
theorem flagsOf_upTo_succ {fl : Fl} {f : Fin 64 → Fl} {j : Fin 64} (h : FlagsOf fl (upTo j f 0)) :
    FlagsOf (fl ||| f j) (upTo (j + 1) f 0) := by
  intro k
  rw [BitVec.getLsbD_or, Bool.or_eq_true, h k, upTo_succ]
  constructor
  · rintro (⟨i, hi⟩ | hj)
    · have hne : i ≠ j := by
        rintro rfl
        simp [upTo_self] at hi
      exact ⟨i, by rwa [Function.update_of_ne hne]⟩
    · exact ⟨j, by rwa [Function.update_self]⟩
  · rintro ⟨i, hi⟩
    by_cases hij : i = j
    · subst hij
      exact .inr (by rwa [Function.update_self] at hi)
    · exact .inl ⟨i, by rwa [Function.update_of_ne hij] at hi⟩

theorem flagsOf_none (f : Fin 64 → Fl) : FlagsOf 0 (upTo 0 f 0) := by
  intro k
  simp [upTo_zero]

/-- The number of active lanes below lane n. -/
def activeBelow (act : Fin 64 → Bool) (n : Nat) : Nat := (Finset.univ.filter fun i : Fin 64 => i.val < n ∧ act i = true).card

theorem activeBelow_zero (act : Fin 64 → Bool) : activeBelow act 0 = 0 := by simp [activeBelow]

theorem activeBelow_all (act : Fin 64 → Bool) : activeBelow act 64 = (Finset.univ.filter fun i : Fin 64 => act i = true).card := by
  simp [activeBelow]

theorem activeBelow_succ (act : Fin 64 → Bool) (j : Fin 64) :
    activeBelow act (j + 1) = activeBelow act j + if act j = true then 1 else 0 := by
  have split (i : Fin 64) : (if i.val < j.val + 1 ∧ act i = true then 1 else 0) =
      (if i.val < j.val ∧ act i = true then 1 else 0) + if i = j then (if act j = true then 1 else 0) else 0 := by
    by_cases h : i = j
    · simp [h]
    · have hne : i.val ≠ j.val := Fin.val_ne_of_ne h
      have hlt : i.val < j.val + 1 ↔ i.val < j.val := by omega
      simp [h, hlt]
  simp only [activeBelow, Finset.card_filter, split, Finset.sum_add_distrib, Finset.sum_ite_eq', Finset.mem_univ, if_true]

/-! ## The generator under a rounding mode (R139) -/

/-- The generator after n encodings under a mode: it steps under rs alone. -/
def generatorAfter (rm : Rm) (x : Word) (n : Nat) : Word := if rm = .rs then genStep^[n] x else x

/-- The generator's number for the n-th encoding under a mode, counted from 0. -/
def generatorNumber (rm : Rm) (x : Word) (n : Nat) : Nat := if rm = .rs then genNumber x n else 0

theorem toNat_top16 (y : Word) : (y.extractLsb' 48 16).toNat = y.toNat / 2 ^ 48 := by
  have hlt := y.isLt
  rw [BitVec.extractLsb'_toNat, Nat.shiftRight_eq_div_pow]
  exact Nat.mod_eq_of_lt (by omega)

theorem rngStep_eq (x : Word) : rngStep x = (genStep x, genNumber x 0) := by
  have h : genNumber x 0 = (genStep x).toNat / 2 ^ 48 := by simp only [genNumber, zero_add, Function.iterate_one]
  rw [h, ← toNat_top16]
  simp only [rngStep, genStep]

theorem ans_rngFor (rm : Rm) (s : State) : ans (rngFor rm) s =
    (.ok (generatorNumber rm s.cur.sys.rng 0), s.withSys fun y => { y with rng := generatorAfter rm y.rng 1 }) := by
  unfold rngFor
  by_cases h : rm = .rs
  · simp only [if_pos h, rngTake, ans_bind, ans_get, rngStep_eq, ans_modSys, ans_pure, generatorNumber, generatorAfter,
      Function.iterate_one, State.withSys]
  · simp only [if_neg h, ans_pure, generatorNumber, generatorAfter, State.withSys]

theorem generatorNumber_after (rm : Rm) (x : Word) (n : Nat) : generatorNumber rm (generatorAfter rm x n) 0 = generatorNumber rm x n := by
  by_cases h : rm = .rs
  · simp only [generatorNumber, generatorAfter, genNumber, if_pos h, Function.iterate_succ_apply', Function.iterate_zero_apply]
  · simp only [generatorNumber, if_neg h]

theorem generatorAfter_after (rm : Rm) (x : Word) (n : Nat) : generatorAfter rm (generatorAfter rm x n) 1 = generatorAfter rm x (n + 1) := by
  by_cases h : rm = .rs
  · simp only [generatorAfter, if_pos h, Function.iterate_succ_apply', Function.iterate_zero_apply]
  · simp only [generatorAfter, if_neg h]

end Sys2Proof.Machine
end

section

namespace Sys2Proof.Machine

/-! ## cvt (R205) -/

theorem ofInt_signedOf_eq_signExtend {w : Nat} (hw : 0 < w) (x : Nat) :
    BitVec.ofInt 32 (signedOf w x) = (BitVec.ofNat w x).signExtend 32 := by
  have h : signedOf w x = (BitVec.ofNat w x).toInt := by
    have hp : 2 ^ w = 2 * 2 ^ (w - 1) := by rw [← pow_succ', Nat.sub_add_cancel hw]
    simp only [signedOf, BitVec.toInt_eq_toNat_cond, BitVec.toNat_ofNat]
    norm_cast
    generalize x % 2 ^ w = y
    split <;> split <;> omega
  rw [h]
  rfl

theorem laneBits_eq_converted (f : Fmt) (x : Nat) : laneBits f x = converted f x := by
  cases f
  case int4 | int8 | int16 => exact ofInt_signedOf_eq_signExtend (by decide) x
  case int32 =>
    refine (ofInt_signedOf_eq_signExtend (w := 32) (by decide) x).trans ?_
    simp [converted]
  all_goals rfl

/-- What a conversion has made of the task: the lanes of d, the generator, and the flags raised. -/
def State.converting (s : State) (d : VReg) (v : Fin 64 → Lane) (x : Word) (fl : Fl) : State :=
  raised fl ((s.withRegs (setV d v)).withSys fun y => { y with rng := x })

theorem converting_laneDone (s : State) (d : VReg) (v : Fin 64 → Lane) (rm : Rm) (x : Word) (fl fl' : Fl) (j : Fin 64) (y : Lane) :
    (raised fl' ((s.converting d v x fl).withSys fun y => { y with rng := generatorAfter rm y.rng 1 })).withRegs
      (fun g => g.wrV d ((g.rdV d).set j y)) = s.converting d (Function.update v j y) (generatorAfter rm x 1) (fl ||| fl') := by
  have hlane : laneIn (s.converting d v x fl) d = v := funext fun i => (rdV_setV_get d d v s.cur.regs i).trans (if_pos rfl)
  have hset := wrV_set (s.converting d v x fl) d j y
  rw [hlane] at hset
  simp only [State.converting, raised, State.withRegs, State.withSys, setV_setV, BitVec.or_assoc] at hset ⊢
  rw [hset]

section
variable (s : State) (d a : VReg) (src dst : Fmt) (rm : Rm) (m : Option MReg)

/-- Lane j takes part in the entry. -/
def cvtActive (j : Fin 64) : Bool := activeLane s.cur.regs m j

/-- Lane j encoded with the generator's number that is its own, and its flags. -/
def cvtEnc (j : Fin 64) : Nat × Fl :=
  dst.enc rm (generatorNumber rm s.cur.sys.rng (activeBelow (cvtActive s m) j)) (src.dec ((laneIn s a j).toNat % 2 ^ src.bits))

/-- Lane j of the result. -/
def cvtLane (j : Fin 64) : Lane := if cvtActive s m j then converted dst (cvtEnc s a src dst rm m j).1 else laneIn s d j

/-- The flags of lane j, none where it is inactive. -/
def cvtFlags (j : Fin 64) : Fl := if cvtActive s m j then (cvtEnc s a src dst rm m j).2 else 0

/-- The machine once the lanes below lane n are converted, fl the flags so far. -/
def State.cvtBelow (n : Nat) (fl : Fl) : State :=
  s.converting d (upTo n (cvtLane s d a src dst rm m) (laneIn s d)) (generatorAfter rm s.cur.sys.rng (activeBelow (cvtActive s m) n)) fl

theorem cvtBelow_zero : s.cvtBelow d a src dst rm m 0 0 = s := by
  unfold State.cvtBelow
  rw [upTo_zero, activeBelow_zero]
  have hx : generatorAfter rm s.cur.sys.rng 0 = s.cur.sys.rng := by simp [generatorAfter]
  have hf : s.cur.sys.fpst ||| 0 = s.cur.sys.fpst := BitVec.or_zero
  simp only [State.converting, raised, State.withRegs, State.withSys, setV_self, hx, hf]

/-- The lane that is next still holds its source, though the lanes below it are written. -/
theorem laneIn_cvtBelow (j : Fin 64) (fl : Fl) : laneIn (s.cvtBelow d a src dst rm m j fl) a j = laneIn s a j := by
  refine (rdV_setV_get d a _ s.cur.regs j).trans ?_
  split
  · next h => rw [upTo_self, h]
  · rfl

/-- An inactive lane changes nothing. -/
theorem cvtBelow_succ_inactive {j : Fin 64} (h : cvtActive s m j = false) (fl : Fl) :
    s.cvtBelow d a src dst rm m (j + 1) (fl ||| cvtFlags s a src dst rm m j) = s.cvtBelow d a src dst rm m j fl := by
  have hv : cvtLane s d a src dst rm m j = laneIn s d j := by simp [cvtLane, h]
  have hf : fl ||| cvtFlags s a src dst rm m j = fl := by simp [cvtFlags, h]
  have hn : activeBelow (cvtActive s m) (j + 1) = activeBelow (cvtActive s m) j := by simp [activeBelow_succ, h]
  rw [State.cvtBelow, upTo_succ_of_eq hv, hf, hn, State.cvtBelow]

/-- An active lane is a step of the generator, its flags and its result. -/
theorem cvtBelow_succ_active {j : Fin 64} (h : cvtActive s m j = true) (fl : Fl) :
    s.cvtBelow d a src dst rm m (j + 1) (fl ||| cvtFlags s a src dst rm m j) =
      (raised (cvtEnc s a src dst rm m j).2 ((s.cvtBelow d a src dst rm m j fl).withSys
        fun y => { y with rng := generatorAfter rm y.rng 1 })).withRegs
          fun g => g.wrV d ((g.rdV d).set j (laneBits dst (cvtEnc s a src dst rm m j).1)) := by
  have hv : upTo (j + 1) (cvtLane s d a src dst rm m) (laneIn s d) =
      Function.update (upTo j (cvtLane s d a src dst rm m) (laneIn s d)) j (laneBits dst (cvtEnc s a src dst rm m j).1) := by
    rw [upTo_succ, laneBits_eq_converted]
    simp [cvtLane, h]
  have hf : cvtFlags s a src dst rm m j = (cvtEnc s a src dst rm m j).2 := by simp [cvtFlags, h]
  have hn : activeBelow (cvtActive s m) (j + 1) = activeBelow (cvtActive s m) j + 1 := by simp [activeBelow_succ, h]
  rw [State.cvtBelow, hv, hf, hn, ← generatorAfter_after]
  exact (converting_laneDone ..).symm

/-- One lane of the entry. -/
theorem ans_cvtLanes_cons (j : Fin 64) (rest : List (Fin 64)) (fl : Fl) :
    ans (cvtLanes d a src dst rm m (j :: rest)) (s.cvtBelow d a src dst rm m j fl) =
      ans (cvtLanes d a src dst rm m rest) (s.cvtBelow d a src dst rm m (j + 1) (fl ||| cvtFlags s a src dst rm m j)) := by
  have hact : activeLane (s.cvtBelow d a src dst rm m j fl).cur.regs m j = cvtActive s m j := rfl
  rw [cvtLanes, ans_bind_ok (ans_theRegs _), rdV_get, laneIn_cvtBelow, hact]
  cases h : cvtActive s m j with
  | false =>
    rw [cvtBelow_succ_inactive s d a src dst rm m h]
    rfl
  | true =>
    have hr : generatorNumber rm (s.cvtBelow d a src dst rm m j fl).cur.sys.rng 0 =
        generatorNumber rm s.cur.sys.rng (activeBelow (cvtActive s m) j) := generatorNumber_after ..
    rw [cvtBelow_succ_active s d a src dst rm m h, if_pos rfl, ans_bind_ok (ans_rngFor ..), hr]
    rfl

/-- All lanes from lane n on, in ascending order. -/
theorem ans_cvtLanes_drop {n : Nat} (hn : n ≤ 64) : ∀ {fl : Fl}, FlagsOf fl (upTo n (cvtFlags s a src dst rm m) 0) →
    ∃ fl', FlagsOf fl' (cvtFlags s a src dst rm m) ∧
      ans (cvtLanes d a src dst rm m ((List.finRange 64).drop n)) (s.cvtBelow d a src dst rm m n fl) =
        (.ok ⟨⟩, s.cvtBelow d a src dst rm m 64 fl') := by
  induction hn using Nat.decreasingInduction with
  | self =>
    intro fl h
    rw [upTo_all] at h
    exact ⟨fl, h, rfl⟩
  | of_succ n hlt ih =>
    intro fl h
    obtain ⟨fl', hfl, hans⟩ := ih (flagsOf_upTo_succ (j := ⟨n, hlt⟩) h)
    refine ⟨fl', hfl, ?_⟩
    rw [List.drop_eq_getElem_cons (by simpa using hlt), List.getElem_finRange]
    exact (ans_cvtLanes_cons s d a src dst rm m ⟨n, hlt⟩ _ fl).trans hans

/-- The entry performs all lanes; the flags of its active lanes are raised. -/
theorem exec_cvt {e : Entry} {t : Tok} (h : s.Ready e) :
    ∃ fl, FlagsOf fl (cvtFlags s a src dst rm m) ∧
      exec (.cvt d a src dst rm m t) s = .next ((s.cvtBelow d a src dst rm m 64 fl).left e) := by
  obtain ⟨fl, hfl, hans⟩ := ans_cvtLanes_drop s d a src dst rm m (Nat.zero_le 64) (flagsOf_none _)
  rw [cvtBelow_zero] at hans
  exact ⟨fl, hfl, queued_ok h hans h.2.1⟩

end

end Sys2Proof.Machine
end

section

namespace Sys2Proof.Machine

/-! ## pack and unpack (R206) -/

/-- Fields of w bits one behind the other, field 0 lowest. -/
def sumFields (w : Nat) (f : Nat → Nat) (n : Nat) : Nat := (List.range n).foldl (fun x i => x + f i * 2 ^ (w * i)) 0

theorem sumFields_succ (w : Nat) (f : Nat → Nat) (n : Nat) : sumFields w f (n + 1) = 2 ^ (w * n) * f n + sumFields w f n := by
  simp [sumFields, List.range_succ, Nat.add_comm, Nat.mul_comm]

theorem sumFields_lt {w : Nat} {f : Nat → Nat} (hf : ∀ i, f i < 2 ^ w) (n : Nat) : sumFields w f n < 2 ^ (w * n) := by
  induction n with
  | zero => simp [sumFields]
  | succ n ih =>
    calc sumFields w f (n + 1) = 2 ^ (w * n) * f n + sumFields w f n := sumFields_succ ..
      _ < 2 ^ (w * n) * (f n + 1) := by rw [Nat.mul_succ]; omega
      _ ≤ 2 ^ (w * n) * 2 ^ w := Nat.mul_le_mul_left _ (hf n)
      _ = 2 ^ (w * (n + 1)) := by rw [← pow_add, Nat.mul_succ]

/-- Bit k lies in field k / w. -/
theorem testBit_sumFields {w : Nat} (hw : 0 < w) {f : Nat → Nat} (hf : ∀ i, f i < 2 ^ w) (n k : Nat) :
    (sumFields w f n).testBit k = (decide (k < w * n) && (f (k / w)).testBit (k % w)) := by
  induction n with
  | zero => simp [sumFields]
  | succ n ih =>
    have hnext : w * (n + 1) = w * n + w := Nat.mul_succ ..
    rw [sumFields_succ, Nat.testBit_two_pow_mul_add _ (sumFields_lt hf n), ih]
    by_cases hbelow : k < w * n
    · simp [hbelow, hnext, show k < w * n + w by omega]
    · by_cases hin : k < w * n + w
      · obtain ⟨i, rfl⟩ : ∃ i, k = w * n + i := ⟨k - w * n, by omega⟩
        have hi : i < w := by omega
        have hdiv : (w * n + i) / w = n := by rw [Nat.mul_add_div hw, Nat.div_eq_of_lt hi, Nat.add_zero]
        simp [hnext, hi, hdiv, Nat.mod_eq_of_lt hi]
      · have hbig : f n < 2 ^ (k - w * n) := (hf n).trans_le (Nat.pow_le_pow_right (by omega) (by omega))
        simp [hbelow, hnext, hin, Nat.testBit_lt_two_pow hbig]

theorem packW_bits_eq_widthOf (w : PackW) : PackW.bits w = widthOf w := by cases w <;> rfl

/-- Element i of the stream of pack: the low bits of a lane of a, then of b. -/
def packElem (s : State) (a b : VReg) (w : PackW) (i : Nat) : Nat :=
  if h : i < 64 then (laneIn s a ⟨i, h⟩).toNat % 2 ^ PackW.bits w
  else if h : i - 64 < 64 then (laneIn s b ⟨i - 64, h⟩).toNat % 2 ^ PackW.bits w else 0

/-- Lane j of the packed register. -/
def packLane (s : State) (a b : VReg) (w : PackW) (j : Fin 64) : Lane :=
  if j.val * (32 / PackW.bits w) < 128 then
    BitVec.ofNat 32 (sumFields (PackW.bits w) (fun i => packElem s a b w (j.val * (32 / PackW.bits w) + i)) (32 / PackW.bits w))
  else 0

/-- Lane j of an unpacked part: element 64p + j of the register. -/
def unpackLane (s : State) (a : VReg) (p : BitVec 6) (w : PackW) (j : Fin 64) : Lane :=
  BitVec.ofNat 32 (((s.cur.regs.rdV a).toList.getD ((64 * p.toNat + j) / (32 / PackW.bits w)) 0).toNat /
    2 ^ (PackW.bits w * ((64 * p.toNat + j) % (32 / PackW.bits w))) % 2 ^ PackW.bits w)

theorem exec_pack {s : State} {e : Entry} (d a b : VReg) (w : PackW) (t : Tok) (h : s.Ready e) :
    exec (.pack d a b w t) s = .next ((s.withRegs (setV d (packLane s a b w))).left e) := by
  show execPack d a b w t s = _
  unfold execPack
  refine vecOp_setV h (funext fun j => ?_)
  simp only [packLane, sumFields, packElem, rdV_getElem]

theorem exec_unpack {s : State} {e : Entry} (d a : VReg) (p : BitVec 6) (w : PackW) (t : Tok) (h : s.Ready e) :
    exec (.unpack d a p w t) s = .next ((s.withRegs (setV d (unpackLane s a p w))).left e) := by
  show execUnpack d a p w t s = _
  unfold execUnpack
  exact vecOp_setV h rfl

/-- A lane holds a whole number of elements. -/
theorem widthOf_mul_perLane (w : PackW) : 0 < widthOf w ∧ widthOf w * (32 / widthOf w) = 32 := by cases w <;> decide

theorem packElem_lt (s : State) (a b : VReg) (w : PackW) (i : Nat) : packElem s a b w i < 2 ^ widthOf w := by
  unfold packElem
  rw [packW_bits_eq_widthOf]
  split
  · exact Nat.mod_lt _ (Nat.two_pow_pos _)
  · split
    · exact Nat.mod_lt _ (Nat.two_pow_pos _)
    · exact Nat.two_pow_pos _

theorem packElem_testBit (s : State) (a b : VReg) (w : PackW) (i : Nat) {k : Nat} (hk : k < widthOf w) :
    (packElem s a b w i).testBit k = if h : i < 64 then (laneIn s a ⟨i, h⟩).getLsbD k
      else if h : i - 64 < 64 then (laneIn s b ⟨i - 64, h⟩).getLsbD k else false := by
  unfold packElem
  rw [packW_bits_eq_widthOf]
  split
  · rw [Nat.testBit_mod_two_pow, decide_eq_true hk, Bool.true_and, BitVec.testBit_toNat]
  · split
    · rw [Nat.testBit_mod_two_pow, decide_eq_true hk, Bool.true_and, BitVec.testBit_toNat]
    · exact Nat.zero_testBit k

theorem packLane_getLsbD (s : State) (a b : VReg) (w : PackW) (j : Fin 64) (k : Fin 32) :
    (packLane s a b w j).getLsbD k = (packElem s a b w ((32 * j.val + k.val) / widthOf w)).testBit ((32 * j.val + k.val) % widthOf w) := by
  obtain ⟨hw, hper⟩ := widthOf_mul_perLane w
  unfold packLane
  rw [packW_bits_eq_widthOf]
  generalize 32 / widthOf w = per at hper ⊢
  have hk : k.val < widthOf w * per := by omega
  have hplace : 32 * j.val + k.val = widthOf w * (j.val * per) + k.val := by rw [Nat.mul_left_comm, hper, Nat.mul_comm]
  rw [hplace, Nat.mul_add_div hw, Nat.mul_add_mod]
  split
  · rw [BitVec.getLsbD_ofNat, testBit_sumFields hw fun i => packElem_lt s a b w (j.val * per + i)]
    simp [hk]
  · have hpast (i : Nat) : packElem s a b w (j.val * per + i) = 0 := by
      unfold packElem
      rw [dif_neg (by omega), dif_neg (by omega)]
    rw [hpast]
    simp

/-- Bit k of an element lies at the place that the element's number gives: in lane i / per, at its number among that lane's elements. -/
theorem element_place {w per : Nat} (hw : 0 < w) (hper : w * per = 32) (i : Nat) {k : Nat} (hk : k < w) :
    (w * i + k) / 32 = i / per ∧ (w * i + k) % 32 = w * (i % per) + k := by
  have hdiv : (w * i + k) / w = i := by rw [Nat.mul_add_div hw, Nat.div_eq_of_lt hk, Nat.add_zero]
  have hmod : (w * i + k) % w = k := by rw [Nat.mul_add_mod, Nat.mod_eq_of_lt hk]
  rw [← hper, ← Nat.div_div_eq_div_mul, Nat.mod_mul, hdiv, hmod]
  exact ⟨rfl, Nat.add_comm ..⟩

theorem unpackLane_getLsbD (s : State) (a : VReg) (p : BitVec 6) (w : PackW) (j : Fin 64) (k : Fin 32) :
    (unpackLane s a p w j).getLsbD k = true ↔ k.val < widthOf w ∧
      ∃ h : (widthOf w * (64 * p.toNat + j) + k) / 32 < 64,
        (laneIn s a ⟨(widthOf w * (64 * p.toNat + j) + k) / 32, h⟩).getLsbD ((widthOf w * (64 * p.toNat + j) + k) % 32) = true := by
  obtain ⟨hw, hper⟩ := widthOf_mul_perLane w
  unfold unpackLane
  rw [packW_bits_eq_widthOf]
  generalize 32 / widthOf w = per at hper ⊢
  generalize 64 * p.toNat + j.val = i
  rw [BitVec.getLsbD_ofNat, Nat.testBit_mod_two_pow, Nat.testBit_div_two_pow, rdV_toList_getD]
  simp only [k.isLt, decide_true, Bool.true_and, Bool.and_eq_true, decide_eq_true_eq]
  refine and_congr_right fun hk => ?_
  obtain ⟨hdiv, hmod⟩ := element_place hw hper i hk
  simp only [hdiv, hmod, Nat.add_comm k.val]
  by_cases hlt : i / per < 64
  · simp only [hlt, dif_pos, exists_true_left, BitVec.testBit_toNat]
  · simp [hlt]

/-- Settles O19: a conversion lane by lane (`ans_cvtLanes_cons`), and each bit of a packed or unpacked lane by its place in the register. -/
theorem lanesConvertAndPack : Obligations.LanesConvertAndPack := by
  refine ⟨fun s e d a src dst rm m t h _ he => ?_, fun s e d a b w t h _ he => ?_, fun s e d a p w t h _ he _ => ?_⟩
  · obtain ⟨fl, hfl, hexec⟩ := exec_cvt s d a src dst rm m (t := t) h
    rw [State.cvtBelow, upTo_all, activeBelow_all] at hexec
    rw [he]
    exact ⟨fl, hfl, hexec⟩
  · rw [he]
    refine ⟨_, exec_pack d a b w t h, fun j k => ?_⟩
    have hw := (widthOf_mul_perLane w).1
    rw [packLane_getLsbD, packElem_testBit _ _ _ _ _ (Nat.mod_lt _ hw)]
  · rw [he]
    exact ⟨_, exec_unpack d a p w t h, unpackLane_getLsbD s a p w⟩

end Sys2Proof.Machine
end

section

namespace Sys2Proof.Machine

/-! ## References on thunks (R152) -/

/-- The references on the thunk of an index that go when names are dropped and thunks are freed: one for each name dropped, and one for
each time that a freed thunk names it. -/
def lostRefs (ts : List Thunk) (names freed : List (BitVec 8)) (i : BitVec 8) : Nat :=
  names.count i + ((ts.filter fun y => freed.contains y.idx).map fun y => y.names.count i).sum

/-- A thunk table after some names are dropped and the thunks freed that this leaves complete and unreferenced. -/
structure NamesDropped (ts : List Thunk) (names freed : List (BitVec 8)) (ts' : List Thunk) : Prop where
  left : ts' = (ts.filter fun x => !freed.contains x.idx).map fun x => { x with refs := x.refs - lostRefs ts names freed x.idx }
  freed_iff : ∀ x ∈ ts, x.idx ∈ freed ↔ 0 < lostRefs ts names freed x.idx ∧ x.complete = true ∧ x.refs ≤ lostRefs ts names freed x.idx
  known : freed ⊆ ts.map (·.idx)

theorem count_names (x : Thunk) (i : BitVec 8) :
    x.names.count i = ((x.srcs ++ x.acc.toList).filter fun z => z.name == some i).length := by
  unfold Thunk.names
  induction x.srcs ++ x.acc.toList with
  | nil => rfl
  | cons z l ih =>
    cases hz : z.name with
    | none => simp [hz, ih]
    | some j => by_cases hj : j = i <;> simp [hz, hj, ih]

theorem count_single (u i : BitVec 8) : [u].count i = if i = u then 1 else 0 := by
  simp only [List.count_singleton, beq_iff_eq, eq_comm (a := u)]

theorem lostRefs_single (ts : List Thunk) (u : BitVec 8) (freed : List (BitVec 8)) (x : Thunk) :
    lostRefs ts [u] freed x.idx = dropsOf ts u freed x := by
  simp only [lostRefs, dropsOf, count_names, count_single]

theorem NamesDropped.dropped {ts ts' : List Thunk} {u : BitVec 8} {freed : List (BitVec 8)} (h : NamesDropped ts [u] freed ts') :
    Dropped ts u ts' := by
  refine ⟨freed, ?_, fun x hx => ?_⟩
  · simpa only [lostRefs_single] using h.left
  · simpa only [lostRefs_single] using h.freed_iff x hx

theorem NamesDropped.nil (ts : List Thunk) : NamesDropped ts [] [] ts :=
  ⟨by simp [lostRefs], fun _ _ => by simp [lostRefs], List.nil_subset _⟩

theorem NamesDropped.idx_sublist {ts ts' : List Thunk} {names freed : List (BitVec 8)} (h : NamesDropped ts names freed ts') :
    (ts'.map (·.idx)).Sublist (ts.map (·.idx)) := by
  rw [h.left, List.map_map]
  exact List.filter_sublist.map _

/-- The thunks freed in a second round are none of those freed before. -/
theorem NamesDropped.fresh {ts ts' : List Thunk} {names freed more : List (BitVec 8)} (h : NamesDropped ts names freed ts')
    (hk : more ⊆ ts'.map (·.idx)) {i : BitVec 8} (hi : i ∈ more) : i ∉ freed := by
  obtain ⟨y, hy, rfl⟩ := List.mem_map.1 (hk hi)
  rw [h.left] at hy
  obtain ⟨x, hx, rfl⟩ := List.mem_map.1 hy
  simpa using (List.mem_filter.1 hx).2

/-- What the freed thunks of two rounds name, where the second frees none of the first. -/
theorem sum_names_append (i : BitVec 8) (freed more : List (BitVec 8)) (hd : ∀ j ∈ more, j ∉ freed) (g : Thunk → Nat) : ∀ ts : List Thunk,
    ((ts.filter fun y => (freed ++ more).contains y.idx).map fun y => y.names.count i).sum =
      ((ts.filter fun y => freed.contains y.idx).map fun y => y.names.count i).sum +
      (((((ts.filter fun x => !freed.contains x.idx).map fun x => { x with refs := g x }).filter fun y => more.contains y.idx).map
        fun y => y.names.count i)).sum
  | [] => rfl
  | y :: ts => by
    have ih := sum_names_append i freed more hd g ts
    by_cases hf : y.idx ∈ freed
    · simp only [List.contains_eq_mem, List.mem_append, hf, true_or, decide_true, List.filter_cons_of_pos, List.map_cons, List.sum_cons,
        Bool.not_true, Bool.false_eq_true, not_false_eq_true, List.filter_cons_of_neg] at ih ⊢
      omega
    · by_cases hm : y.idx ∈ more
      · have hn : ({ y with refs := g y } : Thunk).names = y.names := rfl
        simp only [List.contains_eq_mem, List.mem_append, hf, hm, or_true, decide_true, decide_false, List.filter_cons_of_pos,
          List.map_cons, List.sum_cons, Bool.not_false, Bool.false_eq_true, not_false_eq_true, List.filter_cons_of_neg, hn] at ih ⊢
        omega
      · simp only [List.contains_eq_mem, List.mem_append, hf, hm, or_self, decide_false, Bool.not_false, Bool.false_eq_true,
          not_false_eq_true, List.filter_cons_of_neg, List.filter_cons_of_pos, List.map_cons] at ih ⊢
        exact ih

theorem NamesDropped.lostRefs_append {ts ts' : List Thunk} {names names' freed more : List (BitVec 8)} (h : NamesDropped ts names freed ts')
    (hk : more ⊆ ts'.map (·.idx)) (i : BitVec 8) :
    lostRefs ts (names ++ names') (freed ++ more) i = lostRefs ts names freed i + lostRefs ts' names' more i := by
  unfold lostRefs
  rw [sum_names_append i freed more (fun j hj => h.fresh hk hj) (fun x => x.refs - lostRefs ts names freed x.idx) ts, List.count_append, ← h.left]
  omega

/-- Two rounds of drops are one. -/
theorem NamesDropped.trans {ts ts' ts'' : List Thunk} {names names' freed more : List (BitVec 8)} (h : NamesDropped ts names freed ts')
    (h' : NamesDropped ts' names' more ts'') : NamesDropped ts (names ++ names') (freed ++ more) ts'' := by
  have hlost := h.lostRefs_append (names' := names') h'.known
  refine ⟨?_, fun x hx => ?_, ?_⟩
  · rw [h'.left]
    conv_lhs => rw [h.left]
    rw [List.filter_map, List.map_map, List.filter_filter]
    refine congr (congrArg List.map (funext fun x => ?_)) (List.filter_congr fun x _ => ?_)
    · simp only [Function.comp, hlost, Nat.sub_sub, ← h.left]
    · simp [Bool.and_comm]
  · rw [hlost, List.mem_append]
    have hiff := h.freed_iff x hx
    by_cases hf : x.idx ∈ freed
    · have := hiff.1 hf
      exact ⟨fun _ => ⟨by omega, this.2.1, by omega⟩, fun _ => .inl hf⟩
    · have hx' : ({ x with refs := x.refs - lostRefs ts names freed x.idx } : Thunk) ∈ ts' := by
        rw [h.left]
        exact List.mem_map_of_mem (List.mem_filter.2 ⟨hx, by simpa using hf⟩)
      have hiff' := h'.freed_iff _ hx'
      simp only [hf, false_or, false_iff] at hiff hiff' ⊢
      rw [hiff']
      constructor
      · rintro ⟨h0, hc, hr⟩
        exact ⟨by omega, hc, by omega⟩
      · rintro ⟨h0, hc, hr⟩
        have : lostRefs ts names freed x.idx = 0 ∨ lostRefs ts names freed x.idx < x.refs := by
          by_contra hcon
          exact hiff ⟨by omega, hc, by omega⟩
        exact ⟨by omega, hc, by omega⟩
  · exact List.append_subset.2 ⟨h.known, List.Subset.trans h'.known h.idx_sublist.subset⟩

/-- Dropping names one after another, once the dropping of each is known. -/
theorem namesDropped_foldl {fuel : Nat} (hone : ∀ (ts : List Thunk) (u : BitVec 8), ts.length < fuel → (ts.map (·.idx)).Nodup →
      ∃ freed, NamesDropped ts [u] freed (release fuel ts u)) :
    ∀ (names : List (BitVec 8)) (ts : List Thunk), ts.length < fuel → (ts.map (·.idx)).Nodup →
      ∃ freed, NamesDropped ts names freed (names.foldl (release fuel) ts)
  | [], ts, _, _ => ⟨[], .nil ts⟩
  | u :: names, ts, hlen, hnd => by
    obtain ⟨freed, h⟩ := hone ts u hlen hnd
    have hsub := h.idx_sublist
    have hlen' : (release fuel ts u).length < fuel := by
      have := hsub.length_le
      simp only [List.length_map] at this
      omega
    obtain ⟨more, h'⟩ := namesDropped_foldl hone names _ hlen' (hnd.sublist hsub)
    exact ⟨freed ++ more, h.trans h'⟩

theorem idx_modThunk (ts : List Thunk) (u : BitVec 8) (f : Thunk → Thunk) (hf : ∀ x, (f x).idx = x.idx) :
    (modThunk ts u f).map (·.idx) = ts.map (·.idx) := by
  rw [modThunk, List.map_map]
  refine List.map_congr_left fun x _ => ?_
  simp only [Function.comp]
  split
  · exact hf x
  · rfl

theorem filter_modThunk (ts : List Thunk) (u : BitVec 8) (f : Thunk → Thunk) (hf : ∀ x, (f x).idx = x.idx) :
    (modThunk ts u f).filter (·.idx != u) = ts.filter (·.idx != u) := by
  induction ts with
  | nil => rfl
  | cons x ts ih =>
    simp only [modThunk, List.map_cons] at ih ⊢
    by_cases hx : x.idx = u
    · rw [if_pos hx, List.filter_cons_of_neg (by simp [hf, hx]), List.filter_cons_of_neg (by simp [hx]), ih]
    · rw [if_neg hx, List.filter_cons_of_pos (by simpa using hx), List.filter_cons_of_pos (by simpa using hx), ih]

theorem findThunk_some {ts : List Thunk} {u : BitVec 8} {t : Thunk} (h : findThunk ts u = some t) : t ∈ ts ∧ t.idx = u :=
  ⟨List.mem_of_find?_eq_some h, by simpa using List.find?_some h⟩

theorem findThunk_none {ts : List Thunk} {u : BitVec 8} (h : findThunk ts u = none) : ∀ x ∈ ts, x.idx ≠ u := by
  simpa [findThunk] using h

/-- The thunk that a drop finds is the old one with one reference less. -/
theorem mem_of_findThunk_modThunk {ts : List Thunk} {u : BitVec 8} {f : Thunk → Thunk} {t : Thunk}
    (h : findThunk (modThunk ts u f) u = some t) : ∃ x ∈ ts, x.idx = u ∧ t = f x := by
  obtain ⟨ht, hu⟩ := findThunk_some h
  obtain ⟨x, hx, rfl⟩ := List.mem_map.1 ht
  by_cases he : x.idx = u
  · exact ⟨x, hx, he, by rw [if_pos he]⟩
  · rw [if_neg he] at hu
    exact absurd hu he

theorem eq_of_idx {ts : List Thunk} (hnd : (ts.map (·.idx)).Nodup) {x y : Thunk} (hx : x ∈ ts) (hy : y ∈ ts) (h : x.idx = y.idx) : x = y :=
  List.inj_on_of_nodup_map hnd hx hy h

/-- A thunk that loses a reference and is not freed. -/
theorem namesDropped_kept {ts : List Thunk} {u : BitVec 8}
    (h : ∀ x ∈ ts, x.idx = u → ¬(x.complete = true ∧ x.refs - 1 = 0)) :
    NamesDropped ts [u] [] (modThunk ts u fun t => { t with refs := t.refs - 1 }) := by
  have hlost (i : BitVec 8) : lostRefs ts [u] [] i = if i = u then 1 else 0 := by simp [lostRefs, count_single]
  refine ⟨?_, fun x hx => ?_, List.nil_subset _⟩
  · simp only [hlost, modThunk, List.contains_nil, Bool.not_false, List.filter_true]
    refine List.map_congr_left fun x _ => ?_
    split <;> rfl
  · rw [hlost]
    have := h x hx
    split
    case isTrue he =>
      simp only [List.not_mem_nil, false_iff]
      rintro ⟨-, hc, hr⟩
      exact this he ⟨hc, by omega⟩
    case isFalse => simp

/-- A thunk that loses its last reference is freed, and its names are dropped in turn. -/
theorem namesDropped_freed {ts ts' : List Thunk} {t : Thunk} {more : List (BitVec 8)} (hnd : (ts.map (·.idx)).Nodup) (ht : t ∈ ts)
    (hc : t.complete = true) (hr : t.refs - 1 = 0) (h : NamesDropped (ts.filter (·.idx != t.idx)) t.names more ts') :
    NamesDropped ts [t.idx] (t.idx :: more) ts' := by
  have hsplit : ∀ i, ((ts.filter fun y => (t.idx :: more).contains y.idx).map fun y => y.names.count i).sum = t.names.count i +
      (((ts.filter (·.idx != t.idx)).filter fun y => more.contains y.idx).map fun y => y.names.count i).sum := by
    intro i
    obtain ⟨l, r, rfl⟩ := List.append_of_mem ht
    have hne : ∀ y ∈ l ++ r, y.idx ≠ t.idx := fun y hy he => by
      rw [List.map_append, List.map_cons, List.nodup_middle, List.nodup_cons] at hnd
      exact hnd.1 (he ▸ List.map_append ▸ List.mem_map_of_mem hy)
    have hside (q : List Thunk) (hq : ∀ y ∈ q, y.idx ≠ t.idx) :
        (q.filter fun y => (t.idx :: more).contains y.idx) = (q.filter (·.idx != t.idx)).filter fun y => more.contains y.idx := by
      rw [List.filter_filter]
      exact List.filter_congr fun y hy => by simp [hq y hy]
    rw [List.filter_append, List.filter_append, List.filter_append, List.filter_cons_of_pos (by simp), List.filter_cons_of_neg (by simp),
      hside l fun y hy => hne y (List.mem_append_left r hy), hside r fun y hy => hne y (List.mem_append_right l hy)]
    simp only [List.map_append, List.sum_append, List.map_cons, List.sum_cons]
    omega
  have hlost (i : BitVec 8) : lostRefs ts [t.idx] (t.idx :: more) i =
      (if i = t.idx then 1 else 0) + lostRefs (ts.filter (·.idx != t.idx)) t.names more i := by
    unfold lostRefs
    rw [hsplit, count_single]
  refine ⟨?_, fun x hx => ?_, ?_⟩
  · rw [h.left, List.filter_filter]
    have hf : (ts.filter fun x => !(t.idx :: more).contains x.idx) = ts.filter fun a => (!more.contains a.idx) && a.idx != t.idx :=
      List.filter_congr fun y _ => by simp [Bool.and_comm, bne, Bool.beq_eq_decide_eq]
    rw [hf]
    refine List.map_congr_left fun x hx => ?_
    have hne : x.idx ≠ t.idx := by simpa using (Bool.and_eq_true_iff.1 (List.mem_filter.1 hx).2).2
    rw [hlost, if_neg hne, Nat.zero_add]
  · rw [hlost]
    by_cases he : x.idx = t.idx
    · obtain rfl := eq_of_idx hnd hx ht he
      simp only [List.mem_cons, true_or, if_true, true_iff]
      exact ⟨by omega, hc, by omega⟩
    · rw [if_neg he, Nat.zero_add, List.mem_cons]
      simp only [he, false_or]
      exact h.freed_iff x (List.mem_filter.2 ⟨hx, by simpa using he⟩)
  · exact List.cons_subset.2 ⟨List.mem_map_of_mem ht, List.Subset.trans h.known (List.filter_sublist.map _).subset⟩

/-- A drop with fuel for every thunk of the table. -/
theorem namesDropped_release : ∀ (fuel : Nat) (ts : List Thunk) (u : BitVec 8), ts.length < fuel → (ts.map (·.idx)).Nodup →
    ∃ freed, NamesDropped ts [u] freed (release fuel ts u)
  | 0, _, _, hlen, _ => absurd hlen (Nat.not_lt_zero _)
  | fuel + 1, ts, u, hlen, hnd => by
    have hidx : ∀ x : Thunk, ({ x with refs := x.refs - 1 } : Thunk).idx = x.idx := fun _ => rfl
    rw [release]
    split
    next hnone =>
      refine ⟨[], namesDropped_kept fun x hx he => ?_⟩
      refine absurd he ?_
      have := findThunk_none hnone
      obtain ⟨y, hy, hyx⟩ : ∃ y ∈ modThunk ts u fun t => { t with refs := t.refs - 1 }, y.idx = x.idx :=
        List.mem_map.1 (by rw [idx_modThunk ts u _ hidx]; exact List.mem_map_of_mem hx)
      exact hyx ▸ this y hy
    next t hsome =>
      obtain ⟨x, hx, rfl, rfl⟩ := mem_of_findThunk_modThunk hsome
      split
      next hfree =>
        rw [filter_modThunk ts x.idx _ hidx]
        have hlt : (ts.filter (·.idx != x.idx)).length < ts.length := List.length_filter_lt_length_iff_exists.2 ⟨x, hx, by simp⟩
        obtain ⟨more, h⟩ := namesDropped_foldl (namesDropped_release fuel) x.names (ts.filter (·.idx != x.idx)) (by omega)
          (hnd.sublist (List.filter_sublist.map _))
        exact ⟨x.idx :: more, namesDropped_freed hnd hx hfree.1 hfree.2 h⟩
      next hkeep =>
        refine ⟨[], namesDropped_kept fun y hy he => ?_⟩
        obtain rfl := eq_of_idx hnd hy hx he
        exact hkeep

theorem dropped_release {ts : List Thunk} (u : BitVec 8) (hlen : ts.length ≤ 256) (hnd : (ts.map (·.idx)).Nodup) :
    Dropped ts u (release thunkFuel ts u) :=
  have ⟨_, h⟩ := namesDropped_release thunkFuel ts u (by unfold thunkFuel; omega) hnd
  h.dropped

end Sys2Proof.Machine

end

section

namespace Sys2Proof.Machine

/-! ## An entry of TIL performs (R19, R53) -/

theorem Entry.Fresh.landing {e : Entry} (h : e.Fresh) : e.landing = none := by
  have hu := h.1
  simp only [Entry.under, Entry.acted, Bool.or_eq_false_iff] at hu
  simpa using hu.2.1.1

theorem TilReady.act {s : State} {e : Entry} (h : TilReady s e) : s.act = some e := h.1.1
theorem TilReady.air {s : State} {e : Entry} (h : TilReady s e) : s.air = none := h.1.2.1

/-- No token FIFO belongs to TIL: its entries only leave their queue (R18). -/
theorem left_til {t : State} {e : Entry} (h : e.stream = .til) : t.left e = t.withTask fun k => k.setQueue .til (k.queue .til).tail := by
  have hw : waitFifos e.stream (Instr.tokens e.ins) = [] := by
    rw [h]
    simp [waitFifos, leftOf, rightOf, fifoOf]
  have hg : giveFifos e.stream (Instr.tokens e.ins) = [] := by
    rw [h]
    simp [giveFifos, fifoOf]
  unfold State.left
  rw [hw, hg, h]
  rfl

theorem ans_stopDue {s : State} (h : s.cur.flow.due = none) : ans stopDue s = (.ok ⟨⟩, s) := by
  unfold stopDue
  rw [ans_bind_ok (ans_theTask s), h]
  rfl

theorem ans_performHead {s t : State} {e : Entry} {k : Stream} {last : List Patch → List Granule} {body : M Unit} (hl : e.landing = none)
    (hb : ans body s = (.ok ⟨⟩, t)) (ha : t.air = none) :
    ans (performHead k e last body) s = (.ok ⟨⟩, t.withTask fun u => u.setQueue k (u.queue k).tail) := by
  unfold performHead
  rw [hl]
  dsimp only
  rw [ans_bind_ok hb, ans_bind_ok (ans_get t), ha]
  rfl

section
variable {s : State} {e : Entry} {i : Instr} {n : Nat} {body : Entry → M Unit}

/-- An entry of TIL whose effect goes through leaves its queue. -/
theorem tilOp_ok {t : State} (h : TilReady s e) (hb : ans (body e) s = (.ok ⟨⟩, t)) (ha : t.air = none) (hd : t.cur.flow.due = none) :
    tilOp i n body s = .next (t.left e) := by
  unfold tilOp
  rw [(TilReady.act h)]
  refine runM_ok ?_
  rw [ans_bind_ok (ans_performHead h.1.2.2.2.2.1.landing hb ha), left_til h.2.1]
  exact ans_stopDue hd

/-- An entry of TIL whose effect faults is as it was. -/
theorem tilOp_fault {t : State} {f : FaultInfo} (h : TilReady s e) (hb : ans (body e) s = (.error (.fault f false), t)) :
    tilOp i n body s = .next (takeFault f s) := by
  unfold tilOp
  rw [(TilReady.act h)]
  refine runM_fault (keep := false) (s' := t) (ans_bind_error ?_)
  unfold performHead
  rw [h.1.2.2.2.2.1.landing]
  exact ans_bind_error hb

/-- An entry of TIL that changes the acting task alone, and no stop of it. -/
theorem tilOp_withTask {f : Task → Task} (h : TilReady s e) (hb : ans (body e) s = (.ok ⟨⟩, s.withTask f))
    (hf : (f s.cur).flow = s.cur.flow) : tilOp i n body s = .next ((s.withTask f).left e) := by
  have ha : (s.withTask f).air = none := @TilReady.air s e h
  have hd : (s.withTask f).cur.flow.due = none := by rw [State.withTask_cur, hf]; exact h.2.2.1
  exact tilOp_ok h hb ha hd

end

/-! ## Descriptors (R147 to R149, R175) -/

@[simp] theorem rdT_wrT (g : Regs) (d : TReg) (x : Desc) : (g.wrT d x).rdT d = x := Vector.getElem_set_self ..

@[simp] theorem wrT_wrT (g : Regs) (d : TReg) (x y : Desc) : (g.wrT d x).wrT d y = g.wrT d y := by simp [Regs.wrT, Vector.set_set]

theorem rdT_eq_descIn (s : State) (d : TReg) : s.cur.regs.rdT d = descIn s d := rfl

/-- The thunks after a descriptor's name is dropped. -/
def thunksWithout (ts : List Thunk) (x : Desc) : List Thunk := if x.state = 0 then ts else release thunkFuel ts x.thk

theorem nameDropped_thunksWithout (ts : List Thunk) (x : Desc) : NameDropped x ts (thunksWithout ts x) := by
  refine ⟨fun h => if_pos h, fun h hlen hnd => ?_⟩
  rw [thunksWithout, if_neg h]
  exact dropped_release x.thk hlen hnd

theorem dropName_of_unnamed {t : Task} {d : TReg} (h : (t.regs.rdT d).state = 0) : t.dropName d = t := if_pos h

theorem dropName_of_named {t : Task} {d : TReg} (h : (t.regs.rdT d).state ≠ 0) : t.dropName d =
    { t with thunks := release thunkFuel t.thunks (t.regs.rdT d).thk, regs := t.regs.wrT d { t.regs.rdT d with state := 0, thk := 0 } } :=
  if_neg h

theorem dropName_flow (t : Task) (d : TReg) : (t.dropName d).flow = t.flow := by
  by_cases h : (t.regs.rdT d).state = 0
  · rw [dropName_of_unnamed h]
  · rw [dropName_of_named h]

/-- A name is dropped, and the descriptor it was in is then written. -/
theorem dropName_wrT (t : Task) (d : TReg) (x : Desc) :
    { t.dropName d with regs := (t.dropName d).regs.wrT d x } =
      { t with thunks := thunksWithout t.thunks (t.regs.rdT d), regs := t.regs.wrT d x } := by
  by_cases h : (t.regs.rdT d).state = 0
  · rw [dropName_of_unnamed h, thunksWithout, if_pos h]
  · rw [dropName_of_named h, thunksWithout, if_neg h]
    dsimp only
    rw [wrT_wrT]

/-- The fields other than a descriptor's name stay when it is dropped. -/
theorem rdT_dropName (t : Task) (d : TReg) :
    { (t.dropName d).regs.rdT d with state := 0, thk := 0 } = { t.regs.rdT d with state := 0, thk := 0 } := by
  by_cases h : (t.regs.rdT d).state = 0
  · rw [dropName_of_unnamed h]
  · rw [dropName_of_named h]
    dsimp only
    rw [rdT_wrT]

theorem withField_eq (x : Desc) (f : TField) (v : Word) : ({ x with state := 0, thk := 0 } : Desc).withField f v = fieldSet x f v := by
  have hw (n : Nat) : v.setWidth n = BitVec.ofNat n v.toNat := (BitVec.ofNat_toNat n v).symm
  cases f <;> simp only [Desc.withField, fieldSet, hw, decide_eq_true_eq]

theorem withField_isSome (x : Desc) (f : TField) (v : Word) : (x.withField f v).isSome = (fieldSet x f v).isSome := by
  cases f <;> simp only [Desc.withField, fieldSet, decide_eq_true_eq, apply_ite Option.isSome, Option.isSome_some, Option.isSome_none]

section
variable {s : State} {e : Entry}

theorem exec_tset {d : TReg} {f : TField} {a : SReg} {v : Word} {x : Desc} (h : TilReady s e) (hc : e.caps = [v])
    (hf : fieldSet (descIn s d) f v = some x) :
    exec (.tset d f a) s = .next ((withDesc s d x (thunksWithout s.cur.thunks (descIn s d))).left e) := by
  obtain ⟨y, hy⟩ := Option.isSome_iff_exists.1 ((withField_isSome (descIn s d) f v).trans (by rw [hf]; rfl))
  show execTset d f a s = _
  unfold execTset
  refine tilOp_withTask (f := fun t => { t with thunks := thunksWithout t.thunks (descIn s d), regs := t.regs.wrT d x }) h ?_ rfl
  rw [ans_bind_ok (ans_theTask s), hc, List.getD_cons_zero, rdT_eq_descIn, hy]
  refine (ans_modTask _ s).trans (congrArg (fun t => (Except.ok PUnit.unit, { s with cur := t })) ?_)
  dsimp only
  rw [rdT_dropName, withField_eq, rdT_eq_descIn, hf, dropName_wrT]
  rfl

theorem exec_tset_bad {d : TReg} {f : TField} {a : SReg} {v : Word} (h : TilReady s e) (hc : e.caps = [v])
    (hf : fieldSet (descIn s d) f v = none) : exec (.tset d f a) s = .next (takeFault { e.info with code := 0x2A } s) := by
  have hy : (descIn s d).withField f v = none :=
    Option.not_isSome_iff_eq_none.1 (by rw [withField_isSome, hf]; simp)
  show execTset d f a s = _
  unfold execTset
  refine tilOp_fault (t := s) h ?_
  rw [ans_bind_ok (ans_theTask s), hc, List.getD_cons_zero, rdT_eq_descIn, hy]
  rfl

theorem exec_tclr {d : TReg} (h : TilReady s e) :
    exec (.tclr d) s = .next ((withDesc s d {} (thunksWithout s.cur.thunks (descIn s d))).left e) := by
  show execTclr d s = _
  unfold execTclr
  refine tilOp_withTask (f := fun t => { t with thunks := thunksWithout t.thunks (descIn s d), regs := t.regs.wrT d {} }) h ?_ rfl
  exact (ans_modTask _ s).trans (congrArg (fun t => (Except.ok PUnit.unit, { s with cur := t })) (dropName_wrT s.cur d {}))

theorem exec_tdrop {d : TReg} (h : TilReady s e) : exec (.tdrop d) s = .next ((s.withTask (·.dropName d)).left e) := by
  show execTdrop d s = _
  unfold execTdrop
  exact tilOp_withTask h (ans_modTask _ s) (dropName_flow ..)

theorem exec_tmode {ovf pol : Bool} (h : TilReady s e) : exec (.tmode ovf pol) s =
    .next ((s.withSys fun y => { y with tmode := BitVec.ofNat 2 (pol.toNat * 2 + ovf.toNat) }).left e) := by
  show execTmode ovf pol s = _
  unfold execTmode
  have hm : BitVec.ofBool pol ++ BitVec.ofBool ovf = BitVec.ofNat 2 (pol.toNat * 2 + ovf.toNat) := by cases pol <;> cases ovf <;> rfl
  rw [hm]
  exact tilOp_withTask (f := fun t => { t with sys := { t.sys with tmode := BitVec.ofNat 2 (pol.toNat * 2 + ovf.toNat) } }) h
    (ans_modSys ..) rfl

theorem exec_tstat {u : State} {a : TReg} {sel : BitVec 2} (h : TilReady s e) (hu : s.give 61 (tstatWord s.cur a sel) = some u) :
    exec (.tstat a sel) s = .next (u.left e) := by
  show execTstat a sel s = _
  unfold execTstat
  obtain ⟨f, rfl⟩ := give_frame hu
  refine tilOp_withTask (f := fun t => { t with regs := f t.regs }) h ?_ rfl
  rw [ans_bind_ok (ans_theTask s)]
  exact ans_writeS hu

end

/-- The word of tstat as its selector names it (R176). -/
theorem tstatWord_eq (s : State) (a : TReg) (sel : BitVec 2) : tstatWord s.cur a sel =
    let count (x : Desc) := (x.rows.toNat + 31) / 32 * ((x.cols.toNat + 31) / 32)
    let named := if (descIn s a).state = 0 then none else s.cur.thunks.find? fun k => k.idx == (descIn s a).thk
    BitVec.ofNat 64 (match sel.toNat with
      | 0 => (match named with
          | none => 0
          | some k => ((List.range (count k.out)).filter k.done.testBit).length * 2 ^ 32 + count k.out * 2 ^ 16) +
          (descIn s a).state.toNat * 2 ^ 8 + (descIn s a).thk.toNat
      | 1 => (512 - (s.cur.thunks.map fun k => (count k.out + 511) / 512).sum) * 2 ^ 32 +
          (768 - (s.cur.thunks.map fun k => 1 + k.srcs.length + k.acc.toList.length).sum) * 2 ^ 16 + (256 - s.cur.thunks.length)
      | _ => (descIn s a).base.toNat) := by
  have h2 : ∀ n : Nat, sel.toNat = n + 2 → tstatWord s.cur a sel = BitVec.ofNat 64 (descIn s a).base.toNat := fun n hn => by
    unfold tstatWord
    rw [hn]
    exact (BitVec.ofNat_toNat 64 _).trans (BitVec.setWidth_eq _) |>.symm
  rcases hn : sel.toNat with _ | _ | n
  · unfold tstatWord
    rw [hn]
    dsimp only [findThunk]
    rw [rdT_eq_descIn]
    cases (if (descIn s a).state = 0 then none else s.cur.thunks.find? fun k => k.idx == (descIn s a).thk) with
    | none => simp only [Nat.zero_mul, Nat.zero_add]
    | some k => rfl
  · unfold tstatWord
    rw [hn]
    rfl
  · exact h2 n hn

theorem descriptorsAreSetAndRead : DescriptorsAreSetAndRead := by
  refine ⟨fun s e h => ⟨?_, ?_, ?_, ?_, ?_, ?_⟩, ?_⟩
  · intro d f a v x hi hc hf
    exact ⟨_, hi ▸ exec_tset h hc hf, nameDropped_thunksWithout ..⟩
  · intro d f a v hi hc hf
    exact hi ▸ exec_tset_bad h hc hf
  · intro d hi
    exact ⟨_, hi ▸ exec_tclr h, nameDropped_thunksWithout ..⟩
  · intro d hi hs
    refine ⟨thunksWithout s.cur.thunks (descIn s d), ?_, nameDropped_thunksWithout ..⟩
    rw [hi, exec_tdrop h, State.withTask, dropName_of_named hs, thunksWithout, if_neg hs]
    rfl
  · intro d hi hs
    rw [hi, exec_tdrop h, State.withTask, dropName_of_unnamed hs]
  · intro ovf pol hi
    exact hi ▸ exec_tmode h
  · intro s u e a sel h hi _
    dsimp only
    intro hu
    exact hi ▸ exec_tstat h ((tstatWord_eq s a sel) ▸ hu)

end Sys2Proof.Machine

end

section

namespace Sys2Proof.Machine

/-! ## Appending a thunk (R150 to R154) -/

/-- One reference more on each thunk that a list names, name after name. -/
def refsUp (names : List (BitVec 8)) (ts : List Thunk) : List Thunk :=
  names.foldl (fun ts u => modThunk ts u fun x => { x with refs := x.refs + 1 }) ts

/-- One reference more on each thunk for every time that a list names it. -/
def withRefs (ts : List Thunk) (names : List (BitVec 8)) : List Thunk := ts.map fun v => { v with refs := v.refs + names.count v.idx }

theorem refsUp_eq (names : List (BitVec 8)) : ∀ ts : List Thunk, refsUp names ts = withRefs ts names := by
  induction names with
  | nil => intro ts; simp [refsUp, withRefs]
  | cons u names ih =>
    intro ts
    refine (ih _).trans ?_
    unfold withRefs modThunk
    rw [List.map_map]
    refine List.map_congr_left fun v _ => ?_
    simp only [Function.comp, List.count_cons, beq_iff_eq]
    by_cases h : v.idx = u
    · simp only [if_pos h, if_pos h.symm, Thunk.mk.injEq, and_self, and_true, true_and]
      omega
    · simp only [if_neg h, if_neg (Ne.symm h), Nat.add_zero]

/-- The sources that an append takes, each by name while it is pending (R153). -/
def sourcesOf (x : TReg → Desc) (srcs : List (TReg × Nat)) : List Src := srcs.map fun z => { desc := x z.1, name := (x z.1).name, map := z.2 }

/-- The accumulation source that an append takes: its output's pending thunk (R156). -/
def accOf (out : Desc) (beta : Bool) : Option Src :=
  if beta && out.state == 1 then some { desc := out, name := some out.thk, map := 0 } else none

/-- The thunk that an append adds under an index. -/
def newThunk (t : Task) (e : Entry) (d : TReg) (srcs : List (TReg × Nat)) (beta : Bool) (aux : BitVec 32) (idx : BitVec 8) : Thunk :=
  let out := t.regs.rdT d
  let taken := sourcesOf t.regs.rdT srcs
  let acc := accOf out beta
  let slots := freeNums 768 t.poolUsed (1 + taken.length + acc.toList.length)
  { idx, seq := e.num, ord := e.ord, outs := slots.headD 0, pool := (slots.drop 1).take taken.length
    accs := if acc.isSome then slots.getLast? else none
    units := freeNums 512 t.unitsUsed out.units, ins := e.ins, out, srcs := taken, acc, aux }

/-- A name is dropped, a thunk is added, and the descriptor names it. -/
theorem dropName_append (t : Task) (d : TReg) (k : Thunk) (u : BitVec 8) :
    { t.dropName d with
      thunks := (t.dropName d).thunks ++ [k]
      regs := (t.dropName d).regs.wrT d { (t.dropName d).regs.rdT d with state := 1, thk := u } } =
    { t with thunks := thunksWithout t.thunks (t.regs.rdT d) ++ [k], regs := t.regs.wrT d { t.regs.rdT d with state := 1, thk := u } } := by
  by_cases h : (t.regs.rdT d).state = 0
  · rw [dropName_of_unnamed h, thunksWithout, if_pos h]
  · rw [dropName_of_named h, thunksWithout, if_neg h]
    dsimp only
    rw [wrT_wrT, rdT_wrT]

theorem freeNums_lt {limit n : Nat} {used : List Nat} {i : Nat} (h : i ∈ freeNums limit used n) : i < limit ∧ i ∉ used := by
  have := List.mem_filter.1 (List.mem_of_mem_take h)
  exact ⟨List.mem_range.1 this.1, by simpa using this.2⟩

theorem mem_unitsUsed {t : Task} {x : Thunk} (hx : x ∈ t.thunks) {n : Nat} (hn : n ∈ x.units) : n ∈ t.unitsUsed :=
  List.mem_flatMap.2 ⟨x, hx, hn⟩

/-- While fewer than 256 thunks have an index, one is free. -/
theorem ans_freeThunkIndex {s : State} (h : s.cur.thunks.length < 256) :
    ∃ u, ans freeThunkIndex s = (.ok u, s) ∧ ∀ x ∈ s.cur.thunks, x.idx ≠ u := by
  refine ⟨_, ans_bind_ok (ans_theTask s), ?_⟩
  rcases hf : (List.range 256).find? (fun i => !(s.cur.thunks.any fun t => t.idx.toNat == i)) with _ | i
  · have hall : ∀ i ∈ List.range 256, i ∈ s.cur.thunks.map (·.idx.toNat) := by simpa using hf
    have := ((List.nodup_range (n := 256)).subperm hall).length_le
    rw [List.length_range, List.length_map] at this
    omega
  · have hi : i < 256 := List.mem_range.1 (List.mem_of_find?_eq_some hf)
    have hfree : ∀ x ∈ s.cur.thunks, x.idx.toNat ≠ i := by simpa using List.find?_some hf
    intro x hx he
    refine hfree x hx ?_
    rw [he, Option.getD_some, BitVec.toNat_ofNat]
    exact Nat.mod_eq_of_lt hi

/-- No pending thunk meets the new bytes, so none is forced (R154). -/
theorem ans_forceOverlaps_none {s : State} {e : Entry} {out : Nat × Nat} {acc : Option (BitVec 8)}
    {srcs : List ((Nat × Nat) × Option (BitVec 8))}
    (h : ∀ u ∈ s.cur.thunks, u.complete = false → u.mustForce s.cur.thunks out acc srcs = false) :
    ans (forceOverlaps e out acc srcs) s = (.ok ⟨⟩, s) := by
  have hnone : s.cur.thunks.filter (fun u => !u.complete && u.mustForce s.cur.thunks out acc srcs) = [] :=
    List.filter_eq_nil_iff.2 fun u hu => by
      cases hc : u.complete
      · simp [h u hu hc]
      · simp
  unfold forceOverlaps
  rw [ans_bind_ok (ans_theTask s)]
  dsimp only
  rw [hnone]
  rfl

/-- Where the new entry fits, nothing is reclaimed or forced (R174). -/
theorem ans_obtain_fits {s : State} {e : Entry} {d : TReg} {n : Nat} {beta : Bool} (h : s.cur.fits d n beta = true) :
    ans (obtain_ e d n beta thunkFuel) s = (.ok ⟨⟩, s) := by
  rw [thunkFuel, obtain_, ans_bind_ok (ans_theTask s), if_pos h]
  rfl

/-- The state that an append leaves. -/
def appended (s : State) (d : TReg) (k : Thunk) : State :=
  withDesc s d { descIn s d with state := 1, thk := k.idx } (thunksWithout (withRefs s.cur.thunks k.names) (descIn s d) ++ [k])

/-- The bytes of a source as an append compares them. -/
def spanOf (x : TReg → Desc) (first : Desc) (z : TReg × Nat) : Nat × Nat :=
  if z.2 = 15 then ((x z.1).base.toNat, (x z.1).pitch.toNat + first.rows.toNat * (first.cols.toNat / 8) * 2) else (x z.1).span

/-- What an append does to the task once nothing is to be forced. -/
def addThunk (e : Entry) (d : TReg) (srcs : List (TReg × Nat)) (beta : Bool) (aux : BitVec 32) (u : BitVec 8) (t : Task) : Task :=
  let k := newThunk t e d srcs beta aux u
  let t := { t with thunks := refsUp k.names t.thunks }.dropName d
  { t with thunks := t.thunks ++ [k], regs := t.regs.wrT d { t.regs.rdT d with state := 1, thk := u } }

theorem addThunk_eq (e : Entry) (d : TReg) (srcs : List (TReg × Nat)) (beta : Bool) (aux : BitVec 32) (u : BitVec 8) (t : Task) :
    addThunk e d srcs beta aux u t = { t with
      thunks := thunksWithout (refsUp (newThunk t e d srcs beta aux u).names t.thunks) (t.regs.rdT d) ++ [newThunk t e d srcs beta aux u]
      regs := t.regs.wrT d { t.regs.rdT d with state := 1, thk := u } } :=
  dropName_append { t with thunks := refsUp (newThunk t e d srcs beta aux u).names t.thunks } d _ u

theorem append_eq (e : Entry) (d : TReg) (srcs : List (TReg × Nat)) (beta : Bool) (aux : BitVec 32)
    (shapes : Desc → List Desc → Bool) : append e d srcs beta aux shapes = (do
      let t ← theTask
      let ds := srcs.map fun x => t.regs.rdT x.1
      if !((t.regs.rdT d).sized 4096 && (srcs.all fun x => x.2 == 15 || (t.regs.rdT x.1).sized 16384) && shapes (t.regs.rdT d) ds) then
        raiseE e.info fcShape 0
      forceOverlaps e (t.regs.rdT d).span (if beta then (t.regs.rdT d).name else none)
        (srcs.map fun x => (spanOf t.regs.rdT (ds.getD 0 {}) x, (t.regs.rdT x.1).name))
      obtain_ e d srcs.length beta thunkFuel
      let u ← freeThunkIndex
      modTask (addThunk e d srcs beta aux u)) := rfl

/-- An append whose checks pass, that overlaps no pending thunk, and for which the table has room. -/
theorem ans_append {s : State} {e : Entry} {d : TReg} {srcs : List (TReg × Nat)} {beta : Bool} {aux : BitVec 32}
    {shapes : Desc → List Desc → Bool} {u : BitVec 8} (hout : (descIn s d).sized 4096 = true)
    (hsrcs : (srcs.all fun x => x.2 == 15 || (descIn s x.1).sized 16384) = true)
    (hshapes : shapes (descIn s d) (srcs.map fun x => descIn s x.1) = true)
    (hforce : ∀ k ∈ s.cur.thunks, k.complete = false → k.mustForce s.cur.thunks (descIn s d).span (if beta then (descIn s d).name else none)
      (srcs.map fun x => (spanOf (descIn s) ((srcs.map fun x => descIn s x.1).getD 0 {}) x, (descIn s x.1).name)) = false)
    (hfits : s.cur.fits d srcs.length beta = true) (hu : ans freeThunkIndex s = (.ok u, s)) :
    ans (append e d srcs beta aux shapes) s = (.ok ⟨⟩, appended s d (newThunk s.cur e d srcs beta aux u)) := by
  have hcheck : (!((descIn s d).sized 4096 && (srcs.all fun x => x.2 == 15 || (descIn s x.1).sized 16384) &&
      shapes (descIn s d) (srcs.map fun x => descIn s x.1))) = false := by rw [hout, hsrcs, hshapes]; rfl
  rw [append_eq, ans_bind_ok (ans_theTask s)]
  simp only [show s.cur.regs.rdT = descIn s from rfl, hcheck, Bool.false_eq_true, if_false]
  rw [ans_bind_ok (ans_forceOverlaps_none hforce), ans_bind_ok (ans_obtain_fits hfits), ans_bind_ok hu]
  refine (ans_modTask _ s).trans (congrArg (fun t => (Except.ok PUnit.unit, { s with cur := t })) ?_)
  rw [addThunk_eq, refsUp_eq]
  rfl

/-! ## The compute forms (R153 to R163) -/

theorem sized_of_sizeOk {x : Desc} {limit : Nat} (h : sizeOk x limit) : x.sized limit = true := decide_eq_true h

/-- The bytes of a source as the statement and an append give them. -/
theorem sourceBytes_eq_spanOf {x : TReg → Desc} {srcs : List (TReg × Nat)} {z : TReg × Nat} (h : z ∈ srcs) :
    sourceBytes x srcs z = spanOf x ((srcs.map fun y => x y.1).getD 0 {}) z := by
  cases srcs with
  | nil => cases h
  | cons y l => rfl

theorem name_eq (x : Desc) : x.name = if x.state = 1 then some x.thk else none := rfl

theorem accOf_eq (x : Desc) (acc : Bool) :
    accOf x acc = if acc = true ∧ x.state = 1 then some { desc := x, name := some x.thk, map := 0 } else none := by
  simp only [accOf, Bool.and_eq_true, beq_iff_eq]

/-- What a compute form leaves: its thunk, and the references of the thunks before it. -/
def Appends (s : State) (e : Entry) (d : TReg) (srcs : List (TReg × Nat)) (acc : Bool) (aux : BitVec 32) : Prop :=
  ∃ (ts : List Thunk) (k : Thunk),
    exec e.ins s = .next ((withDesc s d { descIn s d with state := 1, thk := k.idx } (ts ++ [k])).left e) ∧
    (∀ u ∈ s.cur.thunks, u.idx ≠ k.idx) ∧ k.seq = e.num ∧ k.ord = e.ord ∧
    (∀ n ∈ k.units, n < 512 ∧ ∀ u ∈ s.cur.thunks, n ∉ u.units) ∧ k.ins = e.ins ∧ k.complete = false ∧ k.done = 0 ∧ k.refs = 1 ∧
    k.aux = aux ∧ k.out = descIn s d ∧
    k.srcs = (srcs.map fun x => { desc := descIn s x.1
                                  name := if (descIn s x.1).state = 1 then some (descIn s x.1).thk else none
                                  map := x.2 }) ∧
    k.acc = (if acc = true ∧ (descIn s d).state = 1 then some { desc := descIn s d, name := some (descIn s d).thk, map := 0 } else none) ∧
    NameDropped (descIn s d) (s.cur.thunks.map fun v => { v with refs := v.refs +
      ((k.srcs ++ k.acc.toList).filter fun z => z.name == some v.idx).length }) ts

section
variable {s : State} {e : Entry} {d : TReg} {srcs : List (TReg × Nat)} {acc : Bool} {aux : BitVec 32}

/-- What an append asks of the table and of the descriptors. -/
structure RoomFor (s : State) (d : TReg) (srcs : List (TReg × Nat)) (acc : Bool) : Prop where
  outSized : sizeOk (descIn s d) 4096
  srcsSized : ∀ x ∈ srcs, x.2 ≠ 15 → sizeOk (descIn s x.1) 16384
  apart : ∀ u ∈ s.cur.thunks, u.complete = false → u.mustForce s.cur.thunks (sourceBytes (descIn s) srcs (d, 0))
    (if acc = true ∧ (descIn s d).state = 1 then some (descIn s d).thk else none)
    (srcs.map fun x => (sourceBytes (descIn s) srcs x, if (descIn s x.1).state = 1 then some (descIn s x.1).thk else none)) = false
  entries : s.cur.thunks.length < 256
  snaps : (s.cur.thunks.map fun k => 1 + k.srcs.length + k.acc.toList.length).sum + 1 + srcs.length +
    (if acc = true ∧ (descIn s d).state = 1 then 1 else 0) ≤ 768
  units : (s.cur.thunks.map fun k => ((k.out.rows.toNat + 31) / 32 * ((k.out.cols.toNat + 31) / 32) + 511) / 512).sum +
    (((descIn s d).rows.toNat + 31) / 32 * (((descIn s d).cols.toNat + 31) / 32) + 511) / 512 ≤ 512

theorem RoomFor.fits (h : RoomFor s d srcs acc) : s.cur.fits d srcs.length acc = true := by
  have hs := h.snaps
  refine decide_eq_true ⟨h.entries, ?_, h.units⟩
  simp only [rdT_eq_descIn, Bool.and_eq_true, beq_iff_eq]
  exact (Nat.le_of_eq (by rw [← Nat.add_assoc, ← Nat.add_assoc]; rfl)).trans hs

/-- A compute form whose body is an append, where there is room for its thunk. -/
theorem appends_of_exec {i : Instr} {n : Nat} {body : Entry → M Unit} {shapes : Desc → List Desc → Bool} (h : TilReady s e)
    (hroom : RoomFor s d srcs acc) (hexec : exec e.ins s = tilOp i n body s) (hbody : body e = append e d srcs acc aux shapes)
    (hshapes : shapes (descIn s d) (srcs.map fun x => descIn s x.1) = true) : Appends s e d srcs acc aux := by
  obtain ⟨u, hu, hfree⟩ := ans_freeThunkIndex hroom.entries
  have hsrcs : (srcs.all fun x => x.2 == 15 || (descIn s x.1).sized 16384) = true :=
    List.all_eq_true.2 fun x hx => by
      by_cases h15 : x.2 = 15
      · simp [h15]
      · simp [sized_of_sizeOk (hroom.srcsSized x hx h15)]
  have hforce : ∀ k ∈ s.cur.thunks, k.complete = false → k.mustForce s.cur.thunks (descIn s d).span
      (if acc then (descIn s d).name else none)
      (srcs.map fun x => (spanOf (descIn s) ((srcs.map fun x => descIn s x.1).getD 0 {}) x, (descIn s x.1).name)) = false := by
    intro k hk hc
    have hm : (srcs.map fun x => (spanOf (descIn s) ((srcs.map fun x => descIn s x.1).getD 0 {}) x, (descIn s x.1).name)) =
        srcs.map fun x => (sourceBytes (descIn s) srcs x, if (descIn s x.1).state = 1 then some (descIn s x.1).thk else none) :=
      List.map_congr_left fun x hx => by rw [sourceBytes_eq_spanOf hx, name_eq]
    have ha : (if acc then (descIn s d).name else none) =
        if acc = true ∧ (descIn s d).state = 1 then some (descIn s d).thk else none := by rw [name_eq, ite_and]
    rw [hm, ha]
    exact hroom.apart k hk hc
  have hans := hbody ▸ ans_append (e := e) (aux := aux) (sized_of_sizeOk hroom.outSized) hsrcs hshapes hforce hroom.fits hu
  refine ⟨thunksWithout (withRefs s.cur.thunks (newThunk s.cur e d srcs acc aux u).names) (descIn s d), newThunk s.cur e d srcs acc aux u,
    ?_, hfree, rfl, rfl, fun n hn => ?_, rfl, rfl, rfl, rfl, rfl, rfl, rfl, accOf_eq .., ?_⟩
  · rw [hexec]
    exact tilOp_withTask (f := fun t => (appended s d (newThunk s.cur e d srcs acc aux u)).cur) h hans rfl
  · obtain ⟨hlt, hnot⟩ := freeNums_lt hn
    exact ⟨hlt, fun x hx hmem => hnot (mem_unitsUsed hx hmem)⟩
  · simp only [← count_names]
    exact nameDropped_thunksWithout ..

end

/-- A word's low half is the scalar that a compute form reads. -/
theorem scalar_eq (caps : List Word) : (caps.getD 0 0).setWidth 32 = BitVec.ofNat 32 (caps.headD 0).toNat := by
  cases caps with
  | nil => rfl
  | cons x l => exact (BitVec.ofNat_toNat 32 x).symm

/-- Two sizes of a descriptor agree when their values do. -/
theorem size_beq {a b : BitVec 16} : (a == b) = true ↔ a.toNat = b.toNat := by rw [beq_iff_eq, BitVec.toNat_inj]

theorem same_iff {a b : Desc} : a.same b = true ↔ a.rows.toNat = b.rows.toNat ∧ a.cols.toNat = b.cols.toNat := by
  rw [Desc.same, Bool.and_eq_true, size_beq, size_beq]

theorem allSame_cons {c a : Desc} {l : List Desc} (h : c.rows.toNat = a.rows.toNat ∧ c.cols.toNat = a.cols.toNat)
    (hl : allSame c l = true) : allSame c (a :: l) = true := by
  rw [allSame, List.all_cons, same_iff.2 h]
  exact hl

/-- The shapes of a matrix product (R154 Table 3). -/
theorem mmShapes_of {x : MmExt} {c a b : Desc} {l : List Desc}
    (h : let (m, k) := if x.ta then (a.cols.toNat, a.rows.toNat) else (a.rows.toNat, a.cols.toNat)
      let (k2, n) := if x.tb then (b.cols.toNat, b.rows.toNat) else (b.rows.toNat, b.cols.toNat)
      k = k2 ∧ c.rows.toNat = m ∧ c.cols.toNat = n) : mmShapes x c (a :: b :: l) = true := by
  unfold mmShapes
  cases hta : x.ta <;> cases htb : x.tb <;>
    · simp only [hta, htb, Bool.false_eq_true, if_false, if_true, Bool.and_eq_true, size_beq] at h ⊢
      exact ⟨h.2, h.1⟩

/-- The shapes of a sparse matrix product. -/
theorem mmspShapes_of {x : MmExt} {c a b : Desc} {l : List Desc}
    (h : let (k, n) := if x.tb then (b.cols.toNat, b.rows.toNat) else (b.rows.toNat, b.cols.toNat)
      c.rows.toNat = a.rows.toNat ∧ 2 * a.cols.toNat = k ∧ k % 16 = 0 ∧ c.cols.toNat = n) : mmspShapes x c (a :: b :: l) = true := by
  unfold mmspShapes
  cases htb : x.tb <;>
    · simp only [htb, Bool.false_eq_true, if_false, if_true, Bool.and_eq_true, beq_iff_eq, ← BitVec.toNat_inj] at h ⊢
      exact ⟨⟨⟨h.1, h.2.2.2⟩, h.2.1⟩, h.2.2.1⟩

/-- The shapes of a reduction. -/
theorem redShapes_of {cols : Bool} {c a : Desc}
    (h : if cols then c.rows.toNat = a.rows.toNat ∧ c.cols.toNat = 1 else c.rows.toNat = 1 ∧ c.cols.toNat = a.cols.toNat) :
    (if cols then c.rows == a.rows && c.cols == 1 else c.rows == 1 && c.cols == a.cols) = true := by
  cases cols
  · exact Bool.and_eq_true_iff.2 ⟨size_beq.2 h.1, size_beq.2 h.2⟩
  · exact Bool.and_eq_true_iff.2 ⟨size_beq.2 h.1, size_beq.2 h.2⟩

/-- The shapes of a view. -/
theorem viewShapes_iff {k : ViewKind} {off : Nat} {c a : Desc} : viewShapes k off c [a] = true ↔ match k with
    | .ident => c.rows.toNat = a.rows.toNat ∧ c.cols.toNat = a.cols.toNat
    | .tr => c.rows.toNat = a.cols.toNat ∧ c.cols.toNat = a.rows.toNat
    | .rows => c.cols.toNat = a.cols.toNat ∧ off + c.rows.toNat ≤ a.rows.toNat
    | .cols => c.rows.toNat = a.rows.toNat ∧ off + c.cols.toNat ≤ a.cols.toNat
    | .rbc => a.rows.toNat = 1 ∧ c.cols.toNat = a.cols.toNat
    | .cbc => a.cols.toNat = 1 ∧ c.rows.toNat = a.rows.toNat := by
  cases k <;> simp [viewShapes, same_iff, ← BitVec.toNat_inj]

theorem computeFormsAppendThunks : ComputeFormsAppendThunks := by
  intro s e d srcs acc aux shapes h hrow hshapes hout hsrcs hforce hlen hsnaps hunits
  have hroom : RoomFor s d srcs acc := ⟨hout, hsrcs, hforce, hlen, hsnaps, hunits⟩
  show Appends s e d srcs acc aux
  unfold appendRow at hrow
  split at hrow
  case h_1 hi => cases hrow; exact appends_of_exec h hroom (by rw [hi]; rfl) rfl (mmShapes_of hshapes)
  case h_2 hi =>
    cases hrow
    exact appends_of_exec h hroom (by rw [hi]; rfl) (congrArg (append e _ _ _ · _) (scalar_eq e.caps)) (mmShapes_of hshapes)
  case h_3 hi => cases hrow; exact appends_of_exec h hroom (by rw [hi]; rfl) rfl (mmspShapes_of hshapes)
  case h_4 hi => cases hrow; exact appends_of_exec h hroom (by rw [hi]; rfl) rfl (allSame_cons hshapes.1 (allSame_cons hshapes.2 rfl))
  case h_5 hi => cases hrow; exact appends_of_exec h hroom (by rw [hi]; rfl) rfl (allSame_cons hshapes.1 (allSame_cons hshapes.2 rfl))
  case h_6 hi =>
    cases hrow
    exact appends_of_exec h hroom (by rw [hi]; rfl) (congrArg (append e _ _ _ · _) (scalar_eq e.caps)) (allSame_cons hshapes rfl)
  case h_7 hi => cases hrow; exact appends_of_exec h hroom (by rw [hi]; rfl) rfl (allSame_cons hshapes rfl)
  case h_8 hi => cases hrow; exact appends_of_exec h hroom (by rw [hi]; rfl) rfl (allSame_cons hshapes rfl)
  case h_9 hi =>
    rename_i cols d a
    cases hrow
    exact appends_of_exec h hroom (by rw [hi]; rfl) rfl ((Bool.and_true _).trans (redShapes_of hshapes))
  case h_10 hi =>
    rename_i k d a off
    cases k <;> cases hrow <;> refine appends_of_exec h hroom (by rw [hi]; rfl) rfl (viewShapes_iff.2 ?_) <;> exact hshapes
  case h_11 => cases hrow

/-- Settles O24: each descriptor form is one change of the task, and each compute form is one append, whose references are those of the
thunks that its names give and its old name takes. -/
theorem descriptorsAndComputeForms : Obligations.DescriptorsAndComputeForms := ⟨descriptorsAreSetAndRead, computeFormsAppendThunks⟩

end Sys2Proof.Machine

end

section

namespace Sys2Proof.Machine

/-! ## What the tile engine's accesses change (R147, R165, R169) -/

/-- A state with what the tile engine's accesses change of it taken from another: HBM with what is kept of its lines, the counters, the
translation caches and the access queues; and with more flags in FPST. -/
def State.worked (s t : State) (fl : Fl) : State :=
  { s with
    hbm := t.hbm, dirty := t.dirty, rdc := t.rdc, poison := t.poison, badTags := t.badTags, wrote := t.wrote, counters := t.counters
    tlb := t.tlb, coreTc := t.coreTc, fetchTc := t.fetchTc, accessQs := t.accessQs
    cur := { s.cur with sys := { s.cur.sys with fpst := s.cur.sys.fpst ||| fl } } }

/-- A state differs from another at most in what the tile engine's accesses change, by those flags. -/
def Worked (s : State) (fl : Fl) (t : State) : Prop := t = s.worked t fl

theorem flags_or_none (fl : Fl) : fl ||| 0 = fl := by simp
theorem none_or_flags (fl : Fl) : 0 ||| fl = fl := by simp

namespace Worked

/-- A state that differs in those fields, and not in FPST. -/
theorem of_unflagged {s t : State} (h : t = { s with
    hbm := t.hbm, dirty := t.dirty, rdc := t.rdc, poison := t.poison, badTags := t.badTags, wrote := t.wrote, counters := t.counters
    tlb := t.tlb, coreTc := t.coreTc, fetchTc := t.fetchTc, accessQs := t.accessQs }) : Worked s 0 t := by
  unfold Worked State.worked
  rw [flags_or_none]
  exact h

theorem refl (s : State) : Worked s 0 s := of_unflagged rfl

variable {s t u : State} {fl g : Fl}

theorem trans (h : Worked s fl t) (h' : Worked t g u) : Worked s (fl ||| g) u := by
  unfold Worked at *
  have hu : u = (s.worked t fl).worked u g := by rw [← h]; exact h'
  refine hu.trans ?_
  unfold State.worked
  dsimp only
  rw [BitVec.or_assoc]

theorem cur (h : Worked s fl t) : t.cur = { s.cur with sys := { s.cur.sys with fpst := s.cur.sys.fpst ||| fl } } := congrArg State.cur h
theorem pool (h : Worked s fl t) : t.cur.pool = s.cur.pool := congrArg (·.cur.pool) h
theorem regs (h : Worked s fl t) : t.cur.regs = s.cur.regs := congrArg (·.cur.regs) h
theorem flow (h : Worked s fl t) : t.cur.flow = s.cur.flow := congrArg (·.cur.flow) h
theorem thunks (h : Worked s fl t) : t.cur.thunks = s.cur.thunks := congrArg (·.cur.thunks) h
theorem queues (h : Worked s fl t) : t.cur.queues = s.cur.queues := congrArg (·.cur.queues) h
theorem cluster (h : Worked s fl t) : t.cur.cluster = s.cur.cluster := congrArg (·.cur.cluster) h
theorem readsOf (h : Worked s fl t) (f : FaultInfo) : t.cur.readsOf f = s.cur.readsOf f :=
  (congrArg (fun u : State => u.cur.readsOf f) h : _ = (s.worked t fl).cur.readsOf f)
theorem ctxs (h : Worked s fl t) : t.ctxs = s.ctxs := (congrArg State.ctxs h : _ = (s.worked t fl).ctxs)
theorem air (h : Worked s fl t) : t.air = s.air := (congrArg State.air h : _ = (s.worked t fl).air)
theorem act (h : Worked s fl t) : t.act = s.act := (congrArg State.act h : _ = (s.worked t fl).act)
theorem transit (h : Worked s fl t) : t.transit = s.transit := (congrArg State.transit h : _ = (s.worked t fl).transit)
theorem csram (h : Worked s fl t) : t.csram = s.csram := (congrArg State.csram h : _ = (s.worked t fl).csram)
theorem hostMem (h : Worked s fl t) : t.hostMem = s.hostMem := (congrArg State.hostMem h : _ = (s.worked t fl).hostMem)
theorem peerMem (h : Worked s fl t) : t.peerMem = s.peerMem := (congrArg State.peerMem h : _ = (s.worked t fl).peerMem)
theorem others (h : Worked s fl t) : t.others = s.others := (congrArg State.others h : _ = (s.worked t fl).others)
theorem fpst (h : Worked s fl t) : t.cur.sys.fpst = s.cur.sys.fpst ||| fl := congrArg (·.cur.sys.fpst) h
theorem walks (h : Worked s fl t) : t.walks = s.walks := (congrArg State.walks h : _ = (s.worked t fl).walks)
theorem launches (h : Worked s fl t) : t.launches = s.launches := (congrArg State.launches h : _ = (s.worked t fl).launches)

theorem ctx? (h : Worked s fl t) (n : Nat) : t.ctx? n = s.ctx? n := by
  unfold State.ctx?
  rw [h.ctxs]

theorem lookup (h : Worked s fl t) (hm : t.hbm = s.hbm) (n : Nat) (va : Word) : t.lookup n va = s.lookup n va := by
  unfold State.lookup
  rw [h.ctx?, hm]

end Worked

/-- What an access queue holds is what the tables give the acting task's addresses (R418). -/
def QueueCurrent (s : State) (q : AccessQueue) : Prop :=
  ∀ (c : Cached) (va : Word), (q.cur = some c ∨ q.next = some c) → c.covers s.cur.pool.ctx va = true → s.Maps s.cur.pool.ctx va c.leaf

/-- Nothing but the access itself is met on the way of the tile engine to memory: its pages walk without a change, no write of the step
waits, no page is moved, no walk is still to end, no line is poisoned, and nothing is watched. -/
structure Calm (s : State) : Prop where
  wf : Memory.wf s.hbm = true
  current : StreamsAreCurrent s
  air : s.air = none
  kept : s.act.any (fun e => e.answer == .lost) = false
  transit : s.transit = []
  walks : s.walks = []
  launches : s.launches = []
  poison : s.poison = []
  unwatched : s.Unwatched

theorem Calm.whole {s : State} (h : Calm s) : PagesWhole s := h.current.1
theorem Calm.marked {s : State} (h : Calm s) {va leaf : Word} (hm : s.Maps s.cur.pool.ctx va leaf) :
    leaf.getLsbD 3 = true ∧ (leafW leaf = true → leaf.getLsbD 4 = true) := h.current.2.1 va leaf hm
theorem Calm.queue {s : State} (h : Calm s) {q : AccessQueue} (hq : q ∈ s.accessQs) : QueueCurrent s q := h.current.2.2 q hq

theorem Maps.unique {s : State} {n : Nat} {va leaf leaf' : Word} (h : s.Maps n va leaf) (h' : s.Maps n va leaf') : leaf = leaf' := by
  obtain ⟨pa, hp⟩ := h
  obtain ⟨pa', hp'⟩ := h'
  exact (Prod.mk.inj (Except.ok.inj (hp.symm.trans hp'))).1

theorem maps_congr {s t : State} {n : Nat} (h : ∀ va, t.lookup n va = s.lookup n va) (va leaf : Word) : t.Maps n va leaf ↔ s.Maps n va leaf := by
  unfold State.Maps
  rw [h]

/-- A calm state stays so under what the tile engine does, while the tables give what they gave. -/
theorem Calm.of_worked {s t : State} {fl : Fl} (h : Calm s) (w : Worked s fl t) (hwf : Memory.wf t.hbm = true) (hp : t.poison = [])
    (hl : ∀ va, t.lookup s.cur.pool.ctx va = s.lookup s.cur.pool.ctx va) (hq : ∀ q ∈ t.accessQs, QueueCurrent s q) : Calm t where
  wf := hwf
  current := by
    have hm := maps_congr hl
    unfold StreamsAreCurrent PagesWhole
    rw [w.pool]
    simp only [hm]
    exact ⟨h.whole, fun va leaf => h.marked, hq⟩
  air := w.air.trans h.air
  kept := by rw [w.act]; exact h.kept
  transit := w.transit.trans h.transit
  walks := w.walks.trans h.walks
  launches := w.launches.trans h.launches
  poison := hp
  unwatched := by
    unfold State.Unwatched
    rw [w.ctxs]
    exact h.unwatched

/-- A calm state that an operation of the tile engine which writes nothing may have come to: the flags it raised since. -/
structure Near (s : State) (fl : Fl) (t : State) : Prop where
  calm : Calm t
  worked : Worked s fl t
  hbm : t.hbm = s.hbm

namespace Near

variable {s t u : State} {fl g : Fl}

theorem self (h : Calm s) : Near s 0 s := ⟨h, .refl s, rfl⟩

theorem plus (h : Near s fl t) : Near s (fl ||| 0) t := by rwa [flags_or_none]

theorem lookup (h : Near s fl t) (n : Nat) (va : Word) : t.lookup n va = s.lookup n va := h.worked.lookup h.hbm n va

theorem maps (h : Near s fl t) {va leaf : Word} (hm : s.Maps s.cur.pool.ctx va leaf) : t.Maps t.cur.pool.ctx va leaf := by
  rw [h.worked.pool]
  exact (maps_congr (h.lookup _) va leaf).2 hm

theorem step (h : Near s fl t) (w : Worked t g u) (hm : u.hbm = t.hbm) (hp : u.poison = t.poison) (hq : ∀ q ∈ u.accessQs, QueueCurrent t q) :
    Near s (fl ||| g) u where
  calm := h.calm.of_worked w (hm ▸ h.calm.wf) (hp.trans h.calm.poison) (w.lookup hm _) hq
  worked := h.worked.trans w
  hbm := hm.trans h.hbm

/-- A step that leaves the access queues and raises no flag. -/
theorem step' (h : Near s fl t) (w : Worked t 0 u) (hm : u.hbm = t.hbm) (hp : u.poison = t.poison) (hq : u.accessQs = t.accessQs) : Near s fl u := by
  have h' := h.step w hm hp (by rw [hq]; exact fun q => h.calm.queue)
  rwa [flags_or_none] at h'

end Near

/-- From every calm state of a state's kind an operation answers a value and raises some flags, and does nothing else that shows. -/
def Reads {α : Type} (s : State) (m : M α) (a : α) (g : Fl) : Prop := ∀ fl t, Near s fl t → ∃ u, ans m t = (.ok a, u) ∧ Near s (fl ||| g) u

namespace Reads

variable {α β : Type} {s : State} {m : M α} {a : α} {g g' : Fl}

theorem pure (a : α) : Reads s (pure a : M α) a 0 := fun _ t h => ⟨t, rfl, h.plus⟩

theorem bind {f : α → M β} {b : β} (h : Reads s m a g) (h' : Reads s (f a) b g') : Reads s (m >>= f) b (g ||| g') := fun fl t hn => by
  obtain ⟨u, hu, hn'⟩ := h fl t hn
  obtain ⟨v, hv, hn''⟩ := h' _ u hn'
  exact ⟨v, (ans_bind_ok hu).trans hv, by rwa [← BitVec.or_assoc]⟩

/-- An operation that raises no flag, then another. -/
theorem bind' {f : α → M β} {b : β} (h : Reads s m a 0) (h' : Reads s (f a) b g) : Reads s (m >>= f) b g := by
  have := h.bind h'
  rwa [none_or_flags] at this

theorem flags (g : Fl) : Reads s (raiseFlags g) ⟨⟩ g := fun fl t h => by
  refine ⟨t.withSys fun y => { y with fpst := y.fpst ||| g }, rfl, h.step rfl rfl rfl fun q => h.calm.queue⟩

/-- Flags are raised, then a value is answered. -/
theorem flagged (g : Fl) (a : α) : Reads s (do raiseFlags g; return a) a g := by
  have h := (Reads.flags (s := s) g).bind (f := fun _ => Pure.pure a) (.pure a)
  rwa [flags_or_none] at h

theorem orFlags_cons (g : Fl) (l : List Fl) : orFlags (g :: l) = g ||| orFlags l := by
  have h : ∀ (l : List Fl) (x : Fl), l.foldl (· ||| ·) x = x ||| orFlags l := fun l => by
    induction l with
    | nil => intro x; simp [orFlags]
    | cons y l ih => intro x; rw [orFlags, List.foldl_cons, List.foldl_cons, ih, ih (0 ||| y), none_or_flags, BitVec.or_assoc]
  rw [orFlags, List.foldl_cons, h, none_or_flags]

theorem mapM {γ : Type} {f : γ → M β} {b : γ → β} {g : γ → Fl} : ∀ {l : List γ}, (∀ x ∈ l, Reads s (f x) (b x) (g x)) →
    Reads s (l.mapM f) (l.map b) (orFlags (l.map g))
  | [], _ => by
    rw [List.mapM_nil]
    exact Reads.pure []
  | x :: l, h => by
    rw [List.mapM_cons, List.map_cons, List.map_cons, orFlags_cons]
    refine (h x List.mem_cons_self).bind ?_
    have hl := mapM (l := l) fun y hy => h y (List.mem_cons_of_mem x hy)
    have := hl.bind (f := fun bs => Pure.pure (b x :: bs)) (Reads.pure (b x :: l.map b))
    rwa [flags_or_none] at this

end Reads

end Sys2Proof.Machine

end

section

namespace Sys2Proof.Machine

/-! ## The access queues of the tile engine (R414, R418, R419) -/

/-- Setting the marks that a leaf has changes nothing. -/
theorem marks_or {leaf : Word} {write : Bool} (hA : leaf.getLsbD 3 = true) (hD : leafW leaf = true → leaf.getLsbD 4 = true) :
    leaf.toNat ||| (8 + if write && leafW leaf then 16 else 0) = leaf.toNat := by
  split
  case isTrue hw =>
    exact (Nat.lor_assoc leaf.toNat (2 ^ 3) (2 ^ 4)).symm.trans (by rw [lor_two_pow hA, lor_two_pow (hD (Bool.and_eq_true_iff.1 hw).2)])
  case isFalse => exact lor_two_pow hA

theorem markedLeaf_self {leaf : Word} (write : Bool) (hA : leaf.getLsbD 3 = true) (hD : leafW leaf = true → leaf.getLsbD 4 = true) :
    markedLeaf leaf write = leaf := by
  unfold markedLeaf
  rw [marks_or hA hD]
  exact (BitVec.ofNat_toNat 64 leaf).trans (BitVec.setWidth_eq leaf)

/-- What a walk enters in an access queue is what the tables give the whole page. -/
theorem Calm.newPage {s : State} (h : Calm s) {va va' leaf : Word} (write : Bool) (unit : Nat) (hm : s.Maps s.cur.pool.ctx va leaf)
    (hc : (⟨unit, s.cur.pool.ctx, BitVec.ofNat 64 (pageOf leaf va), markedLeaf leaf write⟩ : Cached).covers s.cur.pool.ctx va' = true) :
    s.Maps s.cur.pool.ctx va' (markedLeaf leaf write) := by
  rw [markedLeaf_self write (h.marked hm).1 (h.marked hm).2] at hc ⊢
  have hp : pageOf leaf va < 2 ^ 64 := (Nat.div_mul_le_self ..).trans_lt va.isLt
  have hpage := of_decide_eq_true (Bool.and_eq_true_iff.1 hc).2
  rw [BitVec.toNat_ofNat, Nat.mod_eq_of_lt hp] at hpage
  exact h.whole va va' leaf hm hpage.symm

namespace Near

variable {s t : State} {fl : Fl}

/-- A walk of a page that is marked leaves HBM, and no queue. -/
theorem walked (h : Near s fl t) {va leaf : Word} {a : Nat} (hl : t.lookup t.cur.pool.ctx va = .ok (leaf, a)) (die : Nat)
    (core : Option Nat) (write : Bool) : Near s fl (t.walked die core false t.cur.pool.ctx va leaf a write) := by
  have hmark := h.calm.marked ⟨a, hl⟩
  have hread := read_walked_marked h.calm.wf (write := write) hl hmark.1 (fun _ => hmark.2) die core false
  have hwf : Memory.wf (t.walked die core false t.cur.pool.ctx va leaf a write).hbm = true := by
    rw [walked_hbm]
    exact wf_setNum _ _ _ _ h.calm.wf
  have hm := mem_ext hwf h.calm.wf hread
  obtain ⟨m, r, x, y, z, hu⟩ := walked_frame t die core false t.cur.pool.ctx va leaf a write
  rw [hu] at hm ⊢
  exact h.step' (.of_unflagged rfl) hm rfl rfl

/-- An access queue takes up its page registers. -/
theorem setPageRegs (h : Near s fl t) {q : AccessQueue} (hq : QueueCurrent t q) : Near s fl (t.setPageRegs q) := by
  have hw : Worked t 0 (t.setPageRegs q) := Worked.of_unflagged rfl
  have h' := h.step hw rfl rfl fun x hx => by
    rcases List.mem_cons.1 hx with rfl | hx
    · exact hq
    · exact h.calm.queue (List.mem_filter.1 hx).1
  rwa [flags_or_none] at h'

theorem pageRegs (h : Near s fl t) (unit role : Nat) : QueueCurrent t (t.pageRegs unit role) := by
  unfold State.pageRegs
  cases hf : t.accessQs.find? fun q => q.unit == unit && q.role == role with
  | none => intro c va hc; rcases hc with hc | hc <;> cases hc
  | some q => exact h.calm.queue (List.mem_of_find?_eq_some hf)

/-- Filling the next-page register ahead of the stream leaves what the queue holds current. -/
theorem fillAhead (h : Near s fl t) {q : AccessQueue} (hq : QueueCurrent t q) {c : Cached} (hc : c.ctx = t.cur.pool.ctx) (va : Word) (pfd : Nat)
    (write : Bool) : Near s fl (t.fillAhead q c va pfd write).1 ∧ QueueCurrent (t.fillAhead q c va pfd write).1 (t.fillAhead q c va pfd write).2 := by
  unfold State.fillAhead
  dsimp only
  split
  · exact ⟨h, hq⟩
  rw [hc]
  split
  next => exact ⟨h, hq⟩
  next leaf a hl =>
    have hn := h.walked hl t.cur.pool.die.toNat (if q.unit < 192 then some q.unit else none) write
    refine ⟨hn, fun x va' hx hcov => ?_⟩
    have hctx : (t.walked t.cur.pool.die.toNat (if q.unit < 192 then some q.unit else none) false t.cur.pool.ctx
        (BitVec.ofNat 64 (c.page.toNat + pageBytes (leafSz c.leaf))) leaf a write).cur.pool.ctx = t.cur.pool.ctx := by
      rw [hn.worked.pool, h.worked.pool]
    rw [hctx] at hcov ⊢
    refine (maps_congr (fun va => (hn.lookup _ va).trans (h.lookup _ va).symm) va' x.leaf).2 ?_
    rcases hx with hx | hx
    · exact hq x va' (.inl hx) hcov
    · obtain rfl := Option.some_injective _ hx
      exact h.calm.newPage write q.unit ⟨a, hl⟩ hcov

end Near

/-- A fault of an access of the matrix engine names its access queue, and no access that has taken bytes early (R382, R418). -/
structure ByQueue (s : State) (f : FaultInfo) : Prop where
  queue : ∃ unit role pfd, f.queue = some (unit, role, pfd)
  reads : s.cur.readsOf f = []

theorem ByQueue.role {s : State} {f : FaultInfo} (h : ByQueue s f) (r : Nat) : ByQueue s (f.role r) := by
  obtain ⟨unit, role, pfd, hq⟩ := h.queue
  refine ⟨⟨unit, if 192 ≤ unit ∧ r = 4 then 0 else r, pfd, by unfold FaultInfo.role; rw [hq]; rfl⟩, ?_⟩
  have hr := h.reads
  unfold Task.readsOf at hr ⊢
  have hs : (f.role r).queue.isSome = f.queue.isSome := by unfold FaultInfo.role; rw [hq]; rfl
  rw [hs]
  exact hr

theorem ByQueue.write {s : State} {f : FaultInfo} (h : ByQueue s f) (b : Bool) : ByQueue s { f with write := b } := ⟨h.queue, h.reads⟩

section
variable {s : State} {f : FaultInfo} {va leaf : Word}

theorem covers_ctx {c : Cached} {n : Nat} (h : c.covers n va = true) : c.ctx = n := by simpa using (Bool.and_eq_true_iff.1 h).1

/-- A stream that comes to a page that its queue does not hold walks. -/
theorem reads_plainWalk (f : FaultInfo) (hm : s.Maps s.cur.pool.ctx va leaf) (write : Bool) : Reads s (plainWalk f va write) leaf 0 := by
  intro fl t h
  obtain ⟨a, hl⟩ := h.maps hm
  unfold plainWalk
  rw [ans_bind_ok (ans_get t)]
  dsimp only
  rw [inTransit_nil h.calm.transit, xlate_of_lookup h.calm.launches hl]
  refine ⟨_, ans_bind_ok (ans_walkTurn h.calm.walks va write false _), ?_⟩
  rw [flags_or_none]
  exact h.walked hl ..

/-- An access queue translates an address as the tables do. -/
theorem reads_queueWalk (f : FaultInfo) (unit role pfd : Nat) (hm : s.Maps s.cur.pool.ctx va leaf) (write : Bool) :
    Reads s (queueWalk f unit role pfd va write) leaf 0 := by
  intro fl t h
  have hmt := h.maps hm
  have hq := h.pageRegs unit role
  unfold queueWalk
  rw [ans_bind_ok (ans_get t)]
  dsimp only
  split
  next _ c hcur =>
    obtain ⟨hc, hcov⟩ := Option.filter_eq_some_iff.1 hcur
    obtain rfl := Maps.unique hmt (hq c va (.inl hc) hcov)
    obtain ⟨hn, hqn⟩ := h.fillAhead hq (covers_ctx hcov) va pfd write
    exact ⟨_, rfl, (hn.setPageRegs hqn).plus⟩
  next c hcur hnext =>
    obtain ⟨hc, hcov⟩ := Option.filter_eq_some_iff.1 hnext
    obtain rfl := Maps.unique hmt (hq c va (.inr hc) hcov)
    have hq' : QueueCurrent t { t.pageRegs unit role with cur := some c, next := none } := fun x va' hx => by
      rcases hx with hx | hx
      · obtain rfl := Option.some_injective _ hx
        exact hq c va' (.inr hc)
      · cases hx
    obtain ⟨hn, hqn⟩ := h.fillAhead hq' (covers_ctx hcov) va pfd write
    exact ⟨_, rfl, (hn.setPageRegs hqn).plus⟩
  next hcur hnext =>
    obtain ⟨u, hu, hnu⟩ := reads_plainWalk f hm write fl t h
    rw [flags_or_none] at hnu ⊢
    obtain ⟨a, hl⟩ := hmt
    rw [ans_bind_ok hu, xlate_of_lookup h.calm.launches hl]
    have hpool : u.cur.pool = t.cur.pool := hnu.worked.pool.trans h.worked.pool.symm
    have hmu : u.Maps u.cur.pool.ctx va leaf := hnu.maps hm
    have hq' : QueueCurrent u { t.pageRegs unit role with
        cur := some ⟨unit, t.cur.pool.ctx, BitVec.ofNat 64 (pageOf leaf va), markedLeaf leaf write⟩, next := none } := fun x va' hx hcov => by
      rcases hx with hx | hx
      · obtain rfl := Option.some_injective _ hx
        rw [← hpool] at hcov
        exact hnu.calm.newPage write unit hmu hcov
      · cases hx
    obtain ⟨hn, hqn⟩ := hnu.fillAhead hq' (c := ⟨unit, t.cur.pool.ctx, BitVec.ofNat 64 (pageOf leaf va), markedLeaf leaf write⟩)
      (by rw [hpool]) va pfd write
    exact ⟨_, rfl, hn.setPageRegs hqn⟩

/-- An access of the matrix engine to a page of this module is translated as the tables say. -/
theorem reads_walkFor (hf : ByQueue s f) (hm : s.Maps s.cur.pool.ctx va leaf) (hlocal : localHbm leaf = true) (write : Bool) :
    Reads s (walkFor f va write) leaf 0 := by
  obtain ⟨unit, role, pfd, hq⟩ := hf.queue
  have hap : leafAp leaf = 0 := by simpa using (Bool.and_eq_true_iff.1 hlocal).1
  unfold walkFor
  rw [hq]
  refine (reads_queueWalk f unit role pfd hm write).bind' fun fl t h => ⟨t, ?_, h.plus⟩
  rw [ans_bind_ok (ans_theTask t)]
  rw [if_neg (by simp [hap])]
  rfl

end

end Sys2Proof.Machine

end

section

namespace Sys2Proof.Machine

/-! ## The bits of an element (R4, R128, R193) -/

theorem testBit_leNat : ∀ (bs : List Byte) (i : Nat), (leNat bs).testBit i = (bs.getD (i / 8) 0).getLsbD (i % 8)
  | [], i => by simp [leNat]
  | b :: r, i => by
    have h : leNat (b :: r) = 2 ^ 8 * leNat r + b.toNat := by rw [leNat]; omega
    rw [h, Nat.testBit_two_pow_mul_add _ b.isLt]
    split
    case isTrue hi => rw [Nat.div_eq_of_lt hi, Nat.mod_eq_of_lt hi]; rfl
    case isFalse hi =>
      have hd : i / 8 = (i - 8) / 8 + 1 := by omega
      have hm : i % 8 = (i - 8) % 8 := by omega
      rw [testBit_leNat r, hd, hm, List.getD_cons_succ]

/-- The bits of the bytes of a number. -/
theorem getLsbD_leBytes {n x i k : Nat} (hi : i < n) (hk : k < 8) : ((leBytes n x).getD i 0).getLsbD k = x.testBit (8 * i + k) := by
  have h := testBit_leNat (leBytes n x) (8 * i + k)
  have hp : 256 ^ n = 2 ^ (8 * n) := by rw [show 256 = 2 ^ 8 from rfl, ← pow_mul]
  rw [leNat_leBytes, hp, Nat.testBit_mod_two_pow, decide_eq_true (by omega), Bool.true_and, show (8 * i + k) / 8 = i by omega,
    show (8 * i + k) % 8 = k by omega] at h
  exact h.symm

theorem testBit_elemBits {w y : Nat} (e : Elem) (bs : List Byte) (hy : y < w) :
    (elemBits w e bs).testBit y = (leNat bs).testBit (w * e.sub + y) := by
  rw [elemBits, Nat.testBit_mod_two_pow, decide_eq_true hy, Bool.true_and, Nat.testBit_div_two_pow, Nat.add_comm]

theorem elemBits_lt (w : Nat) (e : Elem) (bs : List Byte) : elemBits w e bs < 2 ^ w := Nat.mod_lt _ (Nat.two_pow_pos w)

theorem length_elemSet (w : Nat) (e : Elem) (bs : List Byte) (x : Nat) : (elemSet w e bs x).length = bs.length := length_leBytes ..

/-- An element's bits replaced: the others stay. -/
theorem getLsbD_elemSet {w x i k : Nat} (e : Elem) {bs : List Byte} (hi : i < bs.length) (hk : k < 8) :
    ((elemSet w e bs x).getD i 0).getLsbD k =
      if w * e.sub ≤ 8 * i + k ∧ 8 * i + k < w * e.sub + w then x.testBit (8 * i + k - w * e.sub) else (bs.getD i 0).getLsbD k := by
  generalize ho : w * e.sub = o
  have hold : (bs.getD i 0).getLsbD k = (leNat bs).testBit (8 * i + k) := by
    rw [testBit_leNat, show (8 * i + k) / 8 = i by omega, show (8 * i + k) % 8 = k by omega]
  rw [elemSet, getLsbD_leBytes hi hk, hold, elemBits, ho]
  generalize 8 * i + k = p
  generalize leNat bs = n
  have hsplit : n = 2 ^ o * (2 ^ w * (n / 2 ^ o / 2 ^ w) + n / 2 ^ o % 2 ^ w) + n % 2 ^ o := by
    rw [Nat.div_add_mod, Nat.div_add_mod]
  have hnew : n - n / 2 ^ o % 2 ^ w * 2 ^ o + x % 2 ^ w * 2 ^ o = 2 ^ o * (2 ^ w * (n / 2 ^ o / 2 ^ w) + x % 2 ^ w) + n % 2 ^ o := by
    rw [Nat.mul_add, Nat.mul_comm _ (2 ^ o), Nat.mul_comm _ (2 ^ o)]
    rw [Nat.mul_add] at hsplit
    omega
  rw [hnew, Nat.testBit_two_pow_mul_add _ (Nat.mod_lt _ (Nat.two_pow_pos o)),
    Nat.testBit_two_pow_mul_add _ (Nat.mod_lt _ (Nat.two_pow_pos w)), Nat.testBit_mod_two_pow, Nat.testBit_mod_two_pow,
    Nat.testBit_div_two_pow, Nat.testBit_div_two_pow]
  by_cases h1 : p < o
  · rw [if_pos h1, if_neg (by omega), decide_eq_true h1, Bool.true_and]
  · by_cases h2 : p - o < w
    · rw [if_neg h1, if_pos h2, if_pos (by omega), decide_eq_true h2, Bool.true_and]
    · rw [if_neg h1, if_neg h2, if_neg (by omega), show p - o - w + w + o = p by omega]

/-! ## Where the elements of a tile lie (R128, R129, R147) -/

/-- The place of an element within the bytes that hold it. -/
def elemSub (w j : Nat) : Nat := if w = 4 then j % 2 else if w = 6 then j % 4 else 0

/-- The widths that elements have (R130). -/
def WidthOk (w : Nat) : Prop := w = 4 ∨ w = 6 ∨ w = 8 ∨ w = 16 ∨ w = 32

theorem widthOk_bits (f : Fmt) : WidthOk f.bits := by cases f <;> simp [WidthOk, Fmt.bits]

/-- The bits before an element: the bytes before those that hold it, and those before it there. -/
theorem bits_before {w : Nat} (h : WidthOk w) (j : Nat) : 8 * (if w = 6 then j / 4 * 3 else w * j / 8) + w * elemSub w j = w * j := by
  unfold elemSub
  rcases h with rfl | rfl | rfl | rfl | rfl <;> simp <;> omega

theorem elemSub_room {w : Nat} (h : WidthOk w) (j : Nat) : w * elemSub w j + w ≤ 8 * elemBytes w := by
  unfold elemSub elemBytes
  rcases h with rfl | rfl | rfl | rfl | rfl <;> simp <;> omega

theorem elemBytes_eq_holder {w : Nat} (h : WidthOk w) : elemBytes w = holder w := by rcases h with rfl | rfl | rfl | rfl | rfl <;> rfl

theorem elemAligned_iff {w : Nat} (h : WidthOk w) (va : Word) : elemAligned w va = true ↔ va.toNat % alignUnit w = 0 := by
  rcases h with rfl | rfl | rfl | rfl | rfl <;> simp [elemAligned, alignUnit, Nat.mod_one]

theorem elemAt_eq {w : Nat} (h : WidthOk w) (d : Desc) (i j : Nat) : elemAt w (rowOf d i) j = ⟨holderOf d w i j, elemSub w j⟩ := by
  unfold elemAt holderOf elemSub
  rcases h with rfl | rfl | rfl | rfl | rfl
  · rw [if_pos rfl, if_pos rfl, if_neg (by decide), show 4 * j / 8 = j / 2 by omega]
  · rfl
  all_goals
    rw [if_neg (by decide), if_neg (by decide), if_neg (by decide), if_neg (by decide), if_neg (by decide)]
    refine congrArg (fun n => (⟨rowOf d i + BitVec.ofNat 64 n, 0⟩ : Elem)) ?_
    omega

end Sys2Proof.Machine

end

section

namespace Sys2Proof.Machine

/-! ## The elements of a tile, read (R128, R132, R147) -/

/-- The place in HBM of the bytes that hold an element. -/
def elemAddr (d : Desc) (w : Nat) (L : Nat → Nat → Word) (i j : Nat) : Nat :=
  leafPfn (L i j) * 4096 + (holderOf d w i j).toNat % pageBytes (leafSz (L i j))

section
variable {s : State} {d : Desc} {w : Nat} {f : Fmt} {L : Nat → Nat → Word} {wr : Bool} {i j : Nat}

/-- An element of a tile, as TileOk has it. -/
structure ElemOk (s : State) (d : Desc) (w : Nat) (f : Fmt) (leaf : Word) (wr : Bool) (i j : Nat) : Prop where
  maps : s.Maps s.cur.pool.ctx (holderOf d w i j) leaf
  isLocal : localHbm leaf = true
  plain : leafDlt leaf = false
  unscaled : leafBg leaf = 0
  format : Fmt.ofCode (leafFmt leaf) = some f
  width : f.bits = w
  writable : wr = true → leafW leaf = true
  aligned : (holderOf d w i j).toNat % alignUnit w = 0
  within : (holderOf d w i j).toNat % pageBytes (leafSz leaf) + holder w ≤ pageBytes (leafSz leaf)

theorem elemOk_of_tileOk (h : TileOk s d w f L wr) (hi : i < d.rows.toNat) (hj : j < d.cols.toNat) : ElemOk s d w f (L i j) wr i j := by
  obtain ⟨hm, hl, hd, hb, hf, hw, -, hwr, ha, hp⟩ := h i j hi hj
  exact ⟨hm, hl, hd, hb, hf, hw, fun h => (hwr h).1, ha, hp⟩

namespace ElemOk

variable {leaf : Word}

theorem widthOk (h : ElemOk s d w f leaf wr i j) : WidthOk w := h.width ▸ widthOk_bits f

theorem leafFormat_eq (h : ElemOk s d w f leaf wr i j) : leafFormat leaf = f := by rw [leafFormat, h.format]; rfl

theorem good (h : ElemOk s d w f leaf wr i j) : GoodLeaf leaf := by
  obtain ⟨pa, hl⟩ := h.maps
  exact (State.lookup_ok hl).1

theorem ap (h : ElemOk s d w f leaf wr i j) : leafAp leaf = 0 := by simpa using (Bool.and_eq_true_iff.1 h.isLocal).1

/-- The bytes that hold an element stand in HBM. -/
theorem place (h : ElemOk s d w f leaf wr i j) (cluster : Nat) : placeOf leaf (holderOf d w i j) cluster =
    (.hbm, leafPfn leaf * 4096 + (holderOf d w i j).toNat % pageBytes (leafSz leaf)) := by
  have hlow : leafPfn leaf * 4096 < csramBase := of_decide_eq_true (Bool.and_eq_true_iff.1 h.isLocal).2
  have hb := h.good.page_below h.ap hlow
  have hlt := Nat.mod_lt (holderOf d w i j).toNat (pageBytes_pos (leafSz leaf))
  simp only [placeOf, h.ap]
  rw [if_pos ((Nat.add_lt_add_left hlt _).trans_le hb)]

/-- Bit x of an element stands in the bytes that hold it. -/
theorem bitPlace (h : ElemOk s d w f leaf wr i j) {x : Nat} (hx : x < w) (cluster : Nat) :
    placeOf leaf (rowOf d i + BitVec.ofNat 64 ((w * j + x) / 8)) cluster =
      (.hbm, leafPfn leaf * 4096 + (holderOf d w i j).toNat % pageBytes (leafSz leaf) + (w * elemSub w j + x) / 8) := by
  have hoff := bits_before h.widthOk j
  have hroom := elemSub_room h.widthOk j
  have hbytes := elemBytes_eq_holder h.widthOk
  have hin := h.within
  have hsmall : (w * elemSub w j + x) / 8 < holder w := by omega
  have hbig : holder w < 2 ^ 64 := by rcases h.widthOk with rfl | rfl | rfl | rfl | rfl <;> decide
  have hto : (BitVec.ofNat 64 ((w * elemSub w j + x) / 8)).toNat = (w * elemSub w j + x) / 8 := by
    rw [BitVec.toNat_ofNat]
    exact Nat.mod_eq_of_lt (hsmall.trans hbig)
  have hva : rowOf d i + BitVec.ofNat 64 ((w * j + x) / 8) = holderOf d w i j + BitVec.ofNat 64 ((w * elemSub w j + x) / 8) := by
    rw [holderOf, BitVec.add_assoc, ← BitVec.ofNat_add]
    congr 2
    omega
  have := placeOf_add h.good (h.place cluster) (off := BitVec.ofNat 64 ((w * elemSub w j + x) / 8)) (by rw [hto]; omega)
  rw [hva, this, hto]

theorem bitShift (h : ElemOk s d w f leaf wr i j) (x : Nat) : (w * j + x) % 8 = (w * elemSub w j + x) % 8 := by
  have := bits_before h.widthOk j
  omega

/-- The bits of a page that an element's bits are. -/
theorem bitAt_eq (h : ElemOk s d w f leaf wr i j) {x : Nat} (hx : x < w) (t : State) : bitAt t leaf (rowOf d i) (w * j + x) =
    (Mem.read t.hbm (leafPfn leaf * 4096 + (holderOf d w i j).toNat % pageBytes (leafSz leaf) + (w * elemSub w j + x) / 8)).getLsbD
      ((w * elemSub w j + x) % 8) := by
  rw [bitAt, byteAt, h.bitPlace hx, h.bitShift]
  rfl

/-- The bits that an element's bytes hold are its bits. -/
theorem elemBits_eq (h : ElemOk s d w f leaf wr i j) {t : State} {x : Nat} (hx : HoldsBits t leaf (rowOf d i) (w * j) w x) :
    elemBits w ⟨holderOf d w i j, elemSub w j⟩
      (Mem.readN t.hbm (leafPfn leaf * 4096 + (holderOf d w i j).toNat % pageBytes (leafSz leaf)) (elemBytes w)) = x := by
  refine Nat.eq_of_testBit_eq fun y => ?_
  by_cases hy : y < w
  · have hroom := elemSub_room h.widthOk j
    rw [testBit_elemBits _ _ hy, testBit_leNat, getD_readN _ _ _ _ _ (by dsimp only; omega), hx.2 y hy, h.bitAt_eq hy]
  · have hp := Nat.pow_le_pow_right (n := 2) (by decide) (Nat.le_of_not_lt hy)
    rw [Nat.testBit_lt_two_pow ((elemBits_lt ..).trans_le hp), Nat.testBit_lt_two_pow (hx.1.trans_le hp)]

end ElemOk

end

section
variable {s : State} {g : FaultInfo} {d : Desc} {w : Nat} {f : Fmt} {leaf : Word} {wr : Bool} {i j : Nat}

/-- The bytes of a page of this module, as memory has them. -/
theorem reads_loadBytes {va : Word} {a n : Nat} (hg : ByQueue s g) (hd : leafDlt leaf = false) (hpl : placeOf leaf va s.cur.cluster = (.hbm, a)) :
    Reads s (loadBytes g leaf va n) (Mem.readN s.hbm a n) 0 := by
  intro fl t h
  refine ⟨t, ?_, h.plus⟩
  have hpo : t.poisonedFor [] .hbm a n = false := by
    unfold State.poisonedFor State.poisoned
    rw [h.calm.poison]
    simp
  have htook : ans (loadTook g .hbm a n) t = (.ok ⟨⟩, t) := by
    obtain ⟨unit, role, pfd, hq⟩ := hg.queue
    unfold loadTook
    rw [if_neg (by simp [hq]), ans_pure]
  unfold loadBytes
  rw [ans_bind_ok (ans_get t), h.worked.cluster, hpl]
  dsimp only
  rw [h.worked.readsOf, hg.reads, hpo, hd, (placeOf_hbm hpl).1, if_neg (by simp), if_neg (by simp), ans_bind_ok htook,
    bytesAt_grounded h.calm.air]
  exact congrArg (fun m => ((Except.ok (Mem.readN m a n) : Except Stop _), t)) h.hbm

theorem elemBytes_le_roomIn (h : ElemOk s d w f leaf wr i j) : elemBytes w ≤ roomIn leaf (holderOf d w i j) := by
  have := h.within
  rw [elemBytes_eq_holder h.widthOk, roomIn]
  omega

/-- The bits of an element. -/
theorem reads_loadElem {x : Nat} (hg : ByQueue s g) (h : ElemOk s d w f leaf wr i j) (hx : HoldsBits s leaf (rowOf d i) (w * j) w x) :
    Reads s (loadElem g leaf ⟨holderOf d w i j, elemSub w j⟩) x 0 := by
  unfold loadElem loadSpan
  rw [h.leafFormat_eq, h.width]
  dsimp only
  rw [if_pos (elemBytes_le_roomIn h)]
  have hr := (reads_loadBytes (n := elemBytes w) hg h.plain (h.place _)).bind'
    (f := fun bs => pure (elemBits w ⟨holderOf d w i j, elemSub w j⟩ bs)) (Reads.pure _)
  rwa [h.elemBits_eq hx] at hr

/-- The page and the place of an element. -/
theorem reads_tileElem (hg : ByQueue s g) (h : ElemOk s d w f leaf wr i j) (write : Bool) :
    Reads s (tileElem g d w i j write) (leaf, ⟨holderOf d w i j, elemSub w j⟩) 0 := by
  have hgeo : geometryOk leaf = true := by simp [geometryOk, h.unscaled]
  have hal : elemAligned w (holderOf d w i j) = true := (elemAligned_iff h.widthOk _).2 h.aligned
  unfold tileElem
  rw [show d.base + BitVec.ofNat 64 i * d.pitch.setWidth 64 = rowOf d i from rfl, elemAt_eq h.widthOk]
  refine (reads_walkFor hg h.maps h.isLocal write).bind' ?_
  simp only [h.leafFormat_eq, h.width, hgeo, hal, ne_eq, not_true_eq_false, decide_false, Bool.not_true, Bool.or_self, Bool.false_eq_true,
    if_false]
  exact Reads.pure _

/-- An element that is read, decoded. -/
theorem reads_readOpnd {x : Nat} (hg : ByQueue s g) (h : ElemOk s d w f leaf wr i j) (hx : HoldsBits s leaf (rowOf d i) (w * j) w x) :
    ∃ o : Opnd, o.v = f.dec x ∧ o.fl = 0 ∧ Reads s (readOpnd g d w i j) o 0 := by
  refine ⟨⟨f.dec x, 0, leafBg leaf == 0 && (leafFormat leaf).int.isSome, holderOf d w i j⟩, rfl, rfl, ?_⟩
  unfold readOpnd
  refine (reads_tileElem hg h false).bind' ?_
  unfold decElem
  dsimp only
  refine Reads.bind' (a := (f.dec x, (0 : Fl))) ((reads_loadElem hg h hx).bind' ?_) (Reads.pure _)
  rw [h.leafFormat_eq, if_pos h.unscaled]
  exact Reads.pure _

/-- The width of a tile's elements. -/
theorem reads_tileWidth {L : Nat → Nat → Word} (hg : ByQueue s g) (h : TileOk s d w f L wr) (hr : 1 ≤ d.rows.toNat) (hc : 1 ≤ d.cols.toNat)
    (write : Bool) : Reads s (tileWidth g d write) w 0 := by
  have he := elemOk_of_tileOk (i := 0) (j := 0) h (by omega) (by omega)
  have hbase : holderOf d w 0 0 = d.base := by
    rcases he.widthOk with rfl | rfl | rfl | rfl | rfl <;> simp [holderOf, rowOf]
  have hm := he.maps
  rw [hbase] at hm
  unfold tileWidth
  refine (reads_walkFor hg hm he.isLocal write).bind' ?_
  rw [he.leafFormat_eq, he.width]
  exact Reads.pure w

/-- A place of a result in a tile that can be written. -/
theorem reads_outElem (hg : ByQueue s g) (h : ElemOk s d w f leaf true i j) :
    Reads s (outElem g d w i j) (leaf, ⟨holderOf d w i j, elemSub w j⟩) 0 := by
  unfold outElem
  refine (reads_tileElem ((hg.write true).role 3) h true).bind' ?_
  have hroom : ¬ roomIn leaf (holderOf d w i j) < elemBytes w := Nat.not_lt.2 (elemBytes_le_roomIn h)
  simp only [h.writable rfl, h.plain, Bool.not_true, Bool.or_self, Bool.false_eq_true, if_false, hroom]
  exact Reads.pure _

/-- A result, encoded under rne for its element. -/
theorem reads_encOut (hg : ByQueue s g) (h : ElemOk s d w f leaf true i j) (y : FV) :
    Reads s (encOut g d w i j y) (⟨leaf, ⟨holderOf d w i j, elemSub w j⟩, (f.enc .rne 0 y).1⟩, (f.enc .rne 0 y).2) 0 := by
  unfold encOut
  refine (reads_outElem hg h).bind' ?_
  dsimp only
  refine Reads.bind' (a := f.enc .rne 0 y) ?_ (Reads.pure _)
  unfold encFor
  rw [h.leafFormat_eq, if_pos h.unscaled]
  exact Reads.pure _

theorem countBytes_counters (s : State) (die tag fn n : Nat) : ∃ c, s.countBytes die tag fn n = { s with counters := c } := by
  unfold State.countBytes State.setCounter
  dsimp only
  split <;> exact ⟨_, rfl⟩

theorem Near.countBytes {t : State} {fl : Fl} (h : Near s fl t) (die tag fn n : Nat) : Near s fl (t.countBytes die tag fn n) := by
  obtain ⟨c, hc⟩ := countBytes_counters t die tag fn n
  rw [hc]
  exact h.step' (.of_unflagged rfl) rfl rfl rfl

/-- What is read counts for tag 0 (R375). -/
theorem reads_countRead (w n : Nat) : Reads s (countRead w n) ⟨⟩ 0 := fun _ _ h => ⟨_, rfl, (h.countBytes ..).plus⟩

end

end Sys2Proof.Machine

end

section

namespace Sys2Proof.Machine

/-! ## An encoding fits its element (R125, R133 to R137) -/

/-- The codes of a floating format lie below its sign, and all its encodings within w bits. -/
structure SpecFits (p : FSpec) (w : Nat) : Prop where
  codes : p.maxCode + p.hasInf.toNat < 2 ^ p.sign
  nan : p.nanCode.getD 0 < 2 ^ w
  width : p.sign < w

theorem fits_spec (f : Fmt) (p : FSpec) (h : f.spec = some p) : SpecFits p f.bits := by
  cases f <;> simp only [Fmt.spec, Option.some.injEq, reduceCtorEq] at h <;> subst h <;> exact ⟨by decide, by decide, by decide⟩

theorem encMag_le (p : FSpec) (mode : Rm) (r num den : Nat) : (p.encMag mode r num den).1 ≤ p.maxCode + p.hasInf.toNat := by
  unfold FSpec.encMag
  split
  · exact Nat.zero_le _
  extract_lets emin e q
  generalize roundAt mode r num den q = x
  obtain ⟨n, exact⟩ := x
  dsimp only
  generalize (if n < 2 ^ p.m then n else _) = code
  split
  · cases p.hasInf
    · exact Nat.le_refl _
    · dsimp only
      split <;> simp
  · split <;> (dsimp only; omega)

theorem SpecFits.enc_lt {p : FSpec} {w : Nat} (h : SpecFits p w) (mode : Rm) (r : Nat) (y : FV) : (p.enc mode r y).1 < 2 ^ w := by
  have hcodes := h.codes
  have hsign : 2 ^ p.sign + 2 ^ p.sign ≤ 2 ^ w := by
    rw [← Nat.two_mul, ← pow_succ']
    exact Nat.pow_le_pow_right (by decide) h.width
  have hs (neg : Bool) : (if neg then 2 ^ p.sign else 0) ≤ 2 ^ p.sign := by split <;> omega
  unfold FSpec.enc
  cases y with
  | nan =>
    have hn := h.nan
    cases hc : p.nanCode with
    | none => exact Nat.two_pow_pos w
    | some c => rwa [hc] at hn
  | inf neg =>
    have := hs neg
    cases hi : p.hasInf <;> simp only [hi, Bool.toNat_true, Bool.toNat_false, Bool.false_eq_true, if_false, if_true] at hcodes ⊢ <;> omega
  | fin neg num den =>
    have := hs neg
    have := encMag_le p mode r num den
    dsimp only
    omega

theorem encInt_lt (signed : Bool) (w : Nat) (mode : Rm) (r : Nat) (y : FV) : (encInt signed w mode r y).1 < 2 ^ w := by
  have hcode (i : Int) : (i % (2 ^ w : Int)).toNat < 2 ^ w := by
    have h1 := Int.emod_lt_of_pos i (show (0 : Int) < 2 ^ w by positivity)
    have h0 := Int.emod_nonneg i (show (2 ^ w : Int) ≠ 0 by positivity)
    zify
    rwa [Int.toNat_of_nonneg h0]
  unfold encInt
  cases y with
  | nan => exact Nat.two_pow_pos w
  | inf neg => exact hcode _
  | fin neg num den =>
    dsimp only
    split_ifs <;> (dsimp only; exact hcode _)

theorem encE8m0_lt (mode : Rm) (r : Nat) (y : FV) : (encE8m0 mode r y).1 < 2 ^ 8 := by
  unfold encE8m0
  cases y with
  | nan => exact (by decide : 255 < 2 ^ 8)
  | inf neg =>
    cases neg
    · exact (by decide : 254 < 2 ^ 8)
    · exact (by decide : 255 < 2 ^ 8)
  | fin neg num den =>
    dsimp only
    generalize (match mode with | .rz => false | .rne => _ | .rs => (_ : Bool)) = up
    split_ifs <;> (dsimp only; omega)

theorem enc_lt (f : Fmt) (mode : Rm) (r : Nat) (y : FV) : (f.enc mode r y).1 < 2 ^ f.bits := by
  unfold Fmt.enc
  cases hs : f.spec with
  | some p => exact (fits_spec f p hs).enc_lt mode r y
  | none =>
    cases hi : f.int with
    | some x =>
      have hw : x.2 = f.bits := by cases f <;> simp only [Fmt.int, Option.some.injEq, reduceCtorEq] at hi <;> subst hi <;> rfl
      exact hw ▸ encInt_lt ..
    | none =>
      have hf : f.bits = 8 := by cases f <;> simp only [Fmt.int, Fmt.spec, reduceCtorEq] at hi hs; rfl
      exact hf ▸ encE8m0_lt ..

end Sys2Proof.Machine

end

section

namespace Sys2Proof.Machine

/-! ## The elements of a tile, written (R165, R179, R193) -/

/-- Between two memories some elements of a tile have taken their values, and every other bit is as it was. -/
structure PartWritten (s : State) (d : Desc) (w : Nat) (L : Nat → Nat → Word) (v : Nat → Nat → Nat) (P : Nat → Nat → Prop) (m m' : Mem) :
    Prop where
  bits : ∀ i j x a k, P i j → TileBit s d w L i j x a k → (Mem.read m' a).getLsbD k = (v i j).testBit x
  rest : ∀ a k, (∀ i j x, P i j → ¬ TileBit s d w L i j x a k) → (Mem.read m' a).getLsbD k = (Mem.read m a).getLsbD k

section
variable {s t : State} {d : Desc} {w : Nat} {f : Fmt} {L : Nat → Nat → Word} {v : Nat → Nat → Nat} {P Q : Nat → Nat → Prop}
  {m m' m'' : Mem} {wr : Bool} {i j x a k : Nat} {fl : Fl}

theorem tileBit_congr (h : t.cur.cluster = s.cur.cluster) (d : Desc) (w : Nat) (L : Nat → Nat → Word) (i j x a k : Nat) :
    TileBit t d w L i j x a k ↔ TileBit s d w L i j x a k := by
  unfold TileBit
  rw [h]

/-- The bits of an element are those of the bytes that hold it, from its place there on. -/
theorem tileBit_iff (h : ElemOk s d w f (L i j) wr i j) (hi : i < d.rows.toNat) (hj : j < d.cols.toNat) : TileBit s d w L i j x a k ↔
    x < w ∧ a = elemAddr d w L i j + (w * elemSub w j + x) / 8 ∧ k = (w * elemSub w j + x) % 8 := by
  unfold TileBit elemAddr
  constructor
  · rintro ⟨-, -, hx, hp, rfl⟩
    rw [h.bitPlace hx] at hp
    exact ⟨hx, (Prod.mk.inj hp).2.symm, h.bitShift x⟩
  · rintro ⟨hx, rfl, rfl⟩
    exact ⟨hi, hj, hx, h.bitPlace hx _, (h.bitShift x).symm⟩

theorem PartWritten.refl (m : Mem) : PartWritten s d w L v (fun _ _ => False) m m := ⟨fun _ _ _ _ _ h => h.elim, fun _ _ _ => rfl⟩

/-- Elements that share no bit are written one after another. -/
theorem PartWritten.trans (hd : ∀ i j b i' j' b' a k, TileBit s d w L i j b a k → TileBit s d w L i' j' b' a k → i = i' ∧ j = j' ∧ b = b')
    (h : PartWritten s d w L v P m m') (h' : PartWritten s d w L v Q m' m'') :
    PartWritten s d w L v (fun i j => P i j ∨ Q i j) m m'' where
  bits i j x a k hp hb := by
    by_cases hq : ∃ i' j' x', Q i' j' ∧ TileBit s d w L i' j' x' a k
    · obtain ⟨i', j', x', hq, hb'⟩ := hq
      obtain ⟨rfl, rfl, rfl⟩ := hd _ _ _ _ _ _ _ _ hb hb'
      exact h'.bits i j x a k hq hb
    · have hnot : ∀ i' j' x', Q i' j' → ¬ TileBit s d w L i' j' x' a k := fun i' j' x' hq' hb' => hq ⟨i', j', x', hq', hb'⟩
      rw [h'.rest a k hnot]
      exact h.bits i j x a k (hp.resolve_right fun hq' => hnot i j x hq' hb) hb
  rest a k hn := (h'.rest a k fun i j x hq => hn i j x (.inr hq)).trans (h.rest a k fun i j x hp => hn i j x (.inl hp))

theorem PartWritten.congr (h : PartWritten s d w L v P m m') (hPQ : ∀ i j, P i j ↔ Q i j) : PartWritten s d w L v Q m m' where
  bits i j x a k hq := h.bits i j x a k ((hPQ i j).2 hq)
  rest a k hn := h.rest a k fun i j x hp => hn i j x ((hPQ i j).1 hp)

theorem PartWritten.base (h : PartWritten t d w L v P m m') (hc : t.cur.cluster = s.cur.cluster) : PartWritten s d w L v P m m' where
  bits i j x a k hp hb := h.bits i j x a k hp ((tileBit_congr hc ..).2 hb)
  rest a k hn := h.rest a k fun i j x hp hb => hn i j x hp ((tileBit_congr hc ..).1 hb)

/-- A byte that no element has a bit of stays. -/
theorem PartWritten.byte (h : PartWritten s d w L v P m m') (hn : ∀ i j b k, ¬ TileBit s d w L i j b a k) : Mem.read m' a = Mem.read m a :=
  BitVec.eq_of_getLsbD_eq fun k _ => h.rest a k fun i j x _ => hn i j x k

/-- An element that is written holds its value. -/
theorem PartWritten.holds (h : PartWritten s d w L v P m t.hbm) (he : ElemOk s d w f (L i j) wr i j) (hi : i < d.rows.toNat)
    (hj : j < d.cols.toNat) (hp : P i j) (hv : v i j < 2 ^ w) : HoldsBits t (L i j) (rowOf d i) (w * j) w (v i j) := by
  refine ⟨hv, fun x hx => ?_⟩
  rw [he.bitAt_eq hx]
  exact (h.bits i j x _ _ hp ((tileBit_iff he hi hj).2 ⟨hx, rfl, rfl⟩)).symm

/-- The memory after one element's bytes are written, its bits replaced. -/
theorem partWritten_elem (hm : Memory.wf m = true) (he : ElemOk s d w f (L i j) wr i j) (hi : i < d.rows.toNat) (hj : j < d.cols.toNat) :
    PartWritten s d w L v (fun i' j' => i' = i ∧ j' = j) m (Mem.writeN m (elemAddr d w L i j)
      (elemSet w ⟨holderOf d w i j, elemSub w j⟩ (Mem.readN m (elemAddr d w L i j) (elemBytes w)) (v i j))) := by
  have hroom := elemSub_room he.widthOk j
  have hread (a k : Nat) (hk : k < 8) (ha : elemAddr d w L i j ≤ a ∧ a < elemAddr d w L i j + elemBytes w) :
      (Mem.read (Mem.writeN m (elemAddr d w L i j)
        (elemSet w ⟨holderOf d w i j, elemSub w j⟩ (Mem.readN m (elemAddr d w L i j) (elemBytes w)) (v i j))) a).getLsbD k =
      if w * elemSub w j ≤ 8 * (a - elemAddr d w L i j) + k ∧ 8 * (a - elemAddr d w L i j) + k < w * elemSub w j + w then
        (v i j).testBit (8 * (a - elemAddr d w L i j) + k - w * elemSub w j) else (Mem.read m a).getLsbD k := by
    rw [read_writeN _ _ _ _ hm, length_elemSet, length_readN, if_pos ha, getLsbD_elemSet _ (by rw [length_readN]; omega) hk,
      getD_readN _ _ _ _ _ (by omega), Nat.add_sub_cancel' ha.1]
  refine ⟨?_, fun a k hn => ?_⟩
  · rintro i' j' x a k ⟨rfl, rfl⟩ hb
    obtain ⟨hx, rfl, rfl⟩ := (tileBit_iff he hi hj).1 hb
    rw [hread _ _ (Nat.mod_lt _ (by decide)) (by omega), Nat.add_sub_cancel_left, Nat.div_add_mod, if_pos (by omega), Nat.add_sub_cancel_left]
  · by_cases hin : elemAddr d w L i j ≤ a ∧ a < elemAddr d w L i j + elemBytes w
    · by_cases hk : k < 8
      · rw [hread a k hk hin, if_neg]
        rintro ⟨h1, h2⟩
        refine hn i j (8 * (a - elemAddr d w L i j) + k - w * elemSub w j) ⟨rfl, rfl⟩ ((tileBit_iff he hi hj).2 ?_)
        omega
      · rw [BitVec.getLsbD_of_ge _ _ (by omega), BitVec.getLsbD_of_ge _ _ (by omega)]
    · rw [read_writeN _ _ _ _ hm, length_elemSet, length_readN, if_neg hin]

/-- A state that the tile engine has come to when it has written some elements of a tile, and raised some flags. -/
structure Wrote (s : State) (d : Desc) (w : Nat) (L : Nat → Nat → Word) (v : Nat → Nat → Nat) (P : Nat → Nat → Prop) (fl : Fl) (t : State) :
    Prop where
  calm : Calm t
  worked : Worked s fl t
  part : PartWritten s d w L v P s.hbm t.hbm

theorem Wrote.congr (h : Wrote s d w L v P fl t) (hPQ : ∀ i j, P i j ↔ Q i j) : Wrote s d w L v Q fl t :=
  ⟨h.calm, h.worked, h.part.congr hPQ⟩

theorem Near.wrote (h : Near s fl t) : Wrote s d w L v (fun _ _ => False) fl t := ⟨h.calm, h.worked, h.hbm ▸ .refl _⟩

/-- What is written in a tile changes no page table. -/
theorem tables_of_partWritten (hT : TileTarget s d w f L) (hw : Worked s fl t) (hp : PartWritten s d w L v P s.hbm t.hbm) (va : Word) :
    t.lookup s.cur.pool.ctx va = s.lookup s.cur.pool.ctx va := by
  unfold State.lookup
  rw [hw.ctx?]
  cases hc : s.ctx? s.cur.pool.ctx with
  | none => rfl
  | some c => exact hT.2.2 t.hbm c va hc fun a ha => hp.byte ha

end

end Sys2Proof.Machine

end

section

namespace Sys2Proof.Machine

/-! ## The results of a sub-tile are written (R169, R179) -/

/-- A step of a loop over a list. -/
theorem ans_forIn_cons {α : Type} {body : α → M Unit} {x : α} {l : List α} {s t : State} (h : ans (body x) s = (.ok ⟨⟩, t)) :
    ans (forIn (x :: l) PUnit.unit fun x _ => do body x; pure (ForInStep.yield PUnit.unit)) s =
      ans (forIn l PUnit.unit fun x _ => do body x; pure (ForInStep.yield PUnit.unit)) t := by
  rw [List.forIn_cons, bind_assoc, ans_bind_ok h, ans_bind_ok (ans_pure _ t)]

/-- The result for an element: its page, its place and its bits. -/
def putOf (d : Desc) (w : Nat) (L : Nat → Nat → Word) (v : Nat → Nat → Nat) (p : Nat × Nat) : Put :=
  ⟨L p.1 p.2, ⟨holderOf d w p.1 p.2, elemSub w p.2⟩, v p.1 p.2⟩

section
variable {s t : State} {d : Desc} {w : Nat} {f : Fmt} {L : Nat → Nat → Word} {v : Nat → Nat → Nat} {P : Nat → Nat → Prop} {fl : Fl}

/-- The state after bytes are written to HBM, and the write noted. -/
def State.stored (t : State) (a : Nat) (bs : List Byte) : State := (t.hbmWrite a bs).noteWrite .hbm a bs.length

/-- A write of an access to HBM, with nothing in the air. -/
theorem write_hbm_eq (ha : t.air = none) (a : Nat) (bs masks : List Byte) : t.write .hbm a bs masks = t.stored a bs := by
  unfold State.write
  rw [ha]
  rfl

theorem hbmWrite_worked (t : State) (a : Nat) (bs : List Byte) : Worked t 0 (t.hbmWrite a bs) := by
  unfold State.hbmWrite
  split
  · exact .refl t
  · exact .of_unflagged rfl

theorem hbmWrite_accessQs (t : State) (a : Nat) (bs : List Byte) : (t.hbmWrite a bs).accessQs = t.accessQs := by
  unfold State.hbmWrite
  split <;> rfl

theorem hbmWrite_poison (hp : t.poison = []) (a : Nat) (bs : List Byte) : (t.hbmWrite a bs).poison = [] := by
  unfold State.hbmWrite
  split
  · exact hp
  · dsimp only
    rw [hp]
    rfl

theorem stored_hbm (t : State) (a : Nat) (bs : List Byte) : (t.stored a bs).hbm = Mem.writeN t.hbm a bs := hbmWrite_hbm t a bs

theorem stored_worked (t : State) (a : Nat) (bs : List Byte) : Worked t 0 (t.stored a bs) := by
  have h : Worked (t.hbmWrite a bs) 0 (t.stored a bs) := .of_unflagged rfl
  exact (hbmWrite_worked t a bs).trans h

/-- One element of a tile is stored. -/
theorem wrote_storeElem (g : FaultInfo) (hT : TileTarget s d w f L) (h : Wrote s d w L v P fl t) {i j : Nat} (hi : i < d.rows.toNat)
    (hj : j < d.cols.toNat) : ∃ u, ans (storeElem g (L i j) ⟨holderOf d w i j, elemSub w j⟩ (v i j)) t = (.ok ⟨⟩, u) ∧
      Wrote s d w L v (fun i' j' => P i' j' ∨ (i' = i ∧ j' = j)) fl u := by
  obtain ⟨hok, hdist, htables⟩ := hT
  have he := elemOk_of_tileOk hok hi hj
  have hplace : placeOf (L i j) (holderOf d w i j) t.cur.cluster = (.hbm, elemAddr d w L i j) := he.place _
  generalize hbs : elemSet w ⟨holderOf d w i j, elemSub w j⟩ (Mem.readN t.hbm (elemAddr d w L i j) (elemBytes w)) (v i j) = bs
  have hans : ans (storeElem g (L i j) ⟨holderOf d w i j, elemSub w j⟩ (v i j)) t =
      (.ok ⟨⟩, t.stored (elemAddr d w L i j) bs) := by
    have hraw : ans (rawBytes (L i j) (holderOf d w i j) (elemBytes w)) t =
        (.ok (Mem.readN t.hbm (elemAddr d w L i j) (elemBytes w)), t) := by
      unfold rawBytes
      rw [ans_bind_ok (ans_get t), hplace]
      dsimp only
      rw [bytesAt_grounded h.calm.air]
      rfl
    unfold storeElem
    rw [he.leafFormat_eq, he.width]
    dsimp only
    rw [if_pos (elemBytes_le_roomIn he), ans_bind_ok hraw]
    unfold storeMasked
    rw [ans_modify, h.calm.kept, if_neg (by simp), hplace]
    dsimp only
    rw [hbs, write_hbm_eq h.calm.air]
  have hmem := stored_hbm t (elemAddr d w L i j) bs
  have hwork := stored_worked t (elemAddr d w L i j) bs
  have hpart := h.part.trans hdist (hmem ▸ hbs ▸ partWritten_elem (v := v) h.calm.wf he hi hj)
  have hworked : Worked s fl (t.stored (elemAddr d w L i j) bs) := flags_or_none fl ▸ h.worked.trans hwork
  have htab (va : Word) : (t.stored (elemAddr d w L i j) bs).lookup t.cur.pool.ctx va = t.lookup t.cur.pool.ctx va := by
    rw [h.worked.pool, tables_of_partWritten ⟨hok, hdist, htables⟩ hworked hpart, tables_of_partWritten ⟨hok, hdist, htables⟩ h.worked h.part]
  refine ⟨_, hans, h.calm.of_worked hwork ?_ (hbmWrite_poison h.calm.poison ..) htab fun q hq => h.calm.queue ?_, hworked, hpart⟩
  · rw [hmem]
    exact wf_writeN _ _ _ h.calm.wf
  · have hqs : (t.stored (elemAddr d w L i j) bs).accessQs = t.accessQs := hbmWrite_accessQs ..
    rwa [hqs] at hq

/-- The elements of a list are stored. -/
theorem wrote_stores (g : FaultInfo) (hT : TileTarget s d w f L) (l : List (Nat × Nat)) (hl : ∀ p ∈ l, p.1 < d.rows.toNat ∧ p.2 < d.cols.toNat)
    (h : Wrote s d w L v P fl t) :
    ∃ u, ans (forIn (l.map (putOf d w L v)) PUnit.unit fun p _ => do storeElem g p.leaf p.elem p.bits; pure (ForInStep.yield PUnit.unit)) t =
      (.ok ⟨⟩, u) ∧ Wrote s d w L v (fun i j => P i j ∨ (i, j) ∈ l) fl u := by
  induction l generalizing P t with
  | nil => exact ⟨t, rfl, h.congr fun i j => by simp⟩
  | cons p l ih =>
    obtain ⟨hi, hj⟩ := hl p List.mem_cons_self
    obtain ⟨u, hu, hw⟩ := wrote_storeElem g hT h hi hj
    obtain ⟨u', hu', hw'⟩ := ih (fun q hq => hl q (List.mem_cons_of_mem p hq)) hw
    refine ⟨u', ?_, hw'.congr fun i j => ?_⟩
    · rw [List.map_cons]
      have h1 : ans (storeElem g (putOf d w L v p).leaf (putOf d w L v p).elem (putOf d w L v p).bits) t = (.ok ⟨⟩, u) := hu
      have h2 := ans_forIn_cons (body := fun p : Put => storeElem g p.leaf p.elem p.bits) (l := l.map (putOf d w L v)) h1
      exact h2.trans hu'
    · rw [List.mem_cons, or_assoc]
      exact or_congr_right (or_congr_left (Prod.ext_iff (x := (i, j)) (y := p)).symm)

theorem Wrote.countBytes (h : Wrote s d w L v P fl t) (die tag fn n : Nat) : Wrote s d w L v P fl (t.countBytes die tag fn n) := by
  have hn := (Near.self h.calm).countBytes die tag fn n
  exact ⟨hn.calm, flags_or_none fl ▸ h.worked.trans hn.worked, hn.hbm ▸ h.part⟩

/-- The results of a list of elements are written. -/
theorem wrote_writePuts (g : FaultInfo) (hT : TileTarget s d w f L) {l : List (Nat × Nat)}
    (hl : ∀ p ∈ l, p.1 < d.rows.toNat ∧ p.2 < d.cols.toNat) (h : Near s fl t) :
    ∃ u, ans (writePuts g w (l.map (putOf d w L v))) t = (.ok ⟨⟩, u) ∧ Wrote s d w L v (fun i j => (i, j) ∈ l) fl u := by
  obtain ⟨u, hu, hw⟩ := wrote_stores (v := v) (g.role 3) hT l hl h.wrote
  have hclean : ∀ x, u.cleanElems u.cur.cluster w x = u := fun x => by
    unfold State.cleanElems
    rw [hw.calm.poison]
    rfl
  have hcount := hw.countBytes u.cur.pool.die.toNat 0 (u.fnOf u.cur.pool.ctx) (((l.map (putOf d w L v)).length * w + 7) / 8)
  refine ⟨_, ?_, hcount.congr fun i j => by simp⟩
  unfold writePuts
  rw [ans_bind_ok hu, ans_bind_ok (ans_modify _ u), hw.calm.air]
  rw [Option.isSome_none, if_neg (by simp), hclean, ans_bind_ok (ans_get u)]
  dsimp only
  rw [ans_bind_ok (ans_set u _)]
  exact ans_watchHome hcount.calm.unwatched ..

end

end Sys2Proof.Machine

end

section

namespace Sys2Proof.Machine

/-! ## Sub-tiles (R151, R165, R167) -/

theorem mem_span {lo hi x : Nat} : x ∈ span lo hi ↔ lo ≤ x ∧ x < hi := by
  simp only [span, List.mem_map, List.mem_range]
  exact ⟨fun ⟨a, ha, hx⟩ => by omega, fun h => ⟨x - lo, by omega, by omega⟩⟩

theorem mem_elems {r : Rect} {p : Nat × Nat} : p ∈ r.elems ↔ (r.r0 ≤ p.1 ∧ p.1 < r.r1) ∧ r.c0 ≤ p.2 ∧ p.2 < r.c1 := by
  simp only [Rect.elems, List.mem_flatMap, List.mem_map, mem_span]
  exact ⟨fun ⟨i, hi, j, hj, hp⟩ => hp ▸ ⟨hi, hj⟩, fun ⟨hi, hj⟩ => ⟨p.1, hi, p.2, hj, rfl⟩⟩

/-- Element (i, j) of a tile lies in a sub-tile. -/
def InSub (d : Desc) (sr sc i j : Nat) : Prop := i < d.rows.toNat ∧ j < d.cols.toNat ∧ i / 32 = sr ∧ j / 32 = sc

theorem mem_subRect {d : Desc} {sr sc i j : Nat} : (i, j) ∈ (d.subRect sr sc).elems ↔ InSub d sr sc i j := by
  rw [mem_elems, InSub, Desc.subRect]
  dsimp only
  omega

theorem mem_subTiles_whole {d : Desc} {i j : Nat} (hi : i < d.rows.toNat) (hj : j < d.cols.toNat) : (i / 32, j / 32) ∈ d.subTiles d.whole := by
  unfold Desc.subTiles Desc.whole tilesOf
  dsimp only
  rw [Nat.min_self, Nat.min_self, if_neg (by omega)]
  simp only [List.mem_flatMap, List.mem_map, mem_span]
  exact ⟨i / 32, by omega, j / 32, by omega, rfl⟩

section
variable {s t : State} {d : Desc} {w : Nat} {f : Fmt} {L : Nat → Nat → Word} {v : Nat → Nat → Nat} {P : Nat → Nat → Prop} {fl : Fl}

/-- The results of the elements of a sub-tile, each computed by reads alone, are written. -/
theorem wrote_sub {g : FaultInfo} {sr sc : Nat} {compute : Nat × Nat → M Put} {flags : Nat × Nat → Fl} (hT : TileTarget s d w f L)
    (hc : ∀ p, InSub d sr sc p.1 p.2 → Reads s (compute p) (putOf d w L v p) (flags p)) (h : Near s fl t) :
    ∃ u, ans (do
        let ps ← (d.subRect sr sc).elems.mapM compute
        writePuts g w ps) t = (.ok ⟨⟩, u) ∧
      Wrote s d w L v (InSub d sr sc) (fl ||| orFlags ((d.subRect sr sc).elems.map flags)) u := by
  obtain ⟨u, hu, hn⟩ := Reads.mapM (l := (d.subRect sr sc).elems) (fun p hp => hc p (mem_subRect.1 hp)) fl t h
  obtain ⟨u', hu', hw⟩ := wrote_writePuts (v := v) g hT (l := (d.subRect sr sc).elems)
    (fun p hp => ⟨(mem_subRect.1 hp).1, (mem_subRect.1 hp).2.1⟩) hn
  exact ⟨u', (ans_bind_ok hu).trans hu', hw.congr fun i j => mem_subRect⟩

/-- What is written in a tile is written in the state that follows it. -/
theorem TileOk.later {wr : Bool} (h : TileOk s d w f L wr) (hw : Worked s fl t)
    (hl : ∀ va, t.lookup s.cur.pool.ctx va = s.lookup s.cur.pool.ctx va) : TileOk t d w f L wr := by
  intro i j hi hj
  obtain ⟨hm, hrest⟩ := h i j hi hj
  rw [hw.pool]
  exact ⟨(maps_congr hl _ _).2 hm, hrest⟩

end

end Sys2Proof.Machine

end

section

namespace Sys2Proof.Machine

/-! ## tst of two operands (R165) -/

section
variable {s t : State} {d : Desc} {w : Nat} {f : Fmt} {L : Nat → Nat → Word} {v : Nat → Nat → Nat} {P : Nat → Nat → Prop} {fl : Fl}

/-- A tile that can be written still can once some of it has been. -/
theorem TileTarget.later (h : TileTarget s d w f L) (hw : Worked s fl t) (hp : PartWritten s d w L v P s.hbm t.hbm) : TileTarget t d w f L := by
  have hbit := tileBit_congr hw.cluster d w L
  have hl := tables_of_partWritten h hw hp
  obtain ⟨hok, hdist, htab⟩ := h
  refine ⟨TileOk.later hok hw hl, ?_, fun m c va hc hm => ?_⟩
  · simp only [hbit]
    exact hdist
  · rw [hw.pool, hw.ctx?] at hc
    simp only [hbit] at hm
    rw [htab m c va hc fun a ha => (hm a ha).trans (hp.byte ha), htab t.hbm c va hc fun a ha => hp.byte ha]

/-- What another tile holds stays while its bits are none of those that are written. -/
theorem TileHolds.later {d' : Desc} {w' : Nat} {f' : Fmt} {L' : Nat → Nat → Word} {v' : Nat → Nat → Nat} (h : TileHolds s d' w' f' L' v')
    (hT : TileTarget s d w f L) (hw : Worked s fl t) (hp : PartWritten s d w L v P s.hbm t.hbm)
    (hd : ∀ i j b i' j' b' a k k', TileBit s d w L i j b a k → ¬ TileBit s d' w' L' i' j' b' a k') : TileHolds t d' w' f' L' v' := by
  obtain ⟨hok, hv⟩ := h
  refine ⟨TileOk.later hok hw (tables_of_partWritten hT hw hp), fun i j hi hj => ?_⟩
  obtain ⟨hlt, hbits⟩ := hv i j hi hj
  have he := elemOk_of_tileOk hok hi hj
  refine ⟨hlt, fun x hx => ?_⟩
  rw [hbits x hx, he.bitAt_eq hx, he.bitAt_eq hx]
  exact (hp.rest _ _ fun i' j' x' _ hb => hd i' j' x' i j x _ _ _ hb ((tileBit_iff he hi hj).2 ⟨hx, rfl, rfl⟩)).symm

end

/-- An access for the entry at the head of TIL, which has taken no bytes early. -/
theorem byQueue_of_head {s : State} {e : Entry} {g : FaultInfo} {unit role pfd : Nat} (hhead : (s.cur.queue .til).head? = some e)
    (hreads : e.reads = []) (hs : g.stream = .til) (hn : g.seq = e.num) (hq : g.queue = some (unit, role, pfd)) : ByQueue s g := by
  refine ⟨⟨unit, role, pfd, hq⟩, ?_⟩
  obtain ⟨rest, hrest⟩ := List.head?_eq_some_iff.1 hhead
  unfold Task.readsOf
  rw [hs]
  dsimp only
  rw [hrest, List.find?_cons_of_pos (by simp [hn])]
  exact hreads

theorem ans_settlePath {s : State} (h : s.cur.adrift = []) (p : Path) : ans (settlePath p) s = (.ok ⟨⟩, s) := by
  unfold settlePath
  rw [ans_bind_ok (ans_theTask s), h]
  rfl

theorem ans_keeping {α : Type} {m : M α} {s t : State} {a : α} (h : ans m s = (.ok a, t)) : ans (keeping m) s = (.ok a, t) :=
  ans_tryCatch_ok _ h

section
variable {s : State} {e : Entry} {x y : Desc} {wx wy : Nat} {fx fy : Fmt} {Lx Ly : Nat → Nat → Word} {a : Nat → Nat → Nat}

/-- What tst writes of a source element. -/
def copied (fx fy : Fmt) (a : Nat → Nat → Nat) (i j : Nat) : Nat := (fy.enc .rne 0 (fx.dec (a i j))).1

/-- What a copy of one tile to another needs: nothing is met on the way, the entry is at the head of TIL and has taken nothing early, and
the tiles, of one size, share no bit. -/
structure CopyGoes (s : State) (e : Entry) (x y : Desc) (wx wy : Nat) (fx fy : Fmt) (Lx Ly : Nat → Nat → Word) (a : Nat → Nat → Nat) : Prop where
  calm : Calm s
  head : (s.cur.queue .til).head? = some e
  stream : e.stream = .til
  reads : e.reads = []
  adrift : s.cur.adrift = []
  rows : y.rows = x.rows
  cols : y.cols = x.cols
  rows_pos : 1 ≤ x.rows.toNat
  cols_pos : 1 ≤ x.cols.toNat
  source : TileHolds s x wx fx Lx a
  target : TileTarget s y wy fy Ly
  apart : ∀ i j b i' j' b' a k k', TileBit s y wy Ly i j b a k → ¬ TileBit s x wx Lx i' j' b' a k'

theorem CopyGoes.later {t : State} {P : Nat → Nat → Prop} {v : Nat → Nat → Nat} {fl : Fl} (h : CopyGoes s e x y wx wy fx fy Lx Ly a)
    (hw : Wrote s y wy Ly v P fl t) : CopyGoes t e x y wx wy fx fy Lx Ly a where
  calm := hw.calm
  head := by rw [show t.cur.queue .til = s.cur.queue .til from congrArg (fun q => Vector.get q (Stream.ix .til)) hw.worked.queues]; exact h.head
  stream := h.stream
  reads := h.reads
  adrift := (congrArg (·.cur.adrift) hw.worked).trans h.adrift
  rows := h.rows
  cols := h.cols
  rows_pos := h.rows_pos
  cols_pos := h.cols_pos
  source := TileHolds.later h.source h.target hw.worked hw.part h.apart
  target := TileTarget.later h.target hw.worked hw.part
  apart := by
    simp only [tileBit_congr hw.worked.cluster]
    exact h.apart

/-- One sub-tile of a tile is copied. -/
theorem wrote_copySub (h : CopyGoes s e x y wx wy fx fy Lx Ly a) (sr sc : Nat) :
    ∃ fl t, ans (copySub e x y sr sc) s = (.ok ⟨⟩, t) ∧ Wrote s y wy Ly (copied fx fy a) (InSub y sr sc) fl t := by
  obtain ⟨hok, hv⟩ := h.source
  have hsub : x.subRect sr sc = y.subRect sr sc := by unfold Desc.subRect; rw [h.rows, h.cols]
  unfold copySub
  rw [ans_bind_ok (ans_theTask s), ans_bind_ok (ans_theTask s)]
  generalize hg : ({ e.info with
    thk := match findThunk s.cur.thunks x.thk with
      | some t => if x.state = 0 then 0 else thkWord t sr sc
      | none => 0
    tag := 0, queue := some (s.cur.coreOf.getD 0, 2, e.pfd) } : FaultInfo) = g
  have hby : ByQueue s g := byQueue_of_head h.head h.reads (by rw [← hg]; exact h.stream) (by rw [← hg]; rfl)
    (unit := s.cur.coreOf.getD 0) (role := 2) (pfd := e.pfd) (by rw [← hg])
  rw [ans_bind_ok (ans_settlePath h.adrift .mx)]
  have hwx := reads_tileWidth hby hok h.rows_pos h.cols_pos false
  have hwy := reads_tileWidth (hby.role 3) h.target.1 (h.rows ▸ h.rows_pos) (h.cols ▸ h.cols_pos) true
  have hel : ∀ p, InSub y sr sc p.1 p.2 → Reads s (do
      let o ← readOpnd g x wx p.1 p.2
      let (put, fl) ← encOut g y wy p.1 p.2 o.v
      raiseFlags (fl ||| o.fl)
      return put) (putOf y wy Ly (copied fx fy a) p) (fy.enc .rne 0 (fx.dec (a p.1 p.2))).2 := by
    rintro ⟨i, j⟩ ⟨hi, hj, -⟩
    have hix : i < x.rows.toNat := h.rows ▸ hi
    have hjx : j < x.cols.toNat := h.cols ▸ hj
    obtain ⟨o, hov, hofl, hread⟩ := reads_readOpnd hby (elemOk_of_tileOk hok hix hjx) (hv i j hix hjx)
    refine hread.bind' ((reads_encOut hby (elemOk_of_tileOk h.target.1 hi hj) o.v).bind' ?_)
    dsimp only
    rw [hov, hofl, flags_or_none]
    exact .flagged _ _
  obtain ⟨t1, h1, n1⟩ := hwx 0 s (.self h.calm)
  obtain ⟨t2, h2, n2⟩ := hwy _ t1 n1
  obtain ⟨t3, h3, n3⟩ := reads_countRead wx (x.subRect sr sc).elems.length _ t2 n2
  obtain ⟨u, hu, hw⟩ := wrote_sub (g := g) h.target hel n3
  refine ⟨_, u, ans_keeping ?_, hw⟩
  rw [ans_bind_ok h1, ans_bind_ok h2]
  dsimp only
  rw [ans_bind_ok h3, hsub]
  exact hu

/-- The sub-tiles of a list are copied. -/
theorem wrote_copySubs (l : List (Nat × Nat)) : ∀ {P : Nat → Nat → Prop} {fl : Fl} {t : State}, CopyGoes s e x y wx wy fx fy Lx Ly a →
    Wrote s y wy Ly (copied fx fy a) P fl t →
    ∃ fl' u, ans (forIn l PUnit.unit fun p _ => do copySub e x y p.1 p.2; pure (ForInStep.yield PUnit.unit)) t = (.ok ⟨⟩, u) ∧
      Wrote s y wy Ly (copied fx fy a) (fun i j => P i j ∨ ∃ p ∈ l, InSub y p.1 p.2 i j) fl' u := by
  induction l with
  | nil =>
    intro P fl t _ h
    exact ⟨fl, t, rfl, h.congr fun i j => by simp⟩
  | cons p l ih =>
    intro P fl t hg h
    obtain ⟨fl1, u, hu, hw⟩ := wrote_copySub (hg.later h) p.1 p.2
    have hboth : Wrote s y wy Ly (copied fx fy a) (fun i j => P i j ∨ InSub y p.1 p.2 i j) (fl ||| fl1) u :=
      ⟨hw.calm, h.worked.trans hw.worked, h.part.trans hg.target.2.1 (hw.part.base h.worked.cluster)⟩
    obtain ⟨fl2, u', hu', hw'⟩ := ih hg hboth
    refine ⟨fl2, u', ?_, hw'.congr fun i j => ?_⟩
    · rw [ans_forIn_cons (body := fun p : Nat × Nat => copySub e x y p.1 p.2) hu]
      exact hu'
    · simp only [List.mem_cons, exists_eq_or_imp, or_assoc]

end

theorem calm_of_tst {s : State} {e : Entry} (h : TilReady s e) (hm : s.MemoryWf) (hc : s.Clear) (hs : StreamsAreCurrent s)
    (hl : s.launches = []) : Calm s := by
  obtain ⟨⟨hact, hair, -, -, ⟨-, -, hans⟩, -⟩, -⟩ := h
  obtain ⟨hwatch, -, -, -, -, hpoison, htransit, hwalks⟩ := hc
  refine ⟨hm.1, hs, hair, ?_, htransit, hwalks, hl, hpoison, hwatch⟩
  rw [hact, Option.any_some, hans]
  rfl

theorem sized_tile {x : Desc} (hr : 1 ≤ x.rows.toNat) (hc : 1 ≤ x.cols.toNat) : x.sized 65535 = true :=
  decide_eq_true ⟨hr, by have := x.rows.isLt; omega, hc, by have := x.cols.isLt; omega⟩

theorem meet_of_apart {a b : Nat × Nat} (h : a.1 + a.2 ≤ b.1 ∨ b.1 + b.2 ≤ a.1) : meet a b = false := decide_eq_false (by omega)

/-- tst of two operands whose source is not pending copies its sub-tiles one after another. -/
theorem exec_tst {s t : State} {e : Entry} {x y : TReg} (h : TilReady s e) (hxy : x ≠ y) (hins : e.ins = .tst x y) (hthunks : s.cur.thunks = [])
    (hstate : (descIn s x).state = 0) (hsized : (descIn s x).sized 65535 = true) (hsame : (descIn s y).same (descIn s x) = true)
    (hmeet : meet (descIn s x).span (descIn s y).span = false) (hair : t.air = none) (hdue : t.cur.flow.due = none)
    (ht : ans (forIn ((descIn s x).subTiles (descIn s x).whole) PUnit.unit fun p _ => do
      copySub e (descIn s x) (descIn s y) p.1 p.2; pure (ForInStep.yield PUnit.unit)) s = (.ok ⟨⟩, t)) :
    exec e.ins s = .next (t.left e) := by
  rw [hins]
  show execTst x y s = _
  unfold execTst
  refine tilOp_ok h ?_ hair hdue
  have hover := ans_forceOverlaps_none (s := s) (e := e) (out := (descIn s y).span) (acc := none) (srcs := [])
    (by rw [hthunks]; exact fun _ hu => nomatch hu)
  have hpending : ¬ (descIn s x).state = 1 := by rw [hstate]; decide
  rw [ans_bind_ok (ans_theTask s)]
  simp only [rdT_eq_descIn, hxy, hsized, hsame, hmeet, if_false, Bool.and_self, Bool.not_true, Bool.or_self, Bool.false_eq_true]
  rw [ans_bind_ok hover, ans_bind_ok (ans_theTask s)]
  simp only [rdT_eq_descIn, hpending, if_false]
  rw [ans_bind_ok ht]
  rfl

/-- Settles O26: sub-tile after sub-tile, the results of its elements are computed by reads that leave HBM, and then written where they
share no bit with the source, with each other, or with a page table. -/
theorem tstCopiesItsTile : Obligations.TstCopiesItsTile := by
  intro s e x y wx wy fx fy Lx Ly v h hxy hins hm hclear hstreams hlaunches hstate hrows hcols hyrows hycols hmeet hsrc hdst hapart
  have hcalm := calm_of_tst h hm hclear hstreams hlaunches
  obtain ⟨⟨-, hair, -, hhead, ⟨-, hreads, -⟩, -⟩, hstream, hdue, hadrift, -⟩ := id h
  have hgo : CopyGoes s e (descIn s x) (descIn s y) wx wy fx fy Lx Ly v :=
    ⟨hcalm, hstream ▸ hhead, hstream, hreads, hadrift, hyrows, hycols, hrows, hcols, hsrc, hdst, hapart⟩
  obtain ⟨fl, u, hu, hw⟩ := wrote_copySubs ((descIn s x).subTiles (descIn s x).whole) hgo (Near.self hcalm).wrote
  obtain ⟨-, -, hthunks, -⟩ := hclear
  have hexec : exec e.ins s = .next (u.left e) := exec_tst h hxy hins hthunks hstate (sized_tile hrows hcols)
    (Bool.and_eq_true_iff.2 ⟨beq_iff_eq.2 hyrows, beq_iff_eq.2 hycols⟩) (meet_of_apart hmeet) hw.calm.air (by rw [hw.worked.flow]; exact hdue) hu
  refine ⟨u.left e, hexec, ?_, fun d => ?_, fun i j hi hj => ?_, fun a k hn => ?_⟩
  · rw [left_til hstream, State.withTask_cur, queue_setQueue_self]
    exact congrArg (fun q => (Vector.get q (Stream.ix .til)).tail) hw.worked.queues
  · rw [left_til hstream]
    exact congrArg (fun g : Regs => g.td.get d.toFin) hw.worked.regs
  · have he := elemOk_of_tileOk hdst.1 hi hj
    have hcover : InSub (descIn s y) (i / 32) (j / 32) i j := ⟨hi, hj, rfl, rfl⟩
    rw [hyrows] at hi
    rw [hycols] at hj
    have hpart : PartWritten s (descIn s y) wy Ly (copied fx fy v) _ s.hbm (u.left e).hbm := hw.part
    exact hpart.holds he (hyrows ▸ hi) (hycols ▸ hj) (.inr ⟨_, mem_subTiles_whole hi hj, hcover⟩) (he.width ▸ enc_lt ..)
  · exact hw.part.rest a k fun i j x _ => hn i j x

end Sys2Proof.Machine

end

section

namespace Sys2Proof.Machine

/-! ## A sub-tile is marked done (R151, R152, R159, R167) -/

/-- Drops one after another take thunks away and add none, where each does. -/
theorem idx_foldl {drop : List Thunk → BitVec 8 → List Thunk} (h : ∀ ts u, ((drop ts u).map (·.idx)).Sublist (ts.map (·.idx)))
    (names : List (BitVec 8)) (ts : List Thunk) : ((names.foldl drop ts).map (·.idx)).Sublist (ts.map (·.idx)) := by
  induction names generalizing ts with
  | nil => exact List.Sublist.refl _
  | cons n names ih => exact (ih _).trans (h ts n)

theorem idx_release : ∀ (fuel : Nat) (ts : List Thunk) (u : BitVec 8), ((release fuel ts u).map (·.idx)).Sublist (ts.map (·.idx))
  | 0, _, _ => List.Sublist.refl _
  | fuel + 1, ts, u => by
    rw [release, ← idx_modThunk ts u (fun t => { t with refs := t.refs - 1 }) fun _ => rfl]
    split
    · exact List.Sublist.refl _
    · split
      · exact (idx_foldl (idx_release fuel) _ _).trans (List.filter_sublist.map _)
      · exact List.Sublist.refl _

section
variable {ts : List Thunk} {u : BitVec 8} {k : Thunk}

/-- A thunk that is complete and unreferenced leaves the table when it is freed. -/
theorem idx_freeThunk (hk : findThunk ts u = some k) (hc : k.complete = true) (hr : k.refs = 0) : ∀ x ∈ freeThunk ts u, x.idx ≠ u := by
  intro x hx he
  unfold freeThunk at hx
  rw [hk] at hx
  dsimp only at hx
  rw [if_pos ⟨hc, hr⟩] at hx
  obtain ⟨y, hy, hyx⟩ := List.mem_map.1 ((idx_foldl (idx_release thunkFuel) k.names _).subset (List.mem_map_of_mem (f := (·.idx)) hx))
  exact absurd (hyx.trans he) (by simpa using (List.mem_filter.1 hy).2)

theorem freeThunk_referenced (hk : findThunk ts u = some k) (hr : k.refs ≠ 0) : freeThunk ts u = ts := by
  unfold freeThunk
  rw [hk]
  exact if_neg fun h => hr h.2

theorem findThunk_modThunk (hk : findThunk ts u = some k) (f : Thunk → Thunk) (hf : ∀ x, (f x).idx = x.idx) :
    findThunk (modThunk ts u f) u = some (f k) := by
  have hid : ∀ x : Thunk, ((if x.idx = u then f x else x).idx == u) = (x.idx == u) := fun x => by
    split
    · rw [hf]
    · rfl
  unfold findThunk modThunk at *
  rw [List.find?_map, show ((fun x : Thunk => x.idx == u) ∘ fun t => if t.idx = u then f t else t) = fun x => x.idx == u from funext hid, hk]
  exact congrArg some (if_pos (by simpa using List.find?_some hk))

end

/-- The descriptors that name a thunk once it is complete. -/
def completed (u : BitVec 8) (g : Regs) : Regs := { g with td := g.td.map fun d => if d.state = 1 ∧ d.thk = u then { d with state := 2 } else d }

/-- A thunk that gives no signal is complete. -/
theorem ans_completeThunk {k : Thunk} (hsig : Instr.mmExt? k.ins = none) (s : State) : ans (completeThunk k) s = (.ok ⟨⟩, s.withTask fun t =>
    { t with regs := completed k.idx t.regs, thunks := freeThunk (modThunk t.thunks k.idx fun x => { x with complete := true }) k.idx }) := by
  unfold completeThunk
  rw [ans_bind_ok (ans_modTask _ s), hsig]
  rfl

section
variable {s : State} {u : BitVec 8} {k : Thunk} {sr sc : Nat}

theorem descIn_completed (d : TReg) (f : Task → Task) (hf : (f s.cur).regs = completed u s.cur.regs) :
    descIn (s.withTask f) d = if (descIn s d).state = 1 ∧ (descIn s d).thk = u then { descIn s d with state := 2 } else descIn s d := by
  unfold descIn
  rw [State.withTask_cur, hf]
  exact Vector.getElem_map ..

/-- The next sub-tile of a thunk that gives no signal is marked done. -/
theorem ans_subDone (hk : findThunk s.cur.thunks u = some k) (hsig : Instr.mmExt? k.ins = none) :
    ∃ g ts, ans (subDone u sr sc) s = (.ok ⟨⟩, s.withTask fun t => { t with regs := g, thunks := ts }) ∧
      SubTileMarked s (s.withTask fun t => { t with regs := g, thunks := ts }) u k sr sc := by
  obtain rfl := (findThunk_some hk).2
  generalize hdone : k.done ||| 2 ^ k.out.subIndex sr sc = done
  generalize hts : modThunk s.cur.thunks k.idx (fun x => { x with done := done }) = ts
  have hk' : findThunk ts k.idx = some { k with done } := hts ▸ findThunk_modThunk hk _ fun _ => rfl
  have hk'' := findThunk_modThunk hk' (fun x => { x with complete := true }) fun _ => rfl
  have hstep : ans (subDone k.idx sr sc) s = ans (if (List.range k.out.subCount).all done.testBit then completeThunk { k with done } else pure ⟨⟩)
      (s.withTask fun t => { t with thunks := ts }) := by
    unfold subDone
    rw [ans_bind_ok (ans_theTask s), hk]
    dsimp only
    rw [hdone, ans_bind_ok (ans_modTask _ s), ← hts]
    rfl
  have hall : (List.range k.out.subCount).all done.testBit = true ↔
      ∀ b < (k.out.rows.toNat + 31) / 32 * ((k.out.cols.toNat + 31) / 32), done.testBit b = true := by
    rw [List.all_eq_true]
    exact forall_congr' fun b => by rw [List.mem_range]; rfl
  have hdone' : k.done ||| 2 ^ (sr * ((k.out.cols.toNat + 31) / 32) + sc) = done := hdone
  unfold SubTileMarked
  dsimp only
  rw [hdone', hsig, hstep]
  by_cases h : (List.range k.out.subCount).all done.testBit = true
  · rw [if_pos h]
    refine ⟨_, _, ans_completeThunk hsig _, fun ⟨b, hb, hn⟩ => ?_, fun _ => ⟨fun d => ?_, fun sm => rfl, fun hr => ?_, fun hr => ?_⟩⟩
    · exact absurd (hall.1 h b hb) (by rw [hn]; decide)
    · exact descIn_completed d _ rfl
    · exact idx_freeThunk hk'' rfl hr
    · have hkeep := freeThunk_referenced hk'' hr
      exact hkeep.symm ▸ (findThunk_some hk'').1
  · rw [if_neg h]
    exact ⟨s.cur.regs, ts, rfl, fun _ => ⟨hts.symm, rfl⟩, fun hn => absurd (hall.2 hn) h⟩

end

/-! ## What a sub-tile's computing leaves alone (R168, R172, R389) -/

section
variable {s : State}

/-- Badger serves TIL's demand, or takes it up before all others'. -/
theorem ans_takeBadger {e : Entry} (hs : e.stream = .til) (hb : s.cur.badger = none ∨ s.cur.badger = some .til) :
    ∃ ws, ans (takeBadger e) s = (.ok ⟨⟩, s.withTask fun t => { t with badger := some .til, wants := ws }) := by
  unfold takeBadger
  rw [ans_bind_ok (ans_theTask s), hs]
  rcases hb with hb | hb
  · have hfirst : (s.cur.wants.any fun k => decide (requestOrder k < requestOrder .til)) = false :=
      List.any_eq_false.2 fun k _ => by simp [requestOrder]
    rw [hb, if_neg (by simp), hfirst]
    exact ⟨_, rfl⟩
  · rw [hb, if_pos rfl]
    refine ⟨s.cur.wants, ?_⟩
    rw [← hb]
    rfl

/-- No result of an earlier sub-tile is still to land. -/
theorem ans_finishPuts (h : s.cur.puts = none) : ans finishPuts s = (.ok ⟨⟩, s) := by
  unfold finishPuts
  rw [ans_bind_ok (ans_theTask s), h]
  rfl

/-- Nothing in a task's queues or copy engine has taken bytes early. -/
def TakesNothing (t : Task) : Prop := (∀ k : Stream, ∀ x ∈ t.queue k, x.reads = []) ∧ ∀ c ∈ t.vcq, c.reads = []

theorem TakesNothing.dropReads {t : Task} (h : TakesNothing t) (took : Nat × Nat × Nat) (sel : Entry → Bool) : t.dropReads took sel = t :=
  if_pos (List.all_eq_true.2 fun x hx => by rw [h.1 .ldq x hx]; rfl)

theorem TakesNothing.head {t : Task} (h : TakesNothing t) (k : Stream) :
    t.queue k = [] ∨ ∃ e rest, t.queue k = e :: rest ∧ e.reads.isEmpty = true := by
  cases hq : t.queue k with
  | nil => exact .inl rfl
  | cons e rest => exact .inr ⟨e, rest, rfl, by rw [h.1 k e (hq ▸ List.mem_cons_self)]; rfl⟩

theorem TakesNothing.untake {t : Task} (h : TakesNothing t) (gone : Granule → Bool) : t.untake gone = t := by
  have hvcq : (t.vcq.map fun c => if c.reads.isEmpty then c else { c with reads := c.reads.filter fun r => !gone r.1 }) = t.vcq :=
    (List.map_congr_left fun c hc => if_pos (by rw [h.2 c hc]; rfl)).trans (List.map_id _)
  unfold Task.untake
  dsimp only
  rw [hvcq]
  rcases h.head .skq with hs | ⟨e, rest, hs, he⟩ <;> rcases h.head .til with ht | ⟨e', rest', ht, he'⟩ <;> simp only [*, if_true]

/-- Where nothing has been taken early, a thunk's writes take nothing back. -/
theorem ans_thunkWrote (h : TakesNothing s.cur) (ord : Nat) (ps : List Patch) : ans (thunkWrote ord ps) s = (.ok ⟨⟩, s) := by
  have hfold : ∀ ps : List Patch, (ps.foldl (fun t p => t.dropReads (p.space, 16 * p.granule, 16) fun e => decide (ord < e.ord)) s.cur) = s.cur := by
    intro ps
    induction ps with
    | nil => rfl
    | cons p ps ih => rw [List.foldl_cons, h.dropReads, ih]
  unfold thunkWrote
  rw [ans_modTask]
  refine congrArg (fun t => (Except.ok PUnit.unit, { s with cur := t })) ?_
  dsimp only
  rw [hfold, h.untake]

end

end Sys2Proof.Machine

end

section

namespace Sys2Proof.Machine

/-! ## The sources of an element form (R154, R155, R160 to R163) -/

/-- A thunk of an element form, whose first source is z: where its output's elements take theirs lies within its sources. -/
structure ElementForm (k : Thunk) (z : Src) : Prop where
  first : k.srcs.head? = some z
  within : ∀ i j, i < k.out.rows.toNat → j < k.out.cols.toNat →
    (sourceAt k.ins i j).1 < z.desc.rows.toNat ∧ (sourceAt k.ins i j).2 < z.desc.cols.toNat
  view : ∀ kd d a off, k.ins = .tview kd d a off → ∀ i j, viewAt z.map k.viewOff i j = sourceAt k.ins i j
  second : ∀ d a b, k.ins = .tadd d a b ∨ k.ins = .tmul d a b → ∃ y, (k.srcs.drop 1).head? = some y ∧
    k.out.rows.toNat = y.desc.rows.toNat ∧ k.out.cols.toNat = y.desc.cols.toNat

/-- An instruction is an element form: tcpy, or one that gives values. -/
def IsElement (i : Instr) : Prop := (∃ d a, i = .tcpy d a) ∨ ∃ aux x y r, elementRow i aux x y = some r

theorem srcs_one {l : List Src} {d : Desc} {m : Nat} (h : (l.map fun z => (z.desc, z.map)) = [(d, m)]) :
    ∃ z, l = [z] ∧ z.desc = d ∧ z.map = m := by
  obtain ⟨z, rfl, hz⟩ := List.map_eq_singleton_iff.1 h
  exact ⟨z, rfl, (Prod.mk.inj hz).1, (Prod.mk.inj hz).2⟩

theorem srcs_two {l : List Src} {d d' : Desc} {m m' : Nat} (h : (l.map fun z => (z.desc, z.map)) = [(d, m), (d', m')]) :
    ∃ z y, l = [z, y] ∧ z.desc = d ∧ y.desc = d' := by
  obtain ⟨z, l', rfl, hz, hl⟩ := List.map_eq_cons_iff.1 h
  obtain ⟨y, rfl, hy, -⟩ := srcs_one hl
  exact ⟨z, y, rfl, (Prod.mk.inj hz).1, hy⟩

section
variable {k : Thunk} {x : TReg → Desc} {d a b : TReg}

/-- A form of two sources of its output's size. -/
theorem elementForm_two (hi : k.ins = .tadd d a b ∨ k.ins = .tmul d a b) (hout : k.out = x d)
    (hs : (k.srcs.map fun z => (z.desc, z.map)) = [(x a, 0), (x b, 0)])
    (ha : (x d).rows.toNat = (x a).rows.toNat ∧ (x d).cols.toNat = (x a).cols.toNat)
    (hb : (x d).rows.toNat = (x b).rows.toNat ∧ (x d).cols.toNat = (x b).cols.toNat) : ∃ z, ElementForm k z := by
  obtain ⟨z, y, hl, hz, hy⟩ := srcs_two hs
  have hat (i j : Nat) : sourceAt k.ins i j = (i, j) := by rcases hi with hi | hi <;> rw [hi] <;> rfl
  refine ⟨z, by rw [hl]; rfl, fun i j h1 h2 => ?_, fun kd _ _ off hv => ?_, fun _ _ _ _ => ⟨y, by rw [hl]; rfl, ?_⟩⟩
  · rw [hat, hz, ← ha.1, ← ha.2, ← hout]
    exact ⟨h1, h2⟩
  · rcases hi with hi | hi <;> rw [hi] at hv <;> cases hv
  · rw [hout, hy]
    exact hb

/-- A form of one source of its output's size. -/
theorem elementForm_one (hi : (∃ c, k.ins = .tscal d a c) ∨ (∃ fn, k.ins = .tmap fn d a) ∨ k.ins = .tcpy d a) (hout : k.out = x d)
    (hs : (k.srcs.map fun z => (z.desc, z.map)) = [(x a, 0)])
    (ha : (x d).rows.toNat = (x a).rows.toNat ∧ (x d).cols.toNat = (x a).cols.toNat) : ∃ z, ElementForm k z := by
  obtain ⟨z, hl, hz, -⟩ := srcs_one hs
  have hat (i j : Nat) : sourceAt k.ins i j = (i, j) := by rcases hi with ⟨_, hi⟩ | ⟨_, hi⟩ | hi <;> rw [hi] <;> rfl
  refine ⟨z, by rw [hl]; rfl, fun i j h1 h2 => ?_, fun kd _ _ off hv => ?_, fun _ _ _ hv => ?_⟩
  · rw [hat, hz, ← ha.1, ← ha.2, ← hout]
    exact ⟨h1, h2⟩
  · rcases hi with ⟨_, hi⟩ | ⟨_, hi⟩ | hi <;> rw [hi] at hv <;> cases hv
  · rcases hi with ⟨_, hi⟩ | ⟨_, hi⟩ | hi <;> rw [hi] at hv <;> rcases hv with hv | hv <;> cases hv

/-- A view, whose map is that of its kind. -/
theorem elementForm_view {kd : ViewKind} {off : BitVec 14} {m : Nat} (hi : k.ins = .tview kd d a off) (hout : k.out = x d)
    (hs : (k.srcs.map fun z => (z.desc, z.map)) = [(x a, m)]) (hm : ∀ i j, viewAt m off.toNat i j = sourceAt (.tview kd d a off) i j)
    (ha : ∀ i j, i < (x d).rows.toNat → j < (x d).cols.toNat → (sourceAt (.tview kd d a off) i j).1 < (x a).rows.toNat ∧
      (sourceAt (.tview kd d a off) i j).2 < (x a).cols.toNat) : ∃ z, ElementForm k z := by
  obtain ⟨z, hl, hz, hzm⟩ := srcs_one hs
  refine ⟨z, by rw [hl]; rfl, fun i j => ?_, fun _ _ _ _ _ i j => ?_, fun _ _ _ hv => ?_⟩
  · rw [hi, hz, hout]
    exact ha i j
  · unfold Thunk.viewOff
    rw [hi, hzm]
    exact hm i j
  · rw [hi] at hv
    rcases hv with hv | hv <;> cases hv

theorem elementForm_of {caps : List Word} (h : HoldsItsForm k caps x) (he : IsElement k.ins) : ∃ z, ElementForm k z := by
  obtain ⟨d, srcs, shapes, hrow, hshapes, hout, hs⟩ := h
  unfold appendRow at hrow
  generalize k.aux = aux at hrow
  have hnot {i : Instr} (hi : k.ins = i) (hcopy : ∀ d a, i ≠ .tcpy d a) (hnone : ∀ aux x y, elementRow i aux x y = none) : False := by
    rcases hi ▸ he with ⟨d, a, h⟩ | ⟨aux, x, y, r, h⟩
    · exact hcopy d a h
    · exact Option.some_ne_none r (h.symm.trans (hnone aux x y))
  split at hrow
  case h_1 hi => exact (hnot hi nofun fun _ _ _ => rfl).elim
  case h_2 hi => exact (hnot hi nofun fun _ _ _ => rfl).elim
  case h_3 hi => exact (hnot hi nofun fun _ _ _ => rfl).elim
  case h_4 hi => cases hrow; exact elementForm_two (.inl hi) hout hs hshapes.1 hshapes.2
  case h_5 hi => cases hrow; exact elementForm_two (.inr hi) hout hs hshapes.1 hshapes.2
  case h_6 hi => cases hrow; exact elementForm_one (.inl ⟨_, hi⟩) hout hs hshapes
  case h_7 hi => cases hrow; exact elementForm_one (.inr (.inl ⟨_, hi⟩)) hout hs hshapes
  case h_8 hi => cases hrow; exact elementForm_one (.inr (.inr hi)) hout hs hshapes
  case h_9 hi => exact (hnot hi nofun fun _ _ _ => rfl).elim
  case h_10 hi =>
    rename_i kd d a off
    cases kd <;> cases hrow <;> refine elementForm_view hi hout hs (fun i j => rfl) fun i j h1 h2 => ?_ <;>
      · simp only [sourceAt] at hshapes ⊢
        omega
  case h_11 => cases hrow

end

end Sys2Proof.Machine

end

section

namespace Sys2Proof.Machine

/-! ## The values of a sub-tile's elements (R155, R160 to R163) -/

theorem code_of_format {c : BitVec 4} {f : Fmt} : Fmt.ofCode c = some f → c = f.code := by cases f <;> (revert c; decide)

/-- Two pages of one format. -/
theorem sameFormat {l l' : Word} {f : Fmt} (h : Fmt.ofCode (leafFmt l) = some f) (h' : Fmt.ofCode (leafFmt l') = some f) : leafFmt l = leafFmt l' :=
  (code_of_format h).trans (code_of_format h').symm

/-- The flags of a list are those that some member of it has. -/
theorem getLsbD_orFlags (l : List Fl) (c : Nat) : (orFlags l).getLsbD c = true ↔ ∃ x ∈ l, x.getLsbD c = true := by
  induction l with
  | nil => simp [orFlags]
  | cons x l ih => rw [Reads.orFlags_cons, BitVec.getLsbD_or, Bool.or_eq_true, ih, List.exists_mem_cons_iff]

/-- The value of a map form is that of its row of Table 6. -/
theorem elementRow_tmap (fn : MapFn) (d a : TReg) (aux : BitVec 32) (x y : FV) : elementRow (.tmap fn d a) aux x y = some (mapValue fn x) := by
  cases fn <;> cases x <;> rfl

section
variable {s : State} {g : FaultInfo} {k : Thunk} {z : Src} {b : Desc} {wa wb w : Nat} {fa fb f : Fmt} {La Lb L : Nat → Nat → Word}
  {av bv v : Nat → Nat → Nat} {i j : Nat}

/-- An element of a tile that is only read, decoded. -/
theorem reads_tileOpnd {d : Desc} (hg : ByQueue s g) (h : TileHolds s d w f L v) (hi : i < d.rows.toNat) (hj : j < d.cols.toNat) :
    ∃ o : Opnd, o.v = f.dec (v i j) ∧ o.fl = 0 ∧ Reads s (readOpnd g d w i j) o 0 :=
  reads_readOpnd hg (elemOk_of_tileOk h.1 hi hj) (h.2 i j hi hj)

/-- A value computed from one operand, which raised no flag. -/
theorem reads_ofOne {m : M Opnd} {o : Opnd} (h : Reads s m o 0) (hfl : o.fl = 0) (op : FV → FV × Fl) :
    Reads s (do
      let x ← m
      let (v, fl) := op x.v
      return (v, fl ||| x.fl)) (op o.v) 0 := by
  refine h.bind' ?_
  dsimp only
  rw [hfl, flags_or_none]
  exact .pure _

/-- A value computed from two operands, which raised no flag. -/
theorem reads_ofTwo {m m' : M Opnd} {o o' : Opnd} (h : Reads s m o 0) (h' : Reads s m' o' 0) (hfl : o.fl = 0) (hfl' : o'.fl = 0)
    (op : FV → FV → FV × Fl) : Reads s (do
      let x ← m
      let y ← m'
      let (v, fl) := op x.v y.v
      return (v, fl ||| x.fl ||| y.fl)) (op o.v o'.v) 0 := by
  refine h.bind' (h'.bind' ?_)
  dsimp only
  rw [hfl, hfl', flags_or_none, flags_or_none]
  exact .pure _

/-- The exact value of an element of an element form is that of its row, from its sources' elements. -/
theorem reads_elementValue (hg : ByQueue s g) (hk : ElementForm k z) (hz : TileHolds s z.desc wa fa La av)
    (hb : ∀ d a c, k.ins = .tadd d a c ∨ k.ins = .tmul d a c →
      k.out.rows.toNat = b.rows.toNat ∧ k.out.cols.toNat = b.cols.toNat ∧ TileHolds s b wb fb Lb bv)
    (hi : i < k.out.rows.toNat) (hj : j < k.out.cols.toNat) {r : FV × Fl}
    (hr : elementRow k.ins k.aux (fa.dec (av (sourceAt k.ins i j).1 (sourceAt k.ins i j).2)) (fb.dec (bv i j)) = some r) :
    Reads s (elementValue g k z.desc b wa wb i j) r 0 := by
  obtain ⟨hzi, hzj⟩ := hk.within i j hi hj
  obtain ⟨o, hv, hfl, hread⟩ := reads_tileOpnd hg hz hzi hzj
  have hsecond : ∀ d a c, k.ins = .tadd d a c ∨ k.ins = .tmul d a c →
      ∃ o' : Opnd, o'.v = fb.dec (bv i j) ∧ o'.fl = 0 ∧ Reads s (readOpnd g b wb i j) o' 0 := fun d a c h => by
    obtain ⟨hrows, hcols, hby⟩ := hb d a c h
    exact reads_tileOpnd hg hby (hrows ▸ hi) (hcols ▸ hj)
  rw [← hv] at hr
  unfold elementValue
  split
  next d a c hins =>
    obtain ⟨o', hv', hfl', hread'⟩ := hsecond d a c (.inl hins)
    rw [← hv', hins] at hr
    rw [hins] at hread
    exact Option.some_injective _ hr ▸ reads_ofTwo hread hread' hfl hfl' FV.add
  next d a c hins =>
    obtain ⟨o', hv', hfl', hread'⟩ := hsecond d a c (.inr hins)
    rw [← hv', hins] at hr
    rw [hins] at hread
    exact Option.some_injective _ hr ▸ reads_ofTwo hread hread' hfl hfl' FV.mul
  next hins =>
    rw [hins] at hr hread
    exact Option.some_injective _ hr ▸ reads_ofOne hread hfl fun x => x.mul (f32 k.aux)
  next fn d a hins =>
    rw [hins] at hr hread
    rw [elementRow_tmap] at hr
    exact Option.some_injective _ hr ▸ reads_ofOne hread hfl (mapValue fn)
  next hins =>
    rw [hins] at hr
    cases hr
  next hadd hmul hscal hmap hred =>
    unfold elementRow at hr
    split at hr
    case h_1 hins => exact (hadd _ _ _ hins).elim
    case h_2 hins => exact (hmul _ _ _ hins).elim
    case h_3 hins => exact (hscal _ _ _ hins).elim
    case h_4 hins => exact (hmap _ _ _ hins).elim
    case h_5 hins =>
      have hview := hk.view _ _ _ _ hins i j
      rw [hk.first]
      dsimp only [Option.map_some, Option.getD_some]
      rw [hview]
      refine hread.bind' ?_
      rw [hfl, Option.some_injective _ hr]
      exact .pure _
    case h_6 => cases hr

/-- What the sub-tile of an element form needs: its sources hold their elements, no access of which meets a fault, its output can be
written, and each element's value and flags are those of its form, or tcpy's of its source. -/
structure FormGoes (s : State) (k : Thunk) (z : Src) (sr sc : Nat) (wa wb w : Nat) (fa fb f : Fmt) (La Lb L : Nat → Nat → Word)
    (av bv v : Nat → Nat → Nat) (fl : Nat → Nat → Fl) : Prop where
  form : ElementForm k z
  filled : ∀ y ∈ k.srcs, 1 ≤ y.desc.rows.toNat ∧ 1 ≤ y.desc.cols.toNat
  first : TileHolds s z.desc wa fa La av
  second : ∀ y, (k.srcs.drop 1).head? = some y → TileHolds s y.desc wb fb Lb bv
  target : TileTarget s k.out w f L
  row : sr < (k.out.rows.toNat + 31) / 32
  col : sc < (k.out.cols.toNat + 31) / 32
  values : (∃ d y, k.ins = .tcpy d y ∧ fa = f ∧ ∀ i j, v i j = av i j ∧ fl i j = 0) ∨
    ∀ i j, InSub k.out sr sc i j → ∃ y g,
      elementRow k.ins k.aux (fa.dec (av (sourceAt k.ins i j).1 (sourceAt k.ins i j).2)) (fb.dec (bv i j)) = some (y, g) ∧
      v i j = (f.enc .rne 0 y).1 ∧ fl i j = g ||| (f.enc .rne 0 y).2

section
variable {sr sc : Nat} {fl : Nat → Nat → Fl}

/-- A sub-tile's element of tcpy is its source's, in a page of the same format. -/
theorem reads_copied (hg : ByQueue s g) (hz : TileHolds s z.desc wa f La av) (hT : TileTarget s k.out w f L) (hzi : i < z.desc.rows.toNat)
    (hzj : j < z.desc.cols.toNat) (hi : i < k.out.rows.toNat) (hj : j < k.out.cols.toNat) :
    Reads s (do
      let (leaf, e) ← tileElem (g.role 2) z.desc wa i j false
      let x ← loadElem (g.role 2) leaf e
      let (ol, oe) ← outElem g k.out w i j
      if leafFmt leaf ≠ leafFmt ol ∨ leafBg leaf ≠ leafBg ol then raiseE g fcFmt e.va
      return ⟨ol, oe, x⟩) (putOf k.out w L av (i, j)) 0 := by
  have he := elemOk_of_tileOk hz.1 hzi hzj
  have ho := elemOk_of_tileOk hT.1 hi hj
  refine (reads_tileElem (hg.role 2) he false).bind' ((reads_loadElem (hg.role 2) he (hz.2 i j hzi hzj)).bind' ((reads_outElem hg ho).bind' ?_))
  dsimp only
  rw [if_neg (by rw [sameFormat he.format ho.format, he.unscaled, ho.unscaled]; simp)]
  exact .pure _

/-- The results of a sub-tile are those of its elements. -/
theorem reads_subTilePuts (hg : ByQueue s g) (h : FormGoes s k z sr sc wa wb w fa fb f La Lb L av bv v fl) (hins : Instr.mmExt? k.ins = none) :
    Reads s (subTilePuts g k (k.out.subRect sr sc)) (w, (k.out.subRect sr sc).elems.map (putOf k.out w L v))
      (orFlags ((k.out.subRect sr sc).elems.map fun p => fl p.1 p.2)) := by
  have hzmem : z ∈ k.srcs := List.mem_of_mem_head? (Option.mem_def.2 h.form.first)
  obtain ⟨hzr, hzc⟩ := h.filled z hzmem
  have hrow := h.row
  have hcol := h.col
  obtain ⟨wb', hwb, hwbs⟩ : ∃ wb', Reads s (tileWidth (g.role 2) (((k.srcs.drop 1).head?.map (·.desc)).getD z.desc)) wb' 0 ∧
      ∀ y, (k.srcs.drop 1).head? = some y → wb' = wb := by
    cases hy : (k.srcs.drop 1).head? with
    | none => exact ⟨wa, reads_tileWidth (hg.role 2) h.first.1 hzr hzc false, nofun⟩
    | some y =>
      obtain ⟨hyr, hyc⟩ := h.filled y (List.mem_of_mem_drop (List.mem_of_mem_head? (Option.mem_def.2 hy)))
      exact ⟨wb, reads_tileWidth (hg.role 2) (h.second y hy).1 hyr hyc false, fun _ _ => rfl⟩
  have hsecond : ∀ d a c, k.ins = .tadd d a c ∨ k.ins = .tmul d a c →
      k.out.rows.toNat = (((k.srcs.drop 1).head?.map (·.desc)).getD z.desc).rows.toNat ∧
      k.out.cols.toNat = (((k.srcs.drop 1).head?.map (·.desc)).getD z.desc).cols.toNat ∧
      TileHolds s (((k.srcs.drop 1).head?.map (·.desc)).getD z.desc) wb' fb Lb bv := fun d a c hi => by
    obtain ⟨y, hy, hrows, hcols⟩ := h.form.second d a c hi
    rw [hwbs y hy, hy]
    exact ⟨hrows, hcols, h.second y hy⟩
  unfold subTilePuts
  refine (reads_tileWidth (hg.role 3) h.target.1 (by omega) (by omega) true).bind' ?_
  rw [hins, h.form.first, if_neg (by simp)]
  dsimp only [Option.map_some, Option.getD_some]
  refine (reads_tileWidth (hg.role 2) h.first.1 hzr hzc false).bind' (hwb.bind' ((reads_countRead wa _).bind' ?_))
  rw [← flags_or_none (orFlags _)]
  refine (Reads.mapM fun p hp => ?_).bind (Reads.pure _)
  obtain ⟨i, j⟩ := p
  have hin : InSub k.out sr sc i j := mem_subRect.1 hp
  obtain ⟨hi, hj, -⟩ := id hin
  split
  next d y hcopy =>
    rcases h.values with ⟨-, -, -, rfl, hv⟩ | hv
    · have hat := h.form.within i j hi hj
      rw [hcopy] at hat
      have hput : putOf k.out w L v (i, j) = putOf k.out w L av (i, j) := congrArg (Put.mk _ _) (hv i j).1
      rw [hput, (hv i j).2]
      exact reads_copied hg h.first h.target hat.1 hat.2 hi hj
    · obtain ⟨_, _, hnone, -⟩ := hv i j hin
      rw [hcopy] at hnone
      cases hnone
  next hcopy =>
    rcases h.values with ⟨d, y, hc, -⟩ | hv
    · exact (hcopy d y hc).elim
    · obtain ⟨y, e, hr, hval, hfl⟩ := hv i j hin
      have hput : putOf k.out w L v (i, j) = ⟨L i j, ⟨holderOf k.out w i j, elemSub w j⟩, (f.enc .rne 0 y).1⟩ := congrArg (Put.mk _ _) hval
      rw [hput]
      dsimp only
      rw [hfl]
      refine (reads_elementValue (hg.role 2) h.form h.first hsecond hi hj hr).bind' ?_
      exact (reads_encOut hg (elemOk_of_tileOk h.target.1 hi hj) y).bind' (Reads.flagged _ _)

end

end

end Sys2Proof.Machine

end

section

namespace Sys2Proof.Machine

/-! ## MATRIX_COMMAND_COMPLETE of an element form (R167, R169, R178) -/

/-- A state that a sub-tile's computing and marking leave: its elements are written, and then it is marked done. -/
def SubTileComputed (s : State) (u : BitVec 8) (k : Thunk) (sr sc w : Nat) (L : Nat → Nat → Word) (v : Nat → Nat → Nat) (fl : Nat → Nat → Fl)
    (t : State) : Prop :=
  ∃ m g ts, Wrote s k.out w L v (InSub k.out sr sc) (orFlags ((k.out.subRect sr sc).elems.map fun p => fl p.1 p.2)) m ∧
    t = m.withTask (fun x => { x with regs := g, thunks := ts }) ∧ SubTileMarked s t u k sr sc

theorem subTileMarked_congr {s m t : State} {u : BitVec 8} {k : Thunk} {sr sc : Nat} (h : SubTileMarked m t u k sr sc)
    (hthunks : m.cur.thunks = s.cur.thunks) (hregs : m.cur.regs = s.cur.regs) : SubTileMarked s t u k sr sc := by
  unfold SubTileMarked descIn at *
  rwa [hthunks, hregs] at h

theorem mmExt?_of_isElement {i : Instr} (h : IsElement i) : Instr.mmExt? i = none := by
  unfold Instr.mmExt?
  rcases h with ⟨d, a, rfl⟩ | ⟨aux, x, y, r, h⟩
  · rfl
  · split
    case h_4 => rfl
    all_goals cases h

section
variable {s : State} {e : Entry} {u : BitVec 8} {k : Thunk} {z : Src} {sr sc wa wb w : Nat} {fa fb f : Fmt} {La Lb L : Nat → Nat → Word}
  {av bv v : Nat → Nat → Nat} {fl : Nat → Nat → Fl}

/-- What else the computing of a sub-tile needs: nothing is met on the way, the entry is at the head of TIL, no results or bytes taken
early are on their way, and the sub-tile is not done. -/
structure SubTileDue (s : State) (e : Entry) (u : BitVec 8) (k : Thunk) (sr sc : Nat) : Prop where
  calm : Calm s
  head : (s.cur.queue .til).head? = some e
  stream : e.stream = .til
  takes : TakesNothing s.cur
  puts : s.cur.puts = none
  adrift : s.cur.adrift = []
  thunk : findThunk s.cur.thunks u = some k
  undone : k.done.testBit (k.out.subIndex sr sc) = false
  plain : Instr.mmExt? k.ins = none

theorem SubTileDue.reads (h : SubTileDue s e u k sr sc) : e.reads = [] := h.takes.1 .til e (List.mem_of_mem_head? (Option.mem_def.2 h.head))

theorem TakesNothing.later {t : State} {g : Fl} (h : TakesNothing s.cur) (hw : Worked s g t) : TakesNothing t.cur := by
  unfold TakesNothing Task.queue
  rw [hw.queues, show t.cur.vcq = s.cur.vcq from congrArg (·.cur.vcq) hw]
  exact h

/-- One sub-tile of an element form is computed, written and marked. -/
theorem computed_computeSub (h : SubTileDue s e u k sr sc) (hf : FormGoes s k z sr sc wa wb w fa fb f La Lb L av bv v fl) :
    ∃ t, ans (computeSub e u sr sc) s = (.ok ⟨⟩, t) ∧ SubTileComputed s u k sr sc w L v fl t := by
  have hfind : ((findThunk s.cur.thunks u).filter fun t => !t.done.testBit (t.out.subIndex sr sc)) = some k := by
    rw [h.thunk, Option.filter_some, h.undone]
    rfl
  unfold computeSub
  rw [ans_bind_ok (ans_settlePath h.adrift .mx), ans_bind_ok (ans_finishPuts h.puts), ans_bind_ok (ans_theTask s), hfind]
  dsimp only
  generalize hg : ({ e.info with thk := thkWord k sr sc, tag := 0, queue := some (s.cur.coreOf.getD 0, 2, e.pfd) } : FaultInfo) = g
  have hby : ByQueue s g := byQueue_of_head h.head h.reads (by rw [← hg]; exact h.stream) (by rw [← hg]; rfl)
    (unit := s.cur.coreOf.getD 0) (role := 2) (pfd := e.pfd) (by rw [← hg])
  obtain ⟨t1, h1, n1⟩ := reads_subTilePuts hby hf h.plain 0 s (.self h.calm)
  rw [none_or_flags] at n1
  obtain ⟨m, h2, hw⟩ := wrote_writePuts (v := v) g hf.target (l := (k.out.subRect sr sc).elems)
    (fun p hp => ⟨(mem_subRect.1 hp).1, (mem_subRect.1 hp).2.1⟩) n1
  have hwork : ans (keeping (do
      let (w, ps) ← subTilePuts g k (k.out.subRect sr sc)
      writePuts g w ps
      thunkWrote k.ord (putPatches s.cur.cluster w ps))) s = (.ok ⟨⟩, m) := by
    refine ans_keeping ((ans_bind_ok h1).trans ?_)
    dsimp only
    rw [ans_bind_ok h2]
    exact ans_thunkWrote (h.takes.later hw.worked) ..
  obtain ⟨gr, ts, hdone, hmark⟩ := ans_subDone (s := m) (sr := sr) (sc := sc) (hw.worked.thunks.symm ▸ h.thunk) h.plain
  refine ⟨_, ?_, m, gr, ts, hw.congr fun i j => mem_subRect, rfl, subTileMarked_congr hmark hw.worked.thunks hw.worked.regs⟩
  rw [ans_bind_ok hwork, ans_bind_ok (ans_get m), hw.calm.air]
  exact hdone

/-- Badger serves TIL. -/
def State.forTil (s : State) (ws : List Stream) : State := s.withTask fun t => { t with badger := some .til, wants := ws }

theorem Calm.forTil (h : Calm s) (ws : List Stream) : Calm (s.forTil ws) :=
  ⟨h.wf, h.current, h.air, h.kept, h.transit, h.walks, h.launches, h.poison, h.unwatched⟩

theorem SubTileDue.forTil (h : SubTileDue s e u k sr sc) (ws : List Stream) : SubTileDue (s.forTil ws) e u k sr sc :=
  ⟨h.calm.forTil ws, h.head, h.stream, h.takes, h.puts, h.adrift, h.thunk, h.undone, h.plain⟩

theorem FormGoes.forTil (h : FormGoes s k z sr sc wa wb w fa fb f La Lb L av bv v fl) (ws : List Stream) :
    FormGoes (s.forTil ws) k z sr sc wa wb w fa fb f La Lb L av bv v fl :=
  ⟨h.form, h.filled, h.first, h.second, h.target, h.row, h.col, h.values⟩

/-- What an element of a sub-tile holds fits its width. -/
theorem FormGoes.value_lt (h : FormGoes s k z sr sc wa wb w fa fb f La Lb L av bv v fl) {i j : Nat}
    (hin : InSub k.out sr sc i j) : v i j < 2 ^ w := by
  obtain ⟨hi, hj, -⟩ := id hin
  rw [← (elemOk_of_tileOk h.target.1 hi hj).width]
  rcases h.values with ⟨d, y, hcopy, rfl, hv⟩ | hv
  · obtain ⟨hzi, hzj⟩ := h.form.within i j hi hj
    rw [hcopy] at hzi hzj
    rw [(hv i j).1, (elemOk_of_tileOk h.first.1 hzi hzj).width]
    exact (h.first.2 i j hzi hzj).1
  · obtain ⟨y, g, -, hval, -⟩ := hv i j hin
    rw [hval]
    exact enc_lt ..

/-- The flags that a sub-tile raises are those of its elements. -/
theorem getLsbD_subFlags (d : Desc) (sr sc c : Nat) (fl : Nat → Nat → Fl) :
    (orFlags ((d.subRect sr sc).elems.map fun p => fl p.1 p.2)).getLsbD c = true ↔ ∃ i j, InSub d sr sc i j ∧ (fl i j).getLsbD c = true := by
  simp only [getLsbD_orFlags, List.mem_map, Prod.exists, mem_subRect]
  exact ⟨fun ⟨_, ⟨i, j, hin, hx⟩, hc⟩ => ⟨i, j, hin, hx ▸ hc⟩, fun ⟨i, j, hin, hc⟩ => ⟨_, ⟨i, j, hin, rfl⟩, hc⟩⟩

/-- The next sub-tile of the demand at the head of TIL is of an element form. -/
theorem exec_matrixCommandComplete {core : Nat} {rest : List Entry} {more : List DemandOp} (hrun : s.cur.status = .running core)
    (hqueue : s.cur.queue .til = e :: rest) (hbadger : s.cur.badger = none ∨ s.cur.badger = some .til) (hdue : s.cur.flow.due = none)
    (hplan : e.planLeft s.cur = .compute u sr sc :: more) (h : SubTileDue s e u k sr sc)
    (hf : FormGoes s k z sr sc wa wb w fa fb f La Lb L av bv v fl) :
    ∃ ws b t, SubTileComputed (s.forTil ws) u k sr sc w L v fl t ∧
      exec .matrixCommandComplete s = .next (t.withTask fun x => { x with badger := b }) := by
  obtain ⟨ws, hbad⟩ := ans_takeBadger h.stream hbadger
  obtain ⟨t, ht, hcomp⟩ := computed_computeSub (h.forTil ws) (hf.forTil ws)
  have hdue' : t.cur.flow.due = none := by
    obtain ⟨m, g, ts, hw, rfl, -⟩ := hcomp
    rw [State.withTask_cur]
    dsimp only
    rw [hw.worked.flow]
    exact hdue
  have hop : ans (demandOp e (.compute u sr sc)) (s.forTil ws) = (.ok ⟨⟩, t) := by
    unfold demandOp
    dsimp only
    rw [ans_bind_ok ht, ans_bind_ok (ans_theTask t), hdue']
    rfl
  have hloop : ans (forIn (firstSub (e.planLeft s.cur)) PUnit.unit fun o _ => do demandOp e o; pure (ForInStep.yield PUnit.unit)) (s.forTil ws) =
      (.ok ⟨⟩, t) := by
    rw [hplan]
    exact ans_forIn_cons (l := []) hop
  refine ⟨ws, if (e.planLeft t.cur).isEmpty then none else t.cur.badger, t, hcomp, ?_⟩
  show execMatrixCommandComplete s = _
  unfold execMatrixCommandComplete
  rw [hqueue]
  dsimp only
  rw [if_neg (by simp [hplan, Task.isRunning, hrun])]
  refine runM_ok ((ans_bind_ok hbad).trans ((ans_bind_ok hloop).trans ?_))
  rw [ans_bind_ok (ans_theTask t)]
  split <;> rfl

end

/-- Settles O60: the results of the sub-tile's elements, each its form's value of its sources' elements, are computed by reads that leave
HBM and raise the elements' flags, and are then written where they share no bit with each other or with a page table. -/
theorem elementFormsComputeTheirSubTiles : Obligations.ElementFormsComputeTheirSubTiles := by
  intro s core e rest u sr sc more k caps x wa wb w fa fb f La Lb L a b v fl hrun hqueue hstream hplan hbadger hdue hact hair hlands _ hm hwatch
    hpoison htransit hwalks hlaunches hcurrent hfind _ hsr hsc hundone hholds hfilled hfirst hsecond htarget inSub hvalues
  obtain ⟨hreads, hvcq, hputs, hadrift⟩ := hlands
  have hin : inSub (32 * sr) (32 * sc) := ⟨by omega, by omega, by omega, by omega⟩
  have hel : IsElement k.ins := hvalues.imp (fun ⟨d, y, h, _⟩ => ⟨d, y, h⟩) fun h => by
    obtain ⟨y, g, h, -⟩ := h _ _ hin
    exact ⟨_, _, _, _, h⟩
  obtain ⟨z, hform⟩ := elementForm_of hholds hel
  have hcalm : Calm s := ⟨hm.1, hcurrent, hair, by rw [hact]; rfl, htransit, hwalks, hlaunches, hpoison, hwatch⟩
  have hsub : SubTileDue s e u k sr sc :=
    ⟨hcalm, by rw [hqueue]; rfl, hstream, ⟨hreads, hvcq⟩, hputs, hadrift, hfind, hundone, mmExt?_of_isElement hel⟩
  have hf : FormGoes s k z sr sc wa wb w fa fb f La Lb L a b v fl :=
    ⟨hform, hfilled, hfirst z hform.first, hsecond, htarget, hsr, hsc, hvalues⟩
  obtain ⟨ws, bad, t, ⟨m, g, ts, hw, rfl, hmark⟩, hexec⟩ := exec_matrixCommandComplete hrun hqueue hbadger hdue hplan hsub hf
  have hpart : PartWritten s k.out w L v (InSub k.out sr sc) s.hbm m.hbm := hw.part.base rfl
  refine ⟨_, _, hexec, fun i j hij => ?_, fun a c hn => ?_, hw.worked.csram, hw.worked.hostMem, hw.worked.peerMem,
    hw.worked.others, hw.worked.queues, hw.worked.fpst, fun c => getLsbD_subFlags k.out sr sc c fl, hmark⟩
  · exact hpart.holds (elemOk_of_tileOk htarget.1 hij.1 hij.2.1) hij.1 hij.2.1 hij (hf.value_lt hij)
  · exact hpart.rest a c fun i j x hij => hn i j x hij

end Sys2Proof.Machine

end
